-- ==== Sys2Proof/Word.lean ====
section
/-! DEFINITION. The words of the machine (R3, R4): bytes, 32-bit lanes, 64-bit words and the 512-byte
vector entries, with their lanes and bytes in little-endian order. -/

namespace Sys2Proof

/-- One byte of memory. -/
abbrev Byte := BitVec 8

/-- One 32-bit lane of a vector register, queue entry or accumulator row (R92). -/
abbrev Lane := BitVec 32

/-- A 64-bit word: an x or g register, an address, a system register (R92). -/
abbrev Word := BitVec 64

/-- 512 bytes: a v register or a q or w entry of 128 lanes (R87, R92). -/
abbrev Vec := BitVec 4096

end Sys2Proof
end

