-- ==== Sys2Proof/Syntax.lean ====
section
/-! DEFINITION. The abstract syntax: the fields of an instruction word (R73), of a micro-operation (R237),
and `Instr`, one constructor for each row of the table of operations and events. -/

namespace Sys2Proof

/-- The scheduling fields of an instruction word (R73): DELAY, SUSP, POP and PUSH. -/
structure Hdr where
  delay : BitVec 10
  susp  : Bool
  pop   : BitVec 3
  push  : BitVec 3
  deriving DecidableEq, Repr

/-- An R-form word (R73): three register fields, a modifier and, where a cell admits one, the 48 bits
of its extension word (R76). -/
structure RForm where
  hdr : Hdr
  fd  : BitVec 7
  fa  : BitVec 7
  fb  : BitVec 7
  mod : BitVec 15
  ext : Option (BitVec 48)
  deriving DecidableEq, Repr

/-- An I-form word (R73): two register fields, a 22-bit immediate and the optional extension (R76). -/
structure IForm where
  hdr : Hdr
  fd  : BitVec 7
  fa  : BitVec 7
  imm : BitVec 22
  ext : Option (BitVec 48)
  deriving DecidableEq, Repr

/-- The fields of a micro-operation (R237). -/
structure UForm where
  bnd  : Bool
  tgt  : BitVec 12
  ua   : BitVec 3
  ub   : BitVec 3
  ud   : BitVec 3
  fsel : BitVec 2
  ksel : BitVec 2
  imm  : BitVec 16
  out  : BitVec 4
  lq   : BitVec 2
  dsc  : Bool
  deriving DecidableEq, Repr

/-- The steps of the part, one constructor for each row of spec/opcode_table.json: the program words of
the six classes (R102 to R107), the micro-operations (R238), and the events. In the events `d` is a die,
`t` a tile (24 die + tile), `k` a slot (8 t + slot), `l` a launch, `c` a queue slot, `e` an edge and `p`
a host port (0 A, 1 B; 2 the sideband). -/
inductive Instr where
  /-- ADD (R114): Adds two x registers modulo 2^64. -/
  | add (a : RForm)
  /-- SUB (R114): Subtracts xb from xa modulo 2^64. -/
  | sub (a : RForm)
  /-- MUL (R114): Multiplies two x registers, keeping the low 64 bits. -/
  | mul (a : RForm)
  /-- MULH (R114): Writes the high 64 bits of a signed or unsigned product. -/
  | mulh (a : RForm)
  /-- DIV (R114): Divides with truncation; division by zero gives all ones. -/
  | div (a : RForm)
  /-- REM (R114): Writes the truncating remainder; by zero it gives the dividend. -/
  | rem (a : RForm)
  /-- AND (R114): Bitwise and of two x registers. -/
  | and (a : RForm)
  /-- OR (R114): Bitwise or of two x registers. -/
  | or (a : RForm)
  /-- XOR (R114): Bitwise exclusive or of two x registers. -/
  | xor (a : RForm)
  /-- ANDN (R114): Writes xa and not xb. -/
  | andn (a : RForm)
  /-- SHL (R114): Shifts left; a count of 64 or more gives zero. -/
  | shl (a : RForm)
  /-- SHR (R114): Logical shift right by an unreduced count. -/
  | shr (a : RForm)
  /-- SRA (R114): Arithmetic shift right, with the count capped at 63. -/
  | sra (a : RForm)
  /-- FSH (R116): Takes a 64-bit window from the concatenation of xa and xb. -/
  | fsh (a : RForm)
  /-- BFX (R117): Extracts a bit field, zero- or sign-extended. -/
  | bfx (a : RForm)
  /-- BFI (R117): Inserts the low bits of xa into a field of xd. -/
  | bfi (a : RForm)
  /-- ADDI (R115): Adds an immediate to xa. -/
  | addi (a : IForm)
  /-- ANDI (R115): Ands xa with an immediate. -/
  | andi (a : IForm)
  /-- ORI (R115): Ors xa with an immediate. -/
  | ori (a : IForm)
  /-- XORI (R115): Exclusive-ors xa with an immediate. -/
  | xori (a : IForm)
  /-- SHLI (R115): Shifts xa left by an immediate count. -/
  | shli (a : IForm)
  /-- SHRI (R115): Shifts xa logically right by an immediate count. -/
  | shri (a : IForm)
  /-- SRAI (R115): Shifts xa arithmetically right by an immediate count. -/
  | srai (a : IForm)
  /-- LI (R115): Loads an immediate into xd. -/
  | li (a : IForm)
  /-- POPC (R114): Counts the 1 bits of xa. -/
  | popc (a : RForm)
  /-- CLZ (R114): Counts the leading zeros of xa. -/
  | clz (a : RForm)
  /-- CTZ (R114): Counts the trailing zeros of xa. -/
  | ctz (a : RForm)
  /-- MIN (R114): Writes the signed or unsigned minimum. -/
  | min (a : RForm)
  /-- MAX (R114): Writes the signed or unsigned maximum. -/
  | max (a : RForm)
  /-- CMP (R118): Compares two x registers into a scalar predicate. -/
  | cmp (a : RForm)
  /-- CMPI (R118): Compares xa with an immediate into a scalar predicate. -/
  | cmpi (a : IForm)
  /-- SEL (R120): Selects xa or xb by a scalar predicate. -/
  | sel (a : RForm)
  /-- SPOP (R119): Combines scalar predicates. -/
  | spop (a : RForm)
  /-- BR (R121): Unconditional branch, consumed by the dispatcher. -/
  | br (a : IForm)
  /-- LOOP (R90): Decrements a loop counter and branches while it is non-zero, rotating the register base. -/
  | loop (a : IForm)
  /-- BQ (R89): Pops the head of bq and branches if it is 1. -/
  | bq (a : IForm)
  /-- BCC (R121): Branches at issue when a scalar predicate is 1. -/
  | bcc (a : IForm)
  /-- LCSET (R123): Sets a loop counter from an immediate at dispatch. -/
  | lcset (a : IForm)
  /-- LCMOV (R123): Sets a loop counter from an x register at issue. -/
  | lcmov (a : RForm)
  /-- RBSET (R124): Sets the rotation base from an immediate at dispatch. -/
  | rbset (a : IForm)
  /-- RBMOV (R124): Sets the rotation base from an x register at issue. -/
  | rbmov (a : RForm)
  /-- MFW (R125): Pushes a format word from an x register. -/
  | mfw (a : RForm)
  /-- MFWI (R125): Pushes an immediate format word. -/
  | mfwi (a : IForm)
  /-- MFS (R126): Reads a system register into an x register. -/
  | mfs (a : RForm)
  /-- MTS (R126): Writes a system register from an x register. -/
  | mts (a : RForm)
  /-- TRAP (R133): Stops the strand precisely with a software trap and a full-context save. -/
  | trap (a : IForm)
  /-- HRET (R134): A handler returns a stopped strand to its ready list. -/
  | hret (a : RForm)
  /-- YIELD (R135): A suspension point that rejoins the ready list. -/
  | yield (a : RForm)
  /-- HALT (R135): Ends the strand after its copies complete and returns its frame. -/
  | halt (a : RForm)
  /-- TNOW (R136): Samples the package time counter. -/
  | tnow (a : RForm)
  /-- GADD (R140): Generator add into a g register. -/
  | gadd (a : RForm)
  /-- GSUB (R140): Generator subtract. -/
  | gsub (a : RForm)
  /-- GMUL (R140): Generator multiply. -/
  | gmul (a : RForm)
  /-- GAND (R140): Generator bitwise and. -/
  | gand (a : RForm)
  /-- GOR (R140): Generator bitwise or. -/
  | gor (a : RForm)
  /-- GSHL (R140): Generator shift left. -/
  | gshl (a : RForm)
  /-- GSHR (R140): Generator logical shift right. -/
  | gshr (a : RForm)
  /-- GADDI (R140): Generator add of an immediate. -/
  | gaddi (a : IForm)
  /-- GLI (R140): Loads an immediate into a g register. -/
  | gli (a : IForm)
  /-- GSHLI (R140): Generator shift left by an immediate. -/
  | gshli (a : IForm)
  /-- AOUT (R141): Pushes a comparison outcome to bq. -/
  | aout (a : RForm)
  /-- LD (R143): Contiguous load into a g register or q entry. -/
  | ld (a : IForm)
  /-- ST (R143): Contiguous store from g, xg or a w entry. -/
  | st (a : IForm)
  /-- LD_LAST (R145): Loads, then discards the touched lines without write-back. -/
  | ldLast (a : IForm)
  /-- LDS (R146): Strided load of 128 lanes into a q entry. -/
  | lds (a : RForm)
  /-- STS (R146): Strided store of 128 lanes from a w entry. -/
  | sts (a : RForm)
  /-- LDG (R147): Gather load with indices from a w entry. -/
  | ldg (a : RForm)
  /-- STG (R147): Scatter store with indices from a w entry. -/
  | stg (a : RForm)
  /-- TLD (R158): Loads 128 tensor elements as FP32 under each granule's tagged scale. -/
  | tld (a : RForm)
  /-- TST (R157): Stores 128 FP32 lanes into a governed tensor, updating record, tags and counts. -/
  | tst (a : RForm)
  /-- QSYNC (R149): Realigns the strand's load and store queues. -/
  | qsync (a : RForm)
  /-- FENCE (R150): Orders accesses with acquire, release or both at a scope. -/
  | fence (a : RForm)
  /-- AMO_ADD (R151): Atomic integer add. -/
  | amoAdd (a : RForm)
  /-- AMO_FADD (R153): Atomic FP32 add, rounded once at the point of performance. -/
  | amoFadd (a : RForm)
  /-- AMO_FMAX (R153): Atomic FP32 maximum. -/
  | amoFmax (a : RForm)
  /-- AMO_MIN (R151): Atomic integer minimum. -/
  | amoMin (a : RForm)
  /-- AMO_MAX (R151): Atomic integer maximum. -/
  | amoMax (a : RForm)
  /-- AMO_AND (R151): Atomic and. -/
  | amoAnd (a : RForm)
  /-- AMO_OR (R151): Atomic or. -/
  | amoOr (a : RForm)
  /-- AMO_SWP (R151): Atomic swap. -/
  | amoSwp (a : RForm)
  /-- AMO_CAS (R151): Atomic compare-and-swap against the old gd. -/
  | amoCas (a : RForm)
  /-- AMO_INC (R151): Atomic increment. -/
  | amoInc (a : RForm)
  /-- FE_LD (R154): Waits for a full line, reads it and optionally marks it empty. -/
  | feLd (a : RForm)
  /-- FE_ST (R154): Waits for an empty line, writes it and marks it full. -/
  | feSt (a : RForm)
  /-- FE_SET (R154): Marks scratchpad lines full. -/
  | feSet (a : RForm)
  /-- FE_CLR (R154): Marks scratchpad lines empty. -/
  | feClr (a : RForm)
  /-- SMP_LD (R155): Reads through the tile's non-coherent sampler cache. -/
  | smpLd (a : RForm)
  /-- SMP_INV (R156): Clears the sampler cache in 32 clk and advances the tile's floor. -/
  | smpInv (a : RForm)
  /-- CP (R162): Asynchronous byte copy into the open batch. -/
  | cp (a : RForm)
  /-- CP_TENSOR (R162): Asynchronous strided row copy by descriptor. -/
  | cpTensor (a : RForm)
  /-- CP_QUANT (R163): Asynchronous quantising copy, optionally into a governed tensor. -/
  | cpQuant (a : RForm)
  /-- CP_CHAIN (R164): Runs a list of descriptors as one copy. -/
  | cpChain (a : RForm)
  /-- CP_PAGES (R165): Block copy on the key-value transfer engines. -/
  | cpPages (a : RForm)
  /-- CP_RING (R166): One send, reduce or agree hop of a ring collective. -/
  | cpRing (a : RForm)
  /-- CPADV (R167): Issues the next entries of a static copy schedule. -/
  | cpadv (a : IForm)
  /-- BATCH_CLOSE (R168): Closes the open copy batch. -/
  | batchClose (a : RForm)
  /-- BATCH_WAIT (R169): Closes the open batch and waits until at most n batches are outstanding. -/
  | batchWait (a : IForm)
  /-- VADD (R174): Lane-wise add. -/
  | vadd (a : RForm)
  /-- VSUB (R174): Lane-wise subtract. -/
  | vsub (a : RForm)
  /-- VMUL (R174): Lane-wise multiply. -/
  | vmul (a : RForm)
  /-- VMULH (R174): Lane-wise high half of a 32-bit product. -/
  | vmulh (a : RForm)
  /-- VFMA (R174): Lane-wise fused multiply-add. -/
  | vfma (a : RForm)
  /-- VFMS (R174): Lane-wise fused multiply-subtract. -/
  | vfms (a : RForm)
  /-- VMIN (R174): Lane-wise minimum. -/
  | vmin (a : RForm)
  /-- VMAX (R174): Lane-wise maximum. -/
  | vmax (a : RForm)
  /-- VABS (R174): Lane-wise absolute value. -/
  | vabs (a : RForm)
  /-- VNEG (R174): Lane-wise negation. -/
  | vneg (a : RForm)
  /-- VAND (R174): Lane-wise and. -/
  | vand (a : RForm)
  /-- VOR (R174): Lane-wise or. -/
  | vor (a : RForm)
  /-- VXOR (R174): Lane-wise exclusive or. -/
  | vxor (a : RForm)
  /-- VNOT (R174): Lane-wise not. -/
  | vnot (a : RForm)
  /-- VSHL (R174): Lane-wise shift left. -/
  | vshl (a : RForm)
  /-- VSHR (R174): Lane-wise logical shift right. -/
  | vshr (a : RForm)
  /-- VSRA (R174): Lane-wise arithmetic shift right. -/
  | vsra (a : RForm)
  /-- VBFX (R181): Lane-wise bit-field extract. -/
  | vbfx (a : RForm)
  /-- VFSH (R181): Lane-wise funnel shift. -/
  | vfsh (a : RForm)
  /-- VPOPC (R174): Lane-wise population count. -/
  | vpopc (a : RForm)
  /-- VCLZ (R174): Lane-wise leading-zero count. -/
  | vclz (a : RForm)
  /-- VMOV (R179): Moves a vector register or queue entry. -/
  | vmov (a : RForm)
  /-- VLI (R179): Loads an immediate into every lane. -/
  | vli (a : IForm)
  /-- VBCAST (R179): Broadcasts the low 32 bits of an x register. -/
  | vbcast (a : RForm)
  /-- VSEL (R177): Selects lanes from two sources by a predicate. -/
  | vsel (a : RForm)
  /-- VCMP (R176): Lane-wise compare into a predicate register. -/
  | vcmp (a : RForm)
  /-- VPERM (R180): Permutes lanes by an index vector. -/
  | vperm (a : RForm)
  /-- VSLIDE (R180): Slides lanes across two registers. -/
  | vslide (a : RForm)
  /-- VROT (R180): Rotates lanes. -/
  | vrot (a : RForm)
  /-- VREDSUM (R182): Tree-sums the active lanes into every lane. -/
  | vredsum (a : RForm)
  /-- VREDMAX (R182): Tree maximum of the active lanes. -/
  | vredmax (a : RForm)
  /-- VREDMIN (R182): Tree minimum of the active lanes. -/
  | vredmin (a : RForm)
  /-- VSCAN (R183): Inclusive prefix sum, maximum or minimum in a fixed order. -/
  | vscan (a : RForm)
  /-- VCVT (R184): Converts lanes to or from FP32 with a part select. -/
  | vcvt (a : RForm)
  /-- VQMX (R185): Quantises four MX blocks. -/
  | vqmx (a : RForm)
  /-- VQEM (R185): Quantises eight Emmer blocks. -/
  | vqem (a : RForm)
  /-- VAMAX (R186): Computes block maxima of absolute values. -/
  | vamax (a : RForm)
  /-- VACC_RD (R187): Reads a quarter of an accumulator row. -/
  | vaccRd (a : RForm)
  /-- VACC_WR (R187): Writes a quarter of an accumulator row. -/
  | vaccWr (a : RForm)
  /-- VACC_ADD (R187): Adds into a quarter of an accumulator row, indivisibly. -/
  | vaccAdd (a : RForm)
  /-- PAND (R178): Predicate and. -/
  | pand (a : RForm)
  /-- POR (R178): Predicate or. -/
  | por (a : RForm)
  /-- PXOR (R178): Predicate exclusive or. -/
  | pxor (a : RForm)
  /-- PNOT (R178): Predicate not. -/
  | pnot (a : RForm)
  /-- PSET (R178): Sets the first N predicate bits, optionally inverted. -/
  | pset (a : IForm)
  /-- EXP2 (R190): Lane-wise base-2 exponential. -/
  | exp2 (a : RForm)
  /-- LOG2 (R190): Lane-wise base-2 logarithm. -/
  | log2 (a : RForm)
  /-- RCP (R190): Lane-wise correctly rounded reciprocal. -/
  | rcp (a : RForm)
  /-- RSQRT (R190): Lane-wise reciprocal square root. -/
  | rsqrt (a : RForm)
  /-- SQRT (R190): Lane-wise correctly rounded square root. -/
  | sqrt (a : RForm)
  /-- TANH (R190): Lane-wise hyperbolic tangent. -/
  | tanh (a : RForm)
  /-- SIGM (R190): Lane-wise logistic sigmoid. -/
  | sigm (a : RForm)
  /-- ERF (R190): Lane-wise error function. -/
  | erf (a : RForm)
  /-- FCVT (R191): Converts between FP32 and 64-bit integer lane pairs. -/
  | fcvt (a : RForm)
  /-- FCVT_I (R191): Rounds each lane to an integral FP32 value. -/
  | fcvtI (a : RForm)
  /-- MLEASE (R197): Waits for the array grant and opens a run of n commands. -/
  | mlease (a : IForm)
  /-- MREL (R197): Ends the matrix run. -/
  | mrel (a : RForm)
  /-- MLDW (R199): Loads the shadow weight plane from scratchpad. -/
  | mldw (a : RForm)
  /-- MSWAP (R200): Exchanges the active and shadow planes. -/
  | mswap (a : RForm)
  /-- MMUL (R202): Streams rows past the active plane into accumulator rows. -/
  | mmul (a : RForm)
  /-- MCHAIN (R205): Joins the tile's array into a matrix chain by rendezvous. -/
  | mchain (a : RForm)
  /-- MRND (R207): Sets the read-out rounding mode. -/
  | mrnd (a : IForm)
  /-- MCLR (R208): Clears accumulator rows. -/
  | mclr (a : RForm)
  /-- MACC_ST (R209): Reads accumulator rows out with conversion to scratchpad or w. -/
  | maccSt (a : RForm)
  /-- MDRAIN (R210): Retires when every earlier matrix command has retired. -/
  | mdrain (a : RForm)
  /-- LFWD (R240): Runs the forward layer microcode sequence. -/
  | lfwd (a : RForm)
  /-- LDGRAD (R240): Runs the data-gradient layer sequence. -/
  | ldgrad (a : RForm)
  /-- LWGRAD (R240): Runs the weight-gradient layer sequence. -/
  | lwgrad (a : RForm)
  /-- LUPD (R240): Runs the weight-update layer sequence. -/
  | lupd (a : RForm)
  /-- MCLOAD (R243): Loads micro-operations into the program region of the microcode store. -/
  | mcload (a : RForm)
  /-- BAR_INIT (R219): Sets a named barrier's count and phase. -/
  | barInit (a : IForm)
  /-- BAR_ARRIVE (R220): Records an arrival at a named barrier with release at tile scope. -/
  | barArrive (a : IForm)
  /-- BAR_WAIT (R221): Waits until the strand's last arrived phase completes. -/
  | barWait (a : IForm)
  /-- BAR_ARRWAIT (R221): Arrives and then waits at a named barrier. -/
  | barArrwait (a : IForm)
  /-- DOM_JOIN (R223): Joins the strand to a synchronisation domain instance. -/
  | domJoin (a : IForm)
  /-- DOM_LEAVE (R223): Leaves the joined domain instance. -/
  | domLeave (a : IForm)
  /-- DOM_SYNC (R224): Arrives in the instance's phase and waits for the next phase. -/
  | domSync (a : IForm)
  /-- SQ_PUT (R225): Puts an item into the stage's output queue. -/
  | sqPut (a : IForm)
  /-- SQ_GET (R226): Takes an item from the stage's input queue. -/
  | sqGet (a : IForm)
  /-- SPAWN (R227): Creates a strand of a pulling stage. -/
  | spawn (a : IForm)
  /-- SIG_WAIT (R229): Waits until a signal word satisfies a condition, with acquire. -/
  | sigWait (a : IForm)
  /-- SIG_SET (R228): Writes, adds to or maxes a signal word with release. -/
  | sigSet (a : IForm)
  /-- WAIT_TIME (R230): Waits until the package time counter reaches a target. -/
  | waitTime (a : IForm)
  /-- PRIO (R232): Sets the strand's priority class. -/
  | prio (a : IForm)
  /-- CQ_WAKE (R233): Writes a command queue's wake register with release at system scope. -/
  | cqWake (a : IForm)
  /-- ALIGN (R217): Resets the virtual clock to vc 0 after all earlier work retires. -/
  | align
  /-- ALIGN_SUSPEND (R217): Align with SUSP set; the strand suspends afterwards. -/
  | alignSuspend
  /-- UEND (R238): Ends the micro-operation sequence. -/
  | uend (u : UForm)
  /-- ULDW (R238): Micro-operation loading the shadow plane. -/
  | uldw (u : UForm)
  /-- USWAP (R238): Micro-operation swapping planes. -/
  | uswap (u : UForm)
  /-- UMUL (R238): Micro-operation streaming rows as mmul. -/
  | umul (u : UForm)
  /-- UCLR (R238): Micro-operation clearing accumulator rows. -/
  | uclr (u : UForm)
  /-- UST (R238): Micro-operation reading rows out as macc.st. -/
  | ust (u : UForm)
  /-- UUPD (R239): Micro-operation updating master weights and writing a narrowed copy. -/
  | uupd (u : UForm)
  /-- UADD (R238): Adds one base register into another. -/
  | uadd (u : UForm)
  /-- UADDI (R238): Adds a signed immediate to a base register. -/
  | uaddi (u : UForm)
  /-- UKSET (R238): Sets a macro loop counter. -/
  | ukset (u : UForm)
  /-- ULOOP (R238): Decrements a counter and branches while non-zero. -/
  | uloop (u : UForm)
  /-- DISPATCH_WORD (R77): The dispatcher fetches a word and places it in its class queue, applying rotation. -/
  | dispatchWord (k : Nat)
  /-- LANDING_BUFFER_WRITE (R84): A result waiting in the landing buffer is written when the clock reaches its vc. -/
  | landingBufferWrite (k : Nat)
  /-- ISSUE_WINDOW_EXPIRY (R30): A slot's arbitration window of 8 clk ends and the next ready slot gains precedence. -/
  | issueWindowExpiry (t : Nat)
  /-- STRAND_CREATE (R42): A stage creates a strand from an index or item once a frame is free. -/
  | strandCreate (d : Nat) (l : Nat) (st : Nat)
  /-- STRAND_PICKUP (R28): An idle slot takes the first runnable entry of its stage's ready list. -/
  | strandPickup (k : Nat)
  /-- STRAND_READY (R49): A strand whose wait is satisfied is placed on its stage's ready list. -/
  | strandReady (d : Nat) (l : Nat) (b : Nat)
  /-- PREEMPTION (R383): After 20 µs a displaced strand is pre-empted with a full-context save. -/
  | preemption (k : Nat)
  /-- REBALANCE (R44): Every rebalance interval slots move from the lowest-scoring to the highest-scoring stage. -/
  | rebalance (d : Nat)
  /-- RESERVE_MASK_WRITE (R45): A write to SCHED.RESERVE_MASK changes the reserved tiles from the next interval. -/
  | reserveMaskWrite (d : Nat) (v : BitVec 24)
  /-- HELD_ARRIVAL (R220): An arrival held on a second lead proceeds once the current phase completes. -/
  | heldArrival (k : Nat)
  /-- LEAD_COUNTER_ARRIVAL (R40): A neighbour's phase counter arrives and may let a held instance enter its phase. -/
  | leadCounterArrival (lvl : Nat) (inst : Nat)
  /-- QUEUE_SPACE_AVAILABLE (R225): A waiting item enters a stage queue that has gained room. -/
  | queueSpaceAvailable (d : Nat) (l : Nat) (st : Nat)
  /-- ITEM_AVAILABLE (R226): A waiting taker receives an item that entered its input queue. -/
  | itemAvailable (d : Nat) (l : Nat) (st : Nat)
  /-- SIGNAL_REREAD (R229): A waited signal word is re-read after a write performs at its home. -/
  | signalReread (d : Nat) (l : Nat) (b : Nat)
  /-- TIME_TARGET_REACHED (R230): The die's time replica reaches a waiting strand's target. -/
  | timeTargetReached (d : Nat) (l : Nat) (b : Nat)
  /-- STEAL (R48): A member with an empty range steals half of the largest remaining range. -/
  | steal (d : Nat) (l : Nat)
  /-- LOAD_DATA_ARRIVAL (R247): A load's data arrive and are delivered to g or q. -/
  | loadDataArrival (k : Nat)
  /-- STORE_PERFORM (R258): A store performs at its point of performance in coherence order. -/
  | storePerform (k : Nat)
  /-- ATOMIC_PERFORM (R152): An atomic's read-modify-write is performed at its point of performance. -/
  | atomicPerform (k : Nat)
  /-- STORE_ACKNOWLEDGEMENT (R259): A store's acknowledgement returns to the writer. -/
  | storeAcknowledgement (d : Nat) (a : Nat)
  /-- ACKNOWLEDGEMENT_LOSS (R264): An acknowledgement missing for 10 µs is raised at the next wide release or halt. -/
  | acknowledgementLoss (d : Nat) (a : Nat)
  /-- COPY_LINE_LANDING (R144): A copied line lands and its full bit is set. -/
  | copyLineLanding (d : Nat) (j : Nat)
  /-- BATCH_COMPLETE (R160): A copy batch completes in close order and its writes become visible at die scope. -/
  | batchComplete (d : Nat) (b : Nat)
  /-- ARRAY_GRANT (R198): The free array grants a waiting mlease by priority and cyclic slot order. -/
  | arrayGrant (t : Nat)
  /-- MATRIX_COMMAND_START (R211): A queued matrix command starts once its bounds are met. -/
  | matrixCommandStart (k : Nat)
  /-- MATRIX_COMMAND_RETIRE (R211): A matrix command retires and pushes its token. -/
  | matrixCommandRetire (k : Nat)
  /-- CHAIN_RENDEZVOUS (R205): All members of a chain start together once each has its mchain or chained mmul at the head. -/
  | chainRendezvous (t : Nat)
  /-- HANDLER_STRAND_CREATE (R366): A handler strand is created for the oldest undelivered record. -/
  | handlerStrandCreate (d : Nat) (l : Nat)
  /-- CQ_WAKE_WRITE (R301): A write to CQ.WAKE latches a new tail and sets PEND. -/
  | cqWakeWrite (d : Nat) (q : Nat) (v : BitVec 32)
  /-- QUEUE_MAP (R302): A free queue slot takes the head of the remap list. -/
  | queueMap (d : Nat)
  /-- QUEUE_UNMAP (R303): An idle queue is unmapped, re-checking its wake word. -/
  | queueUnmap (d : Nat) (c : Nat)
  /-- FORCED_UNMAP (R302): After QUANTUM the longest-mapped eligible queue is unmapped for a waiting queue. -/
  | forcedUnmap (d : Nat)
  /-- OPERATOR (R309): An operator record is accepted, checked and expanded into the shadow bank. -/
  | operator (d : Nat) (c : Nat)
  /-- LAUNCH_BEGIN (R309): The shadow bank swaps in and the launch's barriers, queues, pools and slots are set up. -/
  | launchBegin (d : Nat) (c : Nat)
  /-- LAUNCH_RETIRE (R310): A finished launch releases its writes and writes STATUS and its signal. -/
  | launchRetire (d : Nat) (l : Nat)
  /-- BATCH_ITERATION (R315): Between iterations the scheduler retires, admits and rebuilds the batch table. -/
  | batchIteration (d : Nat) (l : Nat)
  /-- BATCH_ADMISSION_WAKE (R315): A waiting batched launch re-reads ATAIL and CLOSE after a write to them. -/
  | batchAdmissionWake (d : Nat) (l : Nat)
  /-- WAIT (R307): A Wait record starts testing its word as sig.wait does. -/
  | wait (d : Nat) (c : Nat)
  /-- WAIT_RECORD_SATISFIED (R307): A Wait record's condition holds and the record retires. -/
  | waitRecordSatisfied (d : Nat) (c : Nat)
  /-- SIGNAL (R307): A Signal record updates its word after every earlier record retires. -/
  | signal (d : Nat) (c : Nat)
  /-- BOUNDARY (R307): A Boundary record writes GROUPS and GO to the governor. -/
  | boundary (d : Nat) (c : Nat)
  /-- TRANSFER (R316): A Transfer record passes its descriptor to a key-value transfer engine. -/
  | transfer (d : Nat) (c : Nat)
  /-- NOP (R307): A Nop record retires at start. -/
  | nop (d : Nat) (c : Nat)
  /-- TRANSFER_JOB_COMPLETE (R316): A transfer engine job has every block acknowledged. -/
  | transferJobComplete (d : Nat) (e : Nat)
  /-- REGION_GRANT (R317): Mailbox command creating a region capability. -/
  | regionGrant (d : Nat)
  /-- QUEUE_BIND (R317): Mailbox command binding a queue to a ring and context. -/
  | queueBind (d : Nat)
  /-- REVOKE (R317): Mailbox command revoking a capability. -/
  | revoke (d : Nat)
  /-- QUEUE_UNBIND (R317): Mailbox command unbinding a queue after its records retire. -/
  | queueUnbind (d : Nat)
  /-- FLUSH (R426): A control ring entry flushes one queue's records up to its latched tail. -/
  | flush (d : Nat)
  /-- WDOG_EXPIRY (R425): A Wait record lasting beyond CQ.WDOG.LIMIT raises 0x09/0x0003. -/
  | wdogExpiry (d : Nat) (c : Nat)
  /-- ITERATION_BOUNDARY (R290): A GO write runs the governor's three passes over the selected records. -/
  | iterationBoundary (d : Nat)
  /-- INVALIDATION (R326): A GO write to MMU.INV_CTL starts a translation invalidation. -/
  | invalidation (d : Nat)
  /-- INVALIDATION_COMPLETE (R326): The invalidation completes and DONE is set. -/
  | invalidationComplete (d : Nat)
  /-- PRI_ANSWER (R418): A page request answer arrives and is matched by group index and GEN. -/
  | priAnswer (d : Nat) (grp : Nat) (gen : BitVec 16) (code : Nat)
  /-- PRI_TIMEOUT (R419): A page request unanswered within TIMEOUT raises 0x0019. -/
  | priTimeout (d : Nat) (r : Nat)
  /-- PRI_CLEAR (R419): Writing CLR re-enables page requests of a context. -/
  | priClear (d : Nat)
  /-- ATS_INVALIDATION_REQUEST (R331): A host ATS invalidation completes after the covered translations are gone. -/
  | atsInvalidationRequest (p : Nat) (pasid : BitVec 20) (base : BitVec 64) (pages : Nat)
  /-- CACHE_SWEEP (R254): A GO write starts a sweep that writes back or discards a range of lines. -/
  | cacheSweep (d : Nat)
  /-- SWEEP_DONE (R254): A sweep ends and sets DONE. -/
  | sweepDone (d : Nat)
  /-- OVERDRIVE (R333): A TGT write under the semaphore retrains an edge at a new rate. -/
  | overdrive (e : Nat) (p : Nat) (v : BitVec 64)
  /-- EDGE_TRAINING_COMPLETE (R333): Edge training succeeds or fails and traffic resumes. -/
  | edgeTrainingComplete (e : Nat) (ok : Bool)
  /-- AUTOMATIC_STEP_DOWN (R334): Replays above FBTHR in 1 ms step the edge rate down. -/
  | automaticStepDown (e : Nat)
  /-- MODULE_WIDTH_HALVING (R334): A module retires lanes by halving its width. -/
  | moduleWidthHalving (e : Nat) (m : Nat)
  /-- FLIT_CRC_ERROR (R399): A flit with a CRC error is refused and its channel replays go-back-N. -/
  | flitCrcError (e : Nat)
  /-- EDGE_DOWN (R400): An edge goes down and routes change along the remaining line. -/
  | edgeDown (e : Nat)
  /-- REROUTE_TIMEOUT (R400): Resent flits undelivered after 100 µs write off stores and fault loads. -/
  | rerouteTimeout (a : Nat) (b : Nat)
  /-- FABRIC_PORT_DOWN (R335): A fabric port fails and its lines move to the next port in service. -/
  | fabricPortDown (d : Nat) (n : Nat)
  /-- HOST_PORT_DOWN (R428): A host port's CXL link fails without retraining. -/
  | hostPortDown (p : Nat)
  /-- HOST_CXL_MEM_ACCESS (R337): A host CXL.mem access is decoded to a die's HBM and performed as .g. -/
  | hostCxlMemAccess (p : Nat) (a : BitVec 64) (wr : Option (List (BitVec 8))) (len : Nat)
  /-- PKG_SEM_WRITE (R338): A write to PKG_SEM acquires or frees the semaphore and restarts its lease. -/
  | pkgSemWrite (p : Nat) (v : BitVec 64)
  /-- PKG_SEM_LEASE_EXPIRY (R429): The 100 ms lease runs out, freeing the semaphore and setting EXPIRED. -/
  | pkgSemLeaseExpiry
  /-- PACKAGE_RESET (R435): Power-on, sideband request or both fundamental resets reset the whole package. -/
  | packageReset
  /-- PORT_FUNDAMENTAL_RESET (R435): A fundamental reset of one host port resets only its link. -/
  | portFundamentalReset (p : Nat)
  /-- SB_RESET (R441): A 1 written to SB.RESET over the sideband requests a package reset. -/
  | sbReset (v : BitVec 8)
  /-- DIE_RESET (R402): A die is reset, its launches ended and its dirty lines poisoned. -/
  | dieReset (d : Nat) (p : Nat)
  /-- BOOT_STATE_ADVANCE (R435): A die completes HBM training, image verification or enters running. -/
  | bootStateAdvance (d : Nat)
  /-- FIRMWARE_LOAD (R436): A LOAD write under the semaphore verifies, writes and boots a new image. -/
  | firmwareLoad (d : Nat) (p : Nat) (hpa : BitVec 64)
  /-- ATTESTATION (R437): A GO write captures the nonce and starts signing a report. -/
  | attestation (d : Nat)
  /-- ATTESTATION_DONE (R437): The signed report is complete and DONE is set. -/
  | attestationDone (d : Nat)
  /-- TIME_ADJ_WRITE (R438): A TIME.ADJ write starts a slewed correction of the counter. -/
  | timeAdjWrite (d : Nat) (v : BitVec 64)
  /-- HOLDOVER (R438): Two seconds without a TIME.ADJ write while locked set HOLDOVER. -/
  | holdover
  /-- THROTTLE (R439): The device adjusts THR to hold current, power and temperature limits. -/
  | throttle (d : Nat) (thr : BitVec 8)
  /-- THERMAL_RESET (R439): A die reaching 120 °C is reset and held until package reset. -/
  | thermalReset (d : Nat)
  /-- TELEMETRY_SAMPLE (R439): PWR.STATUS is sampled every 100 µs. -/
  | telemetrySample (d : Nat) (pkgW : BitVec 16) (coreA : BitVec 16) (temp : BitVec 8)
  /-- HBM_PATROL_SCRUB (R440): A patrol scrub step checks HBM lines within its budget. -/
  | hbmPatrolScrub (d : Nat) (pa : Nat)
  /-- SRAM_SCRUB (R440): An SRAM scrub step checks SRAM words. -/
  | sramScrub (d : Nat)
  /-- LINK_RECALIBRATION (R440): One recalibration micro-step per edge per millisecond. -/
  | linkRecalibration (e : Nat)
  /-- HBM_ROW_ACTIVATION_MANAGEMENT (R440): Refresh and row-hammer mitigation of the HBM stacks. -/
  | hbmRowActivationManagement (d : Nat)
  /-- SINGLE_BIT_ERROR (R392): A single-bit error is corrected on read and counted. -/
  | singleBitError (d : Nat) (hbm : Bool)
  /-- DOUBLE_BIT_ERROR (R392): A double-bit error poisons its line or is handled as R396 gives. -/
  | doubleBitError (d : Nat) (unit : Nat) (line : Nat)
  /-- REGISTER_WRITE (R7): A write to a register without behaviour of its own, under its access codes. -/
  | registerWrite (d : Nat) (off : Nat) (v : BitVec 64) (p : Nat)
  /-- PKG_SEM_READ (R338): A read of PKG_SEM through the holding port restarts the 100 ms lease. -/
  | pkgSemRead (p : Nat)
  /-- SPARE_LANE_REPAIR (R334): A failing lane of a die edge is replaced by a UCIe spare lane and LINK.WIDTH.REPAIRED rises. -/
  | spareLaneRepair (e : Nat)
  /-- FABRIC_PORT_TRAINED (R435): A fabric port whose link partner trains comes into service with UP 1 and LANES 7. -/
  | fabricPortTrained (d : Nat) (n : Nat)
  /-- CORRECTION_SLEW_END (R438): A slewed time correction finishes and TIME.STATUS.SLEW returns to 0. -/
  | correctionSlewEnd
  /-- UNCORRECTABLE_FRAME (R335): A fabric port receives an uncorrectable frame and FAB.PORT_STATUS.ERRS is incremented. -/
  | uncorrectableFrame (d : Nat) (n : Nat)
  deriving DecidableEq, Repr

end Sys2Proof
end

