-- ==== Sys2Proof/WellFormed.lean ====
section
/-! DEFINITION. Which words a dispatcher accepts (R74, R112, R113, R138, R139, R170, R171, R172, R192, R213)
and which micro-operations mcload accepts (R237, R238): `Instr.illegal` answers the lowest class 0x02 code
that applies (R371), and `Instr.wf` says that none does. -/

namespace Sys2Proof

/-- The role of a register field: which operand codes of R75 it admits (R112, R138, R170, R192). -/
inductive Role where
  /-- unused: 0 only -/
  | un
  /-- x source: x0 to x63, q0 to q7 -/
  | xs
  /-- x destination: x0 to x63, w0 to w3, xg -/
  | xd
  /-- x destination that is also read -/
  | xdr
  /-- scalar predicate -/
  | spr
  /-- g source: g0 to g31, xg -/
  | gs
  /-- g destination or address base -/
  | gd
  /-- q destination -/
  | qd
  /-- w source -/
  | ws
  /-- g or q destination -/
  | gq
  /-- store data: g, w or xg -/
  | gw
  /-- v source: v0 to v63, q0 to q7 -/
  | vs
  /-- v destination: v0 to v63, w0 to w3 -/
  | vd
  /-- v destination that is also read -/
  | vdr
  /-- predicate register p0 to p15 -/
  | pr
  /-- scalar source x0 to x63 -/
  | sc
  /-- read-out destination: x0 to x63 or w0 to w3 -/
  | md
  deriving DecidableEq, Repr

/-- The operand codes that a role admits (R75). -/
def Role.admits (r : Role) (c : BitVec 7) : Bool :=
  let n := c.toNat
  let q := 80 ≤ n && n ≤ 87
  let w := 88 ≤ n && n ≤ 91
  match r with
  | .un => n == 0
  | .xs => n ≤ 63 || q
  | .xd => n ≤ 63 || w || n == 92
  | .xdr => n ≤ 63
  | .spr => 64 ≤ n && n ≤ 71
  | .gs => n ≤ 31 || n == 92
  | .gd => n ≤ 31
  | .qd => q
  | .ws => w
  | .gq => n ≤ 31 || q
  | .gw => n ≤ 31 || w || n == 92
  | .vs => n ≤ 63 || q
  | .vd => n ≤ 63 || w
  | .vdr => n ≤ 63
  | .pr => 64 ≤ n && n ≤ 79
  | .sc => n ≤ 63
  | .md => n ≤ 63 || w

/-- The engines, numbered as the CLASS field numbers them (R73); `d` is the dispatcher. -/
inductive Cls where
  | S | A | V | M | F | Y
  deriving DecidableEq, Repr

/-- The token code that names a class in POP and PUSH (R73); 0 for Y, which has none. -/
def Cls.tok : Cls → Nat
  | .S => 1 | .A => 2 | .V => 3 | .M => 4 | .F => 5 | .Y => 0

/-- POP or PUSH holds a reserved code or names the word's own class (R74). -/
def Hdr.badTok (h : Hdr) (c : Cls) : Bool :=
  6 ≤ h.pop.toNat || 6 ≤ h.push.toNat ||
    (c.tok != 0 && (h.pop.toNat == c.tok || h.push.toNat == c.tok))

/-- DELAY, POP and PUSH are zero. -/
def Hdr.unscheduled (h : Hdr) : Bool := h.delay == 0 && h.pop == 0 && h.push == 0

/-- The first code whose condition holds, codes in ascending order (R371, R374). -/
def firstCode : List (Nat × Bool) → Option Nat
  | [] => none
  | (c, b) :: l => if b then some c else firstCode l

/-- What the checks of a cell ask besides its register roles: the class, whether its header must be zero
(6), the reserved bits (4), the number rules of system registers (8) and the admitted values (9). -/
structure Chk where
  cls    : Cls
  bits   : Bool := false
  must0  : Bool := false
  sysBad : Bool := false
  valBad : Bool := false

/-- The class 0x02 code of an R-form word with the roles `d`, `ra`, `rb`. -/
def RForm.check (a : RForm) (d ra rb : Role) (c : Chk) : Option Nat :=
  firstCode [(3, a.hdr.badTok c.cls), (4, c.bits),
    (5, !(d.admits a.fd && ra.admits a.fa && rb.admits a.fb)),
    (6, c.must0), (8, c.sysBad), (9, c.valBad)]

/-- The class 0x02 code of an I-form word with the roles `d`, `ra`. -/
def IForm.check (a : IForm) (d ra : Role) (c : Chk) : Option Nat :=
  firstCode [(3, a.hdr.badTok c.cls), (4, c.bits),
    (5, !(d.admits a.fd && ra.admits a.fa)), (6, c.must0), (8, c.sysBad), (9, c.valBad)]

/-- A modifier bit outside `mask` is set (R74). -/
def RForm.out (a : RForm) (mask : BitVec 15) : Bool := a.mod &&& ~~~mask != 0

/-- An immediate bit outside `mask` is set in an unextended word (R74). -/
def IForm.outside (a : IForm) (mask : BitVec 22) : Bool := a.ext.isNone && (a.imm &&& ~~~mask != 0)

/-- A field of MOD. -/
def RForm.m (a : RForm) (lo len : Nat) : Nat := (a.mod.toNat >>> lo) % 2 ^ len

/-- A field of IMM. -/
def IForm.i (a : IForm) (lo len : Nat) : Nat := (a.imm.toNat >>> lo) % 2 ^ len

/-- imm64 of an extended I-form word (R76). -/
def IForm.imm64 (a : IForm) : Word :=
  match a.ext with
  | some e => e ++ a.imm.extractLsb' 0 16
  | none => 0

/-- The immediate of an S or A word: imm64, or IMM sign-extended from 22 bits (R115, R140). -/
def IForm.simm (a : IForm) : Word :=
  match a.ext with
  | some _ => a.imm64
  | none => a.imm.signExtend 64

/-- The immediate read without sign: imm64, or IMM zero-extended (R125, R213). -/
def IForm.uimm (a : IForm) : Word :=
  match a.ext with
  | some _ => a.imm64
  | none => a.imm.zeroExtend 64

/-- The system registers of R127. -/
def sysReadable (n : Nat) : Bool :=
  [0x000, 0x001, 0x002, 0x003, 0x008, 0x009, 0x00A, 0x00B, 0x010, 0x018, 0x019, 0x01A, 0x020,
    0x030, 0x031, 0x032].contains n

/-- The system registers that mts may write (R127). -/
def sysWritable (n : Nat) : Bool := [0x008, 0x009, 0x018, 0x030, 0x031, 0x032].contains n

/-- The ordering fields ORD and SC of R139 hold an admitted pair; `ords` lists the admitted ORD values. -/
def RForm.ordBad (a : RForm) (ords : List Nat) : Bool :=
  !(ords.contains (a.m 13 2)) || 6 ≤ a.m 10 3 || (a.m 13 2 == 0 && a.m 10 3 != 0)

/-- CTL of ld, st and ld.last (R142). -/
def IForm.ctl (a : IForm) : Nat :=
  match a.ext with
  | some _ => a.imm64.toNat >>> 58
  | none => a.i 16 6

/-- The signed offset of ld, st and ld.last (R142). -/
def IForm.off (a : IForm) : Word :=
  match a.ext with
  | some _ => (a.imm64.extractLsb' 0 58).signExtend 64
  | none => (a.imm.extractLsb' 0 16).signExtend 64

/-- The check of a lane-group word (R172): the admitted types, the types that admit .sat, and whether
RM is admitted under .f32. -/
def RForm.lane (a : RForm) (d ra rb : Role) (types sat : List Nat) (rm : Bool) (sel : Bool := false) :
    Option Nat :=
  let ty := a.m 0 4
  let rmv := a.m 10 3
  let s := a.m 13 1
  a.check d ra rb
    { cls := .V,
      bits := a.m 4 1 != 0 || a.m 14 1 != 0 || (s != 0 && sat.isEmpty) ||
      (rmv != 0 && !(rm && ty == 3)) || (a.m 9 1 == 0 && a.m 5 4 != 0 && !sel) ||
      (sel && a.m 9 1 != 0),
      valBad := !(types.contains ty) || (s != 0 && !(sat.contains ty)) || 6 ≤ rmv }

/-- vredsum, vredmax, vredmin and vscan (R182, R183): OP is in bits 14:13 of vscan only. -/
def RForm.fold (a : RForm) (rm : Bool) (scan : Bool) : Option Nat :=
  let ty := a.m 0 4
  let op := a.m 13 2
  a.check .vd .vs .un
    { cls := .V,
      bits := a.m 4 1 != 0 || (op != 0 && !scan) ||
      (a.m 10 3 != 0 && !(rm && ty == 3 && op == 0)) || (a.m 9 1 == 0 && a.m 5 4 != 0),
      valBad := !([1, 2, 3].contains ty) || 6 ≤ a.m 10 3 || op == 3 }

/-- vcmp (R176): COND in bits 12:10. -/
def RForm.vcmpCheck (a : RForm) : Option Nat :=
  let ty := a.m 0 4
  let c := a.m 10 3
  a.check .pr .vs .vs
    { cls := .V,
      bits := a.m 4 1 != 0 || a.m 13 2 != 0 || (a.m 9 1 == 0 && a.m 5 4 != 0),
      valBad := !([0, 1, 2, 3].contains ty) || c == 7 || (ty == 0 && 2 ≤ c) || (c == 6 && ty != 3) }

/-- The width of a vector type code in bits (R171). -/
def vtypeWidth (t : Nat) : Nat :=
  if t ≤ 3 then 32 else if t == 4 || t == 5 || t == 8 || t == 9 then 16 else if t ≤ 11 then 8 else 64

/-- The limits of vcvt (R184). -/
def RForm.vcvtBad (a : RForm) : Bool :=
  let dt := a.m 0 4
  let st := a.m 4 4
  let rm := a.m 8 3
  let part := a.m 12 2
  let other := if st == 3 then dt else st
  let w := vtypeWidth other
  !((st == 3 || dt == 3) && st != dt) || !([1, 2, 4, 5, 6, 7, 8, 9, 10, 11].contains other) ||
    (w == 32 && part != 0) || (w == 16 && 2 ≤ part) ||
    (a.m 11 1 == 1 && !(dt == 6 || dt == 7)) || 6 ≤ rm || (4 ≤ st && rm != 0)

/-- The special functions (R189): DT and ST are .f32, H is 0, RM only where `rm`. -/
def RForm.fn (a : RForm) (rm : Bool) : Option Nat :=
  a.check .vd .vs .un
    { cls := .F, bits := a.out 0xFFF,
      valBad := a.m 0 4 != 3 || a.m 4 4 != 3 || a.m 11 1 != 0 || 6 ≤ a.m 8 3 || (!rm && a.m 8 3 != 0) }

/-- An atomic (R151) with the type codes it admits; amo.inc leaves FB unused. -/
def RForm.amo (a : RForm) (types : List Nat) (inc : Bool := false) : Option Nat :=
  a.check .gd .gd (if inc then .un else .gs)
    { cls := .A, bits := a.out 0x7E0F,
      valBad := !(types.contains (a.m 0 4)) || a.ordBad [0, 1, 2, 3] }

/-- A strided or indexed access (R146, R147). -/
def RForm.strided (a : RForm) (d rb : Role) (store scl : Bool) : Option Nat :=
  a.check d .gd rb
    { cls := .A,
      bits := a.out ((if store then 0x7E0F else 0x7C0F) ||| (if scl then 0x70 else 0)),
      valBad := 5 ≤ a.m 0 4 || (scl && 4 ≤ a.m 4 3) || a.ordBad (if store then [0, 2] else [0, 1]) }

/-- ld, ld.last and st (R142). -/
def IForm.mem (a : IForm) (store : Bool) : Option Nat :=
  a.check (if store then .gw else .gq) .gd
    { cls := .A, bits := !store && a.ctl % 2 == 1,
      valBad := (a.ctl >>> 1) % 8 == 7 }

/-- A record-word selector (R213): 0, or 2 to 8. -/
def badSel (n : Nat) : Bool := n == 1 || 9 ≤ n

/-- How a Y word uses WA, WB, SUBA, SUBB and IMM (R213). -/
structure YUse where
  wa   : Bool := false
  wb   : Bool := false
  needA : Bool := false
  stage : Bool := false
  subA : Nat → Bool := fun n => n == 0
  subB : Nat → Bool := fun n => n == 0
  /-- SUBA and SUBB must be zero where their values are not codes -/
  zeroA : Bool := true
  zeroB : Bool := true

/-- The class 0x02 code of a Y word: header, selectors, sub-fields and immediate (R74, R213). -/
def IForm.yCheck (a : IForm) (u : YUse) (immBad : Bool) (valBad : Bool) : Option Nat :=
  let wa := a.fd.toNat % 16
  let wb := a.fa.toNat % 16
  let sa := a.fd.toNat / 16
  let sb := a.fa.toNat / 16
  firstCode [(3, a.hdr.badTok .Y),
    (4, immBad || (!u.wa && wa != 0) || (!u.wb && !u.stage && wb != 0) ||
      (u.zeroA && !u.subA sa) || (u.zeroB && !u.subB sb)),
    (5, (u.wa && badSel wa) || (u.wb && badSel wb)),
    (6, !a.hdr.unscheduled),
    (9, valBad || (u.needA && wa == 0) || (!u.zeroA && !u.subA sa) || (!u.zeroB && !u.subB sb))]

/-- An immediate or an extension stands beside the selector that replaces it (R213). -/
def IForm.immBeside (a : IForm) (sel : Nat) : Bool := sel != 0 && (a.imm != 0 || a.ext.isSome)

/-- A word that the dispatcher consumes must carry a zero header (R74, R113). -/
def dispZero (h : Hdr) : Bool := !h.unscheduled || h.susp

/-- The size field of a micro-operation (R237): bit 15 takes MROWS; otherwise the size is in bits 9:0 and bits 14:10 are zero. A size
above 768 is left to the walk of the macro that meets it (R240, R243). -/
def UForm.sizeOk (u : UForm) : Bool := u.imm.getLsbD 15 || u.imm.toNat < 1024

/-- OUT and LQ of a read-out micro-operation (R237): zero where the descriptor gives them. OUT 14 and 15 are left to the walk of the
macro that meets them (R240, R243). -/
def UForm.outOk (u : UForm) : Bool := !u.dsc || (u.out == 0 && u.lq == 0)

/-- The fields a micro-operation does not use are zero (R237, R238); `used` names those it uses. -/
def UForm.only (u : UForm) (used : List Char) : Bool :=
  (used.contains 't' || u.tgt == 0) && (used.contains 'a' || u.ua == 0) && (used.contains 'b' || u.ub == 0) &&
  (used.contains 'd' || u.ud == 0) && (used.contains 'f' || u.fsel == 0) && (used.contains 'k' || u.ksel == 0) &&
  (used.contains 'i' || u.imm == 0) && (used.contains 'o' || (u.out == 0 && u.lq == 0 && !u.dsc))

/-- A micro-operation's check, as a code of its own: 4 for a field it may not set (R237). -/
def UForm.check (used : List Char) (ok : Bool) (u : UForm) : Option Nat :=
  if u.only used && ok then none else some 4

/-- The lowest class 0x02 code that applies to an instruction word or micro-operation; `none` where it is
well formed. Codes 1, 2 and 7 belong to the word before it is an instruction (Decode). vmin and vmax admit an RM under .f32, where
it changes nothing: R172 has the field for float results, R175 bars it in vabs and vneg only, and an exact result is never changed (R55;
DEDUCED, log 59). -/
def Instr.illegal : Instr → Option Nat
  | .add a | .sub a | .mul a | .and a | .or a | .xor a | .andn a | .shl a | .shr a | .sra a =>
    a.check .xd .xs .xs { cls := .S, bits := a.out 0 }
  | .mulh a | .div a | .rem a | .min a | .max a => a.check .xd .xs .xs { cls := .S, bits := a.out 1 }
  | .fsh a =>
    a.check (if a.m 6 1 == 1 then .xdr else .xd) .xs .xs
      { cls := .S, bits := a.out 0x7F || (a.m 6 1 == 1 && a.m 0 6 != 0) }
  | .bfx a =>
    a.check .xd .xs (if a.m 13 1 == 1 then .xs else .un)
      { cls := .S, bits := a.out 0x3FFF || (a.m 13 1 == 1 && a.m 0 6 != 0) }
  | .bfi a =>
    a.check .xdr .xs (if a.m 13 1 == 1 then .xs else .un)
      { cls := .S, bits := a.out 0x2FFF || (a.m 13 1 == 1 && a.m 0 6 != 0) }
  | .addi a | .andi a | .ori a | .xori a => a.check .xd .xs { cls := .S }
  | .shli a | .shri a | .srai a => a.check .xd .xs { cls := .S, bits := a.outside 0x3F }
  | .li a => a.check .xd .un { cls := .S }
  | .popc a | .clz a | .ctz a => a.check .xd .xs .un { cls := .S, bits := a.out 0 }
  | .cmp a => a.check .spr .xs .xs { cls := .S, bits := a.out 7 }
  | .cmpi a => a.check .spr .xs { cls := .S }
  | .sel a => a.check .xd .xs .xs { cls := .S, bits := a.out 7 }
  | .spop a =>
    a.check .spr (if 5 ≤ a.m 0 3 then .un else .spr) (if 4 ≤ a.m 0 3 then .un else .spr)
      { cls := .S, bits := a.out 7, valBad := a.m 0 3 == 7 }
  | .br a | .loop a | .bq a => a.check .un .un { cls := .S, must0 := dispZero a.hdr }
  | .bcc a => a.check .un .spr { cls := .S }
  | .lcset a =>
    a.check .un .un
      { cls := .S, must0 := dispZero a.hdr,
        bits := a.ext.isSome && a.imm64.toNat >>> 34 != 0 }
  | .lcmov a => a.check .un .xs .un { cls := .S, bits := a.out 3 }
  | .rbset a => a.check .un .un { cls := .S, bits := a.outside 0x1F, must0 := dispZero a.hdr }
  | .rbmov a | .mfw a | .hret a => a.check .un .xs .un { cls := .S, bits := a.out 0 }
  | .mfwi a => a.check .un .un { cls := .S }
  | .mfs a => a.check .xd .un .un { cls := .S, bits := a.out 0xFFF, sysBad := !sysReadable (a.m 0 12) }
  | .mts a => a.check .un .xs .un { cls := .S, bits := a.out 0xFFF, sysBad := !sysWritable (a.m 0 12) }
  | .trap a => a.check .un .un { cls := .S, bits := a.outside 0xFFFF, must0 := a.hdr.susp }
  | .yield a | .halt a => a.check .un .un .un { cls := .S, bits := a.out 0 }
  | .tnow a => a.check .xd .un .un { cls := .S, bits := a.out 1 }
  | .gadd a | .gsub a | .gmul a | .gand a | .gor a | .gshl a | .gshr a =>
    a.check .gd .gs .gs { cls := .A, bits := a.out 0 }
  | .gaddi a => a.check .gd .gs { cls := .A }
  | .gli a => a.check .gd .un { cls := .A }
  | .gshli a => a.check .gd .gs { cls := .A, bits := a.outside 0x3F }
  | .aout a => a.check .un .gs .gs { cls := .A, bits := a.out 7 }
  | .ld a | .ldLast a => a.mem false
  | .st a => a.mem true
  | .lds a => a.strided .qd .gs false false
  | .sts a => a.strided .ws .gs true false
  | .ldg a => a.strided .qd .ws false true
  | .stg a => a.strided .ws .ws true true
  | .tld a => a.check .qd .gs .gs { cls := .A, bits := a.out 0 }
  | .tst a => a.check .ws .gs .gs { cls := .A, bits := a.out 0x207, valBad := 6 ≤ a.m 0 3 }
  | .qsync a | .batchClose a => a.check .un .un .un { cls := .A, bits := a.out 0 }
  | .fence a => a.check .un .un .un { cls := .A, bits := a.out 0x7C00, valBad := a.ordBad [1, 2, 3] }
  | .amoAdd a | .amoMin a | .amoMax a => a.amo [0, 1, 2, 3]
  | .amoFadd a | .amoFmax a => a.amo [4]
  | .amoAnd a | .amoOr a => a.amo [0, 2]
  | .amoSwp a | .amoCas a => a.amo [0, 1, 2, 3, 4]
  | .amoInc a => a.amo [0, 1, 2, 3] true
  | .feLd a => a.check .gq .gd .un { cls := .A, bits := a.out 7 }
  | .feSt a => a.check .gw .gd .un { cls := .A, bits := a.out 3 }
  | .feSet a | .feClr a => a.check .un .gd .gs { cls := .A, bits := a.out 0 }
  | .smpLd a =>
    a.check .qd .gd (if a.m 14 1 == 1 then .ws else .un)
        { cls := .A, bits := a.out (if a.m 14 1 == 1 then 0x407F else 0x4003),
          valBad := a.m 14 1 == 1 && (5 ≤ a.m 0 4 || 4 ≤ a.m 4 3) }
  | .smpInv a => a.check .un .un .un { cls := .A, bits := a.out 0x1C00, valBad := 6 ≤ a.m 10 3 }
  | .cp a => a.check .gd .gd (if a.ext.isSome then .un else .gs) { cls := .A, bits := a.out 0 }
  | .cpChain a => a.check .un .gd (if a.ext.isSome then .un else .gs) { cls := .A, bits := a.out 0 }
  | .cpTensor a | .cpQuant a | .cpPages a | .cpRing a =>
    a.check .un .gd .un { cls := .A, bits := a.out 0 }
  | .cpadv a => a.check .gd .gd { cls := .A, bits := a.outside 0xFF }
  | .batchWait a => a.check .un .un { cls := .A, bits := a.outside 0xF }
  | .vadd a | .vsub a => a.lane .vd .vs .vs [0, 1, 2, 3] [1, 2] true
  | .vmul a => a.lane .vd .vs .vs [0, 1, 2, 3] [] true
  | .vmulh a => a.lane .vd .vs .vs [1, 2] [] false
  | .vfma a | .vfms a => a.lane .vdr .vs .vs [1, 2, 3] [] true
  | .vmin a | .vmax a => a.lane .vd .vs .vs [1, 2, 3] [] true
  | .vabs a | .vneg a => a.lane .vd .vs .un [1, 3] [1] false
  | .vand a | .vor a | .vxor a | .vshl a | .vshr a | .vsra a => a.lane .vd .vs .vs [0] [] false
  | .vnot a | .vpopc a | .vclz a | .vmov a => a.lane .vd .vs .un [0] [] false
  | .vbfx a => a.lane .vd .vs .vs [1, 2] [] false
  | .vfsh a =>
    a.check (if a.m 5 1 == 1 then .vdr else .vd) .vs .vs
      { cls := .V, bits := a.out 0x3F || (a.m 5 1 == 1 && a.m 0 5 != 0) }
  | .vli a =>
    a.check .vd .un { cls := .V, bits := a.ext.isSome && a.imm64.toNat >>> 32 != 0 }
  | .vbcast a => a.lane .vd .sc .un [0] [] false
  | .vsel a => a.lane .vd .vs .vs [0] [] false true
  | .vcmp a => a.vcmpCheck
  | .vperm a => a.check .vd .vs .vs { cls := .V, bits := a.out 0 }
  | .vslide a => a.check .vd .vs .vs { cls := .V, bits := a.out 0xFF, valBad := a.m 0 8 == 128 }
  | .vrot a =>
    a.check .vd .vs (if a.m 7 1 == 1 then .sc else .un)
      { cls := .V, bits := a.out 0xFF || (a.m 7 1 == 1 && a.m 0 7 != 0) }
  | .vredsum a => a.fold true false
  | .vredmax a | .vredmin a => a.fold false false
  | .vscan a => a.fold true true
  | .vcvt a => a.check .vd .vs .un { cls := .V, bits := a.out 0x3FFF, valBad := a.vcvtBad }
  | .vqmx a =>
    a.check .vd .vs (if a.m 7 1 == 1 then .pr else .un)
      { cls := .V, bits := a.out 0xFF, valBad := 6 ≤ a.m 4 3 || a.m 0 4 < 4 || 8 < a.m 0 4 }
  | .vqem a =>
    a.check .vd .vs (if a.m 7 1 == 1 then .pr else .un)
      { cls := .V, bits := a.out 0xFF, valBad := 6 ≤ a.m 4 3 || a.m 0 4 < 9 || 11 < a.m 0 4 }
  | .vamax a => a.check .vd .vs .un { cls := .V, bits := a.out 1 }
  | .vaccRd a => a.check .vd .sc .un { cls := .V, bits := a.out 0xFFF, valBad := 768 ≤ a.m 0 10 }
  | .vaccWr a => a.check .un .sc .vs { cls := .V, bits := a.out 0xFFF, valBad := 768 ≤ a.m 0 10 }
  | .vaccAdd a => a.check .un .sc .vs { cls := .V, bits := a.out 0x1FFF, valBad := 768 ≤ a.m 0 10 }
  | .pand a | .por a | .pxor a => a.check .pr .pr .pr { cls := .V, bits := a.out 0 }
  | .pnot a => a.check .pr .pr .un { cls := .V, bits := a.out 0 }
  | .pset a => a.check .pr .un { cls := .V, bits := a.outside 0x1FF, valBad := 128 < a.i 0 8 }
  | .exp2 a | .log2 a | .rsqrt a | .tanh a | .sigm a | .erf a => a.fn false
  | .rcp a | .sqrt a => a.fn true
  | .fcvt a =>
    a.check .vd .vs .un
      { cls := .F, bits := a.out 0xFFF,
        valBad := 6 ≤ a.m 8 3 ||
        !([(12, 3), (13, 3), (3, 12), (3, 13)].contains (a.m 0 4, a.m 4 4)) }
  | .fcvtI a =>
    a.check .vd .vs .un
      { cls := .F, bits := a.out 0xFFF,
        valBad := 6 ≤ a.m 8 3 || a.m 0 4 != 3 || a.m 4 4 != 3 || a.m 11 1 != 0 }
  | .mlease a => a.check .un .un { cls := .M, bits := a.outside 0x7F, valBad := a.i 0 7 == 0 || 64 < a.i 0 7 }
  | .mrel a | .mswap a | .mdrain a => a.check .un .un .un { cls := .M, bits := a.out 0 }
  | .mldw a => a.check .un .sc .un { cls := .M, bits := a.out 0 }
  | .mmul a =>
    a.check (if a.m 10 1 == 1 then .sc else .un) .sc .sc
      { cls := .M, bits := a.out 0x7FF || (a.m 10 1 == 1 && a.m 0 10 != 0), valBad := 768 < a.m 0 10 }
  | .mchain a =>
    a.check .un .un .un { cls := .M, bits := a.out 0x3F, valBad := 6 ≤ a.m 3 3 || a.m 3 3 + 1 ≤ a.m 0 3 }
  | .mrnd a => a.check .un .un { cls := .M, bits := a.outside 7, valBad := 6 ≤ a.i 0 3 }
  | .mclr a => a.check .un .sc .un { cls := .M, bits := a.out 0x3FF, valBad := 768 < a.m 0 10 }
  | .maccSt a =>
    a.check .md .sc .un
      { cls := .M, bits := a.out 0xFF,
        valBad := 13 < a.m 0 4 || (a.m 4 1 == 1 && a.m 0 4 < 12) ||
        (a.m 5 1 == 1 && !(a.m 0 4 == 2 || a.m 0 4 == 3)) }
  | .lfwd a | .ldgrad a | .lwgrad a | .lupd a =>
    a.check .un .sc .un
      { cls := .M,
        bits := a.out 0 || ((a.ext.map fun e => e.toNat >>> 12 != 0).getD false) }
  | .mcload a =>
    a.check .un .sc .sc
      { cls := .M,
        bits := a.out 0xFFF || ((a.ext.map fun e => e.toNat >>> 32 != 0).getD false),
        valBad := a.m 0 12 < 0x100 }
  | .align | .alignSuspend => none
  | .barInit a => a.yCheck {} a.ext.isSome (a.i 11 11 == 0)
  | .barArrive a | .barWait a | .barArrwait a =>
    a.yCheck { wa := true, needA := true } (a.i 16 6 != 0) false
  | .domJoin a | .domLeave a | .domSync a => a.yCheck {} (a.imm != 0) false
  | .sqPut a | .sqGet a => a.yCheck { wa := true } (a.imm != 0) false
  | .spawn a => a.yCheck { wa := true, stage := true } (a.ext.isNone && a.imm != 0) false
  | .sigWait a =>
    a.yCheck
      { wa := true, needA := true, wb := true, subA := fun n => n ≤ 5, subB := fun n => n ≤ 3,
        zeroA := false, zeroB := false } (a.immBeside (a.fa.toNat % 16)) false
  | .sigSet a =>
    a.yCheck
      { wa := true, needA := true, wb := true, subA := fun n => n ≤ 5, subB := fun n => n ≤ 2,
        zeroA := false, zeroB := false } (a.immBeside (a.fa.toNat % 16)) false
  | .waitTime a => a.yCheck { wa := true, subA := fun n => n ≤ 1 } (a.immBeside (a.fd.toNat % 16)) false
  | .prio a => a.yCheck {} (a.i 2 20 != 0) false
  | .cqWake a =>
    a.yCheck { wa := true, wb := true }
      (if a.ext.isSome then a.fa.toNat % 16 != 0
       else if a.fd.toNat % 16 != 0 then a.imm != 0 else a.i 12 10 != 0)
      (a.ext.isSome && a.fd.toNat % 16 == 0)
  | .uend u => u.check [] true
  | .uldw u => u.check ['a', 'f'] true
  | .uswap u => u.check [] true
  | .umul u => u.check ['a', 'b', 'f', 'i'] u.sizeOk
  | .uclr u => u.check ['b', 'i'] u.sizeOk
  | .ust u => u.check ['a', 'b', 'd', 'i', 'o'] (u.sizeOk && u.outOk)
  | .uupd u => u.check ['a', 'b', 'd', 't', 'i', 'o'] (u.sizeOk && u.outOk && u.tgt.toNat < 8)
  | .uadd u => u.check ['b', 'd'] true
  | .uaddi u => u.check ['d', 'i'] true
  | .ukset u => u.check ['k', 'i'] true
  | .uloop u => u.check ['k', 't'] true
  | _ => none

/-- A form that admits no extension carries none (R76). -/
def Instr.extOk : Instr → Bool
  | .addi _ | .andi _ | .ori _ | .xori _ | .li _ | .cmpi _ | .lcset _ | .mfwi _ | .gaddi _ | .gli _
  | .ld _ | .st _ | .ldLast _ | .cp _ | .cpTensor _ | .cpQuant _ | .cpChain _ | .cpPages _ | .cpRing _
  | .vli _ | .lfwd _ | .ldgrad _ | .lwgrad _ | .lupd _ | .mcload _ | .spawn _ | .sigWait _ | .sigSet _
  | .waitTime _ | .cqWake _ => true
  | _ => false

end Sys2Proof
end

