-- ==== Sys2Proof/Decode.lean ====
section
/-! DEFINITION. Decoding of instruction words and micro-operations (R73 to R76, R102 to R108, R237, R238),
and the encoder written from the same tables. -/

namespace Sys2Proof

/-- Why a word is refused: the code of class 0x02 (R371), and whether the fault stands at the extension
word (R76). -/
inductive Reject where
  /-- fewer bytes than a word -/
  | short
  /-- the illegal-instruction fault with this code; `onExt`: TRAP_PC is the extension word's address -/
  | illegal (code : Nat) (onExt : Bool)
  deriving DecidableEq, Repr

/-- Little-endian bytes of a number. -/
def leBytes : Nat → Nat → List Byte
  | 0, _ => []
  | n + 1, v => BitVec.ofNat 8 v :: leBytes n (v / 256)

/-- The number that little-endian bytes hold. -/
def leNat : List Byte → Nat
  | [] => 0
  | b :: l => b.toNat + 256 * leNat l

/-- The form code of a cell (R100, R101). -/
inductive Form where
  | r | rx | i | ix
  deriving DecidableEq, Repr

/-- The form of each assigned cell (R102 to R107); `none` for a reserved cell (R108). -/
def cellForm (cls opc : Nat) : Option Form :=
  match cls, opc with
  | 0, 0 => some .r
  | 0, 1 => some .r
  | 0, 2 => some .r
  | 0, 3 => some .r
  | 0, 4 => some .r
  | 0, 5 => some .r
  | 0, 6 => some .r
  | 0, 7 => some .r
  | 0, 8 => some .r
  | 0, 9 => some .r
  | 0, 10 => some .r
  | 0, 11 => some .r
  | 0, 12 => some .r
  | 0, 13 => some .r
  | 0, 14 => some .r
  | 0, 15 => some .r
  | 0, 16 => some .ix
  | 0, 17 => some .ix
  | 0, 18 => some .ix
  | 0, 19 => some .ix
  | 0, 20 => some .i
  | 0, 21 => some .i
  | 0, 22 => some .i
  | 0, 23 => some .ix
  | 0, 24 => some .r
  | 0, 25 => some .r
  | 0, 26 => some .r
  | 0, 27 => some .r
  | 0, 28 => some .r
  | 0, 32 => some .r
  | 0, 33 => some .ix
  | 0, 34 => some .r
  | 0, 35 => some .r
  | 0, 48 => some .i
  | 0, 49 => some .i
  | 0, 50 => some .i
  | 0, 51 => some .i
  | 0, 52 => some .ix
  | 0, 53 => some .r
  | 0, 54 => some .i
  | 0, 55 => some .r
  | 0, 56 => some .r
  | 0, 57 => some .ix
  | 0, 64 => some .r
  | 0, 65 => some .r
  | 0, 66 => some .i
  | 0, 67 => some .r
  | 0, 68 => some .r
  | 0, 69 => some .r
  | 0, 70 => some .r
  | 1, 0 => some .r
  | 1, 1 => some .r
  | 1, 2 => some .r
  | 1, 3 => some .r
  | 1, 4 => some .r
  | 1, 5 => some .r
  | 1, 6 => some .r
  | 1, 7 => some .ix
  | 1, 8 => some .ix
  | 1, 9 => some .i
  | 1, 10 => some .r
  | 1, 16 => some .ix
  | 1, 17 => some .ix
  | 1, 18 => some .ix
  | 1, 19 => some .r
  | 1, 20 => some .r
  | 1, 21 => some .r
  | 1, 22 => some .r
  | 1, 23 => some .r
  | 1, 24 => some .r
  | 1, 25 => some .r
  | 1, 26 => some .r
  | 1, 32 => some .r
  | 1, 33 => some .r
  | 1, 34 => some .r
  | 1, 35 => some .r
  | 1, 36 => some .r
  | 1, 37 => some .r
  | 1, 38 => some .r
  | 1, 39 => some .r
  | 1, 40 => some .r
  | 1, 41 => some .r
  | 1, 48 => some .r
  | 1, 49 => some .r
  | 1, 50 => some .r
  | 1, 51 => some .r
  | 1, 52 => some .r
  | 1, 53 => some .r
  | 1, 64 => some .rx
  | 1, 65 => some .rx
  | 1, 66 => some .rx
  | 1, 67 => some .rx
  | 1, 68 => some .rx
  | 1, 69 => some .rx
  | 1, 70 => some .i
  | 1, 71 => some .r
  | 1, 72 => some .i
  | 2, 0 => some .r
  | 2, 1 => some .r
  | 2, 2 => some .r
  | 2, 3 => some .r
  | 2, 4 => some .r
  | 2, 5 => some .r
  | 2, 6 => some .r
  | 2, 7 => some .r
  | 2, 8 => some .r
  | 2, 9 => some .r
  | 2, 10 => some .r
  | 2, 11 => some .r
  | 2, 12 => some .r
  | 2, 13 => some .r
  | 2, 14 => some .r
  | 2, 15 => some .r
  | 2, 16 => some .r
  | 2, 17 => some .r
  | 2, 18 => some .r
  | 2, 19 => some .r
  | 2, 20 => some .r
  | 2, 21 => some .r
  | 2, 22 => some .ix
  | 2, 23 => some .r
  | 2, 24 => some .r
  | 2, 25 => some .r
  | 2, 32 => some .r
  | 2, 33 => some .r
  | 2, 34 => some .r
  | 2, 35 => some .r
  | 2, 36 => some .r
  | 2, 37 => some .r
  | 2, 38 => some .r
  | 2, 48 => some .r
  | 2, 49 => some .r
  | 2, 50 => some .r
  | 2, 51 => some .r
  | 2, 64 => some .r
  | 2, 65 => some .r
  | 2, 66 => some .r
  | 2, 80 => some .r
  | 2, 81 => some .r
  | 2, 82 => some .r
  | 2, 83 => some .r
  | 2, 84 => some .i
  | 4, 0 => some .r
  | 4, 1 => some .r
  | 4, 2 => some .r
  | 4, 3 => some .r
  | 4, 4 => some .r
  | 4, 5 => some .r
  | 4, 6 => some .r
  | 4, 7 => some .r
  | 4, 8 => some .r
  | 4, 9 => some .r
  | 3, 0 => some .i
  | 3, 1 => some .r
  | 3, 2 => some .r
  | 3, 3 => some .r
  | 3, 4 => some .r
  | 3, 5 => some .r
  | 3, 6 => some .i
  | 3, 7 => some .r
  | 3, 8 => some .r
  | 3, 9 => some .r
  | 3, 16 => some .rx
  | 3, 17 => some .rx
  | 3, 18 => some .rx
  | 3, 19 => some .rx
  | 3, 20 => some .rx
  | 5, 1 => some .i
  | 5, 2 => some .i
  | 5, 3 => some .i
  | 5, 4 => some .i
  | 5, 5 => some .i
  | 5, 6 => some .i
  | 5, 7 => some .i
  | 5, 8 => some .i
  | 5, 9 => some .i
  | 5, 10 => some .ix
  | 5, 11 => some .ix
  | 5, 12 => some .ix
  | 5, 13 => some .ix
  | 5, 14 => some .i
  | 5, 15 => some .ix
  | 5, 0 => some .r
  | _, _ => none

/-- The R-form cells of R102 to R106: class and opcode to instruction. -/
def ofR (cls opc : Nat) (a : RForm) : Option Instr :=
  match cls, opc with
  | 0, 0 => some (.add a)
  | 0, 1 => some (.sub a)
  | 0, 2 => some (.mul a)
  | 0, 3 => some (.mulh a)
  | 0, 4 => some (.div a)
  | 0, 5 => some (.rem a)
  | 0, 6 => some (.and a)
  | 0, 7 => some (.or a)
  | 0, 8 => some (.xor a)
  | 0, 9 => some (.andn a)
  | 0, 10 => some (.shl a)
  | 0, 11 => some (.shr a)
  | 0, 12 => some (.sra a)
  | 0, 13 => some (.fsh a)
  | 0, 14 => some (.bfx a)
  | 0, 15 => some (.bfi a)
  | 0, 24 => some (.popc a)
  | 0, 25 => some (.clz a)
  | 0, 26 => some (.ctz a)
  | 0, 27 => some (.min a)
  | 0, 28 => some (.max a)
  | 0, 32 => some (.cmp a)
  | 0, 34 => some (.sel a)
  | 0, 35 => some (.spop a)
  | 0, 53 => some (.lcmov a)
  | 0, 55 => some (.rbmov a)
  | 0, 56 => some (.mfw a)
  | 0, 64 => some (.mfs a)
  | 0, 65 => some (.mts a)
  | 0, 67 => some (.hret a)
  | 0, 68 => some (.yield a)
  | 0, 69 => some (.halt a)
  | 0, 70 => some (.tnow a)
  | 1, 0 => some (.gadd a)
  | 1, 1 => some (.gsub a)
  | 1, 2 => some (.gmul a)
  | 1, 3 => some (.gand a)
  | 1, 4 => some (.gor a)
  | 1, 5 => some (.gshl a)
  | 1, 6 => some (.gshr a)
  | 1, 10 => some (.aout a)
  | 1, 19 => some (.lds a)
  | 1, 20 => some (.sts a)
  | 1, 21 => some (.ldg a)
  | 1, 22 => some (.stg a)
  | 1, 23 => some (.tld a)
  | 1, 24 => some (.tst a)
  | 1, 25 => some (.qsync a)
  | 1, 26 => some (.fence a)
  | 1, 32 => some (.amoAdd a)
  | 1, 33 => some (.amoFadd a)
  | 1, 34 => some (.amoFmax a)
  | 1, 35 => some (.amoMin a)
  | 1, 36 => some (.amoMax a)
  | 1, 37 => some (.amoAnd a)
  | 1, 38 => some (.amoOr a)
  | 1, 39 => some (.amoSwp a)
  | 1, 40 => some (.amoCas a)
  | 1, 41 => some (.amoInc a)
  | 1, 48 => some (.feLd a)
  | 1, 49 => some (.feSt a)
  | 1, 50 => some (.feSet a)
  | 1, 51 => some (.feClr a)
  | 1, 52 => some (.smpLd a)
  | 1, 53 => some (.smpInv a)
  | 1, 64 => some (.cp a)
  | 1, 65 => some (.cpTensor a)
  | 1, 66 => some (.cpQuant a)
  | 1, 67 => some (.cpChain a)
  | 1, 68 => some (.cpPages a)
  | 1, 69 => some (.cpRing a)
  | 1, 71 => some (.batchClose a)
  | 2, 0 => some (.vadd a)
  | 2, 1 => some (.vsub a)
  | 2, 2 => some (.vmul a)
  | 2, 3 => some (.vmulh a)
  | 2, 4 => some (.vfma a)
  | 2, 5 => some (.vfms a)
  | 2, 6 => some (.vmin a)
  | 2, 7 => some (.vmax a)
  | 2, 8 => some (.vabs a)
  | 2, 9 => some (.vneg a)
  | 2, 10 => some (.vand a)
  | 2, 11 => some (.vor a)
  | 2, 12 => some (.vxor a)
  | 2, 13 => some (.vnot a)
  | 2, 14 => some (.vshl a)
  | 2, 15 => some (.vshr a)
  | 2, 16 => some (.vsra a)
  | 2, 17 => some (.vbfx a)
  | 2, 18 => some (.vfsh a)
  | 2, 19 => some (.vpopc a)
  | 2, 20 => some (.vclz a)
  | 2, 21 => some (.vmov a)
  | 2, 23 => some (.vbcast a)
  | 2, 24 => some (.vsel a)
  | 2, 25 => some (.vcmp a)
  | 2, 32 => some (.vperm a)
  | 2, 33 => some (.vslide a)
  | 2, 34 => some (.vrot a)
  | 2, 35 => some (.vredsum a)
  | 2, 36 => some (.vredmax a)
  | 2, 37 => some (.vredmin a)
  | 2, 38 => some (.vscan a)
  | 2, 48 => some (.vcvt a)
  | 2, 49 => some (.vqmx a)
  | 2, 50 => some (.vqem a)
  | 2, 51 => some (.vamax a)
  | 2, 64 => some (.vaccRd a)
  | 2, 65 => some (.vaccWr a)
  | 2, 66 => some (.vaccAdd a)
  | 2, 80 => some (.pand a)
  | 2, 81 => some (.por a)
  | 2, 82 => some (.pxor a)
  | 2, 83 => some (.pnot a)
  | 4, 0 => some (.exp2 a)
  | 4, 1 => some (.log2 a)
  | 4, 2 => some (.rcp a)
  | 4, 3 => some (.rsqrt a)
  | 4, 4 => some (.sqrt a)
  | 4, 5 => some (.tanh a)
  | 4, 6 => some (.sigm a)
  | 4, 7 => some (.erf a)
  | 4, 8 => some (.fcvt a)
  | 4, 9 => some (.fcvtI a)
  | 3, 1 => some (.mrel a)
  | 3, 2 => some (.mldw a)
  | 3, 3 => some (.mswap a)
  | 3, 4 => some (.mmul a)
  | 3, 5 => some (.mchain a)
  | 3, 7 => some (.mclr a)
  | 3, 8 => some (.maccSt a)
  | 3, 9 => some (.mdrain a)
  | 3, 16 => some (.lfwd a)
  | 3, 17 => some (.ldgrad a)
  | 3, 18 => some (.lwgrad a)
  | 3, 19 => some (.lupd a)
  | 3, 20 => some (.mcload a)
  | _, _ => none

/-- The I-form cells of R102 to R107. -/
def ofI (cls opc : Nat) (a : IForm) : Option Instr :=
  match cls, opc with
  | 0, 16 => some (.addi a)
  | 0, 17 => some (.andi a)
  | 0, 18 => some (.ori a)
  | 0, 19 => some (.xori a)
  | 0, 20 => some (.shli a)
  | 0, 21 => some (.shri a)
  | 0, 22 => some (.srai a)
  | 0, 23 => some (.li a)
  | 0, 33 => some (.cmpi a)
  | 0, 48 => some (.br a)
  | 0, 49 => some (.loop a)
  | 0, 50 => some (.bq a)
  | 0, 51 => some (.bcc a)
  | 0, 52 => some (.lcset a)
  | 0, 54 => some (.rbset a)
  | 0, 57 => some (.mfwi a)
  | 0, 66 => some (.trap a)
  | 1, 7 => some (.gaddi a)
  | 1, 8 => some (.gli a)
  | 1, 9 => some (.gshli a)
  | 1, 16 => some (.ld a)
  | 1, 17 => some (.st a)
  | 1, 18 => some (.ldLast a)
  | 1, 70 => some (.cpadv a)
  | 1, 72 => some (.batchWait a)
  | 2, 22 => some (.vli a)
  | 2, 84 => some (.pset a)
  | 3, 0 => some (.mlease a)
  | 3, 6 => some (.mrnd a)
  | 5, 1 => some (.barInit a)
  | 5, 2 => some (.barArrive a)
  | 5, 3 => some (.barWait a)
  | 5, 4 => some (.barArrwait a)
  | 5, 5 => some (.domJoin a)
  | 5, 6 => some (.domLeave a)
  | 5, 7 => some (.domSync a)
  | 5, 8 => some (.sqPut a)
  | 5, 9 => some (.sqGet a)
  | 5, 10 => some (.spawn a)
  | 5, 11 => some (.sigWait a)
  | 5, 12 => some (.sigSet a)
  | 5, 13 => some (.waitTime a)
  | 5, 14 => some (.prio a)
  | 5, 15 => some (.cqWake a)
  | _, _ => none

/-- DELAY, SUSP, POP and PUSH of a word (R73). -/
def hdrOf (w : Word) : Hdr :=
  ⟨w.extractLsb' 51 10, w.getLsbD 50, w.extractLsb' 47 3, w.extractLsb' 44 3⟩

/-- The R-form fields of a word (R73). -/
def rOf (w : Word) (e : Option (BitVec 48)) : RForm :=
  ⟨hdrOf w, w.extractLsb' 29 7, w.extractLsb' 22 7, w.extractLsb' 15 7, w.extractLsb' 0 15, e⟩

/-- The I-form fields of a word (R73). -/
def iOf (w : Word) (e : Option (BitVec 48)) : IForm :=
  ⟨hdrOf w, w.extractLsb' 29 7, w.extractLsb' 22 7, w.extractLsb' 0 22, e⟩

/-- The class field (R73). -/
def clsOf (w : Word) : Nat := (w.extractLsb' 61 3).toNat

/-- The opcode field (R73). -/
def opcOf (w : Word) : Nat := (w.extractLsb' 36 8).toNat

/-- align (R217): every field but SUSP is zero; otherwise the lowest code that applies (R371). -/
def decodeAlign (w : Word) : Except Reject Instr :=
  let a := rOf w none
  match firstCode [(3, a.hdr.badTok .Y), (4, w.extractLsb' 0 36 != 0), (6, !a.hdr.unscheduled)] with
  | some c => .error (.illegal c false)
  | none => .ok (if a.hdr.susp then .alignSuspend else .align)

/-- A word that is no extension word, with the immediate of the extension word before it. -/
def decodeOne (w : Word) (e : Option (BitVec 48)) : Except Reject Instr :=
  if clsOf w = 6 then .error (.illegal 1 false)
  else if clsOf w = 5 ∧ opcOf w = 0 then decodeAlign w
  else
    let i := match cellForm (clsOf w) (opcOf w) with
      | none => none
      | some .r => ofR (clsOf w) (opcOf w) (rOf w e)
      | some .rx => ofR (clsOf w) (opcOf w) (rOf w e)
      | some .i => ofI (clsOf w) (opcOf w) (iOf w e)
      | some .ix => ofI (clsOf w) (opcOf w) (iOf w e)
    match i with
    | none => .error (.illegal 2 false)
    | some j =>
      match j.illegal with
      | none => .ok j
      | some c => .error (.illegal c false)

/-- The word after an extension word does not admit it (R76). -/
def extBad (w : Word) : Bool :=
  clsOf w = 7 ||
    match cellForm (clsOf w) (opcOf w) with
    | some .rx => false
    | some .ix => w.extractLsb' 16 6 != 0
    | _ => true

/-- An instruction and how many bytes it takes, from the words at an address; `w2` is the word after
`w1`, read only where `w1` is an extension word (R76). -/
def decodeWords (w1 : Word) (w2 : Word) : Except Reject (Instr × Nat) :=
  if clsOf w1 = 7 then
    if w1.extractLsb' 0 13 ≠ 0 ∨ extBad w2 then .error (.illegal 7 true)
    else match decodeOne w2 (some (w1.extractLsb' 13 48)) with
      | .error e => .error e
      | .ok i => .ok (i, 16)
  else match decodeOne w1 none with
    | .error e => .error e
    | .ok i => .ok (i, 8)

/-- Decoding of any bytes: the instruction and the bytes that follow it. -/
def decode (b : List Byte) : Except Reject (Instr × List Byte) :=
  if b.length < 8 then .error .short
  else
    let w1 := BitVec.ofNat 64 (leNat (b.take 8))
    if clsOf w1 = 7 ∧ b.length < 16 then .error .short
    else match decodeWords w1 (BitVec.ofNat 64 (leNat ((b.drop 8).take 8))) with
      | .error e => .error e
      | .ok (i, n) => .ok (i, b.drop n)

/-- The micro-operation of a program-region word (R237, R238); `none` where it is refused. -/
def decodeUop (w : Word) : Option Instr :=
  let u : UForm := ⟨w.getLsbD 57, w.extractLsb' 45 12, w.extractLsb' 42 3, w.extractLsb' 39 3,
    w.extractLsb' 36 3, w.extractLsb' 34 2, w.extractLsb' 32 2, w.extractLsb' 16 16,
    w.extractLsb' 12 4, w.extractLsb' 10 2, w.getLsbD 9⟩
  let i : Option Instr := match (w.extractLsb' 58 6).toNat with
    | 0 => some (.uend u) | 1 => some (.uldw u) | 2 => some (.uswap u) | 3 => some (.umul u)
    | 4 => some (.uclr u) | 5 => some (.ust u) | 6 => some (.uupd u) | 7 => some (.uadd u)
    | 8 => some (.uaddi u) | 9 => some (.ukset u) | 10 => some (.uloop u) | _ => none
  match i with
  | none => none
  | some j => if w.extractLsb' 0 9 = 0 ∧ j.illegal = none then some j else none

/-- The class, opcode and fields of a program word: the encoder's side of the same tables. -/
def Instr.cell : Instr → Option (Nat × Nat × (RForm ⊕ IForm))
  | .add a => some (0, 0, .inl a)
  | .sub a => some (0, 1, .inl a)
  | .mul a => some (0, 2, .inl a)
  | .mulh a => some (0, 3, .inl a)
  | .div a => some (0, 4, .inl a)
  | .rem a => some (0, 5, .inl a)
  | .and a => some (0, 6, .inl a)
  | .or a => some (0, 7, .inl a)
  | .xor a => some (0, 8, .inl a)
  | .andn a => some (0, 9, .inl a)
  | .shl a => some (0, 10, .inl a)
  | .shr a => some (0, 11, .inl a)
  | .sra a => some (0, 12, .inl a)
  | .fsh a => some (0, 13, .inl a)
  | .bfx a => some (0, 14, .inl a)
  | .bfi a => some (0, 15, .inl a)
  | .addi a => some (0, 16, .inr a)
  | .andi a => some (0, 17, .inr a)
  | .ori a => some (0, 18, .inr a)
  | .xori a => some (0, 19, .inr a)
  | .shli a => some (0, 20, .inr a)
  | .shri a => some (0, 21, .inr a)
  | .srai a => some (0, 22, .inr a)
  | .li a => some (0, 23, .inr a)
  | .popc a => some (0, 24, .inl a)
  | .clz a => some (0, 25, .inl a)
  | .ctz a => some (0, 26, .inl a)
  | .min a => some (0, 27, .inl a)
  | .max a => some (0, 28, .inl a)
  | .cmp a => some (0, 32, .inl a)
  | .cmpi a => some (0, 33, .inr a)
  | .sel a => some (0, 34, .inl a)
  | .spop a => some (0, 35, .inl a)
  | .br a => some (0, 48, .inr a)
  | .loop a => some (0, 49, .inr a)
  | .bq a => some (0, 50, .inr a)
  | .bcc a => some (0, 51, .inr a)
  | .lcset a => some (0, 52, .inr a)
  | .lcmov a => some (0, 53, .inl a)
  | .rbset a => some (0, 54, .inr a)
  | .rbmov a => some (0, 55, .inl a)
  | .mfw a => some (0, 56, .inl a)
  | .mfwi a => some (0, 57, .inr a)
  | .mfs a => some (0, 64, .inl a)
  | .mts a => some (0, 65, .inl a)
  | .trap a => some (0, 66, .inr a)
  | .hret a => some (0, 67, .inl a)
  | .yield a => some (0, 68, .inl a)
  | .halt a => some (0, 69, .inl a)
  | .tnow a => some (0, 70, .inl a)
  | .gadd a => some (1, 0, .inl a)
  | .gsub a => some (1, 1, .inl a)
  | .gmul a => some (1, 2, .inl a)
  | .gand a => some (1, 3, .inl a)
  | .gor a => some (1, 4, .inl a)
  | .gshl a => some (1, 5, .inl a)
  | .gshr a => some (1, 6, .inl a)
  | .gaddi a => some (1, 7, .inr a)
  | .gli a => some (1, 8, .inr a)
  | .gshli a => some (1, 9, .inr a)
  | .aout a => some (1, 10, .inl a)
  | .ld a => some (1, 16, .inr a)
  | .st a => some (1, 17, .inr a)
  | .ldLast a => some (1, 18, .inr a)
  | .lds a => some (1, 19, .inl a)
  | .sts a => some (1, 20, .inl a)
  | .ldg a => some (1, 21, .inl a)
  | .stg a => some (1, 22, .inl a)
  | .tld a => some (1, 23, .inl a)
  | .tst a => some (1, 24, .inl a)
  | .qsync a => some (1, 25, .inl a)
  | .fence a => some (1, 26, .inl a)
  | .amoAdd a => some (1, 32, .inl a)
  | .amoFadd a => some (1, 33, .inl a)
  | .amoFmax a => some (1, 34, .inl a)
  | .amoMin a => some (1, 35, .inl a)
  | .amoMax a => some (1, 36, .inl a)
  | .amoAnd a => some (1, 37, .inl a)
  | .amoOr a => some (1, 38, .inl a)
  | .amoSwp a => some (1, 39, .inl a)
  | .amoCas a => some (1, 40, .inl a)
  | .amoInc a => some (1, 41, .inl a)
  | .feLd a => some (1, 48, .inl a)
  | .feSt a => some (1, 49, .inl a)
  | .feSet a => some (1, 50, .inl a)
  | .feClr a => some (1, 51, .inl a)
  | .smpLd a => some (1, 52, .inl a)
  | .smpInv a => some (1, 53, .inl a)
  | .cp a => some (1, 64, .inl a)
  | .cpTensor a => some (1, 65, .inl a)
  | .cpQuant a => some (1, 66, .inl a)
  | .cpChain a => some (1, 67, .inl a)
  | .cpPages a => some (1, 68, .inl a)
  | .cpRing a => some (1, 69, .inl a)
  | .cpadv a => some (1, 70, .inr a)
  | .batchClose a => some (1, 71, .inl a)
  | .batchWait a => some (1, 72, .inr a)
  | .vadd a => some (2, 0, .inl a)
  | .vsub a => some (2, 1, .inl a)
  | .vmul a => some (2, 2, .inl a)
  | .vmulh a => some (2, 3, .inl a)
  | .vfma a => some (2, 4, .inl a)
  | .vfms a => some (2, 5, .inl a)
  | .vmin a => some (2, 6, .inl a)
  | .vmax a => some (2, 7, .inl a)
  | .vabs a => some (2, 8, .inl a)
  | .vneg a => some (2, 9, .inl a)
  | .vand a => some (2, 10, .inl a)
  | .vor a => some (2, 11, .inl a)
  | .vxor a => some (2, 12, .inl a)
  | .vnot a => some (2, 13, .inl a)
  | .vshl a => some (2, 14, .inl a)
  | .vshr a => some (2, 15, .inl a)
  | .vsra a => some (2, 16, .inl a)
  | .vbfx a => some (2, 17, .inl a)
  | .vfsh a => some (2, 18, .inl a)
  | .vpopc a => some (2, 19, .inl a)
  | .vclz a => some (2, 20, .inl a)
  | .vmov a => some (2, 21, .inl a)
  | .vli a => some (2, 22, .inr a)
  | .vbcast a => some (2, 23, .inl a)
  | .vsel a => some (2, 24, .inl a)
  | .vcmp a => some (2, 25, .inl a)
  | .vperm a => some (2, 32, .inl a)
  | .vslide a => some (2, 33, .inl a)
  | .vrot a => some (2, 34, .inl a)
  | .vredsum a => some (2, 35, .inl a)
  | .vredmax a => some (2, 36, .inl a)
  | .vredmin a => some (2, 37, .inl a)
  | .vscan a => some (2, 38, .inl a)
  | .vcvt a => some (2, 48, .inl a)
  | .vqmx a => some (2, 49, .inl a)
  | .vqem a => some (2, 50, .inl a)
  | .vamax a => some (2, 51, .inl a)
  | .vaccRd a => some (2, 64, .inl a)
  | .vaccWr a => some (2, 65, .inl a)
  | .vaccAdd a => some (2, 66, .inl a)
  | .pand a => some (2, 80, .inl a)
  | .por a => some (2, 81, .inl a)
  | .pxor a => some (2, 82, .inl a)
  | .pnot a => some (2, 83, .inl a)
  | .pset a => some (2, 84, .inr a)
  | .exp2 a => some (4, 0, .inl a)
  | .log2 a => some (4, 1, .inl a)
  | .rcp a => some (4, 2, .inl a)
  | .rsqrt a => some (4, 3, .inl a)
  | .sqrt a => some (4, 4, .inl a)
  | .tanh a => some (4, 5, .inl a)
  | .sigm a => some (4, 6, .inl a)
  | .erf a => some (4, 7, .inl a)
  | .fcvt a => some (4, 8, .inl a)
  | .fcvtI a => some (4, 9, .inl a)
  | .mlease a => some (3, 0, .inr a)
  | .mrel a => some (3, 1, .inl a)
  | .mldw a => some (3, 2, .inl a)
  | .mswap a => some (3, 3, .inl a)
  | .mmul a => some (3, 4, .inl a)
  | .mchain a => some (3, 5, .inl a)
  | .mrnd a => some (3, 6, .inr a)
  | .mclr a => some (3, 7, .inl a)
  | .maccSt a => some (3, 8, .inl a)
  | .mdrain a => some (3, 9, .inl a)
  | .lfwd a => some (3, 16, .inl a)
  | .ldgrad a => some (3, 17, .inl a)
  | .lwgrad a => some (3, 18, .inl a)
  | .lupd a => some (3, 19, .inl a)
  | .mcload a => some (3, 20, .inl a)
  | .barInit a => some (5, 1, .inr a)
  | .barArrive a => some (5, 2, .inr a)
  | .barWait a => some (5, 3, .inr a)
  | .barArrwait a => some (5, 4, .inr a)
  | .domJoin a => some (5, 5, .inr a)
  | .domLeave a => some (5, 6, .inr a)
  | .domSync a => some (5, 7, .inr a)
  | .sqPut a => some (5, 8, .inr a)
  | .sqGet a => some (5, 9, .inr a)
  | .spawn a => some (5, 10, .inr a)
  | .sigWait a => some (5, 11, .inr a)
  | .sigSet a => some (5, 12, .inr a)
  | .waitTime a => some (5, 13, .inr a)
  | .prio a => some (5, 14, .inr a)
  | .cqWake a => some (5, 15, .inr a)
  | .align => some (5, 0, .inl ⟨⟨0, false, 0, 0⟩, 0, 0, 0, 0, none⟩)
  | .alignSuspend => some (5, 0, .inl ⟨⟨0, true, 0, 0⟩, 0, 0, 0, 0, none⟩)
  | .uend _ => none
  | .uldw _ => none
  | .uswap _ => none
  | .umul _ => none
  | .uclr _ => none
  | .ust _ => none
  | .uupd _ => none
  | .uadd _ => none
  | .uaddi _ => none
  | .ukset _ => none
  | .uloop _ => none
  | .dispatchWord _ => none
  | .landingBufferWrite _ => none
  | .issueWindowExpiry _ => none
  | .strandCreate _ _ _ => none
  | .strandPickup _ => none
  | .strandReady _ _ _ => none
  | .preemption _ => none
  | .rebalance _ => none
  | .reserveMaskWrite _ _ => none
  | .heldArrival _ => none
  | .leadCounterArrival _ _ => none
  | .queueSpaceAvailable _ _ _ => none
  | .itemAvailable _ _ _ => none
  | .signalReread _ _ _ => none
  | .timeTargetReached _ _ _ => none
  | .steal _ _ => none
  | .loadDataArrival _ => none
  | .storePerform _ => none
  | .atomicPerform _ => none
  | .storeAcknowledgement _ _ => none
  | .acknowledgementLoss _ _ => none
  | .copyLineLanding _ _ => none
  | .batchComplete _ _ => none
  | .arrayGrant _ => none
  | .matrixCommandStart _ => none
  | .matrixCommandRetire _ => none
  | .chainRendezvous _ => none
  | .handlerStrandCreate _ _ => none
  | .cqWakeWrite _ _ _ => none
  | .queueMap _ => none
  | .queueUnmap _ _ => none
  | .forcedUnmap _ => none
  | .operator _ _ => none
  | .launchBegin _ _ => none
  | .launchRetire _ _ => none
  | .batchIteration _ _ => none
  | .batchAdmissionWake _ _ => none
  | .wait _ _ => none
  | .waitRecordSatisfied _ _ => none
  | .signal _ _ => none
  | .boundary _ _ => none
  | .transfer _ _ => none
  | .nop _ _ => none
  | .transferJobComplete _ _ => none
  | .regionGrant _ => none
  | .queueBind _ => none
  | .revoke _ => none
  | .queueUnbind _ => none
  | .flush _ => none
  | .wdogExpiry _ _ => none
  | .iterationBoundary _ => none
  | .invalidation _ => none
  | .invalidationComplete _ => none
  | .priAnswer _ _ _ _ => none
  | .priTimeout _ _ => none
  | .priClear _ => none
  | .atsInvalidationRequest _ _ _ _ => none
  | .cacheSweep _ => none
  | .sweepDone _ => none
  | .overdrive _ _ _ => none
  | .edgeTrainingComplete _ _ => none
  | .automaticStepDown _ => none
  | .moduleWidthHalving _ _ => none
  | .flitCrcError _ => none
  | .edgeDown _ => none
  | .rerouteTimeout _ _ => none
  | .fabricPortDown _ _ => none
  | .hostPortDown _ => none
  | .hostCxlMemAccess _ _ _ _ => none
  | .pkgSemWrite _ _ => none
  | .pkgSemLeaseExpiry => none
  | .packageReset => none
  | .portFundamentalReset _ => none
  | .sbReset _ => none
  | .dieReset _ _ => none
  | .bootStateAdvance _ => none
  | .firmwareLoad _ _ _ => none
  | .attestation _ => none
  | .attestationDone _ => none
  | .timeAdjWrite _ _ => none
  | .holdover => none
  | .throttle _ _ => none
  | .thermalReset _ => none
  | .telemetrySample _ _ _ _ => none
  | .hbmPatrolScrub _ _ => none
  | .sramScrub _ => none
  | .linkRecalibration _ => none
  | .hbmRowActivationManagement _ => none
  | .singleBitError _ _ => none
  | .doubleBitError _ _ _ => none
  | .registerWrite _ _ _ _ => none
  | .pkgSemRead _ => none
  | .spareLaneRepair _ => none
  | .fabricPortTrained _ _ => none
  | .correctionSlewEnd => none
  | .uncorrectableFrame _ _ => none

/-- The scheduling fields of a word, bits 60:44. -/
def Hdr.bits (h : Hdr) : BitVec 17 := h.delay ++ BitVec.ofBool h.susp ++ h.pop ++ h.push

/-- The 36 operand bits of a word (R73). -/
def operandBits : RForm ⊕ IForm → BitVec 36
  | .inl a => a.fd ++ a.fa ++ a.fb ++ a.mod
  | .inr a => a.fd ++ a.fa ++ a.imm

/-- The scheduling fields of either form. -/
def formHdr : RForm ⊕ IForm → Hdr
  | .inl a => a.hdr
  | .inr a => a.hdr

/-- The extension of either form. -/
def formExt : RForm ⊕ IForm → Option (BitVec 48)
  | .inl a => a.ext
  | .inr a => a.ext

/-- The words of a program instruction: its extension word, where it has one, and its own word (R73, R76);
none for a row that is no program word. -/
def encode (i : Instr) : List Word :=
  match i.cell with
  | none => []
  | some (c, o, f) =>
    let w : Word := BitVec.ofNat 3 c ++ (formHdr f).bits ++ BitVec.ofNat 8 o ++ operandBits f
    match formExt f with
    | none => [w]
    | some e => [(7#3 ++ e ++ 0#13 : Word), w]

/-- A micro-operation and its code (R238). -/
def Instr.uop : Instr → Option (Nat × UForm)
  | .uend u => some (0, u) | .uldw u => some (1, u) | .uswap u => some (2, u) | .umul u => some (3, u)
  | .uclr u => some (4, u) | .ust u => some (5, u) | .uupd u => some (6, u) | .uadd u => some (7, u)
  | .uaddi u => some (8, u) | .ukset u => some (9, u) | .uloop u => some (10, u) | _ => none

/-- The word of a micro-operation (R237). -/
def encodeUop (i : Instr) : Option Word :=
  match i.uop with
  | none => none
  | some (c, u) => some (BitVec.ofNat 6 c ++ BitVec.ofBool u.bnd ++ u.tgt ++ u.ua ++ u.ub ++ u.ud ++ u.fsel ++
      u.ksel ++ u.imm ++ u.out ++ u.lq ++ BitVec.ofBool u.dsc ++ 0#9)

/-- The bytes of an instruction as they stand in memory (R73). -/
def encodeBytes (i : Instr) : List Byte := (encode i).flatMap fun w => leBytes 8 w.toNat

/-- A program instruction that words can carry: no code of R371 applies, and its extension is admitted (R76). -/
def Instr.wf (i : Instr) : Bool :=
  i.illegal == none &&
    match i.cell with
    | none => true
    | some (_, _, .inl a) => a.ext == none || i.extOk
    | some (_, _, .inr a) => a.ext == none || (i.extOk && a.imm.extractLsb' 16 6 == 0)

/-- The instruction the decoder reads from an instruction whose bits are `w`: bits 63:0 are the first
word, bits 127:64 the word after it where the first is an extension word. -/
def decodeTableWord (_nbits w : Nat) : Option Instr :=
  match decode (leBytes 16 w) with
  | .ok (i, _) => some i
  | .error _ => none

end Sys2Proof
end

