-- ==== Sys2Proof/Machine/Tab.lean ====
section
/-! DEFINITION. Finite tables by number: `Cells` (bit vectors, an unlisted key reads as zero and no entry is
zero) and `Tab` (optional data). Both are lists with rising keys, so equal contents are equal data. -/

namespace Sys2Proof.Machine

/-- A table of bit vectors; keys rise and no entry is zero. -/
abbrev Cells (w : Nat) := List (Nat × BitVec w)

/-- A table of data; keys rise. -/
abbrev Tab (α : Type) := List (Nat × α)

/-- The entry under a key. -/
def Tab.find {α : Type} : Tab α → Nat → Option α
  | [], _ => none
  | (b, v) :: l, a => if a = b then some v else Tab.find l a

/-- Place an entry under a key, in rising order. -/
def Tab.put {α : Type} : Tab α → Nat → α → Tab α
  | [], a, v => [(a, v)]
  | (b, w) :: l, a, v =>
    if a < b then (a, v) :: (b, w) :: l else if a = b then (a, v) :: l else (b, w) :: Tab.put l a v

/-- Remove the entry under a key. -/
def Tab.del {α : Type} : Tab α → Nat → Tab α
  | [], _ => []
  | (b, w) :: l, a => if a = b then Tab.del l a else (b, w) :: Tab.del l a

/-- The entry under a key, or a default. -/
def Tab.getD {α : Type} (t : Tab α) (a : Nat) (d : α) : α := (t.find a).getD d

/-- The value under a key; zero where none is listed. -/
def Cells.get {w : Nat} (c : Cells w) (a : Nat) : BitVec w := (Tab.find c a).getD 0

/-- Write a value; writing zero removes the entry. -/
def Cells.set {w : Nat} (c : Cells w) (a : Nat) (v : BitVec w) : Cells w :=
  if v = 0 then Tab.del c a else Tab.put c a v

/-- Keys rise strictly. -/
def Tab.rising {α : Type} : Tab α → Bool
  | [] => true
  | [_] => true
  | (a, _) :: (b, w) :: l => a < b && Tab.rising ((b, w) :: l)

/-- The canonical form of a table of bit vectors. -/
def Cells.wf {w : Nat} (c : Cells w) : Bool := Tab.rising c && c.all fun e => e.2 != 0

/-- Insert a number into a rising list without repeats. -/
def insertNat : List Nat → Nat → List Nat
  | [], a => [a]
  | b :: l, a => if a < b then a :: b :: l else if a = b then b :: l else b :: insertNat l a

/-- The numbers a, a + 1, …, a + n - 1. -/
def upFrom (a : Nat) : Nat → List Nat
  | 0 => []
  | n + 1 => a :: upFrom (a + 1) n

/-- Numbers without repeats. -/
def dedup : List Nat → List Nat
  | [] => []
  | a :: l => if l.contains a then dedup l else a :: dedup l

/-- A number of `n` elements of `w` bits, element `i` being `f i`: element 0 lowest. -/
def packNat (w : Nat) (f : Nat → Nat) : Nat → Nat
  | 0 => 0
  | n + 1 => packNat w f n + (f n % 2 ^ w) * 2 ^ (w * n)

/-- A vector register value from its 128 lanes. -/
def vecOf (f : Nat → Lane) : Vec := BitVec.ofNat 4096 (packNat 32 (fun i => (f i).toNat) 128)

/-- Lane `i` of a vector register value. -/
def lane (v : Vec) (i : Nat) : Lane := v.extractLsb' (32 * i) 32

/-- A predicate value from its 128 bits. -/
def predOf (f : Nat → Bool) : BitVec 128 := BitVec.ofNat 128 (packNat 1 (fun i => (f i).toNat) 128)

/-- Replace bit `i` of a number held as a bit vector. -/
def setBit {w : Nat} (v : BitVec w) (i : Nat) (b : Bool) : BitVec w :=
  let m : BitVec w := 1#w <<< i
  if b then v ||| m else v &&& ~~~m

/-- Bits lo + len - 1 to lo of a 64-bit word, as a number. -/
def bits (v : Word) (lo len : Nat) : Nat := (v.toNat >>> lo) % 2 ^ len

/-- A 64-bit word from (value, lowest bit) parts that do not overlap. -/
def wordOf : List (Nat × Nat) → Word
  | [] => 0
  | (v, lo) :: l => BitVec.ofNat 64 (v <<< lo) ||| wordOf l

end Sys2Proof.Machine
end

