-- ==== Sys2Proof/Machine/Num.lean ====
section
/-! DEFINITION. Number formats and arithmetic (R50 to R72): exact values, rounding, saturation, sums with
the collapse rule, and the two block quantisers. -/

namespace Sys2Proof.Machine

/-- An exact value: NaN, an infinity, or (-1)^neg × m × 2^e (R59). -/
inductive Ext where
  | nan
  | inf (neg : Bool)
  | fin (neg : Bool) (m : Nat) (e : Int)
  deriving DecidableEq, Repr

/-- How a format encodes special values (R52). -/
inductive Spec where
  /-- infinities and NaN in the highest exponent -/
  | ieee
  /-- one NaN magnitude, no infinity (E4M3) -/
  | nanOnly
  /-- none -/
  | none
  deriving DecidableEq, Repr

/-- A scalar floating-point format (R51): exponent bits, mantissa bits, bias, specials. -/
structure Fmt where
  eb   : Nat
  mb   : Nat
  bias : Nat
  spec : Spec
  deriving DecidableEq, Repr

/-- FP32 (R51). -/
def fp32 : Fmt := ⟨8, 23, 127, .ieee⟩
/-- BF16 (R51). -/
def bf16 : Fmt := ⟨8, 7, 127, .ieee⟩
/-- FP16 (R51). -/
def fp16 : Fmt := ⟨5, 10, 15, .ieee⟩
/-- E4M3 (R51). -/
def e4m3 : Fmt := ⟨4, 3, 7, .nanOnly⟩
/-- E5M2 (R51). -/
def e5m2 : Fmt := ⟨5, 2, 15, .ieee⟩
/-- E3M2 (R51). -/
def e3m2 : Fmt := ⟨3, 2, 3, .none⟩
/-- E2M3 (R51). -/
def e2m3 : Fmt := ⟨2, 3, 1, .none⟩
/-- E2M1 (R51). -/
def e2m1 : Fmt := ⟨2, 1, 1, .none⟩

/-- The element format of a format code 0 to 8 (R50). -/
def fmtOf (c : Nat) : Fmt :=
  match c with
  | 0 => bf16
  | 1 => fp16
  | 2 => e4m3
  | 3 => e5m2
  | 4 => e4m3
  | 5 => e5m2
  | 6 => e3m2
  | 7 => e2m3
  | _ => e2m1

/-- Bits of an encoding. -/
def Fmt.width (f : Fmt) : Nat := 1 + f.eb + f.mb

/-- Shift a magnitude by a signed count. -/
def shiftI (m : Nat) (k : Int) : Nat := if 0 ≤ k then m <<< k.toNat else m >>> (-k).toNat

/-- The exact value of an encoding (R51, R52, R53). -/
def widen (f : Fmt) (b : Nat) : Ext :=
  let m := b % 2 ^ f.mb
  let x := b / 2 ^ f.mb % 2 ^ f.eb
  let s := b / 2 ^ (f.mb + f.eb) % 2 == 1
  let top := x == 2 ^ f.eb - 1
  let v : Ext := if x = 0 then .fin s m (1 - f.bias - f.mb) else .fin s (m + 2 ^ f.mb) (x - f.bias - f.mb)
  match f.spec with
  | .ieee => if top then (if m = 0 then .inf s else .nan) else v
  | .nanOnly => if top && m == 2 ^ f.mb - 1 then .nan else v
  | .none => v

/-- floor(log2) of m × 2^e, for m above 0. -/
def ilog (m : Nat) (e : Int) : Int := (Nat.log2 m : Int) + e

/-- Round a magnitude m × 2^e to a multiple of 2^g under a mode (R55); `neg` is the sign of the value. -/
def roundMag (mode : Nat) (neg : Bool) (m : Nat) (e g : Int) : Nat :=
  if g ≤ e then m <<< (e - g).toNat
  else
    let k := (g - e).toNat
    let q := m >>> k
    let r := m - q <<< k
    let h := 2 * r
    let up : Bool :=
      if r = 0 then false
      else match mode with
        | 0 => 2 ^ k < h || (h == 2 ^ k && q % 2 == 1)
        | 1 => false
        | 2 => neg
        | 3 => !neg
        | 4 => 2 ^ k ≤ h
        | _ => q % 2 == 0
    if up then q + 1 else q

/-- round_to (R59): the neighbour on the grid of `f` with its exponent unbounded above. -/
def roundTo (f : Fmt) (mode : Nat) : Ext → Ext
  | .fin s m e =>
    if m = 0 then .fin s 0 0
    else
      let g := max (ilog m e - f.mb) (1 - f.bias - f.mb)
      .fin s (roundMag mode s m e g) (max g (min g e))
  | x => x

/-- m × 2^e ≤ n × 2^k. -/
def leMag (m : Nat) (e : Int) (n : Nat) (k : Int) : Bool :=
  let b := min e k
  m <<< (e - b).toNat ≤ n <<< (k - b).toNat

/-- The largest finite value of a format, as a mantissa and an exponent (R51). -/
def Fmt.max (f : Fmt) : Nat × Int :=
  match f.spec with
  | .ieee => (2 ^ (f.mb + 1) - 1, (2 ^ f.eb - 2 : Int) - f.bias - f.mb)
  | .nanOnly => (2 ^ (f.mb + 1) - 2, (2 ^ f.eb - 1 : Int) - f.bias - f.mb)
  | .none => (2 ^ (f.mb + 1) - 1, (2 ^ f.eb - 1 : Int) - f.bias - f.mb)

/-- sat_to of a float format (R56, R57, R59). -/
def satTo (f : Fmt) (mode : Nat) (sat : Bool) : Ext → Ext
  | .nan => .nan
  | .inf s =>
    if sat then .fin s f.max.1 f.max.2 else if f.spec = .nanOnly then .nan else .inf s
  | .fin s m e =>
    if leMag m e f.max.1 f.max.2 then .fin s m e
    else if sat then .fin s f.max.1 f.max.2
    else
      let big := match mode with
        | 0 => true
        | 4 => true
        | 2 => s
        | 3 => !s
        | _ => false
      if big then (if f.spec = .nanOnly then .nan else .inf s) else .fin s f.max.1 f.max.2

/-- The encoding of a value on the grid of a format; NaN is canonical (R52). -/
def encodeF (f : Fmt) : Ext → Nat
  | .nan =>
    match f.spec with
    | .ieee => (2 ^ f.eb - 1) * 2 ^ f.mb + 2 ^ (f.mb - 1)
    | _ => 2 ^ (f.mb + f.eb) - 1
  | .inf s => (if s then 2 ^ (f.mb + f.eb) else 0) + (2 ^ f.eb - 1) * 2 ^ f.mb
  | .fin s m e =>
    let sg := if s then 2 ^ (f.mb + f.eb) else 0
    if m = 0 then sg
    else
      let l := ilog m e
      if l < 1 - f.bias then sg + shiftI m (e - (1 - f.bias - f.mb))
      else sg + (l + f.bias).toNat * 2 ^ f.mb + (shiftI m (e - (l - f.mb)) - 2 ^ f.mb)

/-- sat_to(round_to(x, f, mode), f, mode, sat), encoded: every narrowing of the manual (R59). -/
def narrow (f : Fmt) (mode : Nat) (sat : Bool) (x : Ext) : Nat := encodeF f (satTo f mode sat (roundTo f mode x))

/-- An FP32 lane's exact value. -/
def f32 (v : Lane) : Ext := widen fp32 v.toNat

/-- Narrow to FP32 without saturation. -/
def toF32 (mode : Nat) (x : Ext) : Lane := BitVec.ofNat 32 (narrow fp32 mode false x)

/-- The canonical FP32 NaN (R52). -/
def qnan : Lane := 0x7FC00000

/-- x × 2^k. -/
def Ext.scale : Ext → Int → Ext
  | .fin s m e, k => .fin s m (e + k)
  | x, _ => x

/-- -x. -/
def Ext.neg : Ext → Ext
  | .nan => .nan
  | .inf s => .inf (!s)
  | .fin s m e => .fin (!s) m e

/-- |x|. -/
def Ext.abs : Ext → Ext
  | .nan => .nan
  | .inf _ => .inf false
  | .fin _ m e => .fin false m e

/-- The exact product, with the special values of R58. -/
def Ext.mul : Ext → Ext → Ext
  | .nan, _ => .nan
  | _, .nan => .nan
  | .inf s, .inf t => .inf (s != t)
  | .inf s, .fin t m _ => if m = 0 then .nan else .inf (s != t)
  | .fin s m _, .inf t => if m = 0 then .nan else .inf (s != t)
  | .fin s m e, .fin t n k => .fin (s != t) (m * n) (e + k)

/-- A signed mantissa. -/
def sgn (s : Bool) (m : Nat) : Int := if s then -(m : Int) else m

/-- The exact sum of signed terms i × 2^e, as one such term. -/
def sumTerms (l : List (Int × Int)) : Int × Int :=
  let b := l.foldl (fun a t => min a t.2) 0
  (l.foldl (fun a t => a + t.1 * 2 ^ (t.2 - b).toNat) 0, b)

/-- The exact sum of finite values, zero signs by R58 (`rdn`: under RDN). -/
def sumFin (rdn : Bool) (l : List (Bool × Nat × Int)) : Ext :=
  let (i, b) := sumTerms (l.map fun t => (sgn t.1 t.2.1, t.2.2))
  if i = 0 then
    let s := if l.all (fun t => t.1 && t.2.1 == 0) && !l.isEmpty then true
      else if l.all fun t => !t.1 && t.2.1 == 0 then false
      else rdn
    .fin s 0 0
  else .fin (i < 0) i.natAbs b

/-- The finite terms of a list, or the special value that its sum takes (R58). -/
def specials (l : List Ext) : Option Ext :=
  if l.any (· == .nan) then some .nan
  else if l.any (· == .inf true) && l.any (· == .inf false) then some .nan
  else if l.any (· == .inf true) then some (.inf true)
  else if l.any (· == .inf false) then some (.inf false)
  else none

/-- The finite parts of values. -/
def finParts (l : List Ext) : List (Bool × Nat × Int) :=
  l.filterMap fun x => match x with
    | .fin s m e => some (s, m, e)
    | _ => none

/-- The exact sum of values (R58). -/
def sumExt (rdn : Bool) (l : List Ext) : Ext :=
  match specials l with
  | some x => x
  | none => sumFin rdn (finParts l)

/-- x + y. -/
def Ext.add (rdn : Bool) (x y : Ext) : Ext := sumExt rdn [x, y]

/-- sticky_sum (R59, R67): terms below L - 64 collapse to a sign that steers the rounding. The infinitesimal
is half of the smallest spacing that the sum or FP32 distinguishes. -/
def stickySum (l : List (Bool × Nat × Int)) : Ext :=
  let nz := l.filter fun t => t.2.1 != 0
  if nz.isEmpty then sumFin false l
  else
    let top := nz.foldl (fun a t => max a (ilog t.2.1 t.2.2)) (ilog (nz.headD (false, 1, 0)).2.1 (nz.headD (false, 1, 0)).2.2)
    let near := nz.filter fun t => top - 64 ≤ ilog t.2.1 t.2.2
    let far := nz.filter fun t => ilog t.2.1 t.2.2 < top - 64
    let (i, b) := sumTerms (near.map fun t => (sgn t.1 t.2.1, t.2.2))
    let (j, _) := sumTerms (far.map fun t => (sgn t.1 t.2.1, t.2.2))
    let d : Int := if j = 0 then 0 else if j < 0 then -1 else 1
    if i = 0 then .fin (d < 0) 0 0
    else
      let g := min b (-152) - 1
      let k := i * 2 ^ (b - g).toNat + d
      .fin (k < 0) k.natAbs g

/-- One segment of a float reduction (R66): the new accumulator lane. -/
def segFloat (c : Lane) (ps : List Ext) : Lane :=
  let t := f32 c :: ps
  match specials t with
  | some x => toF32 0 x
  | none => toF32 0 (stickySum (finParts t))

/-- One segment of the integer reduction (R68). -/
def segInt (sat : Bool) (c : Lane) (sum : Int) : Lane :=
  let s := c.toInt + sum
  if sat then BitVec.ofInt 32 (max (-(2 ^ 31)) (min s (2 ^ 31 - 1))) else BitVec.ofInt 32 s

/-- Round to an integer under a mode. -/
def roundInt (mode : Nat) (s : Bool) (m : Nat) (e : Int) : Int := sgn s (roundMag mode s m e 0)

/-- Clamp an integer. -/
def clampI (lo hi i : Int) : Int := max lo (min hi i)

/-- Round a value to an integer range; an infinity gives the nearest end, NaN the value given (R59). -/
def toInt (mode : Nat) (lo hi nan : Int) : Ext → Int
  | .nan => nan
  | .inf s => if s then lo else hi
  | .fin s m e => clampI lo hi (roundInt mode s m e)

/-- x < y for values that are no NaN; zeros of either sign are equal. -/
def Ext.lt : Ext → Ext → Bool
  | .nan, _ => false
  | _, .nan => false
  | .inf s, .inf t => s && !t
  | .inf s, .fin _ _ _ => s
  | .fin _ _ _, .inf t => !t
  | .fin s m e, .fin t n k =>
    let b := min e k
    sgn s (m <<< (e - b).toNat) < sgn t (n <<< (k - b).toNat)

/-- x = y as numbers. -/
def Ext.eqv (x y : Ext) : Bool := x != .nan && y != .nan && !x.lt y && !y.lt x

/-- A value is exactly zero. -/
def Ext.isZero : Ext → Bool
  | .fin _ m _ => m == 0
  | _ => false

/-- A value is a number. -/
def Ext.isFin : Ext → Bool
  | .fin _ _ _ => true
  | _ => false

/-- What a quantiser returns (R70, R71, R72): scale byte (or shared exponent), elements, quad shifts, flags. -/
structure Quant where
  scale  : Nat
  elems  : List Nat
  shifts : List Nat := []
  nanblk : Bool := false
  ovf    : Bool := false
  unf    : Bool := false
  deriving DecidableEq, Repr

/-- The largest magnitude of finite values, as mantissa and exponent. -/
def amaxOf (l : List Ext) : Nat × Int :=
  (finParts l).foldl (fun a t => if leMag t.2.1 t.2.2 a.1 a.2 then a else (t.2.1, t.2.2)) (0, 0)

/-- The element emax of a format code (R70, R157). -/
def emaxOf (c : Nat) : Int :=
  match c with
  | 0 => 127
  | 1 => 15
  | 2 => 8
  | 3 => 15
  | 4 => 8
  | 5 => 15
  | 6 => 4
  | 7 => 2
  | 8 => 2
  | _ => 0

/-- quantise_mx with the block's largest magnitude given (R70, R166). -/
def quantMxAt (c mode : Nat) (x : List Ext) (am : Nat × Int) : Quant :=
  let f := fmtOf c
  if x.any fun v => !v.isFin then { scale := 0xFF, elems := x.map fun _ => 0, nanblk := true }
  else if am.1 = 0 then { scale := 0, elems := x.map fun _ => 0 }
  else
    let e := clampI (-127) 127 (ilog am.1 am.2 - emaxOf c)
    let q := x.map fun v => satTo f mode true (roundTo f mode (v.scale (-e)))
    { scale := (e + 127).toNat, elems := q.map (encodeF f),
      ovf := !leMag am.1 am.2 f.max.1 (f.max.2 + 127), unf := q.all Ext.isZero }

/-- quantise_mx (R70). -/
def quantMx (c mode : Nat) (x : List Ext) : Quant := quantMxAt c mode x (amaxOf x)

/-- Mantissa bits of an Emmer format code 9 to 11 (R61). -/
def emBits (c : Nat) : Nat :=
  match c with
  | 9 => 7
  | 10 => 4
  | _ => 2

/-- The sign of a value. -/
def Ext.sign : Ext → Bool
  | .nan => false
  | .inf s => s
  | .fin s _ _ => s

/-- The rounded magnitude of an Emmer element at a step exponent (R71). -/
def emMag (mode : Nat) (g : Int) : Ext → Nat
  | .fin s m e => if m = 0 then 0 else roundMag mode s m e g
  | _ => 0

/-- quantise_emmer (R71): each element is its sign above its magnitude. -/
def quantEm (c mode : Nat) (x : List Ext) : Quant :=
  let m := emBits c
  if x.any fun v => !v.isFin then { scale := 0xFF, elems := x.map fun _ => 0, shifts := [0, 0, 0, 0], nanblk := true }
  else
    let am := amaxOf x
    if am.1 = 0 then { scale := 0, elems := x.map fun _ => 0, shifts := [3, 3, 3, 3] }
    else
      let e := clampI 0 254 (ilog am.1 am.2 + 127)
      let step := fun sh : Nat => e - 127 - (sh : Int) - m + 1
      let quad := fun q : Nat => (x.drop (4 * q)).take 4
      let fits := fun (q sh : Nat) => (quad q).all fun v => emMag mode (step sh) v < 2 ^ m
      let sh := fun q : Nat => if fits q 3 then 3 else if fits q 2 then 2 else if fits q 1 then 1 else 0
      let shs := [sh 0, sh 1, sh 2, sh 3]
      let mags := [0, 1, 2, 3].flatMap fun q => (quad q).map fun v => min (emMag mode (step (sh q)) v) (2 ^ m - 1)
      let els := List.zipWith (fun v g => (if Ext.sign v then 2 ^ m else 0) + g) x mags
      { scale := e.toNat, elems := els, shifts := shs,
        ovf := !leMag am.1 am.2 (2 ^ m - 1) (128 - m), unf := mags.all (· == 0) }

/-- The data bits of an MX block: elements packed from the lowest bits (R60). -/
def packElems (w : Nat) : List Nat → Nat
  | [] => 0
  | e :: l => e % 2 ^ w + 2 ^ w * packElems w l

/-- The number of an Emmer block (R61). -/
def packEm (c : Nat) (q : Quant) : Nat :=
  q.scale + 256 * packElems 2 q.shifts + 65536 * packElems (emBits c + 1) q.elems

/-- The bytes of 128 values in a block format (MX data only, or whole Emmer blocks). -/
def quantBytes (c : Nat) (qs : List Quant) : List Byte :=
  if 9 ≤ c then qs.flatMap fun q => leBytes (2 * (emBits c + 1) + 2) (packEm c q)
  else qs.flatMap fun q => leBytes (4 * (fmtOf c).width) (packElems (fmtOf c).width q.elems)

/-- The lists of `n` consecutive elements; the fuel bounds their number. -/
def chunks {α : Type} (n : Nat) : Nat → List α → List (List α)
  | 0, _ => []
  | k + 1, l => if l.isEmpty then [] else l.take n :: chunks n k (l.drop n)

/-- Quantise values block by block in format code 4 to 11 (R70, R71). -/
def quantise (c mode : Nat) (x : List Ext) : List Quant :=
  if 9 ≤ c then (chunks 16 x.length x).map (quantEm c mode) else (chunks 32 x.length x).map (quantMx c mode)

/-- Element `i` of an MX block's data bits under its scale byte (R60). -/
def mxElem (c : Nat) (data b i : Nat) : Ext :=
  if b = 0xFF then .nan
  else (widen (fmtOf c) (data / 2 ^ ((fmtOf c).width * i) % 2 ^ (fmtOf c).width)).scale ((b : Int) - 127)

/-- Element `i` of an Emmer block's number (R61). -/
def emElem (c : Nat) (blk i : Nat) : Ext :=
  let m := emBits c
  let e := blk % 256
  if e = 0xFF then .nan
  else
    let sh := blk / 2 ^ (8 + 2 * (i / 4)) % 4
    let f := blk / 2 ^ (16 + (m + 1) * i)
    .fin (f / 2 ^ m % 2 == 1) (f % 2 ^ m) ((e : Int) - 127 - sh - m + 1)

/-- The integer of weight `i` of a W2 block's bytes (R62). -/
def w2Weight (blk i : Nat) : Int := let v := blk / 2 ^ (2 * i) % 4; if 2 ≤ v then (v : Int) - 4 else v

/-- The integer of weight `i` of a T3 block's bytes; `none` for a reserved byte (R62). -/
def t3Weight (blk i : Nat) : Option Int :=
  let b := blk / 2 ^ (8 * (i / 5)) % 256
  if 243 ≤ b then none else some ((b / 3 ^ (i % 5) % 3 : Nat) - 1)

/-- A weight under its BF16 scale (R62). -/
def weightVal (w : Option Int) (scale : Nat) : Ext :=
  match w with
  | none => .nan
  | some i => Ext.mul (.fin (i < 0) i.natAbs 0) (widen bf16 scale)

end Sys2Proof.Machine
end

