-- ==== Sys2Proof/Machine/Flags.lean ====
section
/-! DEFINITION. Conditions: the compares of cmp, aout and vcmp (R118, R141, R176), the conditions of sig.wait
and the operations of sig.set (R213), and predicate operations (R119, R178). -/

namespace Sys2Proof.Machine

/-- COND 0 eq, 1 ne, 2 lt, 3 ge over 64-bit patterns, unsigned where `u` (R118). -/
def cond64 (c : Nat) (u : Bool) (a b : Word) : Bool :=
  let lt := if u then decide (a.toNat < b.toNat) else decide (a.toInt < b.toInt)
  match c with
  | 0 => a == b
  | 1 => a != b
  | 2 => lt
  | _ => !lt

/-- cond 0 eq, 1 ne, 2 ge, 3 lt over unsigned words (R213). -/
def condSig (c : Nat) (a b : Word) : Bool :=
  match c with
  | 0 => a == b
  | 1 => a != b
  | 2 => decide (b.toNat ≤ a.toNat)
  | _ => decide (a.toNat < b.toNat)

/-- op 0 wr, 1 add, 2 max of a signal word (R213, R228). -/
def opSig (o : Nat) (old v : Word) : Word :=
  match o with
  | 0 => v
  | 1 => old + v
  | _ => if old.toNat < v.toNat then v else old

/-- The predicate operations of spop, in the order and, or, xor, andn, not, one, zero (R119). -/
def opSp (o : Nat) (a b : Bool) : Bool :=
  match o with
  | 0 => a && b
  | 1 => a || b
  | 2 => a != b
  | 3 => a && !b
  | 4 => !a
  | 5 => true
  | _ => false

end Sys2Proof.Machine
end

