-- ==== Sys2Proof/Config.lean ====
section
/-! DEFINITION. What the spec leaves to the part or to its surroundings, as constants without a body:
nothing can be proved of their values (notes/assumptions, entry 3). -/

namespace Sys2Proof.Config

/-- The n-th choice that the spec leaves open: which ready agent acts next, which of several allowed values an
access returns (R85, R148, R247, R251, R325, R326, R327). -/
opaque pick : Nat → Nat

/-- The permission bits (R, W) that a host's ATS answers, drawn afresh for each translation (R331). -/
opaque atsPerm : Nat → Nat

/-- The host page that a host translates a page of a PASID to: port, PASID, page, and how often it has mapped it anew (R331). -/
opaque hostPage : Nat → Nat → Nat → Nat → Nat

/-- Which of the results within its bound a special function gives for an operand: function cell, FP32 encoding
(R190). -/
opaque special : Nat → Nat → Nat

/-- The members of a die group in member order (R13, R47): 0 to 3 the dies of this package, others elsewhere. -/
opaque groupMembers : Nat → List Nat

/-- The groups of the fabric group that encloses a die group, in member order (R38); none where no fabric group does. -/
opaque enclosing : Nat → List Nat

/-- The firmware image that the flash holds before any load (R435, R436). -/
opaque factoryImage : List (BitVec 8)

/-- Whether a signature of 64 bytes verifies over a digest, under the public key fused into every part (R436). -/
opaque signedImage : List (BitVec 8) → List (BitVec 8) → Bool

/-- The serial number of a die (R437). -/
opaque serial : Nat → BitVec 64

/-- The certificate of a die's identity key (R437). -/
opaque certificate : Nat → List (BitVec 8)

/-- The signature of a die's identity key over a digest, 64 bytes as one number (R437). -/
opaque signReport : Nat → List (BitVec 8) → BitVec 512

end Sys2Proof.Config
end

