-- ==== Sys2Proof/Machine/State.lean ====
section
/-! DEFINITION. The state of the package as plain data: memory, tiles, strands in slots, dies with their
launches, queues and engines, die edges, and the package's own registers; and the state after reset. -/

namespace Sys2Proof.Machine

/-- Why the machine stops. -/
inductive Fault where
  /-- raised by an event that names a die, tile, slot, edge or port that the package does not have
  (R1, R11, R15 to R18); safe: the part has no such unit, so nothing is claimed of it -/
  | noSuchUnit
  deriving DecidableEq, Repr

/-- Why a row has no meaning. -/
inductive Refusal where
  /-- the row's meaning is not written; safe: nothing can be claimed of a run through it -/
  | notModelled (mnemonic : String)
  deriving DecidableEq, Repr

/-- What a fault reports: class, code, TRAP_ADDR, INFO and SRC (R361, R364); `defer`: a deferred fault (R362);
`mark`: the pair (d, f) of a faulting arrival (R382, R386). -/
structure Flt where
  cls   : Nat
  code  : Nat
  addr  : Word := 0
  info  : Word := 0
  src   : Nat := 0
  defer : Bool := false
  mark  : Nat := 0
  deriving DecidableEq, Repr

/-- A word in an engine queue or in the dispatcher (R77): the instruction with rotation applied (R91), its
address and its place in the stream. -/
structure QWord where
  ins : Instr
  pc  : Word
  seq : Nat
  deriving DecidableEq, Repr

/-- What a landing-buffer entry writes when its vc comes (R83, R84); `tok` is a PUSH at retirement (R86). -/
inductive Eff where
  | x (n : Nat) (v : Word)
  | sp (n : Nat) (b : Bool)
  | v (n : Nat) (val : Vec)
  | p (n : Nat) (val : BitVec 128)
  | w (n : Nat) (val : Vec)
  | xg (v : Word)
  | fmt (v : Word)
  | acc (row quarter : Nat) (val : Vec)
  | accAdd (row quarter rm : Nat) (ty : Nat) (val : Vec)
  | sys (n : Nat) (v : Word)
  | tok (src dst : Nat)
  deriving DecidableEq, Repr

/-- A landing-buffer entry (R84): due vc, place in the stream of its word, effect. -/
structure Land where
  due : Nat
  seq : Nat
  eff : Eff
  deriving DecidableEq, Repr

/-- An effect that has landed at the vc at which the clock stands, with the effect that takes it back: a stop keeps it as a landing entry
(R384). -/
structure Fresh where
  e   : Land
  old : Eff
  deriving DecidableEq, Repr

/-- An entry of the load queue or the store queue (R148): the word, the operand values read at issue, the
entries popped at issue, how far it has performed (R388), and what a load has read of its units before its data arrive (R143, R247). -/
structure MemOp where
  w    : QWord
  a    : Word := 0
  b    : Word := 0
  d    : Word := 0
  data : Vec := 0
  idx  : Vec := 0
  part : Nat := 0
  seen : Option Vec := none
  at_  : Nat := 0
  deriving DecidableEq, Repr

/-- Format, K and N of a weight plane (R194, R198). -/
structure PMeta where
  f : Nat
  k : Nat
  n : Nat
  deriving DecidableEq, Repr

/-- A matrix operation with its operands resolved (R199 to R210, R238, R243): a plane load; the swap; a stream
with its chain position and length (0: unchained); a clear; a read-out to a line or a w queue; a weight update;
a macro's descriptor words; a microcode load; a chain (position, length); a drain; the rest. -/
inductive MOp where
  | ldw (fw : Word) (line : Nat)
  | swap
  | mul (fw : Word) (line row0 m : Nat) (chain : Bool)
  | clr (row0 m : Nat)
  | st (row0 m lq out : Nat) (isInt nosat : Bool) (dst : Nat) (wn : Option Nat) (scl mode : Nat)
  | upd (row0 m lq out master copy scl : Nat) (lr : Lane) (mode : Nat)
  | mac (entry : Nat) (ws : List Word) (mode : Nat)
  | load (addr lines : Nat) (ws : List Word)
  | chain (pos len : Nat)
  | drain
  | other
  deriving DecidableEq, Repr

/-- A weight plane (R193, R199): the mldw's format word and line, and the columns and scale array as read. -/
structure Plane where
  fw     : Word
  line   : Nat
  cols   : List (List Byte)
  scales : List Byte
  deriving DecidableEq, Repr

/-- A command of the matrix command queue or a started micro-operation (R192, R211, R241, R388): its word, the popped
format word and operand values read at issue, its operation, its run, issue, start and retirement vc, rows or lines
done, of a stream the segments done of the next row, the rows that have entered and are not done, its plane and the rate of its
chain (R188, R206), what a plane load has read, the start of a macro's UEND, chain position and length with rows received, whether
it faulted and whether its rows are done, the planes that the queue leaves behind it (R194), and, of one that faulted, that its format word
stands in its queue again, with whether the lease has got its count back (R374). -/
structure MCmd where
  w      : QWord
  fmt    : Word := 0
  d      : Word := 0
  a      : Word := 0
  b      : Word := 0
  op     : MOp := .other
  run    : Nat := 0
  issued : Nat := 0
  start  : Option Nat := none
  retire : Nat := 0
  row    : Nat := 0
  seg    : Nat := 0
  pipe   : List (List Byte × List Byte) := []
  plane  : Option Plane := none
  rate   : Nat := 0
  buf    : List Byte := []
  uend   : Option Nat := none
  pos    : Nat := 0
  len    : Nat := 0
  hop    : List (List Byte × List Byte) := []
  bad    : Bool := false
  done   : Bool := false
  act    : Option PMeta := none
  shd    : Option PMeta := none
  back   : Option Bool := none
  deriving DecidableEq, Repr

/-- A started stream- or load-unit operation whose occupancy or rows still bind later ones (R211, R212):
unit (0 load, 1 stream), the vc at which the unit is free, retirement, rows read and written, kind
(0 mldw, 1 mmul, 2 mclr, 3 read-out, 4 update, 5 other), and run. -/
structure Flight where
  ld     : Bool
  free   : Nat
  retire : Nat
  row0   : Nat
  rows   : Nat
  wr     : Bool
  kind   : Nat
  run    : Nat
  deriving DecidableEq, Repr

/-- A running layer macro (R240 to R242): micro-address, base registers, counters, format words, descriptor
word 7, the vc before which nothing starts, the latest retirement, and the recorded plane loads. -/
structure Mac where
  addr   : Nat
  b      : Cells 16
  c      : Cells 16
  f      : Cells 64
  w7     : Word
  last   : Nat
  retire : Nat
  mode   : Nat := 0
  plan   : Option (Nat × Word) := none
  swapped : Option (Nat × Word) := none
  bound  : Bool := true
  deriving DecidableEq, Repr

/-- An execute-side engine's last issue vc, `none` for vc -1, and the interval of that word (R80, R81). -/
structure Eng where
  last : Option Nat := none
  itv  : Nat := 0
  deriving DecidableEq, Repr

/-- What stops fetch (R77, R89, R90, R370). -/
inductive Hold where
  /-- fetch continues -/
  | run
  /-- until the word with this number issues: a bcc, or a word that writes dispatcher state from an x register -/
  | issue (seq : Nat)
  /-- until the suspension point, yield or halt with this number retires -/
  | retire (seq : Nat)
  /-- at a word that failed its checks or its fetch: the fault and the word's address -/
  | bad (f : Flt) (pc : Word)
  deriving DecidableEq, Repr

/-- What a strand keeps in its ready-list entry while it is not in a slot (R28, R29), and what ties it to
its launch: the launch's number on its die, its stage, its record and frame (R23, R42), DOM_MEMBER (R35),
the trap registers (R131), the tile where it last ran (96: none yet), how many copy batches it has closed, where it resumed on
another die the launch that its frame belongs to (R28), the launch whose domain instance it joined (R223), and from whom it inherited a
class when it left a slot (R29, R32): tile, barrier and the waiting strand. `uid` is the model's own name of the strand. -/
structure Ident where
  uid     : Nat
  launch  : Nat
  stage   : Nat
  handler : Bool := false
  sid     : Word := 0
  crec    : Word := 0
  frame   : Nat := 0
  cls     : BitVec 2 := 0
  inst    : BitVec 16 := 0
  joined  : Bool := false
  level   : BitVec 2 := 0
  cause   : Word := 0
  tpc     : Word := 0
  taddr   : Word := 0
  tile    : Nat := 96
  closed  : Nat := 0
  org     : Option (Nat × Nat) := none
  dom     : Option (Nat × Nat) := none
  inh     : List (Nat × Nat × Nat) := []
  deriving DecidableEq, Repr

/-- What an execute-side word with SUSP took and changed when it issued (R24): queue entries by their codes (R75: q, w, xg; 93 the
format word queue), the token queue it popped, lc0 to lc3, ROTBASE, lease and read-out mode as they were before it. Where the
word faults after step 1 of R24, it gives them back (R362). `ret`: the record that an hret names, whose effect waits for that test. -/
structure Took where
  ents   : List (Nat × Vec) := []
  tok    : Option Nat := none
  lc     : Cells 32 := []
  base   : BitVec 5 := 0
  held   : Bool := false
  remain : Nat := 0
  run    : Nat := 0
  rmode  : Nat := 0
  ret    : Option Word := none
  deriving DecidableEq, Repr

/-- A strand being stopped (R363, R384): the fault, the address of its word, whether the access that met it, or one that waits for its page
(R416), stands at the head of its store queue, whether such a one stands at the head of its load queue, whether the stop is a pre-emption (R383) or the end of its launch (R367), the place of its
word in the stream, a trap word that has issued, and the time in ns at which the fault was detected (R364). -/
structure Stop where
  f     : Flt
  pc    : Word
  stuck : Bool := false
  held  : Bool := false
  pre   : Bool := false
  ended : Bool := false
  feng  : Nat := 7
  seq   : Nat := 0
  word  : Option QWord := none
  at_   : Nat := 0
  deriving DecidableEq, Repr

/-- A waiting Y word taken off its slot (R215), with what its completion needs. -/
inductive Wait where
  /-- bar.wait, bar.arrwait: tile, barrier, the phase awaited (R221) -/
  | bar (tile id phase : Nat)
  /-- dom.sync: the instance's phase it arrived in (R224) -/
  | dom (lvl inst phase : Nat)
  /-- sig.wait: address, condition, value, scope, and where the word stands, with its extension word if any (R229) -/
  | sig (va : Word) (cond : Nat) (v : Word) (sc : Nat) (pc : Word)
  /-- wait.time: target in ns (R230) -/
  | time (t : Nat)
  /-- sq.put: the item (R225) -/
  | put (v : Word)
  /-- sq.get: the record word that receives the item, 0 none (R226) -/
  | get (wd : Nat)
  deriving DecidableEq, Repr

/-- What a unit of a strand waits for: the cause of R424, 12 for one that it does not name, 13 for a copy that closes its batch (R160), its object, and since when in µs. -/
structure Stall where
  cause : Nat
  obj   : Nat
  since : Nat
  deriving DecidableEq, Repr

/-- A strand in a slot: its registers (R92), queues (R77, R86 to R88, R125, R148), virtual clock (R80 to R85),
the vc before which no matrix command starts (R241), lease (R129, R196), read-out mode (R207), macro with its started micro-operations (R241, R242), a request of the array
after resumption with the planes to reload (R381, R389), what has landed at its vc (R384), marks of its Y word (R386), what its units wait for (R424: by class the heads of its engine queues, then 6 the dispatcher, 7 the load
queue, 8 the store queue, 9 the matrix command queue, 10 the rows of its commands); `late` and `took` are the results of an open
suspension point that stands before its test, and what it took (R24). `bad` names the registers and queue entries that hold an
uncorrectable error (R392, R396): x from 0, g from 64, v from 128, p from 192, the oldest entries of q from 256, of w from 264,
of xg at 268, of bq at 269, of the format words at 270, of the token queues from 271, of the engine queues from 291, of the load, store
and matrix command queues from 297, scalar predicates from 300, loop counters from 308; 512 more for a landing entry of it. -/
structure Strand where
  id    : Ident
  pc    : Word
  x     : Cells 64 := []
  sp    : BitVec 8 := 0
  g     : Cells 64 := []
  v     : Cells 4096 := []
  p     : Cells 128 := []
  lc    : Cells 32 := []
  base  : BitVec 5 := 0
  q     : Tab (List Vec) := []
  w     : Tab (List Vec) := []
  xg    : List Word := []
  bq    : List Bool := []
  fmt   : List Word := []
  tok   : Cells 8 := []
  eq    : Tab (List QWord) := []
  disp  : Option QWord := none
  hold  : Hold := .run
  land  : List Land := []
  fresh : List Fresh := []
  lq    : List MemOp := []
  sq    : List MemOp := []
  mq    : List MCmd := []
  least : Nat := 0
  fly   : List Flight := []
  now   : Nat := 0
  eng   : Tab Eng := []
  seq   : Nat := 0
  aGap  : Nat := 1024
  held  : Bool := false
  remain : Nat := 0
  run   : Nat := 0
  rmode : Nat := 0
  mac   : Option Mac := none
  mops  : List MCmd := []
  want  : Bool := false
  reA   : Option (Word × Nat) := none
  reS   : Option (Word × Nat) := none
  susp  : Option QWord := none
  late  : List Eff := []
  took  : Option Took := none
  arr   : Bool := false
  darr  : Bool := false
  phase : Nat := 0
  target : Option Nat := none
  waits : Tab Stall := []
  stop  : Option Stop := none
  fq    : Nat := 0
  bad   : List Nat := []
  deriving DecidableEq, Repr

/-- A ready-list entry (R28): identity, FULL of its record, the tile it is bound to, a fault it must stop
with at pickup (R229), and, beside the save area in memory, the strand as it stood when its full context was
saved (the fields that a handler must leave as written are taken from here, R390). -/
structure Entry where
  id    : Ident
  full  : Bool := false
  bound : Option Nat := none
  flt   : Option Flt := none
  saved : Option Strand := none
  deriving DecidableEq, Repr

/-- A strand waiting off its slot (R215). -/
structure Blk where
  e : Entry
  w : Wait
  deriving DecidableEq, Repr

/-- A named barrier (R218); the launch that owns it, if any. -/
structure Bar where
  owner : Option Nat := none
  count : Nat := 0
  phase : Nat := 0
  cur   : Nat := 0
  nxt   : Nat := 0
  mcur  : BitVec 8 := 0
  mnxt  : BitVec 8 := 0
  deriving DecidableEq, Repr

/-- A chain (R205, R206): position, length, rendezvous counted since the mchain, and whether it has ended. -/
structure Chain where
  pos   : Nat
  len   : Nat
  count : Nat := 0
  deriving DecidableEq, Repr

/-- A line held in an L1, L2 or sampler cache: its bytes, which of them are dirty, and COH of its page. In an L2,
a line of the die's own memory is listed while it is dirty there, with the bytes that the memory beneath holds. `bad`: the copy
is poisoned (R393). -/
structure Line where
  data  : List Byte
  dirty : List Bool := []
  coh   : Nat := 0
  bad   : Bool := false
  deriving DecidableEq, Repr

/-- A tile (R18): barriers, program region of the microcode store, planes, array grant (R198), chain, L1
copies of software-managed and tile-private lines (R250, R251), sampler cache (R155, R156), and issue
arbitration (R30). -/
structure Tile where
  bars   : Tab Bar := []
  micro  : Tab Word := []
  active : Option Plane := none
  shadow : Option Plane := none
  lessee : Option Nat := none
  lastG  : Nat := 7
  owner  : Option Nat := none
  chain  : Option Chain := none
  l1     : Tab Line := []
  smp    : Tab Line := []
  invN   : BitVec 32 := 0
  invT   : Option Nat := none
  round  : List Nat := []
  served : List Nat := []
  win    : Nat := 0
  busy   : List (Nat × Nat) := []
  deriving DecidableEq, Repr

/-- A contiguous piece of a byte copy (R162). -/
structure Piece where
  src : Word
  dst : Word
  len : Nat
  deriving DecidableEq, Repr

/-- Where a byte is stored: a die's HBM, host memory behind a port, a tile's scratchpad or accumulator
store (tile = 24 die + tile), or the memory of another package under a handle (R245), reached through fabric port `p`
of the die that accesses it (R335). -/
inductive Loc where
  | hbm (d pa : Nat)
  | host (port a : Nat)
  | spad (t o : Nat)
  | acc (t o : Nat)
  | far (h o p : Nat)
  deriving DecidableEq, Repr

/-- A record as a store path or a tld reads it (R284, R285). -/
structure TRec where
  va     : Nat
  loc    : Loc
  f      : Nat
  ver    : Nat
  gran   : Nat
  hdr    : Word
  ring   : List Nat
  data   : Nat
  tags   : Nat
  groups : Nat
  deriving DecidableEq, Repr

/-- The work of one copy descriptor (R161 to R166), with what is left of the whole source where it overlaps the destination
(R159; none for a poisoned byte): bytes; quant: descriptor words, elements done, pinned record; pages: descriptor words, blocks as
pieces once the index lists have been read, pinned record; ring: descriptor words, elements done, AGREE as read or as
accumulated, and in the snapshot IN after SRC. -/
inductive Work where
  | bytes (ps : List Piece) (begun : Bool) (snap : Option (List (Option Byte)))
  | quant (ws : List Word) (done : Nat) (r : Option TRec) (snap : Option (List (Option Byte)))
  | pages (ws : List Word) (ps : Option (List Piece)) (r : Option TRec) (snap : Option (List (Option Byte)))
  | ring (ws : List Word) (done : Nat) (agree : Option Lane) (snap : Option (List (Option Byte)))
  deriving DecidableEq, Repr

/-- An asynchronous copy or Transfer record's job (R159, R316): strand, launch, batch, tile, context, transfer engine, whether
it writes the local window, the work still to do, its first fault; for a Transfer record its queue slot and index. -/
structure Copy where
  uid   : Nat
  launch : Nat := 0
  batch : Nat
  tile  : Nat
  ctx   : Nat
  eng   : Option Nat := none
  local_ : Bool := false
  work  : List Work
  flt   : Option Flt := none
  job   : Option (Nat × Nat) := none
  deriving DecidableEq, Repr

/-- A batch of copies (R160): strand, launch, its place in the strand's order, closed, copies joined and still running,
the first fault, whether it is complete, and the lines that its copies wrote on pages that are not hardware-coherent (R275). -/
structure Batch where
  uid    : Nat
  launch : Nat
  no     : Nat
  closed : Bool := false
  size   : Nat := 0
  count  : Nat := 0
  flt    : Option Flt := none
  done   : Bool := false
  lines  : List Nat := []
  deriving DecidableEq, Repr

/-- A store whose acknowledgement is outstanding (R259, R264): writer, address, home, whether it is .e, when it performed,
for a store to another package its fabric port (R335), the agents whose loads returned it while it was outstanding
(R263), of an atomic the register g and the old value that it brings (R152, R397), and the caches whose copy of the line is older
than it (R259): the L2 of die n, and 4 + t the sampler cache of tile t. -/
structure Ack where
  uid  : Nat
  va   : Word
  line : Nat
  home : Nat
  pkg  : Bool := false
  port : Nat := 0
  e    : Bool := false
  at_  : Nat
  lost : Bool := false
  read : List Nat := []
  gd   : Option (Nat × Word) := none
  stale : List Nat := []
  deriving DecidableEq, Repr

/-- A domain instance of a launch (R36, R37): level, number, phase, joined strands and those that arrived. -/
structure Dom where
  lvl   : Nat
  inst  : Nat
  phase : Nat := 0
  mem   : List Nat := []
  arr   : List Nat := []
  seen  : Tab Nat := []
  deriving DecidableEq, Repr

/-- An item that waits to enter a stage's queue (R43, R225): the strand, its slot, when it found the queue full, and the item. -/
structure Put where
  uid  : Nat
  slot : Nat
  at_  : Nat
  v    : Word
  deriving DecidableEq, Repr

/-- A stage of a launch (R41, R42, R308): descriptor words, input queue, ready list, strands waiting to put
or to take in order, frames handed out and returned, strands created, and the slots whose items entered the queue at one time, with
that time (R43). -/
structure Stage where
  desc  : List Word
  queue : List Word := []
  ready : List Entry := []
  puts  : List Put := []
  takes : List Nat := []
  nextF : Nat := 0
  freeF : List Nat := []
  made  : Nat := 0
  inits : Nat := 0
  fresh : List Nat := []
  freshAt : Nat := 0
  deriving DecidableEq, Repr

/-- A running launch on a die (R41 to R48, R308 to R315, R366): number, context, operator record, launch
record words, the end of its stage-0 range (a batched launch: of the iteration's) with the next index (`limit`) and the
count of indices created, stages, waits, handler ring (records written, next to hand over, one being handled), batch and
range state, tiles that it has held slots on, barrier table (index, count), members that have begun, the strands that it had when it began to end, and of a spanning
launch the model's own name, which its members share. -/
structure Launch where
  no      : Nat
  cslot   : Nat
  ctx     : Nat
  oprec   : Word
  tag     : Nat
  lr      : List Word
  n       : Nat
  group   : Nat := 0
  batch   : Word := 0
  stages  : List Stage := []
  created : Nat := 0
  limit   : Nat := 0
  blocked : List Blk := []
  stopped : List (Entry × Nat) := []
  hseq    : Nat := 0
  hnext   : Nat := 0
  hrun    : Option Nat := none
  bwait   : Bool := false
  iter    : Bool := true
  seen    : Option Word := none
  stolen  : Option (Nat × Nat) := none
  noSteal : Bool := false
  tiles   : List Nat := []
  bars    : List (Nat × Nat) := []
  met     : List Nat := []
  sp      : Nat := 0
  begun   : Bool := false
  ending  : Option Nat := none
  dying   : List Nat := []
  deriving DecidableEq, Repr

/-- A record accepted from a queue (R305): ring index, its eight words, its footprint (bases with bit 63 for a write,
lengths), whether it has started, of a Boundary whether it has written GO, the launch it runs, the status that a flush or a broken queue gives it (R420, R426; 0
none), the status that it ended with where its write still waits for a page request; an operator's launch record, stage descriptors and barrier table. -/
structure Rec where
  idx     : Nat
  words   : List Word
  foot    : List (Word × Word) := []
  started : Bool := false
  gone    : Bool := false
  launch  : Option Nat := none
  abort   : Nat := 0
  done    : Nat := 0
  lr      : List Word := []
  desc    : List Word := []
  bars    : List (Nat × Nat) := []
  deriving DecidableEq, Repr

/-- A hardware queue slot (R302, R309, R423): the queue, when it was mapped, HEAD as held here, the records
in flight, the index of a record at HEAD that FENCE or an edge has been found to hold, the wait kind with the index of the record that
waits and its start, whether the watchdog has reported this wait, whether the queue is to
become broken (R420), and whether it is being unmapped, by force for the queue named (R302, R303: step 2 is done). A broken queue whose records still end stands under a number past the hardware slots. -/
structure QSlot where
  q      : Nat
  at_    : Nat
  head   : Nat
  recs   : List Rec := []
  held   : Option Nat := none
  kind   : Nat := 0
  waiter : Nat := 0
  since  : Nat := 0
  barked : Bool := false
  bad    : Bool := false
  leaving : Option (Option Nat) := none
  deriving DecidableEq, Repr

/-- A region or ring capability (R317): base, bytes, context, read, write, and whether it is a ring's. -/
structure Cap where
  base  : Nat
  bytes : Nat
  ctx   : Nat
  rd    : Bool
  wr    : Bool
  ring  : Bool := false
  deriving DecidableEq, Repr

/-- A cached translation (R325): the TLB that holds it, context, the pages it covers, the leaf entry as it was read or
updated, and where that entry lies. -/
structure Tlb where
  own  : Nat := 0
  ctx  : Nat
  va   : Nat
  size : Nat
  pte  : Word
  at_  : Loc := .hbm 0 0
  deriving DecidableEq, Repr

/-- A table entry of a die's walk cache (R325): context, level, the first address it covers, and the entry. -/
structure WalkStep where
  ctx : Nat
  lv  : Nat
  va  : Nat
  pte : Word
  deriving DecidableEq, Repr

/-- An outstanding page request (R331, R419): group index, GEN, context, agent, when it was sent, its answer, and, where the strand whose
access it was has left its slot, its launch: that access is made again (R416). -/
structure Pri where
  grp  : Nat
  gen  : BitVec 16
  ctx  : Nat
  slot : Nat
  page : Nat
  at_  : Nat
  ans  : Option Nat := none
  left : Option Nat := none
  deriving DecidableEq, Repr

/-- A strand to be displaced from a reserved tile or a borrowed one (R45, R46): slot and deadline. -/
structure Disp where
  slot : Nat
  due  : Nat
  deriving DecidableEq, Repr

/-- A die: its register block by offset, RWL fields already written (R7), its queues, capabilities,
launches, slot assignment, copies, transfer engines, domains, translations, page requests and caches. `front` holds the queues that
unmapping put at the head of the remap list (R303), `l1bad` the hardware-coherent lines, by tile, whose copy in an L1 is poisoned (R392), `early` the records, by queue and ring index, that have retired behind a Wait record
which is to be read again (R303), `brokeAt` when each broken queue broke and its HEAD then (R420, R423), `told` the control entry whose
refusal has been reported (R426), `banks` the current bank of a launch context whose launch has ended (R311), and
`wins` names the home line that a line of a peer window had when a load last reached it (R330), `ran` is the image that the die runs
(R435), and `opLeft` and `opHold` count what is left of 256 issue opportunities and of those to withhold (R439). -/
structure Die where
  regs    : Tab Word := []
  locked  : List Nat := []
  state   : Nat := 0
  fail    : Nat := 0
  qslots  : Tab QSlot := []
  remap   : List Nat := []
  front   : List Nat := []
  early   : List (Nat × Nat) := []
  broken  : List Nat := []
  brokeAt : Tab (Nat × Nat) := []
  bound   : List Nat := []
  caps    : Tab Cap := []
  revoked : List (Cap × List (Nat × Nat)) := []
  nextCap : Nat := 1
  mbox    : Option Nat := none
  launches : Tab Launch := []
  banks   : Tab (List Word) := []
  nextL   : Nat := 1
  nextU   : Nat := 1
  assign  : Tab (Nat × Nat) := []
  copies  : Tab Copy := []
  nextC   : Nat := 1
  batches : List Batch := []
  engines : Tab (List Nat) := []
  doms    : Tab (List Dom) := []
  acks    : Tab Ack := []
  nextA   : Nat := 1
  l2      : Tab Line := []
  l1bad   : List (Nat × Nat) := []
  tlb     : List Tlb := []
  steps   : List WalkStep := []
  wins    : Tab Nat := []
  ats     : List Tlb := []
  pri     : List Pri := []
  nextP   : Nat := 1
  priDis  : List Nat := []
  inv     : Option (Nat × Word) := none
  mask    : BitVec 24 := 0x820820#24
  nextReb : Nat := 0
  disp    : List Disp := []
  ctrl    : Option (Nat × Nat) := none
  told    : Option Word := none
  mirror  : Tab (List Word) := []
  gov     : Option (Nat × Nat) := none
  govIn   : List Word := []
  lapsed  : List (Nat × Nat) := []
  att     : Option (List Byte) := none
  noExp   : Bool := false
  quiesce : Option Nat := none
  lag     : Int := 0
  slew    : Int := 0
  slewing : Bool := false
  timeLocked : Bool := false
  holdover : Bool := false
  adjAt   : Option Nat := none
  adjOk   : Nat := 0
  lostNext : Bool := false
  ran     : List Byte := []
  opLeft  : Nat := 0
  opHold  : Nat := 0
  deriving DecidableEq, Repr

/-- An access of a host that may have to wait for an edge that retrains (R333). -/
inductive HostAccess where
  | semWrite (p : Nat) (v : Word)
  | semRead (p : Nat)
  | reset (d p : Nat)
  | load (d p : Nat) (hpa : Word)
  | rate (e p : Nat) (v : Word)
  | reg (d off : Nat) (v : Word) (p : Nat)
  | mem (p : Nat) (a : Word) (wr : Option (List Byte)) (len : Nat)
  deriving DecidableEq, Repr

/-- A die edge (R332): LINK fields; the rate that it trains at and why (0 boot, 1 automatic, 2 a TGT write, 3 width), its
failures at 32 GT/s, the times of its replays in the last ms (R334), and when it went down (R400). -/
structure Edge where
  fbthr  : BitVec 16 := 64
  auto   : Bool := true
  tgt    : BitVec 3 := 0
  cur    : BitVec 3 := 0
  repaired : BitVec 8 := 0
  mods   : BitVec 24 := 0
  crcerr : BitVec 32 := 0
  replays : BitVec 32 := 0
  degr   : Bool := false
  denied : Bool := false
  up     : Bool := false
  down   : Bool := false
  train  : Option (BitVec 3) := none
  why    : Nat := 0
  fails  : Nat := 0
  recent : List Nat := []
  downAt : Option Nat := none
  deriving DecidableEq, Repr

/-- The package. `mem`, `empties` and `poison` cover every store by one numbering of bytes (Machine/Ops); `marks` holds the bytes of a save
area that carry the mark of a register with an uncorrectable error (R396).
`hostGot` holds by port the bytes that the last CXL.mem read gave the host, none where they carried CXL poison (R394), and `hostL` the lines that the hosts hold (R337), by port
and line; `waiting` the host accesses that wait for an edge that retrains (R333); `hostMap` counts how often a host has mapped a page anew (R331). `idle` is by slot the time in µs at which its last wait ended (R424). `inputs`, `agenda`, `choice` and `cur` are the model's own: events from outside still to come, choices among
agents still to be used, the number of free values drawn, and the slot whose word is performed. -/
structure State where
  mem     : List Host.Cell := []
  empties : List Nat := []
  poison  : List Nat := []
  marks   : List Nat := []
  dies    : Tab Die := []
  tiles   : Tab Tile := []
  strands : Tab Strand := []
  edges   : Tab Edge := []
  time    : Nat := 0
  semOwner : BitVec 2 := 0
  semExpired : Bool := false
  semLease : Nat := 0
  epoch   : BitVec 8 := 0
  recLines : List Nat := []
  told    : List Nat := []
  flash   : Option (List Byte) := none
  portsDown : List Nat := []
  idle    : Tab Nat := []
  hostMap : Tab Nat := []
  inputs  : List Instr := []
  waiting : List HostAccess := []
  hostGot : Tab (List (Option Byte)) := []
  hostL   : Tab Line := []
  agenda  : List Nat := []
  choice  : Nat := 0
  cur     : Nat := 0
  deriving DecidableEq, Repr

/-- The machine right after a package reset (R435, R442): every table empty, so every die, tile and edge
stands at its reset values. -/
def State.reset : State := {}

end Sys2Proof.Machine
end

