-- ==== Sys2Proof/Machine/Mem.lean ====
section
/-! DEFINITION. The stores of the package as one numbering of bytes (R245, R246): plain reads and writes,
poison (R393), full bits (R144), and the copies that an L1 or another die's L2 may hold (R248 to R252, R259). -/

namespace Sys2Proof.Machine

/-- The number of a byte in `State.mem`. -/
def Loc.key : Loc → Nat
  | .hbm d pa => d * 2 ^ 52 + pa
  | .host p a => 2 ^ 54 + p * 2 ^ 52 + a
  | .spad t o => 2 ^ 55 + t * 2 ^ 23 + o
  | .acc t o => 2 ^ 55 + t * 2 ^ 23 + 2 ^ 22 + o
  | .far h o _ => 2 ^ 64 + h * 2 ^ 40 + o

/-- The location `n` bytes further. -/
def Loc.add : Loc → Nat → Loc
  | .hbm d pa, n => .hbm d (pa + n)
  | .host p a, n => .host p (a + n)
  | .spad t o, n => .spad t (o + n)
  | .acc t o, n => .acc t (o + n)
  | .far h o p, n => .far h (o + n) p

/-- The first byte of the 128-byte line of a location. -/
def Loc.base : Loc → Loc
  | .hbm d pa => .hbm d (pa - pa % 128)
  | .host p a => .host p (a - a % 128)
  | .spad t o => .spad t (o - o % 128)
  | .acc t o => .acc t (o - o % 128)
  | .far h o p => .far h (o - o % 128) p

/-- The home die of a location (R246); 4 for another package. -/
def Loc.home : Loc → Nat
  | .hbm d _ => d
  | .host p _ => if p = 0 then 0 else 3
  | .spad t _ => t / 24
  | .acc t _ => t / 24
  | .far _ _ _ => 4

/-- The fabric port of an access to another package (R335). -/
def Loc.port : Loc → Nat
  | .far _ _ p => p
  | _ => 0

/-- The canonical form of memory: addresses rise strictly, and no entry holds what an unlisted byte reads as. -/
abbrev Memory.wf (m : List Host.Cell) : Bool := Cells.wf m

/-- One byte of memory; an unlisted byte reads as 0. -/
def State.byte (s : State) (k : Nat) : Byte := Cells.get s.mem k

/-- Bytes k, k + 1, …. -/
def readMem (m : List Host.Cell) (k : Nat) : Nat → List Byte
  | 0 => []
  | n + 1 => Cells.get m k :: readMem m (k + 1) n

/-- Write bytes at k, k + 1, …. -/
def writeMem (m : List Host.Cell) (k : Nat) : List Byte → List Host.Cell
  | [] => m
  | b :: l => writeMem (Cells.set m k b) (k + 1) l

/-- Poison marks of the lines wholly written by `n` bytes at `k` are cleared (R393). -/
def clearPoison (p : List Nat) (k n : Nat) : List Nat :=
  p.filter fun l => !(k ≤ l * 128 && l * 128 + 128 ≤ k + n)

/-- Some byte of `n` bytes at `k` lies in a poisoned line, or in a line where the image of a register carries the mark (R393, R396). -/
def State.poisoned (s : State) (k n : Nat) : Bool :=
  let covers := fun l : Nat => l * 128 < k + n && k < l * 128 + 128
  s.poison.any covers || s.marks.any fun a => covers (a / 128)

/-- Bytes at a location, without any cache. -/
def State.peek (s : State) (l : Loc) (n : Nat) : List Byte := readMem s.mem l.key n

/-- Write bytes at a location, without any cache. -/
def State.poke (s : State) (l : Loc) (b : List Byte) : State :=
  { s with
    mem := writeMem s.mem l.key b
    poison := clearPoison s.poison l.key b.length
    marks := s.marks.filter fun a => !(l.key ≤ a && a < l.key + b.length)
    told := clearPoison s.told l.key b.length }

/-- A little-endian word of `n` bytes at a location. -/
def State.peekNat (s : State) (l : Loc) (n : Nat) : Nat := leNat (s.peek l n)

/-- A 64-bit word at a location. -/
def State.peekWord (s : State) (l : Loc) : Word := BitVec.ofNat 64 (s.peekNat l 8)

/-- Write a 64-bit word at a location. -/
def State.pokeWord (s : State) (l : Loc) (v : Word) : State := s.poke l (leBytes 8 v.toNat)

/-- A die; one not listed stands at its reset values. -/
def State.die (s : State) (d : Nat) : Die := Tab.getD s.dies d {}

/-- Replace a die. -/
def State.setDie (s : State) (d : Nat) (x : Die) : State := { s with dies := Tab.put s.dies d x }

/-- Change a die. -/
def State.onDie (s : State) (d : Nat) (f : Die → Die) : State := s.setDie d (f (s.die d))

/-- A tile of the package. -/
def State.tile (s : State) (t : Nat) : Tile := Tab.getD s.tiles t {}

/-- Replace a tile. -/
def State.setTile (s : State) (t : Nat) (x : Tile) : State := { s with tiles := Tab.put s.tiles t x }

/-- Change a tile. -/
def State.onTile (s : State) (t : Nat) (f : Tile → Tile) : State := s.setTile t (f (s.tile t))

/-- The strand in a slot. -/
def State.strand (s : State) (k : Nat) : Option Strand := Tab.find s.strands k

/-- Place a strand in a slot. -/
def State.setStrand (s : State) (k : Nat) (x : Strand) : State := { s with strands := Tab.put s.strands k x }

/-- Change the strand in a slot, where there is one. -/
def State.onStrand (s : State) (k : Nat) (f : Strand → Strand) : State :=
  match s.strand k with
  | none => s
  | some st => s.setStrand k (f st)

/-- A die edge. -/
def State.edge (s : State) (e : Nat) : Edge := Tab.getD s.edges e {}

/-- Change a die edge. -/
def State.onEdge (s : State) (e : Nat) (f : Edge → Edge) : State :=
  { s with edges := Tab.put s.edges e (f (s.edge e)) }

/-- Draw one of `n` allowed outcomes: the next of `agenda`, or a free value where it is used up. -/
def State.pick (s : State) (n : Nat) : Nat × State :=
  match s.agenda with
  | a :: l => (a % n, { s with agenda := l })
  | [] => (Config.pick s.choice % n, { s with choice := s.choice + 1 })

/-- The number of a scratchpad line among all tiles. -/
def lineNo (t line : Nat) : Nat := t * 32768 + line

/-- The full bit of a scratchpad line (R144). -/
def State.full (s : State) (t line : Nat) : Bool := !s.empties.contains (lineNo t line)

/-- Set or clear the full bit of a scratchpad line (R144). -/
def State.setFull (s : State) (t line : Nat) (b : Bool) : State :=
  { s with empties := if b then s.empties.filter (· != lineNo t line) else insertNat s.empties (lineNo t line) }

/-- The first empty line among the scratchpad lines that `n` bytes at offset `o` touch. -/
def State.emptyLine (s : State) (t o n : Nat) : Option Nat :=
  if n = 0 then none else
  (upFrom (o / 128) ((o + n - 1) / 128 - o / 128 + 1)).find? fun l => !s.full t l

/-- Replace bytes of a line from offset `o`. -/
def patch (l : List Byte) (o : Nat) (b : List Byte) : List Byte :=
  l.take o ++ b ++ l.drop (o + b.length)

/-- Mark bytes of a line dirty from offset `o`. -/
def patchB (l : List Bool) (o n : Nat) : List Bool :=
  let l := if l.isEmpty then List.replicate 128 false else l
  l.take o ++ List.replicate n true ++ l.drop (o + n)

/-- The home bytes of a line with a copy's dirty bytes laid over them. -/
def overlay : List Byte → List Byte → List Bool → List Byte
  | h :: hs, c :: cs, d :: ds => (if d then c else h) :: overlay hs cs ds
  | hs, _, _ => hs

/-- The line of 128 bytes that a location lies in. -/
def Loc.line (l : Loc) : Nat := l.key / 128

/-- The home die of a 128-byte line of memory, by its number; 4 where it has none on this package. -/
def homeOf (line : Nat) : Nat :=
  let k := line * 128
  if k < 2 ^ 54 then k / 2 ^ 52
  else if k < 2 ^ 54 + 2 ^ 52 then 0
  else if k < 2 ^ 55 then 3 else 4

/-- The lines of a die's L2: 96 MiB (R19, R20). -/
def l2Lines : Nat := 786432
/-- The lines of an L1, or of one slice of a fused one: 256 KiB (R18, R20). -/
def l1Lines : Nat := 2048

/-- A cache takes a copy of a line: as old as the copy that it is taken from, in cache `src`, or as memory at the line's home (R259). -/
def State.taken (s : State) (line cache : Nat) (src : Option Nat) : State :=
  if s.dies.any fun e => e.2.acks.any fun a => a.2.e && a.2.line == line then
    { s with dies := s.dies.map fun e => (e.1, { e.2 with acks := e.2.acks.map fun a =>
        if a.2.line = line then
          let old := match src with | some c => a.2.stale.contains c | none => false
          (a.1, { a.2 with stale := if old then insertNat a.2.stale cache else a.2.stale.filter (· != cache) })
        else a }) }
  else s

/-- A line enters the L2 of a die; from a full L2 another leaves, which one being open. A line of the die's own memory
that leaves is written back: it holds what memory holds (R145). -/
def State.intoL2 (s : State) (d line : Nat) (c : Line) : State :=
  let n := (s.die d).l2.length
  let full := l2Lines ≤ n && (Tab.find (s.die d).l2 line).isNone
  let (j, s) := if full then s.pick n else (n, s)
  s.onDie d fun x =>
    { x with l2 := Tab.put (match x.l2[j]? with | some e => if full then Tab.del x.l2 e.1 else x.l2 | none => x.l2) line c }

/-- Before a line changes in its home L2, what the home holds beneath is kept, once, for a discard (R145). -/
def State.keepHome (s : State) (line : Nat) : State :=
  let d := homeOf line
  if d < 4 && (Tab.find (s.die d).l2 line).isNone then s.intoL2 d line { data := readMem s.mem (line * 128) 128 }
  else s

/-- Remove other dies' copies of a line, and the hosts' (R337); `keep` names the dies that keep theirs, 4 for the hosts (R259). -/
def State.dropL2 (s : State) (line : Nat) (keep : List Nat) : State :=
  { s with hostL := if keep.contains 4 then s.hostL else s.hostL.filter (fun e => e.1 / 2 != line), dies := s.dies.map fun e =>
      if keep.contains e.1 then e
      else
        (e.1, { e.2 with
          l2 := if e.1 = homeOf line then e.2.l2 else Tab.del e.2.l2 line
          l1bad := e.2.l1bad.filter fun x => x.2 != line }) }

/-- A store of bytes at a line's home as a .g store (R249, R259): every copy in another die's L2 is invalidated first. -/
def State.storeHome (s : State) (l : Loc) (b : List Byte) : State := ((s.dropL2 l.line []).keepHome l.line).poke l b

/-- Write a cached line's dirty bytes to its home (R250), where they invalidate the copies that other dies hold (R259). The poison mark goes
with a poisoned copy, and is cleared by one whose bytes have all been written (R393). That of a line which another displaces
crosses at once (DEDUCED, log 104). -/
def State.writeBack (s : State) (line : Nat) (c : Line) : State :=
  if c.dirty.any id then
    let s := (s.dropL2 line []).keepHome line
    let whole := c.dirty.all id && !c.bad
    { s with
      mem := writeMem s.mem (line * 128) (overlay (readMem s.mem (line * 128) 128) c.data c.dirty)
      poison := if c.bad then insertNat s.poison line else if whole then s.poison.filter (· != line) else s.poison
      marks := s.marks.filter fun a => !(a / 128 == line && c.dirty.getD (a % 128) false)
      told := if whole then s.told.filter (· != line) else s.told }
  else s

/-- Write back every line of a list. -/
def State.writeBacks (s : State) : Tab Line → State
  | [] => s
  | (l, c) :: r => (s.writeBack l c).writeBacks r

/-- Physical address bits 51:7 of a line, as its home die numbers it (R33, R319). -/
def lineAddr (line : Nat) : Nat :=
  if line * 128 < 2 ^ 54 then line % 2 ^ 45 else line % 2 ^ 45 + 0xE000000000000 / 128

/-- The tile whose L1 holds a line for a tile: its own, or the slice of a fused cluster (R33). -/
def l1Tile (fused : Bool) (t line : Nat) : Nat := if fused then t / 6 * 6 + lineAddr line % 6 else t

/-- A line of an L1 leaves it, its dirty bytes written back (R250, R251): an L1 may evict a line at any time. -/
def State.evictL1 (s : State) (t line : Nat) : State :=
  match Tab.find (s.tile t).l1 line with
  | some c => (s.writeBack line c).onTile t fun x => { x with l1 := Tab.del x.l1 line }
  | none => s

/-- A line leaves every L1 of the package, its dirty bytes written back. -/
def State.evictAll (s : State) (line : Nat) : State :=
  (s.tiles.map (·.1)).foldl (fun (s : State) t => s.evictL1 t line) s

/-- Write back the dirty lines of an L1 whose COH is listed; the lines stay as clean copies (R250, R252). -/
def State.cleanL1 (s : State) (t : Nat) (cohs : List Nat) : State :=
  let ls := (s.tile t).l1.filter fun e => cohs.contains e.2.coh
  (s.writeBacks ls).onTile t fun x =>
    { x with l1 := x.l1.map fun e => if cohs.contains e.2.coh then (e.1, { e.2 with dirty := [] }) else e }

/-- Write back, then invalidate, the lines of an L1 whose COH is listed (R250, R252). -/
def State.flushL1 (s : State) (t : Nat) (cohs : List Nat) : State :=
  (s.cleanL1 t cohs).onTile t fun x => { x with l1 := x.l1.filter fun e => !cohs.contains e.2.coh }

/-- Memory that the caches of a die may hold (R245): device memory, and host memory behind the die's own port; never the
memory of another package. -/
def Loc.cachedOn (l : Loc) (d : Nat) : Bool :=
  match l with
  | .hbm _ _ => true
  | .host _ _ => l.home == d
  | _ => false

/-- The page attribute in force for a line on a die: lines used as tensor records are hardware-coherent (R253), and memory
that the die does not cache is accessed at its home (R245). -/
def State.cohOf (s : State) (d : Nat) (l : Loc) (coh : Nat) : Nat :=
  if s.recLines.contains l.line || !l.cachedOn d then 0 else coh

/-- Bring a line of a software-managed or tile-private page into an L1 (R250, R251); a full L1 evicts another line, which
one being open. -/
def State.fillL1 (s : State) (t : Nat) (l : Loc) (coh : Nat) : State × Line :=
  match Tab.find (s.tile t).l1 l.line with
  | some c => (s, c)
  | none =>
    let n := (s.tile t).l1.length
    let (j, s) := if l1Lines ≤ n then s.pick n else (n, s)
    let s := match (s.tile t).l1[j]? with
      | none => s
      | some (m, _) => s.evictL1 t m
    let c : Line := { data := readMem s.mem (l.line * 128) 128, coh := coh, bad := s.poison.contains l.line }
    (s.onTile t fun x => { x with l1 := Tab.put x.l1 l.line c }, c)

/-- Read `n` bytes of one 128-byte line as an agent of die `d` on tile `t` sees them (R248, R250, R257). -/
def State.loadLine (s : State) (d t : Nat) (fused : Bool) (l : Loc) (coh n : Nat) : List Byte × State :=
  match l with
  | .spad _ _ => (s.peek l n, s)
  | .acc _ _ => (s.peek l n, s)
  | _ =>
    let o := l.key % 128
    if s.cohOf d l coh = 0 then
      if l.home = d || !l.cachedOn d then (s.peek l n, s)
      else match Tab.find (s.die d).l2 l.line with
        | some c => ((c.data.drop o).take n, s)
        | none =>
          let b := s.peek l n
          let (j, s) := s.pick 2
          if j = 1 then (b, (s.intoL2 d l.line { data := readMem s.mem (l.line * 128) 128 }).taken l.line d none) else (b, s)
    else
      let (s, c) := s.fillL1 (l1Tile fused t l.line) l coh
      ((c.data.drop o).take n, s)

/-- The copy of a line that an access would read (R248, R250): in an L1, or in another die's L2; none where it reads at the home. -/
def State.copyOf (s : State) (d t : Nat) (fused : Bool) (l : Loc) (coh : Nat) : Option Line :=
  match l with
  | .spad _ _ => none
  | .acc _ _ => none
  | _ =>
    if s.cohOf d l coh = 0 then if l.home = d then none else Tab.find (s.die d).l2 l.line
    else Tab.find (s.tile (l1Tile fused t l.line)).l1 l.line

/-- The home die of a location: 0 to 3 on this package, 4 more on another. -/
def Loc.homeDie (l : Loc) : Nat :=
  match l with
  | .far h _ _ => 4 + h / 2 ^ 46 % 4
  | _ => l.home

/-- Perform a store of bytes within one 128-byte line (R249, R250, R259); `e` asks for early forwarding.
A store homed on another die leaves an acknowledgement outstanding for strand `uid` at address `va`. -/
def State.storeLine (s : State) (d t : Nat) (fused : Bool) (l : Loc) (coh : Nat) (e : Bool)
    (uid : Nat) (va : Word) (b : List Byte) : State :=
  match l with
  | .spad _ _ => s.poke l b
  | .acc _ _ => s.poke l b
  | _ =>
    if s.cohOf d l coh = 0 then
      let early := e && l.home != d && l.home < 4
      let keep := if early then ((s.dies.map (·.1)).filter fun x => x != d && x != l.home) ++ [4] else []
      let stale := (keep.filter fun x => (Tab.find (s.die x).l2 l.line).isSome) ++
        (s.tiles.filter fun x => (Tab.find x.2.smp l.line).isSome).map fun x => 4 + x.1
      let s := ((s.dropL2 l.line keep).keepHome l.line).poke l b
      if l.home = d then s
      else s.onDie d fun x =>
        { x with
          acks := Tab.put x.acks x.nextA
            { uid := uid, va := va, line := l.line, home := l.homeDie, pkg := l.home = 4, port := l.port, e := early, at_ := s.time,
              stale := if early then stale else [] }
          nextA := x.nextA + 1 }
    else
      let tt := l1Tile fused t l.line
      let (s, c) := s.fillL1 tt l coh
      let o := l.key % 128
      let c := { c with
        data := patch c.data o b
        dirty := patchB c.dirty o b.length
        bad := c.bad && b.length != 128 }
      s.onTile tt fun x => { x with l1 := Tab.put x.l1 l.line c }

/-- An L1 without the copy of a line whose bytes at home have become `h`; its dirty bytes stay (R145). -/
def refreshL1 (line : Nat) (h : List Byte) (l1 : Tab Line) : Tab Line :=
  match Tab.find l1 line with
  | none => l1
  | some c =>
    if c.dirty.any id then Tab.put l1 line { c with data := overlay h c.data c.dirty } else Tab.del l1 line

/-- Memory under a line of an L2 returns to what the die's HBM held: the stores held only in the L2 are lost, and with them
every copy of what they wrote (R145). Dirty bytes of an L1 stay. -/
def State.loseLine (s : State) (x : Nat × Line) : State :=
  let s := { (s.dropL2 x.1 []) with mem := writeMem s.mem (x.1 * 128) x.2.data }
  { s with tiles := s.tiles.map fun e => (e.1, { e.2 with l1 := refreshL1 x.1 x.2.data e.2.l1 }) }

/-- A line leaves the L1 of a tile and the L2 of its die without write-back (R145): where the die is the line's
home, the stores held only there are lost whole. -/
def State.discard (s : State) (d t : Nat) (fused : Bool) (line : Nat) : State :=
  let s := s.onTile (l1Tile fused t line) fun x => { x with l1 := Tab.del x.l1 line }
  let s := match Tab.find (s.die d).l2 line with
    | some c => if homeOf line = d then s.loseLine (line, c) else s
    | none => s
  s.onDie d fun x => { x with l2 := Tab.del x.l2 line }

end Sys2Proof.Machine
end

