-- ==== Sys2Proof/Machine/Mmu.lean ====
section
/-! DEFINITION. Registers of a die read as a block, reachability over the die edges, and translation:
contexts, page walk, cached translations, import and export tables, ATS and page requests (R319 to R331,
R415 to R419). -/

namespace Sys2Proof.Machine

/-- The outcome of a part of a meaning that may meet a fault or have to wait (with the cause code of R424). -/
inductive Res (α : Type) where
  | ok (a : α) (s : State)
  | flt (f : Flt) (s : State)
  | wait (cause obj : Nat) (s : State)

/-- Continue after a part that succeeded. -/
def Res.bind {α β : Type} : Res α → (α → State → Res β) → Res β
  | .ok a s, f => f a s
  | .flt e s, _ => .flt e s
  | .wait c o s, _ => .wait c o s

/-- The reset value of a die register with storage (R7). -/
def regReset (off : Nat) : Word :=
  match off with
  | 0x308 => 0x640000
  | 0x400 => 0x820820
  | 0x630 => 1000
  | 0xF48 => 3600
  | _ => 0

/-- The stored value of a die register. -/
def State.reg (s : State) (d off : Nat) : Word := Tab.getD (s.die d).regs off (regReset off)

/-- Set the stored value of a die register. -/
def State.setReg (s : State) (d off : Nat) (v : Word) : State :=
  s.onDie d fun x => { x with regs := Tab.put x.regs off v }

/-- Replace bits lo + len - 1 to lo of a word. -/
def putBits (w : Word) (lo len v : Nat) : Word :=
  BitVec.ofNat 64 (w.toNat - bits w lo len * 2 ^ lo + (v % 2 ^ len) * 2 ^ lo)

/-- Set a field of a die register. -/
def State.setField (s : State) (d off lo len v : Nat) : State := s.setReg d off (putBits (s.reg d off) lo len v)

/-- Add to a field of a die register, saturating. -/
def State.bumpField (s : State) (d off lo len n : Nat) : State :=
  s.setField d off lo len (min (bits (s.reg d off) lo len + n) (2 ^ len - 1))

/-- The dies that an edge joins (R11). -/
def edgeEnds (e : Nat) : Nat × Nat :=
  match e with
  | 0 => (0, 1)
  | 1 => (1, 3)
  | 2 => (3, 2)
  | _ => (2, 0)

/-- The dies one edge in service away from a list of dies. -/
def State.spread (s : State) (l : List Nat) : List Nat :=
  [0, 1, 2, 3].foldl (fun acc e =>
    if (s.edge e).down then acc else
    let (a, b) := edgeEnds e
    let acc := if acc.contains a then insertNat acc b else acc
    if acc.contains b then insertNat acc a else acc) l

/-- The dies that a die can reach over edges that are not down (R400, R404). -/
def State.half (s : State) (d : Nat) : List Nat := s.spread (s.spread (s.spread [d]))

/-- Where a die stands in the ring D0, D1, D3, D2; edge n joins places n and n + 1 (R11). -/
def ringPlace (d : Nat) : Nat :=
  match d with
  | 0 => 0
  | 1 => 1
  | 3 => 2
  | _ => 3

/-- The edges from die `a` to die `b` around the ring, D0 to D1 to D3 to D2 first, or the other way. -/
def wayRound (a b : Nat) (onward : Bool) : List Nat :=
  let p := ringPlace a
  let n := (ringPlace b + 4 - p) % 4
  if onward then (upFrom 0 n).map fun i => (p + i) % 4 else (upFrom 1 ((4 - n) % 4)).map fun i => (p + 4 - i) % 4

/-- The route of an ordered pair of dies over the edges that `ok` admits (R12, R400): while the ring is whole the shared
edge, or the fixed two-hop route; else the path that is left. -/
def routeOver (ok : Nat → Bool) (a b : Nat) : Option (List Nat) :=
  let on := wayRound a b true
  let back := wayRound a b false
  let (x, y) := if on.length ≤ 2 then (on, back) else (back, on)
  if x.all ok then some x else if y.all ok then some y else none

/-- The route in use from one die to another (R12, R400). -/
def State.route (s : State) (a b : Nat) : Option (List Nat) := routeOver (fun e => !(s.edge e).down) a b

/-- The route from one die to another crosses an edge that does not carry traffic now: accesses over it wait (R333). -/
def State.crossWaits (s : State) (a b : Nat) : Bool :=
  match s.route a b with
  | some l => l.any fun e => !(s.edge e).up || (s.edge e).train.isSome
  | none => false

/-- Die `e` can be reached from die `d` and is not in reset (R403). -/
def State.canReach (s : State) (d e : Nat) : Bool := d == e || ((s.half d).contains e && (s.die e).state == 3)

/-- The fault of an access whose home cannot be reached (R403). -/
def unreachable (pkg die : Nat) (va : Word) : Flt :=
  { cls := 0x06, code := 2, addr := va, info := wordOf [(pkg % 2 ^ 16, 48), (die % 4, 46)] }

/-- The agent that a copy or job is: from 4000 on, in turn with the strands that wait off their slots. -/
def copyAgent (j : Nat) : Nat := 4000 + 2 * j
/-- The agent that a strand is that waits off its slot. -/
def awayAgent (uid : Nat) : Nat := 4001 + 2 * uid

/-- Who makes an access (R320, R325): die, context, tile, whether the L1s are fused, the agent that a page request
answers, the strand or copy, whether it is an engine of the die that uses no L1, whether the access passes the L1s and is made at
the home of what it accesses, the stream TLB that serves it (0 none, 1 of a load queue, 2 of a store queue), and whether
its stream descends. -/
structure Who where
  die   : Nat
  ctx   : Nat
  tile  : Nat
  fused : Bool := false
  agent : Nat := 0
  uid   : Nat := 0
  raw   : Bool := false
  home  : Bool := false
  stream : Nat := 0
  down  : Bool := false
  deriving DecidableEq, Repr

/-- An access kind (R415) with the permissions it needs (R322). -/
structure Kind where
  no : Nat
  r  : Bool := false
  w  : Bool := false
  x  : Bool := false
  deriving DecidableEq, Repr

/-- Load. -/
def kLoad : Kind := { no := 1, r := true }
/-- Store. -/
def kStore : Kind := { no := 2, w := true }
/-- Atomic, tst, tld. -/
def kAtomic : Kind := { no := 3, r := true, w := true }
/-- Instruction fetch. -/
def kFetch : Kind := { no := 4, x := true }
/-- Copy source. -/
def kSrc : Kind := { no := 5, r := true }
/-- Copy destination. -/
def kDst : Kind := { no := 6, w := true }
/-- Governor read. -/
def kGovR : Kind := { no := 7, r := true }
/-- Governor update. -/
def kGov : Kind := { no := 7, r := true, w := true }

/-- Where a table of a walk lies: HBM of the die or host memory (R319, R321). -/
def tableLoc (d port pa : Nat) : Option Loc :=
  if pa < 0x3000000000 then some (.hbm d pa)
  else if 0xE000000000000 ≤ pa ∧ pa < 0xF000000000000 then some (.host port (pa - 0xE000000000000))
  else none

/-- The page size of a leaf size code, and its level (R323). -/
def leafSize (sz : Nat) : Option (Nat × Nat) :=
  [(2 ^ 12, 0), (2 ^ 14, 0), (2 ^ 16, 0), (2 ^ 18, 0), (2 ^ 20, 0), (2 ^ 21, 1), (2 ^ 25, 1), (2 ^ 29, 1),
    (2 ^ 30, 2), (2 ^ 34, 2)][sz]?

/-- The physical address of an entry, bits 51:12. -/
def pteAddr (e : Word) : Nat := bits e 12 40 * 4096

/-- The fault code that an entry at a level gives, 0 for none (R321, R322, R323). -/
def pteCheck (d port lv : Nat) (e : Word) : Nat :=
  let leaf := e.getLsbD 1
  if !e.getLsbD 0 then 0x10
  else if e.getLsbD 63 || bits e 52 7 != 0 || bits e 10 2 != 0 || e.getLsbD 7 then 0x11
  else if leaf then
    match leafSize (bits e 59 4) with
    | none => 0x11
    | some (sz, l) =>
      if l != lv || 3 ≤ lv || (e.getLsbD 3 && !e.getLsbD 2) || bits e 5 2 == 3 || pteAddr e % sz != 0 then 0x11
      else
        let pa := pteAddr e
        if pa + sz ≤ 0x3000000000 || 0xE000000000000 ≤ pa then 0 else 0x13
  else if lv == 0 || bits e 59 4 != 0 || bits e 2 8 != 0 then 0x11
  else if (tableLoc d port (pteAddr e)).isNone then 0x13 else 0

/-- The context table entry of a context that is valid (R320): words 0 to 2. -/
def State.context (s : State) (d c : Nat) : Option (Word × Word × Word) :=
  if bits (s.reg d 0x608) 0 17 ≤ c then none
  else match tableLoc d 0 (bits (s.reg d 0x600) 12 40 * 4096 + 32 * c) with
    | none => none
    | some l =>
      let w := s.peekWord l
      if w.getLsbD 0 then some (w, s.peekWord (l.add 8), s.peekWord (l.add 16)) else none

/-- A translation fault (R415). -/
def xlFlt (code : Nat) (k : Kind) (va : Nat) (pte : Word) (lv : Nat) : Flt :=
  { cls := 0x04, code := code, addr := BitVec.ofNat 64 va,
    info := wordOf [(bits pte 12 40, 12), (k.no, 4), (lv, 0)] }

/-- The poison fault at a consumer (R394). -/
def poisonFlt (code : Nat) (va : Word) : Flt := { cls := 0x05, code := code, addr := va }

/-- An entry gives the permissions that an access needs (R322). -/
def Kind.allowed (k : Kind) (e : Word) : Bool :=
  (!k.r || e.getLsbD 2) && (!k.w || e.getLsbD 3) && (!k.x || e.getLsbD 4)

/-- A translation that ATS returned, with its host page, enters the ATS cache of the port's die, of 1024 entries (R331). -/
def State.atsPut (s : State) (pd pasid page perm hp : Nat) : State :=
  let n := (s.die pd).ats.length
  let (j, s) := if 1024 ≤ n then s.pick n else (n, s)
  s.onDie pd fun x =>
    { x with ats := { ctx := pasid, va := page, size := 4096, pte := BitVec.ofNat 64 (perm % 4), at_ := .host pd (hp * 4096) } :: x.ats.eraseIdx j }

/-- The number of a page of a PASID behind a port. -/
def hostPageNo (port pasid page : Nat) : Nat := (port * 2 ^ 20 + pasid) * 2 ^ 52 + page

/-- The host page that the host's tables name for a page of a PASID (R331): the host may have mapped it anew since it was last asked (DESIGN CHOICE, log 40). -/
def State.hostAt (s : State) (port pasid page : Nat) : Nat × State :=
  let n := hostPageNo port pasid page
  let (j, s) := s.pick 2
  let g := Tab.getD s.hostMap n 0 + j
  (Config.hostPage port pasid page g % 2 ^ 36, if j = 0 then s else { s with hostMap := Tab.put s.hostMap n g })

/-- The page requests of an agent for a page have done their work: the page has been reached without them (R418). -/
def State.priDone (s : State) (w : Who) (page : Nat) : State :=
  if (s.die w.die).pri.any fun p => p.slot == w.agent && p.ctx == w.ctx && p.page == page && p.left.isNone then
    s.onDie w.die fun x => { x with pri := x.pri.filter fun p => !(p.slot == w.agent && p.ctx == w.ctx && p.page == page && p.left.isNone) }
  else s

/-- A host address behind a port (R331): directly, or through ATS with page requests (R418, R419). -/
def State.hostXlate (s : State) (w : Who) (k : Kind) (va : Nat) (pte : Word) (lv port a : Nat)
    (c0 c1 c2 : Word) : Res (Loc × Nat) :=
  let pasid := bits c1 0 20
  let page := a / 4096
  let pd := if port = 0 then 0 else 3
  let left := 4096 - a % 4096
  let loc := fun hp : Nat => Loc.host port (hp * 4096 + a % 4096)
  if s.portsDown.contains port then .flt (xlFlt 0x18 k va pte lv) s
  else if !s.canReach w.die pd then .flt (unreachable (bits (s.reg w.die 0x900) 0 16) pd (BitVec.ofNat 64 va)) s
  else if s.crossWaits w.die pd then .wait 0 0 s
  else if !c0.getLsbD 1 then
    let (hp, s) := s.hostAt port pasid page
    .ok (loc hp, left) (s.priDone w page)
  else
    let need := (if k.r || k.x then 1 else 0) + (if k.w then 2 else 0)
    let has := fun p : Nat => (need % 2 == 0 || p % 2 == 1) && (need < 2 || p / 2 % 2 == 1)
    match (s.die pd).ats.find? fun t => t.ctx == pasid && t.va == page && has t.pte.toNat with
    | some t => .ok (loc (match t.at_ with | .host _ b => b / 4096 | _ => 0), left) (s.priDone w page)
    | none =>
      let pend := (s.die w.die).pri.find? fun p => p.slot == w.agent && p.ctx == w.ctx && p.page == page && p.left.isNone
      let hit := fun (s : State) (perm : Nat) =>
        let (hp, s) := s.hostAt port pasid page
        Res.ok (loc hp, left) (s.atsPut pd pasid page perm hp)
      match pend with
      | some p =>
        let s' := s.onDie w.die fun x => { x with pri := x.pri.filter fun q => q != p }
        match p.ans with
        | none => .wait 11 0 s
        | some 0 =>
          let perm := Config.atsPerm s.choice
          let s' := { s' with choice := s'.choice + 1 }
          if has perm then hit s' perm else .flt (xlFlt 0x12 k va pte lv) s'
        | some 1 => .flt (xlFlt 0x15 k va pte lv) s'
        | some 2 => .flt (xlFlt 0x16 k va pte lv) s'
        | some 3 => .flt (xlFlt 0x19 k va pte lv) s'
        | some _ => .flt (xlFlt 0x18 k va pte lv) s'
      | none =>
        let perm := Config.atsPerm s.choice
        let s := { s with choice := s.choice + 1 }
        if has perm then hit s perm
        else if !c0.getLsbD 2 || (s.die w.die).priDis.contains w.ctx then .flt (xlFlt 0x16 k va pte lv) s
        else
          .wait 11 0 (s.onDie w.die fun x =>
            { x with
              pri := x.pri ++ [⟨x.nextP % 512, BitVec.ofNat 16 (bits c2 0 16), w.ctx, w.agent, page, s.time, none, none⟩]
              nextP := x.nextP + 1 })

/-- The fabric port that accesses to a line of another package use (R335): port o[8:7] xor i[1:0] of the die, or from a port
that is down the next in service, once what is outstanding on it has been acknowledged; none while one of those waits, or
4 where no port is in service. -/
def State.fabricPort (s : State) (d first : Nat) : Nat → Option Nat
  | 0 => some 4
  | n + 1 =>
    let p := (first + (3 - n)) % 4
    if (s.reg d (0x908 + 8 * p)).getLsbD 0 then some p
    else if (s.die d).acks.any fun a => a.2.pkg && a.2.port == p && !a.2.lost then none
    else s.fabricPort d first n

/-- An access through a peer-window slot (R328, R329): at the exporting die, or at another package, which may refuse it. A
load of a line that the die's L2 still holds goes no further (R330). -/
def State.peerXlate (s : State) (w : Who) (k : Kind) (va : Nat) (pte : Word) (lv i o : Nat) : Res (Loc × Nat) :=
  let bad : Res (Loc × Nat) := .flt (xlFlt 0x17 k va pte lv) s
  let left := 4096 - o % 4096
  match tableLoc w.die 0 (bits (s.reg w.die 0x628) 12 40 * 4096 + 16 * i) with
  | none => bad
  | some l =>
    let h := s.peekWord l
    let win := h.toNat * 2 ^ 48 + (i * 2 ^ 40 + o) / 128
    let held := match Tab.find (s.die w.die).wins win with
      | some n => if !k.w && !w.home && bits pte 5 2 == 0 && (Tab.find (s.die w.die).l2 n).isSome && homeOf n < 4 then some n else none
      | none => none
    if !(s.peekWord (l.add 8)).getLsbD 0 then bad
    else match held with
    | some n => .ok (.hbm (homeOf n) (n * 128 % 2 ^ 52 + o % 128), min left (128 - o % 128)) s
    | none =>
      let pkg := bits h 48 16
      let e := bits h 46 2
      if pkg ≠ bits (s.reg w.die 0x900) 0 16 then
        match s.fabricPort w.die (Nat.xor (o / 128 % 4) (i % 4)) 4 with
        | none => .wait 0 0 s
        | some 4 => .flt (unreachable pkg e (BitVec.ofNat 64 va)) s
        | some p =>
          let (j, s) := s.pick 2
          if j = 1 then .flt (xlFlt 0x17 k va pte lv) s else .ok (.far h.toNat o p, min left (128 - o % 128)) s
      else if !s.canReach w.die e || (s.die e).noExp then .flt (unreachable pkg e (BitVec.ofNat 64 va)) s
      else if s.crossWaits w.die e then .wait 0 0 s
      else match tableLoc e 0 (bits (s.reg e 0x620) 12 40 * 4096 + 32 * bits h 0 12) with
        | none => bad
        | some m =>
          let e0 := s.peekWord m
          let e1 := s.peekWord (m.add 8)
          let e2 := s.peekWord (m.add 16)
          if e0.getLsbD 0 && bits e2 0 16 == bits h 24 16 && o < bits e1 0 48 && (!k.r || e0.getLsbD 2) &&
              (!k.x || e0.getLsbD 2) && (!k.w || e0.getLsbD 3) && e2.getLsbD (16 + w.die) &&
              pteAddr e0 + o < 0x3000000000 then
            let loc : Loc := .hbm e (pteAddr e0 + o)
            .ok (loc, left) (if k.w then s else s.onDie w.die fun x => { x with wins := Tab.put x.wins win loc.line })
          else bad

/-- The walk cache has room for one more table entry: of 1024 one leaves, which one being open (R325). -/
def State.stepPut (s : State) (d : Nat) (x : WalkStep) : State :=
  if (s.die d).steps.contains x then s
  else
    let n := (s.die d).steps.length
    let (j, s) := if 1024 ≤ n then s.pick n else (n, s)
    s.onDie d fun y => { y with steps := x :: y.steps.eraseIdx j }

/-- The first address that a table entry of a level covers. -/
def stepVa (va lv : Nat) : Nat := va - va % 2 ^ (12 + 9 * lv)

/-- A table entry that the walk cache may give for an address at a level (R325, R326): one of those it holds that differ from
memory, or none, in which case memory is read. -/
def State.stepPick (s : State) (d ctx va lv : Nat) (e : Word) : Word × State :=
  let l := (s.die d).steps.filter fun t => t.ctx == ctx && t.lv == lv && t.va == stepVa va lv && t.pte != e
  if l.isEmpty then (e, s)
  else
    let (j, s) := s.pick (l.length + 1)
    match l[j]? with
    | some t => (t.pte, s)
    | none => (e, s)

/-- What a walk finds: a leaf with its place and level. -/
structure Leaf where
  at_ : Loc
  pte : Word
  lv  : Nat
  deriving DecidableEq, Repr

/-- The page walk over the levels that remain, from the table at a physical address (R321, R325): tables in the die's HBM, or
in host memory as the context reaches it (R331). `up` is the entry read last, 0 at the root (R415). -/
def State.walk (s : State) (w : Who) (k : Kind) (port va : Nat) (c0 c1 c2 : Word) (up : Word) : List Nat → Nat → Res Leaf
  | [], _ => .flt (xlFlt 0x11 k va up 0) s
  | lv :: rest, pa =>
    let ix := if lv = 4 then va / 2 ^ 48 % 256 else va / 2 ^ (12 + 9 * lv) % 512
    let at_ : Res Loc := match tableLoc w.die port (pa + 8 * ix) with
      | none => .flt (xlFlt 0x13 k va up lv) s
      | some (.host p a) =>
        (s.hostXlate w { no := k.no, r := true } va up lv p a c0 c1 c2).bind fun (l, _) s => .ok l s
      | some l => .ok l s
    at_.bind fun l s =>
      if s.poisoned l.key 8 then .flt (poisonFlt 1 (BitVec.ofNat 64 va)) s
      else
        let (e, s) := s.stepPick w.die w.ctx va lv (s.peekWord l)
        let c := pteCheck w.die port lv e
        if c ≠ 0 then .flt (xlFlt c k va e lv) s
        else if e.getLsbD 1 then .ok ⟨l, e, lv⟩ s
        else (s.stepPut w.die ⟨w.ctx, lv, stepVa va lv, e⟩).walk w k port va c0 c1 c2 e rest (pteAddr e)

/-- The TLB that serves an access (R325): of the tile below 64 bytes and for fetches, of the slot's load or store stream, of the
source or destination stream of a job; none for the command processor and the governor. -/
def Who.tlb (w : Who) (k : Kind) : Option Nat :=
  if copyAgent 0 ≤ w.agent then some (2 * w.agent + if k.w then 1 else 0)
  else if 768 ≤ w.agent then none
  else if k.no = 4 ∨ w.stream = 0 then some w.tile
  else some (1000 + 2 * w.agent + (w.stream - 1))

/-- The bytes that a leaf maps. -/
def leafBytes (e : Word) : Nat := match leafSize (bits e 59 4) with | some (z, _) => z | none => 4096

/-- A translation enters a TLB: a tile's of 2048 entries, from which another leaves, which one being open; a stream's, as its current
page (R325). -/
def State.tlbPut (s : State) (d own : Nat) (t : Tlb) : State :=
  let mine := (s.die d).tlb.filter fun x => x.own == own
  if own < 1000 then
    let n := mine.length
    let (j, s) := if 2048 ≤ n then s.pick n else (n, s)
    let out := mine[j]?
    s.onDie d fun x => { x with tlb := t :: x.tlb.filter fun y => some y != out && y != t }
  else s.onDie d fun x => { x with tlb := t :: x.tlb.filter fun y => y.own != own }

/-- The next page of a stream enters its TLB beside its current one (R325). -/
def State.tlbNext (s : State) (d : Nat) (t : Tlb) : State := s.onDie d fun x => { x with tlb := x.tlb ++ [t] }

/-- A cached entry takes the bits A and D that its update set in memory (R324). -/
def State.tlbMark (s : State) (d : Nat) (t : Tlb) (e : Word) : State :=
  s.onDie d fun x => { x with tlb := x.tlb.map fun y => if y = t then { y with pte := e } else y }

/-- The leaf entry without A and D. -/
def bare (e : Word) : Word := e &&& ~~~0x300#64

/-- The next page of a stream is walked ahead (R325): no A or D, no fault, no page request. -/
def State.ahead (s : State) (w : Who) (k : Kind) (own port : Nat) (c0 c1 c2 : Word) (t : Tlb) : State :=
  let va := if w.down then t.va - 1 else t.va + t.size
  if (w.down && t.va == 0) || 2 ^ 56 ≤ va then s
  else if (s.die w.die).tlb.any fun x => x.own == own && x.ctx == w.ctx && x.va ≤ va && va < x.va + x.size then s
  else match s.walk w k port va c0 c1 c2 0 [4, 3, 2, 1, 0] (bits c0 12 40 * 4096) with
    | .ok l s =>
      let sz := leafBytes l.pte
      s.tlbNext w.die { own := own, ctx := w.ctx, va := va - va % sz, size := sz, pte := l.pte, at_ := l.at_ }
    | _ => s

/-- The leaf that an access uses (R324 to R326): one that its TLB holds, or that of a walk. Where the TLB holds entries that
differ from the tables, any of them may be used, or the tables. A and D are set in the entry that the walk read, before the
access, unless the cached entry has them. Answers whether the TLB gave it, with no walk. -/
def State.leafFor (s : State) (w : Who) (k : Kind) (port va : Nat) (c0 c1 c2 : Word) : Res (Tlb × Bool) :=
  let own := w.tlb k
  let mine := (s.die w.die).tlb.filter fun t => some t.own == own && t.ctx == w.ctx && t.va ≤ va && va < t.va + t.size
  let wk := s.walk w k port va c0 c1 c2 0 [4, 3, 2, 1, 0] (bits c0 12 40 * 4096)
  let fresh := fun t : Tlb => match wk with
    | .ok l _ => bare l.pte == bare t.pte
    | _ => false
  let old := mine.filter fun t => !fresh t
  let (j, s1) := if old.isEmpty then (0, s) else s.pick (old.length + 1)
  let upd := fun (s : State) (t : Tlb) =>
    let e := t.pte ||| 0x100 ||| (if k.w then 0x200 else 0)
    if !k.allowed t.pte || e = t.pte then (t, s) else ({ t with pte := e }, s.storeHome t.at_ (leBytes 8 (s.peekWord t.at_ ||| e &&& 0x300).toNat))
  let hit := if j = 0 then mine.find? fresh else old[j - 1]?
  match hit with
  | some t =>
    let (t', s) := upd s1 t
    let s := s.tlbMark w.die t t'.pte
    match own with
    | some n => if n < 1000 || ((s.die w.die).tlb.find? fun y => y.own == n) == some t' then .ok (t', true) s
        else .ok (t', true) ((s.tlbPut w.die n t').ahead w k n port c0 c1 c2 t')
    | none => .ok (t', true) s
  | none =>
    (if j = 0 then wk else s1.walk w k port va c0 c1 c2 0 [4, 3, 2, 1, 0] (bits c0 12 40 * 4096)).bind fun l s =>
      let sz := leafBytes l.pte
      let (t, s) := upd s { own := own.getD 0, ctx := w.ctx, va := va - va % sz, size := sz, pte := l.pte, at_ := l.at_ }
      if !k.allowed l.pte then .flt (xlFlt 0x12 k va l.pte l.lv) s
      else match own with
        | some n =>
          let s := s.tlbPut w.die n t
          .ok (t, false) (if n < 1000 then s else s.ahead w k n port c0 c1 c2 t)
        | none => .ok (t, false) s

/-- The context table lies where the die cannot read it: behind a host port that is down (R428), or past edges that no longer reach the port
(R403), or that train (R333). -/
def State.ctxLost (s : State) (d c : Nat) : Option (Kind → Nat → Res (Loc × Nat × Nat)) :=
  match tableLoc d 0 (bits (s.reg d 0x600) 12 40 * 4096 + 32 * c) with
  | some (.host p _) =>
    let pd := if p = 0 then 0 else 3
    if s.portsDown.contains p then some fun k va => .flt (xlFlt 0x18 k va 0 7) s
    else if !s.canReach d pd then some fun _ va => .flt (unreachable (bits (s.reg d 0x900) 0 16) pd (BitVec.ofNat 64 va)) s
    else if s.crossWaits d pd then some fun _ _ => .wait 0 0 s
    else none
  | _ => none

/-- Translate one virtual address (R320 to R331): the location, its attribute COH and how many bytes from there lie in the
same page. -/
def State.translate (s : State) (w : Who) (k : Kind) (va : Nat) : Res (Loc × Nat × Nat) :=
  match s.ctxLost w.die w.ctx, s.context w.die w.ctx with
  | some f, _ => f k va
  | none, none => .flt (xlFlt 0x14 k va 0 7) s
  | none, some (c0, c1, c2) =>
    let port := if c0.getLsbD 3 then 1 else 0
    (s.leafFor w k port va c0 c1 c2).bind fun (t, hit) s =>
      let e := t.pte
      if !k.allowed e then .flt (xlFlt 0x12 k va e 7) s
      else
        let lv := if hit then 7 else match leafSize (bits e 59 4) with | some (_, l) => l | none => 0
        let pa := pteAddr e + (va - t.va)
        let left := t.va + t.size - va
        let coh := bits e 5 2
        if pa < 0x3000000000 then .ok (.hbm w.die pa, coh, left) s
        else if pa < 0xF000000000000 then
          (s.hostXlate w k va e lv port (pa - 0xE000000000000) c0 c1 c2).bind fun (l, n) s =>
            .ok (l, coh, min n left) s
        else
          let o := pa - 0xF000000000000
          (s.peerXlate w k va e lv (o / 2 ^ 40) (o % 2 ^ 40)).bind fun (l, n) s => .ok (l, coh, min n left) s

/-- `s` with the page requests and ATS answers of `t`: a step that has to wait for a page request leaves only these, and is
made again (R331). -/
def State.keepWaits (s t : State) : State :=
  { s with
    choice := t.choice
    hostMap := t.hostMap
    dies := s.dies.map fun e =>
      (e.1, { e.2 with
        pri := (t.die e.1).pri
        nextP := (t.die e.1).nextP
        ats := (t.die e.1).ats }) }

/-- The state left by a part that did not succeed and is to be made again, or not at all. -/
def Res.orKeep {α : Type} (s : State) : Res α → State
  | .wait _ _ t => s.keepWaits t
  | _ => s

/-- The local window (R137): scratchpad, accumulator store, a reserved address of it, or no part of it. -/
inductive Win where
  | spad (o : Nat)
  | acc (o : Nat)
  | bad
  | out
  deriving DecidableEq, Repr

/-- Where `n` bytes at a virtual address stand toward the local window (R137). -/
def window (va n : Nat) : Win :=
  let n := max n 1
  if va + n ≤ 0xFF000000000000 then .out
  else if va < 0xFF000000000000 then .bad
  else if va + n ≤ 0xFF000000000000 + 0x400000 then .spad (va - 0xFF000000000000)
  else if 0xFF000100000000 ≤ va ∧ va + n ≤ 0xFF000100000000 + 0x180000 then .acc (va - 0xFF000100000000)
  else .bad

/-- The address fault 0x04/0x0001 (R137, R373). -/
def addrFlt (va : Word) (lane : Nat := 0) : Flt := { cls := 0x04, code := 1, addr := va, info := BitVec.ofNat 64 lane }

/-- The alignment fault 0x04/0x0002 (R373). -/
def alignFlt (va : Word) (lane : Nat := 0) : Flt := { cls := 0x04, code := 2, addr := va, info := BitVec.ofNat 64 lane }

/-- Locate an address of up to one line of bytes, in the window or by translation. -/
def State.locate (s : State) (w : Who) (k : Kind) (va n : Nat) : Res (Loc × Nat × Nat) :=
  if 2 ^ 56 ≤ va then .flt (addrFlt (BitVec.ofNat 64 va)) s
  else match window va n with
    | .bad => .flt (addrFlt (BitVec.ofNat 64 va)) s
    | .spad o => if w.raw then .flt (addrFlt (BitVec.ofNat 64 va)) s else .ok (.spad w.tile o, 0, 0x400000 - o) s
    | .acc o => if w.raw then .flt (addrFlt (BitVec.ofNat 64 va)) s else .ok (.acc w.tile o, 0, 0x180000 - o) s
    | .out => s.translate w k va

/-- An access that passes the L1s leaves no copy of its line in the L1 of its tile or, for a line of another die, in the L2 of
its own: what they hold dirty is written back. -/
def State.toHome (s : State) (w : Who) (l : Loc) (coh : Nat) : State :=
  if !w.home || !l.cachedOn w.die then s
  else if s.cohOf w.die l coh = 0 then
    if l.home = w.die then s else s.onDie w.die fun x => { x with l2 := Tab.del x.l2 l.line }
  else if w.raw then s else s.evictL1 (l1Tile w.fused w.tile l.line) l.line

/-- An access is made at the home of its line, past every cache: by the agents that pass the L1s, and by an engine without an
L1 where the page is not hardware-coherent, whose lines no other die's L2 holds (R248). -/
def State.atHome (s : State) (w : Who) (l : Loc) (coh : Nat) : Bool := w.home || (w.raw && s.cohOf w.die l coh != 0)

/-- What a read of `n` bytes of a line would take is poisoned (R393): the copy that serves it, or where none does the line at its home. -/
def State.viewBad (s : State) (w : Who) (l : Loc) (coh n : Nat) : Bool :=
  match if s.atHome w l coh then none else s.copyOf w.die w.tile w.fused l coh with
  | some c => c.bad || (s.marks.any fun a => a / 128 == l.line && !c.dirty.getD (a % 128) false)
  | none => s.poisoned l.key n || (!s.atHome w l coh && (s.die w.die).l1bad.contains (l1Tile w.fused w.tile l.line, l.line))

/-- A load from cache `src`, or at the home, has returned the early stores to its line that are outstanding and not newer than that
copy (R263). -/
def State.heard (s : State) (uid : Nat) (l : Loc) (src : Option Nat) : State :=
  let line := l.line
  if uid = 0 || 4 ≤ homeOf line || !(s.dies.any fun e => e.2.acks.any fun a => a.2.e && a.2.line == line) then s
  else { s with dies := s.dies.map fun e => (e.1, { e.2 with acks := e.2.acks.map fun a =>
      let old := match src with | some c => a.2.stale.contains c | none => false
      if a.2.e && a.2.line == line && !old then (a.1, { a.2 with read := insertNat a.2.read uid }) else a }) }

/-- The L2 that serves an agent's read of a line of another die, where it holds one (R248). -/
def State.servedBy (s : State) (w : Who) (l : Loc) (coh : Nat) : Option Nat :=
  if !s.atHome w l coh && s.cohOf w.die l coh == 0 && l.home != w.die && (Tab.find (s.die w.die).l2 l.line).isSome then some w.die else none

/-- The bytes of a line that an agent reads (R248 to R251, R257, R261). -/
def State.view (s : State) (w : Who) (l : Loc) (coh n : Nat) : List Byte × State :=
  let s := s.heard w.uid l (s.servedBy w l coh)
  if s.atHome w l coh then (s.peek l n, s) else s.loadLine w.die w.tile w.fused l coh n

/-- Read `n` bytes piece by piece, each piece within one line and one page; the fuel counts the pieces. -/
def State.readPieces (s : State) (w : Who) (k : Kind) (va : Nat) : Nat → Nat → List Byte → Res (List Byte)
  | 0, _, acc => .ok acc s
  | fuel + 1, n, acc =>
    if n = 0 then .ok acc s
    else
      (s.locate w k va (min n (128 - va % 128))).bind fun (l, coh, left) s =>
        let m := min (min n (128 - va % 128)) (max left 1)
        let gap := match l with
          | .spad t o => s.emptyLine t o m
          | _ => none
        match gap with
        | some e => .wait 4 e s
        | none =>
          let s := s.toHome w l coh
          if s.viewBad w l coh m then .flt (poisonFlt 1 (BitVec.ofNat 64 va)) s
          else
            let (b, s) := s.view w l coh m
            s.readPieces w k (va + m) fuel (n - m) (acc ++ b)

/-- Read `n` bytes at a virtual address. -/
def State.readVa (s : State) (w : Who) (k : Kind) (va n : Nat) : Res (List Byte) :=
  s.readPieces w k va (n / 128 + 2) n []

/-- Read a little-endian 64-bit word at a virtual address. -/
def State.readWord (s : State) (w : Who) (k : Kind) (va : Nat) : Res Word :=
  (s.readVa w k va 8).bind fun b s => .ok (BitVec.ofNat 64 (leNat b)) s

/-- The batch of a copy keeps the lines that the copy writes on pages that are not hardware-coherent (R275): the strand's L1
gives them up when it waits for the batch. -/
def State.noteLine (s : State) (w : Who) (l : Loc) (coh : Nat) : State :=
  if w.agent < copyAgent 0 || w.agent % 2 = 1 || s.cohOf w.die l coh = 0 then s
  else match Tab.find (s.die w.die).copies ((w.agent - copyAgent 0) / 2) with
    | none => s
    | some c => { s with dies := s.dies.map fun e => (e.1, { e.2 with batches := e.2.batches.map fun b =>
        if b.uid == c.uid && b.no == c.batch then { b with lines := insertNat b.lines l.line } else b }) }

/-- What a store of bytes leaves: how many bytes it performed, and the fault or wait that stopped it (R416). -/
def State.writePieces (s : State) (w : Who) (k : Kind) (e : Bool) (va : Nat) :
    Nat → List Byte → Nat → State × Nat × Option (Flt ⊕ (Nat × Nat))
  | 0, _, done => (s, done, none)
  | fuel + 1, b, done =>
    if b.isEmpty then (s, done, none)
    else
      match s.locate w k va (min b.length (128 - va % 128)) with
      | .flt f s => (s, done, some (.inl f))
      | .wait c o s => (s, done, some (.inr (c, o)))
      | .ok (l, coh, left) s =>
        let m := min (min b.length (128 - va % 128)) (max left 1)
        let s := (s.toHome w l coh).storeLine w.die w.tile w.fused l (if w.raw || w.home then 0 else coh) e w.uid (BitVec.ofNat 64 va)
          (b.take m)
        let s := s.noteLine w l coh
        s.writePieces w k e (va + m) fuel (b.drop m) (done + m)

/-- Write bytes at a virtual address, whole or with the fault that stopped it. -/
def State.writeVa (s : State) (w : Who) (k : Kind) (va : Nat) (b : List Byte) (e : Bool := false) : Res Unit :=
  match s.writePieces w k e va (b.length / 128 + 2) b 0 with
  | (s, _, none) => .ok () s
  | (s, _, some (.inl f)) => .flt f s
  | (s, _, some (.inr (c, o))) => .wait c o s

/-- Write a 64-bit word at a virtual address. -/
def State.writeWord (s : State) (w : Who) (k : Kind) (va : Nat) (v : Word) : Res Unit :=
  s.writeVa w k va (leBytes 8 v.toNat)

/-- One indivisible read-modify-write at an address's point of performance (R151, R246): the old value. The L1 of the tile
keeps no copy of the line. No atomic is made in the accumulator store (R137). -/
def State.rmw (s : State) (w : Who) (va : Word) (n : Nat) (e : Bool) (f : Nat → Nat) : Res Nat :=
  (s.locate w kAtomic va.toNat n).bind fun (l, coh, _) s =>
    let s := s.toHome { w with home := !w.raw } l coh
    if (match l with | .acc _ _ => true | _ => false) then .flt (addrFlt va) s
    else if s.poisoned l.key n then .flt (poisonFlt 1 va) s
    else
      let s := s.heard w.uid l none
      let m := s.peekNat l n
      .ok m (s.storeLine w.die w.tile w.fused l 0 e w.uid va (leBytes n (f m)))

end Sys2Proof.Machine
end

