-- ==== Sys2Proof/Machine/Ops.lean ====
section
/-! DEFINITION. Operations over strands, records and launches that many meanings share, and taking a fault:
stopping a strand, the full-context save, delivery of the record, the end of a launch (R23, R27, R305,
R361 to R368, R383 to R388), and the return from a fault (R389 to R391). -/

namespace Sys2Proof.Machine

/-- The scheduling fields of a row. -/
def insHdr (i : Instr) : Hdr :=
  match i.cell with
  | some (_, _, f) => formHdr f
  | none => ⟨0, false, 0, 0⟩

/-- The class number of a program word (R73); 7 for other rows. -/
def insCls (i : Instr) : Nat :=
  match i.cell with
  | some (c, _, _) => c
  | none => 7

/-- Words brought to a length. -/
def padWords (n : Nat) (l : List Word) : List Word := (l ++ List.replicate (n - l.length) 0).take n

/-- The launches of a die under their numbers. -/
def State.launch (s : State) (d no : Nat) : Option Launch := Tab.find (s.die d).launches no

/-- Place a launch. -/
def State.setLaunch (s : State) (d : Nat) (l : Launch) : State :=
  s.onDie d fun x => { x with launches := Tab.put x.launches l.no l }

/-- Change a launch, where it exists. -/
def State.onLaunch (s : State) (d no : Nat) (f : Launch → Launch) : State :=
  match s.launch d no with
  | none => s
  | some l => s.onDie d fun x => { x with launches := Tab.put x.launches no (f l) }

/-- A word of a launch record (R308). -/
def Launch.word (l : Launch) (i : Nat) : Word := l.lr.getD i 0

/-- FUSE, SPAN, CLASS of a launch record (R308): fused L1s, spanning, latency class. -/
def Launch.fused (l : Launch) : Bool := (l.word 0).getLsbD 5
/-- SPAN (R308). -/
def Launch.span (l : Launch) : Bool := (l.word 0).getLsbD 6
/-- CLASS: latency (R308, R45). -/
def Launch.latency (l : Launch) : Bool := (l.word 0).getLsbD 4

/-- Change a stage of a launch. -/
def State.onStage (s : State) (d no st : Nat) (f : Stage → Stage) : State :=
  s.onLaunch d no fun l => { l with stages := l.stages.modify st f }

/-- The die, tile of the package and slot in the tile of a slot. -/
def slotDie (k : Nat) : Nat := k / 192
/-- The tile of the package that a slot belongs to. -/
def slotTile (k : Nat) : Nat := k / 8

/-- The L1s of a tile's cluster are fused (R33): a launch with FUSE occupies it. While they are, no tile of the cluster has a private
L1, whichever launch its strands belong to. -/
def State.fusedAt (s : State) (t : Nat) : Bool :=
  (s.die (t / 24)).launches.any fun l => l.2.fused && l.2.tiles.any fun u => u / 6 == t / 6

/-- Who a strand's accesses are made by. -/
def State.whoOf (s : State) (k : Nat) (st : Strand) : Who :=
  let d := slotDie k
  { die := d, ctx := (match s.launch d st.id.launch with | some l => l.ctx | none => 65536), tile := slotTile k,
    fused := s.fusedAt (slotTile k), agent := k, uid := st.id.uid }

/-- Who the command processor's accesses for a context are made by. -/
def cpWho (d ctx : Nat) : Who := { die := d, ctx := ctx, tile := d * 24, agent := 2000 + d, raw := true }

/-- The time counter of a die's replica, with its 16-bit fraction (R136, R231). -/
def State.clock (s : State) (d : Nat) : Nat := ((s.time : Int) + (s.die d).lag).toNat

/-- The time counter of a die's replica in integer nanoseconds (R130). -/
def State.ns (s : State) (d : Nat) : Nat := s.clock d / 65536

/-- A register x as a source; x0 reads zero (R75). -/
def Strand.xr (st : Strand) (n : Nat) : Word := if n = 0 then 0 else Cells.get st.x n

/-- Write a register x; a write to x0 is discarded (R75). -/
def Strand.setX (st : Strand) (n : Nat) (v : Word) : Strand := if n = 0 then st else { st with x := Cells.set st.x n v }

/-- A register g as a source; g0 reads zero (R75). -/
def Strand.gr (st : Strand) (n : Nat) : Word := if n = 0 then 0 else Cells.get st.g n

/-- Write a register g; a write to g0 is discarded (R75). -/
def Strand.setG (st : Strand) (n : Nat) (v : Word) : Strand := 
  if n = 0 then st
  else { st with g := Cells.set st.g n v, bad := st.bad.filter (· != 64 + n) }

/-- An engine queue: 0 S, 1 A, 2 V, 3 M, 4 F, 5 Y (R77). -/
def Strand.queue (st : Strand) (c : Nat) : List QWord := Tab.getD st.eq c []

/-- Replace an engine queue. -/
def Strand.setQueue (st : Strand) (c : Nat) (l : List QWord) : Strand := { st with eq := Tab.put st.eq c l }

/-- An engine's clock (R81). -/
def Strand.engine (st : Strand) (c : Nat) : Eng := Tab.getD st.eng c {}

/-- A queue q0 to q7. -/
def Strand.qs (st : Strand) (n : Nat) : List Vec := Tab.getD st.q n []
/-- A queue w0 to w3. -/
def Strand.ws (st : Strand) (n : Nat) : List Vec := Tab.getD st.w n []

/-- Words of a queue descriptor in the table of CQ.BASE (R300), in the die's HBM or in host memory (R319, R428). -/
def State.qdescLoc (s : State) (d q : Nat) : Loc :=
  let pa := bits (s.reg d 0x300) 12 40 * 4096 + 64 * q
  (tableLoc d 0 pa).getD (.hbm d pa)
/-- The home of a queue descriptor cannot be reached (R404, R420, R428). -/
def State.qdescCut (s : State) (d q : Nat) : Bool :=
  let l := s.qdescLoc d q
  !s.canReach d l.home || match l with
    | .host p _ => s.portsDown.contains p
    | _ => false
/-- A queue descriptor cannot be read or written: its queue is to be broken (R420), from its bind on where it lies behind a port that is
down (R428; DEDUCED, log 103). -/
def State.qdescBad (s : State) (d q : Nat) : Bool := s.poisoned (s.qdescLoc d q).key 64 || s.qdescCut d q
/-- A word of a queue descriptor. -/
def State.qdesc (s : State) (d q i : Nat) : Word := s.peekWord ((s.qdescLoc d q).add (8 * i))
/-- Write a word of a queue descriptor, where it can be reached. -/
def State.setQdesc (s : State) (d q i : Nat) (v : Word) : State :=
  if s.qdescCut d q then s else s.storeHome ((s.qdescLoc d q).add (8 * i)) (leBytes 8 v.toNat)

/-- The context of a queue (R300). -/
def State.qctx (s : State) (d q : Nat) : Nat := bits (s.qdesc d q 4) 0 16

/-- The address of record i of a queue (R300). -/
def State.recAddr (s : State) (d q i : Nat) : Nat :=
  (s.qdesc d q 0).toNat + 64 * (i % 2 ^ (bits (s.qdesc d q 1) 0 4 + 4))

/-- amo.inc.n64.rel.sy of a signal word (R305), one atomic at its home (R246). -/
def State.bumpWord (s : State) (w : Who) (va : Nat) : Res Unit :=
  if va % 8 ≠ 0 then .flt (alignFlt (BitVec.ofNat 64 va)) s
  else (s.rmw w (BitVec.ofNat 64 va) 8 false fun v => (v + 1) % 2 ^ 64).bind fun _ s => .ok () s

/-- The state a part ends in, whatever became of it. -/
def Res.st {α : Type} : Res α → State
  | .ok _ s => s
  | .flt _ s => s
  | .wait _ _ s => s

/-- The value of a part that succeeded. -/
def Res.val {α : Type} : Res α → Option α
  | .ok a _ => some a
  | _ => none

/-- The fault of a part that failed. -/
def Res.err {α : Type} : Res α → Option Flt
  | .flt f _ => some f
  | _ => none

/-- Write one record to the host fault queue of a die (R368), with the record's LOST bit; answers the
physical address written, or none where the record was dropped. -/
def State.hostRecord (s : State) (d : Nat) (ws : List Word) : State × Option Nat :=
  let ctl := s.reg d 0xB08
  let ptr := s.reg d 0xB10
  let n := 2 ^ (min (bits ctl 4 4) 12 + 4)
  let tail := bits ptr 32 32
  let used := (tail + 2 ^ 32 - bits ptr 0 32) % 2 ^ 32
  let pa := bits (s.reg d 0xB00) 6 46 * 64 + 64 * (tail % n)
  let port := if (s.half d).contains 0 then 0 else 1
  let loc := match tableLoc d port pa with
    | some (.host p a) =>
      if s.portsDown.contains p || !(s.half d).contains (Loc.host p a).home then none else some (Loc.host p a)
    | x => x
  match ctl.getLsbD 0 && used < n, loc with
  | true, some l =>
    let w0 := (ws.headD 0) ||| 4 ||| (if (s.die d).lostNext then 8 else 0)
    let s := s.storeHome l ((w0 :: ws.drop 1).flatMap fun w => leBytes 8 w.toNat)
    ((s.setField d 0xB10 32 32 (tail + 1)).onDie d fun x => { x with lostNext := false }, some pa)
  | _, _ =>
    let s := (s.bumpField d 0xB08 16 16 1).setField d 0xB08 3 1 1
    (s.onDie d fun x => { x with lostNext := true }, none)

/-- What a fault record names beside the fault (R364); `ns`: when a strand's fault was detected. -/
structure Site where
  tag   : Nat := 0
  die   : Nat
  tile  : Nat := 31
  slot  : Nat := 0
  sid   : Word := 0
  pc    : Word := 0
  crec  : Word := 0
  oprec : Word := 0
  precise : Bool := false
  ns    : Option Nat := none
  deriving DecidableEq, Repr

/-- The eight words of a fault record (R364). -/
def State.faultRecord (s : State) (f : Flt) (x : Site) : List Word :=
  [wordOf [(f.cls % 256, 56), (f.code % 65536, 40), (x.tag % 65536, 24), (x.die % 4, 22), (x.tile % 32, 17),
      (x.slot % 8, 14), (f.src % 16, 8), (f.defer.toNat, 1), ((x.precise && !f.defer).toNat, 0)],
    x.sid, x.pc, BitVec.ofNat 64 (f.addr.toNat % 2 ^ 56), x.crec, x.oprec, f.info, BitVec.ofNat 64 (x.ns.getD (s.ns x.die))]

/-- A record against no strand goes to the host fault queue of its die (R365). -/
def State.hostFault (s : State) (d : Nat) (f : Flt) (tag : Nat := 0) (oprec : Word := 0) : State :=
  (s.hostRecord d (s.faultRecord f { die := d, tag := tag, oprec := oprec })).1

/-- The words of a continuation record (R23). -/
def Strand.record (st : Strand) (full : Bool) (pc : Word) : List Word :=
  wordOf [(st.sp.toNat, 56), (full.toNat, 55), (st.id.cls.toNat, 53), (bits pc 3 53, 0)] ::
    (upFrom 2 7).map st.xr

/-- The device's own accesses for the strand in a slot, to its record and save area: made at their home, past the L1s, so that any
tile finds what was written (R23, R27). -/
def State.recWho (s : State) (k : Nat) (st : Strand) : Who := { s.whoOf k st with uid := 0, home := true }

/-- Write a continuation record whole (R23). -/
def State.writeRecord (s : State) (k : Nat) (st : Strand) (full : Bool) (pc : Word) : Res Unit :=
  s.writeVa (s.recWho k st) kStore st.id.crec.toNat
    ((st.record full pc).flatMap fun w => leBytes 8 w.toNat)

/-- STATUS of a record, then its signal where SIGEN is 1 and its address is aligned (R305). A STATUS that cannot be written
is a fault of the ring (R420); a signal that faults is dropped. -/
def State.statusOut (s : State) (d q idx : Nat) (ws : List Word) (status : Nat) : Res Unit :=
  let w := cpWho d (s.qctx d q)
  (s.writeWord w kStore (s.recAddr d q idx + 48) (BitVec.ofNat 64 status)).bind fun _ s =>
    if (ws.getD 0 0).getLsbD 10 then
      match s.bumpWord w (ws.getD 7 0).toNat with
      | .wait c o t => .wait c o t
      | r => .ok () r.st
    else .ok () s

/-- Retire a record (R305), with the status that a flush or a broken queue gave it where there is one; the record leaves
its queue slot, once no write of its status waits for a page request. -/
def State.retireRec (s : State) (d c idx status : Nat) : State :=
  match Tab.find (s.die d).qslots c with
  | none => s
  | some q =>
    match q.recs.find? fun r => r.idx == idx with
    | none => s
    | some r =>
      let status := if r.abort = 0 then status else r.abort
      let gone := fun (s : State) (bad : Bool) => s.onDie d fun x =>
        { x with qslots := Tab.put x.qslots c { q with recs := q.recs.filter fun y => y.idx != idx, bad := q.bad || bad } }
      match s.statusOut d q.q idx r.words status with
      | .flt _ s => gone s true
      | .ok _ s => gone s false
      | .wait _ _ t => (s.keepWaits t).onDie d fun x =>
          { x with qslots := Tab.put x.qslots c { q with recs := q.recs.map fun y => if y.idx = idx then { y with done := status } else y } }

/-- The records of a die whose status still has to be written retire (R305). -/
def State.retireAgain (s : State) (d : Nat) : State :=
  ((s.die d).qslots.flatMap fun e => (e.2.recs.filter fun r => r.done != 0).map fun r => (e.1, r)).foldl
    (fun (s : State) (e : Nat × Rec) => s.retireRec d e.1 e.2.idx e.2.done) s

/-- The barriers that a launch owns on the tiles of its die lose their owner, and keep the rest (R218, R359; DEDUCED, log 91). -/
def State.freeBars (s : State) (d no : Nat) : State :=
  { s with tiles := s.tiles.map fun e =>
      if e.1 / 24 = d then
        (e.1, { e.2 with bars := e.2.bars.map fun b =>
          if b.2.owner = some no then (b.1, { b.2 with owner := none }) else b })
      else e }

/-- The words of a launch context's current bank (R311): the launch record, N and BATCH of the operator record, its address, and
STATE. -/
def Launch.bank (l : Launch) (n : Word) (status : Nat) (run : Bool) : List Word :=
  padWords 8 l.lr ++ [n, l.batch, l.oprec, wordOf [(l.created % 2 ^ 32, 16), (status, 8), ((run && l.bwait).toNat, 2), (run.toNat, 1)]]

/-- The last steps of ending a launch (R310, R367 steps 3 and 4): its fused L1s, barriers, domains, slots and waits are
freed, and its operator record retires. A die that is being reset writes no line back (R402). -/
def State.closeLaunch (s : State) (d no status : Nat) : State :=
  match s.launch d no with
  | none => s
  | some l =>
    let s := if l.fused && (s.die d).quiesce.isNone then
        (l.tiles.flatMap fun t => upFrom (t / 6 * 6) 6).foldl (fun (s : State) u => s.flushL1 u [1, 2]) s
      else s
    let s := s.freeBars d no
    let s := s.onDie d fun x =>
      { x with
        assign := x.assign.filter fun a => a.2.1 != no
        doms := Tab.del x.doms no
        batches := x.batches.filter fun b => b.launch != no
        pri := x.pri.filter fun p => !(p.left == some no || (x.assign.any fun a => a.1 == p.slot && a.2.1 == no) ||
          l.blocked.any fun b => p.slot == awayAgent b.e.id.uid)
        launches := Tab.del x.launches no }
    match (Tab.find (s.die d).qslots l.cslot).bind fun q => q.recs.find? fun r => r.launch == some no with
    | some r =>
      (s.onDie d fun x => { x with banks := Tab.put x.banks l.cslot (l.bank (r.words.getD 2 0) status false) }).retireRec d l.cslot r.idx status
    | none => s

/-- The slots that hold a strand of a launch of a die. -/
def State.slotsOf (s : State) (d no : Nat) : List Nat :=
  (s.strands.filter fun e => slotDie e.1 = d && e.2.id.launch = no).map (·.1)

/-- The members of a die group, each once, in member order (R13, R47). -/
def groupOf (g : Nat) : List Nat := (dedup (Config.groupMembers g).reverse).reverse

/-- The launches of the other dies that are members of a spanning launch (R47, R367). -/
def State.peersOf (s : State) (d : Nat) (l : Launch) : List (Nat × Nat) :=
  if l.span then
    [0, 1, 2, 3].flatMap fun e => if e = d then [] else
      ((s.die e).launches.filter fun x => x.2.span && x.2.sp == l.sp && x.2.ending.isNone).map fun x => (e, x.1)
  else []

/-- The access that stopped a strand stands at the head of its store queue. -/
def Strand.isStuck (st : Strand) : Bool :=
  match st.stop with
  | some p => p.stuck
  | none => false

/-- The chain that a tile is in ends for every member, when the run of one of them ends (R205). -/
def State.endChain (s : State) (t : Nat) : State :=
  match (s.tile t).chain with
  | none => s
  | some c => (upFrom (t - c.pos) c.len).foldl (fun s u => s.onTile u fun x => { x with chain := none }) s

/-- A unit of a strand waits no longer. -/
def Strand.unwaits (st : Strand) (c : Nat) : Strand := { st with waits := Tab.del st.waits c }

/-- The last wait of the strand in a slot has ended: its wait register shows CAUSE 0 from now on (R424). -/
def State.idled (s : State) (k : Nat) (b : Bool) : State :=
  if b then { s with idle := Tab.put s.idle k (s.ns (slotDie k) / 1000) } else s

/-- Some of these waits has a cause that the wait register names (R424). -/
def visible (l : Tab Stall) : Bool := l.any fun w => w.2.cause < 12

/-- The wait that a strand ends as unit `c` goes on is the last that its wait register shows. -/
def Strand.lastWait (st : Strand) (c : Nat) : Bool := visible st.waits && !visible (Tab.del st.waits c)

/-- The cause for which a unit of a strand waits; 0 none. -/
def Strand.causeAt (st : Strand) (c : Nat) : Nat := match Tab.find st.waits c with | some x => x.cause | none => 0

/-- A strand leaves its slot; the slot becomes idle (R28). -/
def State.vacate (s : State) (k : Nat) : State :=
  let s := s.idled k (match s.strand k with | some st => visible st.waits | none => false)
  let s := if (match s.strand k with | some st => st.held | none => false) then s.endChain (slotTile k) else s
  let tiles := match Tab.find s.tiles (slotTile k) with
    | some t =>
      let l := if t.lessee = some k then none else t.lessee
      Tab.put s.tiles (slotTile k) { t with lessee := l, round := t.round.filter (· != k), served := t.served.filter (· != k) }
    | none => s.tiles
  let no := (s.strand k).map (·.id.launch)
  { s with strands := Tab.del s.strands k, tiles := tiles }.onDie (slotDie k) fun x =>
    { x with
      disp := x.disp.filter fun y => y.slot != k
      pri := x.pri.filterMap fun (p : Pri) =>
        if p.slot = k && p.left.isNone then (if p.ans.isSome then none else some { p with left := no }) else some p }

/-- The L1s that hold lines for a tile: its own, or the six slices of its cluster where fused (R33). -/
def l1sOf (fused : Bool) (t : Nat) : List Nat := if fused then upFrom (t / 6 * 6) 6 else [t]

/-- A line of these L1s that is to be written back would cross an edge that retrains (R333): it waits. -/
def State.backWaits (s : State) (ts : List Nat) (cohs : List Nat) : Bool :=
  (s.edges.any fun e => e.2.train.isSome) && ts.any fun t => (s.tile t).l1.any fun c =>
    cohs.contains c.2.coh && c.2.dirty.any id && homeOf c.1 < 4 && s.crossWaits (t / 24) (homeOf c.1)

/-- The launch's writes are released at .dd where it retires, and at .sy where it is ended (R272, R310, R367): the L1s of its tiles write their software-managed lines back. -/
def State.releaseLaunch (s : State) (l : Launch) : State :=
  (l.tiles.flatMap fun t => l1sOf (s.fusedAt t) t).foldl (fun (s : State) t => s.cleanL1 t [1]) s

/-- Take the strands of an ending launch out of their slots once their store queues are empty, and close it when no
strand and no accepted copy of it is left, and every store of its strands and every early store that they read has been acknowledged
(R367 steps 2 and 4). A die that is being reset writes no line back (R402). -/
def State.drainEnd (s : State) (d no : Nat) : State :=
  match s.launch d no with
  | none => s
  | some l =>
    match l.ending with
    | none => s
    | some status =>
      let gone := fun e : Nat × Strand => slotDie e.1 = d && e.2.id.launch = no && (e.2.sq.isEmpty || e.2.isStuck)
      let s := (s.strands.filter gone).foldl (fun s e => s.vacate e.1) s
      let busy := (s.die d).copies.any fun c => c.2.launch == no && c.2.job.isNone
      let acks := s.dies.any fun e => e.2.acks.any fun a => !a.2.lost && l.dying.any fun u => a.2.uid == u || a.2.read.contains u
      let wait := (s.die d).quiesce.isNone && (acks || s.backWaits (l.tiles.flatMap fun t => l1sOf (s.fusedAt t) t) [1, 2])
      if (s.slotsOf d no).isEmpty && !busy && !wait then
        (if (s.die d).quiesce.isSome then s else s.releaseLaunch l).closeLaunch d no status
      else s

/-- Stop one launch on one die for its end (R367 steps 1 and 2). -/
def State.stopLaunch (s : State) (d no status : Nat) : State :=
  let mark := fun st : Strand =>
    { st with
      stop := some { f := { cls := 0, code := 0 }, pc := 0, ended := true, stuck := st.isStuck }
      lq := []
      land := []
      mq := []
      susp := none
      sq := if st.causeAt 8 = 11 then st.sq.drop 1 else st.sq }
  let f := fun e : Nat × Strand => if slotDie e.1 = d && e.2.id.launch = no then (e.1, mark e.2) else e
  let own := (s.strands.filter fun e => slotDie e.1 = d && e.2.id.launch = no).map fun e => e.2.id.uid
  let s := { s with strands := s.strands.map f }
  let s := s.onLaunch d no fun l =>
    { l with
      ending := some status
      dying := own ++ l.blocked.map (·.e.id.uid) ++ l.stopped.map (·.1.id.uid) ++ l.stages.flatMap fun g => g.ready.map (·.id.uid)
      blocked := []
      stopped := []
      stages := l.stages.map fun g => { g with ready := [], puts := [], takes := [] } }
  s.drainEnd d no

/-- Launches ended one after another with one status. -/
def State.stopLaunches (s : State) (status : Nat) : List (Nat × Nat) → State
  | [] => s
  | (d, no) :: l => (s.stopLaunch d no status).stopLaunches status l

/-- A launch ends with a status, on every member where it spans (R367); a member that has not begun it retires its operator
with the same status when it would begin. -/
def State.stopSpan (s : State) (d no status : Nat) : State :=
  match s.launch d no with
  | none => s
  | some l =>
    let late := if l.span then (groupOf l.group).filter fun e => e < 4 && !l.met.contains e else []
    let s := late.foldl (fun (s : State) e => s.onDie e fun x => { x with lapsed := x.lapsed ++ [(l.group, status)] }) s
    s.stopLaunches status ((d, no) :: s.peersOf d l)

/-- End a launch on its die, and on every member where it spans (R367): the class 0x0B record with `code`,
unless `code` is 0, after the original record where there is one, whose CREC is 0 as in every record of an ending. -/
def State.endLaunch (s : State) (d no code : Nat) (orig : Option (List Word)) : State :=
  match s.launch d no with
  | none => s
  | some l =>
    if l.ending.isSome then s
    else
      let (s, pa) := match orig with
        | some ws => s.hostRecord d (ws.set 4 0)
        | none => (s, none)
      let lost := orig.isSome && pa.isNone
      let s := if code = 0 then s
        else
          let s := if lost then s.onDie d fun x => { x with lostNext := true } else s
          (s.hostRecord d (s.faultRecord { cls := 0x0B, code := code, info := BitVec.ofNat 64 (pa.getD 0) }
            { die := d, tag := l.tag, oprec := l.oprec })).1
      let status := if code = 6 then 4 else 3
      s.stopSpan d no status

/-- A list of bytes brought to a length. -/
def padTo (n : Nat) (l : List Byte) : List Byte := (l ++ List.replicate (n - l.length) 0).take n

/-- Words as bytes. -/
def wordBytes (l : List Word) : List Byte := l.flatMap fun w => leBytes 8 w.toNat

/-- DOM_MEMBER of a strand (R35). -/
def Ident.domMember (i : Ident) : Word :=
  wordOf [(i.inst.toNat, 8), (i.joined.toNat, 2), (i.level.toNat, 0)]

/-- LEASE_STATE of a strand (R129). -/
def Strand.lease (st : Strand) : Word := wordOf [(st.held.toNat, 7), (st.remain, 0)]

/-- The last issue vc of an engine, all ones for vc -1 (R387). -/
def Strand.lastWord (st : Strand) (c : Nat) : Word :=
  match (st.engine c).last with
  | some t => BitVec.ofNat 64 t
  | none => BitVec.allOnes 64

/-- The token queue from engine P to engine C, with engines as in R386: S 0, A 1, V 2, M 3, F 4. -/
def tokKey (p c : Nat) : Nat := 4 * p + (if c < p then c else c - 1)

/-- WA of a Y word (R213). -/
def yWA (a : IForm) : Nat := a.fd.toNat % 16
/-- SUBA of a Y word. -/
def ySA (a : IForm) : Nat := a.fd.toNat / 16
/-- WB of a Y word. -/
def yWB (a : IForm) : Nat := a.fa.toNat % 16
/-- SUBB of a Y word. -/
def ySB (a : IForm) : Nat := a.fa.toNat / 16

/-- The barrier index of a barrier word (R213). -/
def barId (a : IForm) : Nat := a.imm.toNat % 2048

/-- The phase field of a barrier word (R220). -/
def phaseField (v : Word) (b : Nat) : Nat := bits v (2 * b) 2

/-- The phase field that a barrier word names (R220). -/
def Strand.barField (st : Strand) (a : IForm) : Nat := phaseField (st.xr (yWA a)) (a.i 11 5)

/-- A barrier of a tile. -/
def State.bar (s : State) (t id : Nat) : Bar := Tab.getD (s.tile t).bars id {}

/-- The phase that a strand last arrived for has not completed (R221); a wait that a completion has released stands at 4. -/
def barWaits (b : Bar) (f : Nat) : Bool := f < 4 && ((f + 4 - b.phase) % 4 == 1 || (f + 4 - b.phase) % 4 == 2)

/-- The barrier that the strand in a slot of a tile waits at (R32): a holding-form wait whose phase has not completed, or
an arrival held by the barrier's lead (R220). -/
def State.waitsBar (s : State) (t : Nat) (st : Strand) : Option Nat :=
  let at_ := fun a : IForm => match st.target with
    | some f => if barWaits (s.bar t (barId a)) f then some (barId a) else none
    | none => if st.causeAt 5 == 8 && (st.barField a + 4 - (s.bar t (barId a)).phase) % 4 == 2 then some (barId a) else none
  match (st.queue 5).head? with
  | some w => match w.ins with
    | .barWait a => at_ a
    | .barArrwait a => at_ a
    | .barArrive a => at_ a
    | _ => none
  | none => none

/-- The strands blocked off their slots at barriers of a tile: barrier and strand. -/
def State.blockedAt (s : State) (t : Nat) : List (Nat × Ident) :=
  (s.die (t / 24)).launches.flatMap fun l => l.2.blocked.filterMap fun b => match b.w with
    | .bar u id f => if u = t && barWaits (s.bar t id) f then some (id, b.e.id) else none
    | _ => none

/-- The strands in the slots of a tile. -/
def State.resident (s : State) (t : Nat) : List (Nat × Strand) :=
  (upFrom (8 * t) 8).filterMap fun k => (s.strand k).map fun st => (k, st)

/-- A waiter at a barrier of a tile (R32): the strand, the barrier and its effective class. -/
structure Waiter where
  id  : Ident
  bar : Nat
  cls : Nat
  deriving DecidableEq, Repr

/-- The waiters at the barriers of a tile; `own` gives the class that a strand off its slot has, `cls` that of the strand in a slot. -/
def State.waiters (s : State) (t : Nat) (own : Ident → Nat) (cls : Tab Nat) : List Waiter :=
  (s.blockedAt t).map (fun w => ⟨w.2, w.1, own w.2⟩) ++
    (s.resident t).filterMap fun e => (s.waitsBar t e.2).map fun id => ⟨e.2.id, id, Tab.getD cls e.1 3⟩

/-- The strand in a slot of a tile takes the class of a waiter at a barrier of its launch where the slot's mark is clear (R32, R222). -/
def State.takes (s : State) (t : Nat) (e : Nat × Strand) (w : Waiter) : Bool :=
  let b := s.bar t w.bar
  w.id.launch == e.2.id.launch && b.owner == some w.id.launch && !b.mcur.getLsbD (e.1 % 8)

/-- One round of inheritance on a tile (R32): each resident takes the lowest class of the waiters it inherits from. -/
def State.effRound (s : State) (t : Nat) (own : Ident → Nat) (cls : Tab Nat) : Tab Nat :=
  let ws := s.waiters t own cls
  (s.resident t).map fun e => (e.1, ws.foldl (fun c w => if s.takes t e w then min c w.cls else c) (Tab.getD cls e.1 3))

/-- The effective classes of a tile's slots (R29): transitive over its eight strands. -/
def State.effsBy (s : State) (t : Nat) (own : Ident → Nat) : Tab Nat :=
  (upFrom 0 8).foldl (fun c _ => s.effRound t own c) ((s.resident t).map fun e => (e.1, own e.2.id))

/-- The class of a strand with what it keeps from those that waited at a barrier before it left a slot (R29, R32): each inheritance
lasts as long as that wait and the barrier's phase. The fuel bounds how far one such strand inherits from another. -/
def State.classOf (s : State) : Nat → Ident → Nat
  | 0, i => i.cls.toNat
  | n + 1, i => i.inh.foldl (fun c b =>
      ((s.waiters b.1 (s.classOf n) (s.effsBy b.1 (s.classOf n))).filter fun w => w.bar == b.2.1 && w.id.uid == b.2.2).foldl
        (fun c w => min c w.cls) c) i.cls.toNat

/-- The effective class of a strand off its slot (R28, R29). -/
def State.entryCls (s : State) (i : Ident) : Nat := s.classOf 4 i

/-- The effective classes of a tile's slots (R29). -/
def State.effs (s : State) (t : Nat) : Tab Nat := s.effsBy t s.entryCls

/-- EFF of the strand in a slot (R29). -/
def State.eff (s : State) (k : Nat) : Nat := Tab.getD (s.effs (slotTile k)) k 3

/-- The strand in a slot as it leaves it: the tile, and those from whom it inherits (R29, R32). -/
def State.leaving (s : State) (k : Nat) (st : Strand) : Ident :=
  let t := slotTile k
  let new := ((s.waiters t s.entryCls (s.effs t)).filter (s.takes t (k, st))).map fun w => (t, w.bar, w.id.uid)
  { st.id with tile := t, inh := new ++ st.id.inh.filter fun b => !new.contains b }

/-- Inheritance that `f` names ends for every strand, in a slot or off it (R32). -/
def State.uninherit (s : State) (f : Nat × Nat × Nat → Bool) : State :=
  let cut := fun i : Ident => if i.inh.any f then { i with inh := i.inh.filter fun b => !f b } else i
  let ent := fun e : Entry => { e with id := cut e.id }
  { s with
    strands := s.strands.map fun e => (e.1, { e.2 with id := cut e.2.id })
    dies := s.dies.map fun x => (x.1, { x.2 with launches := x.2.launches.map fun l => (l.1, { l.2 with
      blocked := l.2.blocked.map fun b => { b with e := ent b.e }
      stopped := l.2.stopped.map fun p => (ent p.1, p.2)
      stages := l.2.stages.map fun g => { g with ready := g.ready.map ent } }) }) }

/-- PRIO as read (R29). -/
def State.prioWord (s : State) (k : Nat) (st : Strand) : Word :=
  let e := s.eff k
  wordOf [((e != st.id.cls.toNat).toNat, 4), (e % 4, 2), (st.id.cls.toNat, 0)]

/-- The control block (R387). -/
def Strand.controlBlock (s : State) (k : Nat) (st : Strand) (sp : Stop) : List Word :=
  let t := s.tile (slotTile k)
  let mine := fun (p : Option Plane) (r : Option (Word × Nat)) =>
    if st.want then r else if st.held || !st.mq.isEmpty then p.map fun p => (p.fw, p.line) else none
  let mineA := mine t.active st.reA
  let mineS := mine t.shadow st.reS
  let pl := fun p : Option (Word × Nat) => match p with
    | some p => [p.1, BitVec.ofNat 64 p.2]
    | none => [0, 0]
  let cnt := fun (l : List Nat) (w : Nat) => BitVec.ofNat 64 (packNat w (fun i => l.getD i 0) l.length)
  [wordOf [(1, 56), (sp.feng % 8, 53), (st.mq.length, 45), (min st.land.length 32, 39), (st.lq.length, 34),
      (st.sq.length, 29)],
    wordOf [(bits st.pc 3 53, 3)], BitVec.ofNat 64 st.now,
    st.lastWord 0, st.lastWord 2, st.lastWord 3, st.lastWord 4,
    wordOf [((Cells.get st.lc 0).toNat, 0), ((Cells.get st.lc 1).toNat, 32)],
    wordOf [((Cells.get st.lc 2).toNat, 0), ((Cells.get st.lc 3).toNat, 32)],
    wordOf [(st.sp.toNat, 56), (st.rmode, 8), (st.base.toNat, 0)],
    s.prioWord k st, st.id.domMember, st.id.cause, st.id.tpc, st.id.taddr,
    st.lease ||| wordOf [(mineA.isSome.toNat, 8), (mineS.isSome.toNat, 9)]] ++ pl mineA ++ pl mineS ++
  [cnt ((upFrom 0 8).map (fun n => (st.qs n).length) ++ (upFrom 0 4).map fun n => (st.ws n).length) 5,
    wordOf [(st.xg.length, 0), (st.bq.length, 5), (packNat 1 (fun i => (st.bq.getD i false).toNat) st.bq.length, 10),
      (st.fmt.length, 26)],
    cnt ((upFrom 0 6).map fun c => (st.queue c).length) 6]

/-- The instruction word and extension word of a saved word (R386). -/
def insWords (i : Instr) : List Word :=
  match encode i with
  | [w] => [w, 0]
  | [e, w] => [w, e]
  | _ => [0, 0]

/-- The engine that a POP or PUSH code names (R73), as R386 numbers engines. -/
def tokEng (c : BitVec 3) : Nat := c.toNat - 1

/-- The bytes that a word takes in the stream, with its extension word (R76). -/
def insLen (i : Instr) : Word := if (insWords i).getD 1 0 = 0 then 8 else 16

/-- Where a quarter of an accumulator row lies (R187): 2048 bytes a row. -/
def accLoc (t row quarter : Nat) : Loc := .acc t (2048 * row + 512 * quarter)

/-- A stream that overwrites has written a segment of its next row: the others of that row accumulate (R388, R389). -/
def MCmd.forced (c : MCmd) : Bool :=
  match c.op with
  | .mul fw _ _ _ _ => bits fw 8 2 == 1 && 0 < c.seg
  | _ => false

/-- The read-out mode in force for a command (R207). -/
def MOp.modeOf (o : MOp) : Nat :=
  match o with
  | .st _ _ _ _ _ _ _ _ _ mode => mode
  | .upd _ _ _ _ _ _ _ _ mode => mode
  | .mac _ _ mode => mode
  | _ => 0

/-- A matrix entry of the save area (R388). -/
def MCmd.words (c : MCmd) : List Word :=
  [(insWords c.w.ins).headD 0, c.fmt, c.d, c.a, c.b,
    wordOf [(c.start.isSome.toNat, 0), (c.row % 1024, 1), (c.seg % 16, 11), (c.op.modeOf, 15), (c.forced.toNat, 18)], 0, 0]

/-- The header and data of a landing entry (R388). -/
def Land.image (l : Land) : List Word × List Byte :=
  let h := fun (code kind row q : Nat) => [BitVec.ofNat 64 l.due, wordOf [(code, 0), (kind, 7), (row, 9), (q, 19)]]
  match l.eff with
  | .x n v => (h n 0 0 0, leBytes 8 v.toNat)
  | .sp n b => (h (64 + n) 1 0 0, leBytes 8 b.toNat)
  | .v n v => (h n 0 0 0, leBytes 512 v.toNat)
  | .p n v => (h (64 + n) 1 0 0, leBytes 16 v.toNat)
  | .w n v => (h (88 + n) 2 0 0, leBytes 512 v.toNat)
  | .xg v => (h 92 2 0 0, leBytes 8 v.toNat)
  | .fmt v => (h 93 2 0 0, leBytes 8 v.toNat)
  | .acc r q v => (h 0 3 r q, leBytes 512 v.toNat)
  | .accAdd r q _ _ v => (h 0 3 r q, leBytes 512 v.toNat)
  | .sys n v => (h n 0 0 0, leBytes 8 v.toNat)
  | .tok p c => (h (tokKey p c) 2 0 0, [])

/-- The address of lane `i` (R146, R147); none for a disabled lane. -/
def MemOp.laneAddr (m : MemOp) (i : Nat) : Option Word :=
  let gather := fun a : RForm =>
    let x := lane m.idx i
    if x = 0xFFFFFFFF then none else some (m.a + (x.zeroExtend 64 <<< a.m 4 2))
  match m.w.ins with
  | .ldg a => gather a
  | .stg a => gather a
  | .smpLd a => gather a
  | _ => some (m.a + BitVec.ofNat 64 i * m.b)

/-- A load or store entry of the save area (R388): the address of its next part, with the lane, or the granule of 64 bytes of a
contiguous access, at which it goes on. -/
def MemOp.words (m : MemOp) : List Word :=
  let lanes := match m.w.ins with
    | .lds _ | .ldg _ | .sts _ | .stg _ | .smpLd _ => true
    | _ => false
  let next := if lanes then (m.laneAddr m.part).getD m.a else m.a + BitVec.ofNat 64 m.part
  insWords m.w.ins ++ [next, wordOf [(if lanes then m.part % 256 else m.part / 64, 0)], 0, 0, 0, 0]

/-- The macro state of the save area (R386). -/
def Mac.words (m : Mac) : List Word :=
  let pl := fun p : Option (Nat × Word) => match p with
    | some (l, f) => [BitVec.ofNat 64 l, f]
    | none => [0, 0]
  [wordOf [(1, 12), (m.addr, 0)],
    BitVec.ofNat 64 (packNat 16 (fun i => (Cells.get m.b i).toNat) 4),
    BitVec.ofNat 64 (packNat 16 (fun i => (Cells.get m.b (i + 4)).toNat) 4),
    BitVec.ofNat 64 (packNat 16 (fun i => (Cells.get m.c i).toNat) 4)] ++
  (upFrom 0 4).map (fun i => Cells.get m.f i) ++ [m.w7] ++ pl m.swapped ++ pl m.plan

/-- The save area below byte 0x2_A080 (R386). -/
def Strand.areaLow (s : State) (k : Nat) (st : Strand) (sp : Stop) : List Byte :=
  padTo 32768 ((upFrom 0 64).flatMap fun i => leBytes 512 (Cells.get st.v i).toNat) ++
  padTo 512 (wordBytes ((upFrom 0 64).map st.xr)) ++
  padTo 256 (wordBytes ((upFrom 0 32).map st.gr)) ++
  padTo 256 ((upFrom 0 16).flatMap fun i => leBytes 16 (Cells.get st.p i).toNat) ++
  padTo 256 (wordBytes (st.controlBlock s k sp)) ++
  padTo 256 (wordBytes st.fmt) ++
  padTo 20 ((upFrom 0 20).map fun i => (Cells.get st.tok i)) ++
  padTo 4 (leBytes 4 (st.arr.toNat + 2 * st.darr.toNat + 4 * (sp.f.mark % 16) + 64 * (if sp.f.cls = 3 ∧ sp.f.code = 0xE then bits sp.f.info 24 4 else 0))) ++
  padTo 232 [] ++
  padTo 256 (match st.mac with | some m => wordBytes m.words | none => []) ++
  padTo 4096 (st.mq.flatMap fun c => wordBytes c.words) ++
  padTo 512 (st.land.flatMap fun l => wordBytes l.image.1) ++
  padTo 1536 [] ++
  padTo 16384 (st.land.flatMap fun l => padTo 512 l.image.2) ++
  padTo 1024 (st.lq.flatMap fun m => wordBytes m.words) ++
  padTo 1024 (st.sq.flatMap fun m => wordBytes m.words) ++
  padTo 6144 [] ++
  padTo 65536 ((upFrom 0 8).flatMap fun n => padTo 8192 ((st.qs n).flatMap fun v => leBytes 512 v.toNat)) ++
  padTo 32768 ((upFrom 0 4).flatMap fun n => padTo 8192 ((st.ws n).flatMap fun v => leBytes 512 v.toNat)) ++
  padTo 8192 (st.sq.flatMap fun m => leBytes 512 m.data.toNat) ++
  padTo 128 (wordBytes st.xg)

/-- The save area from byte 0x2_A0C0 (R386). -/
def Strand.areaHigh (st : Strand) : List Byte :=
  padTo 64 [] ++
  padTo 3072 ((upFrom 0 6).flatMap fun c => padTo 512 (wordBytes ((st.queue c).flatMap fun w => insWords w.ins))) ++
  padTo 21248 []

/-- The number of the register that an effect writes, in the numbering of `Strand.bad`. -/
def Eff.reg (e : Eff) : Option Nat :=
  match e with
  | .x n _ => some n
  | .v n _ => some (128 + n)
  | .p n _ => some (192 + n)
  | .sp n _ => some (300 + n)
  | _ => none

/-- Bytes at an address carry the poison mark of a register's image (R396). -/
def State.markVa (s : State) (w : Who) (va n : Nat) : Res Unit :=
  (s.locate w kStore va n).bind fun (l, _, _) s => .ok () { s with marks := (upFrom l.key n).foldl insertNat s.marks }

/-- Several ranges, each an address and a length, carry the mark. -/
def State.markAll (s : State) (w : Who) : List (Nat × Nat) → Res Unit
  | [] => .ok () s
  | a :: l => (s.markVa w a.1 a.2).bind fun _ s => s.markAll w l

/-- Where the save area holds what a number of `Strand.bad` names (R386): offsets and lengths. -/
def Strand.imageOf (st : Strand) (n : Nat) : List (Nat × Nat) :=
  if 512 ≤ n then
    let i := (st.land.takeWhile fun l => l.eff.reg != some (n - 512)).length
    [(0x9800 + 16 * i, 16), (0xA000 + 512 * i, 512)]
  else if n < 64 then [(0x8000 + 8 * n, 8)]
  else if n < 96 then [(0x8200 + 8 * (n - 64), 8)]
  else if n < 192 then [(512 * (n - 128), 512)]
  else if n < 256 then [(0x8300 + 16 * (n - 192), 16)]
  else if n < 264 then [(0x10000 + 8192 * (n - 256), 512)]
  else if n < 268 then [(0x20000 + 8192 * (n - 264), 512)]
  else if n = 268 then [(0x2A000, 8)]
  else if n = 269 then [(0x84A8, 8)]
  else if n = 270 then [(0x8500, 8)]
  else if n < 291 then [(0x8600 + (n - 271), 1)]
  else if n < 297 then [(0x2A100 + 512 * (n - 291), 16)]
  else if n = 297 then [(0xE000, 64)]
  else if n = 298 then [(0xE400, 64), (0x28000, 512)]
  else if n = 299 then [(0x8800, 64)]
  else if n < 308 then [(0x844F, 1)]
  else [(0x8438 + 4 * (n - 308), 4)]

/-- What a number of `Strand.bad` names is there: a landing entry for a register, the oldest entry of a queue, or a register. -/
def Strand.hasEntry (st : Strand) (n : Nat) : Bool :=
  if 512 ≤ n then st.land.any fun l => l.eff.reg == some (n - 512)
  else if n < 256 ∨ 300 ≤ n then true
  else if n < 264 then !(st.qs (n - 256)).isEmpty
  else if n < 268 then !(st.ws (n - 264)).isEmpty
  else if n = 268 then !st.xg.isEmpty
  else if n = 269 then !st.bq.isEmpty
  else if n = 270 then !st.fmt.isEmpty
  else if n < 291 then Cells.get st.tok (n - 271) != 0
  else if n < 297 then !(st.queue (n - 291)).isEmpty
  else if n = 297 then !st.lq.isEmpty
  else if n = 298 then !st.sq.isEmpty
  else st.mq.any fun c => c.start.isNone

/-- The full-context save (R384, R386): the area at x2, then the record with FULL 1. The images of the registers that
hold an uncorrectable error carry the poison mark (R396). -/
def State.saveContext (s : State) (k : Nat) (st : Strand) (sp : Stop) : Res Unit :=
  let va := (st.xr 2).toNat
  let w := s.recWho k st
  if va % 4096 ≠ 0 then .flt (alignFlt (st.xr 2)) s
  else
    (s.writeVa w kStore va (st.areaLow s k sp)).bind fun _ s =>
    (s.writeVa w kStore (va + 0x2A0C0) st.areaHigh).bind fun _ s =>
    (s.markAll w ((st.bad.flatMap st.imageOf).map fun x => (va + x.1, x.2))).bind fun _ s =>
      s.writeRecord k st true (if sp.f.cls = 1 then sp.pc + 8 else st.pc)

/-- What a stopped strand keeps in its entry; a strand with matrix or accumulator work in progress is bound to
its tile until it resumes, and then asks for the array with its planes (R381, R385, R387, R389). -/
def State.entryOf (s : State) (k : Nat) (st : Strand) : Entry :=
  let accs := st.land.any fun l => match l.eff with
    | .acc _ _ _ => true
    | .accAdd _ _ _ _ _ => true
    | _ => false
  let t := s.tile (slotTile k)
  let want := st.held || !st.mq.isEmpty
  let pl := fun p : Option Plane => if want then p.map fun p => (p.fw, p.line) else none
  { id := s.leaving k st
    full := true
    bound := if accs || want || st.mac.isSome then some (slotTile k) else none
    saved := some { st with
      stop := none
      waits := []
      target := none
      lq := st.lq.map fun m => { m with seen := none }
      want := want
      reA := if st.want then st.reA else pl t.active
      reS := if st.want then st.reS else pl t.shadow } }

/-- Deliver a record to the handler of a launch (R365, R366); the launch is ended where the ring is full or
cannot be written (R367). -/
def State.deliver (s : State) (d no : Nat) (ws : List Word) (e : Option Entry) : Res Unit :=
  match s.launch d no with
  | none => .ok () s
  | some l =>
    if 32 ≤ l.hseq - l.hnext then .ok () (s.endLaunch d no 3 (some ws))
    else
      match s.writeVa (cpWho d l.ctx) kStore ((l.word 5).toNat + 64 * (l.hseq % 32)) (wordBytes ws) with
      | .ok _ s =>
        let s := if (s.reg d 0xB08).getLsbD 8 then (s.hostRecord d ws).1 else s
        .ok () (s.onLaunch d no fun l =>
          let st := match e with | some e => l.stopped ++ [(e, l.hseq)] | none => l.stopped
          { l with hseq := l.hseq + 1, stopped := st })
      | .flt _ s => .ok () (s.endLaunch d no 5 (some ws))
      | .wait c o s => .wait c o s

/-- 20 µs of package time (R45, R46). -/
def grace : Nat := 20000 * 65536

/-- The strands of the slots that `f` names must leave them within 20 µs, other than handler strands (R45, R46, R366). -/
def State.displace (s : State) (d : Nat) (f : Nat → Strand → Bool) : State :=
  let ks := (s.strands.filter fun e => slotDie e.1 == d && !e.2.id.handler && f e.1 e.2).map (·.1)
  s.onDie d fun x =>
    { x with disp := x.disp ++ (ks.filter fun k => !(x.disp.any fun y => y.slot == k)).map fun k => ⟨k, s.time + grace⟩ }

/-- A launch of a die is of the latency class (R45). -/
def State.latency (s : State) (d no : Nat) : Bool :=
  match s.launch d no with
  | some l => l.latency
  | none => false

/-- A ready-list entry joins the tail of its stage's list (R28). A latency strand that becomes ready displaces the bulk
strands on borrowed reserved tiles (R46). -/
def State.makeReady (s : State) (d : Nat) (e : Entry) : State :=
  let s := s.onStage d e.id.launch e.id.stage fun g => { g with ready := g.ready ++ [e] }
  if s.latency d e.id.launch then
    s.displace d fun k st => (s.die d).mask.getLsbD (slotTile k % 24) && !s.latency d st.id.launch
  else s

/-- The L1s that hold lines for a tile as it stands. -/
def State.l1s (s : State) (t : Nat) : List Nat := l1sOf (s.fusedAt t) t

/-- The strand's stage is declared tile-bound (R28, R308). -/
def State.stageBound (s : State) (d : Nat) (i : Ident) : Bool :=
  match s.launch d i.launch with
  | some l => match l.stages[i.stage]? with
    | some g => (g.desc.getD 1 0).getLsbD 3 && !i.handler
    | none => false
  | none => false

/-- The launch of a strand is batched (R315): each halt of its strands releases at .dd. -/
def State.batched (s : State) (d : Nat) (i : Ident) : Bool :=
  match s.launch d i.launch with
  | some l => l.batch != 0
  | none => false

/-- The strand has a copy outstanding into scratchpad or accumulator store (R28). -/
def State.copyBound (s : State) (d : Nat) (i : Ident) : Bool :=
  (s.die d).copies.any fun c => c.2.uid == i.uid && c.2.local_

/-- A strand whose stage is not tile-bound writes back its L1 where it leaves a slot (R26, R252). A binding by a copy may end before
the strand resumes (R28), so it is no exception. -/
def State.tidy (s : State) (k : Nat) (i : Ident) : State :=
  let d := slotDie k
  if s.stageBound d i then s
  else (s.l1s (slotTile k)).foldl (fun s t => s.cleanL1 t [1, 2]) s

/-- A chained stream (R206). -/
def MOp.chained (o : MOp) : Bool :=
  match o with
  | .mul _ _ _ _ ch => ch
  | _ => false

/-- A started command that has run to its retirement in a strand that is being stopped (R384 step 4). -/
def MCmd.ranOut (c : MCmd) : Bool :=
  c.start.isSome && c.done && !c.bad && (c.op.chained || match c.op with
    | .swap => true
    | .chain _ _ => true
    | _ => false)

/-- An effect that landed at the vc of the stop becomes a landing entry again (R384 step 2); not an entry of a queue that has been taken
since. -/
def State.unland (s : State) (k : Nat) (st : Strand) (f : Fresh) : State × Strand :=
  let back := { st with land := f.e :: st.land }
  match f.e.eff, f.old with
  | .w n v, _ => (s, if (st.ws n).getLast? = some v then { back with w := Tab.put st.w n (st.ws n).dropLast } else st)
  | .xg v, _ => (s, if st.xg.getLast? = some v then { back with xg := st.xg.dropLast } else st)
  | .fmt v, _ => (s, if st.fmt.getLast? = some v then { back with fmt := st.fmt.dropLast } else st)
  | .tok p c, _ =>
    let n := Cells.get st.tok (tokKey p c)
    (s, if n = 0 then st else { back with tok := Cells.set st.tok (tokKey p c) (n - 1) })
  | _, .acc r q v => (s.poke (accLoc (slotTile k) r q) (leBytes 512 v.toNat), back)
  | _, .x n v => (s, back.setX n v)
  | _, .sp n b => (s, { back with sp := setBit st.sp n b })
  | _, .v n v => (s, { back with v := Cells.set st.v n v })
  | _, .p n v => (s, { back with p := Cells.set st.p n v })
  | _, _ => (s, st)

/-- A command as it is saved: an unfinished plane load runs again whole, and a stream goes on from its next row and segment, the
rows behind them entering again (R384, R389). -/
def MCmd.saved (c : MCmd) : MCmd :=
  match c.op with
  | .ldw _ _ => if c.buf.isEmpty then c else { c with row := 0, buf := [] }
  | .mul _ _ _ _ _ => { c with pipe := [] }
  | _ => c

/-- A strand as its save finds it (R384; DEDUCED, log 102): the results due at its vc or later are landing entries, the commands that have run out have
retired, their tokens still to land, the others stand as they go on, and a word that the dispatcher has not carried out is fetched
again (R387). -/
def State.atRest (s : State) (k : Nat) (st : Strand) : State × Strand :=
  let (s, st) := st.fresh.foldr (fun f (x : State × Strand) => x.1.unland k x.2 f) (s, { st with fresh := [] })
  let toks := (st.mq.filter MCmd.ranOut).filterMap fun c =>
    let h := insHdr c.w.ins
    if h.push = 0 then none else some ({ due := max c.retire st.now, seq := c.w.seq, eff := .tok 3 (tokEng h.push) } : Land)
  (s, { st with
    land := st.land ++ toks
    mq := (st.mq.filter fun c => !c.ranOut).map MCmd.saved
    pc := match st.disp with | some w => w.pc - (insLen w.ins - 8) | none => st.pc
    disp := none })

/-- The last part of a stop, once the store queue has performed what it can (R384): the save, then the ready
list for a pre-empted strand (R383), the handler's ring for a fault (R365), or the end of the launch (R367). -/
def State.finishStop (s : State) (k : Nat) (st : Strand) (sp : Stop) : State :=
  let d := slotDie k
  let no := st.id.launch
  if sp.ended then s.drainEnd d no
  else
    let (s, st) := s.atRest k st
    let s := s.tidy k st.id
    let hasH := match s.launch d no with | some l => l.word 4 != 0 | none => false
    let l := s.launch d no
    let site : Site :=
      { die := d, tile := slotTile k % 24, slot := k % 8, sid := st.id.sid, pc := sp.pc, precise := true, ns := some sp.at_,
        tag := (l.map (·.tag)).getD 0, oprec := (l.map (·.oprec)).getD 0 }
    let bare := s.faultRecord sp.f site
    if sp.pre then
      match s.saveContext k st sp with
      | .ok _ s => (s.vacate k).makeReady d (s.entryOf k st)
      | .flt _ s => s.endLaunch d no 5 none
      | .wait _ _ t => s.keepWaits t
    else if sp.f.cls = 9 then s.endLaunch d no 0 (some bare)
    else if st.id.handler then s.endLaunch d no 2 (some bare)
    else if !hasH then s.endLaunch d no 1 (some bare)
    else
      match s.saveContext k st sp with
      | .ok _ t =>
        match (t.vacate k).deliver d no (t.faultRecord sp.f { site with crec := st.id.crec }) (some (t.entryOf k st)) with
        | .wait _ _ t => s.keepWaits t
        | r => r.st
      | .flt _ s => s.endLaunch d no 5 (some bare)
      | .wait _ _ t => s.keepWaits t

/-- A started stream with rows to do. -/
def MCmd.streams (c : MCmd) : Bool :=
  match c.op with
  | .mul _ _ _ _ _ => c.start.isSome && !c.done && !c.bad
  | _ => false

/-- A macro of the strand has not come to a boundary (R242). -/
def Strand.amid (st : Strand) : Bool :=
  (match st.mac with | some m => !m.bound | none => false) &&
    !(st.mops.any (·.bad) || st.mq.any fun c => c.bad && match c.op with | .mac _ _ _ => true | _ => false)

/-- A command that runs on when its strand is stopped: to retirement a chained stream (R384 step 4), and a stream or a clear that started
before such a one, since a lane is updated in queue order (R211); and, while micro-operations run on (R242), a stream, a clear or a
plane load that started before them (DESIGN CHOICE, log 87). -/
def Strand.runsOn (st : Strand) (c : MCmd) : Bool :=
  let live := c.start.isSome && !c.done && !c.bad
  let after := fun x : MCmd => c.start.getD 0 < x.start.getD 0
  let rows := match c.op with | .clr _ _ => true | .mul _ _ _ _ _ => true | _ => false
  let load := match c.op with | .ldw _ _ => true | _ => false
  live && ((rows && (c.op.chained || st.mq.any fun x => x.streams && x.op.chained && after x)) ||
    ((rows || load) && (st.amid || st.mops.any fun x => !x.done && !x.bad && c.start.getD 0 ≤ x.start.getD 0)))

/-- The macro of a strand stands at a boundary, or at a fault, with no micro-operation unfinished, and no stream runs on
(R242, R384 step 4). -/
def Strand.quiet (st : Strand) : Bool :=
  st.mops.all (fun c => c.done || c.bad) && !(st.mq.any st.runsOn) &&
    ((match st.mac with | some m => m.bound | none => true) || st.mops.any (·.bad) ||
      st.mq.any fun c => c.bad && match c.op with | .mac _ _ _ => true | _ => false)

/-- The atomics of a strand whose old value has not come back from the home of their location (R152, R397). -/
def State.owedG (s : State) (uid : Nat) : List Ack :=
  s.dies.flatMap fun e => (e.2.acks.map (·.2)).filter fun a => a.uid == uid && a.gd.isSome

/-- A strand that is being stopped reaches its save once no store of it can still perform and its array work has
come to a point of rest (R384 steps 3 and 4). -/
def State.settle (s : State) (k : Nat) : State :=
  match s.strand k with
  | none => s
  | some st =>
    match st.stop with
    | none => s
    | some sp =>
      if !sp.ended && s.backWaits (s.l1s (slotTile k)) [1, 2] then s
      else if sp.ended || ((sp.stuck || st.sq.isEmpty) && st.quiet && !(s.owedG st.id.uid).any fun a => !a.lost) then s.finishStop k st sp
      else s

/-- The trap registers after a stop (R131). -/
def Ident.trapped (i : Ident) (f : Flt) (pc : Word) : Ident :=
  { i with
    cause := wordOf [(f.cls % 256, 24), (f.code % 65536, 0)]
    tpc := wordOf [(bits pc 3 53, 3)]
    taddr := BitVec.ofNat 64 (f.addr.toNat % 2 ^ 56) }

/-- A strand in its slot waits to put or to take an item of a stage of its launch (R225, R226). -/
def State.inLine (s : State) (k : Nat) (st : Strand) : Bool :=
  match s.launch (slotDie k) st.id.launch with
  | some l => l.stages.any fun g => g.puts.any (fun p => p.uid == st.id.uid) || g.takes.contains st.id.uid
  | none => false

/-- A strand in its slot that is stopped waits no longer: at a barrier, where what others inherit from it ends (R32), or to put or to
take an item (R234), of which word nothing has been done. -/
def State.unwait (s : State) (k : Nat) (st : Strand) : State :=
  let s := match s.waitsBar (slotTile k) st with
    | some id => s.uninherit fun b => b == (slotTile k, id, st.id.uid)
    | none => s
  if s.inLine k st then
    s.onLaunch (slotDie k) st.id.launch fun l => { l with
      stages := l.stages.map fun g =>
        { g with puts := g.puts.filter (fun p => p.uid != st.id.uid), takes := g.takes.filter fun u => u != st.id.uid } }
  else s

/-- TRAP_PC of a pre-empted strand (R234): the holding-form Y word at which it waits; else 0. -/
def Strand.waitPc (st : Strand) : Word :=
  match st.queue 5 with
  | y :: _ => if st.causeAt 5 = 8 ∨ st.causeAt 5 = 9 then y.pc else 0
  | [] => 0

/-- A word that has issued and faults at its suspension point stands at the head of its queue again, due at the
vc that the clock has reached. -/
def Strand.requeue (st : Strand) (w : QWord) : Strand :=
  let c := insCls w.ins
  let d := (insHdr w.ins).delay.toNat + 1
  let l := if d ≤ st.now then some (st.now - d) else none
  let st := if c = 5 then st else { st with eng := Tab.put st.eng c { last := l } }
  { st.setQueue c (w :: st.queue c) with susp := none, late := [], took := none }

/-- The place in the stream of the word that a fault stands at: the head of a memory queue, the command that faulted, the head of an
engine queue, or the dispatcher's word. -/
def Strand.seqAt (st : Strand) (feng fq : Nat) : Nat :=
  let at_ : Option Nat := match fq with
    | 1 => st.lq.head?.map (·.w.seq)
    | 2 => st.sq.head?.map (·.w.seq)
    | 3 => (st.mq.find? MCmd.bad).map (·.w.seq)
    | _ => if feng ≤ 5 then (st.queue feng).head?.map (·.seq) else none
  at_.getD st.seq

/-- A report that an earlier word's fault displaces is not made (R363): its cause stays, to arise again after resumption. A trap word
stands in its queue again; the copy fault or the lost acknowledgements of a deferred report are kept. -/
def State.giveWay (s : State) (k : Nat) (st : Strand) (p : Stop) : State :=
  let st := match p.word with
    | some w => { st.requeue w with land := st.land.filter fun l => l.seq != w.seq }
    | none => st
  let s := s.setStrand k st
  if !p.f.defer then s
  else s.onDie (slotDie k) fun x =>
    if p.f.cls = 6 then
      let a : Ack := { uid := st.id.uid, va := p.f.addr, line := 0, home := bits p.f.info 16 2 + if p.f.info.getLsbD 24 then 4 else 0, pkg := p.f.info.getLsbD 24, at_ := 0, lost := true }
      { x with acks := x.acks ++ (upFrom x.nextA (bits p.f.info 0 16)).map fun n => (n, a), nextA := x.nextA + bits p.f.info 0 16 }
    else { x with batches := x.batches ++ [{ uid := st.id.uid, launch := st.id.launch, no := 0, closed := true, flt := some p.f, done := true }] }

/-- TAKING A FAULT OR TRAP: the strand in slot `k` stops at the word at `pc` (R362, R363, R384). The trap
registers receive the class, code, word and address (R131); the execute side issues no more; the rest follows
at once, or when its store queue has drained. `fq` says where the word stands: 0 its engine queue, 1 the head
of the load queue, 2 the head of the store queue, 3 the matrix command queue. Of several faults before the save, the one whose word
is earliest in the stream is reported (R363). -/
def State.takeFault (s : State) (k : Nat) (f : Flt) (pc : Word) (feng : Nat) (fq : Nat := 0) (word : Option QWord := none) : State :=
  match s.strand k with
  | none => s
  | some st =>
    let seq := match word with | some w => w.seq | none => st.seqAt feng fq
    let stop := fun (s : State) (st : Strand) (stuck held : Bool) =>
      let st := { st with
        stop := some { f := f, pc := pc, feng := feng, stuck := stuck, held := held, seq := seq, word := word, at_ := s.ns (slotDie k) }
        fq := fq
        id := st.id.trapped f pc }
      ((s.unwait k st).setStrand k st).settle k
    match st.stop with
    | none => stop s st (fq == 2) (fq == 1)
    | some p =>
      if p.pre || p.ended || p.seq ≤ seq then s
      else
        let s := s.giveWay k st p
        match s.strand k with
        | some st => stop s st (p.stuck || fq == 2) (p.held || fq == 1)
        | none => s

/-- PRE-EMPTION (R383): the same stop with class 0x0A, code 1, and no fault record. -/
def State.preempt (s : State) (k : Nat) : State :=
  match s.strand k with
  | none => s
  | some st =>
    if st.stop.isSome then s
    else
      let st := { st with
        stop := some { f := { cls := 0x0A, code := 1 }, pc := st.pc, pre := true }
        id := st.id.trapped { cls := 0x0A, code := 1 } st.waitPc }
      ((s.unwait k st).setStrand k st).settle k

/-- A word of a list of bytes. -/
def wordAt (b : List Byte) (o : Nat) : Word := BitVec.ofNat 64 (leNat ((b.drop o).take 8))

/-- The bits of a word outside a mask are zero. -/
def only (w : Word) (mask : Nat) : Bool := w &&& ~~~(BitVec.ofNat 64 mask) == 0

/-- Fields of `w` bits each from bit 0 hold at most a bound. -/
def fieldsLe (v : Word) (w n bound : Nat) : Bool := (upFrom 0 n).all fun i => bits v (w * i) w ≤ bound

/-- Every word of a list is zero outside its mask. -/
def onlyAll (b : List Byte) (o : Nat) (masks : List Nat) : Bool := masks.zipIdx.all fun m => only (wordAt b (o + 8 * m.2)) m.1

/-- The words of a save area whose unnamed bits are zero (R386, R388): Y marks, macro state, and the entries that the counts name. -/
def entriesOk (b : List Byte) (nmc nlb nlq nsq : Nat) : Bool :=
  let any := 2 ^ 64 - 1
  let access := fun o i : Nat => onlyAll b (o + 64 * i) [any, any, any, 0x1FF, 0, 0, 0, 0]
  leNat ((b.drop 0x8614).take 4) < 2 ^ 10 &&
    onlyAll b 0x8700 (0x1FFF :: List.replicate 12 any ++ List.replicate 19 0) &&
    (upFrom 0 nmc).all (fun i => onlyAll b (0x8800 + 64 * i) [any, any, any, any, any, 0x7FFFF, 0, 0]) &&
    (upFrom 0 nlb).all (fun i => onlyAll b (0x9800 + 16 * i) [any, 0x1FFFFF]) &&
    (upFrom 0 nlq).all (access 0xE000) && (upFrom 0 nsq).all (access 0xE400)

/-- The checks of a save area before hret moves its strand (R391): FORMAT, counts (of tokens too), reserved fields, and
landing entries due before NOW. -/
def areaOk (b : List Byte) : Bool :=
  let cb := fun i : Nat => wordAt b (0x8400 + 8 * i)
  let zero := fun (o n : Nat) => ((b.drop o).take n).all (· == 0)
  let nlb := bits (cb 0) 39 6
  bits (cb 0) 56 8 == 1 && bits (cb 0) 0 29 == 0 && bits (cb 0) 45 7 ≤ 64 && nlb ≤ 32 &&
    bits (cb 0) 34 5 ≤ 16 && bits (cb 0) 29 5 ≤ 16 && only (cb 1) 0xFFFFFFFFFFFFF8 &&
    only (cb 9) 0xFF0000000000071F && only (cb 10) 0x1F && only (cb 11) 0xFFFF07 && only (cb 12) 0xFF00FFFF &&
    only (cb 13) 0xFFFFFFFFFFFFF8 && only (cb 14) 0xFFFFFFFFFFFFFF && only (cb 15) 0x3FF && only (cb 20) 0xFFFFFFFFFFFFFFF && only (cb 21) 0xFFFFFFFF &&
    only (cb 22) 0xFFFFFFFFF && fieldsLe (cb 20) 5 12 16 && bits (cb 21) 0 5 ≤ 16 && bits (cb 21) 5 5 ≤ 16 &&
    bits (cb 21) 26 6 ≤ 32 && fieldsLe (cb 22) 6 6 32 && zero (0x8400 + 184) 72 && zero 0x8618 232 && zero 0x9A00 1536 &&
    zero 0xE800 6144 && zero 0x2A0C0 64 && zero 0x2AD00 21248 &&
    ((b.drop 0x8600).take 20).all (fun c => c.toNat ≤ 16) &&
    entriesOk b (bits (cb 0) 45 7) nlb (bits (cb 0) 34 5) (bits (cb 0) 29 5) &&
    (upFrom 0 nlb).all fun i => (cb 2).toNat ≤ (wordAt b (0x9800 + 16 * i)).toNat

/-- A register file of `n` entries of `w` bytes from a list of bytes. -/
def fileOf (w : Nat) (b : List Byte) (o n : Nat) : Cells (8 * w) :=
  (upFrom 0 n).foldl (fun c i => Cells.set c i (BitVec.ofNat (8 * w) (leNat ((b.drop (o + w * i)).take w)))) []

/-- A word that is discarded holds fetch no longer, and is no open suspension point (R24, R77, R390). -/
def Strand.drop1 (st : Strand) (w : Option QWord) : Strand :=
  match w with
  | none => st
  | some w =>
    { st with
      hold := if st.hold = .retire w.seq ∨ st.hold = .issue w.seq then .run else st.hold
      susp := if st.susp.map (·.seq) = some w.seq then none else st.susp }

/-- A word that pops a format word (R193). -/
def popsFmt (i : Instr) : Bool :=
  match i with
  | .mldw _ => true
  | .mmul _ => true
  | _ => false

/-- The word at the head of an M queue that faulted as it issued had popped its format word (R374): not at an issue interval, a schedule order,
a lease loss or an underflow. -/
def Ident.hadFmt (i : Ident) (w : Option QWord) : Bool :=
  let code := bits i.cause 0 16
  (match w with | some w => popsFmt w.ins | none => false) && !(bits i.cause 24 8 == 3 && [1, 4, 6, 0x14].contains code)

/-- A command that faulted in the queue enters it again (R389): it takes its format word, and its count of the lease. -/
def Strand.retake (st : Strand) (c : MCmd) : Strand :=
  match c.back with
  | none => st
  | some lent =>
    { st with
      fmt := if popsFmt c.w.ins then st.fmt.drop 1 else st.fmt
      remain := if lent then st.remain - 1 else st.remain
      held := st.held && !(lent && st.remain == 1) }

/-- Remove the faulting word, or the access that faulted, as SKIP asks (R390), with the format word that a faulting M word got back. -/
def Strand.skip (st : Strand) (feng : Nat) : Strand :=
  match feng with
  | 6 => { st with pc := (match st.hold with | .bad _ pc => pc | _ => st.pc) + 8, hold := .run }
  | 7 => st
  | c =>
    if c = 3 ∧ st.fq = 3 then
      match st.mq.find? fun m => m.back.isSome with
      | none => st
      | some m =>
        Strand.drop1 { st with
          mq := st.mq.filter (fun x => x.w.seq != m.w.seq)
          mops := st.mops.filter (fun x => x.w.seq != m.w.seq)
          mac := match m.op with | .mac _ _ _ => none | _ => st.mac
          fmt := if popsFmt m.w.ins then st.fmt.drop 1 else st.fmt } (some m.w)
    else if c = 1 ∧ st.fq = 1 then Strand.drop1 { st with lq := st.lq.drop 1 } (st.lq.head?.map MemOp.w)
    else if c = 1 ∧ st.fq = 2 then Strand.drop1 { st with sq := st.sq.drop 1 } (st.sq.head?.map MemOp.w)
    else
      let w := (st.queue c).head?
      let st := (st.setQueue c ((st.queue c).drop 1)).drop1 w
      if c = 3 && st.id.hadFmt w then { st with fmt := st.fmt.drop 1 } else st

/-- The strand that a record and, with FULL 1, its save area describe (R25, R389, R390). Fields that a handler
must leave as written are those the strand held when it was saved. -/
def State.restore (s : State) (k : Nat) (e : Entry) : Res Strand :=
  let bare : Strand := { id := e.id, pc := 0 }
  let w := s.recWho k bare
  (s.readVa w kLoad e.id.crec.toNat 64).bind fun r s =>
    let w0 := wordAt r 0
    let id := { e.id with cls := BitVec.ofNat 2 (bits w0 53 2) }
    match w0.getLsbD 55, e.saved with
    | true, some st0 =>
      (s.readVa w kLoad (wordAt r 8).toNat 0x30000).bind fun b s =>
        let cb := fun i : Nat => wordAt b (0x8400 + 8 * i)
        let id := { id with
          cause := wordOf [(bits (cb 12) 24 8, 24), (bits (cb 12) 0 16, 0)]
          tpc := wordOf [(bits (cb 13) 3 53, 3)]
          taddr := wordOf [(bits (cb 14) 0 56, 0)] }
        let st : Strand :=
          { st0 with
            pc := wordOf [(bits (cb 1) 3 53, 3)]
            x := Tab.del (fileOf 8 b 0x8000 64) 0
            g := Tab.del (fileOf 8 b 0x8200 32) 0
            v := fileOf 512 b 0 64
            p := fileOf 16 b 0x8300 16
            sp := BitVec.ofNat 8 (bits (cb 9) 56 8)
            base := BitVec.ofNat 5 (bits (cb 9) 0 5) }
        let st := if (cb 0).getLsbD 52 then st.skip (bits (cb 0) 53 3) else st
        let st := st.mq.foldl Strand.retake st
        .ok { st with
          id := id
          fq := 0
          bad := []
          lq := st.lq.map fun m => { m with at_ := s.time }
          mq := st.mq.map fun c => { c with bad := false, back := none }
          mops := st.mops.map fun c => { c with bad := false }
          hold := match st.hold with | .bad _ _ => .run | h => h } s
    | _, _ =>
      let x := (upFrom 2 7).foldl (fun c i => Cells.set c i (wordAt r (8 * (i - 1)))) []
      .ok { id := { id with cause := 0, tpc := 0, taddr := 0 }, pc := wordOf [(bits w0 0 53, 3)], x := x,
            sp := BitVec.ofNat 8 (bits w0 56 8) } s

end Sys2Proof.Machine
end

