-- ==== Sys2Proof/Machine/Operands.lean ====
section
/-! DEFINITION. Operand forms: register codes as sources and destinations of each class (R75, R88, R112, R138,
R170, R192), the entries that a word pops, and rotation (R91). -/

namespace Sys2Proof.Machine

/-- The head of a queue q0 to q7; zero where it is empty. -/
def Strand.qHead (st : Strand) (n : Nat) : Vec := (st.qs n).headD 0

/-- A source of class S, or a scalar source of V, F and M (R75, R88): x, or bytes 7:0 of a q entry. -/
def Strand.srcX (st : Strand) (c : BitVec 7) : Word :=
  let n := c.toNat
  if n ≤ 63 then st.xr n else (st.qHead (n - 80)).extractLsb' 0 64

/-- A vector source (R75, R88): v, or a q entry. -/
def Strand.srcV (st : Strand) (c : BitVec 7) : Vec :=
  let n := c.toNat
  if n ≤ 63 then Cells.get st.v n else st.qHead (n - 80)

/-- A predicate register source. -/
def Strand.srcP (st : Strand) (n : Nat) : BitVec 128 := Cells.get st.p n

/-- A scalar predicate (R75: codes 64 to 71). -/
def Strand.srcSp (st : Strand) (n : Nat) : Bool := st.sp.getLsbD n

/-- A g source of class A (R138): g, or the head of xg. -/
def Strand.srcG (st : Strand) (c : BitVec 7) : Word :=
  if c.toNat = 92 then st.xg.headD 0 else st.gr c.toNat

/-- A w source (R138). -/
def Strand.srcW (st : Strand) (c : BitVec 7) : Vec := (st.ws (c.toNat - 88)).headD 0

/-- Store data (R142): a w entry, or xg or g in its low bytes. -/
def Strand.srcData (st : Strand) (c : BitVec 7) : Vec :=
  let n := c.toNat
  if 88 ≤ n ∧ n ≤ 91 then st.srcW c else (st.srcG c).zeroExtend 4096

/-- The register fields of a row that a source of class S, V or F may stand in. -/
def srcFields (i : Instr) : List Nat :=
  match i.cell with
  | some (_, _, .inl a) => [a.fa.toNat, a.fb.toNat]
  | some (_, _, .inr a) => [a.fa.toNat]
  | none => []

/-- The predicate register that guards or selects the lanes of a word (R172, R178). -/
def guardRead (i : Instr) : List Nat :=
  match i with
  | .vadd a | .vsub a | .vmul a | .vmulh a | .vfma a | .vfms a | .vmin a | .vmax a | .vabs a | .vneg a | .vand a | .vor a
  | .vxor a | .vshl a | .vshr a | .vsra a | .vnot a | .vpopc a | .vclz a | .vmov a | .vbfx a | .vbcast a | .vcmp a
  | .vredsum a | .vredmax a | .vredmin a | .vscan a => if a.m 9 1 = 1 then [192 + a.m 5 4] else []
  | .vsel a => [192 + a.m 5 4]
  | _ => []

/-- A register code as a source of the vector classes, in the numbering of `Strand.bad`. -/
def vCode (c : BitVec 7) : Nat := 128 + c.toNat

/-- A register code of class S as a source, in the numbering of `Strand.bad`: x registers, and scalar predicates from 300. -/
def sCode (c : Nat) : Option Nat := if c ≤ 63 then some c else if 64 ≤ c ∧ c ≤ 71 then some (236 + c) else none

/-- The registers that an execute-side or Y word reads, in the numbering of `Strand.bad` (R396). -/
def regReads (i : Instr) : List Nat :=
  let x := fun c : BitVec 7 => if c.toNat ≤ 63 then c.toNat else 1000
  let low := fun l : List Nat => l.filter (· ≤ 63)
  match i with
  | .fsh a => [x a.fa, x a.fb] ++ if a.m 6 1 = 1 then [x a.fd] else []
  | .bfi a => [x a.fa, x a.fb, x a.fd]
  | .vbcast a => x a.fa :: guardRead i
  | .vaccRd a => [x a.fa]
  | .vaccWr a | .vaccAdd a => [x a.fa, vCode a.fb]
  | .vrot a => vCode a.fa :: if a.m 7 1 = 1 then [x a.fb] else []
  | .vfsh a => [vCode a.fa, vCode a.fb] ++ if a.m 5 1 = 1 then [vCode a.fd] else []
  | .vfma a | .vfms a => [vCode a.fa, vCode a.fb, vCode a.fd] ++ guardRead i
  | .mmul a => [x a.fa, x a.fb] ++ if a.m 10 1 = 1 then [x a.fd] else []
  | .maccSt a => [x a.fa, x a.fd]
  | .sel a => [x a.fa, x a.fb, 300 + a.m 0 3]
  | _ =>
    match insCls i with
    | 0 => (srcFields i).filterMap sCode
    | 2 => (srcFields i).map (128 + ·) ++ guardRead i
    | 4 => (srcFields i).map (128 + ·)
    | 3 => low (srcFields i)
    | 5 => match i.cell with
      | some (_, _, .inr a) => [a.fd.toNat % 16, a.fa.toNat % 16]
      | _ => []
    | _ => []

/-- The destination field of a row. -/
def dstField (i : Instr) : Nat :=
  match i.cell with
  | some (_, _, .inl a) => a.fd.toNat
  | some (_, _, .inr a) => a.fd.toNat
  | none => 0

/-- The queues q0 to q7 that an execute-side word pops (R88). -/
def qSources (i : Instr) : List Nat :=
  if [0, 2, 4].contains (insCls i) then dedup ((srcFields i).filterMap fun c => if 80 ≤ c ∧ c ≤ 87 then some (c - 80) else none)
  else []

/-- The entries of xg (92) and w0 to w3 (88 to 91) that an access word pops (R138): codes of its sources. -/
def popCodes (i : Instr) : List Nat :=
  if insCls i = 1 then dedup ((dstField i :: srcFields i).filter fun c => 88 ≤ c ∧ c ≤ 92) else []

/-- Pop one entry of each queue named (R88, R138). -/
def Strand.popped (st : Strand) (i : Instr) : Strand :=
  let q := (qSources i).foldl (fun t n => Tab.put t n ((st.qs n).drop 1)) st.q
  let w := (popCodes i).foldl (fun t c => if c < 92 then Tab.put t (c - 88) ((st.ws (c - 88)).drop 1) else t) st.w
  let xg := if (popCodes i).contains 92 then st.xg.drop 1 else st.xg
  { st with q := q, w := w, xg := xg }

/-- What writing a result of class S to its destination code lands (R112, R83). -/
def effX (c : BitVec 7) (v : Word) : Eff :=
  let n := c.toNat
  if n ≤ 63 then .x n v else if n = 92 then .xg v else .w (n - 88) (v.zeroExtend 4096)

/-- What writing a vector result to its destination code lands (R170). -/
def effV (c : BitVec 7) (v : Vec) : Eff :=
  let n := c.toNat
  if n ≤ 63 then .v n v else .w (n - 88) v

/-- The physical number of a vector register under a rotation base (R91). -/
def rotV (b n : Nat) : Nat := if 32 ≤ n ∧ n ≤ 63 then 32 + (n - 32 + b) % 32 else n

/-- The physical number of a predicate register under a rotation base (R91). -/
def rotP (b n : Nat) : Nat := if 8 ≤ n ∧ n ≤ 15 then 8 + (n - 8 + b) % 8 else n

/-- A vector or predicate register field under a rotation base; other codes stay. -/
def rotCode (b : Nat) (c : BitVec 7) : BitVec 7 :=
  let n := c.toNat
  if n ≤ 63 then BitVec.ofNat 7 (rotV b n)
  else if n ≤ 79 then BitVec.ofNat 7 (64 + rotP b (n - 64)) else c

/-- The predicate number in MOD bits 8:5 under a rotation base. -/
def rotMod (b : Nat) (m : BitVec 15) : BitVec 15 :=
  let p := m.toNat / 32 % 16
  BitVec.ofNat 15 (m.toNat - p * 32 + rotP b p * 32)

/-- Rotate the fields of an R-form word: destination, first and second source, and the predicate of MOD. -/
def rotR (a : RForm) (b : Nat) (d fa fb md : Bool) : RForm :=
  { a with
    fd := if d then rotCode b a.fd else a.fd
    fa := if fa then rotCode b a.fa else a.fa
    fb := if fb then rotCode b a.fb else a.fb
    mod := if md then rotMod b a.mod else a.mod }

/-- A register that holds an uncorrectable error is among those that a word would read: registers, and queues q (R396). -/
def Strand.meetsBad (st : Strand) (rs qs : List Nat) : Bool := st.bad.any fun n => rs.contains n || (qs.map (256 + ·)).contains n

/-- The fault at a word that would read a register holding an uncorrectable error (R396). -/
def regErrFlt : Flt := { cls := 5, code := 6 }

/-- An error leaves with what overwrites it, or reaches the register with its landing entry (R396). -/
def Strand.badAfter (st : Strand) (e : Eff) : List Nat :=
  match e.reg with
  | some r => (st.bad.filter (· != r)).map fun n => if n = 512 + r then r else n
  | none => st.bad

/-- An effect lands (R83): the strand's registers and queues as written. Accumulator rows and system
registers land through the state (`State.landing`). -/
def Strand.land1 (st : Strand) (e : Eff) : Strand :=
  match e with
  | .x n v => st.setX n v
  | .sp n b => { st with sp := setBit st.sp n b }
  | .v n v => { st with v := Cells.set st.v n v }
  | .p n v => { st with p := Cells.set st.p n v }
  | .w n v => { st with w := Tab.put st.w n (st.ws n ++ [v]) }
  | .xg v => { st with xg := st.xg ++ [v] }
  | .fmt v => { st with fmt := st.fmt ++ [v] }
  | .tok p c => { st with tok := Cells.set st.tok (tokKey p c) (Cells.get st.tok (tokKey p c) + 1) }
  | .acc _ _ _ => st
  | .accAdd _ _ _ _ _ => st
  | .sys _ _ => st

end Sys2Proof.Machine
end

