-- ==== Sys2Proof/Machine/Pipe.lean ====
section
/-! DEFINITION. Issue in virtual cycles (R78 to R88, R109): when a word may issue, what issuing does, how results
land, and the suspension points (R24 to R26, R135). -/

namespace Sys2Proof.Machine

/-- Issue interval and latency of an execute-side word (R109). A word without an L there (bcc, trap, hret, yield, halt) retires,
and pushes its token, in the vc in which it issues: L = 0 (DESIGN CHOICE, log 60). -/
def timing (i : Instr) : Nat × Nat :=
  match i.cell with
  | some (0, o, _) =>
    if o = 2 ∨ o = 3 then (1, 3)
    else if o = 4 ∨ o = 5 then (20, 20)
    else if o = 0x40 ∨ o = 0x46 then (1, 2)
    else if o = 0x33 ∨ (0x42 ≤ o ∧ o ≤ 0x45) then (1, 0)
    else (1, 1)
  | some (2, o, f) =>
    let float := match f with | .inl a => a.m 0 4 == 3 | .inr _ => false
    if o ≤ 1 ∨ (6 ≤ o ∧ o ≤ 9) then (1, if float then 4 else 2)
    else if o = 2 then (1, if float then 4 else 3)
    else if o = 3 then (1, 3)
    else if o ≤ 5 then (1, 4)
    else if o = 0x16 then (1, 1)
    else if o ≤ 0x19 then (1, 2)
    else if o = 0x20 then (2, 4)
    else if o ≤ 0x22 then (1, 2)
    else if o ≤ 0x25 then (2, 10)
    else if o = 0x26 then (4, 16)
    else if o = 0x30 then (1, 4)
    else if o ≤ 0x32 then (4, 8)
    else if o = 0x33 then (2, 6)
    else if o = 0x40 then (1, 6)
    else if o = 0x41 then (1, 4)
    else if o = 0x42 then (1, 6)
    else (1, 1)
  | some (4, o, _) => if o ≤ 4 then (4, 10) else if o ≤ 7 then (4, 14) else (4, 8)
  | _ => (1, 0)

/-- The vc at which the next word of an engine is due (R81). -/
def Strand.due (st : Strand) (c : Nat) (h : Hdr) : Nat :=
  match (st.engine c).last with
  | some l => l + 1 + h.delay.toNat
  | none => h.delay.toNat

/-- A Y word is a schedule boundary (R80, R214, R217): a selector of it names a record word. -/
def isBoundary (i : Instr) : Bool :=
  match i with
  | .align => true
  | .alignSuspend => true
  | .barArrive a | .barWait a | .barArrwait a | .sqPut a | .sqGet a | .spawn a | .sigWait a | .sigSet a | .waitTime a => yWA a != 0
  | .cqWake a => yWA a != 0 || yWB a != 0
  | _ => false

/-- A word that is a suspension point once it has issued (R24): SUSP, yield and halt. -/
def suspends (i : Instr) : Bool :=
  (insHdr i).susp || match i with
    | .yield _ => true
    | .halt _ => true
    | .alignSuspend => true
    | _ => false

/-- A Y word ahead in the stream has not issued (R78). -/
def Strand.behindY (st : Strand) (seq : Nat) : Bool :=
  match st.queue 5 with
  | y :: _ => y.seq < seq
  | [] => false

/-- A suspension point ahead in the stream is open (R24). -/
def Strand.behindSusp (st : Strand) (seq : Nat) : Bool :=
  match st.susp with
  | some w => w.seq < seq
  | none => false

/-- The open suspension point of an instruction (R24). -/
def Strand.opened (st : Strand) (i : Instr) : Option QWord :=
  match st.susp with
  | some w => if w.ins = i then some w else none
  | none => none

/-- Every word earlier than `seq` has issued in its engine (R78, R370). -/
def Strand.issuedBefore (st : Strand) (seq : Nat) : Bool :=
  [0, 1, 2, 3, 4, 5].all fun c => match st.queue c with
    | w :: _ => seq ≤ w.seq
    | [] => true

/-- A schedule boundary or a suspension point ahead in the stream has not issued: the word is due only once it has (R85). -/
def Strand.behindStop (st : Strand) (seq : Nat) : Bool :=
  (st.queue 5).any fun y => y.seq < seq && (isBoundary y.ins || suspends y.ins)

/-- Every earlier execute-side word has retired and the landing buffer is empty (R80, R214). -/
def Strand.retired (st : Strand) : Bool := st.land.isEmpty && st.mq.isEmpty

/-- A Y word of the holding form stands with every earlier word issued, and at a schedule boundary retired: it issues, or holds
the clock (R84, R215). -/
def Strand.yHolds (st : Strand) : Bool :=
  match st.queue 5 with
  | y :: _ => !suspends y.ins && st.issuedBefore y.seq && (!isBoundary y.ins || st.retired)
  | [] => false

/-- The issue of a copy (R159, R167). -/
def isCopy (i : Instr) : Bool :=
  match i.cell with
  | some (1, o, _) => 0x40 ≤ o && o ≤ 0x46
  | _ => false

/-- qsync and fence. -/
def isMark (i : Instr) : Bool :=
  match i with
  | .qsync _ => true
  | .fence _ => true
  | _ => false

/-- A word of the store queue that retires only as it leaves it: a copy, smp.inv, qsync and fence; stores and atomics retire as the
queue accepts them (R86, R156, R159). -/
def retiresLate (i : Instr) : Bool :=
  isCopy i || isMark i || match i with
    | .smpInv _ => true
    | _ => false

/-- Tokens in the queue from engine `c` toward `e`, with those that words in flight will push (R86). -/
def Strand.tokens (st : Strand) (c e : Nat) : Nat :=
  let push := fun w : QWord => (insHdr w.ins).push != 0 && tokEng (insHdr w.ins).push == e
  let n := (Cells.get st.tok (tokKey c e)).toNat + ((st.land.map (·.eff) ++ st.late).filter (· == .tok c e)).length
  if c = 1 then
    n + (st.lq.filter fun m => push m.w).length +
      (st.sq.filter fun m => push m.w && retiresLate m.w.ins && !(st.lq.any fun l => l.w.seq == m.w.seq)).length
  else if c = 3 then n + (st.mq.filter fun m => push m.w).length else n

/-- What readiness finds. -/
inductive Ready where
  | ok
  | wait (cause obj : Nat)
  | flt (f : Flt)
  deriving DecidableEq, Repr

/-- The first obstacle of a list. -/
def firstWait : List (Bool × Nat × Nat) → Ready
  | [] => .ok
  | (b, c, o) :: l => if b then .wait c o else firstWait l

/-- The POP token is absent, or the PUSH queue full (R86). -/
def Strand.tokWaits (st : Strand) (c : Nat) (h : Hdr) : List (Bool × Nat × Nat) :=
  [(h.pop != 0 && Cells.get st.tok (tokKey (tokEng h.pop) c) == 0, 3, tokEng h.pop),
    (h.push != 0 && 16 ≤ st.tokens c (tokEng h.push), 3, tokEng h.push)]

/-- Entries of wN, counted with those in flight (R84). -/
def Strand.wLoad (st : Strand) (n : Nat) : Nat :=
  (st.ws n).length + (st.land.filter fun l => match l.eff with | .w m _ => m == n | _ => false).length

/-- Entries of xg, counted with those in flight. -/
def Strand.xgLoad (st : Strand) : Nat :=
  st.xg.length + (st.land.filter fun l => match l.eff with | .xg _ => true | _ => false).length

/-- Words of the format word queue, counted with those in flight (R125). -/
def Strand.fmtLoad (st : Strand) : Nat :=
  st.fmt.length + (st.land.filter fun l => match l.eff with | .fmt _ => true | _ => false).length

/-- How many words of an engine a tile issues in one clk (R18, R30). -/
def engWidth (c : Nat) : Nat := if c = 2 then 2 else 1

/-- The schedule-order fault of a word whose vc the clock has passed (R85, R372). -/
def lateFlt (due now : Nat) : Flt := { cls := 3, code := 0x14, info := wordOf [(due % 2 ^ 32, 0), (now % 2 ^ 32, 32)] }

/-- Whether an execute-side word may issue now but for arbitration (R78, R81, R83, R84, R86, R88, R125). A word that meets both the
schedule-order and the issue-interval condition reports the first of them: R374 does not order the two (DESIGN CHOICE, log 61). -/
def Strand.readyBare (st : Strand) (i : Instr) (w : QWord) : Ready :=
  let c := insCls i
  let h := insHdr i
  let d := dstField i
  let e := st.engine c
  if st.stop.isSome ∨ st.behindSusp w.seq ∨ st.want ∨ st.behindY w.seq then .wait 0 0
  else if st.now < st.due c h then .wait 0 0
  else if st.due c h < st.now then .flt (lateFlt (st.due c h) st.now)
  else if e.last.isSome ∧ h.delay.toNat + 1 < e.itv then .flt { cls := 3, code := 1, info := BitVec.ofNat 64 (e.itv - 1) }
  else firstWait (
    [((st.land.any fun l => l.due ≤ st.now), 0, 0)] ++ st.tokWaits c h ++
    (qSources i).map (fun n => ((st.qs n).isEmpty, 1, 80 + n)) ++
    [(c != 3 && 88 ≤ d && d ≤ 91 && 16 ≤ st.wLoad (d - 88), 2, d),
      (c == 0 && d == 92 && 16 ≤ st.xgLoad, 2, 92)])

/-- Steps 1 and 2 of R24 are done: every earlier word has retired in every engine and the queues have drained. -/
def Strand.drained (st : Strand) : Bool := st.retired && st.lq.isEmpty && st.sq.isEmpty

/-- The same for the words before an open suspension point, which may itself stand in the matrix command queue. -/
def Strand.drainedTo (st : Strand) (w : QWord) : Bool :=
  st.issuedBefore w.seq && st.land.isEmpty && st.lq.isEmpty && st.sq.isEmpty && st.mq.all fun c => c.w.seq == w.seq

/-- Step 1 of R24 is done for a suspension point: every earlier word has retired in every engine, and every landing entry is written. A store
or an atomic that its queue holds has retired (R86). -/
def Strand.retiredTo (st : Strand) (w : QWord) : Bool :=
  st.issuedBefore w.seq && st.land.isEmpty && st.lq.isEmpty && (st.sq.all fun m => !retiresLate m.w.ins) && st.mq.all fun c => c.w.seq == w.seq

/-- The queues that must be empty at a suspension point, as INFO of 0x03/0x0002 reports them (R25, R372). -/
def Strand.leftover (st : Strand) : Word :=
  wordOf (((upFrom 0 8).map fun n => ((!(st.qs n).isEmpty).toNat, n)) ++
    ((upFrom 0 4).map fun n => ((!(st.ws n).isEmpty).toNat, 8 + n)) ++
    [((!st.xg.isEmpty).toNat, 12), ((!st.bq.isEmpty).toNat, 13), ((!st.fmt.isEmpty).toNat, 14)])

/-- The fault of a suspension point with a queue that is not empty (R25, R372). -/
def Strand.leftFlt (st : Strand) : Flt := { cls := 3, code := 2, info := st.leftover }

/-- A word whose destination is a g register where its field names one: contiguous loads, fe.ld, the atomics and cpadv (R143, R145,
R151, R154, R167). -/
def writesG (i : Instr) : Bool :=
  match i with
  | .ld _ | .ldLast _ | .feLd _ | .cpadv _ => true
  | .amoAdd _ | .amoFadd _ | .amoFmax _ | .amoMin _ | .amoMax _ | .amoAnd _ | .amoOr _ | .amoSwp _ | .amoCas _ | .amoInc _ => true
  | _ => false

/-- A register g is still to receive the old value of an atomic of the strand, or never will (R152, R397). -/
def State.owes (s : State) (uid n : Nat) (lost : Bool) : Bool :=
  (s.owedG uid).any fun a => a.lost == lost && a.gd.map (·.1) == some n

/-- What an access word asks of the access engine (R82, R148): the g registers that it reads or writes, and whether it enters the load
queue and the store queue. -/
def accArgs (i : Instr) : List Nat × Bool × Bool :=
  let gs := match i.cell with
    | some (_, _, .inl a) => [a.fd, a.fa, a.fb]
    | some (_, _, .inr a) => [a.fd, a.fa]
    | none => []
  let load := match i with
    | .ld _ | .ldLast _ | .lds _ | .ldg _ | .tld _ | .feLd _ | .smpLd _ => true
    | _ => isMark i
  let store := match i with
    | .st _ | .sts _ | .stg _ | .tst _ | .feSt _ | .feSet _ | .feClr _ | .smpInv _ => true
    | .amoAdd _ | .amoFadd _ | .amoFmax _ | .amoMin _ | .amoMax _ | .amoAnd _ | .amoOr _ | .amoSwp _ | .amoCas _ | .amoInc _ => true
    | _ => isMark i || isCopy i
  ((gs.map (·.toNat)).filter (· ≤ 31), load, store)

/-- Whether an access word may issue now but for arbitration (R78, R82, R86), while no copy of the store queue waits to close its batch (R160:
cause 13); one with SUSP only once the strand has drained and what must be empty has
been tested, so that it has no effect where it faults (R24, R25, R362). -/
def State.readyAccBare (s : State) (st : Strand) (i : Instr) (w : QWord) (gs : List Nat) (load store : Bool) : Ready :=
  let h := insHdr i
  let d := dstField i
  let pend := fun n : Nat => n != 0 &&
    ((st.lq ++ st.sq).any (fun m => writesG m.w.ins && dstField m.w.ins == n) || s.owes st.id.uid n false)
  let qn := (st.qs (d - 80)).length + (st.lq.filter fun m => dstField m.w.ins == d).length
  if st.stop.isSome ∨ st.behindSusp w.seq ∨ st.want ∨ st.behindY w.seq ∨ (h.susp ∧ !st.retiredTo w) ∨ st.causeAt 8 = 13 then .wait 0 0
  else if h.susp ∧ (st.popped i).leftover ≠ 0 then .flt (st.popped i).leftFlt
  else firstWait (
    [(decide (st.aGap < 1 + h.delay.toNat) || h.susp && !st.drainedTo w, 0, 0)] ++ st.tokWaits 1 h ++
    gs.map (fun n => (pend n, 0, n)) ++
    (popCodes i).map (fun c => ((if c = 92 then st.xg.isEmpty else (st.ws (c - 88)).isEmpty), 2, c)) ++
    [(80 ≤ d && d ≤ 87 && 16 ≤ qn, 2, d), (load && 16 ≤ st.lq.length, 0, 0), (store && 16 ≤ st.sq.length, 0, 0)])

/-- The head of an engine queue could issue in this clk but for arbitration, or faults (R30): nothing that its own meaning has found
holds it either. -/
def State.headReady (s : State) (st : Strand) (c : Nat) : Bool :=
  match st.queue c with
  | w :: _ =>
    let r := if c = 1 then
        let (gs, load, store) := accArgs w.ins
        s.readyAccBare st w.ins w gs load store
      else st.readyBare w.ins w
    st.causeAt c < 4 && match r with
      | .wait _ _ => false
      | _ => true
  | [] => false

/-- The shared engine is free for this slot in this clk (R30): not used up, and not claimed by the slot that
holds the window. -/
def State.arbFree (s : State) (k c : Nat) : Bool :=
  let t := s.tile (slotTile k)
  (t.busy.filter fun b => b.1 == c).length < engWidth c &&
    match t.round with
    | [] => true
    | h :: _ => h == k ||
        match s.strand h with
        | none => true
        | some x => !s.headReady x c

/-- Whether an access word may issue now (R30, R78, R82, R86). -/
def State.readyAcc (s : State) (k : Nat) (st : Strand) (i : Instr) (w : QWord) (gs : List Nat) (load store : Bool) : Ready :=
  match s.readyAccBare st i w gs load store with
  | .ok => if s.arbFree k 1 then .ok else .wait 0 0
  | r => r

/-- Whether an execute-side word may issue now (R30, R78 to R88, R125). -/
def State.readySide (s : State) (k : Nat) (st : Strand) (i : Instr) (w : QWord) : Ready :=
  match st.readyBare i w with
  | .ok => if s.arbFree k (insCls i) then .ok else .wait 0 0
  | r => r

/-- The word as it stands at the head of its queue, or, where it does not, as the next of the stream. -/
def Strand.headOr (st : Strand) (c : Nat) (i : Instr) : QWord × Strand :=
  match st.queue c with
  | w :: l => if w.ins = i then (w, st.setQueue c l) else (⟨i, st.pc + (insLen i - 8), st.seq⟩, { st with pc := st.pc + insLen i, seq := st.seq + 1 })
  | [] => (⟨i, st.pc + (insLen i - 8), st.seq⟩, { st with pc := st.pc + insLen i, seq := st.seq + 1 })

/-- Unit `c` of the strand in a slot waits: the cause, and since when (R424); with cause 0 it waits for nothing that the wait
register names. -/
def State.stall (s : State) (k c cause obj : Nat) : State :=
  match s.strand k with
  | none => s
  | some st =>
    let same := match Tab.find st.waits c with
      | some x => x.cause == cause && x.obj == obj
      | none => cause == 0
    let ws := if same then st.waits
      else if cause = 0 then Tab.del st.waits c
      else Tab.put st.waits c ⟨cause, obj, s.ns (slotDie k) / 1000⟩
    (s.idled k (visible st.waits && !visible ws)).setStrand k { st with waits := ws }

/-- Insert a landing entry in order of vc, and in stream order within a vc (R83, R111). -/
def landIn (e : Land) : List Land → List Land
  | [] => [e]
  | a :: l => if e.due < a.due ∨ (e.due = a.due ∧ e.seq < a.seq) then e :: a :: l else a :: landIn e l

/-- Take the POP token (R86). -/
def Strand.popTok (st : Strand) (c : Nat) (h : Hdr) : Strand :=
  if h.pop = 0 then st
  else { st with tok := Cells.set st.tok (tokKey (tokEng h.pop) c) (Cells.get st.tok (tokKey (tokEng h.pop) c) - 1) }

/-- Fetch goes on after the word that held it has issued (R77). -/
def Strand.unhold (st : Strand) (seq : Nat) : Strand := if st.hold = .issue seq then { st with hold := .run } else st

/-- The use of a shared engine (R30): for one clk, by a word of F for four (R109). -/
def State.claim (s : State) (k c : Nat) : State :=
  s.onTile (slotTile k) fun t => { t with busy := (c, if c = 4 then 4 else 1) :: t.busy }

/-- What an execute-side word takes and changes as it issues (R24), and would give back (R362). -/
def Strand.took0 (st : Strand) (i : Instr) : Took :=
  let h := insHdr i
  let pops := match i with
    | .mldw _ => true
    | .mmul _ => true
    | _ => false
  { ents := (dedup (qSources i)).filterMap (fun n => (st.qs n).head?.map fun v => (80 + n, v)) ++
      (if pops then (st.fmt.head?.map fun v => (93, v.zeroExtend 4096)).toList else [])
    tok := if h.pop = 0 then none else some (tokKey (tokEng h.pop) (insCls i))
    lc := st.lc, base := st.base, held := st.held, remain := st.remain, run := st.run, rmode := st.rmode }

/-- An execute-side word issues (R81 to R88): sources are popped, the results become landing entries at vc + L with the PUSH
token, and the engine's position is kept. A word with SUSP, yield or halt opens a suspension point, which holds its results
until step 1 of R24 is done and its test passed. -/
def Strand.issued (st : Strand) (i : Instr) (w : QWord) (effs : List Eff) : Strand :=
  let c := insCls i
  let h := insHdr i
  let t := timing i
  let all := effs ++ (if h.push = 0 ∨ c = 3 then [] else [Eff.tok c (tokEng h.push)])
  let st1 := (st.popped i).popTok c h
  { st1 with
    land := if suspends i then st1.land else all.foldl (fun l e => landIn ⟨st.now + t.2, w.seq, e⟩ l) st1.land
    eng := Tab.put st1.eng c { last := some st.now, itv := t.1 }
    susp := if suspends i then some w else st1.susp
    late := if suspends i then all else st1.late
    took := if suspends i then some (st.took0 i) else st1.took
    waits := Tab.del st1.waits c }.unhold w.seq

/-- The lease of a slot's strand ends (R196). -/
def State.endRun (s : State) (k : Nat) : State :=
  let s := if (match s.strand k with | some st => st.held | none => false) then s.endChain (slotTile k) else s
  (s.onStrand k fun st => { st with held := false, remain := 0 }).onTile (slotTile k) fun t =>
    if t.lessee = some k then { t with lessee := none } else t

/-- An entry goes back to the head of the queue that a word popped it from. -/
def Strand.giveBack (st : Strand) (e : Nat × Vec) : Strand :=
  if e.1 = 93 then { st with fmt := e.2.setWidth 64 :: st.fmt } else { st with q := Tab.put st.q (e.1 - 80) (e.2 :: st.qs (e.1 - 80)) }

/-- A word that faults at its suspension point has had no effect (R362): what it took and changed is as before it. -/
def Strand.undone (st : Strand) (w : QWord) (t : Took) : Strand :=
  let st := t.ents.foldl Strand.giveBack (st.requeue w)
  { st with
    tok := match t.tok with | some n => Cells.set st.tok n (Cells.get st.tok n + 1) | none => st.tok
    mq := st.mq.filter fun c => c.w.seq != w.seq
    pc := w.pc + 8
    lc := t.lc, base := t.base, held := t.held, remain := t.remain, run := t.run, rmode := t.rmode }

/-- The old values still to come for a strand have no register any more. -/
def State.dropOld (s : State) (uid : Nat) : State :=
  { s with dies := s.dies.map fun e => (e.1, { e.2 with acks := e.2.acks.map fun a =>
      if a.2.uid == uid && a.2.gd.isSome then (a.1, { a.2 with gd := none }) else a }) }

/-- The record is written with PC at the next word, and the strand leaves its slot (R24 steps 4 and 5, R26, R252): its L1 is
written back where it may move, the lease ends, and it joins its ready list, or waits off the slot for `wt`. Where the spec
lets it go on in its slot without a write of the record (R24, R135), it leaves the slot all the same (DESIGN CHOICE, log 62). -/
def State.suspendTo (s : State) (k : Nat) (st : Strand) (pc : Word) (wt : Option Wait) : State :=
  let d := slotDie k
  let i := s.leaving k st
  match (s.tidy k st.id).writeRecord k st false pc with
  | .ok _ s =>
    let e : Entry := { id := { i with cause := 0, tpc := 0, taddr := 0 } }
    let s := ((s.endRun k).vacate k).dropOld i.uid
    match wt with
    | none => s.makeReady d e
    | some x => s.onLaunch d st.id.launch fun l => { l with blocked := l.blocked ++ [⟨e, x⟩] }
  | .flt _ s => s.endLaunch d st.id.launch 5 none
  | .wait _ _ t => s.keepWaits t

/-- Lead allowance of a level from the launch record (R39, R308): tile, cluster, die, group. -/
def Launch.lead (l : Launch) (lvl : Nat) : Nat := bits (l.word 0) (32 + 3 * lvl) 3

/-- TILE_ID of a tile of a die (R128). -/
def tileId (t : Nat) : Nat := t + t / 6 * 256 + t % 6 * 1024

/-- The preceding and the following entry of a list, taken cyclically (R38). -/
def around (l : List Nat) (x : Nat) : List Nat :=
  let n := l.length
  let i := (l.takeWhile (· != x)).length
  if n ≤ i then [] else (dedup [l.getD ((i + n - 1) % n) x, l.getD ((i + 1) % n) x]).filter (· != x)

/-- The neighbours of an instance on a die (R38): their instance numbers. A member whose part of the launch has ended is none any
longer; one that has not begun is (DESIGN CHOICE, log 78). -/
def State.neighbours (s : State) (d : Nat) (l : Launch) (x : Dom) : List Nat :=
  let tiles := dedup (((s.die d).assign.filter fun a => a.2.1 == l.no).map fun a => a.1 / 8 % 24)
  match x.lvl with
  | 0 =>
    let t := x.inst % 32
    (((if t % 6 = 0 then [] else [t - 1]) ++ (if t % 6 = 5 then [] else [t + 1])).filter tiles.contains).map tileId
  | 1 =>
    ((if x.inst = 0 then [] else [x.inst - 1]) ++ [x.inst + 1]).filter fun c => tiles.any fun t => t / 6 == c
  | 2 => if l.span then
      ((groupOf l.group).filter fun e => e < 4 && e != d && e + d != 3).filter fun e =>
        !l.met.contains e || (s.peersOf d l).any fun p => p.1 == e
    else []
  | _ => if l.span then around (Config.enclosing l.group) l.group else []

/-- The instance may enter the next phase (R40). -/
def State.leadOk (s : State) (d : Nat) (l : Launch) (x : Dom) : Bool :=
  (s.neighbours d l x).all fun n =>
    (BitVec.ofNat 32 (x.phase + 1) - BitVec.ofNat 32 (Tab.getD x.seen n 0)).toInt ≤ l.lead x.lvl

/-- An instance enters the next phase when every joined strand has arrived and the lead allows it (R37, R40). -/
def State.domStep (s : State) (d : Nat) (l : Launch) (x : Dom) : Dom :=
  if !x.mem.isEmpty && x.mem.all x.arr.contains && s.leadOk d l x then
    { x with phase := (x.phase + 1) % 2 ^ 32, arr := [] }
  else x

/-- Place a domain instance of a launch. -/
def State.setDom (s : State) (d no : Nat) (x : Dom) : State :=
  s.onDie d fun y => { y with doms := Tab.put y.doms no (x :: (Tab.getD y.doms no []).filter fun z => !(z.lvl == x.lvl && z.inst == x.inst)) }

/-- The domain instance of a launch of a die under a level and a number. -/
def State.domAt (s : State) (d no lvl inst : Nat) : Option Dom :=
  (Tab.getD (s.die d).doms no []).find? fun y => y.lvl == lvl && y.inst == inst

/-- The instance of a die group as it stands on the dies of the launch's other members (R36). -/
def State.groupDom (s : State) (d no inst : Nat) : Option Dom :=
  (s.launch d no).bind fun l => (s.peersOf d l).findSome? fun p => s.domAt p.1 p.2 3 inst

/-- A domain instance of a launch, made on first use; of a die group with the phase and the counters received of the group's instance. -/
def State.domOf (s : State) (d no lvl inst : Nat) : Dom :=
  (s.domAt d no lvl inst).getD (match if lvl = 3 then s.groupDom d no inst else none with
    | some x => { x with mem := [], arr := [] }
    | none => { lvl := lvl, inst := inst })

/-- The instance of a die group stands on every member's die (R36): it advances when all strands joined on all of them
have arrived (R37). -/
def State.groupStep (s : State) (d : Nat) (l : Launch) (inst : Nat) : State :=
  let ms := (d, l.no) :: s.peersOf d l
  let xs := ms.map fun m => (m, s.domOf m.1 m.2 3 inst)
  if (xs.any fun x => !x.2.mem.isEmpty) && xs.all (fun x => x.2.mem.all x.2.arr.contains) && xs.all (fun x => s.leadOk d l x.2) then
    xs.foldl (fun s x => s.setDom x.1.1 x.1.2 { x.2 with phase := (x.2.phase + 1) % 2 ^ 32, arr := [] }) s
  else s

/-- Change one domain instance of a launch, and let it advance. -/
def State.onDom (s : State) (d no lvl inst : Nat) (f : Dom → Dom) : State :=
  match s.launch d no with
  | none => s
  | some l =>
    let x := f (s.domOf d no lvl inst)
    if lvl = 3 ∧ l.span then (s.setDom d no x).groupStep d l inst
    else s.setDom d no (s.domStep d l x)

/-- The phase of a domain instance (R36). -/
def State.domPhase (s : State) (d no lvl inst : Nat) : Nat := (s.domOf d no lvl inst).phase

/-- The die and launch where the domain instance of a strand stands: those where it joined, wherever it runs now (R223). -/
def Ident.domHome (i : Ident) (d : Nat) : Nat × Nat := i.dom.getD (d, i.launch)

/-- dom.leave (R223, R37). -/
def State.domLeave (s : State) (d : Nat) (i : Ident) : State :=
  if i.joined then
    s.onDom (i.domHome d).1 (i.domHome d).2 i.level.toNat i.inst.toNat fun x =>
      { x with mem := x.mem.filter (· != i.uid), arr := x.arr.filter (· != i.uid) }
  else s

/-- The batches of the package: a strand that has resumed on another die has some on each. -/
def State.allBatches (s : State) : List Batch := s.dies.flatMap fun e => e.2.batches

/-- Change the batches of every die. -/
def State.mapBatches (s : State) (f : List Batch → List Batch) : State :=
  { s with dies := s.dies.map fun e => (e.1, { e.2 with batches := f e.2.batches }) }

/-- Close the open batch of a strand where it holds a copy (R168, R169). -/
def State.closeBatch (s : State) (i : Ident) : State × Ident :=
  if s.allBatches.any fun b => b.uid == i.uid && !b.closed then
    (s.mapBatches fun l => l.map fun b => if b.uid == i.uid then { b with closed := true } else b, { i with closed := i.closed + 1 })
  else (s, i)

/-- Batches of a strand closed and not complete (R160). -/
def State.outstanding (s : State) (uid : Nat) : Nat :=
  (s.allBatches.filter fun b => b.uid == uid && b.closed && !b.done).length

/-- A wait for all but the `n` batches closed last covers a batch of a strand (R169). -/
def Batch.covered (b : Batch) (i : Ident) (n : Nat) : Bool := b.uid == i.uid && b.done && b.no + n < i.closed

/-- The oldest complete batch with a recorded fault that a wait covers, all but the `n` batches closed last
(R159, R362, R376). -/
def State.batchFlt (s : State) (i : Ident) (n : Nat) : Option (Batch × Flt) :=
  (s.allBatches.filter fun b => b.covered i n && b.flt.isSome).foldl (fun (x : Option (Batch × Flt)) b =>
    match x, b.flt with
    | none, some f => some (b, f)
    | some (a, g), some f => if b.no < a.no then some (b, f) else some (a, g)
    | x, none => x) none

/-- Batches that a wait has covered are forgotten; the lines that copies of every completed batch wrote leave the L1 of the tile that waits,
so that its strand reads what was written (R169, R275). -/
def State.reap (s : State) (k : Nat) (i : Ident) (n : Nat) : State :=
  let ls := (s.allBatches.filter fun b => b.uid == i.uid && b.done).flatMap Batch.lines
  let us := s.l1s (slotTile k)
  let s := ls.foldl (fun (s : State) x => us.foldl (fun (s : State) t => s.evictL1 t x) s) s
  s.mapBatches fun l => l.filter fun b => !b.covered i n

/-- The coherence fault of a strand's lost acknowledgements (R264, R397), with the write-off of those stores. -/
def State.ackFlt (s : State) (uid : Nat) : Option (Flt × State) :=
  let mine := fun a : Nat × Ack => a.2.uid == uid && a.2.lost
  let l := s.dies.flatMap fun e => e.2.acks.filter mine
  match l with
  | [] => none
  | (_, x) :: l' =>
    let a := l'.foldl (fun (a : Ack) y => if y.2.at_ < a.at_ then y.2 else a) x
    let f : Flt := { cls := 6, code := 1, addr := a.va, defer := true,
                     info := wordOf [(l.length % 65536, 0), (a.home % 4, 16), (a.pkg.toNat, 24)] }
    some (f, { s with dies := s.dies.map fun e => (e.1, { e.2 with acks := e.2.acks.filter fun a => !mine a }) })

/-- A release at a scope waits: at .pk and .sy, for every acknowledgement of the strand's stores and of the early stores that its
loads have returned (R263). -/
def State.acksWait (s : State) (uid sc : Nat) : Bool :=
  4 ≤ sc && s.dies.any fun e => e.2.acks.any fun a => !a.2.lost && (a.2.uid == uid || a.2.read.contains uid)

/-- The end of a strand at halt (R42, R135, R366, R367): its domain, frame and slot are given up. Of a batched launch the halt is a
release at .dd (R315). -/
def State.endStrand (s : State) (k : Nat) (st : Strand) : State :=
  let d := slotDie k
  let no := st.id.launch
  let s := if s.batched d st.id then (s.l1s (slotTile k)).foldl (fun (s : State) t => s.cleanL1 t [1]) s else s
  let s := s.tidy k st.id
  let s := ((s.domLeave d st.id).endRun k).vacate k
  if st.id.handler then
    match s.launch d no with
    | none => s
    | some l =>
      let s := s.onLaunch d no fun l => { l with hrun := none }
      if l.stopped.any fun e => some e.2 == l.hrun then s.endLaunch d no 4 none else s
  else
    let (od, ono) := st.id.org.getD (d, no)
    s.onStage od ono st.id.stage fun g => { g with freeF := g.freeF ++ [st.id.frame] }

/-- halt at step 3 of R24 (R135, R362): copies are awaited, deferred faults reported, then the strand ends. -/
def State.haltStep (s : State) (k : Nat) (st : Strand) (w : QWord) : State :=
  let c := insCls w.ins
  let back := fun (s : State) (i : Ident) => s.setStrand k { st.requeue w with id := i }
  let (s, i) := s.closeBatch st.id
  let s := s.setStrand k { st with id := i }
  if s.outstanding i.uid ≠ 0 || s.backWaits (s.l1s (slotTile k)) [1, 2] then s
  else match s.batchFlt i 0 with
    | some (b, f) =>
      (back (s.mapBatches fun l => l.filter (· != b)) i).takeFault k { f with defer := true } w.pc c
    | none =>
      if s.acksWait i.uid 4 then s
      else match s.ackFlt i.uid with
        | some (f, s) => (back s i).takeFault k f w.pc c
        | none => (s.reap k i 0).endStrand k { st with id := i }

/-- A launch's part on its own die, then those on the other members of a spanning one (R47). -/
def State.partsOf (s : State) (d no : Nat) : List (Nat × Launch) :=
  match s.launch d no with
  | none => []
  | some l => (d, l) :: (s.peersOf d l).filterMap fun p => (s.launch p.1 p.2).map fun x => (p.1, x)

/-- The fault of hret with its reason (R372, R391). -/
def hretFlt (reason : Nat) : Flt := { cls := 3, code := 0x12, info := BitVec.ofNat 64 reason }

/-- The stopped strand of a launch, on whichever member, whose record lies at an address: die, launch and entry. An address names the
same record on every member (DESIGN CHOICE, log 80). -/
def State.stoppedAt (s : State) (d no : Nat) (va : Word) : Option (Nat × Nat × Entry) :=
  (s.partsOf d no).findSome? fun p => (p.2.stopped.find? fun e => e.1.id.crec == va).map fun e => (p.1, p.2.no, e.1)

/-- Why an hret for an address finds no stopped strand (R372): 5 where the strand has been returned with its full context and has not
been picked up since, 3 where a strand of the launch has that record, else 2 (DESIGN CHOICE, log 81). -/
def State.hretWhy (s : State) (d no : Nat) (va : Word) : Nat :=
  let ps := s.partsOf d no
  let has := fun f : Entry → Bool => ps.any fun p => p.2.stages.any fun g => g.ready.any fun e => e.id.crec == va && f e
  if has fun e => e.full && bits e.id.cause 24 8 != 0x0A then 5
  else if has (fun _ => true) || (ps.any fun p => p.2.blocked.any fun b => b.e.id.crec == va) ||
      s.strands.any fun e => e.2.id.crec == va && ps.any fun p => p.1 == slotDie e.1 && p.2.no == e.2.id.launch then 3
  else 2

/-- A stopped strand leaves the list of its launch and joins its stage's ready list (R134). -/
def State.unstop (s : State) (d no : Nat) (e : Entry) : State :=
  (s.onLaunch d no fun l => { l with stopped := l.stopped.filter fun x => x.1.id.uid != e.id.uid }).makeReady d e

/-- What hret does (R134, R391): the stopped strand whose record lies at an address joins its ready list with the class that the record
gives. False where the record cannot be read, which ends the launch (R23); a save area that cannot be read fails its check with
reason 4 (DESIGN CHOICE, log 82). -/
def State.hretMove (s : State) (k : Nat) (st : Strand) (va : Word) : Res Bool :=
  let d := slotDie k
  let no := st.id.launch
  match s.stoppedAt d no va with
  | none => .flt (hretFlt (s.hretWhy d no va)) s
  | some (e, m, x) =>
    let w := s.recWho k st
    match s.readVa w kLoad va.toNat 64 with
    | .ok r s =>
      let x := { x with id := { x.id with cls := BitVec.ofNat 2 (bits (wordAt r 0) 53 2) } }
      if (wordAt r 0).getLsbD 55 then
        match s.readVa w kLoad (wordAt r 8).toNat 0x30000 with
        | .ok b s => if areaOk b then .ok true (s.unstop e m { x with full := true }) else .flt (hretFlt 4) s
        | .flt _ s => .flt (hretFlt 4) s
        | .wait c o s => .wait c o s
      else .ok true (s.unstop e m { x with full := false })
    | .flt _ s => .ok false s
    | .wait c o s => .wait c o s

/-- A word with SUSP, yield or halt that has issued passes the steps of R24. Once every earlier word has retired and the queues have
drained it is tested (R25, R372): it faults, and has had no effect, or its own results land; when it has itself retired, and no line of
its L1 is still on its way home (R333), the strand suspends. -/
def State.suspendWord (s : State) (k : Nat) (st : Strand) (w : QWord) : State :=
  if st.stop.isSome then s
  else match st.took with
    | some t =>
      if !st.retiredTo w then s
      else if st.leftover ≠ 0 then (s.setStrand k (st.undone w t)).takeFault k st.leftFlt w.pc (insCls w.ins)
      else match match t.ret with
        | some va => s.hretMove k st va
        | none => .ok true s with
      | .flt f s => (s.setStrand k (st.undone w t)).takeFault k f w.pc (insCls w.ins)
      | .wait _ _ t => s.keepWaits t
      | .ok false s => s.endLaunch (slotDie k) st.id.launch 5 none
      | .ok true s => s.setStrand k { st with land := st.late.foldl (fun l e => landIn ⟨st.now, w.seq, e⟩ l) st.land, late := [], took := none }
    | none =>
      if !(st.issuedBefore w.seq) || !st.drained || (!s.stageBound (slotDie k) st.id && s.backWaits (s.l1s (slotTile k)) [1, 2]) then s
      else match w.ins with
        | .halt _ => s.haltStep k st w
        | _ => s.suspendTo k st st.pc none

/-- The queue entries that a word reads as it issues, in the numbering of `Strand.bad` (R396): its own in the queue of its engine, the
format word and the token that it pops. -/
def wordReads (i : Instr) : List Nat :=
  let c := insCls i
  let h := insHdr i
  (291 + c) :: ((if popsFmt i then [270] else []) ++ if h.pop = 0 then [] else [271 + tokKey (tokEng h.pop) c])

/-- The meaning of an execute-side word, shared: a suspension point already open for it is passed; else it
issues when ready, waits, or faults. `body` gives its results and any change made at issue, `post` what follows
in the state. -/
def execSide (i : Instr) (s : State) (body : Strand → QWord → State → Res (List Eff × (Strand → Strand)))
    (post : Strand → QWord → State → State := fun _ _ s => s) : State :=
  let k := s.cur
  match s.strand k with
  | none => s
  | some st0 =>
    match st0.opened i with
    | some w => s.suspendWord k st0 w
    | none =>
      let (w, st) := st0.headOr (insCls i) i
      match s.readySide k st0 i w with
      | .wait c o => s.stall k (insCls i) c o
      | .flt f => s.takeFault k f w.pc (insCls i)
      | .ok =>
        if st0.meetsBad (regReads i ++ wordReads i) (qSources i) then s.takeFault k regErrFlt w.pc (insCls i)
        else match body st w s with
        | .wait c o s => s.stall k (insCls i) c o
        | .flt f s => s.takeFault k f w.pc (insCls i)
        | .ok (effs, f) s =>
          post st w (((s.setStrand k (f (st.issued i w effs))).claim k (insCls i)).idled k (st0.lastWait (insCls i)))

/-- An execute-side word whose results depend on the strand's registers alone. -/
def execReg (i : Instr) (s : State) (effs : Strand → List Eff) : Host.Outcome State Fault Refusal :=
  .next (execSide i s fun st _ s => .ok (effs st, id) s)

/-- An access word leaves its queue (R82): xg and w entries are popped, the POP token is taken. -/
def Strand.issuedA (st : Strand) (i : Instr) (w : QWord) : Strand :=
  let st := (st.popped i).popTok 1 (insHdr i)
  { st with aGap := 0, susp := if suspends i then some w else st.susp, waits := Tab.del st.waits 1 }

/-- Push a token of class A at retirement (R86). -/
def Strand.pushA (st : Strand) (i : Instr) : Strand :=
  if (insHdr i).push = 0 then st else st.land1 (.tok 1 (tokEng (insHdr i).push))

/-- The meaning of an access word, shared. `gs`: the g registers it reads; `load`, `store`: the queues it
enters; `body` gives the change made at issue. The first word to read a register g whose atomic has lost its response reports the
loss (R397). -/
def execAcc (i : Instr) (s : State) (gs : List Nat) (load store : Bool)
    (body : Strand → QWord → State → Res (Strand → Strand)) : State :=
  let k := s.cur
  match s.strand k with
  | none => s
  | some st0 =>
    match st0.opened i with
    | some w => s.suspendWord k st0 w
    | none =>
      let (w, st) := st0.headOr 1 i
      match s.readyAcc k st0 i w gs load store with
      | .wait c o => s.stall k 1 c o
      | .flt f => s.takeFault k f w.pc 1
      | .ok =>
        if st0.meetsBad (gs.map (64 + ·) ++ (popCodes i).map (176 + ·) ++ wordReads i) [] then s.takeFault k regErrFlt w.pc 1
        else match if gs.any fun n => s.owes st.id.uid n true then s.ackFlt st.id.uid else none with
        | some (f, s) => s.takeFault k f w.pc 1
        | none =>
          match body st w s with
          | .wait c o s => s.stall k 1 c o
          | .flt f s => s.takeFault k f w.pc 1
          | .ok f s => ((s.setStrand k (f (st.issuedA i w))).claim k 1).idled k (st0.lastWait 1)

/-- Put an operation into the load queue. -/
def Strand.toLoad (m : MemOp) (st : Strand) : Strand := { st with lq := st.lq ++ [m] }
/-- Put an operation into the store queue. -/
def Strand.toStore (m : MemOp) (st : Strand) : Strand := { st with sq := st.sq ++ [m] }

/-- The vc after align or a schedule boundary is vc 0 for every engine (R80, R214). -/
def Strand.rebase (st : Strand) : Strand := { st with now := 0, eng := [], fly := [], least := 0 }

/-- Whether a Y word may issue (R78, R214): every earlier word has issued, and for a boundary has retired. -/
def Strand.readyY (st : Strand) (w : QWord) (boundary : Bool) : Bool :=
  st.stop.isNone && st.susp.isNone && !st.want && (st.setQueue 5 []).issuedBefore w.seq && (!boundary || st.retired)

end Sys2Proof.Machine
end

