-- ==== Sys2Proof/Machine/Order.lean ====
section
/-! DEFINITION. What a wait of one strand means to others: inherited priority (R29, R32, R222), the acknowledgements
and cache actions of releases and acquires (R150, R216, R250, R263, R264), and results that land in the state. -/

namespace Sys2Proof.Machine

/-- The scope of a joined level (R216): .tl, .cl, .dd, and .pk for a die group. A fabric group is .sy. -/
def levelScope (lvl : Nat) (fabric : Bool) : Nat :=
  match lvl with
  | 0 => 1
  | 1 => 2
  | 2 => 3
  | _ => if fabric then 5 else 4

/-- Whether a scope reaches past an L1 (R250). -/
def pastL1 (fused : Bool) (sc : Nat) : Bool := if fused then 3 ≤ sc else 2 ≤ sc

/-- Before a release performs, the L1's dirty software-managed lines are written back (R250). -/
def State.relClean (s : State) (k : Nat) (no sc : Nat) : State :=
  let ls := s.l1s (slotTile k)
  if pastL1 (1 < ls.length) sc then ls.foldl (fun s t => s.cleanL1 t [1]) s else s

/-- After an acquire takes its value, the L1's software-managed lines are invalidated (R250). -/
def State.acqClean (s : State) (k : Nat) (no sc : Nat) : State :=
  let ls := s.l1s (slotTile k)
  if pastL1 (1 < ls.length) sc then ls.foldl (fun s t => s.flushL1 t [1]) s else s

/-- What a release finds of its strand's acknowledgements: it waits, or reports those that were lost (R264). -/
def State.release (s : State) (k uid no sc : Nat) : Res Unit :=
  if s.backWaits (s.l1s (slotTile k)) [1, 2] then .wait 0 0 s
  else if sc < 4 then .ok () (s.relClean k no sc)
  else match s.ackFlt uid with
    | some (f, s) => .flt f s
    | none => if s.acksWait uid sc then .wait 0 0 s else .ok () (s.relClean k no sc)

/-- A value lands in a system register (R126): PRIO.CLASS, DOM_MEMBER.LEVEL, and the trap registers, each in its
writable fields. -/
def Strand.landSys (st : Strand) (n : Nat) (v : Word) : Strand :=
  let i := st.id
  match n with
  | 0x009 => { st with id := { i with cls := BitVec.ofNat 2 (bits v 0 2) } }
  | 0x018 => { st with id := { i with level := BitVec.ofNat 2 (bits v 0 2) } }
  | 0x030 => { st with id := { i with cause := wordOf [(bits v 24 8, 24), (bits v 0 16, 0)] } }
  | 0x031 => { st with id := { i with tpc := wordOf [(bits v 3 53, 3)] } }
  | 0x032 => { st with id := { i with taddr := wordOf [(bits v 0 56, 0)] } }
  | _ => st

end Sys2Proof.Machine
end

