-- ==== Sys2Proof/Machine/Tensor.lean ====
section
/-! DEFINITION. Tensor records (R278 to R286): their layout, the store of elements that tst, cp.quant and cp.pages
share (R157, R407), and the read of tld (R158, R285). -/

namespace Sys2Proof.Machine

/-- Data bytes of a group of 128 elements in a format code (R281). -/
def dataOf (f : Nat) : Nat :=
  match f with
  | 0 => 256
  | 1 => 256
  | 2 => 128
  | 3 => 128
  | 4 => 128
  | 5 => 128
  | 6 => 96
  | 7 => 96
  | 8 => 64
  | 9 => 144
  | 10 => 96
  | _ => 64

/-- Scale bytes of a group (R281): four in the MX formats. -/
def scalesOf (f : Nat) : Nat := if 4 ≤ f ∧ f ≤ 8 then 4 else 0

/-- foot(f) (R281). -/
def footOf (f : Nat) : Nat := dataOf f + scalesOf f

/-- The tensor-operand fault 0x03/0x000C (R372). -/
def tensorFlt (va : Nat) : Flt := { cls := 3, code := 0xC, info := BitVec.ofNat 64 va }

/-- A little-endian number of `n` bytes at offset `o` of a list. -/
def natAt (b : List Byte) (o n : Nat) : Nat := leNat ((b.drop o).take n)

/-- Replace `n` bytes of a list at offset `o`. -/
def putNat (b : List Byte) (o n v : Nat) : List Byte := patch b o (leBytes n v)

/-- The address lies in the local window or past the address space (R137). -/
def offMemory (va n : Nat) : Bool := 2 ^ 56 ≤ va || window va n != .out

/-- Lines used as tensor records, or as tag arrays by a store path or the governor, are hardware-coherent from then on (R253,
R283): no L1 keeps a copy. -/
def State.useLine (s : State) (l : Loc) : State :=
  if s.recLines.contains l.line then s
  else
    let s := s.evictAll l.line
    { s with recLines := insertNat s.recLines l.line }

/-- The 128 bytes of a record with where they lie. -/
def State.recBytes (s : State) (w : Who) (k : Kind) (va : Nat) : Res (List Byte × Loc) :=
  if va % 128 ≠ 0 then .flt (tensorFlt va) s
  else if offMemory va 128 then .flt (addrFlt (BitVec.ofNat 64 va)) s
  else (s.translate w k va).bind fun (l, _, _) s =>
    let s := s.useLine l
    if s.poisoned l.key 128 then .flt (poisonFlt 1 (BitVec.ofNat 64 va)) s else .ok (s.peek l 128, l) s

/-- A record from its bytes. -/
def tRecOf (va : Nat) (l : Loc) (b : List Byte) : TRec :=
  let h := wordAt b 0
  { va := va, loc := l, f := bits h 0 4, ver := bits h 8 2, gran := bits h 10 2, hdr := h,
    ring := [natAt b 8 1, natAt b 9 1, natAt b 10 1, natAt b 11 1],
    data := natAt b 24 8, tags := natAt b 32 8, groups := 4 * natAt b 40 4 / footOf (bits h 0 4) }

/-- Read a record and check its format (R157, R158). -/
def State.readRec (s : State) (w : Who) (k : Kind) (va : Nat) : Res TRec :=
  (s.recBytes w k va).bind fun (b, l) s =>
    let r := tRecOf va l b
    if 11 < r.f then .flt (tensorFlt va) s else .ok r s

/-- The scale exponent of a version (R157). -/
def TRec.scale (r : TRec) (v : Nat) : Int := (r.ring.getD v 0 : Int) - 127

/-- A value under the scale of a version, times or divided by it (R157, R158): the scale byte 0xFF is NaN (R54). -/
def TRec.under (r : TRec) (v : Nat) (times : Bool) (x : Ext) : Ext :=
  if r.ring.getD v 0 = 255 then .nan else x.scale (if times then r.scale v else -r.scale v)

/-- VFMT of a version (R279). -/
def TRec.vfmt (r : TRec) (v : Nat) : Nat := bits r.hdr (20 + 4 * v) 4

/-- The granule size (R282). -/
def TRec.size (r : TRec) : Nat := 4096 * 4 ^ r.gran

/-- NG (R282). -/
def TRec.ng (r : TRec) (f : Nat) : Nat := (r.groups * dataOf f + r.size - 1) / r.size

/-- Elements in a block of a format: 32 for MX, 16 for Emmer, 1 for the scalar formats. -/
def blockOf (f : Nat) : Nat := if f < 4 then 1 else if f < 9 then 32 else 16

/-- Bytes of data per block. -/
def blockBytes (f : Nat) : Nat := dataOf f * blockOf f / 128

/-- Change a record in one indivisible update at its home, as a .g atomic (R157, R253). -/
def State.onRec (s : State) (w : Who) (l : Loc) (va : Nat) (f : List Byte → List Byte) : State :=
  s.storeLine w.die w.tile w.fused l 0 false w.uid (BitVec.ofNat 64 va) (f (s.peek l 128))

/-- Add to a field of a record, saturating. -/
def addField (b : List Byte) (o n v : Nat) : List Byte := putNat b o n (min (natAt b o n + v) (256 ^ n - 1))

/-- Add to a live count, modulo 2^32. -/
def addLive (b : List Byte) (v : Nat) (d : Int) : List Byte :=
  putNat b (48 + 4 * v) 4 (((natAt b (48 + 4 * v) 4 : Int) + d) % 2 ^ 32).toNat

/-- The byte of a granule's tag, as a store path or the governor reads it, with where it lies (R282, R283). -/
def State.tagByte (s : State) (w : Who) (k : Kind) (r : TRec) (g : Nat) : Res (Nat × Loc × Nat) :=
  let va := r.tags + g / 4
  if offMemory va 1 then .flt (addrFlt (BitVec.ofNat 64 va)) s
  else (s.translate w k va).bind fun (l, _, _) s =>
    let s := s.useLine l
    if s.poisoned l.key 1 then .flt (poisonFlt 1 (BitVec.ofNat 64 va)) s else .ok (s.peekNat l 1, l, va) s

/-- The tag of a granule as a tld reads it (R282, R285): at its home. -/
def State.tagOf (s : State) (w : Who) (k : Kind) (r : TRec) (g : Nat) : Res Nat :=
  let va := r.tags + g / 4
  if offMemory va 1 then .flt (addrFlt (BitVec.ofNat 64 va)) s
  else (s.readVa { w with home := true } k va 1).bind fun b s => .ok (leNat b / 4 ^ (g % 4) % 4) s

/-- Retag granules with a version, moving their live counts (R157). -/
def State.retag (s : State) (w : Who) (k : Kind) (r : TRec) (v : Nat) : List Nat → Res Unit
  | [] => .ok () s
  | g :: l =>
    (s.tagByte w k r g).bind fun (b, loc, va) s =>
      let t := b / 4 ^ (g % 4) % 4
      if t = v then s.retag w k r v l
      else
        let s := s.storeLine w.die w.tile w.fused loc 0 false w.uid (BitVec.ofNat 64 va)
          [BitVec.ofNat 8 (b - t * 4 ^ (g % 4) + v * 4 ^ (g % 4))]
        (s.onRec w r.loc r.va fun b => addLive (addLive b t (-1)) v 1).retag w k r v l

/-- What storing values in a format gives (R157): data bytes, MX scale bytes, and for each lane whether it counts in
bin 31, and the two event counts. -/
structure Enc where
  data   : List Byte
  scales : List Byte
  sat    : List Bool
  ovf    : Nat
  unf    : Nat
  deriving DecidableEq, Repr

/-- Quantise values for a store, `div` dividing each by the scale (R157). -/
def encodeVals (f mode : Nat) (div : Ext → Ext) (x : List Ext) : Enc :=
  if f < 4 then
    let fm := fmtOf f
    let y := x.map fun v => roundTo fm mode (div v)
    let sat := y.map fun v => match v with
      | .fin _ m e => !leMag m e fm.max.1 fm.max.2
      | _ => true
    let unf := (List.zipWith (fun a b => !Ext.isZero a && Ext.isZero b) x y).filter id
    { data := y.flatMap fun v => leBytes (fm.width / 8) (encodeF fm (satTo fm mode true v)), scales := [],
      sat := sat, ovf := (sat.filter id).length, unf := unf.length }
  else
    let qs := quantise f mode (x.map div)
    let bad := fun q : Quant => q.ovf || q.nanblk
    { data := quantBytes f qs, scales := if f < 9 then qs.map fun q => BitVec.ofNat 8 q.scale else [],
      sat := qs.flatMap fun q => q.elems.map fun _ => bad q,
      ovf := (qs.filter bad).length, unf := (qs.filter fun q => q.unf && !bad q).length }

/-- The sheaf bin of a lane (R157, R286). -/
def binOf (sat : Bool) (x : Ext) (top : Int) : Nat :=
  if sat then 31
  else match x with
    | .fin _ m e => if m = 0 then 0 else (clampI 1 30 (ilog m e - top + 30)).toNat
    | _ => 31

/-- AMAX after a store (R157): the larger magnitude, as FP32. -/
def amaxAfter (old : Nat) (x : List Ext) : Nat :=
  let m : Nat :=
    if x.any fun v => match v with | .inf _ => true | _ => false then 0x7F800000
    else
      let a := amaxOf x
      if a.1 = 0 then 0 else encodeF fp32 (.fin false a.1 a.2)
  max old m

/-- The counts of a store in the record's bytes (R157, R407). -/
def countVals (b : List Byte) (f : Nat) (s : Int) (x : List Ext) (e : Enc) : List Byte :=
  let b := putNat b 12 4 (amaxAfter (natAt b 12 4) x)
  let b := addField (addField b 16 4 e.ovf) 20 4 e.unf
  (List.zipWith (fun sat v => binOf sat v (s + emaxOf f)) e.sat x).foldl (fun b n => addField b (64 + 2 * n) 2 1) b

/-- The granules that elements gi to gi + n - 1 touch (R282). -/
def TRec.touched (r : TRec) (gi n : Nat) : List Nat :=
  let o := fun i : Nat => i / blockOf r.f * blockBytes r.f
  let a := o gi / r.size
  upFrom a (o (gi + n - 1) / r.size - a + 1)

/-- Store values from element gi on, gi and their number multiples of 128, or any of a scalar format (R157): data, scales, tags, counts.
Data and tags are written at their home: a tld never pairs them wrongly (R285). -/
def State.storeVals (s : State) (w : Who) (k : Kind) (r : TRec) (gi mode : Nat) (e : Bool) (x : List Ext) : Res Unit :=
  let sc := r.scale r.ver
  let q := encodeVals r.f mode (r.under r.ver false) x
  let va := r.data + gi / blockOf r.f * blockBytes r.f
  let sva := r.data + r.groups * dataOf r.f + 4 * (gi / 128)
  if offMemory va q.data.length then .flt (addrFlt (BitVec.ofNat 64 va)) s
  else if !q.scales.isEmpty && offMemory sva q.scales.length then .flt (addrFlt (BitVec.ofNat 64 sva)) s
  else
    (s.writeVa { w with home := true } { k with r := false } va q.data e).bind fun _ s =>
    (s.writeVa { w with home := true } { k with r := false } sva q.scales e).bind fun _ s =>
    (s.retag w k r r.ver (r.touched gi x.length)).bind fun _ s =>
      .ok () (s.onRec w r.loc r.va fun b => countVals b r.f sc x q)

/-- A part of an access that is made whole or not at all: where it faults or waits, it has no effect (R362). -/
def Res.whole {α : Type} (s : State) : Res α → Res α
  | .ok a t => .ok a t
  | .flt f _ => .flt f s
  | .wait c o t => .wait c o (s.keepWaits t)

/-- tst (R157): 128 lanes stored from element gi on. One act, so that its writer pin (R284) is never seen; a tst that faults or
waits has stored nothing and reads the record anew. -/
def State.tensorStore (s : State) (w : Who) (va gi mode : Nat) (e : Bool) (v : Vec) : Res Unit :=
  ((s.readRec w kAtomic va).bind fun r s =>
    if gi % 128 ≠ 0 ∨ r.groups * 128 < gi + 128 then .flt (tensorFlt va) s
    else s.storeVals w kAtomic r gi mode e ((upFrom 0 128).map fun i => f32 (lane v i))).whole s

/-- The value of element `i` of a group, from its data and scale bytes (R60, R61, R281). -/
def groupElem (f : Nat) (data scales : List Byte) (i : Nat) : Ext :=
  if f < 4 then
    let n := (fmtOf f).width / 8
    widen (fmtOf f) (natAt data (n * i) n)
  else
    let bn := i / blockOf f
    let blk := natAt data (bn * blockBytes f) (blockBytes f)
    if f < 9 then mxElem f blk (natAt scales bn 1) (i % 32) else emElem f blk (i % 16)

/-- The tags of granules, in order; a tag whose VFMT is not FMT is a fault (R285). -/
def State.tagsOf (s : State) (w : Who) (r : TRec) : List Nat → Res (List (Nat × Nat))
  | [] => .ok [] s
  | g :: l =>
    (s.tagOf w kAtomic r g).bind fun t s =>
      if r.vfmt t ≠ r.f then .flt (tensorFlt r.va) s
      else (s.tagsOf w r l).bind fun ts s => .ok ((g, t) :: ts) s

/-- tld (R158): 128 FP32 lanes, each element under its own granule's tag. Record, tags, data and scales are read at their home, so
that they belong together (R285). -/
def State.tensorLoad (s : State) (w : Who) (va gi : Nat) : Res Vec :=
  (s.readRec w kAtomic va).bind fun r s =>
    if gi % 128 ≠ 0 ∨ r.groups * 128 < gi + 128 then .flt (tensorFlt va) s
    else
      let dva := r.data + gi / 128 * dataOf r.f
      let sva := r.data + r.groups * dataOf r.f + 4 * (gi / 128)
      if offMemory dva (dataOf r.f) then .flt (addrFlt (BitVec.ofNat 64 dva)) s
      else if scalesOf r.f != 0 && offMemory sva (scalesOf r.f) then .flt (addrFlt (BitVec.ofNat 64 sva)) s
      else
        (s.tagsOf w r (r.touched gi 128)).bind fun ts s =>
        (s.readVa { w with home := true } kAtomic dva (dataOf r.f)).bind fun data s =>
        (s.readVa { w with home := true } kAtomic sva (scalesOf r.f)).bind fun scales s =>
          .ok (vecOf fun i =>
            let g := (gi + i) / blockOf r.f * blockBytes r.f / r.size
            let t := Tab.getD ts g r.ver
            toF32 0 (r.under t true (groupElem r.f data scales i))) s

end Sys2Proof.Machine
end

