-- ==== Sys2Proof/Machine/Access.lean ====
section
/-! DEFINITION. Class A without copies (R137 to R158): generator arithmetic, the issue of loads, stores, atomics,
full/empty operations and sampler reads into the load and store queues, and how each performs. -/

namespace Sys2Proof.Machine

/-- The g registers a word reads and writes, for its readiness (R82). -/
def gRegs (l : List (BitVec 7)) : List Nat := (l.map (·.toNat)).filter (· ≤ 31)

/-- A generator operation (R140): the result is written as it issues. -/
def execGen (i : Instr) (s : State) (d : BitVec 7) (src : List (BitVec 7)) (f : Strand → Word) :
    Host.Outcome State Fault Refusal :=
  .next (execAcc i s (gRegs (d :: src)) false false fun st _ s =>
    let v := f st
    .ok (fun x => (x.setG d.toNat v).pushA i) s)

/-- GADD (R140). -/
def execGadd (a : RForm) (s : State) : Host.Outcome State Fault Refusal :=
  execGen (.gadd a) s a.fd [a.fa, a.fb] fun st => st.srcG a.fa + st.srcG a.fb
/-- GSUB (R140). -/
def execGsub (a : RForm) (s : State) : Host.Outcome State Fault Refusal :=
  execGen (.gsub a) s a.fd [a.fa, a.fb] fun st => st.srcG a.fa - st.srcG a.fb
/-- GMUL (R140). -/
def execGmul (a : RForm) (s : State) : Host.Outcome State Fault Refusal :=
  execGen (.gmul a) s a.fd [a.fa, a.fb] fun st => st.srcG a.fa * st.srcG a.fb
/-- GAND (R140). -/
def execGand (a : RForm) (s : State) : Host.Outcome State Fault Refusal :=
  execGen (.gand a) s a.fd [a.fa, a.fb] fun st => st.srcG a.fa &&& st.srcG a.fb
/-- GOR (R140). -/
def execGor (a : RForm) (s : State) : Host.Outcome State Fault Refusal :=
  execGen (.gor a) s a.fd [a.fa, a.fb] fun st => st.srcG a.fa ||| st.srcG a.fb

/-- A left shift by an unreduced count (R140). -/
def gShl (a : Word) (n : Nat) : Word := if 64 ≤ n then 0 else a <<< n

/-- GSHL (R140). -/
def execGshl (a : RForm) (s : State) : Host.Outcome State Fault Refusal :=
  execGen (.gshl a) s a.fd [a.fa, a.fb] fun st => gShl (st.srcG a.fa) (st.srcG a.fb).toNat
/-- GSHR (R140). -/
def execGshr (a : RForm) (s : State) : Host.Outcome State Fault Refusal :=
  execGen (.gshr a) s a.fd [a.fa, a.fb] fun st =>
    let n := (st.srcG a.fb).toNat
    if 64 ≤ n then 0 else st.srcG a.fa >>> n
/-- GADDI (R140). -/
def execGaddi (a : IForm) (s : State) : Host.Outcome State Fault Refusal :=
  execGen (.gaddi a) s a.fd [a.fa] fun st => st.srcG a.fa + a.simm
/-- GLI (R140). -/
def execGli (a : IForm) (s : State) : Host.Outcome State Fault Refusal := execGen (.gli a) s a.fd [] fun _ => a.simm
/-- GSHLI (R140). -/
def execGshli (a : IForm) (s : State) : Host.Outcome State Fault Refusal :=
  execGen (.gshli a) s a.fd [a.fa] fun st => gShl (st.srcG a.fa) (a.i 0 6)

/-- AOUT (R141): pushes the outcome to bq, waiting for room. -/
def execAout (a : RForm) (s : State) : Host.Outcome State Fault Refusal :=
  .next (execAcc (.aout a) s (gRegs [a.fa, a.fb]) false false fun st _ s =>
    if 16 ≤ st.bq.length then .wait 10 0 s
    else
      let b := cond64 (a.m 0 2) (a.m 2 1 == 1) (st.srcG a.fa) (st.srcG a.fb)
      .ok (fun x => ({ x with bq := x.bq ++ [b] }).pushA (.aout a)) s)

/-- Bytes of a contiguous access (R142): SZ under a register code. -/
def sizeOf (sz code : Nat) : Nat := if 80 ≤ code ∧ code ≤ 91 then 64 * 2 ^ sz else 2 ^ sz

/-- SZ of ld, st and ld.last (R142). -/
def szOf (a : IForm) : Nat := a.ctl / 16

/-- The offset of ld, st and ld.last (R142). -/
def memOff (a : IForm) : Word :=
  match a.ext with
  | some _ => (a.imm64.extractLsb' 0 58).signExtend 64
  | none => (BitVec.ofNat 16 (a.i 0 16)).signExtend 64

/-- The address checks of a contiguous access at its issue (R137, R143). -/
def contigFlt (va : Word) (n : Nat) : Option Flt :=
  if 2 ^ 56 ≤ va.toNat || window va.toNat n == .bad then some (addrFlt va)
  else if va.toNat % (if n ≤ 8 then n else 64) != 0 then some (alignFlt va)
  else none

/-- An operation enters the load queue with its checks made (R148). -/
def issueLoad (i : Instr) (s : State) (g : List (BitVec 7)) (mk : Strand → MemOp) (chk : MemOp → Option Flt) :
    Host.Outcome State Fault Refusal :=
  .next (execAcc i s (gRegs g) true false fun st w s =>
    let m := { mk st with w := w, at_ := s.time }
    match chk m with
    | some f => .flt f s
    | none => .ok (Strand.toLoad m) s)

/-- An operation enters the store queue with its checks made, and retires there (R86, R148). -/
def issueStore (i : Instr) (s : State) (g : List (BitVec 7)) (mk : Strand → MemOp) (chk : MemOp → Option Flt)
    (retires : Bool := true) : Host.Outcome State Fault Refusal :=
  .next (execAcc i s (gRegs g) false true fun st w s =>
    let m := { mk st with w := w }
    match chk m with
    | some f => .flt f s
    | none => .ok (fun x => let x := x.toStore m; if retires then x.pushA i else x) s)

/-- A placeholder of the queue entry's word, filled at issue. -/
def noWord : QWord := ⟨.align, 0, 0⟩

/-- LD (R143). -/
def execLd (a : IForm) (s : State) : Host.Outcome State Fault Refusal :=
  issueLoad (.ld a) s [a.fd, a.fa] (fun st => { w := noWord, a := st.srcG a.fa + memOff a })
    fun m => contigFlt m.a (sizeOf (szOf a) a.fd.toNat)

/-- LD_LAST (R145). -/
def execLdLast (a : IForm) (s : State) : Host.Outcome State Fault Refusal :=
  issueLoad (.ldLast a) s [a.fd, a.fa] (fun st => { w := noWord, a := st.srcG a.fa + memOff a })
    fun m => contigFlt m.a (sizeOf (szOf a) a.fd.toNat)

/-- ST (R143): FD is the data source. -/
def execSt (a : IForm) (s : State) : Host.Outcome State Fault Refusal :=
  issueStore (.st a) s [a.fd, a.fa] (fun st => { w := noWord, a := st.srcG a.fa + memOff a, data := st.srcData a.fd })
    fun m => contigFlt m.a (sizeOf (szOf a) a.fd.toNat)

/-- LDS (R146). -/
def execLds (a : RForm) (s : State) : Host.Outcome State Fault Refusal :=
  issueLoad (.lds a) s [a.fa, a.fb] (fun st => { w := noWord, a := st.srcG a.fa, b := st.srcG a.fb }) fun _ => none

/-- STS (R146). -/
def execSts (a : RForm) (s : State) : Host.Outcome State Fault Refusal :=
  issueStore (.sts a) s [a.fa, a.fb]
    (fun st => { w := noWord, a := st.srcG a.fa, b := st.srcG a.fb, data := st.srcData a.fd }) fun _ => none

/-- LDG (R147). -/
def execLdg (a : RForm) (s : State) : Host.Outcome State Fault Refusal :=
  issueLoad (.ldg a) s [a.fa] (fun st => { w := noWord, a := st.srcG a.fa, idx := st.srcW a.fb }) fun _ => none

/-- STG (R147). -/
def execStg (a : RForm) (s : State) : Host.Outcome State Fault Refusal :=
  issueStore (.stg a) s [a.fa]
    (fun st => { w := noWord, a := st.srcG a.fa, data := st.srcData a.fd, idx := st.srcW a.fb }) fun _ => none

/-- The value checks of tst and tld (R157): the first element, the record's address. -/
def tensorCheck (gi gr : Word) : Option Flt :=
  if gi.toNat % 128 != 0 || gr.toNat % 128 != 0 then some (tensorFlt gr.toNat)
  else if offMemory gr.toNat 128 then some (addrFlt gr) else none

/-- TLD (R158). -/
def execTld (a : RForm) (s : State) : Host.Outcome State Fault Refusal :=
  issueLoad (.tld a) s [a.fa, a.fb] (fun st => { w := noWord, a := st.srcG a.fa, b := st.srcG a.fb })
    fun m => tensorCheck m.a m.b

/-- TST (R157). -/
def execTst (a : RForm) (s : State) : Host.Outcome State Fault Refusal :=
  issueStore (.tst a) s [a.fa, a.fb]
    (fun st => { w := noWord, a := st.srcG a.fa, b := st.srcG a.fb, data := st.srcData a.fd })
    fun m => tensorCheck m.a m.b

/-- A word that stands in both queues (R148): qsync and fence. -/
def issueBoth (i : Instr) (s : State) : Host.Outcome State Fault Refusal :=
  .next (execAcc i s [] true true fun _ w s =>
    .ok (fun x => (x.toLoad { w := w }).toStore { w := w }) s)

/-- QSYNC (R149). -/
def execQsync (a : RForm) (s : State) : Host.Outcome State Fault Refusal := issueBoth (.qsync a) s
/-- FENCE (R150). -/
def execFence (a : RForm) (s : State) : Host.Outcome State Fault Refusal := issueBoth (.fence a) s

/-- Bytes of an atomic (R151). -/
def amoBytes (a : RForm) : Nat := if a.m 0 4 = 2 ∨ a.m 0 4 = 3 then 8 else 4

/-- The address checks of an atomic (R137, R151): no accumulator window, aligned to the width. -/
def amoFlt (va : Word) (n : Nat) : Option Flt :=
  if 2 ^ 56 ≤ va.toNat then some (addrFlt va)
  else match window va.toNat n with
    | .bad => some (addrFlt va)
    | .acc _ => some (addrFlt va)
    | _ => if va.toNat % n != 0 then some (alignFlt va) else none

/-- An atomic enters the store queue (R151, R152): `b` is gb, `d` what gd held at issue. -/
def issueAmo (i : Instr) (a : RForm) (s : State) : Host.Outcome State Fault Refusal :=
  issueStore i s [a.fd, a.fa, a.fb]
    (fun st => { w := noWord, a := st.srcG a.fa, b := st.srcG a.fb, d := st.gr a.fd.toNat })
    fun m => amoFlt m.a (amoBytes a)

/-- AMO_ADD (R151). -/
def execAmoAdd (a : RForm) (s : State) : Host.Outcome State Fault Refusal := issueAmo (.amoAdd a) a s
/-- AMO_FADD (R153). -/
def execAmoFadd (a : RForm) (s : State) : Host.Outcome State Fault Refusal := issueAmo (.amoFadd a) a s
/-- AMO_FMAX (R153). -/
def execAmoFmax (a : RForm) (s : State) : Host.Outcome State Fault Refusal := issueAmo (.amoFmax a) a s
/-- AMO_MIN (R151). -/
def execAmoMin (a : RForm) (s : State) : Host.Outcome State Fault Refusal := issueAmo (.amoMin a) a s
/-- AMO_MAX (R151). -/
def execAmoMax (a : RForm) (s : State) : Host.Outcome State Fault Refusal := issueAmo (.amoMax a) a s
/-- AMO_AND (R151). -/
def execAmoAnd (a : RForm) (s : State) : Host.Outcome State Fault Refusal := issueAmo (.amoAnd a) a s
/-- AMO_OR (R151). -/
def execAmoOr (a : RForm) (s : State) : Host.Outcome State Fault Refusal := issueAmo (.amoOr a) a s
/-- AMO_SWP (R151). -/
def execAmoSwp (a : RForm) (s : State) : Host.Outcome State Fault Refusal := issueAmo (.amoSwp a) a s
/-- AMO_CAS (R151). -/
def execAmoCas (a : RForm) (s : State) : Host.Outcome State Fault Refusal := issueAmo (.amoCas a) a s
/-- AMO_INC (R151). -/
def execAmoInc (a : RForm) (s : State) : Host.Outcome State Fault Refusal := issueAmo (.amoInc a) a s

/-- The larger of two FP32 values (R153): canonical NaN for a NaN, +0 over -0. -/
def fmaxF (x y : Lane) : Lane :=
  if f32 x = .nan ∨ f32 y = .nan then qnan
  else if (f32 x).lt (f32 y) then y
  else if (f32 y).lt (f32 x) then x
  else x &&& y

/-- new(m, b) of an atomic of `w` bits (R151, R153); `d` is the old gd. -/
def amoNew (i : Instr) (w : Nat) (m b d : Nat) : Nat :=
  let sg := fun x : Nat => (BitVec.ofNat w x).toInt
  let signed := fun a : RForm => a.m 0 4 == 1 || a.m 0 4 == 3
  match i with
  | .amoAdd _ => (m + b) % 2 ^ w
  | .amoFadd _ => (toF32 0 (Ext.add false (f32 (BitVec.ofNat 32 m)) (f32 (BitVec.ofNat 32 b)))).toNat
  | .amoFmax _ => (fmaxF (BitVec.ofNat 32 m) (BitVec.ofNat 32 b)).toNat
  | .amoMin a => if signed a then (if sg m ≤ sg b then m else b) else min m b
  | .amoMax a => if signed a then (if sg m ≤ sg b then b else m) else max m b
  | .amoAnd _ => m &&& b
  | .amoOr _ => m ||| b
  | .amoSwp _ => b
  | .amoCas _ => if m = d then b else m
  | .amoInc _ => (m + 1) % 2 ^ w
  | _ => m

/-- The checks of a full/empty operation (R143, R154): the scratchpad window and alignment. -/
def feFlt (va : Word) (n al : Nat) : Option Flt :=
  match window va.toNat n with
  | .spad _ => if va.toNat % al != 0 then some (alignFlt va) else none
  | _ => some (addrFlt va)

/-- Bytes and alignment of fe.ld and fe.st (R154). -/
def feSize (a : RForm) : Nat := sizeOf (a.m 0 2) a.fd.toNat

/-- FE_LD (R154). -/
def execFeLd (a : RForm) (s : State) : Host.Outcome State Fault Refusal :=
  issueLoad (.feLd a) s [a.fd, a.fa] (fun st => { w := noWord, a := st.srcG a.fa })
    fun m => feFlt m.a (feSize a) (min 64 (feSize a))

/-- FE_ST (R154): FD is the data source. -/
def execFeSt (a : RForm) (s : State) : Host.Outcome State Fault Refusal :=
  issueStore (.feSt a) s [a.fd, a.fa] (fun st => { w := noWord, a := st.srcG a.fa, data := st.srcData a.fd })
    fun m => feFlt m.a (feSize a) (min 64 (feSize a))

/-- FE_SET (R154). -/
def execFeSet (a : RForm) (s : State) : Host.Outcome State Fault Refusal :=
  issueStore (.feSet a) s [a.fa, a.fb] (fun st => { w := noWord, a := st.srcG a.fa, b := st.srcG a.fb })
    fun m => feFlt m.a m.b.toNat 1

/-- FE_CLR (R154). -/
def execFeClr (a : RForm) (s : State) : Host.Outcome State Fault Refusal :=
  issueStore (.feClr a) s [a.fa, a.fb] (fun st => { w := noWord, a := st.srcG a.fa, b := st.srcG a.fb })
    fun m => feFlt m.a m.b.toNat 1

/-- SMP_LD (R155): contiguous, or a gather with MOD[14]. -/
def execSmpLd (a : RForm) (s : State) : Host.Outcome State Fault Refusal :=
  if a.m 14 1 = 1 then
    issueLoad (.smpLd a) s [a.fa] (fun st => { w := noWord, a := st.srcG a.fa, idx := st.srcW a.fb }) fun _ => none
  else
    issueLoad (.smpLd a) s [a.fa] (fun st => { w := noWord, a := st.srcG a.fa }) fun m =>
      let n := 64 * 2 ^ a.m 0 2
      if offMemory m.a.toNat n then some (addrFlt m.a)
      else if m.a.toNat % 64 != 0 then some (alignFlt m.a) else none

/-- SMP_INV (R156): retires when its clearing has ended. -/
def execSmpInv (a : RForm) (s : State) : Host.Outcome State Fault Refusal :=
  issueStore (.smpInv a) s [] (fun _ => { w := noWord }) (fun _ => none) false

/-- How an access orders others (R139, R142, R150): acquire, release, scope. -/
def ordOf (i : Instr) : Bool × Bool × Nat :=
  let os := fun a : IForm => a.ctl / 2 % 8
  let od := fun a : RForm => (a.m 13 2 % 2 == 1, decide (2 ≤ a.m 13 2), a.m 10 3)
  match i with
  | .ld a => (os a != 0, false, os a - 1)
  | .ldLast a => (os a != 0, false, os a - 1)
  | .st a => (false, os a != 0, os a - 1)
  | .lds a => od a
  | .ldg a => od a
  | .sts a => od a
  | .stg a => od a
  | .fence a => od a
  | .amoAdd a => od a
  | .amoFadd a => od a
  | .amoFmax a => od a
  | .amoMin a => od a
  | .amoMax a => od a
  | .amoAnd a => od a
  | .amoOr a => od a
  | .amoSwp a => od a
  | .amoCas a => od a
  | .amoInc a => od a
  | .smpInv a => (true, false, a.m 10 3)
  | .sigSet a => (false, true, a.fd.toNat / 16)
  | _ => (false, false, 0)

/-- An atomic of R151. -/
def isAmo (i : Instr) : Bool :=
  match i.cell with
  | some (1, o, _) => 0x20 ≤ o && o ≤ 0x29
  | _ => false

/-- Bytes of an element type TY (R146). -/
def tyBytes (ty : Nat) : Nat := if ty ≤ 1 then 1 else if ty ≤ 3 then 2 else 4

/-- The scratchpad lines that a range of the local window touches. -/
def spadLines (r : Nat × Nat) : List Nat :=
  let lo := max r.1 0xFF000000000000
  let hi := min (r.1 + r.2) (0xFF000000000000 + 0x400000)
  if hi ≤ lo then [] else upFrom ((lo - 0xFF000000000000) / 128) ((hi - 1 - 0xFF000000000000) / 128 - (lo - 0xFF000000000000) / 128 + 1)

/-- The byte ranges of memory that a queued load reads, or a queued store or atomic writes, as its operands name them; a tensor word's are
not in the local window (R137). -/
def MemOp.ranges (m : MemOp) : List (Nat × Nat) :=
  let lanes := fun a : RForm => (upFrom 0 128).filterMap fun i => (m.laneAddr i).map fun v => (v.toNat, tyBytes (a.m 0 4))
  match m.w.ins with
  | .ld a => [(m.a.toNat, sizeOf (szOf a) a.fd.toNat)]
  | .ldLast a => [(m.a.toNat, sizeOf (szOf a) a.fd.toNat)]
  | .st a => [(m.a.toNat, sizeOf (szOf a) a.fd.toNat)]
  | .feLd a => [(m.a.toNat, feSize a)]
  | .lds a | .ldg a | .sts a | .stg a => lanes a
  | .sigSet _ => [(m.a.toNat, 8)]
  | _ => if isAmo m.w.ins then [(m.a.toNat, 8)] else []

/-- The stream TLB that serves an access of 64 bytes or more (R325), `n` being 1 for a load and 2 for a store, with the direction
of its stream. -/
def MemOp.who (m : MemOp) (n : Nat) (w : Who) : Who :=
  let big := match m.w.ins with
    | .ld a => decide (64 ≤ sizeOf (szOf a) a.fd.toNat)
    | .ldLast a => decide (64 ≤ sizeOf (szOf a) a.fd.toNat)
    | .st a => decide (64 ≤ sizeOf (szOf a) a.fd.toNat)
    | .lds _ | .ldg _ | .sts _ | .stg _ | .tld _ | .tst _ | .smpLd _ => true
    | _ => false
  let down := match m.w.ins with
    | .lds _ | .sts _ => m.b.msb
    | _ => false
  if big then { w with stream := n, down := down } else w

/-- The head of the store queue may leave (R148 to R150): earlier loads that hold it have taken their values. -/
def Strand.storeMay (st : Strand) (m : MemOp) : Bool :=
  let early := st.lq.filter fun e => e.w.seq < m.w.seq
  let o := ordOf m.w.ins
  match m.w.ins with
  | .qsync _ => (early.filter fun e => !isMark e.w.ins).isEmpty
  | .fence _ => (early.filter fun e => !isMark e.w.ins).isEmpty
  | .smpInv _ => early.isEmpty
  | _ => if o.2.1 then early.isEmpty else !(early.any fun e => (ordOf e.w.ins).1 && !isMark e.w.ins)

/-- An element extended to 32 bits (R146). -/
def tyExtend (ty v : Nat) : Lane :=
  if ty = 1 then (BitVec.ofNat 8 v).signExtend 32
  else if ty = 3 then (BitVec.ofNat 16 v).signExtend 32 else BitVec.ofNat 32 v

/-- The address and alignment fault of a lane (R373). -/
def laneFlt (va : Word) (n i : Nat) : Option Flt :=
  if 2 ^ 56 ≤ va.toNat || window va.toNat n == .bad then some (addrFlt va i)
  else if va.toNat % n != 0 then some (alignFlt va i)
  else none

/-- Lanes of a strided or gathered load, read by `rd`. -/
def loadLanes (ty : Nat) (m : MemOp) (rd : State → Word → Nat → Res (List Byte)) (extra : Word → Nat → Option Flt) :
    List Nat → State → Res (List Lane)
  | [], s => .ok [] s
  | i :: l, s =>
    match m.laneAddr i with
    | none => (loadLanes ty m rd extra l s).bind fun r s => .ok (0 :: r) s
    | some va =>
      match laneFlt va (tyBytes ty) i, extra va i with
      | some f, _ => .flt f s
      | none, some f => .flt f s
      | none, none =>
        (rd s va (tyBytes ty)).bind fun b s =>
          (loadLanes ty m rd extra l s).bind fun r s => .ok (tyExtend ty (leNat b) :: r) s

/-- A vector from a list of lanes. -/
def vecList (l : List Lane) : Vec := vecOf fun i => l.getD i 0

/-- A queue entry from bytes, the rest zero. -/
def vecBytes (b : List Byte) : Vec := BitVec.ofNat 4096 (leNat b)

/-- A line enters the sampler cache of a tile (R155), as old as the copy in cache `src` that it comes from; a full one gives up another
line, which one being open. -/
def State.intoSmp (s : State) (t line : Nat) (b : List Byte) (src : Option Nat) : State :=
  let n := (s.tile t).smp.length
  let (j, s) := if 512 ≤ n then s.pick n else (n, s)
  (s.onTile t fun t =>
    { t with smp := Tab.put (match t.smp[j]? with | some e => Tab.del t.smp e.1 | none => t.smp) line { data := b } }).taken line (4 + t) src

/-- `n` bytes of one line through the sampler cache of a tile (R155): held, or filled from memory. Memory that no cache of the die may
hold is read past it (R245). -/
def State.sampleLine (s : State) (w : Who) (va n : Nat) : Res (List Byte) :=
  (s.translate w kLoad va).bind fun (l, coh, _) s =>
    let bad : State → Res (List Byte) := fun s => .flt (poisonFlt 1 (BitVec.ofNat 64 va)) s
    if !l.cachedOn w.die then if s.viewBad w l coh n then bad s else let (b, s) := s.view w l coh n; .ok b s
    else
      let cut := fun b : List Byte => (b.drop (l.key % 128)).take n
      match Tab.find (s.tile w.tile).smp l.line with
      | some c => if c.bad then bad s else .ok (cut c.data) (s.heard w.uid l (some (4 + w.tile)))
      | none =>
        if s.viewBad w l.base coh 128 then bad s
        else
          let src := s.servedBy w l coh
          let (b, s) := s.view w l.base coh 128
          .ok (cut b) (s.intoSmp w.tile l.line b src)

/-- The place of a line of device or host memory, by its number. -/
def locOf (line : Nat) : Option Loc :=
  let k := line * 128
  if k < 2 ^ 54 then some (.hbm (k / 2 ^ 52) (k % 2 ^ 52)) else if k < 2 ^ 55 then some (.host ((k - 2 ^ 54) / 2 ^ 52) (k % 2 ^ 52)) else none

/-- The sampler cache of a tile may hold any line that its die caches, as it was at any time since the last smp.inv (R155): it takes one
as the tile sees it now. -/
def State.prefetch (s : State) (t line : Nat) : State :=
  let d := t / 24
  match locOf line with
  | none => s
  | some l =>
    if (s.tile t).invT.isSome || 512 ≤ (s.tile t).smp.length || (Tab.find (s.tile t).smp line).isSome || !l.cachedOn d then s
    else
      let l2 := if l.home = d then none else Tab.find (s.die d).l2 line
      match (Tab.find (s.tile (l1Tile (s.fusedAt t) t line)).l1 line).or l2 with
      | some c => if c.bad then s else s.intoSmp t line c.data (if l2 = some c then some d else none)
      | none => if s.poisoned (line * 128) 128 then s else s.intoSmp t line (readMem s.mem (line * 128) 128) none

/-- A line leaves the sampler cache of a tile: the traffic of any strand may evict it (R155). -/
def State.evictSmp (s : State) (t line : Nat) : State := s.onTile t fun x => { x with smp := Tab.del x.smp line }

/-- Bytes through the sampler cache, line by line. -/
def State.sample (s : State) (w : Who) : Nat → Nat → Nat → Res (List Byte)
  | 0, _, _ => .ok [] s
  | fuel + 1, va, n =>
    if n = 0 then .ok [] s
    else
      let m := min n (128 - va % 128)
      (s.sampleLine w va m).bind fun b s =>
        (s.sample w fuel (va + m) (n - m)).bind fun r s => .ok (b ++ r) s

/-- Lines touched by a contiguous access outside the window leave the caches (R145). -/
def State.discardAt (s : State) (w : Who) (va n : Nat) : Res Unit :=
  if window va n != .out then .ok () s
  else
    (upFrom (va / 128) ((va + n - 1) / 128 - va / 128 + 1)).foldl (fun r ln =>
      r.bind fun _ s => (s.translate w kLoad (max va (ln * 128))).bind fun (l, _, _) s =>
        .ok () (s.discard w.die w.tile w.fused l.line)) (.ok () s)

/-- How far a fe.ld has come (R154, R394): read whole; at an empty line; at a poisoned byte, by its offset in the access. -/
inductive FeOut where
  | done
  | empty (line : Nat)
  | bad (o : Nat)
  deriving DecidableEq, Repr

/-- fe.ld (R154): lines in ascending order, each waited for, read and with take marked empty; a poisoned one is not read (R394). Answers
the bytes read so far and how far it has come. -/
def State.feLoad (s : State) (t o n : Nat) (take : Bool) : Nat → Nat → List Byte → State × List Byte × FeOut
  | 0, _, acc => (s, acc, .done)
  | fuel + 1, done, acc =>
    if n ≤ done then (s, acc, .done)
    else
      let p := o + done
      if !s.full t (p / 128) then (s, acc, .empty (p / 128))
      else
        let m := min (n - done) (128 - p % 128)
        if s.poisoned (Loc.spad t p).key m then (s, acc, .bad done)
        else
          let b := s.peek (.spad t p) m
          let s := if take then s.setFull t (p / 128) false else s
          s.feLoad t o n take fuel (done + m) (acc ++ b)

/-- fe.st (R154): lines in ascending order, each waited for, written and marked full. -/
def State.feStore (s : State) (t o : Nat) (b : List Byte) : Nat → Nat → State × Nat × Option Nat
  | 0, done => (s, done, none)
  | fuel + 1, done =>
    if b.length ≤ done then (s, done, none)
    else
      let p := o + done
      if s.full t (p / 128) then (s, done, some (p / 128))
      else
        let m := min (b.length - done) (128 - p % 128)
        let s := (s.poke (.spad t p) ((b.drop done).take m)).setFull t (p / 128) true
        s.feStore t o b fuel (done + m)

/-- The value of a load-queue entry (R143 to R147, R155, R158): a queue entry, or the word for a g register. -/
def State.loadRead (s : State) (w : Who) (m : MemOp) : Res Vec :=
  let contig := fun a : IForm => (s.readVa w kLoad m.a.toNat (sizeOf (szOf a) a.fd.toNat)).bind fun b s => .ok (vecBytes b) s
  match m.w.ins with
  | .ld a => contig a
  | .ldLast a => contig a
  | .lds a =>
    (loadLanes (a.m 0 4) m (fun s va n => s.readVa w kLoad va.toNat n) (fun _ _ => none) (upFrom 0 128) s).bind
      fun l s => .ok (vecList l) s
  | .ldg a =>
    (loadLanes (a.m 0 4) m (fun s va n => s.readVa w kLoad va.toNat n) (fun _ _ => none) (upFrom 0 128) s).bind
      fun l s => .ok (vecList l) s
  | .smpLd a =>
    if (s.tile w.tile).invT.isSome then .wait 0 0 s
    else if a.m 14 1 = 1 then
      (loadLanes (a.m 0 4) m (fun s va n => s.sample w 2 va.toNat n)
        (fun va i => if offMemory va.toNat 1 then some (addrFlt va i) else none) (upFrom 0 128) s).bind
        fun l s => .ok (vecList l) s
    else (s.sample w 6 m.a.toNat (64 * 2 ^ a.m 0 2)).bind fun b s => .ok (vecBytes b) s
  | .tld _ => s.tensorLoad w m.b.toNat m.a.toNat
  | _ => .ok 0 s

/-- The value of a load, and for ld.last the discard of the lines that it has touched (R145). -/
def State.loadValue (s : State) (w : Who) (m : MemOp) : Res Vec :=
  (s.loadRead w m).bind fun v s => match m.w.ins with
    | .ldLast a => (s.discardAt w m.a.toNat (sizeOf (szOf a) a.fd.toNat)).bind fun _ s => .ok v s
    | _ => .ok v s

/-- The lanes of 32 bits that a load reads as one (R143, R146, R155): 8 bytes of a contiguous load, an element of the others; none where it
reads all of its bytes as one (fe.ld line by line, tld under its pin). Where two loads may differ, R143's unit of 8 bytes is taken for ld
(DEDUCED, log 84). -/
def loadUnit (i : Instr) : Option Nat :=
  match i with
  | .ld _ => some 2
  | .ldLast _ => some 2
  | .lds _ => some 1
  | .ldg _ => some 1
  | .smpLd _ => some 1
  | _ => none

/-- Units of `u` lanes from `a` where the mask has their bit, else from `b`. -/
def mixVec (u mask : Nat) (a b : Vec) : Vec := vecOf fun i => if mask.testBit (i / u) then lane a i else lane b i

/-- Each unit of a load takes its value at its own instant (R143, R247): of those read before its data arrive, or now. -/
def State.mixSeen (s : State) (m : MemOp) (v : Vec) : Vec × State :=
  match m.seen, loadUnit m.w.ins with
  | some a, some u =>
    let (j, s) := s.pick (2 ^ 128)
    (mixVec u j a v, s)
  | _, _ => (v, s)

/-- The fault of an access at the head of a queue stops the strand; during a stop it holds what is behind it, and is the one reported
where its word is earlier in the stream (R363, R384). -/
def State.accessFlt (s : State) (k : Nat) (f : Flt) (pc : Word) (fq : Nat) : State :=
  match s.strand k with
  | none => s
  | some st =>
    match st.stop with
    | some p =>
      let s := s.setStrand k { st with stop := some { p with stuck := p.stuck || fq == 2, held := p.held || fq == 1 } }
      if p.pre || p.ended || p.seq ≤ st.seqAt 1 fq then s.settle k else s.takeFault k f pc 1 fq
    | none => s.takeFault k f pc 1 fq

/-- A load has its data (R86, R143): its destination is written, its token pushed, the acquire takes effect. -/
def Strand.delivered (st : Strand) (m : MemOp) (v : Vec) : Strand :=
  let d := dstField m.w.ins
  let st := { st with lq := st.lq.drop 1, waits := Tab.del st.waits 7 }
  let st := if 80 ≤ d ∧ d ≤ 87 then { st with q := Tab.put st.q (d - 80) (st.qs (d - 80) ++ [v]) }
    else st.setG d (v.extractLsb' 0 64)
  st.pushA m.w.ins

/-- A mark leaves one queue; its token is pushed when it has left both (R149, R150). -/
def Strand.markGone (st : Strand) (m : MemOp) : Strand :=
  if (st.lq ++ st.sq).any fun e => e.w.seq == m.w.seq then st else st.pushA m.w.ins

/-- What performing the head of a store queue gives. -/
inductive Sq where
  /-- it has performed -/
  | done (s : State)
  /-- it waits, as far as `m` says -/
  | wait (cause obj : Nat) (m : MemOp) (s : State)
  /-- it faults, as far as `m` says -/
  | flt (f : Flt) (m : MemOp) (s : State)

/-- Lanes of a strided or scattered store from `part` on, in ascending order (R146, R147). -/
def State.storeLanes (s : State) (w : Who) (ty : Nat) (e : Bool) (m : MemOp) : List Nat → Sq
  | [] => .done s
  | i :: l =>
    if i < m.part then s.storeLanes w ty e m l
    else match m.laneAddr i with
      | none => s.storeLanes w ty e m l
      | some va =>
        match laneFlt va (tyBytes ty) i with
        | some f => .flt f { m with part := i } s
        | none =>
          match s.writeVa w kStore va.toNat (leBytes (tyBytes ty) (lane m.data i).toNat) e with
          | .ok _ s => s.storeLanes w ty e m l
          | .flt f s => .flt f { m with part := i } s
          | .wait c o s => .wait c o { m with part := i } s

/-- What a part gives as the outcome of a store-queue entry that has no parts of its own. -/
def Sq.ofRes (m : MemOp) : Res Unit → Sq
  | .ok _ s => .done s
  | .flt f s => .flt f m s
  | .wait c o s => .wait c o m s

/-- The effect of a store, tensor store or full/empty operation at the head of its queue. -/
def State.storeEffect (s : State) (w : Who) (m : MemOp) : Sq :=
  let off := m.a.toNat - 0xFF000000000000
  let mark := fun (b : Bool) =>
    if m.b = 0 then s
    else (upFrom (off / 128) ((off + m.b.toNat - 1) / 128 - off / 128 + 1)).foldl (fun s l => s.setFull w.tile l b) s
  match m.w.ins with
  | .st a =>
    let b := (leBytes (sizeOf (szOf a) a.fd.toNat) m.data.toNat).drop m.part
    match s.writePieces w kStore (a.ctl % 2 == 1) (m.a.toNat + m.part) (b.length / 128 + 2) b 0 with
    | (s, _, none) => .done s
    | (s, n, some (.inl f)) => .flt f { m with part := m.part + n } s
    | (s, n, some (.inr (c, o))) => .wait c o { m with part := m.part + n } s
  | .sts a => s.storeLanes w (a.m 0 4) (a.m 9 1 == 1) m (upFrom 0 128)
  | .stg a => s.storeLanes w (a.m 0 4) (a.m 9 1 == 1) m (upFrom 0 128)
  | .tst a => Sq.ofRes m (s.tensorStore w m.b.toNat m.a.toNat (a.m 0 3) (a.m 9 1 == 1) m.data)
  | .feSt a =>
    match s.feStore w.tile off (leBytes (feSize a) m.data.toNat) 6 m.part with
    | (s, _, none) => .done s
    | (s, n, some line) => .wait 5 line { m with part := n } s
  | .feSet _ => .done (mark true)
  | .feClr _ => .done (mark false)
  | .smpInv _ =>
    let t := s.tile w.tile
    if m.part = 0 then
      if t.invT.isSome then .wait 0 0 m s
      else .wait 0 0 { m with part := 1 } (s.onTile w.tile fun x => { x with invT := some (s.time + 32 * 81920), smp := [] })
    else match t.invT with
      | some due =>
        if due ≤ s.time then .done (s.onTile w.tile fun x => { x with invT := none, invN := x.invN + 1, smp := [] })
        else .wait 0 0 m s
      | none => .done s
  | .sigSet a =>
    Sq.ofRes m ((s.rmw w m.a 8 false fun v => (opSig (a.fa.toNat / 16) (BitVec.ofNat 64 v) m.b).toNat).bind fun _ s => .ok () s)
  | _ => .done s

/-- An atomic performs at its point of performance (R151): the old value. -/
def State.amoEffect (s : State) (w : Who) (m : MemOp) : Res Word :=
  match m.w.ins.cell with
  | some (_, _, .inl a) =>
    let n := amoBytes a
    (s.rmw w m.a n (a.m 9 1 == 1) fun v => amoNew m.w.ins (8 * n) v (m.b.toNat % 256 ^ n) (m.d.toNat % 256 ^ n)).bind
      fun v s => .ok (if a.m 0 4 = 1 then (BitVec.ofNat 32 v).signExtend 64 else BitVec.ofNat 64 v) s
  | _ => .ok 0 s

end Sys2Proof.Machine
end

