-- ==== Sys2Proof/Machine/Copy.lean ====
section
/-! DEFINITION. Asynchronous copies (R159 to R169): reading and checking descriptors, joining a batch, the work of
each kind line by line, completion, and the words batch.close and batch.wait. -/

namespace Sys2Proof.Machine

/-- The same agent, past the caches (R159, R275): what a copy writes is performed at its home. -/
def Who.home_ (w : Who) : Who := { w with home := true }

/-- The copy-descriptor fault 0x03/0x000D (R372). -/
def descFlt (va : Nat) : Flt := { cls := 3, code := 0xD, info := BitVec.ofNat 64 va }

/-- The words of a descriptor as numbers. -/
def wd (ws : List Word) (i : Nat) : Nat := (ws.getD i 0).toNat

/-- SFMT of a descriptor (R161). -/
def dSfmt (ws : List Word) : Nat := bits (ws.getD 0 0) 8 4
/-- DFMT of a descriptor (R161). -/
def dDfmt (ws : List Word) : Nat := bits (ws.getD 0 0) 12 4
/-- RM of a descriptor (R161). -/
def dRm (ws : List Word) : Nat := bits (ws.getD 0 0) 16 3
/-- FLAGS of a descriptor (R161). -/
def dFlags (ws : List Word) : Nat := bits (ws.getD 0 0) 19 5
/-- KIND of a descriptor (R161). -/
def dKind (ws : List Word) : Nat := bits (ws.getD 0 0) 0 8
/-- NBLK of a pages descriptor (R161). -/
def dNblk (ws : List Word) : Nat := bits (ws.getD 3 0) 32 16
/-- BLOCKBYTES of a pages descriptor (R161). -/
def dBlk (ws : List Word) : Nat := bits (ws.getD 3 0) 0 32

/-- The content of a descriptor is admitted (R161 to R166), but for the rules of a record. A byte copy of pages admits every
format with SFMT = DFMT, the reserved code 15 too: R165 asks only that they are equal (DESIGN CHOICE, log 65). Word 4 of a cp.quant to an Emmer format
without RECORD is ignored (DESIGN CHOICE, log 97). -/
def descOk (ws : List Word) : Bool :=
  wd ws 0 < 2 ^ 24 &&
  match dKind ws with
  | 1 => wd ws 0 == 1 && wd ws 6 == 0 && wd ws 7 == 0
  | 2 =>
    dFlags ws == 0 && dSfmt ws ≤ 1 && 4 ≤ dDfmt ws && dDfmt ws ≤ 11 && dRm ws ≤ 5 && wd ws 5 == 0 && wd ws 6 == 0 &&
      wd ws 3 % blockOf (dDfmt ws) == 0
  | 3 =>
    dFlags ws == 0 && dRm ws ≤ 5 && bits (ws.getD 3 0) 48 16 == 0 && 1 ≤ dNblk ws && dNblk ws ≤ 4096 && dBlk ws != 0 &&
      dBlk ws % 128 == 0 && dBlk ws ≤ 2 ^ 31 &&
      ((dSfmt ws == dDfmt ws && wd ws 7 == 0) ||
        (dSfmt ws == 0 && (dDfmt ws == 2 || dDfmt ws == 3) && wd ws 7 != 0))
  | 4 =>
    dRm ws ≤ 5 && dSfmt ws == 0 && (dDfmt ws == 0 || dDfmt ws == 2 || dDfmt ws == 8) && dFlags ws / 8 == 0 &&
      dFlags ws % 4 != 3 && (dDfmt ws != 8 || wd ws 3 % 32 == 0)
  | _ => false

/-- The permissions of a copy's record and tags: a copy destination that is also read (R284). -/
def kRec : Kind := { no := 6, r := true, w := true }

/-- The rows of a tensor copy (R162). -/
def rowPieces (ws : List Word) : List Piece :=
  (upFrom 0 (bits (ws.getD 3 0) 32 32)).map fun j =>
    ⟨ws.getD 1 0 + BitVec.ofNat 64 j * ws.getD 4 0, ws.getD 2 0 + BitVec.ofNat 64 j * ws.getD 5 0, bits (ws.getD 3 0) 0 32⟩

/-- Take or release a writer pin on a version (R284). -/
def State.pin (s : State) (w : Who) (r : TRec) (d : Int) : State :=
  s.onRec w r.loc r.va fun b => addLive b r.ver d

/-- The record checks of cp.quant and cp.pages: alignment, window, FMT. R163 states them for cp.quant; cp.pages makes the same (DESIGN CHOICE,
log 96). -/
def State.copyRec (s : State) (w : Who) (ws : List Word) : Res TRec :=
  if offMemory (wd ws 7) 128 then .flt (addrFlt (ws.getD 7 0)) s
  else (s.readRec w kRec (wd ws 7)).bind fun r s => if r.f ≠ dDfmt ws then .flt (tensorFlt (wd ws 7)) s else .ok r s

/-- The group rule of a cp.quant that names a record (R163). -/
def groupOk (ws : List Word) (r : TRec) : Bool :=
  let dd := dataOf r.f
  let o := wd ws 2 - r.data
  let g := o / dd
  r.data ≤ wd ws 2 && o % dd == 0 && wd ws 3 % 128 == 0 && g < r.groups && g + wd ws 3 / 128 ≤ r.groups &&
    wd ws 4 == (if 9 ≤ r.f then 0 else r.data + r.groups * dd + 4 * g)

/-- The lines of a range, or of the bytes before it: the pieces of at most 128 bytes that it is read in. -/
def linePieces (va n : Nat) : List (Nat × Nat) :=
  (upFrom (va / 128) (if n = 0 then 0 else (va + n - 1) / 128 - va / 128 + 1)).map fun l =>
    (max va (128 * l), min (va + n) (128 * l + 128) - max va (128 * l))

/-- A descriptor that has been read and checked, as work (R161 to R166); no pin is taken yet. -/
def State.workOf (s : State) (w : Who) (va : Nat) (ws : List Word) : Res Work :=
  if !descOk ws then .flt (descFlt va) s
  else match dKind ws with
    | 1 => .ok (.bytes (rowPieces ws) false none) s
    | 2 =>
      if wd ws 7 = 0 then .ok (.quant ws 0 none none) s
      else (s.copyRec w ws).bind fun r s =>
        if groupOk ws r then .ok (.quant ws 0 (some r) none) s else .flt (descFlt va) s
    | 3 =>
      if wd ws 7 = 0 then .ok (.pages ws none none none) s
      else (s.copyRec w ws).bind fun r s => .ok (.pages ws none (some r) none) s
    | _ => .ok (.ring ws 0 none none) s

/-- Words of memory. -/
def State.readWords (s : State) (w : Who) (k : Kind) (va n : Nat) : Res (List Word) :=
  (s.readVa w k va (8 * n)).bind fun b s => .ok ((upFrom 0 n).map fun i => wordAt b (8 * i)) s

/-- Read and check the descriptor at an address (R159, R161); `kinds` are the KINDs that the word admits. -/
def State.readDesc (s : State) (w : Who) (va : Nat) (kinds : List Nat) : Res Work :=
  if va % 64 ≠ 0 ∨ offMemory va 64 then .flt (addrFlt (BitVec.ofNat 64 va)) s
  else (s.readWords w kLoad va 8).bind fun ws s =>
    if kinds.contains (dKind ws) then s.workOf w va ws else .flt (descFlt va) s

/-- The descriptors of a chain's list, read and checked in order (R164). -/
def State.readChain (s : State) (w : Who) : List Word → Res (List Work)
  | [] => .ok [] s
  | a :: l => (s.readDesc w a.toNat [1, 2, 3]).bind fun x s => (s.readChain w l).bind fun r s => .ok (x :: r) s

/-- Bytes of wire data before element `i` of a ring hop (R166). -/
def ringOff (df i : Nat) : Nat := match df with | 0 => 2 * i | 2 => i | _ => i / 2

/-- The wire bytes of a whole chunk (R166): data and scale bytes. -/
def ringBytes (df cnt : Nat) : Nat := match df with | 0 => 2 * cnt | 2 => cnt + 1 | _ => cnt / 2 + cnt / 32

/-- Where a ring hop writes (R166): DST, and LOCAL where FLAGS[21] asks; an agree step writes no data. -/
def ringBases (ws : List Word) : List Nat :=
  if dFlags ws % 4 = 2 then [] else wd ws 2 :: if dFlags ws % 4 = 1 ∧ dFlags ws / 4 = 1 then [wd ws 5] else []

/-- What a ring hop has still to write: offset and length; nothing where its length is zero (R159). -/
def ringLeft (ws : List Word) (done : Nat) : List (Nat × Nat) :=
  let cnt := wd ws 3
  if cnt = 0 then []
  else match dDfmt ws with
  | 0 => [(2 * done, 2 * (cnt - done))]
  | 2 => [(done, cnt + 1 - done)]
  | _ => [(done / 2, cnt / 2 - done / 2), (cnt / 2 + done / 32, cnt / 32 - done / 32)]

/-- Destination ranges of work that may lie in the local window: address and length. -/
def Work.dsts : Work → List (Nat × Nat)
  | .bytes ps _ _ => ps.map fun p => (p.dst.toNat, p.len)
  | .quant ws done none _ =>
    let bn := done / blockOf (dDfmt ws)
    let nb := wd ws 3 / blockOf (dDfmt ws)
    let bb := blockBytes (dDfmt ws)
    (wd ws 2 + bn * bb, (nb - bn) * bb) :: if dDfmt ws < 9 then [(wd ws 4 + bn, nb - bn)] else []
  | .quant _ _ (some _) _ => []
  | .pages _ _ _ _ => []
  | .ring ws done _ _ => (ringBases ws).flatMap fun b => (ringLeft ws done).map fun r => (b + r.1, r.2)

/-- Some destination lies in the local window (R28). -/
def inWindow (r : Nat × Nat) : Bool := r.2 != 0 && window r.1 r.2 != .out

/-- Clear the full bits of the scratchpad lines of ranges (R144, R159). -/
def State.clearLines (s : State) (t : Nat) (l : List (Nat × Nat)) : State :=
  (l.flatMap spadLines).foldl (fun s n => s.setFull t n false) s

/-- Set the full bit of each line of a landed range that nothing still to land touches (R144, R273). -/
def State.landLines (s : State) (t : Nat) (r : Nat × Nat) (rest : List (Nat × Nat)) : State :=
  (spadLines r).foldl (fun s n =>
    let lo := 0xFF000000000000 + 128 * n
    if rest.any fun x => x.2 != 0 && x.1 < lo + 128 && lo < x.1 + x.2 then s else s.setFull t n true) s

/-- The open batch of a strand holds 64 copies, so that one more closes it first (R160). -/
def State.batchFull (s : State) (uid : Nat) : Bool := s.allBatches.any fun b => b.uid == uid && !b.closed && 64 ≤ b.size

/-- A new copy joins the open batch of its strand (R159, R160), on whichever die it was opened, closing a full one first: the number of
the batch. None where the close must wait. -/
def State.joinBatch (s : State) (k : Nat) (st : Strand) : Option (State × Nat) :=
  let uid := st.id.uid
  let full := s.batchFull uid
  if full && 15 ≤ s.outstanding uid then none
  else
    let (s, i) := if full then s.closeBatch st.id else (s, st.id)
    let s := s.onStrand k fun x => { x with id := i }
    let s := if s.allBatches.any fun b => b.uid == uid && !b.closed then
        s.mapBatches fun l => l.map fun b => if b.uid == uid && !b.closed then { b with size := b.size + 1, count := b.count + 1 } else b
      else s.onDie (slotDie k) fun x =>
        { x with batches := x.batches ++ [{ uid := uid, launch := i.launch, no := i.closed, size := 1, count := 1 }] }
    some (s, i.closed)

/-- The transfer engine that takes a job (R316): the lowest idle one, else the one with the fewest jobs. -/
def State.pickEngine (s : State) (d : Nat) : Nat :=
  let n := fun e : Nat => (Tab.getD (s.die d).engines e []).length
  [1, 2, 3].foldl (fun b e => if n e < n b then e else b) 0

/-- Give a job to a transfer engine. -/
def State.toEngine (s : State) (d e j : Nat) : State :=
  s.onDie d fun x => { x with engines := Tab.put x.engines e (Tab.getD x.engines e [] ++ [j]) }

/-- The entries of a static copy schedule: bad fields (R167). -/
def badEntry (ws : List Word) : Bool :=
  let o := bits (ws.getD 0 0) 0 8
  let by_ := bits (ws.getD 0 0) 8 48
  bits (ws.getD 0 0) 56 8 != 0 ||
  match o with
  | 0 => wd ws 3 != 0
  | 1 => by_ != 0 || wd ws 1 != 0 || wd ws 2 != 0
  | 2 => by_ != 0 || wd ws 1 != 0 || wd ws 2 != 0 || wd ws 3 != 0
  | _ => true

/-- What a part of a copy's work gives: the work left, none where it is complete, with a fault that does not stop it;
a wait; or a fault that ends the copy. -/
inductive Part where
  | go (w : Option Work) (f : Option Flt) (s : State)
  | wait (s : State)
  | flt (f : Flt) (s : State)

/-- The lines that bytes at an address lie in are poisoned (R394). -/
def State.poisonVa (s : State) (w : Who) (k : Kind) (va n : Nat) : Res Unit :=
  (s.locate w k va n).bind fun (l, coh, _) s =>
    let s := s.toHome w l coh
    .ok () { s with poison := (upFrom (l.key / 128) ((l.key + n - 1) / 128 - l.key / 128 + 1)).foldl insertNat s.poison }

/-- The lines of several ranges are poisoned (R394). -/
def State.poisonAll (s : State) (w : Who) (k : Kind) (l : List (Nat × Nat)) : Res Unit :=
  (l.flatMap fun r => linePieces r.1 r.2).foldl (fun r p => r.bind fun _ s => s.poisonVa w k p.1 p.2) (.ok () s)

/-- Two ranges share a byte. -/
def meets (a b : Nat × Nat) : Bool := a.2 != 0 && b.2 != 0 && a.1 < b.1 + b.2 && b.1 < a.1 + a.2

/-- Source bytes of a copy, piece by piece; a byte of a poisoned line is none (R394). -/
def State.readSnap (s : State) (w : Who) : List (Nat × Nat) → Res (List (Option Byte))
  | [] => .ok [] s
  | p :: l =>
    match s.readVa w kSrc p.1 p.2 with
    | .ok b s => (s.readSnap w l).bind fun r s => .ok (b.map some ++ r) s
    | .wait c o s => .wait c o s
    | .flt f s =>
      if f.cls = 5 then (s.readSnap w l).bind fun r s => .ok (List.replicate p.2 none ++ r) s else .flt f s

/-- Source bytes of a copy: of the snapshot from offset `o`, where there is one, or of memory. -/
def State.source (s : State) (w : Who) (snap : Option (List (Option Byte))) (o va n : Nat) : Res (List (Option Byte)) :=
  match snap with
  | some b => .ok ((b.drop o).take n) s
  | none => s.readSnap w (linePieces va n)

/-- Bytes none of which is poisoned. -/
def known (b : List (Option Byte)) : Option (List Byte) := if b.all Option.isSome then some (b.filterMap id) else none

/-- Continue with source bytes, none where one is poisoned, or end the part as the read ended. -/
def withSrc (r : Res (List (Option Byte))) (f : Option (List Byte) → State → Part) : Part :=
  match r with
  | .ok b s => f (known b) s
  | .wait _ _ s => .wait s
  | .flt x s => .flt x s

/-- The whole source of a copy is read before it writes (R159). -/
def State.takeSnap (s : State) (w : Who) (l : List (Nat × Nat)) (f : List (Option Byte) → Work) : Part :=
  match s.readSnap w (l.flatMap fun r => linePieces r.1 r.2) with
  | .ok b s => .go (some (f b)) none s
  | .wait _ _ s => .wait s
  | .flt x s => .flt x s

/-- Continue after a part of work that gives no bytes. -/
def partOf (r : Res Unit) (f : State → Part) : Part :=
  match r with
  | .ok _ s => f s
  | .wait _ _ s => .wait s
  | .flt x s => .flt x s

/-- The copy fault of a poisoned source (R394). -/
def srcPoison (va : Nat) : Flt := { cls := 5, code := 5, addr := BitVec.ofNat 64 va }

/-- The piece that is copied next, up to the end of its destination line, and the pieces after it. -/
def nextPiece (ps : List Piece) : Option (Piece × List Piece) :=
  match ps.filter fun p => p.len != 0 with
  | [] => none
  | p :: l =>
    let m := min p.len (128 - p.dst.toNat % 128)
    some ({ p with len := m },
      if p.len = m then l else ⟨p.src + BitVec.ofNat 64 m, p.dst + BitVec.ofNat 64 m, p.len - m⟩ :: l)

/-- One destination line of a byte copy (R162, R159); `more` are destinations still to land of later work and of other copies. -/
def State.bytesPart (s : State) (w : Who) (ps : List Piece) (begun : Bool) (snap : Option (List (Option Byte)))
    (more : List (Nat × Nat)) : Part :=
  if !begun then
    let src := ps.map fun p => (p.src.toNat, p.len)
    let dst := ps.map fun p => (p.dst.toNat, p.len)
    if src.any fun a => dst.any (meets a) then s.takeSnap w src fun b => .bytes ps true (some b)
    else .go (some (.bytes ps true none)) none s
  else match nextPiece ps with
    | none => .go none none s
    | some (p, rest) =>
      withSrc (s.source w snap 0 p.src.toNat p.len) fun b s =>
        partOf (match b with
          | some b => s.writeVa w.home_ kDst p.dst.toNat b
          | none => s.poisonVa w.home_ kDst p.dst.toNat p.len) fun s =>
          let s := s.landLines w.tile (p.dst.toNat, p.len) ((rest.map fun q => (q.dst.toNat, q.len)) ++ more)
          .go (some (.bytes rest true (snap.map fun b => b.drop p.len)))
            (if b.isSome then none else some (srcPoison p.src.toNat)) s

/-- Source values of a quantising copy: FP32 or BF16 (R163). -/
def srcVals (sf : Nat) (b : List Byte) : List Ext :=
  let n := if sf = 0 then 4 else 2
  (upFrom 0 (b.length / n)).map fun i => widen (if sf = 0 then fp32 else bf16) (natAt b (n * i) n)

/-- The bytes of a record's tensor, of its tags, and of the record (R281, R282). -/
def TRec.regions (r : TRec) : List (Nat × Nat) :=
  [(r.data, r.groups * footOf r.f), (r.tags, (r.ng r.f + 3) / 4), (r.va, 128)]

/-- One block, or with a record one group, of a quantising copy (R163). A group of a record's tensor is stored with its tags or not at
all (R285). From a poisoned source come poisoned data and scales (R394). -/
def State.quantPart (s : State) (w : Who) (ws : List Word) (done : Nat) (r : Option TRec) (snap : Option (List (Option Byte)))
    (more : List (Nat × Nat)) : Part :=
  let df := dDfmt ws
  let sz := if dSfmt ws = 0 then 4 else 2
  let n := if r.isSome then 128 else blockOf df
  if wd ws 3 ≤ done then .go none none (match r with | some r => s.pin w r (-1) | none => s)
  else
    let all := (wd ws 1, sz * wd ws 3)
    let past := snap.isNone && done == 0 && match r with
      | some r => r.regions.any (meets all)
      | none => (Work.dsts (.quant ws 0 none none)).any (meets all)
    if past then s.takeSnap w [all] fun b => .quant ws 0 r (some b)
    else
      withSrc (s.source w snap (sz * done) (wd ws 1 + sz * done) (sz * n)) fun b s =>
        let bn := done / blockOf df
        let dva := wd ws 2 + bn * blockBytes df
        let next := Work.quant ws (done + n) r snap
        partOf (match b, r with
          | some b, some r =>
            (s.storeVals w kRec r ((wd ws 2 - r.data) / dataOf df * 128 + done) (dRm ws) false (srcVals (dSfmt ws) b)).whole s
          | some b, none =>
            let q := quantise df (dRm ws) (srcVals (dSfmt ws) b)
            (s.writeVa w.home_ kDst dva (quantBytes df q)).bind fun _ s =>
              if df < 9 then s.writeVa w.home_ kDst (wd ws 4 + bn) (q.map fun x : Quant => BitVec.ofNat 8 x.scale) else .ok () s
          | none, _ =>
            let n := if r.isSome then 128 / blockOf df else 1
            s.poisonAll w.home_ kDst ((dva, n * blockBytes df) :: if df < 9 then [(wd ws 4 + bn, n)] else [])) fun s =>
          let s := if r.isSome then s
            else
              let left := next.dsts ++ more
              let s := s.landLines w.tile (dva, blockBytes df) left
              if df < 9 then s.landLines w.tile (wd ws 4 + bn, 1) left else s
          .go (some next) (if b.isSome then none else some (srcPoison (wd ws 1 + sz * done))) s

/-- Entry `i` of an index list of a pages copy (R165); none where it is poisoned. -/
def pageIndex (b : List (Option Byte)) (i : Nat) : Option Nat := (known ((b.drop (4 * i)).take 4)).map leNat

/-- The blocks of a pages copy from its index lists (R165): those whose two entries are known, and the destinations of those whose source
entry is poisoned (R394). -/
def pagePieces (ws : List Word) (si di : List (Option Byte)) : List Piece × List (Nat × Nat) :=
  let dl := if wd ws 7 = 0 then dBlk ws else dBlk ws / 2
  let dst := fun j : Nat => ws.getD 2 0 + BitVec.ofNat 64 (j * dl)
  ((upFrom 0 (dNblk ws)).filterMap fun i => match pageIndex si i, pageIndex di i with
      | some a, some j => some ⟨ws.getD 1 0 + BitVec.ofNat 64 (a * dBlk ws), dst j, dBlk ws⟩
      | _, _ => none,
    (upFrom 0 (dNblk ws)).filterMap fun i => match pageIndex si i, pageIndex di i with
      | none, some j => some ((dst j).toNat, dl)
      | _, _ => none)

/-- The destination bytes of a block: half as many where it is converted (R165). -/
def Piece.dstLen (p : Piece) (half : Bool) : Nat := if half then p.len / 2 else p.len

/-- Walk the pages of a destination range, setting A and D (R327); the fuel bounds the pages, and the lines of one behind a fabric port. -/
def State.walkDst (s : State) (w : Who) : Nat → Nat → Nat → Res Unit
  | 0, _, _ => .ok () s
  | fuel + 1, va, n =>
    if n = 0 then .ok () s
    else if offMemory va n then .flt (addrFlt (BitVec.ofNat 64 va)) s
    else (s.locate w kDst va 1).bind fun (_, _, left) s =>
      let m := min n (max left 1)
      s.walkDst w fuel (va + m) (n - m)

/-- The burst of destination walks before a transfer engine moves a block (R327). -/
def State.walkDsts (s : State) (w : Who) (half : Bool) : List Piece → Res Unit
  | [] => .ok () s
  | p :: l =>
    let n := p.dstLen half
    (s.walkDst w (n / 128 + 2) p.dst.toNat n).bind fun _ s => s.walkDsts w half l

/-- The index lists of a pages copy (R165). -/
def pageLists (ws : List Word) : List (Nat × Nat) := [(wd ws 4, 4 * dNblk ws), (wd ws 5, 4 * dNblk ws)]

/-- A transfer engine accepts a pages copy (R165, R327): the index lists are read and every destination page is walked. A poisoned entry of a
list is a poisoned source: the block that it names is not moved, and its destination, where it is known, is poisoned (R394). -/
def State.pagesPrep (s : State) (w : Who) (ws : List Word) (r : Option TRec) : Part :=
  let n := 4 * dNblk ws
  match s.readSnap w (linePieces (wd ws 4) n ++ linePieces (wd ws 5) n) with
  | .wait _ _ s => .wait s
  | .flt f s => .flt f s
  | .ok b s =>
    let (l, bad) := pagePieces ws (b.take n) (b.drop n)
    let f := if (known b).isSome then none else some (srcPoison (wd ws (if (known (b.take n)).isSome then 5 else 4)))
    partOf (s.walkDsts w (wd ws 7 != 0) (l ++ bad.map fun r => ⟨0, BitVec.ofNat 64 r.1, if wd ws 7 = 0 then r.2 else 2 * r.2⟩)) fun s =>
    partOf (s.poisonAll w kDst bad) fun s => .go (some (.pages ws (some l) r none)) f s

/-- Stores of an access's agent still wait to be acknowledged. -/
def State.ownAcks (s : State) (uid : Nat) : Bool := s.dies.any fun e => e.2.acks.any fun a => a.2.uid == uid && !a.2.lost

/-- An acknowledgement of an agent's stores has been lost (R264). -/
def State.lostAcks (s : State) (uid : Nat) : Bool := s.dies.any fun e => e.2.acks.any fun a => a.2.uid == uid && a.2.lost

/-- The end of a pages copy or ring hop (R165, R166): once every write has been acknowledged, amo.inc.n64.rel.sy at a non-zero SIGNAL.
Where an acknowledgement was lost there is no signal. -/
def State.signalPart (s : State) (w : Who) (va : Nat) : Part :=
  if s.acksWait w.uid 5 then .wait s
  else if va = 0 || s.lostAcks w.uid then .go none none s
  else partOf (s.bumpWord w va) fun s => .go none none s

/-- A part of a pages copy (R165): 128 source bytes at a time; at its end the writer pin is taken off, and then the signal sent (R284). -/
def State.pagesPart (s : State) (w : Who) (ws : List Word) (l : List Piece) (r : Option TRec)
    (snap : Option (List (Option Byte))) : Part :=
  let half := r.isSome
  let overlap := l.any fun a => l.any fun b => meets (a.src.toNat, a.len) (b.dst.toNat, b.dstLen half)
  match l.filter fun p => p.len != 0 with
  | [] => match r with
    | some r => .go (some (.pages ws (some []) none none)) none (s.pin w r (-1))
    | none => s.signalPart w (wd ws 6)
  | p :: rest =>
    if snap.isNone && overlap then
      s.takeSnap w ((p :: rest).map fun p => (p.src.toNat, p.len)) fun b => .pages ws (some (p :: rest)) r (some b)
    else
      let n := min 128 p.len
      let h := if half then n / 2 else n
      withSrc (s.source w snap 0 p.src.toNat n) fun b s =>
        partOf (match b, r with
          | some b, some r =>
            let gi := p.dst.toNat - r.data
            if p.dst.toNat < r.data ∨ r.groups * 128 < gi + h then .flt (tensorFlt r.va) s
            else (s.storeVals w kRec r gi (dRm ws) false (srcVals 1 b)).whole s
          | some b, none => s.writeVa w kDst p.dst.toNat b
          | none, _ => s.poisonVa w kDst p.dst.toNat h) fun s =>
          .go (some (.pages ws (some (⟨p.src + BitVec.ofNat 64 n, p.dst + BitVec.ofNat 64 h, p.len - n⟩ :: rest)) r
              (snap.map fun b => b.drop n)))
            (if b.isSome then none else some (srcPoison p.src.toNat)) s

/-- The exponent of an E4M3 chunk under the agreed maximum (R166); none where it is not a number. -/
def ringExp (a : Lane) : Option Int :=
  match f32 a with
  | .fin _ m e => if m = 0 then some (-127) else some (ilog m e - 8)
  | _ => none

/-- Wire data and scale bytes of up to 32 values of a ring hop (R166). -/
def ringEncode (df : Nat) (a : Lane) (x : List Ext) : List Byte × List Byte :=
  match df with
  | 0 => (x.flatMap fun v => leBytes 2 (narrow bf16 0 false v), [])
  | 2 =>
    match ringExp a with
    | some e => (x.flatMap fun v => leBytes 1 (narrow e4m3 0 true (v.scale (-e))), [])
    | none => (x.map fun _ => 0x7F, [])
  | _ =>
    let am : Nat × Int := match f32 a with | .fin _ m e => (m, e) | _ => (0, 0)
    let x := if (f32 a).isFin then x else x.map fun _ => Ext.nan
    let q := quantMxAt 8 0 x am
    (quantBytes 8 [q], [BitVec.ofNat 8 q.scale])

/-- The values that wire bytes hold (R166): widened under the scale byte that travels with them. -/
def ringDecode (df n : Nat) (data scale : List Byte) : List Ext :=
  let sb := natAt scale 0 1
  (upFrom 0 n).map fun i =>
    match df with
    | 0 => widen bf16 (natAt data (2 * i) 2)
    | 2 => if sb = 0xFF then .nan else (widen e4m3 (natAt data i 1)).scale ((sb : Int) - 127)
    | _ => mxElem 8 (leNat data) sb i

/-- The scale byte after an E4M3 chunk (R166): e + 127 where a byte holds it, else a value left open. -/
def State.ringScale (s : State) (a : Lane) : Byte × State :=
  match ringExp a with
  | some e => if 0 ≤ e + 127 ∧ e + 127 < 256 then (BitVec.ofNat 8 (e + 127).toNat, s)
    else let (j, s) := s.pick 256; (BitVec.ofNat 8 j, s)
  | none => let (j, s) := s.pick 256; (BitVec.ofNat 8 j, s)

/-- Write wire bytes to DST, and to LOCAL where FLAGS[21] asks, or poison them (R166, R394). -/
def State.ringWrite (s : State) (w : Who) (ws : List Word) (o : Nat) (b : Option (List Byte)) (n : Nat) : Res Unit :=
  (ringBases ws).foldl (fun r base => r.bind fun _ s => match b with
    | some b => s.writeVa w.home_ kDst (base + o) b
    | none => if n = 0 then .ok () s else s.poisonVa w.home_ kDst (base + o) n) (.ok () s)

/-- Wire bytes have landed at the destinations of a ring hop (R144). -/
def State.ringLand (s : State) (w : Who) (ws : List Word) (o n : Nat) (left : List (Nat × Nat)) : State :=
  (ringBases ws).foldl (fun s base => s.landLines w.tile (base + o, n) left) s

/-- The last writes of a ring hop (R166): the fmax of an agree step, or the scale byte of an E4M3 chunk. -/
def State.ringLast (s : State) (w : Who) (ws : List Word) (a : Lane) (next : Work) (more : List (Nat × Nat)) : Part :=
  let cnt := wd ws 3
  if dFlags ws % 4 = 2 then
    if wd ws 7 % 4 ≠ 0 then .flt (alignFlt (ws.getD 7 0)) s
    else if s.acksWait w.uid 5 then .wait s
    else
      let r := s.rmw w (ws.getD 7 0) 4 false fun m => (fmaxF (BitVec.ofNat 32 m) a).toNat
      partOf (r.bind fun _ s => .ok () s) fun s => .go (some next) none s
  else if dDfmt ws = 2 then
    let (b, s) := s.ringScale a
    partOf (s.ringWrite w ws cnt (some [b]) 1) fun s => .go (some next) none (s.ringLand w ws cnt 1 more)
  else .go (some next) none s

/-- Up to 32 values of a ring hop (R166), then its last writes, then its signal. One of zero length writes nothing (R159), and signals, as every
one of its writes has been acknowledged (DESIGN CHOICE, log 85). -/
def State.ringPart (s : State) (w : Who) (ws : List Word) (done : Nat) (agree : Option Lane) (snap : Option (List (Option Byte)))
    (more : List (Nat × Nat)) : Part :=
  let df := dDfmt ws
  let op := dFlags ws % 4
  let cnt := wd ws 3
  let src := (wd ws 1, 4 * cnt)
  let inn := if op = 1 then [(wd ws 4, ringBytes df cnt)] else []
  let whole := Work.dsts (.ring ws 0 none none)
  if cnt = 0 then s.signalPart w (wd ws 6)
  else if done = 0 ∧ snap.isNone ∧ (src :: inn).any fun r => whole.any (meets r) then
    s.takeSnap w (src :: inn) fun b => .ring ws 0 agree (some b)
  else if op ≠ 2 ∧ df ≠ 0 ∧ agree.isNone then
    withSrc (s.readSnap w [(wd ws 7, 4)]) fun b s => match b with
      | some b => .go (some (.ring ws done (some (BitVec.ofNat 32 (leNat b))) snap)) none s
      | none =>
        partOf (s.poisonAll w.home_ kDst whole) fun s => .flt (srcPoison (wd ws 7)) (whole.foldl (fun (s : State) r => s.landLines w.tile r more) s)
  else if cnt < done then s.signalPart w (wd ws 6)
  else if cnt = done then s.ringLast w ws (agree.getD 0) (.ring ws (cnt + 1) agree snap) more
  else
    let n := min 32 (cnt - done)
    withSrc (s.source w snap (4 * done) (wd ws 1 + 4 * done) (4 * n)) fun b s =>
      if op = 2 then
        match b with
        | none => .go (some (.ring ws (done + n) agree snap)) (some (srcPoison (wd ws 1 + 4 * done))) s
        | some b =>
          let m := (upFrom 0 n).foldl (fun a i => fmaxF a (BitVec.ofNat 32 (natAt b (4 * i) 4) &&& 0x7FFFFFFF)) (agree.getD 0)
          .go (some (.ring ws (done + n) (some m) snap)) none s
      else
        let io := ringOff df done
        let so := if df = 2 then cnt else cnt / 2 + done / 32
        let dl := if op = 1 then ringOff df n else 0
        let sl := if op = 1 ∧ df ≠ 0 then 1 else 0
        withSrc (s.source w snap (4 * cnt + io) (wd ws 4 + io) dl) fun d s =>
        withSrc (s.source w snap (4 * cnt + so) (wd ws 4 + so) sl) fun sc s =>
          let next := Work.ring ws (done + n) agree snap
          let left := next.dsts ++ more
          let out : Option (List Byte × List Byte) := match b, d, sc with
            | some b, some d, some sc =>
              let x := srcVals 0 b
              some (ringEncode df (agree.getD 0) (if op = 0 then x else List.zipWith (Ext.add false) (ringDecode df n d sc) x))
            | _, _, _ => none
          let m := if df = 8 then 1 else 0
          partOf (s.ringWrite w ws io (out.map (·.1)) (ringOff df n)) fun s =>
          partOf (s.ringWrite w ws so (out.map (·.2)) m) fun s =>
            let s := s.ringLand w ws io (ringOff df n) left
            let s := if df = 8 then s.ringLand w ws so 1 left else s
            let bad := if b.isSome then wd ws 4 + io else wd ws 1 + 4 * done
            .go (some next) (if out.isSome then none else some (srcPoison bad)) s

/-- The name of a copy as an agent of accesses; copies are numbered over the whole package. -/
def copyUid (j : Nat) : Nat := 2 ^ 48 + j

/-- Who a copy's accesses are made by: the tile's copy unit, or a transfer engine of the die (R443, R316). -/
def State.copyWho (s : State) (d j : Nat) (c : Copy) : Who :=
  { die := d, ctx := c.ctx, tile := c.tile, fused := s.fusedAt c.tile, agent := copyAgent j, uid := copyUid j, raw := c.job.isSome }

/-- The L1s of a copy's tile give up the lines that copies of its strand have written (R159, R275). -/
def State.freshSrc (s : State) (c : Copy) : State :=
  ((s.allBatches.filter fun b => b.uid == c.uid).flatMap Batch.lines).foldl (fun (s : State) x =>
    (s.l1s c.tile).foldl (fun (s : State) t => s.evictL1 t x) s) s

/-- One part of a copy's work; pages move past the L1s. -/
def State.workPart (s : State) (d j : Nat) (c : Copy) (x : Work) (more : List (Nat × Nat)) : Part :=
  let w := s.copyWho d j c
  let s := s.freshSrc c
  match x with
  | .bytes ps begun snap => s.bytesPart w ps begun snap more
  | .quant ws done r snap => s.quantPart w ws done r snap more
  | .pages ws none r _ => s.pagesPrep w.home_ ws r
  | .pages ws (some ps) r snap => s.pagesPart w.home_ ws ps r snap
  | .ring ws done a snap => s.ringPart w ws done a snap more

/-- Release the writer pins of work that is given up. -/
def State.unpin (s : State) (w : Who) : List Work → State
  | [] => s
  | .quant _ _ (some r) _ :: l => (s.pin w r (-1)).unpin w l
  | .pages _ _ (some r) _ :: l => (s.pin w r (-1)).unpin w l
  | _ :: l => s.unpin w l

/-- What a copy leaves of acknowledgements becomes its strand's: those that were lost, which its next release or halt reports (R264), and
the early stores that the copy read (R263). -/
def State.inheritAcks (s : State) (c uid : Nat) : State :=
  { s with dies := s.dies.map fun e => (e.1, { e.2 with acks := e.2.acks.map fun a =>
      (a.1, { a.2 with
        uid := if a.2.uid = c then uid else a.2.uid
        read := if a.2.read.contains c then insertNat (a.2.read.filter (· != c)) uid else a.2.read }) }) }

/-- A strand's copy is complete: it leaves its batch, with its first fault (R159, R160, R362). An ending launch may
have waited for it (R367). -/
def State.copyDone (s : State) (d j : Nat) (c : Copy) : State :=
  let s := (s.inheritAcks (copyUid j) c.uid).onDie d fun x => { x with copies := Tab.del x.copies j }
  (s.mapBatches fun l => l.map fun b =>
    if b.uid == c.uid && b.no == c.batch && !b.done then
      { b with count := b.count - 1, flt := b.flt.or (c.flt.map fun f =>
          { f with src := if c.eng.isSome then 2 else 1, info := if f.cls = 3 then f.info else f.addr }) }
    else b).drainEnd d c.launch

/-- Regions that work reads and writes (R159): write, first byte, length; none where the index lists are still to be read. -/
def Work.regions (x : Work) : Option (List (Bool × Nat × Nat)) :=
  let rd := fun r : Nat × Nat => (false, r.1, r.2)
  let wr := fun r : Nat × Nat => (true, r.1, r.2)
  let rec_ := fun r : Option TRec => match r with
    | some r => r.regions.map wr
    | none => []
  match x with
  | .bytes ps _ _ => some (ps.flatMap fun p => [(false, p.src.toNat, p.len), (true, p.dst.toNat, p.len)])
  | .quant ws _ r _ =>
    some (rd (wd ws 1, (if dSfmt ws = 0 then 4 else 2) * wd ws 3) :: (Work.dsts (.quant ws 0 r none)).map wr ++ rec_ r)
  | .pages _ none _ _ => none
  | .pages _ (some ps) r _ => some (ps.flatMap (fun p => [rd (p.src.toNat, p.len), wr (p.dst.toNat, p.dstLen r.isSome)]) ++ rec_ r)
  | .ring ws _ _ _ =>
    let op := dFlags ws % 4
    some (rd (wd ws 1, 4 * wd ws 3) :: (if op = 1 then [rd (wd ws 4, ringBytes (dDfmt ws) (wd ws 3))] else []) ++
      (if op = 2 then [wr (wd ws 7, 4)] else if dDfmt ws = 0 then [] else [rd (wd ws 7, 4)]) ++
      (Work.dsts (.ring ws 0 none none)).map wr)

/-- Regions of what is left of a copy. -/
def Copy.regions (c : Copy) : Option (List (Bool × Nat × Nat)) :=
  c.work.foldl (fun acc x => match acc, x.regions with
    | some l, some r => some (l ++ r)
    | _, _ => none) (some [])

/-- Two copies of one strand act on overlapping bytes in issue order (R159). -/
def copyMeets (a b : Copy) : Bool :=
  match a.regions, b.regions with
  | some l, some r => l.any fun x => r.any fun y => (x.1 || y.1) && meets x.2 y.2
  | _, _ => true

/-- The earlier copies of a copy's strand, on any die. -/
def State.earlier (s : State) (j : Nat) (c : Copy) : List Copy :=
  s.dies.flatMap fun d => (d.2.copies.filter fun e => e.1 < j && e.2.uid == c.uid && e.2.job.isNone).map (·.2)

/-- A copy may move: it is the first of its transfer engine, and no earlier copy of its strand overlaps it. -/
def State.copyMay (s : State) (d j : Nat) (c : Copy) : Bool :=
  (match c.eng with
    | some e => (Tab.getD (s.die d).engines e []).head? == some j
    | none => true) &&
  (c.job.isSome || !(s.earlier j c).any fun e => copyMeets e c)

/-- The index lists of a pages copy may be read: no earlier copy of its strand still writes them. -/
def State.listsMay (s : State) (j : Nat) (c : Copy) (ws : List Word) : Bool :=
  c.job.isSome || (s.earlier j c).all fun e => match e.regions with
    | some l => !(l.any fun x => x.1 && (pageLists ws).any (meets x.2))
    | none => false

/-- Destinations in a tile's scratchpad that other copies still have to fill (R273). -/
def State.othersLeft (s : State) (d j : Nat) (c : Copy) : List (Nat × Nat) :=
  ((s.die d).copies.filter fun e => e.1 != j && e.2.tile == c.tile && e.2.job.isNone).flatMap fun e => e.2.work.flatMap Work.dsts

/-- Keep a copy, or let it leave its batch: a copy of a tile is complete with its last line, once its writes have been acknowledged; one on a
transfer engine when the engine says so (R160, R275). -/
def State.keepCopy (s : State) (d j : Nat) (c : Copy) : State :=
  if c.work.isEmpty && c.eng.isNone && !s.ownAcks (copyUid j) then s.copyDone d j c
  else s.onDie d fun x => { x with copies := Tab.put x.copies j c }

/-- A copy leaves its transfer engine between two descriptors of a chain. -/
def State.offEngine (s : State) (d j : Nat) (c : Copy) : State × Copy :=
  match c.eng with
  | some e => if c.job.isSome then (s, c)
    else (s.onDie d fun x => { x with engines := Tab.put x.engines e ((Tab.getD x.engines e []).filter (· != j)) }, { c with eng := none })
  | none => (s, c)

/-- A copy after a part of its first descriptor `x`. After one that has faulted, with poison too, the later ones of a chain are not
performed (R164). -/
def State.afterPart (s : State) (d j : Nat) (c : Copy) (x : Work) (rest : List Work) : State :=
  match s.workPart d j c x (rest.flatMap Work.dsts ++ s.othersLeft d j c) with
  | .wait s => s
  | .flt f s => (s.unpin (s.copyWho d j c) (x :: rest)).keepCopy d j { c with work := [], flt := c.flt.or (some f) }
  | .go (some x) f s => s.keepCopy d j { c with work := x :: rest, flt := c.flt.or f }
  | .go none f s =>
    let flt := c.flt.or f
    if flt.isSome then (s.unpin (s.copyWho d j c) rest).keepCopy d j { c with work := [], flt := flt }
    else
      let (s, c) := if rest.isEmpty then (s, c) else s.offEngine d j c
      s.keepCopy d j { c with work := rest, flt := flt }

/-- A copy whose next descriptor is a pages copy that has not begun: a transfer engine accepts it (R316, R327). -/
def State.enterEngine (s : State) (d j : Nat) (c : Copy) : State × Copy :=
  if c.eng.isSome then (s, c)
  else
    let c := { c with eng := some (s.pickEngine d) }
    ((s.toEngine d (s.pickEngine d) j).onDie d fun x => { x with copies := Tab.put x.copies j c }, c)

/-- What a part of the work writes lands byte by byte (R159): but for the groups of a record, which land with their tags (R285), index lists,
fmax and signals. -/
def Work.loose (x : Work) : Bool :=
  match x with
  | .bytes _ _ _ => true
  | .quant _ _ r _ => r.isNone
  | .pages _ l r _ => l.any (!·.isEmpty) && r.isNone
  | .ring ws done _ _ => dFlags ws % 4 != 2 && done ≤ wd ws 3

/-- One byte of the next line of a copy lands before the rest of it (R159). -/
def State.fleck (s : State) (d j : Nat) : State :=
  match Tab.find (s.die d).copies j with
  | none => s
  | some c =>
    match c.work with
    | [] => s
    | x :: rest =>
      if !x.loose || !s.copyMay d j c then s
      else
        let s := s.freshSrc c
        let t := s.afterPart d j c x rest
        let l := ((s.mem ++ t.mem).map (·.1)).filter fun a => Cells.get s.mem a != Cells.get t.mem a
        if l.isEmpty then s
        else
          let (i, s) := s.pick l.length
          let a := l.getD i 0
          let s := (s.dropL2 (a / 128) []).keepHome (a / 128)
          { s with mem := Cells.set s.mem a (Cells.get t.mem a) }

/-- The next line of a copy lands (COPY_LINE_LANDING), or a transfer engine accepts the pages copy that is next in it. -/
def State.copyStep (s : State) (d j : Nat) : State :=
  match Tab.find (s.die d).copies j with
  | none => s
  | some c =>
    match c.work with
    | [] => if c.eng.isNone then s.keepCopy d j c else s
    | .pages ws none r sn :: rest =>
      if !s.listsMay j c ws then s
      else
        let (s, c) := s.enterEngine d j c
        s.afterPart d j c (.pages ws none r sn) rest
    | x :: rest => if s.copyMay d j c then s.afterPart d j c x rest else s

/-- The work is a pages copy. -/
def Work.isPages (x : Work) : Bool :=
  match x with
  | .pages _ _ _ _ => true
  | _ => false

/-- The number of the next copy of the package. -/
def State.nextCopy (s : State) : Nat := s.dies.foldl (fun n e => max n e.2.nextC) 1

/-- A copy or job is taken in, with its transfer engine if it has one, and where it begins with a pages copy the engine accepts that
at once (R316, R327). -/
def State.placeCopy (s : State) (d : Nat) (c : Copy) : State :=
  let j := s.nextCopy
  let s := s.onDie d fun x => { x with copies := Tab.put x.copies j c, nextC := j + 1 }
  let s := match c.eng with | some e => s.toEngine d e j | none => s
  match c.work with
  | .pages _ none _ _ :: _ => if c.eng.isSome then s.copyStep d j else s
  | _ => s

/-- Take the writer pins of the records that work names (R284). -/
def State.pinAll (s : State) (w : Who) : List Work → State
  | [] => s
  | .quant _ _ (some r) _ :: l => (s.pin w r 1).pinAll w l
  | .pages _ _ (some r) _ :: l => (s.pin w r 1).pinAll w l
  | _ :: l => s.pinAll w l

/-- The copy engine accepts a copy (R159): the batch, the full bits and the writer pins; none where a close must wait. Pages move past the
L1s, which write the strand's stores back first. -/
def State.acceptCopy (s : State) (k : Nat) (st : Strand) (w : Who) (work : List Work) (pages : Bool) : Option State :=
  match s.joinBatch k st with
  | none => none
  | some (s, no) =>
    let d := slotDie k
    let dst := work.flatMap Work.dsts
    let s := s.clearLines w.tile dst
    let s := if work.any Work.isPages then (s.l1s w.tile).foldl (fun (s : State) t => s.cleanL1 t [1, 2]) s else s
    let s := s.pinAll w work
    some (s.placeCopy d
      { uid := st.id.uid, launch := st.id.launch, batch := no, tile := w.tile, ctx := w.ctx,
        eng := if pages then some (s.pickEngine d) else none, local_ := dst.any inWindow, work := work })

/-- A plain copy of n bytes (R162). -/
def plainCopy (src dst : Word) (n : Nat) : Work := .bytes [⟨src, dst, n⟩] false none

/-- Accept work at the head of the store queue, as far as its batch allows: a close that has to wait holds the access engine (R160). -/
def State.acceptOr (s : State) (k : Nat) (st : Strand) (w : Who) (m : MemOp) (work : List Work) (pages : Bool) : Sq :=
  match s.acceptCopy k st w work pages with
  | some s => .done s
  | none => .wait 13 0 m s

/-- The address checks of cp that are precise at the word (R137). Where a range runs into a reserved address of the local window R376
does not say when that is reported: the copy meets it as it runs (DESIGN CHOICE, log 66). -/
def cpFlt (dst src : Word) : Option Flt :=
  if 2 ^ 56 ≤ dst.toNat then some (addrFlt dst) else if 2 ^ 56 ≤ src.toNat then some (addrFlt src) else none

/-- A close of the open batch waits (R160): it holds a copy, and 15 batches are outstanding. -/
def State.closeWaits (s : State) (uid : Nat) : Bool :=
  (s.allBatches.any fun b => b.uid == uid && !b.closed) && 15 ≤ s.outstanding uid

/-- Entries of a static copy schedule from number `i` on, each acting as the word it names (R167). -/
def State.adv (s : State) (k : Nat) (w : Who) (m : MemOp) : List Nat → Sq
  | [] => .done s
  | i :: l =>
    let va := m.a.toNat + 32 * i
    let m' := { m with part := i }
    match s.strand k with
    | none => .done s
    | some st =>
      match s.readWords w kLoad va 4 with
      | .flt f s => .flt f m' s
      | .wait c o s => .wait c o m' s
      | .ok ws s =>
        let go := fun (s : State) (x : Work) (pages : Bool) =>
          match s.acceptCopy k st w [x] pages with
          | some s => s.adv k w m l
          | none => .wait 13 0 m' s
        match bits (ws.getD 0 0) 0 8 with
        | 0 => match cpFlt (ws.getD 2 0) (ws.getD 1 0) with
          | some f => .flt f m' s
          | none => go s (plainCopy (ws.getD 1 0) (ws.getD 2 0) (bits (ws.getD 0 0) 8 48)) false
        | 1 =>
          match s.readDesc w (wd ws 3) [1, 2, 3, 4] with
          | .flt f s => .flt f m' s
          | .wait c o s => .wait c o m' s
          | .ok x s => go s x x.isPages
        | _ =>
          if s.closeWaits st.id.uid then .wait 13 0 m' s
          else
            let (s, i') := s.closeBatch st.id
            (s.onStrand k fun x => { x with id := i' }).adv k w m l

/-- The issue of a copy at the head of the store queue (R159): its descriptors are read and checked, precisely at the
word, and the copy engine accepts it. A misaligned list of a chain raises 0x04/0x0001 (DESIGN CHOICE, log 98). A cpadv tests OPK and the
unused fields of all its entries before it takes the first, and the descriptors as it comes to them (DESIGN CHOICE, log 99). -/
def State.copyIssue (s : State) (k : Nat) (st : Strand) (w : Who) (m : MemOp) : Sq :=
  let one := fun (kind : Nat) =>
    match s.readDesc w m.a.toNat [kind] with
    | .flt f s => .flt f m s
    | .wait c o s => .wait c o m s
    | .ok x s => s.acceptOr k st w m [x] (kind == 3)
  match m.w.ins with
  | .cp _ => s.acceptOr k st w m [plainCopy m.a m.b m.d.toNat] false
  | .cpTensor _ => one 1
  | .cpQuant _ => one 2
  | .cpPages _ => one 3
  | .cpRing _ => one 4
  | .cpChain _ =>
    let n := m.b.toNat
    if m.a.toNat % 8 ≠ 0 ∨ offMemory m.a.toNat (8 * n) then .flt (addrFlt m.a) m s
    else if 256 < n then .flt (descFlt m.a.toNat) m s
    else match s.readWords w kLoad m.a.toNat n with
      | .flt f s => .flt f m s
      | .wait c o s => .wait c o m s
      | .ok l s =>
        match s.readChain w l with
        | .flt f s => .flt f m s
        | .wait c o s => .wait c o m s
        | .ok xs s => s.acceptOr k st w m xs false
  | .cpadv a =>
    let n := a.i 0 8
    match s.readWords w kLoad m.a.toNat (4 * n) with
      | .flt f s => .flt f m s
      | .wait c o s => .wait c o m s
      | .ok ws s =>
        match (upFrom 0 n).find? fun i => badEntry ((ws.drop (4 * i)).take 4) with
        | some i => .flt (descFlt (m.a.toNat + 32 * i)) m s
        | none => s.adv k w m (upFrom m.part (n - m.part))
  | _ => .done s

/-- The work that a queued copy will issue, from its descriptors as they stand, with the ranges that it reads them from; none where they
cannot be read yet (R159, R162, R164, R167). -/
def State.copyPlan (s : State) (w : Who) (m : MemOp) : Option (List Work) × List (Nat × Nat) :=
  let one := fun va : Nat => ((s.readDesc w va [1, 2, 3, 4]).val, (va, 64))
  let all := fun l : List (Option Work) => if l.all Option.isSome then some (l.filterMap id) else none
  match m.w.ins with
  | .cp _ => (some [plainCopy m.a m.b m.d.toNat], [])
  | .cpChain _ =>
    let n := min m.b.toNat 256
    match (s.readWords w kLoad m.a.toNat n).val with
    | none => (none, [(m.a.toNat, 8 * n)])
    | some l => (all (l.map fun a => (one a.toNat).1), (m.a.toNat, 8 * n) :: l.map fun a => (a.toNat, 64))
  | .cpadv a =>
    let n := a.i 0 8
    match (s.readWords w kLoad m.a.toNat (4 * n)).val with
    | none => (none, [(m.a.toNat, 32 * n)])
    | some ws =>
      let es := (upFrom m.part (n - m.part)).map fun i => (ws.drop (4 * i)).take 4
      (all (es.filterMap fun e => match bits (e.getD 0 0) 0 8 with
          | 0 => some (some (plainCopy (e.getD 1 0) (e.getD 2 0) (bits (e.getD 0 0) 8 48)))
          | 1 => some (one (wd e 3)).1
          | _ => none),
        (m.a.toNat, 32 * n) :: (es.filter fun e => bits (e.getD 0 0) 0 8 == 1).map fun e => (wd e 3, 64))
  | _ => let x := one m.a.toNat; (x.1.map fun y => [y], [x.2])

/-- A copy before place `seq` of the stream, still in the store queue, fills one of these scratchpad lines, or may: its descriptors cannot be
read yet, or an earlier store of the queue writes them (R144, R159). A read of such a line waits. -/
def State.copyAhead (s : State) (k : Nat) (st : Strand) (seq : Nat) (lines : List Nat) : Bool :=
  !lines.isEmpty && (st.sq.filter fun e => e.w.seq < seq && isCopy e.w.ins).any fun e =>
    match s.copyPlan (e.who 2 (s.whoOf k st)) e with
    | (none, _) => true
    | (some ws, rs) =>
      ((ws.flatMap Work.dsts).flatMap spadLines).any lines.contains ||
        (st.sq.filter fun x => x.w.seq < e.w.seq).any fun x => x.ranges.any fun r => rs.any (meets r)

/-- The offset that an extension word adds to a descriptor's address (R162). -/
def descOff (a : RForm) : Word :=
  match a.ext with
  | some e => e.signExtend 64
  | none => 0

/-- A descriptor copy enters the store queue (R148); it retires when the copy engine accepts it (R86). -/
def issueDesc (i : Instr) (a : RForm) (s : State) : Host.Outcome State Fault Refusal :=
  issueStore i s [a.fa] (fun st => { w := noWord, a := st.srcG a.fa + descOff a })
    (fun m => if m.a.toNat % 64 != 0 || offMemory m.a.toNat 64 then some (addrFlt m.a) else none) false

/-- CP (R162): FD is the destination address, FA the source, FB or the extension the count. -/
def execCp (a : RForm) (s : State) : Host.Outcome State Fault Refusal :=
  issueStore (.cp a) s [a.fd, a.fa, a.fb]
    (fun st =>
      { w := noWord, a := st.srcG a.fa, b := st.srcG a.fd,
        d := match a.ext with | some e => e.zeroExtend 64 | none => st.srcG a.fb })
    (fun m => cpFlt m.b m.a) false
/-- CP_TENSOR (R162). -/
def execCpTensor (a : RForm) (s : State) : Host.Outcome State Fault Refusal := issueDesc (.cpTensor a) a s
/-- CP_QUANT (R163). -/
def execCpQuant (a : RForm) (s : State) : Host.Outcome State Fault Refusal := issueDesc (.cpQuant a) a s
/-- CP_CHAIN (R164): FB or the extension is the count. -/
def execCpChain (a : RForm) (s : State) : Host.Outcome State Fault Refusal :=
  issueStore (.cpChain a) s [a.fa, a.fb]
    (fun st =>
      { w := noWord, a := st.srcG a.fa, b := match a.ext with | some e => e.zeroExtend 64 | none => st.srcG a.fb })
    (fun _ => none) false
/-- CP_PAGES (R165). -/
def execCpPages (a : RForm) (s : State) : Host.Outcome State Fault Refusal := issueDesc (.cpPages a) a s
/-- CP_RING (R166). -/
def execCpRing (a : RForm) (s : State) : Host.Outcome State Fault Refusal := issueDesc (.cpRing a) a s
/-- CPADV (R167). -/
def execCpadv (a : IForm) (s : State) : Host.Outcome State Fault Refusal :=
  issueStore (.cpadv a) s [a.fd, a.fa] (fun st => { w := noWord, a := st.srcG a.fa })
    (fun m => if 2 ^ 56 ≤ m.a.toNat then some (addrFlt m.a) else if m.a.toNat % 32 != 0 then some (alignFlt m.a) else none)
    false

/-- BATCH_CLOSE (R168): waits for earlier copies to be accepted, and while 15 batches are outstanding (R160). -/
def execBatchClose (a : RForm) (s : State) : Host.Outcome State Fault Refusal :=
  .next (execAcc (.batchClose a) s [] false false fun st _ s =>
    if (st.sq.any fun m => isCopy m.w.ins) || s.closeWaits st.id.uid then .wait 12 0 s
    else
      let (s, i) := s.closeBatch st.id
      .ok (fun x => ({ x with id := i }).pushA (.batchClose a)) s)

/-- BATCH_WAIT (R169): closes the open batch, waits until at most n are outstanding, and reports the fault that a
covered batch recorded (R159). -/
def execBatchWait (a : IForm) (s : State) : Host.Outcome State Fault Refusal :=
  .next (execAcc (.batchWait a) s [] false false fun st _ s =>
    let n := a.i 0 4
    if (st.sq.any fun m => isCopy m.w.ins) || s.closeWaits st.id.uid then .wait 12 0 s
    else
      let (s, i) := s.closeBatch st.id
      let s := s.onStrand s.cur fun x => { x with id := i }
      if n < s.outstanding i.uid then .wait 12 0 s
      else match s.batchFlt i n with
        | some (b, f) => .flt { f with defer := true } (s.mapBatches fun l => l.filter (· != b))
        | none => .ok (fun x => ({ x with id := i }).pushA (.batchWait a)) (s.reap s.cur i n))

end Sys2Proof.Machine
end

