-- ==== Sys2Proof/Machine/Scalar.lean ====
section
/-! DEFINITION. Class S (R112 to R136): arithmetic, compares, branches, format words, system registers, trap,
hret, yield, halt and time; and the words that the dispatcher consumes (R89, R90). -/

namespace Sys2Proof.Machine

/-- Truncating division of integers (R114). -/
def truncDiv (x y : Int) : Int := Int.tdiv x y

/-- A pattern read as signed (`u` false) or unsigned (R114). -/
def asInt (u : Bool) (w : Word) : Int := if u then (w.toNat : Int) else w.toInt

/-- U of MOD[0] (R114). -/
def uBit (a : RForm) : Bool := a.mod.getLsbD 0

/-- A register operation of two sources (R114). -/
def exec2 (i : Instr) (a : RForm) (f : Word → Word → Word) (s : State) : Host.Outcome State Fault Refusal :=
  execReg i s fun st => [effX a.fd (f (st.srcX a.fa) (st.srcX a.fb))]

/-- A register operation of one source (R114). -/
def exec1 (i : Instr) (a : RForm) (f : Word → Word) (s : State) : Host.Outcome State Fault Refusal :=
  execReg i s fun st => [effX a.fd (f (st.srcX a.fa))]

/-- An immediate operation (R115). -/
def execI (i : Instr) (a : IForm) (f : Word → Word) (s : State) : Host.Outcome State Fault Refusal :=
  execReg i s fun st => [effX a.fd (f (st.srcX a.fa))]

/-- floor(A × B / 2^64) mod 2^64 (R114). -/
def opMulh (u : Bool) (a b : Word) : Word := BitVec.ofInt 64 ((asInt u a * asInt u b) / 2 ^ 64)

/-- div: all ones for a zero divisor, else trunc(A / B) (R114). -/
def opDiv (u : Bool) (a b : Word) : Word :=
  if b = 0 then BitVec.allOnes 64 else BitVec.ofInt 64 (truncDiv (asInt u a) (asInt u b))

/-- rem: a for a zero divisor, else A − B × trunc(A / B) (R114). -/
def opRem (u : Bool) (a b : Word) : Word :=
  if b = 0 then a else BitVec.ofInt 64 (asInt u a - asInt u b * truncDiv (asInt u a) (asInt u b))

/-- shl by an unreduced count (R114). -/
def opShl (a : Word) (n : Nat) : Word := if 64 ≤ n then 0 else a <<< n

/-- shr by an unreduced count (R114). -/
def opShr (a : Word) (n : Nat) : Word := if 64 ≤ n then 0 else a >>> n

/-- sra with the count capped at 63 (R114). -/
def opSra (a : Word) (n : Nat) : Word := a.sshiftRight (min n 63)

/-- The number of 1 bits (R114). -/
def popCount (n : Nat) (v : Nat) : Nat := ((upFrom 0 n).filter fun i => v.testBit i).length

/-- Leading zeros of a number of `n` bits. -/
def leadZeros (n v : Nat) : Nat := if v = 0 then n else n - 1 - Nat.log2 v

/-- Trailing zeros of a number of `n` bits. -/
def trailZeros (n v : Nat) : Nat := ((upFrom 0 n).find? fun i => v.testBit i).getD n

/-- min and max under U (R114). -/
def opMin (u : Bool) (a b : Word) : Word := if asInt u a ≤ asInt u b then a else b
/-- The maximum under U (R114). -/
def opMax (u : Bool) (a b : Word) : Word := if asInt u a ≤ asInt u b then b else a

/-- fsh (R116): the 64-bit window at bit n of a : b. -/
def opFsh (a b : Word) (n : Nat) : Word := BitVec.ofNat 64 ((a.toNat * 2 ^ 64 + b.toNat) / 2 ^ n)

/-- bfx (R117): w bits of a from bit p, sign-extended where `sg`. -/
def opBfx (a : Word) (p w : Nat) (sg : Bool) : Word :=
  let f := (if 64 ≤ p then 0 else a.toNat / 2 ^ p) % 2 ^ w
  BitVec.ofInt 64 (if sg && 2 ^ (w - 1) ≤ f then (f : Int) - 2 ^ w else f)

/-- bfi (R117): the low w bits of a placed at bit p of d. -/
def opBfi (d a : Word) (p w : Nat) : Word :=
  let m : Word := if 64 ≤ p then 0 else BitVec.ofNat 64 ((2 ^ w - 1) * 2 ^ p)
  (d &&& ~~~m) ||| ((if 64 ≤ p then 0 else a <<< p) &&& m)

/-- ADD (R114). -/
def execAdd (a : RForm) (s : State) : Host.Outcome State Fault Refusal := exec2 (.add a) a (· + ·) s
/-- SUB (R114). -/
def execSub (a : RForm) (s : State) : Host.Outcome State Fault Refusal := exec2 (.sub a) a (· - ·) s
/-- MUL (R114). -/
def execMul (a : RForm) (s : State) : Host.Outcome State Fault Refusal := exec2 (.mul a) a (· * ·) s
/-- MULH (R114). -/
def execMulh (a : RForm) (s : State) : Host.Outcome State Fault Refusal := exec2 (.mulh a) a (opMulh (uBit a)) s
/-- DIV (R114). -/
def execDiv (a : RForm) (s : State) : Host.Outcome State Fault Refusal := exec2 (.div a) a (opDiv (uBit a)) s
/-- REM (R114). -/
def execRem (a : RForm) (s : State) : Host.Outcome State Fault Refusal := exec2 (.rem a) a (opRem (uBit a)) s
/-- AND (R114). -/
def execAnd (a : RForm) (s : State) : Host.Outcome State Fault Refusal := exec2 (.and a) a (· &&& ·) s
/-- OR (R114). -/
def execOr (a : RForm) (s : State) : Host.Outcome State Fault Refusal := exec2 (.or a) a (· ||| ·) s
/-- XOR (R114). -/
def execXor (a : RForm) (s : State) : Host.Outcome State Fault Refusal := exec2 (.xor a) a (· ^^^ ·) s
/-- ANDN (R114). -/
def execAndn (a : RForm) (s : State) : Host.Outcome State Fault Refusal := exec2 (.andn a) a (fun x y => x &&& ~~~y) s
/-- SHL (R114). -/
def execShl (a : RForm) (s : State) : Host.Outcome State Fault Refusal := exec2 (.shl a) a (fun x y => opShl x y.toNat) s
/-- SHR (R114). -/
def execShr (a : RForm) (s : State) : Host.Outcome State Fault Refusal := exec2 (.shr a) a (fun x y => opShr x y.toNat) s
/-- SRA (R114). -/
def execSra (a : RForm) (s : State) : Host.Outcome State Fault Refusal := exec2 (.sra a) a (fun x y => opSra x y.toNat) s

/-- FSH (R116): with V the amount is the destination as read at issue. -/
def execFsh (a : RForm) (s : State) : Host.Outcome State Fault Refusal :=
  execReg (.fsh a) s fun st =>
    let n := if a.m 6 1 = 1 then bits (st.srcX a.fd) 0 6 else a.m 0 6
    [effX a.fd (opFsh (st.srcX a.fa) (st.srcX a.fb) n)]

/-- The position of a bit field (R117): POS, or FB where V is 1. -/
def Strand.bfPos (st : Strand) (a : RForm) : Nat := if a.m 13 1 = 1 then (st.srcX a.fb).toNat else a.m 0 6

/-- BFX (R117). -/
def execBfx (a : RForm) (s : State) : Host.Outcome State Fault Refusal :=
  execReg (.bfx a) s fun st => [effX a.fd (opBfx (st.srcX a.fa) (st.bfPos a) (a.m 6 6 + 1) (a.m 12 1 == 1))]

/-- BFI (R117). -/
def execBfi (a : RForm) (s : State) : Host.Outcome State Fault Refusal :=
  execReg (.bfi a) s fun st => [effX a.fd (opBfi (st.srcX a.fd) (st.srcX a.fa) (st.bfPos a) (a.m 6 6 + 1))]

/-- ADDI (R115). -/
def execAddi (a : IForm) (s : State) : Host.Outcome State Fault Refusal := execI (.addi a) a (· + a.simm) s
/-- ANDI (R115). -/
def execAndi (a : IForm) (s : State) : Host.Outcome State Fault Refusal := execI (.andi a) a (· &&& a.simm) s
/-- ORI (R115). -/
def execOri (a : IForm) (s : State) : Host.Outcome State Fault Refusal := execI (.ori a) a (· ||| a.simm) s
/-- XORI (R115). -/
def execXori (a : IForm) (s : State) : Host.Outcome State Fault Refusal := execI (.xori a) a (· ^^^ a.simm) s
/-- SHLI (R115). -/
def execShli (a : IForm) (s : State) : Host.Outcome State Fault Refusal := execI (.shli a) a (opShl · (a.i 0 6)) s
/-- SHRI (R115). -/
def execShri (a : IForm) (s : State) : Host.Outcome State Fault Refusal := execI (.shri a) a (opShr · (a.i 0 6)) s
/-- SRAI (R115). -/
def execSrai (a : IForm) (s : State) : Host.Outcome State Fault Refusal := execI (.srai a) a (opSra · (a.i 0 6)) s
/-- LI (R115). -/
def execLi (a : IForm) (s : State) : Host.Outcome State Fault Refusal := execReg (.li a) s fun _ => [effX a.fd a.simm]

/-- POPC (R114). -/
def execPopc (a : RForm) (s : State) : Host.Outcome State Fault Refusal :=
  exec1 (.popc a) a (fun x => BitVec.ofNat 64 (popCount 64 x.toNat)) s
/-- CLZ (R114). -/
def execClz (a : RForm) (s : State) : Host.Outcome State Fault Refusal :=
  exec1 (.clz a) a (fun x => BitVec.ofNat 64 (leadZeros 64 x.toNat)) s
/-- CTZ (R114). -/
def execCtz (a : RForm) (s : State) : Host.Outcome State Fault Refusal :=
  exec1 (.ctz a) a (fun x => BitVec.ofNat 64 (trailZeros 64 x.toNat)) s
/-- MIN (R114). -/
def execMin (a : RForm) (s : State) : Host.Outcome State Fault Refusal := exec2 (.min a) a (opMin (uBit a)) s
/-- MAX (R114). -/
def execMax (a : RForm) (s : State) : Host.Outcome State Fault Refusal := exec2 (.max a) a (opMax (uBit a)) s

/-- CMP (R118): COND of MOD[1:0], U of MOD[2]. -/
def execCmp (a : RForm) (s : State) : Host.Outcome State Fault Refusal :=
  execReg (.cmp a) s fun st =>
    [.sp (a.fd.toNat - 64) (cond64 (a.m 0 2) (a.m 2 1 == 1) (st.srcX a.fa) (st.srcX a.fb))]

/-- The condition, U and immediate of cmpi (R118); an extended cmpi compares under eq. -/
def cmpiOf (a : IForm) : Nat × Bool × Word :=
  match a.ext with
  | some _ => (0, false, a.imm64)
  | none => (a.i 20 2, a.i 19 1 == 1, (BitVec.ofNat 19 (a.i 0 19)).signExtend 64)

/-- CMPI (R118). -/
def execCmpi (a : IForm) (s : State) : Host.Outcome State Fault Refusal :=
  execReg (.cmpi a) s fun st =>
    [.sp (a.fd.toNat - 64) (cond64 (cmpiOf a).1 (cmpiOf a).2.1 (st.srcX a.fa) (cmpiOf a).2.2)]

/-- SEL (R120): both sources are read. -/
def execSel (a : RForm) (s : State) : Host.Outcome State Fault Refusal :=
  execReg (.sel a) s fun st => [effX a.fd (if st.srcSp (a.m 0 3) then st.srcX a.fa else st.srcX a.fb)]

/-- SPOP (R119). -/
def execSpop (a : RForm) (s : State) : Host.Outcome State Fault Refusal :=
  execReg (.spop a) s fun st =>
    [.sp (a.fd.toNat - 64) (opSp (a.m 0 3) (st.srcSp (a.fa.toNat - 64)) (st.srcSp (a.fb.toNat - 64)))]

/-- The target of a branch (R121): the word's address plus 8 × the signed offset. -/
def branchTo (pc off : Word) : Word := pc + 8 * off

/-- What a word reads as the dispatcher carries it out, in the numbering of `Strand.bad` (R396): the head of bq, a loop counter. -/
def dispReads (i : Instr) : List Nat :=
  match i with
  | .bq _ => [269]
  | .loop a => [308 + a.i 20 2]
  | _ => []

/-- A word that the dispatcher consumes (R89, R90): it takes effect on the strand that dispatched it, where it
stands in the dispatcher or is the next of the stream. `f` gives the strand after it, none where it waits for bq (R424). One that would
read an entry with an uncorrectable error faults, once every earlier word has issued (R370, R396). -/
def execDisp (i : Instr) (s : State) (f : Strand → QWord → Option Strand) : Host.Outcome State Fault Refusal :=
  let k := s.cur
  match s.strand k with
  | none => .next s
  | some st =>
    if st.stop.isSome then .next s
    else
      let next : QWord × Strand := (⟨i, st.pc + (insLen i - 8), st.seq⟩, { st with pc := st.pc + insLen i, seq := st.seq + 1 })
      let (w, st) := match st.disp with
        | some w => if w.ins = i then (w, { st with disp := none }) else next
        | none => next
      if st.meetsBad (dispReads i) [] then
        .next (if st.issuedBefore w.seq && st.susp.isNone then s.takeFault k regErrFlt w.pc 6 else s)
      else match f st w with
      | none => .next (s.stall k 6 10 0)
      | some u => .next ((s.setStrand k (u.unwaits 6)).idled k (u.lastWait 6))

/-- BR (R89, R121). -/
def execBr (a : IForm) (s : State) : Host.Outcome State Fault Refusal :=
  execDisp (.br a) s fun st w => some { st with pc := branchTo w.pc (a.imm.signExtend 64) }

/-- LOOP (R90): N of IMM[21:20], offset IMM[19:0]. -/
def execLoop (a : IForm) (s : State) : Host.Outcome State Fault Refusal :=
  execDisp (.loop a) s fun st w =>
    let n := a.i 20 2
    let c := Cells.get st.lc n
    let st := { st with base := st.base - 1 }
    some (if c = 0 then st
      else
        { st with
          lc := Cells.set st.lc n (c - 1)
          pc := branchTo w.pc ((BitVec.ofNat 20 (a.i 0 20)).signExtend 64) })

/-- BQ (R89): waits while bq is empty; pops it, and branches if it is 1. -/
def execBq (a : IForm) (s : State) : Host.Outcome State Fault Refusal :=
  execDisp (.bq a) s fun st w =>
    match st.bq with
    | [] => none
    | b :: l =>
      let st := { st with bq := l }
      some (if b then { st with pc := branchTo w.pc (a.imm.signExtend 64) } else st)

/-- BCC (R89, R121): branches at its issue on spN as read then. -/
def execBcc (a : IForm) (s : State) : Host.Outcome State Fault Refusal :=
  .next (execSide (.bcc a) s fun st w s =>
    let dest := branchTo w.pc (a.imm.signExtend 64)
    .ok ([], fun x => if st.srcSp (a.fa.toNat - 64) then { x with pc := dest } else x) s)

/-- LCSET (R123): at dispatch. -/
def execLcset (a : IForm) (s : State) : Host.Outcome State Fault Refusal :=
  execDisp (.lcset a) s fun st _ =>
    let (n, c) := match a.ext with
      | some _ => (bits a.imm64 32 2, bits a.imm64 0 32)
      | none => (a.i 20 2, a.i 0 20)
    some { st with lc := Cells.set st.lc n (BitVec.ofNat 32 c), bad := st.bad.filter (· != 308 + n) }

/-- LCMOV (R123): at issue. -/
def execLcmov (a : RForm) (s : State) : Host.Outcome State Fault Refusal :=
  .next (execSide (.lcmov a) s fun st _ s =>
    let v := (st.srcX a.fa).setWidth 32
    .ok ([], fun x => { x with lc := Cells.set x.lc (a.m 0 2) v, bad := x.bad.filter (· != 308 + a.m 0 2) }) s)

/-- RBSET (R124): at dispatch. -/
def execRbset (a : IForm) (s : State) : Host.Outcome State Fault Refusal :=
  execDisp (.rbset a) s fun st _ => some { st with base := BitVec.ofNat 5 (a.i 0 5) }

/-- RBMOV (R124): at issue. -/
def execRbmov (a : RForm) (s : State) : Host.Outcome State Fault Refusal :=
  .next (execSide (.rbmov a) s fun st _ s =>
    let v := (st.srcX a.fa).setWidth 5
    .ok ([], fun x => { x with base := v }) s)

/-- A push into the format word queue (R125): it waits while the queue, with words in flight, is full. -/
def pushFmt (i : Instr) (s : State) (v : Strand → Word) : Host.Outcome State Fault Refusal :=
  .next (execSide i s fun st _ s => if 32 ≤ st.fmtLoad then .wait 10 0 s else .ok ([.fmt (v st)], id) s)

/-- MFW (R125). -/
def execMfw (a : RForm) (s : State) : Host.Outcome State Fault Refusal := pushFmt (.mfw a) s fun st => st.srcX a.fa
/-- MFWI (R125). -/
def execMfwi (a : IForm) (s : State) : Host.Outcome State Fault Refusal := pushFmt (.mfwi a) s fun _ => a.uimm

/-- A system register as mfs reads it (R127 to R131). -/
def State.sysReg (s : State) (k : Nat) (st : Strand) (n : Nat) : Word :=
  let d := slotDie k
  let t := slotTile k % 24
  match n with
  | 0x000 => st.id.sid
  | 0x001 => BitVec.ofNat 64 (k % 8)
  | 0x002 => wordOf [(t % 6, 10), (t / 6, 8), (t, 0)]
  | 0x003 => BitVec.ofNat 64 d
  | 0x008 => st.base.zeroExtend 64
  | 0x009 => s.prioWord k st
  | 0x00A => st.lease
  | 0x00B => BitVec.ofNat 64 st.fmt.length
  | 0x010 => BitVec.ofNat 64 (s.ns d)
  | 0x018 => st.id.domMember
  | 0x019 =>
    let (hd, no) := st.id.domHome d
    if st.id.joined then BitVec.ofNat 64 (s.domPhase hd no st.id.level.toNat st.id.inst.toNat) else 0
  | 0x01A => match s.launch d st.id.launch with
    | some l => BitVec.ofNat 64 (bits (l.word 0) 32 12)
    | none => 0
  | 0x020 =>
    let x := s.tile (slotTile k)
    wordOf [(x.invT.isSome.toNat, 32), (x.invN.toNat, 0)]
  | 0x030 => st.id.cause
  | 0x031 => st.id.tpc
  | 0x032 => st.id.taddr
  | _ => 0

/-- MFS (R126): sampled at issue. -/
def execMfs (a : RForm) (s : State) : Host.Outcome State Fault Refusal :=
  .next (execSide (.mfs a) s fun st _ s => .ok ([effX a.fd (s.sysReg s.cur st (a.m 0 12))], id) s)

/-- MTS (R126): ROTBASE is written at issue, the others at the landing vc; LEVEL must not be written while
JOINED is 1 (R35). -/
def execMts (a : RForm) (s : State) : Host.Outcome State Fault Refusal :=
  .next (execSide (.mts a) s fun st _ s =>
    let n := a.m 0 12
    let v := st.srcX a.fa
    if n = 0x018 ∧ st.id.joined then .flt { cls := 3, code := 3, info := v } s
    else if n = 0x008 then .ok ([], fun x => { x with base := v.setWidth 5 }) s
    else .ok ([.sys n v], id) s)

/-- TRAP (R133): the word issues, with its PUSH token, then the strand stops with class 0x01 at the word. No rule says whether
the token of a trap lands (DESIGN CHOICE, log 67). -/
def execTrap (a : IForm) (s : State) : Host.Outcome State Fault Refusal :=
  .next (execSide (.trap a) s (fun _ _ s => .ok ([], id) s)
    fun _ w t => t.takeFault s.cur { cls := 1, code := a.i 0 16 } w.pc 0 0 (some w))

/-- HRET (R134, R391): after every earlier access of the strand has performed at .pk, the stopped strand whose record lies at
xa joins its ready list; where its record cannot be read, the launch ends (R367). With SUSP the strand moves once the suspension
point has passed its test (R24, R362). -/
def execHret (a : RForm) (s : State) : Host.Outcome State Fault Refusal :=
  let k := s.cur
  let d := slotDie k
  .next (execSide (.hret a) s fun st w s =>
    let va := st.srcX a.fa
    if va.toNat % 64 ≠ 0 then .flt (hretFlt 1) s
    else if !st.sq.isEmpty || !st.lq.isEmpty || (st.queue 1).any (·.seq < w.seq) then .wait 12 0 s
    else
      (s.release k st.id.uid st.id.launch 4).bind fun _ s =>
        match s.hretMove k st va with
        | .ok b t =>
          if a.hdr.susp then .ok ([], fun x => { x with took := x.took.map fun y => { y with ret := some va } }) s
          else if b then .ok ([], id) t else .wait 12 0 (t.endLaunch d st.id.launch 5 none)
        | .flt f s => .flt f s
        | .wait c o s => .wait c o s)

/-- YIELD (R135): a suspension point. -/
def execYield (a : RForm) (s : State) : Host.Outcome State Fault Refusal :=
  .next (execSide (.yield a) s fun _ _ s => .ok ([], id) s)

/-- HALT (R135): a suspension point that ends the strand. -/
def execHalt (a : RForm) (s : State) : Host.Outcome State Fault Refusal :=
  .next (execSide (.halt a) s fun _ _ s => .ok ([], id) s)

/-- TNOW (R136): nanoseconds, or with .fx nanoseconds and the 16-bit fraction. -/
def execTnow (a : RForm) (s : State) : Host.Outcome State Fault Refusal :=
  .next (execSide (.tnow a) s fun _ _ s =>
    .ok ([effX a.fd (if a.m 0 1 = 1 then BitVec.ofNat 64 (s.clock (slotDie s.cur)) else BitVec.ofNat 64 (s.ns (slotDie s.cur)))], id) s)

end Sys2Proof.Machine
end

