-- ==== Sys2Proof/Machine/Special.lean ====
section
/-! DEFINITION. The special functions (R190): the exactly fixed results, the correctly rounded ones, and for the
others every result within its bound, chosen by `Config.special` as a fixed function of the operand. Exact
values are enclosed in fixed point with 128 fractional bits; a bound is widened by 2^-80 of the value, which
covers the error of the enclosure (notes/assumptions, entry 20). -/

namespace Sys2Proof.Machine

/-- ln 2 × 2^128. -/
def fxLn2 : Nat := 235865763225513294137944142764154484399
/-- log2 e × 2^128. -/
def fxLog2e : Nat := 490923683258796565746369346286093237521
/-- 2 / √π × 2^128. -/
def fxErf : Nat := 383967533763538142977158567454335403656
/-- 1 in fixed point. -/
def fxOne : Nat := 2 ^ 128

/-- A magnitude m × 2^e in fixed point. -/
def fx (m : Nat) (e : Int) : Nat := shiftI m (e + 128)

/-- The exponential series from term `t` = g^(k-1) / (k-1)! on. -/
def expSeries (g : Nat) : Nat → Nat → Nat → Nat
  | 0, _, _ => 0
  | n + 1, k, t => t + expSeries g n (k + 1) (t * g / fxOne / k)

/-- 2^t for t in fixed point: mantissa in [2^128, 2^129) and exponent. -/
def fxExp2 (t : Int) : Nat × Int :=
  let n := t / (fxOne : Int)
  let f := (t - n * fxOne).toNat
  (expSeries (f * fxLn2 / fxOne) 48 1 fxOne, n - 128)

/-- The series of atanh z from z^(2k+1) = p on. -/
def atanhSeries (z2 : Nat) : Nat → Nat → Nat → Nat
  | 0, _, _ => 0
  | n + 1, k, p => p / (2 * k + 1) + atanhSeries z2 n (k + 1) (p * z2 / fxOne)

/-- log2 of a magnitude, in fixed point. -/
def fxLog2 (m : Nat) (e : Int) : Int :=
  let l := Nat.log2 m
  let u := shiftI m (128 - (l : Int))
  let z := (u - fxOne) * fxOne / (u + fxOne)
  let r := 2 * atanhSeries (z * z / fxOne) 48 0 z
  (e + l) * (fxOne : Int) + ((r * fxLog2e / fxOne : Nat) : Int)

/-- The even and odd sums of the series of erf z × √π / (2 z), with t = z². -/
def erfSeries (t : Nat) : Nat → Nat → Nat → Int
  | 0, _, _ => 0
  | n + 1, k, p => (p / (2 * k + 1) : Nat) - erfSeries t n (k + 1) (p * t / fxOne / (k + 1))

/-- The integer square root, bit by bit. -/
def isqrt (n : Nat) : Nat → Nat → Nat
  | 0, r => r
  | b + 1, r => isqrt n b (if (r + 2 ^ b) * (r + 2 ^ b) ≤ n then r + 2 ^ b else r)

/-- A number that lies strictly between two neighbours where a remainder is left (so that it rounds alike). -/
def sticky (s : Bool) (q : Nat) (exact : Bool) (e : Int) : Ext := .fin s (2 * q + (if exact then 0 else 1)) (e - 1)

/-- 1 / x for finite x other than 0, for rounding. -/
def recip (s : Bool) (m : Nat) (e : Int) : Ext := sticky s (2 ^ 200 / m) (2 ^ 200 % m == 0) (-200 - e)

/-- √x for positive finite x, for rounding. -/
def root (m : Nat) (e : Int) : Ext :=
  let k : Nat := if e % 2 = 0 then 200 else 201
  let n := m * 2 ^ k
  let r := isqrt n 120 0
  sticky false r (r * r == n) ((e - (k : Int)) / 2)

/-- The place of an FP32 value in numerical order; -0 shares the place of +0. -/
def orderOf (v : Lane) : Int := if v.getLsbD 31 then -((v.toNat % 2 ^ 31 : Nat) : Int) else v.toNat

/-- The FP32 value at a place. -/
def atOrder (i : Int) : Lane := if 0 ≤ i then BitVec.ofNat 32 i.toNat else BitVec.ofNat 32 (2 ^ 31 + (-i).toNat)

/-- One of the FP32 values within a bound of `y` (R190): `k` ulp of it, or 2^a absolutely. -/
def within (fn : Nat) (x : Lane) (y : Ext) (k : Nat) (a : Option Int) : Lane :=
  match y with
  | .fin _ m e =>
    let b : Ext := match a with
      | some p => .fin false 1 p
      | none => .fin false k (max (ilog (m + m / 2 ^ 90) e) (-126) - 23)
    let d := Ext.add false b (.fin false m (e - 80))
    let lo := orderOf (toF32 3 (Ext.add false y d.neg))
    let hi := min (orderOf (toF32 2 (Ext.add false y d))) 0x7F7FFFFF
    let n := (hi - lo + 1).toNat
    let z : Nat := if lo ≤ 0 ∧ 0 ≤ hi then 1 else 0
    let j := Config.special fn x.toNat % (n + z)
    if j = n then 0x80000000 else atOrder (lo + j)
  | _ => qnan

/-- One in FP32, under a sign. -/
def oneF (s : Bool) : Lane := if s then 0xBF800000 else 0x3F800000

/-- exp2 (R190). Of a tiny operand only the side of 1 on which the exact value lies counts: every value as near gives the same
results within the bound. -/
def fnExp2 (x : Lane) : Lane :=
  match f32 x with
  | .nan => qnan
  | .inf s => if s then 0 else 0x7F800000
  | .fin s m e =>
    let i := roundInt 1 s m e
    if 128 ≤ i then 0x7F800000
    else if roundInt 2 s m e < -150 ∨ (Ext.fin s m e).eqv (.fin true 150 0) then 0
    else if (Ext.fin s m e).eqv (.fin (i < 0) i.natAbs 0) ∧ -149 ≤ i then toF32 0 (.fin false 1 i)
    else if leMag m e 1 (-50) then within 0 x (.fin false (if s then 2 ^ 60 - 1 else 2 ^ 60 + 1) (-60)) 1 none
    else
      let r := fxExp2 (sgn s (fx m e))
      within 0 x (.fin false r.1 r.2) 1 none

/-- log2 (R190). -/
def fnLog2 (x : Lane) : Lane :=
  match f32 x with
  | .nan => qnan
  | .inf s => if s then qnan else 0x7F800000
  | .fin s m e =>
    if m = 0 then 0xFF800000
    else if s then qnan
    else if m = 2 ^ Nat.log2 m then
      let n := ilog m e
      toF32 0 (.fin (n < 0) n.natAbs 0)
    else
      let y := fxLog2 m e
      within 1 x (.fin (y < 0) y.natAbs (-128)) 1 (if ilog m e = -1 ∨ ilog m e = 0 then some (-22) else none)

/-- rcp (R190): correctly rounded. -/
def fnRcp (mode : Nat) (x : Lane) : Lane :=
  match f32 x with
  | .nan => qnan
  | .inf s => if s then 0x80000000 else 0
  | .fin s m e => if m = 0 then (if s then 0xFF800000 else 0x7F800000) else toF32 mode (recip s m e)

/-- rsqrt (R190). -/
def fnRsqrt (x : Lane) : Lane :=
  match f32 x with
  | .nan => qnan
  | .inf s => if s then qnan else 0
  | .fin s m e =>
    if m = 0 then (if s then 0xFF800000 else 0x7F800000)
    else if s then qnan
    else
      let l := ilog m e
      if m = 2 ^ Nat.log2 m ∧ l % 2 = 0 then toF32 0 (.fin false 1 (-(l / 2)))
      else
        let k : Nat := if e % 2 = 0 then 300 else 301
        within 3 x (.fin false (isqrt (2 ^ k / m) 160 0) ((-e - (k : Int)) / 2)) 1 none

/-- sqrt (R190): correctly rounded. -/
def fnSqrt (mode : Nat) (x : Lane) : Lane :=
  match f32 x with
  | .nan => qnan
  | .inf s => if s then qnan else x
  | .fin s m e => if m = 0 then x else if s then qnan else toF32 mode (root m e)

/-- tanh (R190). -/
def fnTanh (x : Lane) : Lane :=
  match f32 x with
  | .nan => qnan
  | .inf s => oneF s
  | .fin s m e =>
    if leMag m e 1 (-12) then x
    else if leMag 10 0 m e then oneF s
    else
      let r := fxExp2 ((2 * fx m e * fxLog2e / fxOne : Nat) : Int)
      let t := shiftI r.1 (r.2 + 128)
      within 5 x (.fin s ((t - fxOne) * fxOne / (t + fxOne)) (-128)) 2 none

/-- sigm (R190). Of a tiny operand only the side of 1/2 counts, as for exp2. -/
def fnSigm (x : Lane) : Lane :=
  match f32 x with
  | .nan => qnan
  | .inf s => if s then 0 else 0x3F800000
  | .fin s m e =>
    if m = 0 then 0x3F000000
    else if !s && leMag 18 0 m e then 0x3F800000
    else if leMag m e 1 (-50) then within 6 x (.fin false (if s then 2 ^ 60 - 1 else 2 ^ 60 + 1) (-61)) 2 none
    else
      let g := if leMag 300 0 m e then fx 300 0 else fx m e
      let r := fxExp2 (-((g * fxLog2e / fxOne : Nat) : Int))
      let d := fxOne + shiftI r.1 (r.2 + 128)
      if s then within 6 x (.fin false (r.1 * fxOne / d) r.2) 2 none
      else within 6 x (.fin false (fxOne * fxOne / d) (-128)) 2 none

/-- erf (R190). -/
def fnErf (x : Lane) : Lane :=
  match f32 x with
  | .nan => qnan
  | .inf s => oneF s
  | .fin s m e =>
    if m = 0 then x
    else if leMag 4 0 m e then oneF s
    else
      let t := fx m e * fx m e / fxOne
      within 7 x (.fin s (m * ((erfSeries t 120 0 fxOne).toNat * fxErf / fxOne)) (e - 128)) 2 none

end Sys2Proof.Machine
end

