-- ==== Sys2Proof/Machine/Vector.lean ====
section
/-! DEFINITION. Classes V and F (R170 to R191): lane arithmetic, compares, permutes, reductions, conversions,
quantisation, accumulator rows, special functions; and rotation of a word's registers at dispatch (R91). -/

namespace Sys2Proof.Machine

/-- What the destination holds as read at issue; zero for a w queue (R170). -/
def Strand.kept (st : Strand) (c : BitVec 7) : Vec := if c.toNat ≤ 63 then Cells.get st.v c.toNat else 0

/-- Lane `i` is active (R173). -/
def Strand.active (st : Strand) (a : RForm) (i : Nat) : Bool := a.m 9 1 == 0 || (st.srcP (a.m 5 4)).getLsbD i

/-- A masked operation of the lane group (R172, R173): `f` sees a, b and c of a lane. -/
def execLanes (i : Instr) (a : RForm) (f : Lane → Lane → Lane → Lane) (s : State) : Host.Outcome State Fault Refusal :=
  execReg i s fun st =>
    let va := st.srcV a.fa
    let vb := st.srcV a.fb
    let vd := st.kept a.fd
    [effV a.fd (vecOf fun j => if st.active a j then f (lane va j) (lane vb j) (lane vd j) else lane vd j)]

/-- An unmasked operation: `f` sees va, vb, the kept vd and the lane's number. -/
def execWhole (i : Instr) (a : RForm) (f : Vec → Vec → Vec → Nat → Lane) (s : State) : Host.Outcome State Fault Refusal :=
  execReg i s fun st => [effV a.fd (vecOf (f (st.srcV a.fa) (st.srcV a.fb) (st.kept a.fd)))]

/-- The type of a lane group word (R171). -/
def tyOf (a : RForm) : Nat := a.m 0 4

/-- A lane read as signed for .s32 and unsigned else (R174). -/
def laneInt (ty : Nat) (v : Lane) : Int := if ty = 1 then v.toInt else v.toNat

/-- An integer result: wrapped, or with .sat replaced by the nearest end of its range (R174). -/
def laneOut (ty : Nat) (sat : Bool) (i : Int) : Lane :=
  if sat then BitVec.ofInt 32 (if ty = 1 then clampI (-(2 ^ 31)) (2 ^ 31 - 1) i else clampI 0 (2 ^ 32 - 1) i)
  else BitVec.ofInt 32 i

/-- fl(x) (R174). -/
def fl (rm : Nat) (x : Ext) : Lane := toF32 rm x

/-- The FP32 minimum (R175). -/
def fminF (x y : Lane) : Lane :=
  if f32 x = .nan ∨ f32 y = .nan then qnan
  else if (f32 x).lt (f32 y) then x
  else if (f32 y).lt (f32 x) then y
  else x ||| y

/-- The FP32 maximum (R175). -/
def fmaxL (x y : Lane) : Lane :=
  if f32 x = .nan ∨ f32 y = .nan then qnan
  else if (f32 x).lt (f32 y) then y
  else if (f32 y).lt (f32 x) then x
  else x &&& y

/-- vadd (R174). -/
def laneAdd (a : RForm) (x y : Lane) : Lane :=
  if tyOf a = 3 then fl (a.m 10 3) (Ext.add (a.m 10 3 == 2) (f32 x) (f32 y))
  else laneOut (tyOf a) (a.m 13 1 == 1) (laneInt (tyOf a) x + laneInt (tyOf a) y)

/-- vsub (R174). -/
def laneSub (a : RForm) (x y : Lane) : Lane :=
  if tyOf a = 3 then fl (a.m 10 3) (Ext.add (a.m 10 3 == 2) (f32 x) (f32 y).neg)
  else laneOut (tyOf a) (a.m 13 1 == 1) (laneInt (tyOf a) x - laneInt (tyOf a) y)

/-- vmul (R174). -/
def laneMul (a : RForm) (x y : Lane) : Lane :=
  if tyOf a = 3 then fl (a.m 10 3) (Ext.mul (f32 x) (f32 y)) else x * y

/-- vmulh (R174). -/
def laneMulh (a : RForm) (x y : Lane) : Lane :=
  BitVec.ofInt 32 ((laneInt (tyOf a) x * laneInt (tyOf a) y) / 2 ^ 32)

/-- vfma (R174): one rounding. -/
def laneFma (a : RForm) (x y c : Lane) : Lane :=
  if tyOf a = 3 then fl (a.m 10 3) (Ext.add (a.m 10 3 == 2) (Ext.mul (f32 x) (f32 y)) (f32 c)) else x * y + c

/-- vfms (R174): one rounding. -/
def laneFms (a : RForm) (x y c : Lane) : Lane :=
  if tyOf a = 3 then fl (a.m 10 3) (Ext.add (a.m 10 3 == 2) (f32 c) (Ext.mul (f32 x) (f32 y)).neg) else c - x * y

/-- Minimum of two lanes under a type (R174, R175). -/
def laneMin (ty : Nat) (x y : Lane) : Lane :=
  if ty = 3 then fminF x y else if laneInt ty x ≤ laneInt ty y then x else y

/-- Maximum of two lanes under a type (R174, R175). -/
def laneMax (ty : Nat) (x y : Lane) : Lane :=
  if ty = 3 then fmaxL x y else if laneInt ty x ≤ laneInt ty y then y else x

/-- vabs (R174, R175). -/
def laneAbs (a : RForm) (x : Lane) : Lane :=
  if tyOf a = 3 then (if f32 x = .nan then qnan else x &&& 0x7FFFFFFF)
  else laneOut 1 (a.m 13 1 == 1) x.toInt.natAbs

/-- vneg (R174, R175). -/
def laneNeg (a : RForm) (x : Lane) : Lane :=
  if tyOf a = 3 then (if f32 x = .nan then qnan else x ^^^ 0x80000000)
  else laneOut 1 (a.m 13 1 == 1) (-x.toInt)

/-- vbfx (R181). -/
def laneBfx (ty : Nat) (x y : Lane) : Lane :=
  let p := y.toNat % 32
  let w := y.toNat / 32 % 32 + 1
  let f := x.toNat / 2 ^ p % 2 ^ w
  BitVec.ofInt 32 (if ty = 1 ∧ 2 ^ (w - 1) ≤ f then (f : Int) - 2 ^ w else f)

/-- VADD (R174). -/
def execVadd (a : RForm) (s : State) : Host.Outcome State Fault Refusal := execLanes (.vadd a) a (fun x y _ => laneAdd a x y) s
/-- VSUB (R174). -/
def execVsub (a : RForm) (s : State) : Host.Outcome State Fault Refusal := execLanes (.vsub a) a (fun x y _ => laneSub a x y) s
/-- VMUL (R174). -/
def execVmul (a : RForm) (s : State) : Host.Outcome State Fault Refusal := execLanes (.vmul a) a (fun x y _ => laneMul a x y) s
/-- VMULH (R174). -/
def execVmulh (a : RForm) (s : State) : Host.Outcome State Fault Refusal := execLanes (.vmulh a) a (fun x y _ => laneMulh a x y) s
/-- VFMA (R174): the addend is vd as read at issue. -/
def execVfma (a : RForm) (s : State) : Host.Outcome State Fault Refusal := execLanes (.vfma a) a (laneFma a) s
/-- VFMS (R174). -/
def execVfms (a : RForm) (s : State) : Host.Outcome State Fault Refusal := execLanes (.vfms a) a (laneFms a) s
/-- VMIN (R174, R175). -/
def execVmin (a : RForm) (s : State) : Host.Outcome State Fault Refusal :=
  execLanes (.vmin a) a (fun x y _ => laneMin (tyOf a) x y) s
/-- VMAX (R174, R175). -/
def execVmax (a : RForm) (s : State) : Host.Outcome State Fault Refusal :=
  execLanes (.vmax a) a (fun x y _ => laneMax (tyOf a) x y) s
/-- VABS (R174, R175). -/
def execVabs (a : RForm) (s : State) : Host.Outcome State Fault Refusal := execLanes (.vabs a) a (fun x _ _ => laneAbs a x) s
/-- VNEG (R174, R175). -/
def execVneg (a : RForm) (s : State) : Host.Outcome State Fault Refusal := execLanes (.vneg a) a (fun x _ _ => laneNeg a x) s
/-- VAND (R174). -/
def execVand (a : RForm) (s : State) : Host.Outcome State Fault Refusal := execLanes (.vand a) a (fun x y _ => x &&& y) s
/-- VOR (R174). -/
def execVor (a : RForm) (s : State) : Host.Outcome State Fault Refusal := execLanes (.vor a) a (fun x y _ => x ||| y) s
/-- VXOR (R174). -/
def execVxor (a : RForm) (s : State) : Host.Outcome State Fault Refusal := execLanes (.vxor a) a (fun x y _ => x ^^^ y) s
/-- VNOT (R174). -/
def execVnot (a : RForm) (s : State) : Host.Outcome State Fault Refusal := execLanes (.vnot a) a (fun x _ _ => ~~~x) s
/-- VSHL (R174): an unreduced count. -/
def execVshl (a : RForm) (s : State) : Host.Outcome State Fault Refusal :=
  execLanes (.vshl a) a (fun x y _ => if 32 ≤ y.toNat then 0 else x <<< y.toNat) s
/-- VSHR (R174). -/
def execVshr (a : RForm) (s : State) : Host.Outcome State Fault Refusal :=
  execLanes (.vshr a) a (fun x y _ => x >>> min y.toNat 32) s
/-- VSRA (R174). -/
def execVsra (a : RForm) (s : State) : Host.Outcome State Fault Refusal :=
  execLanes (.vsra a) a (fun x y _ => x.sshiftRight (min y.toNat 31)) s
/-- VBFX (R181). -/
def execVbfx (a : RForm) (s : State) : Host.Outcome State Fault Refusal :=
  execLanes (.vbfx a) a (fun x y _ => laneBfx (tyOf a) x y) s
/-- VPOPC (R174). -/
def execVpopc (a : RForm) (s : State) : Host.Outcome State Fault Refusal :=
  execLanes (.vpopc a) a (fun x _ _ => BitVec.ofNat 32 (popCount 32 x.toNat)) s
/-- VCLZ (R174). -/
def execVclz (a : RForm) (s : State) : Host.Outcome State Fault Refusal :=
  execLanes (.vclz a) a (fun x _ _ => BitVec.ofNat 32 (leadZeros 32 x.toNat)) s
/-- VMOV (R179). -/
def execVmov (a : RForm) (s : State) : Host.Outcome State Fault Refusal := execLanes (.vmov a) a (fun x _ _ => x) s

/-- VFSH (R181): unmasked; with V each lane's amount is vd as read at issue. -/
def execVfsh (a : RForm) (s : State) : Host.Outcome State Fault Refusal :=
  execWhole (.vfsh a) a (fun va vb vd i =>
    let n := if a.m 5 1 = 1 then (lane vd i).toNat % 32 else a.m 0 5
    BitVec.ofNat 32 (((lane va i).toNat * 2 ^ 32 + (lane vb i).toNat) / 2 ^ n)) s

/-- VLI (R179). -/
def execVli (a : IForm) (s : State) : Host.Outcome State Fault Refusal :=
  execReg (.vli a) s fun _ => [effV a.fd (vecOf fun _ => a.simm.extractLsb' 0 32)]

/-- VBCAST (R179). -/
def execVbcast (a : RForm) (s : State) : Host.Outcome State Fault Refusal :=
  execReg (.vbcast a) s fun st =>
    let v := (st.xr a.fa.toNat).extractLsb' 0 32
    [effV a.fd (vecOf fun i => if st.active a i then v else lane (st.kept a.fd) i)]

/-- VSEL (R177). -/
def execVsel (a : RForm) (s : State) : Host.Outcome State Fault Refusal :=
  execReg (.vsel a) s fun st =>
    let pc := st.srcP (a.m 5 4)
    [effV a.fd (vecOf fun i => if pc.getLsbD i then lane (st.srcV a.fa) i else lane (st.srcV a.fb) i)]

/-- The condition of vcmp over a lane (R176): 0 eq, 1 ne, 2 lt, 3 ge, 4 le, 5 gt, 6 uo. -/
def laneCond (ty c : Nat) (x y : Lane) : Bool :=
  let f := ty == 3
  let uo := f && (f32 x == .nan || f32 y == .nan)
  let lt := if f then (f32 x).lt (f32 y) else decide (laneInt ty x < laneInt ty y)
  let gt := if f then (f32 y).lt (f32 x) else decide (laneInt ty y < laneInt ty x)
  match c with
  | 0 => !uo && !lt && !gt
  | 1 => uo || lt || gt
  | 2 => lt
  | 3 => !uo && !lt
  | 4 => !uo && !gt
  | 5 => gt
  | _ => uo

/-- VCMP (R176): an inactive lane is written 0. -/
def execVcmp (a : RForm) (s : State) : Host.Outcome State Fault Refusal :=
  execReg (.vcmp a) s fun st =>
    [.p (a.fd.toNat - 64) (predOf fun i =>
      st.active a i && laneCond (tyOf a) (a.m 10 3) (lane (st.srcV a.fa) i) (lane (st.srcV a.fb) i))]

/-- VPERM (R180). -/
def execVperm (a : RForm) (s : State) : Host.Outcome State Fault Refusal :=
  execWhole (.vperm a) a (fun va vb _ i => if (lane vb i).getLsbD 31 then 0 else lane va ((lane vb i).toNat % 128)) s

/-- VSLIDE (R180): N is signed. -/
def execVslide (a : RForm) (s : State) : Host.Outcome State Fault Refusal :=
  execWhole (.vslide a) a (fun va vb _ i =>
    let j := (i : Int) + (BitVec.ofNat 8 (a.m 0 8)).toInt
    if j < 0 then lane vb (j + 128).toNat else if 128 ≤ j then lane vb (j - 128).toNat else lane va j.toNat) s

/-- VROT (R180): by N, or by a scalar where V is 1. -/
def execVrot (a : RForm) (s : State) : Host.Outcome State Fault Refusal :=
  execReg (.vrot a) s fun st =>
    let n := if a.m 7 1 = 1 then (st.xr a.fb.toNat).toNat % 128 else a.m 0 7
    [effV a.fd (vecOf fun i => lane (st.srcV a.fa) ((i + n) % 128))]

/-- comb of two lanes, either of which may be absent (R182). -/
def comb (op : Lane → Lane → Lane) : Option Lane → Option Lane → Option Lane
  | none, y => y
  | x, none => x
  | some x, some y => some (op x y)

/-- One level of the reduction tree (R182). -/
def treeLevel (op : Lane → Lane → Lane) : List (Option Lane) → List (Option Lane)
  | x :: y :: l => comb op x y :: treeLevel op l
  | l => l

/-- The fixed binary tree over 128 lanes (R182). -/
def treeFold (op : Lane → Lane → Lane) : Nat → List (Option Lane) → Option Lane
  | 0, l => (l.headD none)
  | n + 1, l => treeFold op n (treeLevel op l)

/-- Operator and empty result of a reduction (R182): 0 sum, 1 max, 2 min. -/
def foldOp (op ty rm : Nat) : (Lane → Lane → Lane) × Lane :=
  match op with
  | 0 => (if ty = 3 then fun x y => fl rm (Ext.add (rm == 2) (f32 x) (f32 y)) else fun x y => x + y, 0)
  | 1 => (laneMax ty, if ty = 3 then 0xFF800000 else if ty = 1 then 0x80000000 else 0)
  | _ => (laneMin ty, if ty = 3 then 0x7F800000 else if ty = 1 then 0x7FFFFFFF else 0xFFFFFFFF)

/-- The active lanes of a source, the others absent. -/
def Strand.lanesOf (st : Strand) (a : RForm) : List (Option Lane) :=
  (upFrom 0 128).map fun i => if st.active a i then some (lane (st.srcV a.fa) i) else none

/-- A NaN in any lane makes a float result the canonical NaN (R182). -/
def canonNan (ty : Nat) (v : Lane) : Lane := if ty = 3 ∧ f32 v = .nan then qnan else v

/-- vredsum, vredmax, vredmin (R182): the result goes to every lane. -/
def execRed (i : Instr) (a : RForm) (op : Nat) (s : State) : Host.Outcome State Fault Refusal :=
  execReg i s fun st =>
    let o := foldOp op (tyOf a) (a.m 10 3)
    let r := canonNan (tyOf a) ((treeFold o.1 7 (st.lanesOf a)).getD o.2)
    [effV a.fd (vecOf fun _ => r)]

/-- VREDSUM (R182). -/
def execVredsum (a : RForm) (s : State) : Host.Outcome State Fault Refusal := execRed (.vredsum a) a 0 s
/-- VREDMAX (R182). -/
def execVredmax (a : RForm) (s : State) : Host.Outcome State Fault Refusal := execRed (.vredmax a) a 1 s
/-- VREDMIN (R182). -/
def execVredmin (a : RForm) (s : State) : Host.Outcome State Fault Refusal := execRed (.vredmin a) a 2 s

/-- The passes of vscan at distances d, each over the values of the previous one (R183). -/
def scanFold (op : Lane → Lane → Lane) : List Nat → List (Option Lane) → List (Option Lane)
  | [], l => l
  | d :: ds, l => scanFold op ds (l.take d ++ List.zipWith (comb op) l (l.drop d))

/-- VSCAN (R183): OP in MOD[14:13]. A NaN result is canonical also in a lane that has combined with no other: R52 does not name
the scan among the operations that move bits, and R182 gives it its operator (DEDUCED, log 58). -/
def execVscan (a : RForm) (s : State) : Host.Outcome State Fault Refusal :=
  execReg (.vscan a) s fun st =>
    let o := foldOp (a.m 13 2) (tyOf a) (a.m 10 3)
    let r := scanFold o.1 [1, 2, 4, 8, 16, 32, 64] (st.lanesOf a)
    [effV a.fd (vecOf fun i => if st.active a i then canonNan (tyOf a) ((r.getD i none).getD 0) else lane (st.kept a.fd) i)]

/-- The float format of a vector type code 3 to 7 (R171). -/
def vtypeFmt (t : Nat) : Fmt :=
  match t with
  | 3 => fp32
  | 4 => bf16
  | 5 => fp16
  | 6 => e4m3
  | _ => e5m2

/-- The range of an integer type code (R171). -/
def vtypeRange (t : Nat) : Int × Int :=
  match t with
  | 1 => (-(2 ^ 31), 2 ^ 31 - 1)
  | 2 => (0, 2 ^ 32 - 1)
  | 8 => (-(2 ^ 15), 2 ^ 15 - 1)
  | 9 => (0, 2 ^ 16 - 1)
  | 10 => (-(2 ^ 7), 2 ^ 7 - 1)
  | 11 => (0, 2 ^ 8 - 1)
  | 12 => (-(2 ^ 63), 2 ^ 63 - 1)
  | _ => (0, 2 ^ 64 - 1)

/-- An integer type code is signed. -/
def vtypeSigned (t : Nat) : Bool := t == 1 || t == 8 || t == 10 || t == 12

/-- The value of an integer pattern of `w` bits. -/
def intOf (t w n : Nat) : Int := if vtypeSigned t && 2 ^ (w - 1) ≤ n then (n : Int) - 2 ^ w else n

/-- An integer as an exact value; zero is +0. -/
def extOf (i : Int) : Ext := .fin (i < 0) i.natAbs 0

/-- vcvt of one lane (R184): `x` the source lane, `d` the kept destination lane. -/
def laneCvt (a : RForm) (x d : Lane) : Lane :=
  let dt := a.m 0 4
  let st := a.m 4 4
  let rm := a.m 8 3
  let w := vtypeWidth (if st = 3 then dt else st)
  let k := a.m 12 2
  if st = 3 then
    let y : Nat :=
      if 4 ≤ dt ∧ dt ≤ 7 then narrow (vtypeFmt dt) rm ((dt = 6 || dt = 7) && a.m 11 1 == 0) (f32 x)
      else ((toInt rm (vtypeRange dt).1 (vtypeRange dt).2 0 (f32 x)) % 2 ^ w).toNat
    if w = 32 then BitVec.ofNat 32 y
    else BitVec.ofNat 32 (d.toNat - d.toNat / 2 ^ (w * k) % 2 ^ w * 2 ^ (w * k) + y * 2 ^ (w * k))
  else
    let z := x.toNat / 2 ^ (w * k) % 2 ^ w
    fl rm (if 4 ≤ st ∧ st ≤ 7 then widen (vtypeFmt st) z else extOf (intOf st w z))

/-- VCVT (R184). -/
def execVcvt (a : RForm) (s : State) : Host.Outcome State Fault Refusal :=
  execWhole (.vcvt a) a (fun va _ vd i => laneCvt a (lane va i) (lane vd i)) s

/-- The flags of block quantisation (R72, R185). -/
def quantFlags (qs : List Quant) : Nat :=
  packNat 4 (fun j => match qs[j]? with
    | some q => q.nanblk.toNat + 2 * q.ovf.toNat + 4 * q.unf.toNat
    | none => 0) qs.length

/-- vqmx and vqem (R185). -/
def execQuant (i : Instr) (a : RForm) (s : State) : Host.Outcome State Fault Refusal :=
  execReg i s fun st =>
    let c := a.m 0 4
    let qs := quantise c (a.m 4 3) ((upFrom 0 128).map fun j => f32 (lane (st.srcV a.fa) j))
    let data := padTo 508 (quantBytes c qs)
    let sc := if c < 9 then qs.map fun q => BitVec.ofNat 8 q.scale else []
    let v : Vec := BitVec.ofNat 4096 (leNat (data ++ sc))
    let flags := if a.m 7 1 = 1 then [Eff.p (a.fb.toNat - 64) (BitVec.ofNat 128 (quantFlags qs))] else []
    effV a.fd v :: flags

/-- VQMX (R185). -/
def execVqmx (a : RForm) (s : State) : Host.Outcome State Fault Refusal := execQuant (.vqmx a) a s
/-- VQEM (R185). -/
def execVqem (a : RForm) (s : State) : Host.Outcome State Fault Refusal := execQuant (.vqem a) a s

/-- The largest magnitude of a block of lanes (R186). -/
def blockAmax (va : Vec) (b j : Nat) : Lane :=
  (upFrom (b * j) b).foldl (fun m i => fmaxL m (if f32 (lane va i) = .nan then qnan else lane va i &&& 0x7FFFFFFF)) 0

/-- VAMAX (R186). -/
def execVamax (a : RForm) (s : State) : Host.Outcome State Fault Refusal :=
  execWhole (.vamax a) a (fun va _ _ i =>
    let b := if a.m 0 1 = 1 then 16 else 32
    if i < 128 / b then blockAmax va b i else 0) s

/-- The accumulator row of a vacc word, an exact sum (R6, R187). -/
def Strand.accRow (st : Strand) (a : RForm) : Nat := (st.xr a.fa.toNat).toNat + a.m 0 10

/-- The accumulator row overrun fault (R377). -/
def overrunFlt (row : Nat) : Flt := { cls := 3, code := 7, info := wordOf [(row % 1024, 0), (1, 16)] }

/-- A vacc word (R187): the row is checked; a read consumes poison (R394). -/
def execVacc (i : Instr) (a : RForm) (read : Bool) (f : Vec → Strand → Nat → Eff) (s : State) :
    Host.Outcome State Fault Refusal :=
  .next (execSide i s fun st _ s =>
    let r := st.accRow a
    let t := slotTile s.cur
    let l := accLoc t r (a.m 10 2)
    if 768 ≤ r then .flt (overrunFlt r) s
    else if read && s.poisoned l.key 512 then .flt (poisonFlt 2 (BitVec.ofNat 64 (0xFF000100000000 + 2048 * r + 512 * a.m 10 2))) s
    else .ok ([f (BitVec.ofNat 4096 (s.peekNat l 512)) st r], id) s)

/-- VACC_RD (R187). -/
def execVaccRd (a : RForm) (s : State) : Host.Outcome State Fault Refusal :=
  execVacc (.vaccRd a) a true (fun old _ _ => effV a.fd old) s
/-- VACC_WR (R187). -/
def execVaccWr (a : RForm) (s : State) : Host.Outcome State Fault Refusal :=
  execVacc (.vaccWr a) a false (fun _ st r => .acc r (a.m 10 2) (st.srcV a.fb)) s
/-- VACC_ADD (R187): the update is made as it lands. -/
def execVaccAdd (a : RForm) (s : State) : Host.Outcome State Fault Refusal :=
  execVacc (.vaccAdd a) a true (fun _ st r => .accAdd r (a.m 10 2) 0 (a.m 12 1) (st.srcV a.fb)) s

/-- vacc.add on one lane (R187). -/
def accLane (ty rm : Nat) (old v : Lane) : Lane :=
  if ty = 1 then old + v else fl rm (Ext.add (rm == 2) (f32 old) (f32 v))

/-- A predicate operation over 128 bits (R178). -/
def execP (i : Instr) (a : RForm) (f : BitVec 128 → BitVec 128 → BitVec 128) (s : State) : Host.Outcome State Fault Refusal :=
  execReg i s fun st => [.p (a.fd.toNat - 64) (f (st.srcP (a.fa.toNat - 64)) (st.srcP (a.fb.toNat - 64)))]

/-- PAND (R178). -/
def execPand (a : RForm) (s : State) : Host.Outcome State Fault Refusal := execP (.pand a) a (· &&& ·) s
/-- POR (R178). -/
def execPor (a : RForm) (s : State) : Host.Outcome State Fault Refusal := execP (.por a) a (· ||| ·) s
/-- PXOR (R178). -/
def execPxor (a : RForm) (s : State) : Host.Outcome State Fault Refusal := execP (.pxor a) a (· ^^^ ·) s
/-- PNOT (R178). -/
def execPnot (a : RForm) (s : State) : Host.Outcome State Fault Refusal := execP (.pnot a) a (fun x _ => ~~~x) s
/-- PSET (R178): N of IMM[7:0], INV of IMM[8]. -/
def execPset (a : IForm) (s : State) : Host.Outcome State Fault Refusal :=
  execReg (.pset a) s fun _ => [.p (a.fd.toNat - 64) (predOf fun i => decide (i < a.i 0 8) != (a.i 8 1 == 1))]

/-- A function of class F on every lane (R189). -/
def execFn (i : Instr) (a : RForm) (f : Lane → Lane) (s : State) : Host.Outcome State Fault Refusal :=
  execWhole i a (fun va _ _ j => f (lane va j)) s

/-- EXP2 (R190). -/
def execExp2 (a : RForm) (s : State) : Host.Outcome State Fault Refusal := execFn (.exp2 a) a fnExp2 s
/-- LOG2 (R190). -/
def execLog2 (a : RForm) (s : State) : Host.Outcome State Fault Refusal := execFn (.log2 a) a fnLog2 s
/-- RCP (R190). -/
def execRcp (a : RForm) (s : State) : Host.Outcome State Fault Refusal := execFn (.rcp a) a (fnRcp (a.m 8 3)) s
/-- RSQRT (R190). -/
def execRsqrt (a : RForm) (s : State) : Host.Outcome State Fault Refusal := execFn (.rsqrt a) a fnRsqrt s
/-- SQRT (R190). -/
def execSqrt (a : RForm) (s : State) : Host.Outcome State Fault Refusal := execFn (.sqrt a) a (fnSqrt (a.m 8 3)) s
/-- TANH (R190). -/
def execTanh (a : RForm) (s : State) : Host.Outcome State Fault Refusal := execFn (.tanh a) a fnTanh s
/-- SIGM (R190). -/
def execSigm (a : RForm) (s : State) : Host.Outcome State Fault Refusal := execFn (.sigm a) a fnSigm s
/-- ERF (R190). -/
def execErf (a : RForm) (s : State) : Host.Outcome State Fault Refusal := execFn (.erf a) a fnErf s

/-- FCVT (R191): 64-bit integers in lane pairs. -/
def execFcvt (a : RForm) (s : State) : Host.Outcome State Fault Refusal :=
  let dt := a.m 0 4
  let ty := a.m 4 4
  let rm := a.m 8 3
  let h := a.m 11 1
  execWhole (.fcvt a) a (fun va _ vd i =>
    if dt = 12 ∨ dt = 13 then
      let y := (toInt rm (vtypeRange dt).1 (vtypeRange dt).2 0 (f32 (lane va (64 * h + i / 2))) % 2 ^ 64).toNat
      BitVec.ofNat 32 (if i % 2 = 0 then y else y / 2 ^ 32)
    else if i / 64 = h then
      let j := i % 64
      fl rm (extOf (intOf ty 64 ((lane va (2 * j)).toNat + 2 ^ 32 * (lane va (2 * j + 1)).toNat)))
    else lane vd i) s

/-- fcvt.i of one lane (R191). -/
def laneRound (rm : Nat) (x : Lane) : Lane :=
  match f32 x with
  | .fin s m e => toF32 0 (.fin s (roundMag rm s m e 0) 0)
  | .inf _ => x
  | .nan => qnan

/-- FCVT_I (R191). -/
def execFcvtI (a : RForm) (s : State) : Host.Outcome State Fault Refusal :=
  execFn (.fcvtI a) a (laneRound (a.m 8 3)) s

/-- An accumulator row or system register lands with the strand's other results (R83, R126, R187). -/
def State.landing (s : State) (k : Nat) (e : Eff) : State :=
  let t := slotTile k
  match e with
  | .acc r q v => s.poke (accLoc t r q) (leBytes 512 v.toNat)
  | .accAdd r q rm ty v =>
    let l := accLoc t r q
    let old : Vec := BitVec.ofNat 4096 (s.peekNat l 512)
    s.poke l (leBytes 512 (vecOf fun i => accLane ty rm (lane old i) (lane v i)).toNat)
  | .sys n v => s.onStrand k fun st => st.landSys n v
  | e => s.onStrand k fun st => { st.land1 e with bad := st.badAfter e }

/-- Rotation of a word's vector and predicate registers at dispatch, under the base in force (R91). -/
def rotIns (b : Nat) (i : Instr) : Instr :=
  let lanes := fun a : RForm => rotR a b true true true true
  let two := fun a : RForm => rotR a b true true false false
  match i with
  | .vadd a => .vadd (lanes a)
  | .vsub a => .vsub (lanes a)
  | .vmul a => .vmul (lanes a)
  | .vmulh a => .vmulh (lanes a)
  | .vfma a => .vfma (lanes a)
  | .vfms a => .vfms (lanes a)
  | .vmin a => .vmin (lanes a)
  | .vmax a => .vmax (lanes a)
  | .vabs a => .vabs (lanes a)
  | .vneg a => .vneg (lanes a)
  | .vand a => .vand (lanes a)
  | .vor a => .vor (lanes a)
  | .vxor a => .vxor (lanes a)
  | .vnot a => .vnot (lanes a)
  | .vshl a => .vshl (lanes a)
  | .vshr a => .vshr (lanes a)
  | .vsra a => .vsra (lanes a)
  | .vbfx a => .vbfx (lanes a)
  | .vfsh a => .vfsh (rotR a b true true true false)
  | .vpopc a => .vpopc (lanes a)
  | .vclz a => .vclz (lanes a)
  | .vmov a => .vmov (lanes a)
  | .vli a => .vli { a with fd := rotCode b a.fd }
  | .vbcast a => .vbcast (rotR a b true false false true)
  | .vsel a => .vsel (lanes a)
  | .vcmp a => .vcmp (lanes a)
  | .vperm a => .vperm (rotR a b true true true false)
  | .vslide a => .vslide (rotR a b true true true false)
  | .vrot a => .vrot (two a)
  | .vredsum a => .vredsum (lanes a)
  | .vredmax a => .vredmax (lanes a)
  | .vredmin a => .vredmin (lanes a)
  | .vscan a => .vscan (lanes a)
  | .vcvt a => .vcvt (two a)
  | .vqmx a => .vqmx (rotR a b true true (a.m 7 1 == 1) false)
  | .vqem a => .vqem (rotR a b true true (a.m 7 1 == 1) false)
  | .vamax a => .vamax (two a)
  | .vaccRd a => .vaccRd (rotR a b true false false false)
  | .vaccWr a => .vaccWr (rotR a b false false true false)
  | .vaccAdd a => .vaccAdd (rotR a b false false true false)
  | .pand a => .pand (rotR a b true true true false)
  | .por a => .por (rotR a b true true true false)
  | .pxor a => .pxor (rotR a b true true true false)
  | .pnot a => .pnot (two a)
  | .pset a => .pset { a with fd := rotCode b a.fd }
  | .exp2 a => .exp2 (two a)
  | .log2 a => .log2 (two a)
  | .rcp a => .rcp (two a)
  | .rsqrt a => .rsqrt (two a)
  | .sqrt a => .sqrt (two a)
  | .tanh a => .tanh (two a)
  | .sigm a => .sigm (two a)
  | .erf a => .erf (two a)
  | .fcvt a => .fcvt (two a)
  | .fcvtI a => .fcvtI (two a)
  | i => i

end Sys2Proof.Machine
end

