-- ==== Sys2Proof/Machine/Matrix.lean ====
section
/-! DEFINITION. The matrix array (R192 to R212): operands in scratchpad, summation, weight planes, checks at issue, start
bounds and retirement in virtual cycles, the work of each row, leases and grants, and chains. -/

namespace Sys2Proof.Machine

/-- Elements in a block of an operand format (R195). -/
def opBlock (f : Nat) : Nat :=
  if f < 4 ∨ f = 12 then 1 else if f < 9 ∨ f = 13 then 32 else if f = 14 then 40 else 16

/-- Data bytes of a block of an operand format (R195). -/
def opBytes (f : Nat) : Nat :=
  if f < 2 then 2 else if f < 4 ∨ f = 12 then 1
  else if f < 6 then 32 else if f < 8 then 24 else if f = 8 then 16
  else if f = 9 then 18 else if f = 10 then 12 else 8

/-- Bytes of an entry of the separate scale array; 0 where there is none (R195). -/
def scaleBytes (f : Nat) : Nat := if 4 ≤ f ∧ f ≤ 8 then 1 else if f = 13 ∨ f = 14 then 2 else 0

/-- Quotient rounded up. -/
def up (a b : Nat) : Nat := (a + b - 1) / b

/-- Blocks of a row of `l` elements. -/
def rowBlocks (f l : Nat) : Nat := up l (opBlock f)

/-- Data bytes of a row of `l` elements (R195). -/
def rowBytes (f l : Nat) : Nat := rowBlocks f l * opBytes f

/-- The row stride in lines (R195). -/
def rowStride (f l : Nat) : Nat := up (rowBytes f l) 128

/-- Scale bytes of a row. -/
def rowScales (f l : Nat) : Nat := rowBlocks f l * scaleBytes f

/-- Lines of the scale array of `n` rows. -/
def scaleLines (f l n : Nat) : Nat := up (n * rowScales f l) 128

/-- The value of element `i` of a row with its block's scale (R60 to R62, R64, R65). -/
def opElem (f : Nat) (data sc : List Byte) (i : Nat) : Ext :=
  let j := i / opBlock f
  let blk := natAt data (j * opBytes f) (opBytes f)
  if f < 4 then widen (fmtOf f) blk
  else if f < 9 then mxElem f blk (natAt sc j 1) (i % 32)
  else if f < 12 then emElem f blk (i % 16)
  else if f = 12 then extOf (intOf 10 8 blk)
  else if f = 13 then weightVal (some (w2Weight blk (i % 32))) (natAt sc (2 * j) 2)
  else weightVal (t3Weight blk (i % 40)) (natAt sc (2 * j) 2)

/-- The elements of a row of length `l`. -/
def opRow (f l : Nat) (data sc : List Byte) : List Ext := (upFrom 0 l).map (opElem f data sc)

/-- K of a format word (R193). -/
def fwK (w : Word) : Nat := bits w 12 10
/-- N of a format word (R193). -/
def fwN (w : Word) : Nat := bits w 22 10
/-- AFMT (R193). -/
def fwA (w : Word) : Nat := bits w 0 4
/-- BFMT (R193). -/
def fwB (w : Word) : Nat := bits w 4 4
/-- ACC (R193). -/
def fwAcc (w : Word) : Nat := bits w 8 2
/-- MODE: outer (R193). -/
def fwOuter (w : Word) : Bool := w.getLsbD 10
/-- CHAIN (R193). -/
def fwChain (w : Word) : Bool := w.getLsbD 11
/-- ASCALE (R193). -/
def fwAS (w : Word) : Nat := bits w 32 16
/-- BSCALE (R193). -/
def fwBS (w : Word) : Nat := bits w 48 16

/-- The reduction length (R203). -/
def fwRed (w : Word) : Nat := if fwOuter w then fwN w else fwK w
/-- The output width (R203). -/
def fwWidth (w : Word) : Nat := if fwOuter w then fwK w else fwN w

/-- An integer pair (R63). -/
def intPair (w : Word) : Bool := fwA w == 12 && fwB w == 12

/-- The pair of a format word is legal (R63). -/
def pairOk (w : Word) : Bool :=
  (fwA w ≤ 11 && fwB w ≤ 11) || intPair w || ([2, 4, 5, 12].contains (fwA w) && (fwB w == 13 || fwB w == 14))

/-- Twice the rate of one side (R204). -/
def sideRate (f : Nat) : Nat := if f < 2 ∨ f = 9 then 1 else if f = 8 ∨ f = 11 then 4 else 2

/-- Twice the streamed rows per vc (R204). -/
def fwRate (w : Word) : Nat := if 13 ≤ fwB w then 8 else min (sideRate (fwA w)) (sideRate (fwB w))

/-- The reduction of one lane over segments of 32 (R66, R68). -/
def reduceF (c : Lane) (ps : List Ext) : Lane := (chunks 32 ps.length ps).foldl segFloat c

/-- The reduction of one integer lane (R68). -/
def reduceI (sat : Bool) (c : Lane) (ps : List Int) : Lane :=
  (chunks 32 ps.length ps).foldl (fun c l => segInt sat c (l.foldl (· + ·) 0)) c

/-- The integer of an exact value that is one. -/
def Ext.toI : Ext → Int
  | .fin s m e => sgn s (shiftI m e)
  | _ => 0

/-- Column `n` of a plane, its elements with their scales (R199). -/
def Plane.col (p : Plane) (n : Nat) : List Ext :=
  let f := fwB p.fw
  let k := fwK p.fw
  opRow f k (p.cols.getD n []) ((p.scales.drop (n * rowScales f k)).take (rowScales f k))

/-- Segments of 32 of the reduction; one where it is empty (R66, R203). -/
def fwSegs (w : Word) : Nat := max 1 (up (fwRed w) 32)

/-- The operands of the plane for output lane `o` (R202). -/
def against (fw : Word) (cols : List (List Ext)) (o : Nat) : List Ext :=
  if fwOuter fw then cols.map fun c => c.getD o .nan else (cols.getD o []).take (fwK fw)

/-- One segment of a streamed row against a plane: the lanes of its accumulator row after it, one indivisible update of each
(R66, R68, R188, R202, R203). -/
def mulSeg (fw : Word) (p : Plane) (a : List Ext) (seg : Nat) (old : Nat → Lane) : List Lane :=
  let cols := (upFrom 0 (fwN fw)).map p.col
  let part := fun l : List Ext => (l.drop (32 * seg)).take 32
  (upFrom 0 (fwWidth fw)).map fun o =>
    let b := part (against fw cols o)
    let c := if fwAcc fw = 1 ∧ seg = 0 then 0 else old o
    if fwRed fw = 0 then c
    else if intPair fw then segInt (fwAcc fw == 2) c ((List.zipWith (fun x y => x.toI * y.toI) (part a) b).foldl (· + ·) 0)
    else segFloat c (List.zipWith Ext.mul (part a) b)

/-- One streamed row against a plane, all its segments: the lanes of its accumulator row after it (R202, R203). -/
def mulRow (fw : Word) (p : Plane) (a : List Ext) (old : Nat → Lane) : List Lane :=
  let cols := (upFrom 0 (fwN fw)).map p.col
  (upFrom 0 (fwWidth fw)).map fun o =>
    let b := against fw cols o
    let c := if fwAcc fw = 1 then 0 else old o
    if intPair fw then reduceI (fwAcc fw == 2) c (List.zipWith (fun x y => x.toI * y.toI) a b)
    else reduceF c (List.zipWith Ext.mul a b)

/-- The format, K and N of a plane. -/
def Plane.pmeta (p : Plane) : PMeta := ⟨fwB p.fw, fwK p.fw, fwN p.fw⟩

/-- The format word content fault (R372). -/
def fmtFlt (fw : Word) : Flt := { cls := 3, code := 5, info := fw }

/-- The line fault (R192, R372). -/
def lineFlt (n : Nat) : Flt := { cls := 3, code := 8, info := BitVec.ofNat 64 n }

/-- The chain fault (R205, R206, R372). Where the tile is in no chain the spec gives POS and LEN no value: the model puts 0
and 1 there (DESIGN CHOICE, log 55). -/
def chainFlt (pos len : Nat) : Flt := { cls := 3, code := 0xA, info := wordOf [(pos % 8, 0), ((len - 1) % 8, 3)] }

/-- A line index, or a range of lines from it, lies past line 32,767 (R192). -/
def rangeFlt (base n : Nat) : Option Flt :=
  if 32767 < base ∨ (n ≠ 0 ∧ 32768 < base + n) then some (lineFlt base) else none

/-- A scale array passes line 32,767. -/
def scaleFlt (base n : Nat) : Option Flt := if n ≠ 0 ∧ 32768 < base + n then some (lineFlt base) else none

/-- Rows pass row 767 (R201). -/
def rowsFlt (row0 m : Nat) : Option Flt :=
  if 768 < row0 + m then some { cls := 3, code := 7, info := wordOf [(row0 % 1024, 0), (m % 1024, 16)] } else none

/-- The first fault of a list. -/
def firstFlt : List (Option Flt) → Option Flt
  | [] => none
  | none :: l => firstFlt l
  | some f :: _ => some f

/-- Bytes of a read-out row (R209): format OUT, 128 × lq lanes. -/
def outBytes (out lq : Nat) : Nat := if out = 13 then 512 * lq else rowBytes out (128 * lq)
/-- Its stride in lines (R195). -/
def outStride (out lq : Nat) : Nat := up (outBytes out lq) 128
/-- Its MX scale bytes. -/
def outScales (out lq : Nat) : Nat := if 4 ≤ out ∧ out ≤ 8 then 4 * lq else 0

/-- The value and state checks of a matrix operation (R194, R374, R378), against the plane and chain state that the
commands ahead of it leave. -/
def MOp.check (o : MOp) (act : Option PMeta) (chain : Option (Nat × Nat)) : Option Flt :=
  match o with
  | .ldw fw line =>
    if 512 < fwK fw ∨ 512 < fwN fw ∨ fwB fw = 15 then some (fmtFlt fw)
    else firstFlt [rangeFlt line (fwN fw * rowStride (fwB fw) (fwK fw)), scaleFlt (fwBS fw) (scaleLines (fwB fw) (fwK fw) (fwN fw))]
  | .mul fw line row0 m ch =>
    let l := fwRed fw
    if 512 < fwK fw ∨ 512 < fwN fw ∨ !pairOk fw ∨ fwAcc fw = 3 ∨ (fwAcc fw = 2 ∧ !intPair fw) then some (fmtFlt fw)
    else
      let east := ch && (match chain with | some (p, _) => 0 < p | none => false)
      let lines := if east then [] else
        [rangeFlt line (m * rowStride (fwA fw) l), scaleFlt (fwAS fw) (scaleLines (fwA fw) l m)]
      let plane := match act with
        | some p => if p.f ≠ fwB fw ∨ p.k < fwK fw ∨ p.n < fwN fw then some { cls := 3, code := 9, info := fw } else none
        | none => some { cls := 3, code := 9, info := fw }
      let ch := if ch && chain.isNone then some (chainFlt 0 1) else none
      firstFlt (lines ++ [rowsFlt row0 m, plane, ch])
  | .clr row0 m => rowsFlt row0 m
  | .st row0 m lq out _ _ dst wn scl _ =>
    firstFlt [if wn.isSome then none else rangeFlt dst (m * outStride out lq),
      scaleFlt scl (up (m * outScales out lq) 128), rowsFlt row0 m]
  | .upd row0 m lq out master copy scl _ _ =>
    firstFlt [rangeFlt master (m * 4 * lq), if out = 13 then none else rangeFlt copy (m * outStride out lq),
      scaleFlt scl (up (m * outScales out lq) 128), rowsFlt row0 m]
  | _ => none

/-- The planes that an operation leaves (R199, R200). -/
def MOp.planes (o : MOp) (act shd : Option PMeta) : Option PMeta × Option PMeta :=
  match o with
  | .ldw fw _ => (act, some ⟨fwB fw, fwK fw, fwN fw⟩)
  | .swap => (shd, act)
  | _ => (act, shd)

/-- A command may still change the planes: it has not started, or its plane load or its macro is not at its end. -/
def Strand.planeWork (st : Strand) (c : MCmd) : Bool :=
  c.start.isNone || match c.op with
    | .ldw _ _ => !c.done
    | .mac _ _ _ => c.uend.isNone || st.mops.any (!·.done)
    | _ => false

/-- The planes that a strand's queue leaves (R194). -/
def State.planesOf (s : State) (k : Nat) (st : Strand) : Option PMeta × Option PMeta :=
  match (st.mq.filter st.planeWork).getLast? with
  | some c => (c.act, c.shd)
  | none =>
    let t := s.tile (slotTile k)
    (t.active.map Plane.pmeta, t.shadow.map Plane.pmeta)

/-- The chain, as position and length, that a strand's queue leaves (R194, R205). -/
def State.chainOf (s : State) (k : Nat) (st : Strand) : Option (Nat × Nat) :=
  let pend := st.mq.filterMap fun c => match c.op with
    | .chain p l => if c.start.isNone then some (p, l) else none
    | _ => none
  match pend.getLast? with
  | some (_, 1) => none
  | some x => some x
  | none => (s.tile (slotTile k)).chain.map fun c => (c.pos, c.len)

/-- Twice the rows per vc of a stream: the chain's where it is in one (R204, R206). -/
def rateOf (fw : Word) (rate : Nat) : Nat := if rate = 0 then fwRate fw else rate

/-- Occupancy of a unit and vc from start plus occupancy to retirement (R211, R241); `p` is the chain position, `rate` that of
the chain, 0 where the stream's own holds (R206). -/
def MOp.cost (o : MOp) (p : Nat) (rate : Nat := 0) : Nat × Nat :=
  match o with
  | .ldw fw _ => (max 1 (up (fwN fw * rowStride (fwB fw) (fwK fw) + scaleLines (fwB fw) (fwK fw) (fwN fw)) 8), 8)
  | .swap => (0, 1)
  | .mul fw _ _ m _ => (max 1 (up (2 * m) (rateOf fw rate)), p + 15)
  | .clr _ m => (max 1 (up m 8), 2)
  | .st _ m lq _ _ _ _ _ _ _ => (max 1 (up (m * lq) 4), 6)
  | .upd _ m lq _ _ _ _ _ _ => (max 1 (up (m * lq) 2), 8)
  | .load _ n _ => (max 1 (up n 8), 8)
  | .chain _ _ => (0, 1)
  | _ => (0, 0)

/-- The flight of an operation that starts at a vc (R211, R212); none where it uses no unit. -/
def MOp.flight (o : MOp) (s run p : Nat) (rate : Nat := 0) : Option Flight :=
  let (oc, r) := o.cost p rate
  let f := fun (ld : Bool) (row0 rows : Nat) (wr : Bool) (kind : Nat) =>
    some ({ ld := ld, free := s + oc, retire := s + oc + r, row0 := row0, rows := rows, wr := wr, kind := kind, run := run } : Flight)
  match o with
  | .ldw _ _ => f true 0 0 false 0
  | .load _ _ _ => f true 0 0 false 5
  | .mul fw _ row0 m _ => f false row0 (if fwWidth fw = 0 then 0 else m) true 1
  | .clr row0 m => f false row0 m true 2
  | .st row0 m _ _ _ _ _ _ _ _ => f false row0 m false 3
  | .upd row0 m _ _ _ _ _ _ _ => f false row0 m true 4
  | _ => none

/-- Two operations of the stream unit touch a row that one of them writes; a stream behind a stream or a clear is
exempt (R212). -/
def Flight.conflicts (e f : Flight) : Bool :=
  !e.ld && !f.ld && e.run == f.run && 0 < e.rows && 0 < f.rows && e.row0 < f.row0 + f.rows && f.row0 < e.row0 + e.rows && (e.wr || f.wr) &&
    !(f.kind == 1 && (e.kind == 1 || e.kind == 2))

/-- The least vc at or after `base` at which an operation may start (R211, R212, R241). -/
def Strand.bound (st : Strand) (o : MOp) (run base : Nat) : Nat :=
  let base := match o with
    | .swap =>
      let lds := (st.mq ++ st.mops).filterMap fun c => match c.op with
        | .ldw _ _ => if c.start.isSome then some c.retire else none
        | _ => none
      (lds ++ (st.fly.filter fun e => e.ld && e.kind == 0).map (·.retire) ++ (st.fly.filter (!·.ld)).map (·.free)).foldl max base
    | _ => base
  match o.flight 0 run 0 with
  | none => base
  | some f =>
    st.fly.foldl (fun b e => max b (max (if e.ld == f.ld then e.free else 0) (if e.conflicts f then e.retire + 1 else 0))) base

/-- Flights that can bind nothing any more are dropped. -/
def Strand.pruned (st : Strand) : Strand := { st with fly := st.fly.filter fun e => st.now ≤ e.free || st.now ≤ e.retire }

/-- The bytes of lines of a tile's scratchpad; waits for an empty line, faults on poison (R144, R199, R394). -/
def State.fetch (s : State) (t o n : Nat) : Res (List Byte) :=
  match s.emptyLine t o n with
  | some l => .wait 4 l s
  | none =>
    if s.poisoned (Loc.spad t o).key n && n != 0 then .flt (poisonFlt 2 (BitVec.ofNat 64 (0xFF000000000000 + o))) s
    else .ok (s.peek (.spad t o) n) s

/-- The lines of a tile's scratchpad that `n` bytes at an offset touch. -/
def linesAt (o n : Nat) : List Nat := if n = 0 then [] else upFrom (o / 128) ((o + n - 1) / 128 - o / 128 + 1)

/-- A scratchpad line of these that a copy earlier in the stream of the slot's strand has still to fill (R159). -/
def State.toFill (s : State) (k seq : Nat) (l : List Nat) : Option Nat :=
  match s.strand k with
  | none => none
  | some st => l.find? fun n => s.copyAhead k st seq [n]

/-- The bytes of lines of a tile's scratchpad as a word of the strand in slot `k` reads them: a copy ahead of it fills them first (R144,
R159). -/
def State.fetchFor (s : State) (k seq o n : Nat) : Res (List Byte) :=
  match s.toFill k seq (linesAt o n) with
  | some l => .wait 4 l s
  | none => s.fetch (slotTile k) o n

/-- The bytes of an accumulator row. -/
def State.accRow (s : State) (t r : Nat) : List Byte := s.peek (accLoc t r 0) 2048

/-- A row's lane. -/
def laneAt (b : List Byte) (i : Nat) : Lane := BitVec.ofNat 32 (natAt b (4 * i) 4)

/-- Poison in the operands of an operation, seen at its start: no lane is then written (R394). A line that is still to be filled holds no
operand yet. -/
def State.opPoison (s : State) (k seq : Nat) (o : MOp) (p : Nat) : Option Flt :=
  let t := slotTile k
  let sp := fun (line n : Nat) =>
    if n != 0 && (upFrom line n).any fun l => s.poisoned (Loc.spad t (128 * l)).key 128 && s.full t l && (s.toFill k seq [l]).isNone
    then some (poisonFlt 2 (BitVec.ofNat 64 (0xFF000000000000 + 128 * line))) else none
  let ac := fun (row m : Nat) => if m != 0 && s.poisoned (accLoc t row 0).key (2048 * m)
    then some (poisonFlt 2 (BitVec.ofNat 64 (0xFF000100000000 + 2048 * row))) else none
  match o with
  | .ldw fw line =>
    firstFlt [sp line (fwN fw * rowStride (fwB fw) (fwK fw)), sp (fwBS fw) (scaleLines (fwB fw) (fwK fw) (fwN fw))]
  | .mul fw line row0 m _ =>
    firstFlt ((if 0 < p then [] else
      [sp line (m * rowStride (fwA fw) (fwRed fw)), sp (fwAS fw) (scaleLines (fwA fw) (fwRed fw) m)]) ++
      [if fwAcc fw = 1 then none else ac row0 m])
  | .st row0 m _ _ _ _ _ _ _ _ => ac row0 m
  | .upd row0 m lq _ master _ _ _ _ => firstFlt [sp master (m * 4 * lq), ac row0 m]
  | _ => none

/-- A lane converted for read-out into a format that is no block format (R209). -/
def outLane (out : Nat) (isInt nosat : Bool) (mode : Nat) (x : Lane) : List Byte :=
  if out = 13 then leBytes 4 x.toNat
  else if out < 2 then leBytes 2 (narrow (fmtOf out) mode false (f32 x))
  else if out < 4 then leBytes 1 (narrow (fmtOf out) mode (!nosat) (f32 x))
  else
    let i := if isInt then clampI (-128) 127 x.toInt else toInt mode (-128) 127 0 (f32 x)
    leBytes 1 (i % 256).toNat

/-- Lanes converted for read-out: data and MX scale bytes (R209). -/
def outRow (out : Nat) (isInt nosat : Bool) (mode : Nat) (x : List Lane) : List Byte × List Byte :=
  if 4 ≤ out ∧ out ≤ 11 then
    let qs := quantise out mode (x.map f32)
    (quantBytes out qs, if out < 9 then qs.map fun q => BitVec.ofNat 8 q.scale else [])
  else (x.flatMap (outLane out isInt nosat mode), [])

/-- Write a converted row and its scale bytes to a tile's scratchpad, leaving full bits alone (R209). -/
def State.putRow (s : State) (t : Nat) (dst scl out lq j : Nat) (r : List Byte × List Byte) : State :=
  (s.poke (.spad t (128 * (dst + j * outStride out lq))) r.1).poke (.spad t (128 * scl + j * outScales out lq)) r.2

/-- UUPD of one lane (R239). -/
def updLane (w lr g : Lane) : Lane := toF32 0 (Ext.add false (f32 w) (Ext.mul (f32 lr) (f32 g)).neg)

/-- Rows of a stream that have entered (R211). -/
def MCmd.entered (c : MCmd) : Nat := c.row + c.pipe.length

/-- The started chained stream of the east neighbour that receives a tile's rows (R206): the first that has not got all of its own. Rows for one
that has faulted are dropped. -/
def State.eastOf (s : State) (t : Nat) (c : MCmd) : Option (Nat × MCmd) :=
  if c.len ≤ c.pos + 1 then none
  else (s.resident (t + 1)).findSome? fun e => (e.2.mq.find? fun x =>
    x.start.isSome && x.pos == c.pos + 1 && x.len == c.len && !x.bad &&
      (match x.op with | .mul _ _ _ m ch => ch && decide (x.entered + x.hop.length < m) | _ => false)).map fun x => (e.1, x)

/-- Replace a command of a strand, found by its word's number and start. -/
def Strand.putCmd (st : Strand) (c : MCmd) : Strand :=
  let f := fun x : MCmd => if x.w.seq == c.w.seq && x.start == c.start && x.op == c.op then c else x
  { st with mq := st.mq.map f, mops := st.mops.map f }

/-- One more row (or line of 8) of a started command; of a stream, a row enters (R199, R202, R208, R209, R239); the command after it. -/
def State.rowStep (s : State) (k : Nat) (c : MCmd) : Res MCmd :=
  let t := slotTile k
  match c.op with
  | .ldw fw line =>
    let f := fwB fw
    let data := fwN fw * rowStride f (fwK fw)
    let n := data + scaleLines f (fwK fw) (fwN fw)
    let at_ := fun i : Nat => if i < data then line + i else fwBS fw + (i - data)
    if n ≤ c.row then
      let rb := 128 * rowStride f (fwK fw)
      let cols := (upFrom 0 (fwN fw)).map fun j => (c.buf.drop (j * rb)).take rb
      .ok { c with done := true, buf := [] } (s.onTile t fun x =>
        { x with shadow := some { fw := fw, line := line, cols := cols, scales := c.buf.drop (fwN fw * rb) } })
    else
      (s.fetchFor k c.w.seq (128 * at_ c.row) 128).bind fun b s => .ok { c with row := c.row + 1, buf := c.buf ++ b } s
  | .mul fw line _ m ch =>
    if m ≤ c.row then .ok { c with done := true } s
    else
      let l := fwRed fw
      let f := fwA fw
      let j := c.entered
      let src : Res ((List Byte × List Byte) × MCmd) :=
        if ch && 0 < c.pos then
          match c.hop with
          | [] => .wait 7 0 s
          | h :: r => .ok (h, { c with hop := r }) s
        else
          (s.fetchFor k c.w.seq (128 * (line + j * rowStride f l)) (rowBytes f l)).bind fun d s =>
          (s.fetchFor k c.w.seq (128 * fwAS fw + j * rowScales f l) (rowScales f l)).bind fun e s => .ok ((d, e), c) s
      src.bind fun (h, c) s =>
        match s.eastOf t c with
        | some (k2, e) =>
          if 16 ≤ e.hop.length then .wait 7 0 s
          else .ok { c with pipe := c.pipe ++ [h] } (s.onStrand k2 fun x => x.putCmd { e with hop := e.hop ++ [h] })
        | none => .ok { c with pipe := c.pipe ++ [h] } s
  | .clr row0 m =>
    if m ≤ c.row then .ok { c with done := true } s
    else .ok { c with row := c.row + 1 } (s.poke (accLoc t (row0 + c.row) 0) (List.replicate 2048 0))
  | .st row0 m lq out isInt nosat dst wn scl mode =>
    match wn with
    | none =>
      if m ≤ c.row then .ok { c with done := true } s
      else if s.poisoned (accLoc t (row0 + c.row) 0).key (512 * lq) then .flt (poisonFlt 2 0) s
      else
        let b := s.accRow t (row0 + c.row)
        let r := outRow out isInt nosat mode ((upFrom 0 (128 * lq)).map (laneAt b))
        .ok { c with row := c.row + 1 } (s.putRow t dst scl out lq c.row r)
    | some w =>
      if m * lq ≤ c.row then .ok { c with done := true } s
      else match s.strand k with
        | none => .ok c s
        | some st =>
          if 16 ≤ st.wLoad w then .wait 2 (88 + w) s
          else
            let b := s.accRow t (row0 + c.row / lq)
            let r := outRow out isInt nosat mode ((upFrom (128 * (c.row % lq)) 128).map (laneAt b))
            let v : Vec := BitVec.ofNat 4096 (leNat (if r.2.isEmpty then r.1 else padTo 508 r.1 ++ r.2))
            .ok { c with row := c.row + 1 } (s.setStrand k (st.land1 (.w w v)))
  | .upd row0 m lq out master copy scl lr mode =>
    if m ≤ c.row then .ok { c with done := true } s
    else
      let o := 128 * (master + c.row * 4 * lq)
      (s.fetchFor k c.w.seq o (512 * lq)).bind fun b s =>
        let g := s.accRow t (row0 + c.row)
        let w := (upFrom 0 (128 * lq)).map fun i => updLane (laneAt b i) lr (laneAt g i)
        let s := (s.poke (.spad t o) (w.flatMap fun x => leBytes 4 x.toNat)).poke (accLoc t (row0 + c.row) 0)
          (List.replicate (512 * lq) 0)
        .ok { c with row := c.row + 1 } (if out = 13 then s else s.putRow t copy scl out lq c.row (outRow out false false mode w))
  | _ => .ok { c with done := true } s

/-- One segment of the oldest row that has entered a started stream: its lanes are read and written (R188, R202, R203); the command
after it. -/
def State.segStep (s : State) (k : Nat) (c : MCmd) : Res MCmd :=
  match c.op, c.pipe with
  | .mul fw _ row0 _ _, h :: rest =>
    match c.plane.or (s.tile (slotTile k)).active with
    | none => .flt { cls := 3, code := 9, info := fw } s
    | some p =>
      let t := slotTile k
      let r := accLoc t (row0 + c.row) 0
      let v := mulSeg fw p (opRow (fwA fw) (fwRed fw) h.1 h.2) c.seg (laneAt (s.accRow t (row0 + c.row)))
      .ok (if c.seg + 1 < fwSegs fw then { c with seg := c.seg + 1 } else { c with row := c.row + 1, seg := 0, pipe := rest })
        (s.poke r (v.flatMap fun x => leBytes 4 x.toNat))
  | _, _ => .ok c s

/-- The vc at which the next row of a started command is due, or enters where it is a stream (R204, R206, R211, R241). -/
def MCmd.rowDue (c : MCmd) : Nat :=
  let s := c.start.getD 0
  match c.op with
  | .ldw fw _ =>
    let n := fwN fw * rowStride (fwB fw) (fwK fw) + scaleLines (fwB fw) (fwK fw) (fwN fw)
    s + (min c.row (n - 1)) / 8
  | .mul fw _ _ m _ => s + c.pos + 2 * min c.entered (m - 1) / rateOf fw c.rate
  | .clr _ m => s + min c.row (m - 1) / 8
  | .st _ m lq _ _ _ _ wn _ _ =>
    let q := if wn.isSome then min c.row (m * lq - 1) else min c.row (m - 1) * lq + lq - 1
    s + q / 4
  | .upd _ m lq _ _ _ _ _ _ => s + (min c.row (m - 1) * lq + lq - 1) / 2
  | _ => s

/-- A command that has started and has rows to do, its next row due. A stream whose rows have all entered waits for its segments. -/
def MCmd.owes (c : MCmd) (now : Nat) (rush : Bool) : Bool :=
  c.start.isSome && !c.done && !c.bad && (rush || c.rowDue ≤ now) && match c.op with
    | .mul _ _ _ m _ => c.pipe.isEmpty || c.entered < m
    | _ => true

/-- A matrix word counts toward the lease (R196). -/
def countsLease (i : Instr) : Bool :=
  match i with
  | .mlease _ => false
  | .mrel _ => false
  | .mdrain _ => false
  | _ => true

/-- A command that faults in the queue gives back the format word that it popped, and its count of the lease while its run has not
been ended by mrel or another mlease (R374, R386; DEDUCED, log 101). Of a micro-operation it is the macro's word. -/
def Strand.refund (st : Strand) (seq : Nat) : Strand :=
  match st.mq.find? fun x => x.w.seq == seq with
  | none => st
  | some c =>
    let rel := st.mq.any fun x => x.run == c.run && c.w.seq < x.w.seq && match x.w.ins with | .mrel _ => true | _ => false
    let lent := countsLease c.w.ins && c.run == st.run && !rel
    if c.back.isSome then st
    else
      { st with
        mq := st.mq.map fun x => if x.w.seq == seq then { x with back := some lent } else x
        fmt := if popsFmt c.w.ins then c.fmt :: st.fmt else st.fmt
        held := st.held || lent
        remain := if lent then st.remain + 1 else st.remain }

/-- The fault of a command in the queue (R374, R384, R394). -/
def State.cmdFlt (s : State) (k : Nat) (c : MCmd) (f : Flt) : State :=
  (s.onStrand k fun st => (st.putCmd { c with bad := true }).refund c.w.seq).takeFault k f c.w.pc 3 3

/-- Two streams write a row in common. -/
def MCmd.shares (c x : MCmd) : Bool :=
  match c.op, x.op with
  | .mul _ _ a m _, .mul _ _ b n _ => a < b + n && b < a + m
  | _, _ => false

/-- The streams with a row that has entered, the next segment of which may be done: no stream that started earlier still has to
update a lane of it (R211). -/
def Strand.segMay (st : Strand) : List MCmd :=
  let l := (st.mq ++ st.mops).filter MCmd.streams
  l.filter fun c => !c.pipe.isEmpty && !(l.any fun x => x.shares c && x.start.getD 0 < c.start.getD 0)

/-- The command of a list that started first. -/
def earliest : List MCmd → Option MCmd
  | [] => none
  | c :: l => match earliest l with
    | some x => if x.start.getD 0 < c.start.getD 0 then some x else some c
    | none => some c

/-- A stream of the strand must have its segments done: it retires at this vc, or runs on in a stopped strand. -/
def Strand.segDue (st : Strand) (rush : Bool) : Bool :=
  (st.mq ++ st.mops).any fun c => c.streams && !c.pipe.isEmpty && if rush then st.mops.contains c || st.runsOn c else c.retire ≤ st.now

/-- What the strand's started commands have to do next: a row that is due, else a segment that is. -/
def State.workNext (s : State) (k : Nat) (st : Strand) (rush : Bool) : Option (MCmd × Res MCmd) :=
  let hot := fun c : MCmd => c.owes st.now rush
  match if rush then earliest ((st.mq.filter fun c => hot c && st.runsOn c) ++ st.mops.filter hot) else (st.mops.find? hot).or (st.mq.find? hot) with
  | some c => some (c, s.rowStep k c)
  | none => if st.segDue rush then (earliest st.segMay).map fun c => (c, s.segStep k c) else none

/-- Rows and segments of the strand's started commands, in order, until none is due; the fuel bounds their number. `some` fault or
wait where one cannot go on. With `rush` a stopped strand's macro and chained stream run on (R242, R384). -/
def State.rows (s : State) (k : Nat) (rush : Bool) : Nat → State × Option (Nat × Nat)
  | 0 => (s, none)
  | n + 1 =>
    match s.strand k with
    | none => (s, none)
    | some st =>
      match s.workNext k st rush with
      | none => (s, none)
      | some (_, .ok c' s) => (s.onStrand k fun st => st.putCmd c').rows k rush n
      | some (_, .wait w o s) => (s, some (w, o))
      | some (c, .flt f s) => (s.cmdFlt k c f, none)

/-- A segment of a row that has entered is done at some time before its command retires (R188, R211). -/
def State.segment (s : State) (k : Nat) : State :=
  match s.strand k with
  | none => s
  | some st =>
    if st.stop.isSome || st.want then s
    else
      let l := st.segMay
      let (j, s) := s.pick l.length
      match l[j]? with
      | none => s
      | some c => match s.segStep k c with
        | .ok c' s => s.onStrand k fun st => st.putCmd c'
        | .wait _ _ s => s
        | .flt f s => s.cmdFlt k c f

/-- A fuel that covers the rows and segments of any commands that a strand has started. -/
def rowFuel : Nat := 65536

/-- The first command of the queue that has not started, where all before it allow it to start at the strand's vc (R211, R198,
R241); not the word of a suspension point before its test is passed (R24). -/
def Strand.nextCmd (st : Strand) : Option MCmd :=
  match st.mq.find? (·.start.isNone) with
  | none => none
  | some c =>
    let early := st.mq.takeWhile (·.start.isSome)
    let isMac := fun x : MCmd => match x.op with | .mac _ _ _ => true | _ => false
    let isLoad := fun x : MCmd => match x.op with | .load _ _ _ => true | _ => false
    let ok := st.mac.isNone && !(st.took.isSome && st.susp.map (·.seq) == some c.w.seq) && st.least ≤ st.now &&
      c.issued + 1 ≤ st.now && st.bound c.op c.run 0 ≤ st.now &&
      early.all (fun x => x.run == c.run) && early.all (fun x => match x.uend with | some e => e + 1 ≤ st.now | none => !isMac x) &&
      (match c.op with
        | .swap => early.all fun x => match x.op with | .ldw _ _ => false | _ => true
        | .mac _ _ _ => !(early.any isLoad)
        | .load _ _ _ => !(early.any isMac)
        | _ => true)
    if ok && st.stop.isNone && !st.want then some c else none

/-- A command waits for the others of its chain (R205, R206). -/
def MOp.meets (o : MOp) : Bool :=
  match o with
  | .chain _ l => l != 1
  | .mul _ _ _ _ ch => ch
  | _ => false

/-- The initial registers of a macro (R236, R240). -/
def macOf (entry : Nat) (ws : List Word) (mode now : Nat) : Mac :=
  let h := fun (w : Nat) (i : Nat) => (ws.getD w 0).extractLsb' (16 * i) 16
  { addr := entry
    b := (upFrom 0 8).foldl (fun c i => Cells.set c i (h (i / 4) (i % 4))) []
    c := (upFrom 0 4).foldl (fun c i => Cells.set c i (h 2 i)) []
    f := (upFrom 0 4).foldl (fun c i => Cells.set c i (ws.getD (3 + i) 0)) []
    w7 := ws.getD 7 0, last := now, retire := now, mode := mode }

/-- The plane that a stream uses: the active one at its start (R200). -/
def MOp.planeIn (o : MOp) (t : Tile) : Option Plane :=
  match o with
  | .mul _ _ _ _ _ => t.active
  | _ => none

/-- A command starts at a vc (R211): the planes change, a microcode load is written, a macro begins; unit and rows are
taken. A stream keeps the plane that is active now (R200) and the rate of its chain. -/
def State.startCmd (s : State) (k : Nat) (c : MCmd) (pos len : Nat) (rate : Nat := 0) : State :=
  match s.strand k with
  | none => s
  | some st =>
    let t := slotTile k
    match if st.bad.contains 299 then some regErrFlt else s.opPoison k c.w.seq c.op pos with
    | some f => s.cmdFlt k c f
    | none =>
      let now := st.now
      let (oc, r) := c.op.cost pos rate
      let early := st.mq.takeWhile (·.start.isSome)
      let retire := match c.op with
        | .drain => early.foldl (fun m x => max m x.retire) now
        | _ => now + oc + r
      let rows := (c.op.flight now c.run pos rate).isSome
      let c' := { c with
        start := some now, retire := retire, pos := pos, len := len, rate := rate, plane := c.op.planeIn (s.tile t), done := !rows || (match c.op with | .load _ _ _ => true | _ => false) }
      let st := { st with
        mq := st.mq.map fun x : MCmd => if x.start.isNone && x.w.seq == c.w.seq then c' else x
        fly := st.fly ++ (c.op.flight now c.run pos rate).toList
        mac := match c.op with | .mac e ws m => some (macOf e ws m now) | _ => st.mac }
      let s := (s.setStrand k st.pruned).stall k 9 0 0
      match c.op with
      | .swap => s.onTile t fun x => { x with active := x.shadow, shadow := x.active }
      | .load a _ ws => s.onTile t fun x =>
          { x with micro := (List.zip (upFrom a ws.length) ws).foldl (fun m e => Tab.put m e.1 e.2) x.micro }
      | .chain p l => s.onTile t fun x => { x with chain := if l = 1 then none else some { pos := p, len := l } }
      | _ => s

/-- MATRIX_COMMAND_START (R211): the first command that has not started starts where its bounds are met; a chained one
outside a chain faults, one inside waits for its rendezvous. -/
def execMatrixCommandStart (k : Nat) (s : State) : Host.Outcome State Fault Refusal :=
  if 768 ≤ k then .fault .noSuchUnit
  else match s.strand k with
    | none => .next s
    | some st =>
      match st.nextCmd with
      | none => .next s
      | some c =>
        if c.op.meets then
          match c.op, (s.tile (slotTile k)).chain with
          | .mul _ _ _ _ _, none => .next (s.cmdFlt k c (chainFlt 0 1))
          | _, _ => .next (s.stall k 9 7 0)
        else .next (s.startCmd k c 0 1)

/-- A command has retired: its rows are done, a macro's micro-operations too, and the clock has come to its vc; before an mdrain every earlier
command has (R210). -/
def Strand.retires (st : Strand) (c : MCmd) : Bool :=
  c.start.isSome && c.retire ≤ st.now &&
    match c.op with
    | .mac _ _ _ => c.uend.isSome && st.mops.isEmpty
    | .drain => c.done && (st.mq.head?.map (·.w.seq)) == some c.w.seq
    | _ => c.done

/-- MATRIX_COMMAND_RETIRE (R211): a command that has come to its retirement leaves, and pushes its token (R86). -/
def execMatrixCommandRetire (k : Nat) (s : State) : Host.Outcome State Fault Refusal :=
  if 768 ≤ k then .fault .noSuchUnit
  else .next (s.onStrand k fun st =>
    let st := { st with mops := st.mops.filter fun c => !(c.done && c.retire ≤ st.now) }
    match st.mq.find? st.retires with
    | none => st
    | some c =>
      let h := insHdr c.w.ins
      let st := { st with mq := st.mq.filter fun x => x.w.seq != c.w.seq }
      if h.push = 0 then st else st.land1 (.tok 3 (tokEng h.push)))

/-- A command is an mchain. -/
def MOp.isChain (o : MOp) : Bool :=
  match o with
  | .chain _ _ => true
  | _ => false

/-- The commands of a tile that stand ready for a rendezvous: slot, launch and command. -/
def State.chainHeads (s : State) (t : Nat) : List (Nat × Nat × MCmd) :=
  (s.resident t).filterMap fun e => match e.2.nextCmd with
    | some c => if c.op.meets then some (e.1, e.2.id.launch, c) else none
    | none => none

/-- The command of a tile that stands ready for a rendezvous. -/
def State.chainHead (s : State) (t : Nat) : Option (Nat × Nat × MCmd) := (s.chainHeads t).head?

/-- The command of a tile that stands ready for a rendezvous of a kind: an mchain waits for mchains (R205), a chained stream for
chained streams (R206). -/
def State.chainKind (s : State) (chain : Bool) (t : Nat) : Option (Nat × Nat × MCmd) :=
  (s.chainHeads t).find? fun e => e.2.2.op.isChain == chain

/-- What the members of a rendezvous must agree on (R206). -/
def MCmd.agree (c : MCmd) : Nat × Bool × Nat × Nat :=
  match c.op with
  | .mul fw _ _ m _ => (fwA fw, fwOuter fw, m, fwRed fw)
  | _ => (0, false, 0, 0)

/-- The fault of every member of a rendezvous (R205, R206). -/
def State.chainFlts (s : State) (pos len : Nat) : List (Nat × Nat × MCmd) → State
  | [] => s
  | (k, _, c) :: l =>
    let (p, n) := match c.op with
      | .chain p n => (p, n)
      | _ => (pos, len)
    (s.cmdFlt k c (chainFlt p n)).chainFlts (pos + 1) len l

/-- The start of every member of a rendezvous, streams at the rate of their chain (R206). -/
def State.startAll (s : State) (pos len rate : Nat) : List (Nat × Nat × MCmd) → State
  | [] => s
  | (k, _, c) :: l =>
    (match c.op with
      | .mul _ _ _ _ _ => s.startCmd k c pos len rate
      | _ => s.startCmd k c 0 len).startAll (pos + 1) len rate l

/-- The rate of a chain: the lowest of its members' (R206). -/
def chainRate (ms : List (Nat × Nat × MCmd)) : Nat :=
  ms.foldl (fun r e => match e.2.2.op with
    | .mul fw _ _ _ _ => min r (fwRate fw)
    | _ => r) 8

/-- The run of a command has not ended (R196). -/
def State.runs (s : State) (k : Nat) (c : MCmd) : Bool :=
  match s.strand k with
  | some st => st.held && st.run == c.run
  | none => false

/-- CHAIN_RENDEZVOUS (R205, R206): once every member of tile `t`'s chain has its mchain, or its chained stream, at the
head of its queue, all start together; where they disagree every one faults. A member with a command of the other kind there is
waited for. A chain of which some member's run has ended already is over as it begins, and in no chain a chained stream faults. -/
def execChainRendezvous (t : Nat) (s : State) : Host.Outcome State Fault Refusal :=
  if 96 ≤ t then .fault .noSuchUnit
  else match s.chainHead t with
    | none => .next s
    | some (k, no, c) =>
      match c.op, (s.tile t).chain with
      | .chain pos len, _ =>
        let ms := (upFrom (t - pos) len).map (s.chainKind true)
        if ms.any (·.isNone) then .next s
        else
          let ms := ms.filterMap id
          let ok := (List.zip (upFrom 0 len) ms).all fun e => e.2.2.1 == no && e.2.2.2.op == .chain e.1 len
          if !ok then .next (s.chainFlts 0 len ms)
          else
            let on := ms.all fun e => s.runs e.1 e.2.2
            let s := s.startAll 0 len (chainRate ms) ms
            .next (if on then s else s.endChain t)
      | _, none => .next (s.cmdFlt k c (chainFlt 0 1))
      | _, some x =>
        let ms := (upFrom (t - x.pos) x.len).map (s.chainKind false)
        if ms.any (·.isNone) then .next s
        else
          let ms := ms.filterMap id
          .next (if ms.all fun e => e.2.2.agree == c.agree then s.startAll 0 x.len (chainRate ms) ms else s.chainFlts 0 x.len ms)

/-- The lease-loss fault (R196, R381). -/
def leaseFlt (st : Strand) : Flt := { cls := 3, code := 6, info := st.lease }

/-- A matrix word (R192, R194, R196, R374): the lease, the format word, the operation with its checks; then it enters
the queue, counts toward the lease, and ends the run where the lease is used up; a suspension point ends it in any case, once its
test is passed (R24, R196). -/
def execMat (i : Instr) (s : State) (needs pops : Bool) (mk : Strand → QWord → Word → State → Res MCmd)
    (planes : MCmd → Option PMeta × Option PMeta → Option PMeta × Option PMeta := fun c p => c.op.planes p.1 p.2)
    (post : State → State := id) : Host.Outcome State Fault Refusal :=
  let k := s.cur
  .next (execSide i s (fun st w s =>
    if 64 ≤ st.mq.length then .wait 12 0 s
    else if needs && (!st.held || st.remain == 0) then .flt (leaseFlt st) s
    else if pops && st.fmt.isEmpty then .flt { cls := 3, code := 4 } s
    else
      let fw := st.fmt.headD 0
      let p := s.planesOf k st
      (mk st w fw s).bind fun c s =>
        match c.op.check p.1 (s.chainOf k st) with
        | some f => .flt f s
        | none =>
          let q := planes c p
          let c := { c with
            w := w
            fmt := if pops then fw else 0
            run := st.run
            issued := st.now
            act := q.1
            shd := q.2 }
          .ok ([], fun x =>
            { x with
              mq := x.mq ++ [c]
              fmt := if pops then x.fmt.drop 1 else x.fmt
              remain := if needs then x.remain - 1 else x.remain }) s)
    fun st _ s => if suspends i then s else post (if needs && st.remain == 1 then s.endRun k else s))

/-- MLEASE (R197, R198): ends the strand's run, then issues only when the array has been granted to its slot. -/
def execMlease (a : IForm) (s : State) : Host.Outcome State Fault Refusal :=
  let k := s.cur
  .next (execSide (.mlease a) s fun st _ s =>
    if 64 ≤ st.mq.length then .wait 12 0 s
    else if (s.tile (slotTile k)).lessee = some k ∧ !st.held then
      let h := insHdr (.mlease a)
      .ok (if h.push = 0 then [] else [.tok 3 (tokEng h.push)],
        fun x => { x with held := true, remain := a.i 0 7, run := x.run + 1 }) s
    else .wait 6 0 (if st.held then s.endRun k else s))

/-- MREL (R197): the run ends as it issues. -/
def execMrel (a : RForm) (s : State) : Host.Outcome State Fault Refusal :=
  execMat (.mrel a) s false false (fun _ _ _ s => .ok { w := noWord, op := .other } s) (post := fun t => t.endRun s.cur)

/-- MLDW (R199). -/
def execMldw (a : RForm) (s : State) : Host.Outcome State Fault Refusal :=
  execMat (.mldw a) s true true fun st _ fw s =>
    let x := st.xr a.fa.toNat
    .ok { w := noWord, a := x, op := .ldw fw x.toNat } s

/-- MSWAP (R200). -/
def execMswap (a : RForm) (s : State) : Host.Outcome State Fault Refusal :=
  execMat (.mswap a) s true false fun _ _ _ s => .ok { w := noWord, op := .swap } s

/-- MMUL (R201, R202): M from the word, or from xm where MV is 1. -/
def execMmul (a : RForm) (s : State) : Host.Outcome State Fault Refusal :=
  execMat (.mmul a) s true true fun st _ fw s =>
    let d := st.xr a.fd.toNat
    let m := if a.m 10 1 = 1 then d.toNat else a.m 0 10
    let x := st.xr a.fa.toNat
    let r := st.xr a.fb.toNat
    .ok { w := noWord, d := d, a := x, b := r, op := .mul fw x.toNat r.toNat m (fwChain fw) } s

/-- MCHAIN (R205): the members' columns must lie within the cluster. -/
def execMchain (a : RForm) (s : State) : Host.Outcome State Fault Refusal :=
  execMat (.mchain a) s true false fun _ _ _ s =>
    let p := a.m 0 3
    let l := a.m 3 3 + 1
    let c := slotTile s.cur % 6
    if c < p ∨ 6 < c - p + l then .flt (chainFlt p l) s
    else .ok { w := noWord, op := .chain p l } s

/-- MRND (R207): for every read-out behind it in the queue. -/
def execMrnd (a : IForm) (s : State) : Host.Outcome State Fault Refusal :=
  execMat (.mrnd a) s true false (fun _ _ _ s => .ok { w := noWord, op := .other } s)
    (post := fun t => t.onStrand s.cur fun x => { x with rmode := a.i 0 3 })

/-- MCLR (R208). -/
def execMclr (a : RForm) (s : State) : Host.Outcome State Fault Refusal :=
  execMat (.mclr a) s true false fun st _ _ s =>
    let x := st.xr a.fa.toNat
    .ok { w := noWord, a := x, op := .clr x.toNat (a.m 0 10) } s

/-- MACC_ST (R209). -/
def execMaccSt (a : RForm) (s : State) : Host.Outcome State Fault Refusal :=
  execMat (.maccSt a) s true false fun st _ _ s =>
    let x := st.xr a.fa.toNat
    let n := a.fd.toNat
    let wn := if n ≤ 63 then none else some (n - 88)
    let d := if n ≤ 63 then st.xr n else 0
    let lq := a.m 6 2 + 1
    let o : MOp := .st (bits x 0 10) (bits x 16 10) lq (a.m 0 4) (a.m 4 1 == 1) (a.m 5 1 == 1) d.toNat wn (bits x 32 16) st.rmode
    let pre := if wn.isSome then none else rangeFlt d.toNat (bits x 16 10 * outStride (a.m 0 4) lq)
    match pre with
    | some f => .flt f s
    | none =>
      if only x 0xFFFF03FF03FF then .ok { w := noWord, d := d, a := x, op := o } s
      else .flt { cls := 3, code := 0x13, info := x } s

/-- MDRAIN (R210). -/
def execMdrain (a : RForm) (s : State) : Host.Outcome State Fault Refusal :=
  execMat (.mdrain a) s false false fun _ _ _ s => .ok { w := noWord, op := .drain } s

/-- A slot waits for the array (R198, R381): its next matrix word is an mlease that could issue but for the grant, or its
strand was resumed with matrix work. -/
def Strand.waitsArray (st : Strand) : Bool :=
  st.want || match st.queue 3 with
    | w :: _ => match w.ins with
      | .mlease _ => !st.held && decide (st.readyBare w.ins w = .ok)
      | _ => false
    | [] => false

/-- A command of a run: mdrain and mrel need no lease and belong to none (R196, R198). -/
def MCmd.ofRun (c : MCmd) : Bool :=
  match c.w.ins with
  | .mdrain _ => false
  | .mrel _ => false
  | _ => true

/-- The slot that the array of a tile is granted to (R198); none where it is not free or nobody waits. -/
def State.grantee (s : State) (t : Nat) : Option Nat :=
  let rs := s.resident t
  let busy := rs.filter fun e => !e.2.want && e.2.mq.any MCmd.ofRun
  let held := (s.tile t).lessee.isSome || rs.any fun e => e.2.held && !e.2.want
  let ws := rs.filter fun e => e.2.waitsArray
  if held then none
  else
    let effs := s.effs t
    let last := (s.tile t).lastG
    let best := fun l : List (Nat × Strand) => l.foldl (fun (b : Option (Nat × Nat)) e =>
      let key := (Tab.getD effs e.1 3) * 8 + (e.1 % 8 + 7 - last) % 8
      match b with
      | none => some (key, e.1)
      | some (x, _) => if key < x then some (key, e.1) else b) none
    match busy with
    | [] => (best ws).map (·.2)
    | _ => match ws.find? fun e => busy.all fun b => b.1 == e.1 with
      | some e => some e.1
      | none => none

/-- A weight plane read whole, as a resumed strand reloads it (R389). -/
def State.readPlane (s : State) (t : Nat) (r : Option (Word × Nat)) : Res (Option Plane) :=
  match r with
  | none => .ok none s
  | some (fw, line) =>
    let f := fwB fw
    let rb := 128 * rowStride f (fwK fw)
    let sn := 128 * scaleLines f (fwK fw) (fwN fw)
    (s.fetch t (128 * line) (fwN fw * rb)).bind fun d s =>
    (s.fetch t (128 * fwBS fw) sn).bind fun sc s =>
      .ok (some { fw := fw, line := line, cols := (upFrom 0 (fwN fw)).map fun j => (d.drop (j * rb)).take rb, scales := sc }) s

/-- The streams of a resumed strand that had started go on with their plane as it was read again (R389). -/
def Strand.replaned (st : Strand) (a b : Option Plane) : Strand :=
  let again := fun p : Plane => ((a.toList ++ b.toList).find? fun q => q.fw == p.fw && q.line == p.line).getD p
  { st with mq := st.mq.map fun c : MCmd => { c with plane := c.plane.map again } }

/-- ARRAY_GRANT (R198, R235, R381, R389): the free array is granted to one waiting slot; a strand of another launch finds
the planes empty and the program region invalid; a resumed strand's planes are reloaded. -/
def execArrayGrant (t : Nat) (s : State) : Host.Outcome State Fault Refusal :=
  if 96 ≤ t then .fault .noSuchUnit
  else match s.grantee t with
    | none => .next s
    | some k =>
      match s.strand k with
      | none => .next s
      | some st =>
        let other := (s.tile t).owner ≠ some st.id.launch
        let s1 := s.onTile t fun x =>
          { x with
            lastG := k % 8
            owner := some st.id.launch
            active := if other then none else x.active
            shadow := if other then none else x.shadow
            micro := if other then x.micro.filter fun e => e.1 < 0x100 else x.micro }
        if !st.want then .next (s1.onTile t fun x => { x with lessee := some k })
        else
          match (s1.readPlane t st.reA).bind fun a s => (s.readPlane t st.reS).bind fun b s => .ok (a, b) s with
          | .wait c o _ => .next (s.stall k 9 c o)
          | .flt f s2 => .next ((s2.onStrand k fun x => { x with want := false }).takeFault k f st.pc 3 3)
          | .ok (a, b) s2 =>
            .next (((s2.setStrand k { (st.replaned a b) with want := false, reA := none, reS := none }).stall k 9 0 0).onTile t fun x =>
              { x with lessee := if st.held then some k else none, active := a, shadow := b })

end Sys2Proof.Machine
end

