-- ==== Sys2Proof/Machine/Layer.lean ====
section
/-! DEFINITION. Layer macros and the microcode store (R235 to R244): the shipped sequences, the walk that checks a
macro at issue, the micro-operations, and mcload. -/

namespace Sys2Proof.Machine

/-- The shipped region of the microcode store (R244); every other address of it holds UEND. -/
def shipped (a : Nat) : Word :=
  match a with
  | 0x000 => 0x0400000000000000
  | 0x010 => 0x0400000000000000
  | 0x020 => 0x0400000000000000
  | 0x001 => 0x0800000000000000
  | 0x011 => 0x0800000000000000
  | 0x021 => 0x0800000000000000
  | 0x002 => 0x0E000A0480000000
  | 0x012 => 0x0E000A0880000000
  | 0x003 => 0x1600167080000200
  | 0x013 => 0x1600167080000200
  | 0x004 => 0x1C0001A000000000
  | 0x014 => 0x1C0001A000000000
  | 0x024 => 0x1C0001A000000000
  | 0x005 => 0x1C00035000000000
  | 0x015 => 0x1C00035000000000
  | 0x006 => 0x1C0000F000000000
  | 0x016 => 0x1C0000F000000000
  | 0x007 => 0x2800400000000000
  | 0x017 => 0x2802400000000000
  | 0x022 => 0x0E000A0C80000000
  | 0x023 => 0x1C00008000000000
  | 0x025 => 0x2804000000000000
  | 0x030 => 0x1A00F66080000200
  | _ => 0

/-- The micro-operation at an address (R235): `micro` holds the valid addresses of the program region, and the shipped
addresses that an error has made invalid (R396). -/
def microAt (micro : Tab Word) (a : Nat) : Option Instr :=
  if a < 0x100 then (if (Tab.find micro a).isSome then none else decodeUop (shipped a))
  else if 0x1000 ≤ a then none
  else (Tab.find micro a).bind decodeUop

/-- The program region as the microcode loads ahead in a queue leave it (R240). -/
def Strand.microOf (st : Strand) (micro : Tab Word) : Tab Word :=
  st.mq.foldl (fun m c => match c.op with
    | .load a _ ws => if c.start.isNone then (List.zip (upFrom a ws.length) ws).foldl (fun m e => Tab.put m e.1 e.2) m else m
    | _ => m) micro

/-- The size of a micro-operation (R237). -/
def Mac.size (m : Mac) (u : UForm) : Nat := if u.imm.getLsbD 15 then bits m.w7 32 10 else u.imm.toNat % 1024

/-- A base register (R236). -/
def Mac.base (m : Mac) (i : BitVec 3) : Nat := (Cells.get m.b i.toNat).toNat

/-- OUT of a read-out micro-operation (R237). -/
def Mac.out (m : Mac) (u : UForm) : Nat := if u.dsc then bits m.w7 42 4 else u.out.toNat
/-- LQ of a read-out micro-operation (R237). -/
def Mac.lq (m : Mac) (u : UForm) : Nat := (if u.dsc then bits m.w7 46 2 else u.lq.toNat) + 1

/-- The array operation of a micro-operation under the macro's registers (R238, R239). -/
def Mac.opOf (m : Mac) (i : Instr) : Option MOp :=
  match i with
  | .uldw u => some (.ldw (Cells.get m.f u.fsel.toNat) (m.base u.ua))
  | .uswap _ => some .swap
  | .umul u => some (.mul (Cells.get m.f u.fsel.toNat) (m.base u.ua) (m.base u.ub) (m.size u) false)
  | .uclr u => some (.clr (m.base u.ub) (m.size u))
  | .ust u => some (.st (m.base u.ub) (m.size u) (m.lq u) (m.out u) false false (m.base u.ua) none (m.base u.ud) m.mode)
  | .uupd u =>
    some (.upd (m.base u.ub) (m.size u) (m.lq u) (m.out u) (m.base u.ua) (m.base u.ud)
      (m.base (BitVec.ofNat 3 u.tgt.toNat)) (m.w7.extractLsb' 0 32) m.mode)
  | _ => none

/-- BND of a micro-operation (R237). -/
def bndOf (i : Instr) : Bool :=
  match i.uop with
  | some (_, u) => u.bnd
  | none => false

/-- The registers and the next address after a micro-operation, and whether a boundary follows (R238, R242). -/
def Mac.next (m : Mac) (i : Instr) : Mac :=
  let go := { m with addr := m.addr + 1, bound := bndOf i }
  match i with
  | .uldw u => { go with plan := some (m.base u.ua, Cells.get m.f u.fsel.toNat) }
  | .uswap _ => { go with swapped := m.plan.or m.swapped, plan := none }
  | .uadd u => { go with b := Cells.set m.b u.ud.toNat (Cells.get m.b u.ud.toNat + Cells.get m.b u.ub.toNat) }
  | .uaddi u => { go with b := Cells.set m.b u.ud.toNat (Cells.get m.b u.ud.toNat + u.imm) }
  | .ukset u => { go with c := Cells.set m.c u.ksel.toNat u.imm }
  | .uloop u =>
    let n := Cells.get m.c u.ksel.toNat
    if n = 0 then go else { m with c := Cells.set m.c u.ksel.toNat (n - 1), addr := u.tgt.toNat, bound := true }
  | _ => go

/-- The macro, descriptor or microcode fault at a micro-address (R372). -/
def macFlt (a : Nat) : Flt := { cls := 3, code := 0xB, info := BitVec.ofNat 64 a }

/-- A format word with CHAIN set is used (R238); OUT is not admitted (R240). -/
def Mac.bad (m : Mac) (i : Instr) : Option Flt :=
  let ch := fun u : UForm => if fwChain (Cells.get m.f u.fsel.toNat) then some (macFlt m.addr) else none
  let out := fun u : UForm => if 14 ≤ m.out u then some (macFlt (if u.dsc then 0x1000 else m.addr)) else none
  match i with
  | .uldw u => ch u
  | .umul u => ch u
  | .ust u => out u
  | .uupd u => out u
  | _ => none

/-- The walk of a macro's whole sequence at its issue (R240): the first fault, or the planes it leaves. -/
def macWalk (micro : Tab Word) : Nat → Mac → Option PMeta × Option PMeta → Flt ⊕ (Option PMeta × Option PMeta)
  | 0, m, _ => .inl (macFlt m.addr)
  | n + 1, m, p =>
    match microAt micro m.addr with
    | none => .inl (macFlt m.addr)
    | some i =>
      match i with
      | .uend _ => .inr p
      | _ =>
        let o := m.opOf i
        match firstFlt [m.bad i, o.bind fun o => o.check p.1 none] with
        | some f => .inl f
        | none => macWalk micro n (m.next i) (match o with | some o => o.planes p.1 p.2 | none => p)

/-- A layer macro (R240): the lease, the descriptor, the entry and the walk; then it enters the queue. -/
def execMacro (i : Instr) (a : RForm) (entry : Nat) (s : State) : Host.Outcome State Fault Refusal :=
  let k := s.cur
  let walk := fun (s : State) (st : Strand) (e : Nat) (ws : List Word) =>
    macWalk (st.microOf (s.tile (slotTile k)).micro) 65537 (macOf e ws st.rmode 0) (s.planesOf k st)
  execMat i s true false
    (fun st w _ s =>
      let x := st.xr a.fa.toNat
      match rangeFlt x.toNat 1 with
      | some f => .flt f s
      | none =>
        (s.fetchFor k w.seq (128 * x.toNat) 128).bind fun b s =>
          let ws := (upFrom 0 8).map fun j => wordAt b (8 * j)
          let e := match a.ext with
            | some v => v.toNat % 4096
            | none => entry
          if a.ext.isSome ∧ e < 0x100 then .flt (macFlt e) s
          else if bits (ws.getD 7 0) 48 16 ≠ 0 ∨ 768 < bits (ws.getD 7 0) 32 10 then .flt (macFlt 0x1000) s
          else match walk s st e ws with
            | .inl f => .flt f s
            | .inr _ => .ok { w := noWord, a := x, op := .mac e ws st.rmode } s)
    (fun c p => match c.op, s.strand k with
      | .mac e ws _, some st => match walk s st e ws with
        | .inr q => q
        | .inl _ => p
      | _, _ => p)

/-- LFWD (R240). -/
def execLfwd (a : RForm) (s : State) : Host.Outcome State Fault Refusal := execMacro (.lfwd a) a 0x000 s
/-- LDGRAD (R240). -/
def execLdgrad (a : RForm) (s : State) : Host.Outcome State Fault Refusal := execMacro (.ldgrad a) a 0x010 s
/-- LWGRAD (R240). -/
def execLwgrad (a : RForm) (s : State) : Host.Outcome State Fault Refusal := execMacro (.lwgrad a) a 0x020 s
/-- LUPD (R240). -/
def execLupd (a : RForm) (s : State) : Host.Outcome State Fault Refusal := execMacro (.lupd a) a 0x030 s

/-- One bit of the CRC-32 of IEEE 802.3, reflected. -/
def crcBit (c : BitVec 32) : BitVec 32 := if c.getLsbD 0 then (c >>> 1) ^^^ 0xEDB88320 else c >>> 1

/-- One byte of the CRC-32. -/
def crcByte (c : BitVec 32) (b : Byte) : BitVec 32 :=
  crcBit (crcBit (crcBit (crcBit (crcBit (crcBit (crcBit (crcBit (c ^^^ b.zeroExtend 32))))))))

/-- The CRC-32 of IEEE 802.3 of bytes (R243). -/
def crc32 (l : List Byte) : BitVec 32 := ~~~(l.foldl crcByte 0xFFFFFFFF)

/-- The first address of a load whose micro-operation is not admitted (R243). -/
def badMicro (addr : Nat) : List Word → Option Nat
  | [] => none
  | w :: l =>
    match decodeUop w with
    | some (.uloop u) => if u.tgt.toNat < 0x100 then some addr else badMicro (addr + 1) l
    | some _ => badMicro (addr + 1) l
    | none => some addr

/-- MCLOAD (R243). Without an extension word it loads with no CRC check: the spec does not say whether that is admitted (DESIGN
CHOICE, log 56). -/
def execMcload (a : RForm) (s : State) : Host.Outcome State Fault Refusal :=
  let k := s.cur
  execMat (.mcload a) s true false fun st w _ s =>
    let x := st.xr a.fa.toNat
    let n := (st.xr a.fb.toNat).toNat
    let addr := a.m 0 12
    let lines := up n 16
    if 3840 < n ∨ 4096 < addr + n then .flt (macFlt addr) s
    else if 32767 < x.toNat ∨ 32768 < x.toNat + lines then .flt (macFlt addr) s
    else
      (s.fetchFor k w.seq (128 * x.toNat) (8 * n)).bind fun b s =>
        let ws := (upFrom 0 n).map fun j => wordAt b (8 * j)
        match badMicro addr ws with
        | some e => .flt (macFlt e) s
        | none =>
          if (match a.ext with | some e => e.extractLsb' 0 32 != crc32 b | none => false) then .flt (macFlt addr) s
          else .ok { w := noWord, a := x, b := st.xr a.fb.toNat, op := .load addr lines ws } s

/-- The command of the running macro. -/
def Strand.macCmd (st : Strand) : Option MCmd :=
  st.mq.find? fun c => (match c.op with | .mac _ _ _ => true | _ => false) && c.start.isSome && c.uend.isNone

/-- The vc at which a running macro's micro-operation may start (R241). -/
def Strand.uopBound (st : Strand) (m : Mac) (c : MCmd) (i : Instr) : Nat :=
  match m.opOf i with
  | some o => st.bound o c.run m.last
  | none => m.last

/-- A running macro's micro-operation may start: the strand's clock has come to it, or the strand is being stopped and
the macro stands at no boundary, its earlier micro-operations done (R241, R242). -/
def Strand.uopMay (st : Strand) (m : Mac) (c : MCmd) (i : Instr) : Bool :=
  if st.stop.isSome then !m.bound && !c.bad && !(st.mq.any st.runsOn) && st.mops.all fun x => x.done && !x.bad else !st.want && st.uopBound m c i ≤ st.now

/-- The micro-operation at the address that a slot's running macro has come to, where it may start. A macro that is resumed after its
program region has lost its valid bits (R235) finds none, and never goes on (DESIGN CHOICE, log 100). -/
def State.uopDue (s : State) (k : Nat) : Option Instr :=
  match s.strand k with
  | none => none
  | some st =>
    match st.mac, st.macCmd with
    | some m, some c =>
      match microAt (s.tile (slotTile k)).micro m.addr with
      | some i => if st.uopMay m c i then some i else none
      | none => none
    | _, _ => none

/-- The meaning of a micro-operation, shared (R238, R241): the expander starts it at its vc; array work becomes a started
operation, the registers and the address follow, UEND ends the macro. -/
def execUop (i : Instr) (s : State) : Host.Outcome State Fault Refusal :=
  let k := s.cur
  match s.strand k with
  | none => .next s
  | some st =>
    match st.mac, st.macCmd with
    | some m, some c =>
      if !st.uopMay m c i then .next s
      else
        let v := if st.stop.isSome then st.uopBound m c i else max (st.uopBound m c i) st.now
        match i with
        | .uend _ =>
          let r := max m.retire v
          .next ((s.setStrand k { st.putCmd { c with uend := some v, retire := r, done := true } with mac := none, least := v + 1 }).settle k)
        | _ =>
          match m.opOf i with
          | none => .next ((s.setStrand k { st with mac := some { m.next i with last := v + 1, retire := max m.retire v } }).settle k)
          | some o =>
            match s.opPoison k c.w.seq o 0 with
            | some f => .next (s.cmdFlt k c f)
            | none =>
              let (oc, r) := o.cost 0
              let rows := (o.flight v c.run 0).isSome
              let x : MCmd := { w := { ins := i, pc := c.w.pc, seq := c.w.seq }, op := o, run := c.run, start := some v,
                                retire := v + oc + r, done := !rows, issued := m.addr, plane := o.planeIn (s.tile (slotTile k)) }
              let st := { st with
                mops := st.mops ++ [x]
                fly := st.fly ++ (o.flight v c.run 0).toList
                mac := some { m.next i with last := v + 1, retire := max m.retire (v + oc + r) } }
              let s := s.setStrand k st.pruned
              let s := match o with
                | .swap => s.onTile (slotTile k) fun t => { t with active := t.shadow, shadow := t.active }
                | _ => s
              .next (s.settle k)
    | _, _ => .next s

/-- UEND (R238). -/
def execUend (u : UForm) (s : State) : Host.Outcome State Fault Refusal := execUop (.uend u) s
/-- ULDW (R238). -/
def execUldw (u : UForm) (s : State) : Host.Outcome State Fault Refusal := execUop (.uldw u) s
/-- USWAP (R238). -/
def execUswap (u : UForm) (s : State) : Host.Outcome State Fault Refusal := execUop (.uswap u) s
/-- UMUL (R238). -/
def execUmul (u : UForm) (s : State) : Host.Outcome State Fault Refusal := execUop (.umul u) s
/-- UCLR (R238). -/
def execUclr (u : UForm) (s : State) : Host.Outcome State Fault Refusal := execUop (.uclr u) s
/-- UST (R238). -/
def execUst (u : UForm) (s : State) : Host.Outcome State Fault Refusal := execUop (.ust u) s
/-- UUPD (R238, R239). -/
def execUupd (u : UForm) (s : State) : Host.Outcome State Fault Refusal := execUop (.uupd u) s
/-- UADD (R238). -/
def execUadd (u : UForm) (s : State) : Host.Outcome State Fault Refusal := execUop (.uadd u) s
/-- UADDI (R238). -/
def execUaddi (u : UForm) (s : State) : Host.Outcome State Fault Refusal := execUop (.uaddi u) s
/-- UKSET (R238). -/
def execUkset (u : UForm) (s : State) : Host.Outcome State Fault Refusal := execUop (.ukset u) s
/-- ULOOP (R238). -/
def execUloop (u : UForm) (s : State) : Host.Outcome State Fault Refusal := execUop (.uloop u) s

end Sys2Proof.Machine
end

