-- ==== Sys2Proof/Machine/Sync.lean ====
section
/-! DEFINITION. Class Y (R213 to R234): align, named barriers, domains, stage queues, spawn, signals, time, priority and
queue wakes, in their holding and blocking forms; strand creation (R42) and the wake of a queue (R301). -/

namespace Sys2Proof.Machine

/-- The value that a selector names: a record word, or the immediate where it names none (R213). -/
def Strand.ySel (st : Strand) (a : IForm) (sel : Nat) : Word := if sel = 0 then a.uimm else st.xr sel

/-- The blocking form of a Y word that waits (R215): its wait and its effect are completed off the slot. -/
def blockingForm (i : Instr) : Bool :=
  match i with
  | .barWait a | .barArrwait a | .domSync a | .sigWait a | .sqPut a | .sqGet a | .waitTime a => a.hdr.susp
  | _ => false

/-- A queue that must be empty at a suspension point will not be once every earlier word has retired (R25, R372): it is not now, or a
result, a load or a read-out in flight ends in it. -/
def Strand.willLeave (st : Strand) : Bool :=
  st.leftover != 0 ||
    (st.land.any fun l => match l.eff with
      | .w _ _ => true
      | .xg _ => true
      | .fmt _ => true
      | _ => false) ||
    (st.lq.any fun m => 80 ≤ dstField m.w.ins && dstField m.w.ins ≤ 87) ||
    st.mq.any fun c => match c.op with
      | .st _ _ _ _ _ _ _ (some _) _ _ => true
      | _ => false

/-- What a Y word comes to. -/
inductive YOut where
  /-- it stays at the head of its queue and waits, with the cause of R424 -/
  | wait (cause obj : Nat) (s : State) (f : Strand → Strand)
  /-- it faults -/
  | flt (f : Flt) (s : State)
  /-- its effect is complete -/
  | done (s : State) (f : Strand → Strand)
  /-- the strand suspends and completes off its slot (R215) -/
  | block (s : State) (f : Strand → Strand) (w : Wait) (post : State → State)

/-- A Y word issues (R78, R214): after a schedule boundary the vc is 0; its marks are cleared. -/
def Strand.issuedY (st : Strand) (i : Instr) (w : QWord) : Strand :=
  let st := if isBoundary i then st.rebase else st
  { st with
    arr := false
    darr := false
    target := none
    waits := Tab.del st.waits 5
    susp := if suspends i then some w else none }.unhold w.seq

/-- A Y word with SUSP waits for the test of R24 before it acts: the blocking forms (R215), and a word that will fault there, which has no
effect (R362). Every other one completes its own effect first. -/
def Strand.testsFirst (st : Strand) (i : Instr) : Bool := suspends i && (blockingForm i || st.willLeave)

/-- The meaning of a Y word, shared: an open suspension point is passed; else it acts when it may issue (R78, R214), or waits for the
test of R24 and R25 where that comes first. -/
def execY (i : Instr) (s : State) (body : Strand → QWord → State → YOut) :
    Host.Outcome State Fault Refusal :=
  let k := s.cur
  match s.strand k with
  | none => .next s
  | some st0 =>
    match st0.opened i with
    | some w => .next (s.suspendWord k st0 w)
    | none =>
      let (w, st) := st0.headOr 5 i
      let s0 := s
      if s.backWaits (s.l1s (slotTile k)) [1, 2] || !(st0.readyY w (isBoundary i || st0.testsFirst i)) || (st0.testsFirst i && !st0.retiredTo w) then .next (s.stall k 5 0 0)
      else if suspends i && st0.leftover != 0 then .next (s.takeFault k st0.leftFlt w.pc 5)
      else if st0.testsFirst i && !st0.drained then .next (s.stall k 5 0 0)
      else if st0.meetsBad (regReads i ++ wordReads i) [] then .next (s.takeFault k regErrFlt w.pc 5)
      else match body st w s with
        | .wait c o s f => .next ((s.onStrand k f).stall k 5 c o)
        | .flt f s => .next (s.takeFault k f w.pc 5)
        | .done s f => .next ((s.setStrand k ((f st).issuedY i w)).idled k (st0.lastWait 5))
        | .block s f wt post =>
          let x := (f st).issuedY i w
          let y := (s.setStrand k x).suspendTo k { x with susp := none } x.pc (some wt)
          .next (match y.strand k with
            | none => post y
            | some _ => s0.keepWaits y)

/-- A release at a scope by a Y word (R216): every earlier access has performed. -/
def State.yRelease (s : State) (k : Nat) (st : Strand) (sc : Nat) : Res Unit :=
  if !st.lq.isEmpty || !st.sq.isEmpty then .wait 9 0 s else s.release k st.id.uid st.id.launch sc

/-- What follows a release. -/
def YOut.after (r : Res Unit) (f : State → YOut) : YOut :=
  match r with
  | .ok _ s => f s
  | .flt e s => .flt e s
  | .wait c o s => .wait c o s id

/-- ALIGN (R80, R217). -/
def execAlign (s : State) : Host.Outcome State Fault Refusal :=
  execY .align s fun _ _ s => .done s id

/-- ALIGN with SUSP (R217): the strand suspends after it. -/
def execAlignSuspend (s : State) : Host.Outcome State Fault Refusal :=
  execY .alignSuspend s fun _ _ s => .done s fun x => x

/-- The barrier-misuse fault (R382). -/
def barFlt (sub cur id : Nat) (mark : Nat := 0) : Flt :=
  { cls := 3, code := 0xE, info := wordOf [(sub, 24), (cur % 4096, 12), (id, 0)], mark := mark }

/-- Change a barrier of a tile. -/
def State.setBar (s : State) (t id : Nat) (b : Bar) : State := s.onTile t fun x => { x with bars := Tab.put x.bars id b }

/-- A barrier that the strand's launch owns; else misuse, sub-case 1 (R218, R382). -/
def State.ownBar (s : State) (k : Nat) (st : Strand) (id : Nat) : Bar ⊕ Flt :=
  let b := s.bar (slotTile k) id
  if b.owner = some st.id.launch then .inl b else .inr (barFlt 1 b.cur id)

/-- BAR_INIT (R219). -/
def execBarInit (a : IForm) (s : State) : Host.Outcome State Fault Refusal :=
  let k := s.cur
  execY (.barInit a) s fun st _ s =>
    let t := slotTile k
    let id := barId a
    match s.ownBar k st id with
    | .inr f => .flt f s
    | .inl b =>
      let waits := ((s.resident t).any fun e => e.1 != k && e.2.id.launch == st.id.launch && s.waitsBar t e.2 == some id) ||
        (s.blockedAt t).any fun w => w.2.launch == st.id.launch && w.1 == id
      if b.cur ≠ 0 ∨ b.nxt ≠ 0 ∨ waits then .flt (barFlt 2 b.cur id) s
      else .done (s.setBar t id { owner := b.owner, count := a.imm.toNat / 2048 }) fun x => x

/-- A phase completes while CUR equals COUNT (R220); the fuel is two completions. -/
def Bar.complete (b : Bar) : Nat → Bar
  | 0 => b
  | n + 1 =>
    if b.cur = b.count then
      ({ b with phase := (b.phase + 1) % 4, cur := b.nxt, nxt := 0, mcur := b.mnxt, mnxt := 0 } : Bar).complete n
    else b

/-- An arrival at a barrier (R220): the barrier after it; held for a second lead; or misuse. -/
inductive Arrival where
  | arrived (b : Bar)
  | held
  | misuse (sub : Nat)
  deriving DecidableEq, Repr

/-- One indivisible arrival with phase field `f` from slot `slot` of the tile (R220). -/
def Bar.arrive (b : Bar) (f slot : Nat) : Arrival :=
  match (f + 4 - b.phase) % 4 with
  | 3 => .misuse 3
  | 2 => .held
  | 0 => .arrived (({ b with cur := b.cur + 1, mcur := setBit b.mcur slot true } : Bar).complete 2)
  | _ =>
    if b.nxt + 1 = b.count then .misuse 4
    else .arrived (({ b with nxt := b.nxt + 1, mnxt := setBit b.mnxt slot true } : Bar).complete 2)

/-- A barrier after an arrival. Where phases have completed, every strand of the tile that waited for one of them is released, in its
slot or off it (R221), and every inheritance from its waiters ends (R32). -/
def State.completeBar (s : State) (t id : Nat) (b : Bar) : State :=
  let u := s.setBar t id b
  if b.phase = (s.bar t id).phase then u
  else
    let free := fun (st : Strand) => if s.waitsBar t st = some id && st.target.any fun f => !barWaits b f then { st with target := some 4 } else st
    let u := ((upFrom (8 * t) 8).foldl (fun (u : State) k => u.onStrand k free) u).uninherit fun x => x.1 == t && x.2.1 == id
    u.onDie (t / 24) fun x => { x with launches := x.launches.map fun l => (l.1, { l.2 with blocked := l.2.blocked.map fun y =>
      match y.w with
      | .bar v n f => if v = t && n == id && !barWaits b f then { y with w := .bar v n 4 } else y
      | _ => y }) }

/-- An arrival ends what the strand has inherited at the barrier (R32). -/
def Strand.arrivedAt (st : Strand) (t id : Nat) : Strand :=
  { st with id := { st.id with inh := st.id.inh.filter fun b => !(b.1 == t && b.2.1 == id) } }

/-- The record word with its phase field advanced (R220). -/
def Strand.advanced (st : Strand) (a : IForm) : Strand :=
  let v := st.xr (yWA a)
  st.setX (yWA a) (putBits v (2 * a.i 11 5) 2 (phaseField v (a.i 11 5) + 1))

/-- The arrival of bar.arrive and bar.arrwait, with its release at .tl (R216, R220). -/
def State.barArrival (s : State) (k : Nat) (st : Strand) (a : IForm) (f : State → YOut) : YOut :=
  let t := slotTile k
  let id := barId a
  match s.ownBar k st id with
  | .inr e => .flt e s
  | .inl _ =>
    YOut.after (s.yRelease k st 1) fun s =>
      let b := s.bar t id
      let p := st.barField a
      match b.arrive p (k % 8) with
      | .misuse sub => .flt (barFlt sub b.cur id ((p + 4 - b.phase) % 4 + 4 * p)) s
      | .held => .wait 8 id s fun x => x
      | .arrived b => f (s.completeBar t id b)

/-- BAR_ARRIVE (R220). -/
def execBarArrive (a : IForm) (s : State) : Host.Outcome State Fault Refusal :=
  let k := s.cur
  execY (.barArrive a) s fun st _ s => s.barArrival k st a fun s => .done s fun x => (x.advanced a).arrivedAt (slotTile k) (barId a)

/-- The wait of bar.wait and bar.arrwait on a phase field, with its acquire at .tl (R216, R221). A blocking form whose condition holds
already stands as released. -/
def State.barWait (s : State) (k : Nat) (a : IForm) (f : Nat) (g : Strand → Strand) (blocking : Bool) (st : Strand) : YOut :=
  let t := slotTile k
  let n := barId a
  if blocking then .block s g (.bar t n (if barWaits (s.bar t n) f then f else 4)) id
  else if st.target != some 4 && barWaits (s.bar t n) f then .wait 9 n s fun x => { g x with target := some f }
  else .done (s.acqClean k st.id.launch 1) g

/-- BAR_WAIT (R221). -/
def execBarWait (a : IForm) (s : State) : Host.Outcome State Fault Refusal :=
  let k := s.cur
  execY (.barWait a) s fun st _ s =>
    match s.ownBar k st (barId a) with
    | .inr f => .flt f s
    | .inl _ => s.barWait k a (st.barField a) id a.hdr.susp st

/-- BAR_ARRWAIT (R221): the arrival once, then the wait on the field as it stands after. -/
def execBarArrwait (a : IForm) (s : State) : Host.Outcome State Fault Refusal :=
  let k := s.cur
  execY (.barArrwait a) s fun st _ s =>
    match s.ownBar k st (barId a) with
    | .inr f => .flt f s
    | .inl _ =>
      if st.arr then s.barWait k a (st.barField a) id a.hdr.susp st
      else s.barArrival k st a fun s =>
        s.barWait k a ((st.advanced a).barField a) (fun x => { (x.advanced a).arrivedAt (slotTile k) (barId a) with arr := true }) a.hdr.susp st

/-- The domain-misuse fault (R223, R372). -/
def domFlt (n : Nat) : Flt := { cls := 3, code := 0xF, info := BitVec.ofNat 64 n }

/-- The instance number that contains a tile at a level (R35, R223). -/
def State.instOf (s : State) (k no lvl : Nat) : Nat :=
  let d := slotDie k
  let t := slotTile k % 24
  match lvl with
  | 0 => tileId t
  | 1 => t / 6
  | 2 => d
  | _ => match s.launch d no with
    | some l => if l.span then l.group else d
    | none => d

/-- DOM_JOIN (R223). -/
def execDomJoin (a : IForm) (s : State) : Host.Outcome State Fault Refusal :=
  let k := s.cur
  execY (.domJoin a) s fun st _ s =>
    if st.id.joined then .flt (domFlt 1) s
    else
      let lvl := st.id.level.toNat
      let inst := s.instOf k st.id.launch lvl
      let s := s.onDom (slotDie k) st.id.launch lvl inst fun x => { x with mem := st.id.uid :: x.mem }
      .done s fun x => { x with id := { x.id with joined := true, inst := BitVec.ofNat 16 inst, dom := some (slotDie k, st.id.launch) } }

/-- DOM_LEAVE (R223, R37). -/
def execDomLeave (a : IForm) (s : State) : Host.Outcome State Fault Refusal :=
  let k := s.cur
  execY (.domLeave a) s fun st _ s =>
    .done (s.domLeave (slotDie k) st.id) fun x => { x with id := { x.id with joined := false, inst := 0, dom := none } }

/-- The group of a launch reaches past this package: a fabric group (R13, R216). -/
def State.fabric (s : State) (d no : Nat) : Bool :=
  match s.launch d no with
  | some l => l.span && (groupOf l.group).any fun m => decide (4 ≤ m)
  | none => false

/-- DOM_SYNC (R224): arrival in the instance's phase with a release, then the wait for the next with an acquire. -/
def execDomSync (a : IForm) (s : State) : Host.Outcome State Fault Refusal :=
  let k := s.cur
  let d := slotDie k
  execY (.domSync a) s fun st _ s =>
    if !st.id.joined then .flt (domFlt 2) s
    else
      let lvl := st.id.level.toNat
      let inst := st.id.inst.toNat
      let (hd, no) := st.id.domHome d
      let sc := levelScope lvl (s.fabric d st.id.launch)
      let wait := fun (s : State) (p : Nat) =>
        if a.hdr.susp then YOut.block s id (.dom lvl inst p) id
        else if s.domPhase hd no lvl inst = p then .wait 9 0 s fun x => { x with darr := true, phase := p }
        else .done (s.acqClean k st.id.launch sc) id
      if st.darr then wait s st.phase
      else
        YOut.after (s.yRelease k st sc) fun s =>
          let p := s.domPhase hd no lvl inst
          wait (s.onDom hd no lvl inst fun x => { x with arr := st.id.uid :: x.arr }) p

/-- The stage-misuse fault (R225 to R227, R372). -/
def stageFlt (n : Nat) : Flt := { cls := 3, code := 0x10, info := BitVec.ofNat 64 n }

/-- Depth of the input queue of a stage: QD of the stage before it (R41, R308). -/
def Launch.depth (l : Launch) (st : Nat) : Nat :=
  match l.stages[st - 1]? with
  | some g => 2 ^ (bits (g.desc.getD 1 0) 8 4 + 4)
  | none => 16

/-- The input queue of a stage has room (R41). -/
def Launch.room (l : Launch) (st : Nat) : Bool :=
  match l.stages[st]? with
  | some g => decide (g.queue.length < l.depth st)
  | none => false

/-- A stage is a pulling stage (R42, R308). -/
def Launch.pulls (l : Launch) (st : Nat) : Bool :=
  match l.stages[st]? with
  | some g => (g.desc.getD 1 0).getLsbD 4
  | none => false

/-- An item enters a stage's queue: behind all that entered earlier, and among those of the same time in order of tile and slot
(R43). -/
def Stage.enter (g : Stage) (now k : Nat) (v : Word) : Stage :=
  let same := if g.freshAt = now then g.fresh.drop (g.fresh.length - g.queue.length) else []
  let i := (same.takeWhile (· ≤ k)).length
  let n := g.queue.length - same.length + i
  { g with queue := g.queue.take n ++ v :: g.queue.drop n, fresh := same.take i ++ k :: same.drop i, freshAt := now }

/-- An item that finds the queue full, or whose strand has left its slot, stands in line: behind all that found it full before, and among those of one time in order
of tile and slot (R43, R225). -/
def Stage.lineUp (g : Stage) (p : Put) : Stage :=
  let before := fun x : Put => x.at_ < p.at_ || (x.at_ == p.at_ && x.slot ≤ p.slot)
  { g with puts := g.puts.takeWhile before ++ p :: g.puts.dropWhile before }

/-- The item that stands first in line enters the queue (R225). Of two puts of one nclk that find room for one, the one whose act comes
first has entered, and the other stands in line (DEDUCED, log 83). -/
def Stage.letIn (g : Stage) : Stage :=
  match g.puts with
  | [] => g
  | p :: rest => { g with puts := rest, queue := g.queue ++ [p.v], fresh := [] }

/-- SQ_PUT (R225): an item enters the next stage's queue behind those that found it full before. -/
def execSqPut (a : IForm) (s : State) : Host.Outcome State Fault Refusal :=
  let k := s.cur
  let d := slotDie k
  execY (.sqPut a) s fun st _ s =>
    let no := st.id.launch
    let n := st.id.stage + 1
    let v := if yWA a = 0 then 0 else st.xr (yWA a)
    match s.launch d no with
    | none => .wait 9 0 s id
    | some l =>
      if l.stages.length ≤ n then .flt (stageFlt st.id.stage) s
      else YOut.after (s.yRelease k st 3) fun s =>
        if a.hdr.susp then
          .block s id (.put v) fun s => s.onStage d no n fun g => g.lineUp ⟨st.id.uid, k, s.time, v⟩
        else match l.stages[n]? with
          | none => .wait 9 0 s id
          | some g =>
            match g.puts, l.room n with
            | [], true => .done (s.onStage d no n fun g => g.enter s.time k v) id
            | p :: _, true =>
              if p.uid = st.id.uid then .done (s.onStage d no n Stage.letIn) id
              else if g.puts.any fun p => p.uid == st.id.uid then .wait 9 0 s id
              else .wait 9 0 (s.onStage d no n fun g => g.lineUp ⟨st.id.uid, k, s.time, v⟩) id
            | ps, false =>
              if ps.any fun p => p.uid == st.id.uid then .wait 9 0 s id
              else .wait 9 0 (s.onStage d no n fun g => g.lineUp ⟨st.id.uid, k, s.time, v⟩) id

/-- SQ_GET (R226): the head item of the strand's own stage's queue, in the order in which takers found it empty. -/
def execSqGet (a : IForm) (s : State) : Host.Outcome State Fault Refusal :=
  let k := s.cur
  let d := slotDie k
  execY (.sqGet a) s fun st _ s =>
    let no := st.id.launch
    let n := st.id.stage
    match s.launch d no with
    | none => .wait 9 0 s id
    | some l =>
      if n = 0 ∨ !l.pulls n then .flt (stageFlt n) s
      else if a.hdr.susp then
        .block s id (.get (yWA a)) fun s => s.onStage d no n fun g => { g with takes := g.takes ++ [st.id.uid] }
      else match l.stages[n]? with
        | none => .wait 9 0 s id
        | some g =>
          let first := match g.takes with
            | [] => true
            | p :: _ => p == st.id.uid
          match g.queue, first with
          | v :: q, true =>
            .done ((s.onStage d no n fun g => { g with takes := g.takes.filter (· != st.id.uid), queue := q }).acqClean k no 3)
              fun x => if yWA a = 0 then x else x.setX (yWA a) v
          | _, _ =>
            if g.takes.contains st.id.uid then .wait 9 0 s id
            else .wait 9 0 (s.onStage d no n fun g => { g with takes := g.takes ++ [st.id.uid] }) id

/-- A free frame of a stage: its number and the pool without it (R42). -/
def Stage.frame (g : Stage) : Option (Nat × Stage) :=
  match g.freeF with
  | f :: r => some (f, { g with freeF := r })
  | [] => if g.nextF < bits (g.desc.getD 3 0) 0 32 then some (g.nextF, { g with nextF := g.nextF + 1 }) else none

/-- The address of a frame (R308). -/
def Stage.frameVa (g : Stage) (f : Nat) : Nat := (g.desc.getD 2 0).toNat + f * bits (g.desc.getD 3 0) 32 32

/-- The entry of a new strand joins its ready list, its record written (R23, R42). -/
def State.newStrand (s : State) (d no : Nat) (l : Launch) (i : Ident) (pc x2 x3 x4 : Word) : Res Unit :=
  let ws := wordOf [(i.cls.toNat, 53), (bits pc 3 53, 0)] :: x2 :: x3 :: x4 :: [0, 0, 0, 0]
  match s.writeVa (cpWho d l.ctx) kStore i.crec.toNat (wordBytes ws) with
  | .ok _ s => .ok () (s.makeReady d { id := i })
  | .flt _ s => .ok () (s.endLaunch d no 5 none)
  | .wait c o s => .wait c o s

/-- The model's own name of the next strand that a die creates: no two strands of the package share one. -/
def State.newUid (s : State) (d : Nat) : Nat := 4 * (s.die d).nextU + d

/-- A stage creates a strand (R42): a frame, its record and an entry on the ready list; it waits where no frame is free. Its SERIAL counts
from 0 (DESIGN CHOICE, log 94), and STAGE of one that a spawn makes is the spawned stage (DESIGN CHOICE, log 95). -/
def State.createStrand (s : State) (d no st : Nat) (x3 : Word) (cls : Option (BitVec 2)) (pc : Option Word) : Res Unit :=
  match s.launch d no with
  | none => .wait 9 0 s
  | some l =>
    match l.stages[st]? with
    | none => .wait 9 0 s
    | some g =>
      match g.frame with
      | none => .wait 9 0 s
      | some (f, g') =>
        let va := g.frameVa f
        let uid := s.newUid d
        let i : Ident :=
          { uid := uid, launch := no, stage := st, frame := f, crec := BitVec.ofNat 64 (va + 0x2A080),
            sid := wordOf [(st, 36), (d, 34), (g.made % 2 ^ 32, 0)],
            cls := cls.getD (BitVec.ofNat 2 (bits (g.desc.getD 1 0) 0 2)) }
        let s := s.onDie d fun x => { x with nextU := x.nextU + 1 }
        let s := s.onStage d no st fun _ => { g' with made := g.made + 1 }
        s.newStrand d no l i (pc.getD (g.desc.getD 0 0)) (BitVec.ofNat 64 va) x3 0

/-- A launch of a die runs no more: it is being ended, or has ended (R367). -/
def State.ends (s : State) (d no : Nat) : Bool :=
  match s.launch d no with
  | some l => l.ending.isSome
  | none => true

/-- SPAWN (R227). Where the new strand's record cannot be written the launch ends, and with it the spawning strand (R23). -/
def execSpawn (a : IForm) (s : State) : Host.Outcome State Fault Refusal :=
  let k := s.cur
  let d := slotDie k
  execY (.spawn a) s fun st _ s =>
    let n := yWB a
    let no := st.id.launch
    let e := a.imm64
    let bad : Flt := { cls := 3, code := 0x11, info := if a.ext.isSome then e else BitVec.ofNat 64 n }
    match s.launch d no with
    | none => .wait 9 0 s id
    | some l =>
      if l.stages.length ≤ n ∨ (a.ext.isSome ∧ (e.toNat % 8 ≠ 0 ∨ 2 ^ 56 ≤ e.toNat)) then .flt bad s
      else if !l.pulls n then .flt (stageFlt n) s
      else YOut.after (s.yRelease k st 3) fun s =>
        let x3 := if yWA a = 0 then 0 else st.xr (yWA a)
        match s.createStrand d no n x3 (some st.id.cls) (if a.ext.isSome then some e else none) with
        | .ok _ s => if s.ends d no then .wait 0 0 s id else .done s id
        | r => .wait 9 0 (r.orKeep s) id

/-- The checks of a signal's address (R229). -/
def sigFlt (va : Word) : Option Flt :=
  if offMemory va.toNat 8 then some (addrFlt va) else if va.toNat % 8 != 0 then some (alignFlt va) else none

/-- The word of a signal as a load of the strand reads it at its home; the strand's die has then observed what it reads, and keeps no
older copy of the line (R249, R258). -/
def State.readSig (s : State) (w : Who) (va : Word) : Res Word :=
  (s.locate w kLoad va.toNat 8).bind fun (l, coh, _) s =>
    let s := s.toHome { w with home := true } l coh
    if s.poisoned l.key 8 then .flt (poisonFlt 1 va) s else .ok (s.peekWord l) (s.heard w.uid l none)

/-- SIG_WAIT (R229): the word is read at issue, and re-read after every write to it. -/
def execSigWait (a : IForm) (s : State) : Host.Outcome State Fault Refusal :=
  let k := s.cur
  execY (.sigWait a) s fun st w s =>
    let va := st.xr (yWA a)
    let v := st.ySel a (yWB a)
    let sc := ySA a
    match sigFlt va with
    | some f => .flt f s
    | none =>
      match s.readSig (s.whoOf k st) va with
      | .flt f s => .flt f s
      | .wait c o s => .wait c o s id
      | .ok x s =>
        if a.hdr.susp then .block s id (.sig va (ySB a) v sc (if a.ext.isSome then w.pc - 8 else w.pc)) id
        else if condSig (ySB a) x v then .done (s.acqClean k st.id.launch sc) id
        else .wait 9 0 s id

/-- SIG_SET (R228): enters the store queue, where it performs with its release. -/
def execSigSet (a : IForm) (s : State) : Host.Outcome State Fault Refusal :=
  execY (.sigSet a) s fun st w s =>
    let va := st.xr (yWA a)
    match sigFlt va with
    | some f => .flt f s
    | none =>
      if 16 ≤ st.sq.length then .wait 0 0 s id
      else .done s fun x => x.toStore { w := w, a := va, b := st.ySel a (yWB a) }

/-- WAIT_TIME (R230): until a time, or after a span from issue. -/
def execWaitTime (a : IForm) (s : State) : Host.Outcome State Fault Refusal :=
  execY (.waitTime a) s fun st _ s =>
    let v := (st.ySel a (yWA a)).toNat
    let t := match st.target with
      | some t => t
      | none => if ySA a % 2 = 1 then s.ns (slotDie s.cur) + v else v
    if a.hdr.susp then .block s id (.time t) id
    else if t ≤ s.ns (slotDie s.cur) then .done s id
    else .wait 9 0 s fun x => { x with target := some t }

/-- PRIO (R232). -/
def execPrio (a : IForm) (s : State) : Host.Outcome State Fault Refusal :=
  execY (.prio a) s fun _ _ s => .done s fun x => { x with id := { x.id with cls := BitVec.ofNat 2 (a.i 0 2) } }

/-- A queue is mapped onto a slot. -/
def Die.mapped (x : Die) (q : Nat) : Bool := x.qslots.any fun e => e.2.q == q

/-- A queue joins the remap list, by PRI and then by arrival (R302); `first` puts it at the head, where no later wake comes before
it (R303). -/
def State.remapIn (s : State) (d q : Nat) (first : Bool) : State :=
  let x := s.die d
  let before := fun n : Nat => x.front.contains n || decide (bits (s.qdesc d n 1) 8 2 ≤ bits (s.qdesc d q 1) 8 2)
  if x.remap.contains q then s
  else if first then s.onDie d fun x => { x with remap := q :: x.remap, front := q :: x.front }
  else s.onDie d fun x => { x with remap := x.remap.takeWhile before ++ q :: x.remap.dropWhile before }

/-- A queue leaves the remap list. -/
def State.remapOut (s : State) (d q : Nat) : State :=
  s.onDie d fun x => { x with remap := x.remap.filter (· != q), front := x.front.filter (· != q) }

/-- A write to a queue's wake register (R301): one update of its descriptor; a bound queue that is not mapped joins the
remap list (R302, R317). A wake to a broken queue is dropped (R420). -/
def State.wake (s : State) (d q : Nat) (v : BitVec 32) : State :=
  if (s.die d).broken.contains q then s
  else
    let s := s.setQdesc d q 2 (wordOf [(v.toNat, 32), (bits (s.qdesc d q 2) 0 32, 0)])
    let s := s.setQdesc d q 3 (wordOf [(v.toNat, 32), (1, 0)])
    if (s.die d).mapped q || !(s.die d).bound.contains q then s else s.remapIn d q false

/-- The queue-permission fault (R233, R421). -/
def queueFlt (q : Nat) : Flt := { cls := 9, code := 2, info := BitVec.ofNat 64 (q % 4096) }

/-- CQ_WAKE (R233). -/
def execCqWake (a : IForm) (s : State) : Host.Outcome State Fault Refusal :=
  let k := s.cur
  let d := slotDie k
  execY (.cqWake a) s fun st _ s =>
    let x := st.xr (yWA a)
    let q := if yWA a = 0 then a.i 0 12 else bits x 0 12
    let v : Word := if a.ext.isSome then a.imm64 else if yWB a = 0 then 0 else st.xr (yWB a)
    if (yWA a ≠ 0 ∧ 4096 ≤ x.toNat) ∨ 2 ^ 32 ≤ v.toNat ∨ !(s.qdesc d q 1).getLsbD 4 then .flt (queueFlt q) s
    else YOut.after (s.yRelease k st 5) fun s => .done (s.wake d q (v.setWidth 32)) id

end Sys2Proof.Machine
end

