-- ==== Sys2Proof/Machine/Perform.lean ====
section
/-! DEFINITION. Events of the memory queues and of copies: loads take their values, stores and atomics perform
(R148 to R152, R247, R258), acknowledgements return or are lost (R259, R264), copied lines land and batches complete
(R144, R160). -/

namespace Sys2Proof.Machine

/-- The head of the load queue may leave (R148 to R150, R156, R159): what stands earlier in the store queue does not hold it, but for
acquires, and for copies that fill a scratchpad line that it reads. -/
def State.loadMay (s : State) (k : Nat) (st : Strand) (m : MemOp) : Bool :=
  let early := st.sq.filter fun e => e.w.seq < m.w.seq
  match m.w.ins with
  | .qsync _ => early.isEmpty
  | .fence a =>
    if a.m 13 2 = 3 then early.isEmpty
    else if a.m 13 2 = 1 then !(early.any fun e => isAmo e.w.ins) else true
  | _ => !(early.any fun e => (ordOf e.w.ins).1 && !isMark e.w.ins) && !s.copyAhead k st m.w.seq (m.ranges.flatMap spadLines)

/-- The head of a slot's load queue, where it may leave; a strand that is being stopped sends no load but one that an earlier store-queue
entry follows (R384). -/
def State.loadHead (s : State) (k : Nat) (st : Strand) : Option MemOp :=
  match st.lq with
  | [] => none
  | m :: _ =>
    let idle := match st.stop with
      | some p => p.held || !(st.sq.any fun e => m.w.seq < e.w.seq)
      | none => false
    if idle || !s.loadMay k st m || ((ordOf m.w.ins).1 && s.backWaits (s.l1s (slotTile k)) [1, 2]) then none else some m

/-- The head of the load queue of a slot reads its units of memory before its data arrive; each unit keeps this value or one read before
it (R143, R247). -/
def State.glance (s : State) (k : Nat) : State :=
  match s.strand k with
  | none => s
  | some st =>
    match s.loadHead k st with
    | none => s
    | some m =>
      if (loadUnit m.w.ins).isNone || st.stop.isSome then s
      else match s.loadRead (m.who 1 (s.whoOf k st)) m with
        | .ok v s =>
          let (v, s) := s.mixSeen m v
          s.onStrand k fun x => { x with lq := { m with seen := some v } :: x.lq.drop 1 }
        | _ => s

/-- The head of a queue of a strand that is being stopped waits for its page: it is saved as it stands (R384, R416), or discarded where the
launch ends (R419). -/
def State.rests (s : State) (k fq cause : Nat) : State :=
  match s.strand k with
  | none => s
  | some st => match st.stop with
    | some p =>
      if cause = 11 && p.ended && fq = 2 then (s.setStrand k { st with sq := st.sq.drop 1 }).settle k
      else if cause = 11 then (s.setStrand k { st with stop := some { p with stuck := p.stuck || fq == 2, held := p.held || fq == 1 } }).settle k else s
    | none => s

/-- The head of the load queue of a slot takes its value (LOAD_DATA_ARRIVAL). -/
def State.loadStep (s : State) (k : Nat) : State :=
  match s.strand k with
  | none => s
  | some st =>
    match s.loadHead k st with
    | none => s
    | some m =>
      let rest := st.lq.drop 1
      let w := m.who 1 (s.whoOf k st)
      let o := ordOf m.w.ins
      if st.bad.contains 297 then s.accessFlt k regErrFlt m.w.pc 1
      else match m.w.ins with
      | .qsync _ => (s.setStrand k (Strand.markGone { st.unwaits 7 with lq := rest } m)).idled k (st.lastWait 7)
      | .fence _ =>
        if o.1 && o.2.1 && (s.acksWait w.uid o.2.2 || (4 ≤ o.2.2 && s.lostAcks w.uid)) then s
        else
          let s := if o.1 then s.acqClean k st.id.launch o.2.2 else s
          (s.setStrand k (Strand.markGone { st.unwaits 7 with lq := rest } m)).idled k (st.lastWait 7)
      | .feLd a =>
        let off := m.a.toNat - 0xFF000000000000
        let kept := fun (s : State) (b : List Byte) => s.setStrand k { st with lq := { m with part := b.length, data := vecBytes b } :: rest }
        match s.feLoad w.tile off (feSize a) (a.m 2 1 == 1) 6 m.part (leBytes m.part m.data.toNat) with
        | (s, b, .done) => (s.setStrand k (st.delivered m (vecBytes b))).idled k (st.lastWait 7)
        | (s, b, .empty line) => (kept s b).stall k 7 5 line
        | (s, b, .bad n) => (kept s b).accessFlt k (poisonFlt 1 (m.a + BitVec.ofNat 64 n)) m.w.pc 1
      | _ =>
        match s.loadValue w m with
        | .ok v s =>
          let (v, s) := s.mixSeen m v
          let s := if o.1 then s.acqClean k st.id.launch o.2.2 else s
          (s.setStrand k (st.delivered m v)).idled k (st.lastWait 7)
        | .wait c obj s => (s.stall k 7 c obj).rests k 1 c
        | .flt f s => s.accessFlt k f m.w.pc 1

/-- The outcome of an event of a unit that the package may not have (R1, R11, R15 to R18). -/
def onUnit (b : Bool) (s : State) : Host.Outcome State Fault Refusal := if b then .next s else .fault .noSuchUnit

/-- The ordering that the head of a store queue waits for: a release (R150, R263), or the acknowledgements that
smp.inv needs (R156). -/
def State.sqOrder (s : State) (k : Nat) (st : Strand) (m : MemOp) : Res Unit :=
  let o := ordOf m.w.ins
  match m.w.ins with
  | .smpInv _ => if m.part = 0 && s.acksWait st.id.uid o.2.2 then .wait 0 0 s else .ok () s
  | _ => if o.2.1 && m.part == 0 then s.release k st.id.uid st.id.launch o.2.2 else .ok () s

/-- The word has its effect when it leaves the store queue, with the destination g of an atomic or a cpadv (R151, R167);
the old value of a location of another die comes back with the acknowledgement (R152). -/
def State.sqEffect (s : State) (k : Nat) (st : Strand) (m : MemOp) : Sq :=
  let w := m.who 2 (s.whoOf k st)
  let d := dstField m.w.ins
  if isMark m.w.ins then .done s
  else if isCopy m.w.ins then
    match m.w.ins, s.copyIssue k st w m with
    | .cpadv a, .done s => .done (s.onStrand k fun x => x.setG d (m.a + BitVec.ofNat 64 (32 * a.i 0 8)))
    | _, r => r
  else if isAmo m.w.ins then
    match s.amoEffect w m with
    | .ok v t =>
      let n := (s.die w.die).nextA
      if d = 0 || (t.die w.die).nextA = n then .done (t.onStrand k fun x => x.setG d v)
      else .done (t.onDie w.die fun x => { x with acks := x.acks.map fun a => if a.1 = n then (n, { a.2 with gd := some (d, v) }) else a })
    | .wait c o s => .wait c o m s
    | .flt f s => .flt f m s
  else s.storeEffect w m

/-- The head of the store queue has performed: it leaves, with its acquire effect, and pushes its token where it retires
only now (R86, R149, R150, R156, R159). -/
def State.sqLeave (s : State) (k : Nat) (st : Strand) (m : MemOp) : State :=
  let o := ordOf m.w.ins
  let s := (if o.1 && !isMark m.w.ins then s.acqClean k st.id.launch o.2.2 else s).idled k (st.lastWait 8)
  (s.onStrand k fun x =>
    let x := { x.unwaits 8 with sq := x.sq.drop 1 }
    if isMark m.w.ins then x.markGone m else if retiresLate m.w.ins then x.pushA m.w.ins else x).settle k

/-- A fault of a word at this place in the stream is not reported while the strand is stopped: its cause stays (R363, R397). -/
def Strand.unheard (st : Strand) (seq : Nat) : Bool :=
  match st.stop with
  | some p => p.pre || p.ended || p.seq ≤ seq
  | none => false

/-- The head of a store queue as far as it has come. -/
def State.sqHead (s : State) (k : Nat) (m : MemOp) : State := s.onStrand k fun x => { x with sq := m :: x.sq.drop 1 }

/-- The head of the store queue of a slot performs (R148, R246, R247). -/
def State.storeStep (s : State) (k : Nat) : State :=
  match s.strand k with
  | none => s
  | some st =>
    match st.sq with
    | [] => s
    | m :: _ =>
      if st.isStuck || s.backWaits (s.l1s (slotTile k)) [1, 2] then s
      else if !st.storeMay m then
        (match st.stop with
          | some p => if p.held then (s.setStrand k { st with stop := some { p with stuck := true } }).settle k else s
          | none => s)
      else if st.bad.contains 298 then s.accessFlt k regErrFlt m.w.pc 2
      else match s.sqOrder k st m with
        | .wait c o s => s.stall k 8 c o
        | .flt f t => (if st.unheard m.w.seq then s else t).accessFlt k f m.w.pc 2
        | .ok _ s =>
          match s.sqEffect k st m with
          | .wait c o m s => ((s.sqHead k m).stall k 8 c o).rests k 2 c
          | .flt f m s => (s.sqHead k m).accessFlt k f m.w.pc 2
          | .done s => s.sqLeave k st m

/-- The head of the store queue is an atomic or a sig.set, performed at its point of performance (R152, R228). -/
def State.headAmo (s : State) (k : Nat) : Bool :=
  match s.strand k with
  | none => false
  | some st => match st.sq with
    | [] => false
    | m :: _ => isAmo m.w.ins || match m.w.ins with
      | .sigSet _ => true
      | _ => false

/-- The number of slots of the package (R18). -/
def slotCount : Nat := 768

/-- LOAD_DATA_ARRIVAL (R247). -/
def execLoadDataArrival (k : Nat) (s : State) : Host.Outcome State Fault Refusal := onUnit (k < slotCount) (s.loadStep k)

/-- STORE_PERFORM (R258). -/
def execStorePerform (k : Nat) (s : State) : Host.Outcome State Fault Refusal :=
  onUnit (k < slotCount) (if s.headAmo k then s else s.storeStep k)

/-- ATOMIC_PERFORM (R152). -/
def execAtomicPerform (k : Nat) (s : State) : Host.Outcome State Fault Refusal :=
  onUnit (k < slotCount) (if s.headAmo k then s.storeStep k else s)

/-- The strands with a name that stand in slots. -/
def State.slotsNamed (s : State) (uid : Nat) : List Nat :=
  (s.strands.map (·.1)).filter fun k => match s.strand k with
    | some st => st.id.uid == uid
    | none => false

/-- The old value that an atomic took is written to its g register (R152), and a stop that has waited for it goes on. -/
def State.oldValue (s : State) (x : Ack) : State :=
  match x.gd with
  | none => s
  | some (n, v) => (s.slotsNamed x.uid).foldl (fun (s : State) k => (s.onStrand k fun st => st.setG n v).settle k) s

/-- The acknowledgement of a store counts as lost (R264); with it goes the old value of an atomic, and a stop that waits for it goes
on (R397). -/
def State.loseAck (s : State) (d a : Nat) (x : Ack) : State :=
  (s.slotsNamed x.uid).foldl (fun (s : State) k => s.settle k)
    (s.onDie d fun y => { y with acks := Tab.put y.acks a { x with lost := true } })

/-- STORE_ACKNOWLEDGEMENT (R259): with the final acknowledgement of an .e store, the copies on other dies are
invalidated. One that comes 10 µs after the store performed, or later, counts as lost (R264). -/
def execStoreAcknowledgement (d a : Nat) (s : State) : Host.Outcome State Fault Refusal :=
  onUnit (d < 4) (match Tab.find (s.die d).acks a with
    | none => s
    | some x =>
      if x.lost || (x.home < 4 && !s.canReach d x.home) then s
      else if x.at_ + 10000 * 65536 ≤ s.time then s.loseAck d a x
      else
        let s := if x.e then s.dropL2 x.line [d] else s
        (s.onDie d fun y => { y with acks := Tab.del y.acks a }).oldValue x)

/-- ACKNOWLEDGEMENT_LOSS (R264): 10 µs after the store performed, its acknowledgement counts as lost. -/
def execAcknowledgementLoss (d a : Nat) (s : State) : Host.Outcome State Fault Refusal :=
  onUnit (d < 4) (match Tab.find (s.die d).acks a with
    | none => s
    | some x =>
      if x.lost || s.time < x.at_ + 10000 * 65536 then s
      else s.loseAck d a x)

/-- COPY_LINE_LANDING (R144). -/
def execCopyLineLanding (d j : Nat) (s : State) : Host.Outcome State Fault Refusal := onUnit (d < 4) (s.copyStep d j)

/-- BATCH_COMPLETE (R160): a closed batch whose copies are all complete, and which no earlier batch of its strand
precedes, is complete; it is kept while it holds a fault or lines that its wait has to act on. -/
def execBatchComplete (d b : Nat) (s : State) : Host.Outcome State Fault Refusal :=
  onUnit (d < 4) (match (s.die d).batches[b]? with
    | none => s
    | some x =>
      let early := s.allBatches.any fun y => y.uid == x.uid && y.no < x.no && !y.done
      if !x.closed || x.done || x.count != 0 || early then s
      else s.onDie d fun y =>
        { y with batches :=
            if x.flt.isSome || !x.lines.isEmpty then y.batches.set b { x with done := true } else y.batches.eraseIdx b })

end Sys2Proof.Machine
end

