-- ==== Sys2Proof/Machine/Front.lean ====
section
/-! DEFINITION. The dispatcher (R77, R89 to R91, R370), the landing buffer (R83, R84) and the arbitration windows of a
tile (R30). -/

namespace Sys2Proof.Machine

/-- One word of the stream at an address (R415, R416): the fetch faults stand at it. -/
def State.fetchAt (s : State) (k : Nat) (st : Strand) (va : Word) : Res Word :=
  if offMemory va.toNat 8 then .flt (addrFlt va) s
  else
    match s.readVa (s.whoOf k st) kFetch va.toNat 8 with
    | .flt f s => .flt (if f.cls = 5 then poisonFlt 3 va else f) s
    | .ok b s => .ok (BitVec.ofNat 64 (leNat b)) s
    | .wait c o s => .wait c o s

/-- What the dispatcher finds at the strand's pc: an instruction, or the fault with the address it stands at (R370). -/
def State.fetchInstr (s : State) (k : Nat) (st : Strand) : Res (Instr ⊕ (Flt × Word)) :=
  match s.fetchAt k st st.pc with
  | .wait c o s => .wait c o s
  | .flt f s => .ok (.inr (f, st.pc)) s
  | .ok w s =>
    let second : Res Word := if clsOf w = 7 then s.fetchAt k st (st.pc + 8) else .ok 0 s
    match second with
    | .wait c o s => .wait c o s
    | .flt f s => .ok (.inr (f, st.pc + 8)) s
    | .ok x s =>
      match decodeWords w x with
      | .ok (i, _) => .ok (.inl i) s
      | .error (.illegal c onExt) =>
        let ext := clsOf w = 7
        let bad := if onExt || !ext then w else x
        .ok (.inr ({ cls := 2, code := c, info := bad }, if onExt || !ext then st.pc else st.pc + 8)) s
      | .error .short => .ok (.inr ({ cls := 2, code := 2, info := w }, st.pc)) s

/-- A word that the dispatcher consumes (R89, R90). -/
def consumed (i : Instr) : Bool :=
  match i with
  | .br _ => true
  | .loop _ => true
  | .bq _ => true
  | .lcset _ => true
  | .rbset _ => true
  | _ => false

/-- A word that holds fetch until it issues (R89, R90). -/
def holdsFetch (i : Instr) : Bool :=
  match i with
  | .bcc _ => true
  | .lcmov _ => true
  | .rbmov _ => true
  | .mts a => a.m 0 12 == 8
  | _ => false

/-- A word behind which fetch stops until it retires (R77): SUSP, yield, halt. -/
def endsSchedule (i : Instr) : Bool := suspends i

/-- Place a fetched word (R77, R91): none where its queue is full. -/
def Strand.place (st : Strand) (i : Instr) : Option Strand :=
  let i := rotIns st.base.toNat i
  let w : QWord := ⟨i, st.pc + (insLen i - 8), st.seq⟩
  let next := { st with pc := st.pc + insLen i, seq := st.seq + 1 }
  if consumed i then some { next with disp := some w }
  else
    let c := insCls i
    if 32 ≤ (st.queue c).length then none
    else
      let h : Hold := if endsSchedule i then .retire w.seq else if holdsFetch i then .issue w.seq else .run
      some ({ next with hold := h }.setQueue c (st.queue c ++ [w]))

/-- Every word that the strand has dispatched has issued (R370). -/
def Strand.allIssued (st : Strand) : Bool := st.issuedBefore st.seq && st.disp.isNone && st.susp.isNone

/-- A word that has just entered the empty queue of an execute-side engine comes after the clock has passed its vc (R85). -/
def Strand.tooLate (st : Strand) (i : Instr) : Option (Flt × Word) :=
  let c := insCls i
  match st.queue c with
  | [w] =>
    let d := st.due c (insHdr w.ins)
    if c != 1 && c != 5 && !consumed i && d < st.now && !st.behindStop w.seq then some (lateFlt d st.now, w.pc) else none
  | _ => none

/-- The dispatcher takes the next word of a slot (DISPATCH_WORD), or stands at a word that failed and takes its fault once
every earlier word has issued (R370). A word that comes too late for its vc faults as it enters its queue (R85). -/
def State.frontEnd (s : State) (k : Nat) : State :=
  match s.strand k with
  | none => s
  | some st =>
    if st.stop.isSome || st.disp.isSome || st.want then s
    else match st.hold with
      | .bad f pc => if st.allIssued then s.takeFault k f pc 6 else s
      | .run =>
        match s.fetchInstr k st with
        | .wait c o s => s.stall k 6 c o
        | .flt f s => s.takeFault k f st.pc 6
        | .ok (.inr (f, pc)) s =>
          let s := s.setStrand k { st with hold := .bad f pc }
          if st.allIssued then s.takeFault k f pc 6 else s
        | .ok (.inl i) s =>
          match st.place i with
          | none => s
          | some st =>
            let s := (s.setStrand k (st.unwaits 6)).idled k (st.lastWait 6)
            match st.tooLate i with
            | some (f, pc) => s.takeFault k f pc (insCls i)
            | none => s
      | _ => s

/-- DISPATCH_WORD (R77). -/
def execDispatchWord (k : Nat) (s : State) : Host.Outcome State Fault Refusal := onUnit (k < slotCount) (s.frontEnd k)

/-- What takes a result back that lands now; a system register's is not taken back. -/
def State.undoOf (s : State) (k : Nat) (st : Strand) (e : Eff) : Option Eff :=
  let row := fun r q => some (.acc r q (BitVec.ofNat 4096 (s.peekNat (accLoc (slotTile k) r q) 512)))
  match e with
  | .x n _ => some (.x n (st.xr n))
  | .sp n _ => some (.sp n (st.sp.getLsbD n))
  | .v n _ => some (.v n (Cells.get st.v n))
  | .p n _ => some (.p n (Cells.get st.p n))
  | .acc r q _ => row r q
  | .accAdd r q _ _ _ => row r q
  | .sys _ _ => none
  | e => some e

/-- A result that lands at the vc at which the clock stands is kept with what takes it back (R384 step 2). -/
def State.freshen (s : State) (k : Nat) (l : Land) : State :=
  match s.strand k with
  | none => s
  | some st => match if l.due = st.now then s.undoOf k st l.eff else none with
    | some e => s.setStrand k { st with fresh := st.fresh ++ [⟨l, e⟩] }
    | none => s

/-- Results that are due are written, in stream order within a vc (R83, R84, R111). -/
def State.landDue (s : State) (k : Nat) : State :=
  match s.strand k with
  | none => s
  | some st =>
    if st.stop.isSome then s
    else
      let due := st.land.filter fun l => l.due ≤ st.now
      due.foldl (fun s l => (s.freshen k l).landing k l.eff) (s.setStrand k { st with land := st.land.filter fun l => st.now < l.due })

/-- LANDING_BUFFER_WRITE (R84). -/
def execLandingBufferWrite (k : Nat) (s : State) : Host.Outcome State Fault Refusal := onUnit (k < slotCount) (s.landDue k)

/-- A slot is ready (R30): a word at the head of a queue could issue now but for arbitration, or faults. -/
def State.slotReady (s : State) (k : Nat) : Bool :=
  match s.strand k with
  | none => false
  | some st =>
    st.stop.isNone && !st.want &&
      ((match st.queue 5 with
          | w :: _ => st.readyY w (isBoundary w.ins || suspends w.ins) && (!suspends w.ins || st.drained) && st.causeAt 5 < 4
          | [] => false) || [0, 1, 2, 3, 4].any (s.headReady st))

/-- The ready slots of a tile in the order of a round (R30): by EFF, then by number. -/
def State.readySlots (s : State) (t : Nat) : List Nat :=
  let es := s.effs t
  let ks := (upFrom (8 * t) 8).filter s.slotReady
  [0, 1, 2, 3].flatMap fun c => ks.filter fun k => Tab.getD es k 3 == c

/-- A newly ready slot enters a round ahead of every slot of higher EFF not yet served (R30 step 3). -/
def intoRound (es : Tab Nat) (k : Nat) : List Nat → List Nat
  | [] => [k]
  | h :: l => if Tab.getD es k 3 < Tab.getD es h 3 then k :: h :: l else h :: intoRound es k l

/-- The arbitration round of a tile moves on (R30): slots that stopped being ready leave, a window of 8 clk ends, newly ready slots
of lower EFF than the one that holds the window enter, and a round in which all have been served begins again. -/
def State.windowStep (s : State) (t : Nat) : State :=
  let x := s.tile t
  let es := s.effs t
  let ready := s.readySlots t
  let head := x.round.head?
  let gone := x.round.filter ready.contains
  let done := match gone, head with
    | h :: _, some k => decide (h = k ∧ 8 ≤ x.win)
    | _, _ => false
  let left := if done then gone.drop 1 else gone
  let served := if done then gone.take 1 ++ x.served else x.served
  let low := fun k : Nat => match left with
    | h :: _ => decide (Tab.getD es k 3 < Tab.getD es h 3)
    | [] => false
  let new := ready.filter fun k => !(x.round.contains k || served.contains k) && low k
  let r := new.foldl (fun r k => intoRound es k r) left
  let (r, served) := if r.isEmpty then (ready, []) else (r, served)
  let win := if r.head? = head && !done then x.win else 0
  s.setTile t { x with round := r, served := served, win := win }

/-- ISSUE_WINDOW_EXPIRY (R30). -/
def execIssueWindowExpiry (t : Nat) (s : State) : Host.Outcome State Fault Refusal := onUnit (t < 96) (s.windowStep t)

end Sys2Proof.Machine
end

