-- ==== Sys2Proof/Machine/Sched.lean ====
section
/-! DEFINITION. The scheduler of a die: creation of strands, pickup, waits that end off the slot, displacement and
pre-emption, slots of launches and stages, range words and stealing, handler strands, batched iterations (R28, R37 to
R49, R220 to R230, R309, R315, R366, R383). -/

namespace Sys2Proof.Machine

/-- The launch admits a tile of its die (R308). -/
def Launch.admits (l : Launch) (t : Nat) : Bool := bits (l.word 0) 8 24 == 0 || (l.word 0).getLsbD (8 + t)

/-- A tile of a die is reserved for latency work (R45). -/
def State.reserved (s : State) (d t : Nat) : Bool := (s.die d).mask.getLsbD t

/-- Launches of a die that have begun and do not end, in order of start. -/
def State.running (s : State) (d : Nat) : List Launch :=
  ((s.die d).launches.filter fun e => e.2.begun && e.2.ending.isNone).map (·.2)

/-- An entry of a die's ready lists may run on a tile of the package as far as bindings go (R28, R385). -/
def State.bindOk (s : State) (d t : Nat) (e : Entry) : Bool :=
  (match e.bound with
    | some b => b == t
    | none => true) &&
  (!s.stageBound d e.id || e.id.tile == 96 || e.id.tile == t) && (!s.copyBound d e.id || e.id.tile == t)

/-- A reserved tile is idle (R45): no latency strand stands on it, and none is ready that it could take. -/
def State.tileIdle (s : State) (d t : Nat) : Bool :=
  let u := 24 * d + t
  !((s.resident u).any fun e => s.latency d e.2.id.launch) &&
    !((s.running d).any fun l => l.latency && l.admits t && l.stages.any fun g => g.ready.any (s.bindOk d u))

/-- A strand of a launch, in a ready list of die `src`, may be picked up on a tile of die `d` (R28, R45, R366). -/
def State.mayRun (s : State) (d t : Nat) (l : Launch) (src : Nat) (e : Entry) : Bool :=
  let r := s.reserved d t
  l.admits t && s.bindOk src (24 * d + t) e && (if l.latency then r else !r || (!e.id.handler && s.tileIdle d t))

/-- The first entry of a list in order of effective class, and of arrival within a class (R28). -/
def firstEntry (cls : Ident → Nat) : List Entry → Option Entry
  | [] => none
  | e :: l => match firstEntry cls l with
    | none => some e
    | some x => if cls x.id < cls e.id then some x else some e

/-- The entries that an idle slot may take, each with its die: the first of its stage's list, or a handler strand of its launch
(R28, R366); of a spanning launch, also the first of the stage's list on each other member that has run before and is bound to no
tile (R28). Which of several it takes is open. -/
def State.candidates (s : State) (k : Nat) : List (Nat × Entry) :=
  let d := slotDie k
  if (s.strand k).isSome then []
  else match Tab.find (s.die d).assign k with
    | none => []
    | some (no, st) =>
      match s.launch d no with
      | none => []
      | some l =>
        if l.ending.isSome then []
        else
          let t := slotTile k % 24
          let list := fun (l : Launch) => match l.stages[st]? with | some g => g.ready | none => []
          let hs := if st = 0 then [] else (l.stages.flatMap (·.ready)).filter (·.id.handler)
          let own := (firstEntry s.entryCls ((list l ++ hs).filter (s.mayRun d t l d))).toList.map fun e => (d, e)
          own ++ (s.peersOf d l).filterMap fun p => (s.launch p.1 p.2).bind fun x =>
            (firstEntry s.entryCls ((list x).filter fun e => !e.id.handler && e.id.tile != 96 && s.mayRun d t l p.1 e)).map
              fun e => (p.1, e)

/-- A strand that resumes on another die of its launch runs there as one of the member's own; its frame stays of the launch that
created it (R28, R42). -/
def Ident.moved (i : Ident) (src d no : Nat) : Ident :=
  let home := i.org.getD (src, i.launch)
  { i with launch := no, org := if home = (d, no) then none else some home }

/-- A strand that resumes on a die observes its own stores (R26), and none older than those it has observed (R258): the copies that the die
holds of lines of such early stores leave. -/
def State.ownStores (s : State) (d uid : Nat) : State :=
  let ls := (s.dies.flatMap fun e => e.2.acks.filter fun a => (a.2.uid == uid || a.2.read.contains uid) && a.2.e).map fun a => a.2.line
  s.onDie d fun x => { x with l2 := x.l2.filter fun y => !(ls.contains y.1 && homeOf y.1 != d) }

/-- A slot's marks at the barriers of its tile are cleared (R222). -/
def State.clearMarks (s : State) (k : Nat) : State :=
  s.onTile (slotTile k) fun t =>
    { t with bars := t.bars.map fun b =>
        (b.1, { b.2 with mcur := setBit b.2.mcur (k % 8) false, mnxt := setBit b.2.mnxt (k % 8) false }) }

/-- A strand that comes to a tile where it did not run last finds no old line of a software-managed or tile-private page in its
L1, and an empty sampler cache (R26, R155, R252). A new one acquires at .dd (R227, R366). -/
def State.arrive (s : State) (k : Nat) (i : Ident) : State :=
  if i.tile = slotTile k then s
  else
    let s := (s.l1s (slotTile k)).foldl (fun s t => s.flushL1 t (if i.tile = 96 then [1] else [1, 2])) s
    if i.tile = 96 then s else s.onTile (slotTile k) fun t => { t with smp := [] }

/-- An idle slot takes an entry of a ready list (R28, R252, R389): it loads the record, and with FULL 1 the saved context. A strand
whose wait met a fault stops at its sig.wait before it issues a word (R229). -/
def State.pickup (s : State) (k : Nat) : State :=
  let l := if s.backWaits (s.l1s (slotTile k)) [1, 2] then [] else s.candidates k
  let (j, s0) := if l.length ≤ 1 then (0, s) else s.pick l.length
  match l[j]? with
  | none => s
  | some (src, e0) =>
    let d := slotDie k
    let no := match Tab.find (s.die d).assign k with | some (no, _) => no | none => 0
    let e := if src = d then e0 else { e0 with id := e0.id.moved src d no }
    let s1 := if src = d then s0 else s0.ownStores d e.id.uid
    match (s1.arrive k e.id).restore k e with
    | .wait _ _ t => s.keepWaits t
    | .flt _ s => s.endLaunch d no 5 none
    | .ok st s =>
      let s := s.onStage src e0.id.launch e.id.stage fun g => { g with ready := g.ready.filter fun x => x.id.uid != e.id.uid }
      let s := (s.clearMarks k).setStrand k { st with id := { st.id with tile := slotTile k } }
      match e.flt with
      | none => s
      | some f =>
        let s := s.frontEnd k
        let pc := match s.strand k with
          | some x => ((x.queue 5).head?.map (·.pc)).getD st.pc
          | none => st.pc
        s.takeFault k f pc 5

/-- STRAND_PICKUP (R28). -/
def execStrandPickup (k : Nat) (s : State) : Host.Outcome State Fault Refusal := onUnit (k < slotCount) (s.pickup k)

/-- A strand whose wait has ended leaves the waits of its launch and joins its ready list (R49); `sc` is the scope of its
acquire (R216). -/
def State.unblock (s : State) (d no : Nat) (b : Blk) (sc : Nat) (flt : Option Flt := none) : State :=
  let s := s.onLaunch d no fun l => { l with blocked := l.blocked.filter fun x => x.e.id.uid != b.e.id.uid }
  let s := if flt.isSome || sc = 0 then s else s.acqClean (8 * b.e.id.tile) no sc
  s.makeReady d { b.e with flt := flt }

/-- The wait of a launch under a number. -/
def State.blk (s : State) (d no b : Nat) : Option Blk := (s.launch d no).bind fun l => l.blocked[b]?

/-- STRAND_READY (R49, R221, R224): a barrier phase has completed, or a domain instance has moved on. -/
def execStrandReady (d l b : Nat) (s : State) : Host.Outcome State Fault Refusal :=
  onUnit (d < 4) (match s.blk d l b with
    | none => s
    | some x =>
      let (hd, no) := x.e.id.domHome d
      match x.w with
      | .bar t id f => if barWaits (s.bar t id) f then s else s.unblock d l x 1
      | .dom lvl inst p => if s.domPhase hd no lvl inst = p then s else s.unblock d l x (levelScope lvl (s.fabric d l))
      | _ => s)

/-- SIGNAL_REREAD (R229): the word is read again; where the read faults, the strand returns to its sig.wait with it. -/
def execSignalReread (d l b : Nat) (s : State) : Host.Outcome State Fault Refusal :=
  onUnit (d < 4) (match s.blk d l b with
    | none => s
    | some x =>
      match x.w with
      | .sig va cond v sc pc =>
        let ctx := match s.launch d l with | some l => l.ctx | none => 65536
        let w : Who := { die := d, ctx := ctx, tile := x.e.id.tile, agent := awayAgent x.e.id.uid, uid := x.e.id.uid }
        match s.readSig w va with
        | .wait _ _ s => s
        | .ok y s => if condSig cond y v then s.unblock d l x sc else s
        | .flt f s =>
          let c := { cpWho d ctx with tile := x.e.id.tile }
          let r := (s.readWord c kLoad x.e.id.crec.toNat).bind fun w0 s =>
            s.writeWord c kStore x.e.id.crec.toNat (putBits w0 0 53 (bits pc 3 53))
          match r with
          | .ok _ s => s.unblock d l x sc (some f)
          | .flt _ s => s.endLaunch d l 5 none
          | .wait _ _ t => s.keepWaits t
      | _ => s)

/-- TIME_TARGET_REACHED (R230). -/
def execTimeTargetReached (d l b : Nat) (s : State) : Host.Outcome State Fault Refusal :=
  onUnit (d < 4) (match s.blk d l b with
    | none => s
    | some x =>
      match x.w with
      | .time t => if t ≤ s.ns d then s.unblock d l x 0 else s
      | _ => s)

/-- The wait of a strand of a launch by the strand's number. -/
def Launch.blkOf (l : Launch) (uid : Nat) : Option Blk := l.blocked.find? fun x => x.e.id.uid == uid

/-- QUEUE_SPACE_AVAILABLE (R43, R225): the item that waits longest enters a queue that has room. -/
def execQueueSpaceAvailable (d l st : Nat) (s : State) : Host.Outcome State Fault Refusal :=
  onUnit (d < 4) (match s.launch d l with
    | none => s
    | some x =>
      match x.stages[st]? with
      | none => s
      | some g =>
        match g.puts with
        | [] => s
        | p :: _ =>
          match x.blkOf p.uid with
          | none => s
          | some b => if x.room st then (s.onStage d l st Stage.letIn).unblock d l b 0 else s)

/-- ITEM_AVAILABLE (R43, R226): the strand that waits longest receives the head item, in its record (R215). -/
def execItemAvailable (d l st : Nat) (s : State) : Host.Outcome State Fault Refusal :=
  onUnit (d < 4) (match s.launch d l with
    | none => s
    | some x =>
      match x.stages[st]? with
      | none => s
      | some g =>
        match g.takes, g.queue with
        | uid :: rest, v :: q =>
          match x.blkOf uid with
          | none => s
          | some b =>
            match b.w with
            | .get wd =>
              let t := s.onStage d l st fun g => { g with takes := rest, queue := q }
              if wd = 0 then t.unblock d l b 3
              else
                match t.writeWord (cpWho d x.ctx) kStore (b.e.id.crec.toNat + 8 * (wd - 1)) v with
                | .ok _ s => s.unblock d l b 3
                | .flt _ s => s.endLaunch d l 5 none
                | .wait _ _ t => s.keepWaits t
            | _ => s
        | _, _ => s)

/-- The result of a meaning performed for another slot. -/
def asSlot (k : Nat) (s : State) (f : State → Host.Outcome State Fault Refusal) : State :=
  match f { s with cur := k } with
  | .next t => { t with cur := s.cur }
  | _ => s

/-- HELD_ARRIVAL (R220): an arrival held by the barrier's lead is made again. -/
def execHeldArrival (k : Nat) (s : State) : Host.Outcome State Fault Refusal :=
  onUnit (k < slotCount) (match s.strand k with
    | none => s
    | some st =>
      match (st.queue 5).head? with
      | some w => match w.ins with
        | .barArrive a => asSlot k s (execBarArrive a)
        | .barArrwait a => asSlot k s (execBarArrwait a)
        | _ => s
      | none => s)

/-- The phase counter of one instance reaches one of its neighbours (R38, R40). -/
def State.leadTo (s : State) (d no lvl inst dest ph : Nat) : State :=
  s.onDom d no lvl dest fun x => { x with seen := Tab.put x.seen inst ph }

/-- The phase of the instance of a die group (R36): on this package where all its members are, of the first of its launches that runs
here (DESIGN CHOICE, log 79); of a group that reaches elsewhere, the next after `seen`. None where it has not begun. -/
def State.groupLead (s : State) (g seen : Nat) : Option Nat :=
  if (groupOf g).any fun m => decide (4 ≤ m) then some (seen + 1)
  else [0, 1, 2, 3].findSome? fun d =>
    ((s.running d).find? fun l => l.span && l.group == g).map fun l => (s.domOf d l.no 3 g).phase

/-- The counter of an instance reaches its neighbours in one launch of a die (R38); that of a group reaches the launch's group on every
member's die. -/
def State.leadFrom (s : State) (d : Nat) (l : Launch) (lvl inst : Nat) : State :=
  let x := s.domOf d l.no lvl inst
  if lvl < 2 then (s.neighbours d l x).foldl (fun s n => s.leadTo d l.no lvl inst n x.phase) s
  else if lvl = 2 then
    if inst = d then
      (s.neighbours d l x).foldl (fun s n =>
        (s.peersOf d l).foldl (fun s p => if p.1 = n then s.leadTo n p.2 2 d n x.phase else s) s) s
    else s
  else if l.span && (s.neighbours d l { lvl := 3, inst := l.group }).contains inst && (s.peersOf d l).all fun p => d < p.1 then
    match s.groupLead inst (Tab.getD (s.domOf d l.no 3 l.group).seen inst 0) with
    | none => s
    | some ph => ((d, l.no) :: s.peersOf d l).foldl (fun s p => s.leadTo p.1 p.2 3 inst l.group ph) s
  else s

/-- LEAD_COUNTER_ARRIVAL (R40): the counter of instance `inst` of a level reaches its neighbours. -/
def execLeadCounterArrival (lvl inst : Nat) (s : State) : Host.Outcome State Fault Refusal :=
  onUnit (lvl < 4) ([0, 1, 2, 3].foldl (fun s d =>
    (s.running d).foldl (fun s l =>
      if lvl < 3 && (s.domAt d l.no lvl inst).isNone then s else s.leadFrom d l lvl inst) s) s)

/-- PREEMPTION (R45, R46, R383): a displaced strand that is still in its slot after 20 µs. -/
def execPreemption (k : Nat) (s : State) : Host.Outcome State Fault Refusal :=
  onUnit (k < slotCount) (
    if (s.die (slotDie k)).disp.any fun x => x.slot == k && x.due ≤ s.time then
      (s.preempt k).onDie (slotDie k) fun x => { x with disp := x.disp.filter fun y => y.slot != k }
    else s)

/-- The range word that a member keeps: NEXT and END (R47). -/
def nextOf (v : Word) : Nat := bits v 0 32
/-- END of a range word. -/
def endOf (v : Word) : Nat := bits v 32 32
/-- A range word. -/
def rangeWord (a b : Nat) : Word := wordOf [(b, 32), (a, 0)]

/-- A stage-0 index is claimed (R42, R47, R315), where there is one. -/
def State.claimIndex (s : State) (d : Nat) (l : Launch) : Res (Option Nat) :=
  let took := fun (s : State) => s.onLaunch d l.no fun l => { l with created := l.created + 1 }
  if l.span then
    let w := cpWho d l.ctx
    (s.rmw w (l.word 6) 8 false fun v =>
        let x := BitVec.ofNat 64 v
        if nextOf x < endOf x then v + 1 else v).bind fun v s =>
      let x := BitVec.ofNat 64 v
      if nextOf x < endOf x then .ok (some (nextOf x)) (took s) else .ok none s
  else if l.limit < l.n then .ok (some l.limit) ((took s).onLaunch d l.no fun l => { l with limit := l.limit + 1 })
  else .ok none s

/-- A stage creates a strand (R42, R315): from an index, as one of its initial strands, or from an item. -/
def State.createStep (s : State) (d no st : Nat) : State :=
  match s.launch d no with
  | none => s
  | some l =>
    if !l.begun || l.ending.isSome then s
    else match l.stages[st]? with
      | none => s
      | some g =>
        if g.frame.isNone then s
        else if st = 0 then
          let r := (s.claimIndex d l).bind fun i t => match i with
            | none => .ok () s
            | some i => t.createStrand d no 0 (BitVec.ofNat 64 i) none none
          match r with
          | .ok _ t => t
          | r => r.orKeep s
        else if l.pulls st then
          if g.inits < bits (g.desc.getD 1 0) 16 16 then
            match s.createStrand d no st (BitVec.ofNat 64 g.inits) none none with
            | .ok _ t => t.onStage d no st fun g => { g with inits := g.inits + 1 }
            | r => r.orKeep s
          else s
        else match g.queue with
          | [] => s
          | v :: q =>
            match (s.onStage d no st fun g => { g with queue := q }).createStrand d no st v none none with
            | .ok _ t => t
            | r => r.orKeep s

/-- STRAND_CREATE (R42). -/
def execStrandCreate (d l st : Nat) (s : State) : Host.Outcome State Fault Refusal := onUnit (d < 4) (s.createStep d l st)

/-- A member whose range is empty steals half of the largest remaining range, and installs it in its own word (R48). The
read of the words and the compare-and-swap are one step; the install is the next. -/
def State.stealStep (s : State) (d no : Nat) : State :=
  match s.launch d no with
  | none => s
  | some l =>
    let w := cpWho d l.ctx
    if !l.span || !l.begun || l.ending.isSome || l.noSteal then s
    else match l.stolen with
      | some (a, b) =>
        match s.writeWord w kAtomic (l.word 6).toNat (rangeWord a b) with
        | .ok _ s => s.onLaunch d no fun l => { l with stolen := none }
        | r => r.orKeep s
      | none =>
        match s.readWord w kLoad (l.word 6).toNat with
        | .ok own s0 =>
          if nextOf own < endOf own then s
          else
            let g := groupOf l.group
            let rd := fun (i : Nat) => (s0.readWord w kLoad ((l.word 7).toNat + 8 * i)).val.bind fun p => (s0.readWord w kAtomic p.toNat).val
            let sizes := (upFrom 0 g.length).filterMap fun i =>
              if g[i]? = some d then none else (rd i).map fun v => (i, endOf v - nextOf v)
            let best := sizes.foldl (fun (b : Nat × Nat) x => if b.2 < x.2 then x else b) (0, 0)
            if best.2 < 2 then s0.onLaunch d no fun l => { l with noSteal := true }
            else
              match (s0.readWord w kLoad ((l.word 7).toNat + 8 * best.1)).bind fun p s => s.rmw w p 8 false fun v =>
                  let x := BitVec.ofNat 64 v
                  (rangeWord (nextOf x) (nextOf x + (endOf x - nextOf x + 1) / 2)).toNat with
              | .ok v s =>
                let x := BitVec.ofNat 64 v
                s.onLaunch d no fun l => { l with stolen := some (nextOf x + (endOf x - nextOf x + 1) / 2, endOf x) }
              | r => r.orKeep s
        | r => r.orKeep s

/-- STEAL (R48). -/
def execSteal (d l : Nat) (s : State) : Host.Outcome State Fault Refusal := onUnit (d < 4) (s.stealStep d l)

/-- Stage-0 indices of a launch remain on a die (R44). -/
def State.indicesLeft (s : State) (d : Nat) (l : Launch) : Bool :=
  if l.span then
    l.stolen.isSome || match (s.readWord (cpWho d l.ctx) kLoad (l.word 6).toNat).val with
      | some v => decide (nextOf v < endOf v)
      | none => false
  else decide (l.limit < l.n)

/-- The tile is closed to a launch by another launch's barriers (R218, R309). -/
def State.barsFree (s : State) (d t : Nat) (l : Launch) : Bool :=
  l.bars.all fun b => match (s.bar (24 * d + t) b.1).owner with
    | some o => o == l.no
    | none => true

/-- The launch has a slot on a tile of its die. -/
def State.slotsOn (s : State) (d t : Nat) (no : Nat) : List Nat :=
  ((s.die d).assign.filter fun a => a.1 / 8 == 24 * d + t && a.2.1 == no).map (·.1)

/-- A tile is of a launch's class (R45): latency launches have the reserved tiles, bulk launches the others, and borrow a reserved
one while it is idle. -/
def State.classOk (s : State) (d t : Nat) (l : Launch) : Bool :=
  l.admits t && (if l.latency then s.reserved d t else !s.reserved d t || s.tileIdle d t)

/-- A launch's share of the slots of a tile (R309). -/
def State.share (s : State) (d t : Nat) (l : Launch) : Nat :=
  let ls := (s.running d).filter fun x => x.latency == l.latency && s.classOk d t x && s.barsFree d t x
  let i := (ls.takeWhile fun x => x.no != l.no).length
  8 / ls.length + if i < 8 % ls.length then 1 else 0

/-- A slot that a launch may be given: unassigned, or on a reserved tile lent to a bulk launch (R45, R46). -/
def State.freeSlot (s : State) (d t : Nat) (l : Launch) : Option Nat :=
  (upFrom (8 * (24 * d + t)) 8).find? fun k => match Tab.find (s.die d).assign k with
    | none => true
    | some (no, _) => l.latency && !s.latency d no

/-- A launch receives a slot for a stage; the first on a tile sets up its barriers there, and its fused L1 (R33, R218). -/
def State.giveSlot (s : State) (d no st k : Nat) : State :=
  let t := k / 8
  let s := match s.launch d no with
    | none => s
    | some l =>
      if l.tiles.contains t then s
      else
        let s := if l.fused then (upFrom (t / 6 * 6) 6).foldl (fun (s : State) u => s.flushL1 u [1, 2]) s else s
        let s := l.bars.foldl (fun (s : State) (b : Nat × Nat) => s.setBar t b.1 { owner := some no, count := b.2 }) s
        s.onLaunch d no fun l => { l with tiles := t :: l.tiles }
  s.onDie d fun x => { x with assign := Tab.put x.assign k (no, st) }

/-- Slots for one stage of a launch, on the lowest tile that can give one (R309 step 4). -/
def State.oneSlot (s : State) (d : Nat) (l : Launch) (st : Nat) : State :=
  match (upFrom 0 24).findSome? fun t =>
      if s.classOk d t l && s.barsFree d t l then s.freeSlot d t l else none with
  | some k => s.giveSlot d l.no st k
  | none => s

/-- A launch takes the slots that are free to it: one per stage, then stage 0's on every tile up to its share (R309). -/
def State.takeSlots (s : State) (d : Nat) (l : Launch) : State :=
  let s := (upFrom 0 l.stages.length).foldl (fun s st =>
    if (s.die d).assign.any fun a => a.2.1 == l.no && a.2.2 == st then s else s.oneSlot d l st) s
  (upFrom 0 192).foldl (fun s i =>
    let t := i / 8
    if s.classOk d t l && s.barsFree d t l && (s.slotsOn d t l.no).length < s.share d t l then
      match s.freeSlot d t l with
      | some k => s.giveSlot d l.no 0 k
      | none => s
    else s) s

/-- Free slots of a die go to its launches in order of start (R309). -/
def State.allot (s : State) (d : Nat) : State := (s.running d).foldl (fun s l => s.takeSlots d l) s

/-- A stage has work waiting: items in its queue, indices, or ready strands (R44). -/
def State.stageWork (s : State) (d : Nat) (l : Launch) (st : Nat) : Bool :=
  match l.stages[st]? with
  | some g => !g.queue.isEmpty || !g.ready.isEmpty || (st == 0 && s.indicesLeft d l)
  | none => false

/-- A queue's fill in parts of 4096 (R44). -/
def Launch.fill (l : Launch) (st : Nat) : Int :=
  match l.stages[st]? with
  | some g => (g.queue.length * 4096 / l.depth st : Nat)
  | none => 0

/-- score(s) of a stage in parts of 4096 (R44). -/
def State.score (s : State) (d : Nat) (l : Launch) (st : Nat) : Int :=
  (if st = 0 then (if s.indicesLeft d l then 4096 else 0) else l.fill st) -
    (if st + 1 = l.stages.length then 0 else l.fill (st + 1))

/-- The slots of a stage on a die. -/
def State.stageSlots (s : State) (d no st : Nat) : List Nat :=
  ((s.die d).assign.filter fun a => a.2.1 == no && a.2.2 == st).map (·.1)

/-- A slot of a tile that a stage may give up (R44): an idle one first; a stage with work keeps its last. -/
def State.spare (s : State) (d : Nat) (l : Launch) (st t : Nat) : Option Nat :=
  let all := s.stageSlots d l.no st
  let here := all.filter fun k => k / 8 % 24 == t
  if all.length ≤ 1 && s.stageWork d l st then none
  else (here.find? fun k => (s.strand k).isNone).or here.head?

/-- Give a slot to another stage or launch; a strand in it stays until its next suspension point (R44). -/
def State.reassign (s : State) (d k : Nat) (no st : Nat) : State := s.giveSlot d no st k

/-- The scores of the stages of a launch. -/
def State.scores (s : State) (d : Nat) (l : Launch) : List (Nat × Int) :=
  (upFrom 0 l.stages.length).map fun st => (st, s.score d l st)

/-- The stage that gives up a slot before the others of a list (R44): the lowest score, and of equal ones the highest number. -/
def lowest (sc : List (Nat × Int)) : Nat :=
  (sc.foldl (fun (b : Nat × Int) x => if x.2 ≤ b.2 then x else b) (sc.headD (0, 0))).1

/-- The stage that receives a slot before the others of a list (R44): the highest score, and of equal ones the lowest number. -/
def highest (sc : List (Nat × Int)) : Nat :=
  (sc.foldl (fun (b : Nat × Int) x => if b.2 < x.2 then x else b) (sc.headD (0, 0))).1

/-- A stage with work and no slot receives one within the interval (R49): of the stage of lowest score that can spare one, on a tile
where no slot has moved; the tiles used. -/
def State.serve (s : State) (d : Nat) (l : Launch) : State × List Nat :=
  (upFrom 0 l.stages.length).foldl (fun (s, used) st =>
    if s.stageWork d l st && (s.stageSlots d l.no st).isEmpty then
      let sc := (s.scores d l).filter fun x => x.1 != st
      let order := (upFrom 0 sc.length).foldl (fun (acc : List Nat × List (Nat × Int)) _ =>
        (acc.1 ++ [lowest acc.2], acc.2.filter fun x => x.1 != lowest acc.2)) ([], sc)
      let k := order.1.findSome? fun o => (upFrom 0 24).findSome? fun t => if used.contains t then none else s.spare d l o t
      match k with
      | some k => (s.reassign d k l.no st, slotTile k % 24 :: used)
      | none => (s, used)
    else (s, used)) (s, [])

/-- The stages of a launch with their slots rebalanced (R44): from the lowest score to the highest, one slot per tile. Where every
stage has the same score none moves: the spec's tie rule would name a giver and a receiver there too (DESIGN CHOICE, log 64). -/
def State.balance (s : State) (d : Nat) (l : Launch) : State :=
  let (s, used) := s.serve d l
  let sc := s.scores d l
  if sc.all fun x => x.2 == (sc.headD (0, 0)).2 then s
  else (upFrom 0 24).foldl (fun s t => if used.contains t then s else match s.spare d l (lowest sc) t with
    | some k => s.reassign d k l.no (highest sc)
    | none => s) s

/-- Each launch above its share of a tile gives one slot there to a launch below it (R309). -/
def State.evenOut (s : State) (d t : Nat) : State :=
  let ls := fun (s : State) => (s.running d).filter fun l => s.classOk d t l && s.barsFree d t l
  let n := fun (s : State) (l : Launch) => (s.slotsOn d t l.no).length
  (ls s).foldl (fun s x =>
    if n s x ≤ s.share d t x then s
    else
      let y := (ls s).find? fun y => y.latency == x.latency && decide (n s y < s.share d t y)
      let k := (upFrom 0 x.stages.length).findSome? fun st => s.spare d x st t
      match y, k with
      | some y, some k =>
        s.reassign d k y.no (((upFrom 0 y.stages.length).find? fun st => (s.stageSlots d y.no st).isEmpty).getD 0)
      | _, _ => s) s

/-- The rebalance interval in units of package time (R44): 4096 clk. -/
def rebalancePeriod : Nat := 4096 * 81920

/-- The reserve mask in its register comes into force (R45): latency strands leave the tiles that left the set. -/
def State.newMask (s : State) (d : Nat) : State :=
  let m := BitVec.ofNat 24 (bits (s.reg d 0x400) 0 24)
  let gone := fun t : Nat => (s.die d).mask.getLsbD t && !m.getLsbD t
  let s := s.displace d fun k st => gone (slotTile k % 24) && s.latency d st.id.launch
  s.onDie d fun x =>
    { x with
      mask := m
      assign := x.assign.filter fun a => !(gone (a.1 / 8 % 24) && s.latency d a.2.1) }

/-- REBALANCE (R44, R45, R309). The one slot per tile and interval is counted for each launch apart, and apart from the moves of R309
(DESIGN CHOICE, log 93). -/
def execRebalance (d : Nat) (s : State) : Host.Outcome State Fault Refusal :=
  onUnit (d < 4) (
    if s.time < (s.die d).nextReb then s
    else
      let s := s.onDie d fun x => { x with nextReb := (s.time / rebalancePeriod + 1) * rebalancePeriod }
      let s := (s.newMask d).allot d
      let s := (upFrom 0 24).foldl (fun s t => s.evenOut d t) s
      (s.running d).foldl (fun s l => s.balance d l) s)

/-- RESERVE_MASK_WRITE (R45): in force from the next rebalance interval. -/
def execReserveMaskWrite (d : Nat) (v : BitVec 24) (s : State) : Host.Outcome State Fault Refusal :=
  onUnit (d < 4) (s.setReg d 0x400 (v.zeroExtend 64))

/-- HANDLER_STRAND_CREATE (R366): for the oldest record not yet handed over, where no handler strand of the launch runs. -/
def execHandlerStrandCreate (d l : Nat) (s : State) : Host.Outcome State Fault Refusal :=
  onUnit (d < 4) (match s.launch d l with
    | none => s
    | some x =>
      if x.hrun.isSome || x.hseq ≤ x.hnext || x.ending.isSome || x.word 4 = 0 then s
      else
        let n := x.hnext
        let uid := s.newUid d
        let i : Ident :=
          { uid := uid, launch := l, stage := 0, handler := true, crec := x.word 5 + 4032, sid := wordOf [(d, 34), (n % 2 ^ 32, 0)] }
        let t := s.onDie d fun y => { y with nextU := y.nextU + 1 }
        let t := t.onLaunch d l fun y => { y with hnext := n + 1, hrun := some n }
        match t.newStrand d l x i (x.word 4) (x.word 5 + 2048) (x.word 5 + BitVec.ofNat 64 (64 * (n % 32))) (BitVec.ofNat 64 n) with
        | .ok _ t => t
        | r => r.orKeep s)

/-- Every strand that a launch created has ended (R310, R315): none stands in a slot, a list or a wait. -/
def State.strandsDone (s : State) (d : Nat) (l : Launch) : Bool :=
  (s.slotsOf d l.no).isEmpty && l.blocked.isEmpty && l.stopped.isEmpty && l.hrun.isNone && l.hseq == l.hnext &&
    l.stages.all fun g => g.ready.isEmpty && g.queue.isEmpty && g.freeF.length == g.nextF

end Sys2Proof.Machine
end

