-- ==== Sys2Proof/Machine/Queue.lean ====
section
/-! DEFINITION. Command queues (R300 to R303, R420): wakes, mapping and unmapping, broken queues, wait states with their
mirror (R423, R425), the acceptance of records (R305 to R308, R318, R427), and the mailbox (R317). -/

namespace Sys2Proof.Machine

/-- The die runs (R435). -/
def State.dieUp (s : State) (d : Nat) : Bool := (s.die d).state == 3

/-- A queue slot of a die. -/
def State.qslot (s : State) (d c : Nat) : Option QSlot := Tab.find (s.die d).qslots c

/-- Change a queue slot, where a queue occupies it. -/
def State.onQslot (s : State) (d c : Nat) (f : QSlot → QSlot) : State :=
  match s.qslot d c with
  | none => s
  | some q => s.onDie d fun x => { x with qslots := Tab.put x.qslots c (f q) }

/-- The KIND of a record (R305). -/
def recKind (ws : List Word) : Nat := bits (ws.getD 0 0) 0 8
/-- FOOTN of a record (R305). -/
def recFootn (ws : List Word) : Nat := bits (ws.getD 0 0) 48 5
/-- TAG of a record (R305). -/
def recTag (ws : List Word) : Nat := bits (ws.getD 0 0) 16 16
/-- SIGEN of a record (R305). -/
def recSigen (ws : List Word) : Bool := (ws.getD 0 0).getLsbD 10

/-- TAIL of a queue, as last latched (R300). -/
def State.qtail (s : State) (d q : Nat) : Nat := bits (s.qdesc d q 2) 32 32

/-- Write HEAD to a queue's descriptor (R303). -/
def State.putHead (s : State) (d q h : Nat) : State := s.setQdesc d q 2 (putBits (s.qdesc d q 2) 0 32 h)

/-- Two footprints give an edge (R312). -/
def footEdge (a b : List (Word × Word)) : Bool :=
  a.any fun x => b.any fun y => (x.1.getLsbD 63 || y.1.getLsbD 63) &&
    meets (bits x.1 0 56, x.2.toNat) (bits y.1 0 56, y.2.toNat)

/-- A Wait record whose condition has not held yet (R307). -/
def Rec.waits (r : Rec) : Bool := recKind r.words == 2 && r.done == 0

/-- A Boundary record that has started and not written GO (R307). -/
def Rec.boundary (r : Rec) : Bool := recKind r.words == 4 && r.started && !r.gone && r.done == 0

/-- What holds the start of a record behind earlier ones (R307), as the KIND of R423; 0 for the limit on records in
flight; none where it may start. -/
def startWhy (ws : List Word) (foot : List (Word × Word)) (rs : List Rec) : Option Nat :=
  if rs.any Rec.waits then some 1
  else if (ws.getD 0 0).getLsbD 9 && !rs.isEmpty then some 2
  else if rs.any fun r => footEdge r.foot foot then some 2
  else if recKind ws = 1 && rs.any fun r => recKind r.words == 1 then some 3
  else if 8 ≤ rs.length then some 0 else none

/-- What a record of a queue slot waits for (R423): an operator that has begun, for slots; one that has not, for what holds it. -/
def Rec.waitKind (x : Die) (busy : Bool) (rs : List Rec) (r : Rec) : Nat :=
  if r.waits then 1
  else if r.boundary then (if busy then 4 else 0)
  else if recKind r.words = 1 && r.done = 0 then
    match r.launch with
    | some no => if x.assign.any fun a => a.2.1 == no then 0 else 3
    | none => (startWhy r.words r.foot (rs.filter fun y => y.idx != r.idx)).getD 0
  else 0

/-- KIND of a queue slot and the index of the record that waits: the first in the ring that does, or a record held at HEAD (R423). -/
def QSlot.waiting (x : Die) (busy : Bool) (q : QSlot) : Nat × Nat :=
  match q.recs.find? fun r => r.waitKind x busy q.recs != 0 with
  | some r => (r.waitKind x busy q.recs, r.idx)
  | none => (if q.held = some q.head && !q.recs.isEmpty then 2 else 0, q.head)

/-- The wait state of a queue slot as it is now (R423): SINCE is when its KIND began, which each mapping begins anew (DEDUCED, log 90). -/
def QSlot.asNow (x : Die) (busy : Bool) (ns : Nat) (q : QSlot) : QSlot :=
  let (kind, i) := q.waiting x busy
  if q.kind = kind then { q with waiter := i } else { q with kind := kind, waiter := i, since := ns, barked := false }

/-- The wait states of the queue slots of a die follow what their records wait for (R423). -/
def State.kinds (s : State) (d : Nat) : State :=
  let busy := (s.reg d 0x228).getLsbD 1
  s.onDie d fun x => { x with qslots := x.qslots.map fun (e : Nat × QSlot) => (e.1, e.2.asNow x busy (s.ns d)) }

/-- The four wait-state words of a queue slot (R423). -/
def QSlot.waitWords (q : QSlot) : List Word :=
  let ws := match if q.kind = 1 then q.recs.find? fun r => r.idx == q.waiter else none with | some r => r.words | none => []
  [wordOf [(q.kind, 60), (bits (ws.getD 3 0) 0 3, 56), (bits (ws.getD 1 0) 0 56, 0)], ws.getD 2 0,
    BitVec.ofNat 64 q.since, wordOf [(q.waiter % 2 ^ 32, 32), (1, 12), (q.q, 0)]]

/-- Write one entry of the wait-state mirror where it has changed; a fault ends mirroring (R423). -/
def State.mirrorPut (s : State) (d q : Nat) (ws : List Word) : State :=
  let va := bits (s.reg d 0xD08) 12 44 * 4096
  if va = 0 || Tab.find (s.die d).mirror q = some ws then s
  else
    match s.writeVa (cpWho d (bits (s.reg d 0xD18) 16 16)) kStore (va + 32 * q) (wordBytes ws) with
    | .ok _ s => s.onDie d fun x => { x with mirror := Tab.put x.mirror q ws }
    | .flt f s =>
      (s.setReg d 0xD08 0).hostFault d { cls := 9, code := 9, addr := f.addr, info := BitVec.ofNat 64 q, src := 4 }
    | .wait _ _ s => s

/-- What the mirror is to hold of a queue that no slot holds (R420, R423): the state of a broken queue; else its last state, which a
bind of a broken queue ends, with MAPPED 0. -/
def State.unmappedWords (s : State) (d q : Nat) : List Word :=
  let old := Tab.getD (s.die d).mirror q []
  if (s.die d).broken.contains q then
    let (ns, head) := Tab.getD (s.die d).brokeAt q (0, 0)
    [wordOf [(5, 60)], 0, BitVec.ofNat 64 ns, wordOf [(head % 2 ^ 32, 32), (q, 0)]]
  else if bits (old.getD 0 0) 60 4 = 5 then [0, 0, BitVec.ofNat 64 (s.ns d), BitVec.ofNat 64 q]
  else [old.getD 0 0, old.getD 1 0, old.getD 2 0, putBits (old.getD 3 0) 12 1 0]

/-- The mirror follows the queue slots and the broken queues (R423): a queue that has left its slot keeps its last entry with MAPPED
0. -/
def State.mirrorOut (s : State) (d : Nat) : State :=
  if bits (s.reg d 0xD08) 12 44 = 0 then s
  else
    let qs := (s.die d).qslots.filter fun e => e.1 < 128
    let s := qs.foldl (fun s e => s.mirrorPut d e.2.q e.2.waitWords) s
    (dedup ((s.die d).mirror.map (·.1) ++ (s.die d).broken)).foldl (fun s q =>
      if qs.any fun x => x.2.q == q then s else s.mirrorPut d q (s.unmappedWords d q)) s

/-- The wait states and their mirror as they are now (R423). -/
def State.showWaits (s : State) (d : Nat) : State := (s.kinds d).mirrorOut d

/-- An act of the command processor of a die that runs, followed by its wait states. -/
def cpAct (d : Nat) (s : State) (f : State → State) : Host.Outcome State Fault Refusal :=
  onUnit (d < 4) (if s.dieUp d then (f (s.retireAgain d)).showWaits d else s)

/-- The number under which a broken queue's records end (R420). -/
def brokenKey (q : Nat) : Nat := 1000 + q

/-- The current bank of a launch context (R311): the running launch, or the last one. -/
def State.currentBank (s : State) (d c : Nat) : List Word :=
  match (s.die d).launches.find? fun e => e.2.cslot == c with
  | none => Tab.getD (s.die d).banks c []
  | some (_, l) => match (s.qslot d c).bind fun q => q.recs.find? fun r => r.launch == some l.no with
    | none => []
    | some r => l.bank (r.words.getD 2 0) (l.ending.getD 0) true

/-- A queue becomes broken (R420): it leaves its slot, its records in flight retire with STATUS 0x04, and the host fault
queue is told. -/
def State.breakQueue (s : State) (d c : Nat) : State :=
  match s.qslot d c with
  | none => s
  | some qs =>
    if 128 ≤ c then s
    else
      let key := brokenKey qs.q
      let slot := { qs with bad := false, leaving := none, recs := qs.recs.map fun r => { r with abort := if r.done = 0 then 4 else r.done } }
      let bank := s.currentBank d c
      let s := (s.remapOut d qs.q).onDie d fun x =>
        { x with
          qslots := Tab.put (Tab.del x.qslots c) key slot
          banks := Tab.put x.banks c bank
          broken := insertNat x.broken qs.q
          brokeAt := Tab.put x.brokeAt qs.q (s.ns d, qs.head)
          early := x.early.filter fun e => e.1 != qs.q
          launches := x.launches.map fun e => if e.2.cslot = c then (e.1, { e.2 with cslot := key }) else e
          copies := x.copies.map fun e => (e.1, { e.2 with job := e.2.job.map fun j => if j.1 = c then (key, j.2) else j })
          gov := x.gov.map fun j => if j.1 = c then (key, j.2) else j }
      let s := qs.recs.foldl (fun s r =>
        match r.launch with
        | some no => s.stopSpan d no 4
        | none =>
          let runs := recKind r.words = 5 || recKind r.words = 4
          if runs && r.started then s else s.retireRec d key r.idx 4) s
      s.hostFault d { cls := 9, code := 1, info := BitVec.ofNat 64 qs.q, src := 4 }

/-- The queue slot that a queue holds. -/
def State.slotOfQueue (s : State) (d q : Nat) : Option Nat :=
  ((s.die d).qslots.find? fun e => e.1 < 128 && e.2.q == q).map (·.1)

/-- A queue becomes broken, mapped or not (R420, R426). -/
def State.breakAny (s : State) (d q : Nat) : State :=
  match s.slotOfQueue d q with
  | some c => s.breakQueue d c
  | none =>
    ((s.remapOut d q).onDie d fun x => { x with
      broken := insertNat x.broken q
      brokeAt := Tab.put x.brokeAt q (s.ns d, bits (s.qdesc d q 2) 0 32)
      early := x.early.filter fun e => e.1 != q }).hostFault d { cls := 9, code := 1, info := BitVec.ofNat 64 q, src := 4 }

/-- The ring or the descriptor of a queue lies behind a host port that is down, or its descriptor cannot be reached (R420, R428). -/
def State.ringLost (s : State) (d q : Nat) : Bool :=
  s.qdescCut d q || match s.locate (cpWho d (s.qctx d q)) kLoad (s.qdesc d q 0).toNat 8 with
    | .flt f _ => f.code == 0x18
    | _ => false

/-- CQ_WAKE_WRITE (R301). -/
def execCqWakeWrite (d q : Nat) (v : BitVec 32) (s : State) : Host.Outcome State Fault Refusal :=
  onUnit (d < 4 ∧ q < 4096) (if s.dieUp d then s.wake d q v else s)

/-- The command processor reads queues (R304). -/
def State.cqOn (s : State) (d : Nat) : Bool := (s.reg d 0x308).getLsbD 0

/-- The lowest hardware queue slot that is free (R302). -/
def State.freeQslot (s : State) (d : Nat) : Option Nat := (upFrom 0 128).find? fun c => (s.qslot d c).isNone

/-- Give a queue slot to a queue of the remap list (R302). -/
def State.mapQueue (s : State) (d c q : Nat) : State :=
  let slot : QSlot := { q := q, at_ := s.time, head := bits (s.qdesc d q 2) 0 32, since := s.ns d }
  let s := (s.remapOut d q).onDie d fun x => { x with qslots := Tab.put x.qslots c slot }
  if s.qdescBad d q then s.breakQueue d c else s

/-- Give a queue slot to the head of the remap list (R302). -/
def State.mapHead (s : State) (d c : Nat) : State :=
  match (s.die d).remap with
  | [] => s
  | q :: _ => s.mapQueue d c q

/-- QUEUE_MAP (R302). -/
def execQueueMap (d : Nat) (s : State) : Host.Outcome State Fault Refusal :=
  cpAct d s fun s => match s.cqOn d, s.freeQslot d with
    | true, some c => s.mapHead d c
    | _, _ => s

/-- PEND is read and cleared (R303 step 2): what it was. -/
def State.takePend (s : State) (d q : Nat) : Bool × State :=
  let w := s.qdesc d q 3
  if w.getLsbD 0 then (true, s.setQdesc d q 3 (putBits w 0 1 0)) else (false, s)

/-- A queue leaves its slot (R303 step 3): HEAD, back to a Wait record that is still in flight, is written to its descriptor; the
records behind it that have retired are not read again. -/
def State.unmapSlot (s : State) (d c : Nat) (q : QSlot) : State :=
  let head := match q.recs with
    | r :: _ => r.idx
    | [] => q.head
  let past := (upFrom 0 ((q.head + 2 ^ 32 - head) % 2 ^ 32)).map fun i => (head + i) % 2 ^ 32
  let past := past.filter fun i => !q.recs.any fun r => r.idx == i
  (s.putHead d q.q head).onDie d fun x =>
    { x with qslots := Tab.del x.qslots c, early := x.early ++ past.map fun i => (q.q, i) }

/-- Steps 1 and 2 of R303: the slot fetches no more, and PEND is read and cleared. -/
def State.beginUnmap (s : State) (d c : Nat) (q : QSlot) (forced : Option Nat) : State :=
  (s.takePend d q.q).2.onQslot d c fun x => { x with leaving := some forced }

/-- The queue has work left at step 4 of R303: VALUE is not HEAD, or PEND is 1. -/
def State.leftWork (s : State) (d q : Nat) : Bool :=
  bits (s.qdesc d q 3) 32 32 != bits (s.qdesc d q 2) 0 32 || (s.qdesc d q 3).getLsbD 0

/-- Steps 3 and 4 of R303: the queue leaves its slot, which after a forced unmap goes to the queue that stood at the head of the
remap list (R302); with work left the queue goes to the head of that list. -/
def State.endUnmap (s : State) (d c : Nat) (q : QSlot) (forced : Option Nat) : State :=
  let s := s.unmapSlot d c q
  let s := match forced with
    | some p => if (s.die d).remap.contains p then s.mapQueue d c p else s
    | none => s
  if s.leftWork d q.q then s.remapIn d q.q true else s

/-- QUEUE_UNMAP (R302, R303, R420): an idle queue begins to leave its slot once its wake has been consumed, and one that has begun
leaves it; a queue whose ring could not be written breaks; a broken queue whose records have ended is forgotten. -/
def execQueueUnmap (d c : Nat) (s : State) : Host.Outcome State Fault Refusal :=
  cpAct d s fun s => match s.qslot d c with
    | none => s
    | some q =>
      if 128 ≤ c then (if q.recs.isEmpty then s.onDie d fun x => { x with qslots := Tab.del x.qslots c } else s)
      else if q.bad || s.qdescBad d q.q then s.breakQueue d c
      else match q.leaving with
        | some p => s.endUnmap d c q p
        | none =>
          if !q.recs.isEmpty || s.qtail d q.q != q.head then s
          else if (s.qdesc d q.q 3).getLsbD 0 then (s.takePend d q.q).2
          else s.beginUnmap d c q none

/-- A mapped queue may be unmapped by force (R302): nothing of it is in flight but a Wait record. An operator that has been expanded
and has not started is not in flight; a record whose STATUS is still to be written is. -/
def QSlot.eligible (q : QSlot) : Bool :=
  match q.recs.filter (·.started) with
  | [] => true
  | [r] => r.waits
  | _ => false

/-- FORCED_UNMAP (R302, R303): the longest-mapped eligible queue begins to give its slot to the head of the remap list. -/
def execForcedUnmap (d : Nat) (s : State) : Host.Outcome State Fault Refusal :=
  cpAct d s fun s =>
    let quantum := max 1 (bits (s.reg d 0x308) 16 16)
    let es := (s.die d).qslots.filter fun e => e.1 < 128 && e.2.eligible && !e.2.bad && e.2.leaving.isNone
    let oldest := es.foldl (fun (b : Option (Nat × QSlot)) e => match b with
      | none => some e
      | some x => if e.2.at_ < x.2.at_ then some e else b) none
    match oldest with
    | none => s
    | some (c, q) =>
      if !s.cqOn d || (s.freeQslot d).isSome || s.time < q.at_ + quantum * 1000 * 65536 ||
          (s.die d).qslots.any fun e => e.2.leaving.isSome then s
      else match (s.die d).remap with
        | [] => s
        | p :: _ => if s.qdescBad d q.q then s.breakQueue d c else s.beginUnmap d c q (some p)

/-- The fields of a record that must be zero, and the refusals of its addresses (R305). -/
def recBad (ws : List Word) : Bool :=
  let w0 := ws.getD 0 0
  let k := recKind ws
  let w := fun i : Nat => (ws.getD i 0).toNat
  let zero := fun l : List Nat => l.all fun i => w i == 0
  bits w0 53 11 != 0 || bits w0 32 16 != 0 || bits w0 11 5 != 0 || w0.getLsbD 8 || 16 < recFootn ws ||
    (recSigen ws && w 7 % 8 != 0) || (recFootn ws != 0 && k != 1 && k != 5) ||
    match k with
    | 1 => recFootn ws != 0 && w 5 % 16 != 0
    | 2 => !zero [4, 5] || 3 < w 3 || w 1 % 8 != 0 || offMemory (w 1) 8
    | 3 => !zero [4, 5] || 2 < w 3 || w 1 % 8 != 0 || offMemory (w 1) 8
    | 4 => !zero [2, 3, 4, 5] || 0xFFFF < w 1
    | 5 => !zero [2, 3, 4] || (recFootn ws != 0 && w 5 % 16 != 0)
    | 6 => !zero [1, 2, 3, 4, 5]
    | _ => true

/-- Some region granted to a context covers bytes with the permission needed (R318), of a length of 0 the address itself; else the
capability that covers them without it, 0 where none does. -/
def State.capFault (s : State) (d ctx : Nat) : List (Nat × Nat × Bool) → Option Nat
  | [] => none
  | (a, n, wr) :: l =>
    let cs := (s.die d).caps.filter fun c => !c.2.ring && c.2.ctx == ctx && c.2.base ≤ a && a + max n 1 ≤ c.2.base + c.2.bytes
    if cs.any fun c => if wr then c.2.wr else c.2.rd then s.capFault d ctx l
    else some (match cs with | c :: _ => c.1 | [] => 0)

/-- What acceptance finds: it goes on; the record retires at once with a status (and the CAPID of R427); the queue breaks;
or a translation is awaited. -/
inductive Acc (α : Type) where
  | ok (a : α) (s : State)
  | out (status cap : Nat) (s : State)
  | broke (s : State)
  | wait (s : State)

/-- Continue an acceptance. -/
def Acc.bind {α β : Type} : Acc α → (α → State → Acc β) → Acc β
  | .ok a s, f => f a s
  | .out n c s, _ => .out n c s
  | .broke s, _ => .broke s
  | .wait s, _ => .wait s

/-- A read of a record, descriptor or list by the command processor (R417). -/
def Acc.read {α : Type} : Res α → Acc α
  | .ok a s => .ok a s
  | .flt _ s => .broke s
  | .wait _ _ s => .wait s

/-- The checks of R318 on addresses. -/
def State.needs (s : State) (d ctx : Nat) (l : List (Nat × Nat × Bool)) : Acc Unit :=
  match s.capFault d ctx l with
  | some c => .out 6 c s
  | none => .ok () s

/-- A rule of the chapter is broken (R305). -/
def State.refuseIf (s : State) (b : Bool) : Acc Unit := if b then .out 2 0 s else .ok () s

/-- The entries of a footprint list as base with W, and length (R312). -/
def feetOf : List Word → List (Word × Word)
  | a :: b :: l => (a, b) :: feetOf l
  | _ => []

/-- The footprint of an operator or Transfer record (R312): without entries it reads and writes every byte. -/
def State.readFoot (s : State) (d ctx : Nat) (ws : List Word) : Acc (List (Word × Word)) :=
  let n := recFootn ws
  if n = 0 then .ok [(0x8000000000000000, BitVec.ofNat 64 (2 ^ 57)), (0, BitVec.ofNat 64 (2 ^ 57))] s
  else
    (s.needs d ctx [((ws.getD 5 0).toNat, 16 * n, false)]).bind fun _ s =>
    (Acc.read (s.readWords (cpWho d ctx) kLoad (ws.getD 5 0).toNat (2 * n))).bind fun l s =>
      let f := feetOf l
      (s.refuseIf (f.any fun e => bits e.1 56 7 != 0 || bits e.2 48 16 != 0)).bind fun _ s =>
      (s.needs d ctx (f.map fun e => (bits e.1 0 56, e.2.toNat, false))).bind fun _ s => .ok f s

/-- The needs that every record has (R318): its SIGNAL word, and the word that a Wait or Signal record names. -/
def recNeeds (ws : List Word) : List (Nat × Nat × Bool) :=
  (if recSigen ws then [((ws.getD 7 0).toNat, 8, true)] else []) ++
    if recKind ws = 2 ∨ recKind ws = 3 then [((ws.getD 1 0).toNat, 8, true)] else []

/-- The words of a record that retires at acceptance as its signal is sent by: none to a SIGNAL address that no capability covers
(R305, R318). -/
def State.muted (s : State) (d ctx : Nat) (ws : List Word) : List Word :=
  if (s.capFault d ctx [((ws.getD 7 0).toNat, 8, true)]).isSome then ws.modify 0 fun w => putBits w 10 1 0 else ws

/-- HEAD of a queue slot moves past a record. -/
def State.passHead (s : State) (d c : Nat) : State := s.onQslot d c fun x => { x with head := (x.head + 1) % 2 ^ 32 }

/-- A capability that a record needs does not serve (R427). -/
def State.capReport (s : State) (d ctx cap tag : Nat) : State :=
  s.hostFault d { cls := 9, code := 5, info := wordOf [(ctx, 32), (cap % 2 ^ 32, 0)], src := 4 } tag

/-- The capability of a queue's ring is in use (R317, R427). -/
def State.ringCap (s : State) (d q : Nat) : Bool := (Tab.find (s.die d).caps (bits (s.qdesc d q 5) 0 32)).any (·.ring)

/-- A record retires at acceptance (R305, R318, R404): HEAD moves past it, its status is written, and 0x09/0x0005 reports a
capability (R427). -/
def State.refuseRec (s : State) (d c : Nat) (q : QSlot) (ws : List Word) (status cap : Nat) : State :=
  let ws := s.muted d (s.qctx d q.q) ws
  let s := s.passHead d c
  let s := if status = 6 then s.capReport d (s.qctx d q.q) cap (recTag ws) else s
  match s.statusOut d q.q q.head ws status with
  | .flt _ s => s.breakQueue d c
  | .ok _ s => s
  | .wait _ _ t => (s.keepWaits t).onQslot d c fun x =>
      { x with recs := x.recs ++ [{ idx := q.head, words := ws, started := true, done := status }] }

/-- A record joins the records of its slot. -/
def State.acceptRec (s : State) (d c : Nat) (r : Rec) : State :=
  s.onQslot d c fun x => { x with head := (x.head + 1) % 2 ^ 32, recs := x.recs ++ [r] }

/-- A flush of the queue is in progress (R426). -/
def State.flushing (s : State) (d q : Nat) : Bool :=
  match (s.die d).ctrl with
  | some (p, _) => p == q
  | none => false

/-- The next record of a queue slot, where the command processor may read one and its KIND is of the row (R300, R302,
R307, R420). `start` accepts it. A record of a queue whose context is not valid retires with STATUS 0x02 (R320), which cannot be
written through that context: the queue goes on with the next (log 57). So does one whose ring capability has been revoked, once it has
reported the record (R427, log 89); a record that has retired behind a Wait record is passed over (R303). -/
def State.recordStep (s : State) (d c : Nat) (kind : Nat → Bool) (start : QSlot → List Word → State → Acc State) : State :=
  match s.qslot d c with
  | none => s
  | some q =>
    if 128 ≤ c || !s.cqOn d || q.bad || q.leaving.isSome || s.flushing d q.q || q.recs.any (fun r => !r.started) then s
    else if s.qdescBad d q.q then s.breakQueue d c
    else if s.qtail d q.q = q.head then s
    else if (s.die d).early.contains (q.q, q.head) then
      (s.onDie d fun x => { x with early := x.early.erase (q.q, q.head) }).passHead d c
    else if (s.context d (s.qctx d q.q)).isNone then (s.takePend d q.q).2.passHead d c
    else if !s.ringCap d q.q then ((s.takePend d q.q).2.capReport d (s.qctx d q.q) (bits (s.qdesc d q.q 5) 0 32) 0).passHead d c
    else
      match s.readWords (cpWho d (s.qctx d q.q)) kLoad (s.recAddr d q.q q.head) 8 with
      | .wait _ _ t => s.keepWaits t
      | .flt _ s => s.breakQueue d c
      | .ok ws s1 =>
        if !kind (recKind ws) then s
        else
          let s1 := (s1.takePend d q.q).2
          let ctx := s1.qctx d q.q
          match (s1.refuseIf (recBad ws)).bind fun _ s =>
              (s.needs d ctx (recNeeds ws)).bind fun _ s => start q ws s with
          | .ok s _ => s
          | .out n cap s => s.refuseRec d c q ws n cap
          | .broke s => s.breakQueue d c
          | .wait t => s.keepWaits t

/-- The record waits behind earlier ones (R307, R423). -/
def State.holdRec (s : State) (d c : Nat) (kind : Nat) : Acc State :=
  .ok (if kind = 2 then s.onQslot d c fun q => { q with held := some q.head } else s) s

/-- The word of a Wait or Signal record lies across a partition (R404). -/
def State.cutOff (s : State) (d : Nat) (f : Flt) : Bool :=
  f.cls == 6 && f.code == 2 && bits f.info 48 16 == bits (s.reg d 0x900) 0 16 && !(s.half d).contains (bits f.info 46 2)

/-- A Wait or Signal word that cannot be read or written (R307, R404, R420): STATUS 0x05 across a partition, else 0x03 with
its report. -/
def State.wordFault (s : State) (d c idx : Nat) (ws : List Word) (f : Flt) : State :=
  if s.cutOff d f then s.retireRec d c idx 5
  else (s.hostFault d { f with src := 4, addr := ws.getD 1 0 } (recTag ws)).retireRec d c idx 3

/-- A Wait record tests its word (R307, R229). -/
def State.testWait (s : State) (d c : Nat) : State :=
  match s.qslot d c with
  | none => s
  | some q =>
    match q.recs.find? fun r => r.waits && q.leaving.isNone with
    | none => s
    | some r =>
      let va := r.words.getD 1 0
      match s.readSig (cpWho d (s.qctx d q.q)) va with
      | .wait _ _ t => s.keepWaits t
      | .flt f s => s.wordFault d c r.idx r.words f
      | .ok v s1 =>
        if condSig (r.words.getD 3 0).toNat v (r.words.getD 2 0) then s1.retireRec d c r.idx 1 else s

/-- WAIT (R307): the record starts and tests its word. -/
def execWait (d c : Nat) (s : State) : Host.Outcome State Fault Refusal :=
  cpAct d s fun s => s.recordStep d c (· == 2) fun q ws s =>
    match startWhy ws [] q.recs with
    | some k => s.holdRec d c k
    | none => .ok ((s.acceptRec d c { idx := q.head, words := ws, started := true }).testWait d c) s

/-- WAIT_RECORD_SATISFIED (R307). -/
def execWaitRecordSatisfied (d c : Nat) (s : State) : Host.Outcome State Fault Refusal := cpAct d s fun s => s.testWait d c

/-- A started Signal record updates its word once every earlier record has retired (R307, R228). -/
def State.doSignal (s : State) (d c : Nat) : State :=
  match s.qslot d c with
  | none => s
  | some q =>
    match q.recs with
    | r :: _ =>
      if recKind r.words ≠ 3 ∨ r.done ≠ 0 ∨ s.flushing d q.q then s
      else
        match s.rmw (cpWho d (s.qctx d q.q)) (r.words.getD 1 0) 8 false fun v =>
            (opSig (r.words.getD 3 0).toNat (BitVec.ofNat 64 v) (r.words.getD 2 0)).toNat with
        | .wait _ _ t => s.keepWaits t
        | .flt f s => s.wordFault d c r.idx r.words f
        | .ok _ s => s.retireRec d c r.idx 1
    | [] => s

/-- SIGNAL (R307): a started Signal record performs; else the next record starts. -/
def execSignal (d c : Nat) (s : State) : Host.Outcome State Fault Refusal :=
  cpAct d s fun s =>
    match (s.qslot d c).bind fun q => q.recs.head? with
    | some r =>
      if recKind r.words = 3 ∧ r.done = 0 then s.doSignal d c
      else s.recordStep d c (· == 3) fun q ws s => match startWhy ws [] q.recs with
        | some k => s.holdRec d c k
        | none => .ok (s.acceptRec d c { idx := q.head, words := ws, started := true }) s
    | none => s.recordStep d c (· == 3) fun q ws s =>
        .ok ((s.acceptRec d c { idx := q.head, words := ws, started := true }).doSignal d c) s

/-- A boundary starts (R289): GROUPS is written, BUSY is set, and the registers that a boundary reads at its start are
taken. -/
def State.goBoundary (s : State) (d groups : Nat) : State :=
  let s := (s.setField d 0x228 16 16 groups).setField d 0x228 1 1 1
  let v := [0x200, 0x208, 0x210, 0x218, 0x228].map (s.reg d)
  s.onDie d fun x => { x with gov := none, govIn := v }

/-- A started Boundary record that has not written GO does so once BUSY is 0 (R307). -/
def State.doBoundary (s : State) (d c : Nat) : State :=
  match (s.qslot d c).bind fun q => q.recs.find? Rec.boundary with
  | none => s
  | some r =>
    if (s.reg d 0x228).getLsbD 1 then s
    else
      let s := (s.goBoundary d (r.words.getD 1 0).toNat).onDie d fun x => { x with gov := some (c, r.idx) }
      s.onQslot d c fun q => { q with recs := q.recs.map fun y => if y.idx = r.idx then { y with gone := true } else y }

/-- BOUNDARY (R289, R307): the record starts; while GOV.BND_CTL.BUSY is 1 it waits, then GROUPS and GO are written. -/
def execBoundary (d c : Nat) (s : State) : Host.Outcome State Fault Refusal :=
  cpAct d s fun s =>
    if ((s.qslot d c).bind fun q => q.recs.find? Rec.boundary).isSome then s.doBoundary d c
    else s.recordStep d c (· == 4) fun q ws s =>
      match startWhy ws [] q.recs with
      | some k => s.holdRec d c k
      | none => .ok ((s.acceptRec d c { idx := q.head, words := ws, started := true }).doBoundary d c) s

/-- NOP (R307): retires at start. Records of a reserved KIND are refused here. -/
def execNop (d c : Nat) (s : State) : Host.Outcome State Fault Refusal :=
  cpAct d s fun s => s.recordStep d c (fun k => k == 6 || k == 0 || 6 < k) fun q ws s =>
    match startWhy ws [] q.recs with
    | some k => s.holdRec d c k
    | none => .ok (s.refuseRec d c q ws 1 0) s

/-- TRANSFER (R307, R316, R318, R327): the descriptor is read and checked, and goes to a transfer engine. -/
def execTransfer (d c : Nat) (s : State) : Host.Outcome State Fault Refusal :=
  cpAct d s fun s => s.recordStep d c (· == 5) fun q ws s =>
    let ctx := s.qctx d q.q
    let w := cpWho d ctx
    let va := (ws.getD 1 0).toNat
    (s.refuseIf (va % 64 != 0 || offMemory va 64)).bind fun _ s =>
    (s.needs d ctx [(va, 64, false)]).bind fun _ s =>
    (s.readFoot d ctx ws).bind fun foot s =>
    (Acc.read (s.readWords w kLoad va 8)).bind fun ds s =>
    (s.refuseIf (dKind ds != 3 || !descOk ds)).bind fun _ s =>
    (s.needs d ctx ([(wd ds 1, 1, false), (wd ds 2, 1, false), (wd ds 4, 4 * dNblk ds, false), (wd ds 5, 4 * dNblk ds, false)] ++
      (if wd ds 6 = 0 then [] else [(wd ds 6, 8, true)]) ++ if wd ds 7 = 0 then [] else [(wd ds 7, 128, false)])).bind fun _ s =>
      match startWhy ws foot q.recs with
      | some k => s.holdRec d c k
      | none =>
        match s.workOf w va ds with
        | .wait _ _ s => .wait s
        | .flt _ s => .out 3 0 s
        | .ok x s =>
          let s := s.acceptRec d c { idx := q.head, words := ws, foot := foot, started := true }
          .ok ((s.pinAll w [x]).placeCopy d
            { uid := 0, batch := 0, tile := 24 * d, ctx := ctx, eng := some (s.pickEngine d), work := [x], job := some (c, q.head) }) s

/-- TRANSFER_JOB_COMPLETE (R316, R327, R417): the first job of an engine has moved every block, and each write has been
acknowledged; a Transfer record retires, a cp.pages copy leaves its batch. -/
def execTransferJobComplete (d e : Nat) (s : State) : Host.Outcome State Fault Refusal :=
  cpAct d s fun s =>
    match Tab.getD (s.die d).engines e [] with
    | [] => s
    | j :: rest =>
      let next := fun (s : State) => s.onDie d fun x => { x with engines := Tab.put x.engines e rest }
      match Tab.find (s.die d).copies j with
      | none => next s
      | some c =>
        if !c.work.isEmpty || s.ownAcks (copyUid j) then s
        else match c.job with
          | none => (next s).copyDone d j c
          | some (qc, idx) =>
            let s := (next s).onDie d fun x => { x with copies := Tab.del x.copies j }
            s.retireRec d qc idx (if c.flt.isSome then 3 else 1)

/-- WDOG_EXPIRY (R425): reported once per wait. -/
def execWdogExpiry (d c : Nat) (s : State) : Host.Outcome State Fault Refusal :=
  cpAct d s fun s =>
    let limit := bits (s.reg d 0xD00) 0 32
    match s.qslot d c with
    | none => s
    | some q =>
      if limit = 0 || q.kind != 1 || q.barked || s.ns d ≤ q.since + 1000 * limit then s
      else
        let r := (q.recs.find? Rec.waits).map (·.words)
        let va := (r.getD []).getD 1 0
        (s.hostFault d { cls := 9, code := 3, info := wordOf [(bits va 3 53, 12), (q.q, 0)], src := 4 } (recTag (r.getD []))).onQslot
          d c fun q => { q with barked := true }

/-- The end of a mailbox command (R317). -/
def State.mboxDone (s : State) (d code capid : Nat) : State :=
  (s.setReg d 0x520 (wordOf [(capid % 2 ^ 32, 32), (code, 0)])).onDie d fun x => { x with mbox := none }

/-- A mailbox command that runs and is of one OP (R317). -/
def mboxAct (d op : Nat) (s : State) (f : State → State) : Host.Outcome State Fault Refusal :=
  cpAct d s fun s => if (s.die d).mbox = some op then f s else s

/-- A mailbox argument. -/
def State.mboxArg (s : State) (d i : Nat) : Word := s.reg d (0x508 + 8 * i)

/-- Revoked capabilities whose records have all retired are forgotten (R317, R318). -/
def State.sweepCaps (s : State) (d : Nat) : State :=
  let live := (s.die d).qslots.flatMap fun e => e.2.recs.map fun r => (e.2.q, r.idx)
  s.onDie d fun x => { x with revoked := x.revoked.filter fun c => c.2.any live.contains }

/-- A new capability, where there is space for it (R317). -/
def State.newCap (s : State) (d : Nat) (c : Cap) : Option (Nat × State) :=
  let s := s.sweepCaps d
  if 65536 ≤ (s.die d).caps.length + (s.die d).revoked.length then none
  else
    let n := (s.die d).nextCap
    some (n, s.onDie d fun x => { x with caps := Tab.put x.caps n c, nextCap := n + 1 })

/-- The words of the descriptor of a job. -/
def Work.words (x : Work) : List Word :=
  match x with
  | .pages ws _ _ _ => ws
  | .quant ws _ _ _ => ws
  | .ring ws _ _ _ => ws
  | .bytes _ _ _ => []

/-- The addresses of the batch table that an accepted operator names (R314, R318). -/
def State.batchAddrs (s : State) (ctx d : Nat) (r : Rec) : List Word :=
  if recKind r.words ≠ 1 ∨ r.words.getD 3 0 = 0 then []
  else ((s.readWords (cpWho d ctx) kLoad (r.words.getD 3 0).toNat 8).val.getD []).zipIdx.filterMap fun e =>
    if [1, 3, 5].contains e.2 then some e.1 else none

/-- A capability is revoked; its space stays in use while an accepted record names an address in it, itself or in what it names, or
lies in the ring (R317, R318). -/
def State.dropCap (s : State) (d n : Nat) : State :=
  match Tab.find (s.die d).caps n with
  | none => s
  | some c =>
    let foot := fun r : Rec => r.foot.map fun e => BitVec.ofNat 64 (bits e.1 0 56)
    let job := fun (e : Nat × QSlot) (r : Rec) => (s.die d).copies.flatMap fun y =>
      if y.2.job = some (e.1, r.idx) then y.2.work.flatMap Work.words else []
    let uses := fun (e : Nat × QSlot) (r : Rec) => (r.words ++ r.lr ++ r.desc ++ foot r ++ job e r ++ s.batchAddrs c.ctx d r).any fun v =>
      c.base ≤ v.toNat && v.toNat < c.base + c.bytes
    let held := (s.die d).qslots.flatMap fun e =>
      if c.ring then (if bits (s.qdesc d e.2.q 5) 0 32 = n then e.2.recs.map fun r => (e.2.q, r.idx) else [])
      else if s.qctx d e.2.q = c.ctx then (e.2.recs.filter (uses e)).map fun r => (e.2.q, r.idx) else []
    s.onDie d fun x =>
      { x with caps := Tab.del x.caps n, revoked := if held.isEmpty then x.revoked else (c, held) :: x.revoked }

/-- REGION_GRANT (R317). -/
def execRegionGrant (d : Nat) (s : State) : Host.Outcome State Fault Refusal :=
  mboxAct d 1 s fun s =>
    let base := (s.mboxArg d 0).toNat
    let n := (s.mboxArg d 1).toNat
    let a := s.mboxArg d 2
    let ctx := bits a 0 16
    if bits a 18 46 ≠ 0 ∨ n = 0 ∨ 2 ^ 56 < base + n ∨ bits a 16 2 = 0 ∨ (s.context d ctx).isNone then s.mboxDone d 1 0
    else match s.newCap d ⟨base, n, ctx, a.getLsbD 16, a.getLsbD 17, false⟩ with
      | none => s.mboxDone d 2 0
      | some (c, s) => s.mboxDone d 0 c

/-- QUEUE_BIND (R317, R420): the queue's descriptor is written anew, and a broken queue is whole again; it has no work left and waits for
no slot (R302). Where its ring or descriptor lies behind a port that is down, it breaks at once (R428). -/
def execQueueBind (d : Nat) (s : State) : Host.Outcome State Fault Refusal :=
  mboxAct d 2 s fun s =>
    let q := bits (s.reg d 0x500) 8 12
    let ring := s.mboxArg d 0
    let a := s.mboxArg d 1
    let ctx := bits (s.mboxArg d 2) 0 16
    let x := s.die d
    let live := x.bound.contains q && !x.broken.contains q
    let drains := x.qslots.any fun e => 128 ≤ e.1 && e.2.q == q && !e.2.recs.isEmpty
    if only a 0x33F = false ∨ bits (s.mboxArg d 2) 16 48 ≠ 0 ∨ ring.toNat % 64 ≠ 0 ∨ 13 ≤ bits a 0 4 ∨ (s.context d ctx).isNone then
      s.mboxDone d 1 0
    else if drains || live && (x.mapped q || s.qtail d q != bits (s.qdesc d q 2) 0 32) then s.mboxDone d 3 0
    else
      match s.newCap d ⟨ring.toNat, 64 * 2 ^ (bits a 0 4 + 4), ctx, true, true, true⟩ with
      | none => s.mboxDone d 2 0
      | some (c, s) =>
        let s := if x.bound.contains q then s.dropCap d (bits (s.qdesc d q 5) 0 32) else s
        let s := [ring, a, 0, 0, BitVec.ofNat 64 ctx, BitVec.ofNat 64 c].zipIdx.foldl (fun s e => s.setQdesc d q e.2 e.1) s
        let s := (s.remapOut d q).onDie d fun x =>
          { x with bound := insertNat x.bound q, broken := x.broken.filter (· != q), early := x.early.filter fun e => e.1 != q }
        (if s.ringLost d q then s.breakAny d q else s).mboxDone d 0 c

/-- REVOKE (R317, R318). -/
def execRevoke (d : Nat) (s : State) : Host.Outcome State Fault Refusal :=
  mboxAct d 3 s fun s =>
    let n := bits (s.mboxArg d 0) 0 32
    if s.mboxArg d 1 ≠ 0 ∨ s.mboxArg d 2 ≠ 0 ∨ (Tab.find (s.die d).caps n).isNone then s.mboxDone d 1 0
    else (s.dropCap d n).mboxDone d 0 0

/-- QUEUE_UNBIND (R317): waits until the queue's records in flight have retired. -/
def execQueueUnbind (d : Nat) (s : State) : Host.Outcome State Fault Refusal :=
  mboxAct d 4 s fun s =>
    let q := bits (s.reg d 0x500) 8 12
    if s.mboxArg d 1 ≠ 0 ∨ s.mboxArg d 2 ≠ 0 ∨ !(s.die d).bound.contains q then s.mboxDone d 1 0
    else if (s.die d).qslots.any fun e => e.2.q == q && !e.2.recs.isEmpty then s
    else
      let s := match (s.die d).qslots.find? fun e => e.2.q == q with
        | some (c, x) => s.unmapSlot d c x
        | none => s
      let s := s.dropCap d (bits (s.qdesc d q 5) 0 32)
      let s := (s.setQdesc d q 5 (putBits (s.qdesc d q 5) 0 32 0)).setQdesc d q 1 (putBits (s.qdesc d q 1) 4 1 0)
      ((s.remapOut d q).onDie d fun x =>
        { x with bound := x.bound.filter (· != q), broken := x.broken.filter (· != q), early := x.early.filter fun e => e.1 != q }).mboxDone d 0 0

end Sys2Proof.Machine
end

