-- ==== Sys2Proof/Machine/Launch.lean ====
section
/-! DEFINITION. Operator records (R306, R308, R309, R318), the beginning and retirement of launches (R47, R309, R310),
batched iterations (R314, R315), the abort of launches from outside (R402, R404), and the control ring with its flush
(R426). -/

namespace Sys2Proof.Machine

/-- Word `i` of a stage descriptor in a list of them (R308). -/
def stageWord (ds : List Word) (k i : Nat) : Word := ds.getD (8 * k + i) 0

/-- A launch record, with its operator record, breaks a rule (R306, R308, R309). -/
def launchBad (ws lr : List Word) : Bool :=
  let w := fun i : Nat => lr.getD i 0
  let span := (w 0).getLsbD 6
  let batch := ws.getD 3 0 != 0
  bits (ws.getD 2 0) 36 28 != 0 || ws.getD 4 0 != 0 || (bits (ws.getD 2 0) 0 32 == 0) != batch ||
    bits (w 0) 44 20 != 0 || (w 0).getLsbD 7 || bits (w 3) 12 52 != 0 || 2048 < bits (w 3) 0 12 || bits (w 1) 0 6 != 0 ||
    ([0, 1, 2, 3].any fun i => bits (w 0) (32 + 3 * i) 3 == 0) || (span && batch) ||
    (!span && (w 6 != 0 || w 7 != 0 || bits (ws.getD 2 0) 32 4 != 0))

/-- A stage descriptor breaks a rule (R308, R309). -/
def stageBad (ds : List Word) (k : Nat) : Bool :=
  let w := stageWord ds k
  let pull := (w 1).getLsbD 4
  bits (w 0) 56 8 != 0 || bits (w 0) 0 3 != 0 || !only (w 1) 0xFFFF0F1B || 8 < bits (w 1) 8 4 || (k == 0 && pull) ||
    (!pull && bits (w 1) 16 16 != 0) || bits (w 2) 0 12 != 0 || bits (w 3) 32 32 % 4096 != 0 ||
    bits (w 3) 32 32 < 0x30000 || bits (w 3) 0 32 == 0 || [4, 5, 6, 7].any fun i => w i != 0

/-- The entries of a barrier table (R308): index and count, with whether one breaks a rule. -/
def barEntries (b : List Byte) : Nat → List (Nat × Nat) × Bool
  | 0 => ([], false)
  | n + 1 =>
    let e := BitVec.ofNat 64 (leNat ((b.drop (4 * n)).take 4))
    let (l, bad) := barEntries b n
    let i := bits e 0 11
    (l ++ [(i, bits e 11 11)], bad || bits e 22 10 != 0 || bits e 11 11 == 0 || l.any fun x => x.1 == i)

/-- A batch table header breaks a rule (R314). -/
def batchBad (h : List Word) : Bool :=
  let w := fun i : Nat => h.getD i 0
  bits (w 0) 33 31 != 0 || bits (w 0) 0 32 == 0 || bits (w 4) 48 16 != 0 || bits (w 4) 32 16 == 0 ||
    4096 < bits (w 4) 32 16 || 16 < bits (w 4) 16 16 || w 6 != 0 || w 7 != 0

/-- The addresses of a launch record and of its stage descriptors that the capabilities must cover (R318). -/
def launchNeeds (lr ds : List Word) (nst : Nat) : List (Nat × Nat × Bool) :=
  let w := fun i : Nat => (lr.getD i 0).toNat
  (if w 4 = 0 then [] else [(w 4, 8, false)]) ++ (if w 4 = 0 ∧ w 5 = 0 then [] else [(w 5, 4096, false)]) ++
    (if (lr.getD 0 0).getLsbD 6 then [(w 6, 8, false), (w 7, 32, false)] else []) ++
    (upFrom 0 nst).flatMap fun k =>
      [((stageWord ds k 0).toNat, 8, false),
        ((stageWord ds k 2).toNat, bits (stageWord ds k 3) 32 32 * bits (stageWord ds k 3) 0 32, false)]

/-- The addresses of a batch table that the capabilities must cover (R314, R318). -/
def batchNeeds (va : Nat) (h : List Word) : List (Nat × Nat × Bool) :=
  let w := fun i : Nat => (h.getD i 0).toNat
  [(va + 64, 32 * bits (h.getD 4 0) 32 16, false), (w 1, 32 * 2 ^ bits (h.getD 4 0) 16 16, false), (w 3, 8192, false),
    (w 5, 8, true)]

/-- The die group of a spanning operator holds dies on both sides of a partition (R404). -/
def State.groupCut (s : State) (d : Nat) (ws lr : List Word) : Bool :=
  (lr.getD 0 0).getLsbD 6 && (groupOf (bits (ws.getD 2 0) 32 4)).any fun e => e < 4 && !(s.half d).contains e

/-- OPERATOR (R309, R318, R404): the record is checked and expanded into the shadow bank. -/
def State.expand (s : State) (d c : Nat) (q : QSlot) (ws : List Word) : Acc State :=
  let ctx := s.qctx d q.q
  let w := cpWho d ctx
  let va := (ws.getD 1 0).toNat
  let bva := (ws.getD 3 0).toNat
  (s.refuseIf (va % 64 != 0)).bind fun _ s =>
  (s.needs d ctx [(va, 64, false)]).bind fun _ s =>
  (Acc.read (s.readWords w kLoad va 8)).bind fun lr s =>
  (s.refuseIf (launchBad ws lr)).bind fun _ s =>
  let nst := bits (lr.getD 0 0) 0 4 + 1
  let stva := (lr.getD 1 0).toNat
  let barn := bits (lr.getD 3 0) 0 12
  (s.needs d ctx ((stva, 64 * nst, false) :: (if barn = 0 ∧ lr.getD 2 0 = 0 then [] else [((lr.getD 2 0).toNat, 4 * barn, false)]))).bind fun _ s =>
  (Acc.read (s.readWords w kLoad stva (8 * nst))).bind fun ds s =>
  (Acc.read (s.readVa w kLoad (lr.getD 2 0).toNat (4 * barn))).bind fun bt s =>
  let (bars, bad) := barEntries bt barn
  (s.refuseIf (bad || (upFrom 0 nst).any (stageBad ds))).bind fun _ s =>
  (s.needs d ctx (launchNeeds lr ds nst)).bind fun _ s =>
  let header : Acc (List Word) :=
    if bva = 0 then .ok [] s
    else (s.needs d ctx [(bva, 64, false)]).bind fun _ s => Acc.read (s.readWords w kLoad bva 8)
  header.bind fun h s =>
  (s.refuseIf (bva != 0 && batchBad h)).bind fun _ s =>
  (s.needs d ctx (if bva = 0 then [] else batchNeeds bva h)).bind fun _ s =>
  (s.readFoot d ctx ws).bind fun foot s =>
  let admits := fun t : Nat => (bits (lr.getD 0 0) 8 24 == 0 || (lr.getD 0 0).getLsbD (8 + t)) &&
    s.reserved d t == (lr.getD 0 0).getLsbD 4
  let span := (lr.getD 0 0).getLsbD 6
  (s.refuseIf (!(upFrom 0 24).any admits || (span && !(groupOf (bits (ws.getD 2 0) 32 4)).contains d))).bind fun _ s =>
    if s.groupCut d ws lr then .out 5 0 s
    else
      let r : Rec := { idx := q.head, words := ws, foot := foot, lr := lr, desc := ds, bars := bars }
      .ok (s.acceptRec d c r) s

/-- OPERATOR (R309). -/
def execOperator (d c : Nat) (s : State) : Host.Outcome State Fault Refusal :=
  cpAct d s fun s => s.recordStep d c (· == 1) fun q ws s => s.expand d c q ws

/-- The members of a spanning launch that a die's operator joins (R47): the first one of its group that it has no part in
yet; or a new one. -/
def State.joinSpan (s : State) (d g : Nat) : Nat × List Nat :=
  let ls := [0, 1, 2, 3].flatMap fun e => ((s.die e).launches.map (·.2)).filter fun l => l.span
  match ls.find? fun l => l.group == g && l.ending.isNone && !l.met.contains d with
  | some l => (l.sp, l.met)
  | none => (ls.foldl (fun n l => max n (l.sp + 1)) 1, [])

/-- The record of an operator takes the number of its launch. -/
def State.markBegun (s : State) (d c idx no : Nat) : State :=
  s.onQslot d c fun q =>
    { q with recs := q.recs.map fun r => if r.idx = idx then { r with started := true, launch := some no } else r }

/-- The static share of a member is written to its range word (R47); for a launch that does not span, nothing. -/
def State.writeShare (s : State) (d ctx g n : Nat) (span : Bool) (va : Nat) : Res Unit :=
  let m := groupOf g
  let i := (m.takeWhile (· != d)).length
  if span then s.writeWord (cpWho d ctx) kAtomic va (rangeWord (i * n / m.length) ((i + 1) * n / m.length)) else .ok () s

/-- The launch of an accepted operator begins (R309): the shadow bank swaps in, the range word is written, stages and pools
are made, and slots are assigned; where none can be had, it waits for one. -/
def State.beginLaunch (s : State) (d c : Nat) (q : QSlot) (r : Rec) : State :=
  let no := (s.die d).nextL
  let w0 := r.lr.getD 0 0
  let n := bits (r.words.getD 2 0) 0 32
  let ctx := s.qctx d q.q
  let span := w0.getLsbD 6
  let g := if span then bits (r.words.getD 2 0) 32 4 else 0
  match s.writeShare d ctx g n span (r.lr.getD 6 0).toNat with
  | .wait _ _ t => s.keepWaits t
  | .flt _ s => s.breakQueue d c
  | .ok _ s =>
    let (sp, met) := if span then s.joinSpan d g else (0, [])
    let st := (upFrom 0 (bits w0 0 4 + 1)).map fun k => ({ desc := (upFrom 0 8).map (stageWord r.desc k) } : Stage)
    let l : Launch :=
      { no := no, cslot := c, ctx := ctx, oprec := BitVec.ofNat 64 (s.recAddr d q.q r.idx), tag := recTag r.words, lr := r.lr,
        n := n, group := g, batch := r.words.getD 3 0, stages := st, bars := r.bars, begun := true, sp := sp, met := d :: met }
    let s := (s.onDie d fun x => { x with nextL := no + 1 }).setLaunch d l
    let s := (s.peersOf d l).foldl (fun (s : State) p => s.onLaunch p.1 p.2 fun y => { y with met := d :: y.met }) s
    (s.markBegun d c r.idx no).allot d

/-- LAUNCH_BEGIN (R307, R309, R404): the operator in the shadow bank starts where nothing earlier holds it. -/
def execLaunchBegin (d c : Nat) (s : State) : Host.Outcome State Fault Refusal :=
  cpAct d s fun s => match s.qslot d c with
    | none => s
    | some q =>
      match q.recs.find? fun r => !r.started with
      | none => s
      | some r =>
        if 128 ≤ c || s.flushing d q.q then s
        else match startWhy r.words r.foot (q.recs.filter fun y => y.idx != r.idx) with
          | some _ => s
          | none =>
            let g := bits (r.words.getD 2 0) 32 4
            let late := if (r.lr.getD 0 0).getLsbD 6 then (s.die d).lapsed.find? fun e => e.1 == g else none
            if s.groupCut d r.words r.lr then s.retireRec d c r.idx 5
            else match late with
              | some e =>
                (s.onDie d fun x => { x with lapsed := x.lapsed.erase e }).retireRec d c r.idx e.2
              | none => s.beginLaunch d c q r

/-- No stage-0 index of a launch is left: on a spanning launch, in no member's range word and in no thief's hand, with every
member of this package begun (R48, R310). -/
def State.noneLeft (s : State) (d : Nat) (l : Launch) : Bool :=
  if l.span then
    let g := groupOf l.group
    let w := cpWho d l.ctx
    let word := fun i : Nat =>
      if g[i]? = some d then (s.readWord w kLoad (l.word 6).toNat).val
      else (s.readWord w kLoad ((l.word 7).toNat + 8 * i)).val.bind fun p => (s.readWord w kAtomic p.toNat).val
    l.stolen.isNone && (g.all fun e => decide (4 ≤ e) || l.met.contains e) &&
      ((s.peersOf d l).all fun p => match s.launch p.1 p.2 with
        | some y => y.stolen.isNone
        | none => true) &&
      (upFrom 0 g.length).all fun i => match word i with
        | some v => decide (endOf v ≤ nextOf v)
        | none => false
  else if l.batch ≠ 0 then !l.iter && !l.bwait && l.seen.isSome
  else decide (l.n ≤ l.limit)

/-- Every initial strand of the pulling stages has been created (R42). -/
def Launch.initDone (l : Launch) : Bool :=
  (upFrom 0 l.stages.length).all fun k => match l.stages[k]? with
    | some g => !l.pulls k || bits (g.desc.getD 1 0) 16 16 ≤ g.inits
    | none => true

/-- LAUNCH_RETIRE (R310). -/
def execLaunchRetire (d l : Nat) (s : State) : Host.Outcome State Fault Refusal :=
  cpAct d s fun s => match s.launch d l with
    | none => s
    | some x =>
      if !x.begun || x.ending.isSome || !s.strandsDone d x || !x.initDone || !s.noneLeft d x || s.backWaits (x.tiles.flatMap s.l1s) [1, 2] then s
      else (s.releaseLaunch x).closeLaunch d l 1

/-- Words of the batch table header (R314). -/
def State.batchWord (s : State) (d : Nat) (l : Launch) (i : Nat) : Res Word :=
  s.readWord (cpWho d l.ctx) kLoad (l.batch.toNat + 8 * i)

/-- ATAIL and CLOSE as a batched launch waits on them (R315). -/
def batchSeen (w0 w2 : Word) : Word := wordOf [(bits w2 32 32, 1), (bits w0 32 1, 0)]

/-- The retire step over the slots from `i` on (R315): TOKENS of the slots that stay, and the slots that are free. -/
def State.batchRetire (s : State) (w : Who) (base retired : Nat) : Nat → Nat → Nat → List Nat → Res (Nat × List Nat)
  | 0, _, used, free => .ok (used, free) s
  | n + 1, i, used, free =>
    (s.readWord w kLoad (base + 32 * i)).bind fun v s =>
      if v.getLsbD 0 && v.getLsbD 1 then
        (s.writeWord w kStore (base + 32 * i) (putBits v 0 2 0)).bind fun _ s =>
        (s.bumpWord w retired).bind fun _ s => s.batchRetire w base retired n (i + 1) used (free ++ [i])
      else if v.getLsbD 0 then s.batchRetire w base retired n (i + 1) (used + bits v 16 16) free
      else s.batchRetire w base retired n (i + 1) used (free ++ [i])

/-- The admission step, strictly in ring order (R315): the new AHEAD. -/
def State.batchAdmit (s : State) (w : Who) (base ring asz budget tail : Nat) : Nat → Nat → Nat → List Nat → Res Nat
  | 0, head, _, _ => .ok head s
  | fuel + 1, head, used, free =>
    if head = tail then .ok head s
    else match free with
      | [] => .ok head s
      | i :: rest =>
        (s.readVa w kLoad (ring + 32 * (head % 2 ^ asz)) 32).bind fun b s =>
          let v := wordAt b 0
          if budget < used + bits v 16 16 then .ok head s
          else
            (s.writeVa w kStore (base + 32 * i) (leBytes 8 (putBits v 0 2 1).toNat ++ b.drop 8)).bind fun _ s =>
              s.batchAdmit w base ring asz budget tail fuel ((head + 1) % 2 ^ 32) (used + bits v 16 16) rest

/-- The rebuild of ACTIVE (R315): the number of slots in use. -/
def State.batchActive (s : State) (w : Who) (base active : Nat) : Nat → Nat → Nat → Res Nat
  | 0, _, n => .ok n s
  | k + 1, i, n =>
    (s.readWord w kLoad (base + 32 * i)).bind fun v s =>
      if v.getLsbD 0 then
        (s.writeVa w kStore (active + 2 * n) (leBytes 2 i)).bind fun _ s => s.batchActive w base active k (i + 1) (n + 1)
      else s.batchActive w base active k (i + 1) n

/-- One step of the scheduler between iterations (R315): N, and ATAIL with CLOSE as read. -/
def State.batchTable (s : State) (d : Nat) (l : Launch) : Res (Nat × Word) :=
  let w := cpWho d l.ctx
  let base := l.batch.toNat + 64
  (s.batchWord d l 0).bind fun w0 s => (s.batchWord d l 1).bind fun w1 s => (s.batchWord d l 2).bind fun w2 s =>
  (s.batchWord d l 3).bind fun w3 s => (s.batchWord d l 4).bind fun w4 s => (s.batchWord d l 5).bind fun w5 s =>
    let n := bits w4 32 16
    (s.batchRetire w base w5.toNat n 0 0 []).bind fun (used, free) s =>
    (s.batchAdmit w base w1.toNat (bits w4 16 16) (bits w0 0 32) (bits w2 32 32) (n + 1) (bits w2 0 32) used free).bind
      fun head s =>
    (s.writeVa w kStore (l.batch.toNat + 16) (leBytes 4 head)).bind fun _ s =>
    (s.batchActive w base w3.toNat n 0 0).bind fun k s =>
    (s.writeVa w kStore (l.batch.toNat + 32) (leBytes 2 k)).bind fun _ s => .ok (k, batchSeen w0 w2) s

/-- The scheduler runs between two iterations of a batched launch (R315): the next iteration's indices, the wait for
admissions, or the end of the launch's range. An access that faults breaks the queue, as
for a record (R417). -/
def State.batchStep (s : State) (d : Nat) (l : Launch) : State :=
  match s.batchTable d l with
  | .wait _ _ t => s.keepWaits t
  | .flt _ s => s.breakQueue d l.cslot
  | .ok (n, seen) s =>
    s.onLaunch d l.no fun l =>
      { l with n := n, limit := 0, iter := decide (n ≠ 0), bwait := decide (n = 0) && !seen.getLsbD 0, seen := some seen }

/-- BATCH_ITERATION (R315): an iteration ends when every strand it created has halted. -/
def execBatchIteration (d l : Nat) (s : State) : Host.Outcome State Fault Refusal :=
  onUnit (d < 4) (match s.launch d l with
    | none => s
    | some x =>
      if x.batch = 0 || !x.begun || x.ending.isSome || !x.iter || x.limit < x.n || !s.strandsDone d x then s
      else s.batchStep d x)

/-- BATCH_ADMISSION_WAKE (R315): ATAIL or CLOSE has been written. -/
def execBatchAdmissionWake (d l : Nat) (s : State) : Host.Outcome State Fault Refusal :=
  onUnit (d < 4) (match s.launch d l with
    | none => s
    | some x =>
      if !x.bwait || x.ending.isSome then s
      else match (s.batchWord d x 0).bind fun w0 s => (s.batchWord d x 2).bind fun w2 s => Res.ok (batchSeen w0 w2) s with
        | .ok v _ => if x.seen = some v then s else s.batchStep d x
        | .flt _ s => s.breakQueue d x.cslot
        | .wait _ _ t => s.keepWaits t)

/-- A launch is aborted from outside (R402, R404): each member's die records it, and its operator retires with STATUS 4. -/
def State.abortLaunch (s : State) (d no : Nat) (f : Flt) : State :=
  match s.launch d no with
  | none => s
  | some l =>
    if l.ending.isSome then s
    else
      let s := ((d, no) :: s.peersOf d l).foldl (fun (s : State) p => match s.launch p.1 p.2 with
        | some y => s.hostFault p.1 f y.tag y.oprec
        | none => s) s
      s.stopSpan d no 4

/-- The control ring of a die (R426): context, page. -/
def State.ctrlCtx (s : State) (d : Nat) : Nat := bits (s.reg d 0xD18) 16 16
/-- The control ring page. -/
def State.ctrlVa (s : State) (d : Nat) : Nat := bits (s.reg d 0xD10) 12 44 * 4096

/-- The ring page cannot be read or written (R426): the ring is disabled. -/
def State.ctrlFault (s : State) (d : Nat) (f : Flt) : State :=
  ((s.setField d 0xD18 0 1 0).onDie d fun x => { x with ctrl := none }).hostFault d
    { cls := 9, code := 6, addr := f.addr, info := 1, src := 4 }

/-- The entry of the control ring that stands at the device index ends with a result (R426). -/
def State.ctrlDone (s : State) (d : Nat) (result : Nat) : State :=
  let w := cpWho d (s.ctrlCtx d)
  let va := s.ctrlVa d
  let r := (s.readWord w kLoad (va + 8)).bind fun j s =>
    let e := va + 64 + 64 * (j.toNat % 63)
    (s.readWord w kLoad (e + 16)).bind fun sig s =>
    (s.writeWord w kStore (e + 8) (BitVec.ofNat 64 result)).bind fun _ s =>
    (s.writeWord w kStore (va + 8) (j + 1)).bind fun _ s => .ok sig.toNat s
  match r with
  | .flt f s => s.ctrlFault d f
  | .wait _ _ t => s.keepWaits t
  | .ok sig t =>
    let t := t.onDie d fun x => { x with ctrl := none, told := none }
    if sig = 0 then t
    else match t.bumpWord w sig with
      | .ok _ t => t
      | .wait _ _ u => s.keepWaits u
      | .flt f t => t.hostFault d { cls := 9, code := 6, addr := f.addr, src := 4 }

/-- The words of a control entry break a rule (R426). -/
def State.ctrlBad (s : State) (d : Nat) (e : List Word) : Bool :=
  let w := fun i : Nat => e.getD i 0
  let q := bits (w 0) 8 12
  bits (w 0) 0 8 != 1 || bits (w 0) 20 44 != 0 || bits (w 2) 0 3 != 0 || ([3, 4, 5, 6, 7].any fun i => w i != 0) ||
    !(s.die d).bound.contains q || s.qctx d q != s.ctrlCtx d

/-- Step 2 of a flush (R426) for one record in flight. -/
def State.flushRec (s : State) (d c : Nat) (r : Rec) : State :=
  match r.launch with
  | some no => s.stopSpan d no 4
  | none => if r.started && r.done = 0 && (recKind r.words = 2 || recKind r.words = 3) then s.retireRec d c r.idx 4 else s

/-- The next entry of the control ring is taken, and its flush begins (R426 steps 1 and 2). -/
def State.flushTake (s : State) (d : Nat) : State :=
  let w := cpWho d (s.ctrlCtx d)
  let va := s.ctrlVa d
  if !(s.reg d 0xD18).getLsbD 0 then s
  else
    let r := (s.readWord w kLoad va).bind fun p s => (s.readWord w kLoad (va + 8)).bind fun j s =>
      if p = j then .ok none s
      else (s.readWords w kLoad (va + 64 + 64 * (j.toNat % 63)) 8).bind fun e s => .ok (some (j, e)) s
    match r with
    | .flt f s => s.ctrlFault d f
    | .wait _ _ t => s.keepWaits t
    | .ok none s => s
    | .ok (some (j, e)) s =>
      if s.ctrlBad d e then
        (if (s.die d).told = some j then s
          else (s.hostFault d { cls := 9, code := 4, info := j, src := 4 }).onDie d fun x => { x with told := some j }).ctrlDone d 2
      else
        let q := bits (e.getD 0 0) 8 12
        if (s.die d).broken.contains q then s.ctrlDone d 3
        else if s.qdescBad d q then (s.breakAny d q).ctrlDone d 3
        else if (s.die d).qslots.any fun e => e.2.q == q && e.2.leaving.isSome then s
        else
          let s := s.onDie d fun x => { x with ctrl := some (q, s.qtail d q) }
          match (s.slotOfQueue d q).bind fun c => (s.qslot d c).map fun x => (c, x) with
          | none => s
          | some (c, x) => x.recs.foldl (fun (s : State) r => s.flushRec d c r) s

/-- HEAD of a queue, in its slot or in its descriptor. -/
def State.headOf (s : State) (d q : Nat) : Nat :=
  match (s.slotOfQueue d q).bind (s.qslot d) with
  | some x => x.head
  | none => bits (s.qdesc d q 2) 0 32

/-- Write HEAD of a queue, in its slot and in its descriptor. -/
def State.setHead (s : State) (d q h : Nat) : State :=
  match s.slotOfQueue d q with
  | some c => (s.putHead d q h).onQslot d c fun x => { x with head := h }
  | none => s.putHead d q h

/-- Steps 2 to 4 of a flush (R426): the records in flight end; then the unstarted ones retire in ring order, one each time;
then HEAD is at T and the entry completes. -/
def State.flushMore (s : State) (d q t : Nat) : State :=
  let slot := (s.slotOfQueue d q).bind fun c => (s.qslot d c).map fun x => (c, x)
  let recs := match slot with | some (_, x) => x.recs | none => []
  let bad := match slot with | some (_, x) => x.bad | none => false
  if (s.die d).broken.contains q then s.ctrlDone d 3
  else if bad || s.qdescBad d q then (s.breakAny d q).ctrlDone d 3
  else if recs.any (·.started) then s
  else match slot, recs with
    | some (c, _), r :: _ => s.retireRec d c r.idx 4
    | _, _ =>
      let h := s.headOf d q
      if h = t then
        s.ctrlDone d 1
      else
        let w := cpWho d (s.qctx d q)
        if (s.die d).early.contains (q, h) then
          (s.onDie d fun x => { x with early := x.early.erase (q, h) }).setHead d q ((h + 1) % 2 ^ 32)
        else if !s.ringCap d q then
          (s.capReport d (s.qctx d q) (bits (s.qdesc d q 5) 0 32) 0).setHead d q ((h + 1) % 2 ^ 32)
        else match (s.readWords w kLoad (s.recAddr d q h) 8).bind fun ws s => s.statusOut d q h ws 4 with
        | .wait _ _ u => s.keepWaits u
        | .flt _ s => (s.breakAny d q).ctrlDone d 3
        | .ok _ s => s.setHead d q ((h + 1) % 2 ^ 32)

/-- FLUSH (R426). -/
def execFlush (d : Nat) (s : State) : Host.Outcome State Fault Refusal :=
  cpAct d s fun s => match (s.die d).ctrl with
    | some (q, t) => s.flushMore d q t
    | none => s.flushTake d

end Sys2Proof.Machine
end

