-- ==== Sys2Proof/Machine/Governor.lean ====
section
/-! DEFINITION. The scale governor (R280, R286 to R295, R407 to R411): one iteration boundary over the selected records
of a die's registration table. -/

namespace Sys2Proof.Machine

/-- A policy (R287): thresholds, headroom, hysteresis, fall-back class, rungs. -/
structure Policy where
  ovt   : Nat
  unt   : Nat
  head  : Nat
  hys   : Nat
  fbc   : Nat
  rungs : List Nat
  deriving DecidableEq, Repr

/-- A policy entry, where it is valid (R287, R288). -/
def policyOf (b : List Byte) : Option Policy :=
  let n := natAt b 11 1 % 8
  let rung := fun k : Nat => natAt b 12 2 / 16 ^ k % 16
  let rs := (upFrom 0 n).map rung
  if natAt b 9 1 / 16 != 0 || natAt b 10 1 / 4 != 0 || natAt b 11 1 / 8 != 0 || ((b.drop 14).take 50).any (· != 0) ||
      29 < natAt b 8 1 || natAt b 10 1 == 3 || n == 0 || 4 < n || (dedup rs).length != n ||
      (rs.any fun r => !([0, 2, 3, 8].contains r)) || (upFrom n (4 - n)).any fun k => rung k != 15 then none
  else some
    { ovt := natAt b 0 4, unt := natAt b 4 4, head := natAt b 8 1, hys := natAt b 9 1 % 16, fbc := natAt b 10 1, rungs := rs }

/-- What pass 1 decides of a record (R291): its place, counts and largest magnitude, T2, the format f2, the fault code (0
none), and a fall-back request with its class, rung and extra footprint. -/
structure Row where
  rec_  : TRec
  ov    : Nat
  am    : Nat
  t2    : Int
  f2    : Nat
  code  : Nat
  fbc   : Nat := 0
  up    : Nat := 0
  extra : Option Int := none
  defer : Bool := false
  deriving DecidableEq, Repr

/-- The largest magnitude stored, where it is finite (R291). -/
def amFin (am : Nat) : Bool := am / 2 ^ 23 % 256 != 255

/-- floor(log2 am), where am is finite and positive. -/
def amLog (am : Nat) : Option Int :=
  match widen fp32 am with
  | .fin false m e => if m = 0 then none else some (ilog m e)
  | _ => none

/-- The highest bin from 1 to 30 that is not zero (R291). -/
def topBin (b : List Byte) : Option Nat := ((upFrom 1 30).reverse).find? fun i => natAt b (64 + 2 * i) 2 != 0

/-- HCNT after the counts of an iteration (R291). -/
def quietCount (h : Word) (p : Policy) (ov un : Nat) : Nat := if ov = 0 ∧ un ≤ p.unt then min (bits h 36 4 + 1) 15 else 0

/-- T2 (R291): from the sheaf, from the largest magnitude of an overflow, and held up by hysteresis. -/
def nextTop (p : Policy) (b : List Byte) (t : Int) (ov un am hc : Nat) : Int :=
  let a := match topBin b with
    | some i => t + i - 30 + p.head
    | none => t
  let c := match amLog am with
    | some l => if 0 < ov then max a (l + p.head) else a
    | none => a
  if c < t && !(p.hys ≤ hc || (ov == 0 && p.unt < un)) then t else c

/-- Pass 1 on a record (R291, R408): the decision, and the header. -/
def evalRec (p : Policy) (r : TRec) (b : List Byte) : Row × Word :=
  let h := r.hdr
  let (ov, un, am) := (natAt b 16 4, natAt b 20 4, natAt b 12 4)
  let k := (p.rungs.takeWhile (· != r.f)).length
  let t := r.scale r.ver + emaxOf r.f
  let hc := quietCount h p ov un
  let t2 := nextTop p b t ov un am hc
  let past := decide (p.ovt < ov)
  let warn := h.getLsbD 13
  let fault := past && (warn || !amFin am)
  let narrow := !past && p.hys != 0 && p.hys ≤ hc && 0 < k
  let f2 := if narrow then p.rungs.getD (k - 1) r.f else r.f
  let hc := if narrow then 0 else hc
  let code := if fault then (if !amFin am then 2 else if h.getLsbD 15 then 3 else 1)
    else if 127 < t2 - emaxOf f2 then 4 else 0
  let up := p.rungs.getD (k + 1) r.f
  let cur := natAt b 40 4
  let asks := past && code == 0 && p.unt < un && k + 1 < p.rungs.length && p.fbc != 0 &&
    r.groups * footOf up ≤ 4 * (cur + natAt b 44 4)
  let h := putBits (putBits h 36 4 hc) 13 1 (past && (warn || !fault)).toNat
  let h := putBits (putBits h 15 3 0) 17 1 (if code = 0 then 0 else 1)
  ({ rec_ := r, ov := ov, am := am, t2 := t2, f2 := f2, code := code, fbc := p.fbc, up := up,
     extra := if asks then some ((r.groups * footOf up : Nat) - (4 * cur : Nat)) else none }, h)

/-- Why a record is skipped, as far as its own fields show (R280, R409): 0 where it is valid. -/
def recWhy (r : TRec) (b : List Byte) : Nat :=
  if bits r.hdr 18 2 != 0 || r.gran == 3 then 1
  else if 11 < r.f || r.f != r.vfmt r.ver then 2
  else if 4 * natAt b 40 4 % footOf r.f != 0 then 3 else 0

/-- What a registration entry comes to: nothing, a skipped record with its reason, or a row. -/
inductive Found where
  | pass
  | skip (va why : Nat)
  | row (r : Row)

/-- The governor of a die accesses in GOV.TABLE_CTL.ASID (R289). -/
def govWho (d asid : Nat) : Who := { die := d, ctx := asid, tile := d * 24, agent := 3000 + d, raw := true }

/-- Pass 1 for one registration entry (R289 to R291). -/
def State.govEntry (s : State) (w : Who) (pol tab groups i : Nat) : Res Found :=
  (s.readWord w kGovR (tab + 8 * i)).bind fun e s =>
    let va := bits e 7 49 * 128
    if !e.getLsbD 4 || !groups.testBit (bits e 0 4) then .ok .pass s
    else if bits e 5 2 ≠ 0 ∨ bits e 56 8 ≠ 0 then .ok (.skip va 7) s
    else (s.recBytes w kGov va).bind fun (b, l) s =>
      let r := tRecOf va l b
      if l.home ≠ w.die then .ok (.skip va 6) s
      else if recWhy r b ≠ 0 then .ok (.skip va (recWhy r b)) s
      else if !r.hdr.getLsbD 12 then .ok .pass s
      else (s.readVa w kGovR (pol + 64 * bits r.hdr 4 4) 64).bind fun pb s =>
        match policyOf pb with
        | none => .ok (.skip va 4) s
        | some p =>
          if !p.rungs.contains r.f then .ok (.skip va 5) s
          else
            let (row, h) := evalRec p r b
            .ok (.row row) (s.onRec w l va fun b => putNat (putNat b 0 8 h.toNat) 12 12 0)

/-- A fault that the governor meets at a record, tag array or policy, as it reports it (R394, R417). -/
def govFlt (f : Flt) : Flt := { (if f.cls = 5 then { f with code := 4 } else f) with src := 3 }

/-- A boundary's results so far: rows, records skipped, tensor faults. -/
structure Tally where
  rows : List Row := []
  err  : Nat := 0
  flt  : Nat := 0
  deriving DecidableEq, Repr

/-- Pass 1 over the registration table (R290); `tell` writes a record of the boundary. -/
def State.govPass1 (s : State) (w : Who) (pol tab groups : Nat) (tell : State → Flt → State) : Nat → Nat → Tally → Res Tally
  | 0, _, a => .ok a s
  | n + 1, i, a =>
    match s.govEntry w pol tab groups i with
    | .wait c o s => .wait c o s
    | .flt f s => (tell s (govFlt f)).govPass1 w pol tab groups tell n (i + 1) { a with err := a.err + 1 }
    | .ok .pass s => s.govPass1 w pol tab groups tell n (i + 1) a
    | .ok (.skip va why) s =>
      let f : Flt := { cls := 8, code := 0x10, addr := BitVec.ofNat 64 va, info := wordOf [(i, 8), (why, 0)], src := 3 }
      (tell s f).govPass1 w pol tab groups tell n (i + 1) { a with err := a.err + 1 }
    | .ok (.row r) s =>
      let f : Flt := { cls := 8, code := r.code, addr := BitVec.ofNat 64 r.rec_.va, info := wordOf [(r.am, 32), (r.ov, 0)], src := 3 }
      (if r.code = 0 then s else tell s f).govPass1 w pol tab groups tell n (i + 1)
        { a with rows := a.rows ++ [r], flt := a.flt + (if r.code = 0 then 0 else 1) }

/-- Whether one fall-back request comes before another (R292). -/
def askBefore (a b : Row) : Bool :=
  b.fbc < a.fbc || (a.fbc == b.fbc && (b.ov < a.ov || (a.ov == b.ov && a.rec_.va < b.rec_.va)))

/-- Place a request in order, behind its equals. -/
def putAsk (e : Nat × Row) : List (Nat × Row) → List (Nat × Row)
  | [] => [e]
  | x :: l => if askBefore e.2 x.2 then e :: x :: l else x :: putAsk e l

/-- The requests granted (R292): their places in table order. -/
def grants : List (Nat × Row) → Int → Bool → List Nat
  | [], _, _ => []
  | (i, r) :: l, budget, full =>
    let x := r.extra.getD 0
    if x = 0 ∨ (!full ∧ x ≤ budget) then i :: grants l (budget - x) full else grants l budget true

/-- Pass 2 (R292): the rows with the granted rungs, and those refused marked deferred. -/
def govPass2 (rows : List Row) (budget : Nat) : List Row :=
  let asks := (rows.zipIdx.filter fun e => e.1.extra.isSome).foldl (fun l e => putAsk (e.2, e.1) l) []
  let ok := grants asks budget false
  rows.zipIdx.map fun e =>
    if e.1.extra.isNone then e.1 else if ok.contains e.2 then { e.1 with f2 := e.1.up } else { e.1 with defer := true }

/-- The sheaf's bins after a change of T, not yet halved (R286). -/
def moveBins (l : List Nat) (sh : Int) : List Nat :=
  (upFrom 0 32).map fun t =>
    if t = 0 ∨ t = 31 then l.getD t 0
    else min 65535 (((upFrom 1 30).filter fun (b : Nat) => (clampI 1 30 ((b : Int) - sh)).toNat == t).foldl (fun n b => n + l.getD b 0) 0)

/-- The end of a boundary for a record (R286, R293): the sheaf moves and halves, ITER advances. -/
def closeRec (b : List Byte) (sh : Int) : List Byte :=
  let bins := (upFrom 0 32).map fun i => natAt b (64 + 2 * i) 2
  let b := (if sh = 0 then bins else moveBins bins sh).zipIdx.foldl (fun b e => putNat b (64 + 2 * e.2) 2 (e.1 / 2)) b
  let h := wordAt b 0
  putNat b 0 8 (putBits h 40 24 (bits h 40 24 + 1)).toNat

/-- A writer pin is held on a version of the record at a location (R284, R293). -/
def State.writerPin (s : State) (l : Loc) (v : Nat) : Bool :=
  s.dies.any fun d => d.2.copies.any fun c => c.2.work.any fun x => match x with
    | .quant _ _ (some r) _ => r.loc == l && r.ver == v
    | .pages _ _ (some r) _ => r.loc == l && r.ver == v
    | _ => false

/-- A value that the spec does not state, below `n`: 0 to n - 1 drawn anew, where `ok` is false; else `v`. -/
def State.orFree (s : State) (ok : Bool) (v n : Nat) : Nat × State := if ok then (v, s) else s.pick n

/-- The tags of the granules of a new format (R293). -/
def State.putTags (s : State) (w : Who) (r : TRec) (v : Nat) : List Nat → Res Unit
  | [] => .ok () s
  | g :: l =>
    (s.tagByte w kGov r g).bind fun (b, loc, va) s =>
      let t := b / 4 ^ (g % 4) % 4
      (s.storeLine w.die w.tile w.fused loc 0 false w.uid (BitVec.ofNat 64 va)
        [BitVec.ofNat 8 (b - t * 4 ^ (g % 4) + v * 4 ^ (g % 4))]).putTags w r v l

/-- A record's bytes with a new version in force (R293): ring byte, format, footprint and live counts. -/
def advanceRec (b : List Byte) (r : TRec) (f2 byte_ cur rsv : Nat) : List Byte :=
  let v2 := (r.ver + 1) % 4
  let h := putBits (putBits (putBits (wordAt b 0) (20 + 4 * v2) 4 f2) 0 4 f2) 8 2 v2
  let b := putNat (putNat b 0 8 (putBits h 14 1 0).toNat) (8 + v2) 1 byte_
  if f2 = r.f then b
  else
    let b := putNat b 0 8 (putBits (wordAt b 0) 16 1 1).toNat
    putNat (putNat (putNat (putNat b (48 + 4 * v2) 4 (r.ng f2)) (48 + 4 * r.ver) 4 0) 40 4 cur) 44 4 rsv

/-- Pass 3 for one record (R293): f and T are those of pass 1, VER and RING those that the record has now. Where its tag array cannot be written the record is skipped, its tags, version and format as they
were; its sheaf is halved and ITER advances all the same. A scale above 127 that a granted rung would need has no ring byte in the
spec. -/
def State.govRow (s : State) (w : Who) (x : Row) : Res Unit :=
  let b := s.peek x.rec_.loc 128
  let r := { tRecOf x.rec_.va x.rec_.loc b with f := x.rec_.f }
  let sc := r.scale r.ver
  let top := x.rec_.scale x.rec_.ver + emaxOf r.f
  let s2 := max (x.t2 - emaxOf x.f2) (-127)
  let v2 := (r.ver + 1) % 4
  let live := fun v : Nat => natAt b (48 + 4 * v) 4
  let put := fun (s : State) (f : List Byte → List Byte) => s.onRec w r.loc r.va f
  let b0 := fun b : List Byte => if x.defer then putNat b 0 8 (putBits (wordAt b 0) 15 1 1).toNat else b
  if x.code ≠ 0 ∨ (x.f2 = r.f ∧ s2 = sc) then .ok () (put s fun b => closeRec (b0 b) 0)
  else if live v2 ≠ 0 ∨ (x.f2 ≠ r.f ∧
      ((upFrom 0 4).any (fun u => u != r.ver && live u != 0) || s.writerPin r.loc r.ver)) then
    .ok () (put s fun b => closeRec (putNat (b0 b) 0 8 (putBits (wordAt (b0 b) 0) 14 1 1).toNat) 0)
  else
    let all := natAt b 40 4 + natAt b 44 4
    let cur := r.groups * footOf x.f2 / 4
    let (ring, s) := s.orFree (s2 ≤ 127) (s2 + 127).toNat 256
    let (rsv, s) := s.orFree (x.f2 == r.f || cur ≤ all) (all - cur) (2 ^ 32)
    match (s.putTags w r v2 (if x.f2 = r.f then [] else upFrom 0 (r.ng x.f2))).whole s with
    | .ok _ s => .ok () (put s fun b => closeRec (advanceRec (b0 b) r x.f2 ring cur rsv) (s2 + emaxOf x.f2 - top))
    | .flt f s => .flt f (put s fun b => closeRec (b0 b) 0)
    | .wait c o s => .wait c o s

/-- Pass 3 (R293): the records that could not be changed are reported and counted. -/
def State.govPass3 (s : State) (w : Who) (tell : State → Flt → State) : List Row → Nat → Res Nat
  | [], err => .ok err s
  | x :: l, err =>
    match s.govRow w x with
    | .wait c o s => .wait c o s
    | .flt f s => (tell s (govFlt f)).govPass3 w tell l (err + 1)
    | .ok _ s => s.govPass3 w tell l err

/-- TAG and OPREC of the Boundary record that started a boundary (R409). -/
def State.govSite (s : State) (d : Nat) : Nat × Word :=
  match (s.die d).gov.bind fun g => (s.qslot d g.1).bind fun q => (q.recs.find? fun r => r.idx == g.2).map fun r => (q.q, r) with
  | some (q, r) => (recTag r.words, BitVec.ofNat 64 (s.recAddr d q r.idx))
  | none => (0, 0)

/-- The end of a boundary (R294, R410): BND_STATUS, DONE, then the signal, one atomic at its home; its Boundary record retires. A
signal that faults is reported under the fault's own class and code. -/
def State.govEnd (s : State) (w : Who) (tell : State → Flt → State) (st : Word) : Res Unit :=
  let d := w.die
  let s := ((s.setReg d 0x230 st).setField d 0x228 1 1 0).setField d 0x228 3 1 1
  let sig := bits (s.reg d 0x220) 3 53 * 8
  let sent : Res Unit := if sig = 0 then .ok () s
    else match s.rmw w (BitVec.ofNat 64 sig) 8 false fun v => (v + 1) % 2 ^ 64 with
      | .ok _ s => .ok () s
      | .flt f s => .ok () (tell s { f with src := 3 })
      | .wait c o s => .wait c o s
  sent.bind fun _ s =>
    let job := (s.die d).gov
    let s := s.onDie d fun x => { x with gov := none, govIn := [] }
    .ok () (match job with
      | some (c, i) => s.retireRec d c i 1
      | none => s)

/-- The three passes of a boundary that has been started (R290 to R294). -/
def State.govRun (s : State) (d : Nat) : Res Unit :=
  let reg := fun i : Nat => (s.die d).govIn.getD i 0
  let w := govWho d (bits (reg 2) 32 16)
  let (tag, oprec) := s.govSite d
  let tell := fun (s : State) (f : Flt) => s.hostFault d f tag oprec
  (s.govPass1 w (bits (reg 0) 10 46 * 1024) (bits (reg 1) 3 53 * 8) (bits (reg 4) 16 16) tell (min (bits (reg 2) 0 17) 65536) 0 {}).bind
    fun a s =>
      let rows := govPass2 a.rows (bits (reg 3) 0 40)
      (s.govPass3 w tell rows a.err).bind fun err s =>
        let held := (rows.filter fun x => (s.peekWord x.rec_.loc).getLsbD 14).length
        let defer := (rows.filter (·.defer)).length
        s.govEnd w tell (wordOf [(min err 65535, 48), (min a.flt 65535, 32), (min defer 65535, 16), (min held 65535, 0)])

/-- ITERATION_BOUNDARY (R290): the boundary that BUSY announces runs whole; where it has to wait for a page request, it is
made again. -/
def execIterationBoundary (d : Nat) (s : State) : Host.Outcome State Fault Refusal :=
  cpAct d s fun s =>
    if !(s.reg d 0x228).getLsbD 1 then s
    else match s.govRun d with
      | .ok _ s => s
      | r => r.orKeep s

end Sys2Proof.Machine
end

