-- ==== Sys2Proof/Machine/Digest.lean ====
section
/-! DEFINITION. SHA-256 (R436, R437), as its standard gives it. -/

namespace Sys2Proof.Machine

/-- A 32-bit word of the digest. -/
abbrev Half := BitVec 32

/-- The largest number of `n` bits, above the bits found so far, whose k-th power is at most `x`. -/
def rootOf (k x : Nat) : Nat → Nat → Nat
  | 0, r => r
  | n + 1, r => rootOf k x n (if (r + 2 ^ n) ^ k ≤ x then r + 2 ^ n else r)

/-- The primes below 312, by trial division. -/
def primes : List Nat := (upFrom 2 310).filter fun n => (upFrom 2 16).all fun k => n % k != 0 || n == k

/-- The first 32 bits of the fraction of the k-th roots of the first `n` primes. -/
def rootWords (k n : Nat) : List Half := (primes.take n).map fun p => BitVec.ofNat 32 (rootOf k (p * 2 ^ (32 * k)) 36 0)

/-- The round constants: of the cube roots of 64 primes. -/
def shaK : List Half := rootWords 3 64

/-- The initial value: of the square roots of 8 primes. -/
def shaH : List Half := rootWords 2 8

/-- A number as `n` bytes, highest first. -/
def bigBytes (n v : Nat) : List Byte := (leBytes n v).reverse

/-- A number from bytes, highest first. -/
def bigNat (l : List Byte) : Nat := leNat l.reverse

/-- The padded message: a bit 1, zeros, and the length in bits. -/
def shaPad (m : List Byte) : List Byte :=
  m ++ [0x80] ++ List.replicate ((119 - m.length % 64) % 64) 0 ++ bigBytes 8 (8 * m.length)

/-- A word turned right by each of several amounts, all combined bit by bit. -/
def turns (l : List Nat) (x : Half) : Half := l.foldl (fun y n => y ^^^ x.rotateRight n) 0

/-- The message schedule, newest word first: each new word comes from those 2, 7, 15 and 16 places back. -/
def shaSchedule : Nat → List Half → List Half
  | 0, w => w
  | n + 1, w =>
    let back := fun k : Nat => w.getD (k - 1) 0
    let near := turns [17, 19] (back 2) ^^^ back 2 >>> 10
    let far := turns [7, 18] (back 15) ^^^ back 15 >>> 3
    shaSchedule n ((near + back 7 + far + back 16) :: w)

/-- Bit by bit: the second word where the first has a 1, else the third. -/
def pickBits (x y z : Half) : Half := z ^^^ (x &&& (y ^^^ z))

/-- Bit by bit: what at least two of three words have. -/
def twoOf (x y z : Half) : Half := (x ||| y) &&& (z ||| (x &&& y))

/-- One round over the eight working words, with the constant and the schedule word of the round. -/
def shaRound (v : List Half) (kw : Half × Half) : List Half :=
  match v with
  | [a, b, c, d, e, f, g, h] =>
    let up := kw.1 + kw.2 + h + pickBits e f g + turns [6, 11, 25] e
    [up + twoOf a b c + turns [2, 13, 22] a, a, b, c, d + up, e, f, g]
  | _ => v

/-- One block of 64 bytes. -/
def shaBlock (h : List Half) (b : List Byte) : List Half :=
  let w := (upFrom 0 16).map fun i => BitVec.ofNat 32 (bigNat ((b.drop (4 * i)).take 4))
  let ws := (shaSchedule 48 w.reverse).reverse
  List.zipWith (· + ·) h ((List.zip shaK ws).foldl shaRound h)

/-- The digest of a message, 32 bytes. -/
def sha256 (m : List Byte) : List Byte :=
  let p := shaPad m
  ((upFrom 0 (p.length / 64)).foldl (fun h i => shaBlock h ((p.drop (64 * i)).take 64)) shaH).flatMap fun w =>
    bigBytes 4 w.toNat

end Sys2Proof.Machine
end

