-- ==== Sys2Proof/Machine/Trans.lean ====
section
/-! DEFINITION. Events of translation and of the caches: invalidations (R326), answers to page requests and their
timeout (R331, R418, R419), and cache sweeps (R254). -/

namespace Sys2Proof.Machine

/-- A strand whose stop waited for a page request comes to its save again (R331, R384). -/
def State.settleAll (s : State) (d : Nat) : State :=
  (s.strands.filter fun e => slotDie e.1 == d && e.2.stop.isSome).foldl (fun (s : State) e => s.settle e.1) s

/-- A GO write to MMU.INV_CTL (R326): ignored while BUSY is 1; what is covered is taken from the registers. -/
def State.goInv (s : State) (d : Nat) : State :=
  if (s.reg d 0x618).getLsbD 1 then s
  else
    let v := (bits (s.reg d 0x610) 12 44 * 4096, s.reg d 0x618)
    (s.setField d 0x618 1 1 1).onDie d fun x => { x with inv := some v }

/-- INVALIDATION (R326). -/
def execInvalidation (d : Nat) (s : State) : Host.Outcome State Fault Refusal :=
  onUnit (d < 4) (if s.dieUp d then s.goInv d else s)

/-- An invalidation covers a cached translation (R326): every context with ALL; the whole context with PAGES 0; else the
pages that the range meets. -/
def invCovers (va : Nat) (ctl : Word) (t : Tlb) : Bool :=
  ctl.getLsbD 4 || (t.ctx == bits ctl 16 16 &&
    (bits ctl 32 32 == 0 || (t.va < va + 4096 * bits ctl 32 32 && va < t.va + t.size)))

/-- An invalidation covers a table entry of the walk cache (R325, R326). -/
def invSteps (va : Nat) (ctl : Word) (t : WalkStep) : Bool :=
  invCovers va ctl { ctx := t.ctx, va := t.va, size := 2 ^ (12 + 9 * t.lv), pte := t.pte }

/-- A copy holds the translation of a record that an invalidation covers (R326). -/
def Copy.uses (c : Copy) (va : Nat) (ctl : Word) : Bool :=
  c.work.any fun x => match x with
    | .quant _ _ (some r) _ => invCovers va ctl { ctx := c.ctx, va := r.va, size := 128, pte := 0 }
    | .pages _ _ (some r) _ => invCovers va ctl { ctx := c.ctx, va := r.va, size := 128, pte := 0 }
    | _ => false

/-- INVALIDATION_COMPLETE (R326): no cached translation or table entry that it covers is left, and no copy goes on with one; ATS answers are
asked for anew. -/
def execInvalidationComplete (d : Nat) (s : State) : Host.Outcome State Fault Refusal :=
  onUnit (d < 4) (match (s.die d).inv with
    | none => s
    | some (va, ctl) =>
      if (s.die d).copies.any (fun e => e.2.uses va ctl) then s
      else
      let s := s.onDie d fun x => { x with
        inv := none
        ats := []
        tlb := x.tlb.filter fun t => !invCovers va ctl t
        steps := x.steps.filter fun t => !invSteps va ctl t }
      (s.setField d 0x618 1 1 0).setField d 0x618 3 1 1)

/-- A page request gets its answer, or its end (R331): where it is the die's under a place in its list. One whose strand has left its slot has
nothing more to do. -/
def State.priSet (s : State) (d : Nat) (f : Pri → Bool) (a : Nat) : State :=
  let put := fun p : Pri =>
    if f p && p.ans.isNone then (if p.left.isSome then none else some { p with ans := some a }) else some p
  (s.onDie d fun x => { x with pri := x.pri.filterMap put }).settleAll d

/-- PRI_ANSWER (R418, R419): codes 0 Success, 1 Invalid Request, others Response Failure, which reaches every waiting access
of the context and disables it. An answer that matches no request is dropped and counted. -/
def execPriAnswer (d grp : Nat) (gen : BitVec 16) (code : Nat) (s : State) : Host.Outcome State Fault Refusal :=
  onUnit (d < 4) (
    let hit := fun p : Pri => p.grp == grp && p.gen == gen && p.ans.isNone
    match (s.die d).pri.find? hit with
    | none => s.bumpField d 0x630 48 16 1
    | some p =>
      if code = 0 ∨ code = 1 then s.priSet d hit code
      else (s.onDie d fun x => { x with priDis := insertNat x.priDis p.ctx }).priSet d (fun q => q.ctx == p.ctx) 2)

/-- PRI_TIMEOUT (R419): request `r` of the die has had no answer for TIMEOUT ms. -/
def execPriTimeout (d r : Nat) (s : State) : Host.Outcome State Fault Refusal :=
  onUnit (d < 4) (
    let ms := bits (s.reg d 0x630) 0 16
    match (s.die d).pri[r]? with
    | none => s
    | some p =>
      if ms = 0 || p.ans.isSome || s.time < p.at_ + ms * 1000000 * 65536 then s
      else s.priSet d (fun q => q == p) 3)

/-- CLR of MMU.PRI_CTL (R418, R419). -/
def State.goClr (s : State) (d : Nat) : State :=
  let c := bits (s.reg d 0x630) 32 16
  s.onDie d fun x => { x with priDis := x.priDis.filter (· != c) }

/-- PRI_CLEAR (R419). -/
def execPriClear (d : Nat) (s : State) : Host.Outcome State Fault Refusal :=
  onUnit (d < 4) (if s.dieUp d then s.goClr d else s)

/-- The die of a host port (R15). -/
def portDie (p : Nat) : Nat := if p = 0 then 0 else 3

/-- ATS_INVALIDATION_REQUEST (R331): the host has mapped the pages anew, and the port's die holds no covered answer any longer. -/
def execAtsInvalidationRequest (p : Nat) (pasid : BitVec 20) (base : BitVec 64) (pages : Nat) (s : State) :
    Host.Outcome State Fault Refusal :=
  onUnit (p < 2) (
    let cov := fun t : Tlb => t.ctx == pasid.toNat && base.toNat / 4096 ≤ t.va && t.va < base.toNat / 4096 + pages
    let anew := (s.die (portDie p)).ats.filter cov
    { s with hostMap := anew.foldl (fun m (t : Tlb) =>
        let n := hostPageNo p t.ctx t.va
        Tab.put m n (Tab.getD m n 0 + 1)) s.hostMap }.onDie (portDie p) fun x => { x with ats := x.ats.filter fun t => !cov t })

/-- An import slot of a die names another die of the package (R254, R328, R329). -/
def State.importsFrom (s : State) (d e : Nat) : Bool :=
  (upFrom 0 256).any fun i => match tableLoc d 0 (bits (s.reg d 0x628) 12 40 * 4096 + 16 * i) with
    | none => false
    | some l =>
      let h := s.peekWord l
      (s.peekWord (l.add 8)).getLsbD 0 && bits h 48 16 == bits (s.reg d 0x900) 0 16 && bits h 46 2 == e

/-- The line lies in a range of physical addresses of a die (R254): its HBM, or the host memory behind its port. -/
def inSweep (home pa n line : Nat) : Bool :=
  let k := line * 128
  (home * 2 ^ 52 + pa ≤ k && k < home * 2 ^ 52 + pa + n && k < home * 2 ^ 52 + 0x3000000000) ||
    ((home == 0 || home == 3) &&
      (let b := 2 ^ 54 + (if home = 0 then 0 else 1) * 2 ^ 52
       b + pa ≤ k + 0xE000000000000 && k + 0xE000000000000 < b + pa + n && b ≤ k && k < b + 2 ^ 48))

/-- Change every listed tile of a die. -/
def State.dieTiles (s : State) (d : Nat) (f : Tile → Tile) : State :=
  { s with tiles := s.tiles.map fun (e : Nat × Tile) => if e.1 / 24 = d then (e.1, f e.2) else e }

/-- The lines of a range leave every L1, sampler cache and L2 of a die (R254, R145): dirty lines written back, or discarded
with what the home L2 held of them. They are tensor record lines no longer (R253). -/
def State.sweepLines (s : State) (d : Nat) (wb : Bool) (f : Nat → Bool) : State :=
  let s := s.dieTiles d fun t => { t with smp := [] }
  let own : Tab Tile := s.tiles.filter fun e => e.1 / 24 == d
  let l1 : Tab Line := own.flatMap fun e => e.2.l1.filter fun x => f x.1
  let s := if wb then s.writeBacks l1 else s
  let s := s.dieTiles d fun t => { t with l1 := t.l1.filter fun x => !f x.1 }
  let l2 : Tab Line := (s.die d).l2.filter fun x => f x.1
  let s := if wb then s else (l2.filter fun x => homeOf x.1 == d).foldl State.loseLine s
  { s with recLines := s.recLines.filter fun n => !f n }.onDie d fun x =>
    { x with l2 := x.l2.filter (fun y => !f y.1), wins := x.wins.filter fun y => !f y.2 }

/-- A GO write to MEM.SWEEP_CTL (R254): ignored while BUSY is 1; refused with ERR; else the lines are swept. -/
def State.goSweep (s : State) (d : Nat) : State :=
  let ctl := s.reg d 0x110
  let pa := bits (s.reg d 0x100) 12 40 * 4096
  let n := bits (s.reg d 0x108) 0 32 * 4096
  let home := bits ctl 6 2
  if ctl.getLsbD 1 then s
  else if (home ≠ d ∧ !s.importsFrom d home) ∨ 2 ^ 52 < pa + n then (s.setField d 0x110 2 1 1).setField d 0x110 3 1 1
  else
    let s := s.sweepLines d (ctl.getLsbD 5) (inSweep home pa n)
    if n = 0 then s.setField d 0x110 3 1 1 else s.setField d 0x110 1 1 1

/-- CACHE_SWEEP (R254). -/
def execCacheSweep (d : Nat) (s : State) : Host.Outcome State Fault Refusal :=
  onUnit (d < 4) (if s.dieUp d then s.goSweep d else s)

/-- SWEEP_DONE (R254). -/
def execSweepDone (d : Nat) (s : State) : Host.Outcome State Fault Refusal :=
  onUnit (d < 4) (
    if (s.reg d 0x110).getLsbD 1 then (s.setField d 0x110 1 1 0).setField d 0x110 3 1 1 else s)

end Sys2Proof.Machine
end

