-- ==== Sys2Proof/Machine/Reset.lean ====
section
/-! DEFINITION. The package semaphore (R15, R338, R404, R429), die reset and package reset (R402, R405, R435, R442), the
boot of a die (R435, R436), and a load of firmware (R436). -/

namespace Sys2Proof.Machine

/-- 100 ms: the lease of the package semaphore (R338). -/
def leaseTime : Nat := 100000000 * 65536

/-- The lease of the package semaphore runs out (R338, R429): D0 frees it and tells its host fault queue. -/
def State.semExpire (s : State) : State :=
  if s.semOwner = 0 ∨ s.time < s.semLease then s
  else
    { s with semOwner := 0, semExpired := true }.hostFault 0
      { cls := 9, code := 8, info := s.semOwner.zeroExtend 64, src := 4 }

/-- An edge has trained since the package reset: it carries traffic, or will again once it has retrained (R333, R435). -/
def Edge.live (x : Edge) : Bool := x.up || (x.train.isSome && x.why != 0)

/-- A host port that is not down reaches a die: every edge of the route to it has trained since the package reset (R404, R428,
R435). -/
def State.portSees (s : State) (p d : Nat) : Bool :=
  !s.portsDown.contains p && match s.route (portDie p) d with
    | some l => l.all fun e => (s.edge e).live
    | none => false

/-- A host access through a port to one of several dies would cross an edge that retrains (R333). -/
def State.hostWaits (s : State) (p : Nat) (ds : List Nat) : Bool :=
  ds.any fun d => s.portSees p d && s.crossWaits (portDie p) d

/-- A host access that waits for an edge that retrains (R333) is made once it has; else what it does. -/
def State.orWait (s : State) (p : Nat) (ds : List Nat) (i : HostAccess) (f : State) : State :=
  if s.hostWaits p ds then { s with waiting := s.waiting ++ [i] } else f

/-- A package-wide write through a port is judged at D0 (R15, R338, R404, R429): whether it is accepted; where D0 is
unreachable it is dropped and leaves PWDENIED. Of the operations of R15 the spec gives a 'partition change' no register: the
model has none to judge (DESIGN CHOICE, log 63). -/
def State.gate (s : State) (p : Nat) : Bool × State :=
  if s.portsDown.contains p then (false, s)
  else if (s.half (portDie p)).contains 0 then
    let s := s.semExpire
    (s.semOwner.toNat == p + 1, s)
  else (false, s.setField (portDie p) 0xA08 3 1 1)

/-- Every access to PKG_SEM through the port that holds it restarts the lease (R338). -/
def State.semTouch (s : State) (p : Nat) : State :=
  if s.semOwner.toNat = p + 1 then { s with semLease := s.time + leaseTime } else s

/-- A write of PKG_SEM (R338). Where the lease runs out as the write arrives, EXPIRED reads 1 after it (R9). -/
def State.semWrite (s : State) (p : Nat) (v : Word) : State :=
  if !s.portSees p 0 then s
  else
    let now := s.semOwner != 0 && s.time == s.semLease
    let s := s.semExpire
    let s := if v.getLsbD 2 && !now then { s with semExpired := false } else s
    let w := bits v 0 2
    let s := if w = p + 1 ∧ s.semOwner = 0 then { s with semOwner := BitVec.ofNat 2 w } else s
    let s := s.semTouch p
    if w = 0 ∧ s.semOwner.toNat = p + 1 then { s with semOwner := 0 } else s

/-- PKG_SEM_WRITE (R338). -/
def execPkgSemWrite (p : Nat) (v : BitVec 64) (s : State) : Host.Outcome State Fault Refusal :=
  onUnit (p < 2) (s.orWait p [0] (.semWrite p v) (s.semWrite p v))

/-- PKG_SEM_READ (R338). -/
def execPkgSemRead (p : Nat) (s : State) : Host.Outcome State Fault Refusal :=
  onUnit (p < 2) (s.orWait p [0] (.semRead p) (if s.portSees p 0 then s.semExpire.semTouch p else s))

/-- PKG_SEM_LEASE_EXPIRY (R429). -/
def execPkgSemLeaseExpiry (s : State) : Host.Outcome State Fault Refusal := .next s.semExpire

/-- Lines that a cache held dirty when it, or its way to their home, was lost: each is poisoned at its home (R402, R403). -/
def State.loseDirty (s : State) (l : Tab Line) : State :=
  l.foldl (fun (s : State) x => { s with poison := insertNat s.poison x.1 }) s

/-- The dirty lines of the L1s of a die. -/
def State.dirtyL1 (s : State) (d : Nat) : Tab Line :=
  s.tiles.flatMap fun e => if e.1 / 24 = d then e.2.l1.filter fun x => x.2.dirty.any id else []

/-- The launches that a reset of a die ends (R402 step 1): its own, and those elsewhere that span it. -/
def State.launchesAt (s : State) (d : Nat) : List (Nat × Nat) :=
  [0, 1, 2, 3].flatMap fun e =>
    ((s.die e).launches.filter fun x => e == d || (x.2.span && (groupOf x.2.group).contains d)).map fun x => (e, x.1)

/-- Nothing that a die accepted can still perform (R367 step 2, R402 step 1): its copies have ended, and each store queue is
empty or held at its head. -/
def State.restful (s : State) (d : Nat) : Bool :=
  !((s.die d).copies.any fun c => c.2.job.isNone) &&
    (s.strands.all fun e => slotDie e.1 != d || e.2.sq.isEmpty || e.2.isStuck || [4, 5, 11].contains (e.2.causeAt 8))

/-- The edges of a die. -/
def dieEdges (d : Nat) : List Nat := [0, 1, 2, 3].filter fun e => (edgeEnds e).1 == d || (edgeEnds e).2 == d

/-- The edge registers that hold no state of the hardware take their Reset column (R7, R332); the edge itself stays in
service. -/
def Edge.cleared (x : Edge) : Edge :=
  { x with fbthr := 64, auto := true, tgt := 0, crcerr := 0, replays := 0, degr := false, denied := false }

/-- The bytes of the tile stores of a die (R442). -/
def inTiles (d key : Nat) : Bool := 2 ^ 55 + d * 24 * 2 ^ 23 ≤ key && key < 2 ^ 55 + (d + 1) * 24 * 2 ^ 23

/-- A die loses what it holds (R402 steps 2 to 4, R442): tiles, stores, caches, queues and registers; lines that it held
dirty are poisoned; its time counter runs on (R231), and handles that name it fault until MMU.EXP_BASE is written. -/
def State.wipe (s : State) (d st : Nat) : State :=
  let s := s.loseDirty (s.dirtyL1 d)
  let s := s.loseDirty ((s.die d).l2.filter fun x => homeOf x.1 == d)
  let s := (dieEdges d).foldl (fun (s : State) e => s.onEdge e Edge.cleared) s
  let x := s.die d
  let s := { s with
    strands := s.strands.filter fun e => slotDie e.1 != d
    tiles := s.tiles.filter fun e => e.1 / 24 != d
    mem := s.mem.filter fun c => !inTiles d c.1
    poison := s.poison.filter fun n => !inTiles d (n * 128)
    marks := s.marks.filter fun n => !inTiles d n
    empties := s.empties.filter fun n => n / 32768 / 24 != d
    dies := s.dies.map fun (e : Nat × Die) => (e.1, { e.2 with l2 := e.2.l2.filter fun y => homeOf y.1 != d }) }
  s.setDie d
    { state := st, noExp := true, lag := x.lag, slew := x.slew, slewing := x.slewing, timeLocked := x.timeLocked,
      holdover := x.holdover, adjAt := x.adjAt, adjOk := x.adjOk }

/-- A die that is being reset loses what it holds once its launches have come to their end (R402). -/
def State.resetMore (s : State) (d : Nat) : State :=
  match (s.die d).quiesce with
  | none => s
  | some st =>
    if s.restful d then
      let s := { s with strands := s.strands.filter fun e => slotDie e.1 != d }
      let s := (s.die d).launches.foldl (fun (s : State) e => s.closeLaunch d e.1 4) s
      s.wipe d st
    else s

/-- A die reset begins (R402): its launches are ended, each recorded as `f` says; the die boots, or is held where `st` is 5.
A die that is held stays so until a package reset (R405, R439). -/
def State.startReset (s : State) (d st : Nat) (f : Flt) : State :=
  if (s.die d).state = 5 then s
  else
    let s := s.onDie d fun x => { x with quiesce := some (max st (x.quiesce.getD 0)) }
    let s := (s.launchesAt d).foldl (fun (s : State) p => s.abortLaunch p.1 p.2 f) s
    (s.onDie d fun x => { x with state := 0, fail := 0 }).resetMore d

/-- The record of a launch that a die reset ends (R367). -/
def resetFlt : Flt := { cls := 0x0B, code := 6 }

/-- DIE_RESET (R402), through a port that holds the semaphore. -/
def execDieReset (d p : Nat) (s : State) : Host.Outcome State Fault Refusal :=
  onUnit (d < 4 ∧ p < 2) (s.orWait p [0, d] (.reset d p) (
    let (ok, s) := s.gate p
    if ok && s.portSees p d && (s.die d).state != 4 then s.startReset d 0 resetFlt else s))

/-- THERMAL_RESET (R439). -/
def execThermalReset (d : Nat) (s : State) : Host.Outcome State Fault Refusal := onUnit (d < 4) (s.startReset d 5 resetFlt)

/-- A package reset (R435, R441, R442): every launch ends without records, every die loses what it holds, and the package's
registers and its time counter return to their reset values. -/
def State.packageReset (s : State) : State :=
  let s := [0, 1, 2, 3].foldl (fun (s : State) d => s.wipe d 0) s
  { State.reset with
    mem := s.mem
    poison := s.poison
    marks := s.marks
    told := s.told
    recLines := s.recLines
    flash := s.flash
    hostMap := s.hostMap
    hostGot := s.hostGot
    inputs := s.inputs
    agenda := s.agenda
    choice := s.choice
    cur := s.cur }

/-- PACKAGE_RESET (R435). -/
def execPackageReset (s : State) : Host.Outcome State Fault Refusal := .next s.packageReset

/-- PORT_FUNDAMENTAL_RESET (R435): only that port's link is reset, and comes back. -/
def execPortFundamentalReset (p : Nat) (s : State) : Host.Outcome State Fault Refusal :=
  onUnit (p < 2) { s with portsDown := s.portsDown.filter (· != p) }

/-- SB_RESET (R441). -/
def execSbReset (v : BitVec 8) (s : State) : Host.Outcome State Fault Refusal :=
  .next (if v.getLsbD 0 then s.packageReset else s)

/-- The image that the flash holds (R435). -/
def State.image (s : State) : List Byte := s.flash.getD Config.factoryImage

/-- The digest of an image (R436): header bytes 0 to 63 and every byte past 127. -/
def imageDigest (m : List Byte) : List Byte := sha256 (m.take 64 ++ m.drop 128)

/-- An image verifies (R436). -/
def imageOk (m : List Byte) : Bool := 128 ≤ m.length && Config.signedImage (imageDigest m) ((m.drop 64).take 64)

/-- An edge begins to train at a rate (R333, R435), and carries no traffic until it has. -/
def State.trainAt (s : State) (e : Nat) (r : BitVec 3) (why : Nat) : State :=
  s.onEdge e fun x => { x with train := some r, why := why, up := false }

/-- A die runs (R435): its edges that are not down, and whose other die runs, train at 32 GT/s. -/
def State.beginRun (s : State) (d : Nat) : State :=
  let m := s.image
  let s := s.onDie d fun x => { x with state := 3, ran := m }
  (dieEdges d).foldl (fun (s : State) e =>
    let (a, b) := edgeEnds e
    if (s.edge e).down || !(s.dieUp a && s.dieUp b) then s
    else (s.trainAt e 0 0).onEdge e fun x => { x with tgt := 0, cur := 0, fails := 0 }) s

/-- BOOT_STATE_ADVANCE (R435, R436): training that may fail, an image that may be unreadable, its verification, running. -/
def execBootStateAdvance (d : Nat) (s : State) : Host.Outcome State Fault Refusal :=
  onUnit (d < 4) (
    let dest := fun (s : State) (st fail : Nat) => s.onDie d fun x => { x with state := st, fail := fail }
    if (s.die d).quiesce.isSome then s.resetMore d
    else match (s.die d).state with
      | 0 => dest s 1 0
      | 1 =>
        let (j, s) := s.pick 2
        if j = 0 then dest s 2 0 else dest s 4 3
      | 2 =>
        let (j, s) := s.pick 2
        if j = 1 then dest s 4 2 else if imageOk s.image then s.beginRun d else dest s 4 1
      | _ => s)

/-- A load of an image from the host behind a port (R436): verified, written to flash, and each reachable die reset. -/
def State.loadImage (s : State) (d p : Nat) (v : Word) : State :=
  let (ok, s) := s.gate p
  if !ok || !s.portSees p d then s
  else
    let l : Loc := .host p (bits v 12 36 * 4096)
    let n := s.peekNat l 4
    if s.poisoned l.key n then s
    else
      let m := s.peek l n
      if imageOk m then
        ([0, 1, 3, 2].filter fun e => (s.half 0).contains e).foldl (fun (s : State) e => s.startReset e 0 resetFlt)
          { s with flash := some m }
      else s

/-- FIRMWARE_LOAD (R436): on a die that takes writes, or has failed to boot (R338). -/
def execFirmwareLoad (d p : Nat) (hpa : BitVec 64) (s : State) : Host.Outcome State Fault Refusal :=
  onUnit (d < 4 ∧ p < 2) (s.orWait p [0, d] (.load d p hpa) (
    let (ok, s) := s.gate p
    if ok && s.portSees p d && (s.dieUp d || (s.die d).state == 4) then
      (s.setField d 0xE08 12 36 (bits hpa 12 36)).loadImage d p hpa
    else s))

end Sys2Proof.Machine
end

