-- ==== Sys2Proof/Machine/Link.lean ====
section
/-! DEFINITION. Die edges (R332 to R334, R399 to R401), their loss and partitions (R400, R403 to R406), fabric ports (R335),
and host ports (R337, R428). -/

namespace Sys2Proof.Machine

/-- An event of an edge. -/
def onEdgeUnit (e : Nat) (s : State) : Host.Outcome State Fault Refusal := onUnit (e < 4) s

/-- 1 ms (R334). -/
def msTime : Nat := 1000000 * 65536

/-- The detail of a link record (R401): the edge before the event, and the package after it. -/
def State.linkInfo (s : State) (e : Nat) (old : Edge) : Word :=
  let x := s.edge e
  wordOf [(s.epoch.toNat, 56), (x.mods.toNat, 32), (old.mods.toNat, 8), (x.cur.toNat, 5), (old.cur.toNat, 2), (e, 0)]

/-- A link record to the host fault queue of each die of a list that runs (R401). -/
def State.linkRecord (s : State) (e code : Nat) (old : Edge) (ds : List Nat) : State :=
  let f : Flt := { cls := 7, code := code, info := s.linkInfo e old, src := 5 }
  ds.foldl (fun (s : State) d => if s.dieUp d then s.hostFault d f else s) s

/-- The dies that an edge joins, as a list. -/
def edgeDies (e : Nat) : List Nat := [(edgeEnds e).1, (edgeEnds e).2]

/-- A write of LINK.RATE is one to TGT (R333): its value is no reserved one, and differs from the current TGT. -/
def State.newRate (s : State) (e : Nat) (v : Word) : Bool := bits v 4 3 ≤ 4 && bits v 4 3 != (s.edge e).tgt.toNat

/-- A write of LINK.RATE through a port (R332, R333, R404): a new TGT needs the semaphore. Outside D0's half it sets PWDENIED, whichever edge it
names. -/
def State.rateWrite (s : State) (e p : Nat) (v : Word) : State :=
  let old := s.edge e
  let soft := fun (s : State) => s.onEdge e fun x => { x with fbthr := BitVec.ofNat 16 (bits v 16 16), auto := v.getLsbD 8 }
  let sees := (edgeDies e).any fun d => s.dieUp d && s.portSees p d
  if !s.newRate e v then (if sees then soft s else s)
  else if !(s.half (portDie p)).contains 0 then (s.gate p).2
  else if !sees then s
  else
    let t := bits v 4 3
    let (ok, s) := s.gate p
    let s := soft s
    if ok && !old.down then (s.trainAt e (BitVec.ofNat 3 t) 2).onEdge e fun x => { x with tgt := BitVec.ofNat 3 t }
    else s.onEdge e fun x => { x with denied := true }

/-- OVERDRIVE (R333). -/
def execOverdrive (e p : Nat) (v : BitVec 64) (s : State) : Host.Outcome State Fault Refusal :=
  onUnit (e < 4 ∧ p < 2) (s.orWait p (0 :: edgeDies e) (.rate e p v) (s.rateWrite e p v))

/-- Lines of a die whose home it can no longer reach (R403): copies in its L2 and L1s leave, and dirty ones leave their home
line poisoned. -/
def State.cutLines (s : State) (d : Nat) : State :=
  let far := fun n : Nat => homeOf n < 4 && !(s.half d).contains (homeOf n)
  let s := s.loseDirty ((s.dirtyL1 d).filter fun x => far x.1)
  (s.dieTiles d fun t => { t with l1 := t.l1.filter fun x => !far x.1 }).onDie d fun x =>
    { x with l2 := x.l2.filter fun y => !far y.1 }

/-- The package is cut (R404, R405): the semaphore returns to D0's half, spanning launches across the cut are aborted, cached
lines across it leave, and a die isolated without a host port resets itself and is held. -/
def State.cutPackage (s : State) (e : Nat) (old : Edge) : State :=
  let f : Flt := { cls := 7, code := 5, info := s.linkInfo e old, src := 5 }
  let s := s.linkRecord e 5 old (edgeDies e)
  let s := if s.semOwner = 0 || (s.half 0).contains (portDie (s.semOwner.toNat - 1)) then s
    else { s with semOwner := 0, semExpired := true }
  let across := fun (d : Nat) (l : Launch) =>
    l.span && (groupOf l.group).any fun m => decide (m < 4) && !(s.half d).contains m
  let ls := [0, 1, 2, 3].flatMap fun d => ((s.die d).launches.filter fun x => across d x.2).map fun x => (d, x.1)
  let s := ls.foldl (fun (s : State) p => s.abortLaunch p.1 p.2 f) s
  let s := [0, 1, 2, 3].foldl State.cutLines s
  [1, 2].foldl (fun (s : State) d =>
    if s.half d = [d] ∧ (s.die d).state ≠ 5 then
      (s.startReset d 5 f).linkRecord e 6 old ([0, 1, 2, 3].filter (· != d))
    else s) s

/-- An edge is lost (R400, R401): it carries nothing until the package is reset. -/
def State.edgeLost (s : State) (e : Nat) : State :=
  let old := s.edge e
  if old.down then s
  else
    let reach := [0, 1, 2, 3].map s.half
    let s := s.onEdge e fun x =>
      { x with down := true, up := false, cur := 0, degr := true, train := none, downAt := some s.time }
    let s := { s with epoch := s.epoch + 1 }
    let host := fun d => [0, 1].any fun p => s.portSees p d
    let s := s.linkRecord e 4 old ([0, 1, 2, 3].filter fun d => (edgeDies e).contains d || host d)
    if [0, 1, 2, 3].map s.half = reach then s else s.cutPackage e old

/-- EDGE_DOWN (R400). -/
def execEdgeDown (e : Nat) (s : State) : Host.Outcome State Fault Refusal := onEdgeUnit e (s.edgeLost e)

/-- Training of an edge ends (R333, R334, R400, R401, R435). A rate lost by a fall-back is recorded as stepped down. -/
def State.trained (s : State) (e : Nat) (ok : Bool) : State :=
  let old := s.edge e
  match old.train with
  | none => s
  | some r =>
    let lower := r.toNat < old.cur.toNat
    if ok then
      let s := s.onEdge e fun x =>
        { x with
          cur := r
          up := true
          train := none
          fails := 0
          tgt := if x.why = 2 then x.tgt else r
          degr := x.degr || lower }
      if old.why = 2 then s.linkRecord e 2 old (edgeDies e)
      else if old.why = 1 ∨ lower then s.linkRecord e 1 old (edgeDies e) else s
    else
      let s := if r = 0 then s.onEdge e fun x => { x with fails := x.fails + 1 } else s
      if 3 ≤ (s.edge e).fails then s.edgeLost e
      else if old.why = 0 ∨ old.why = 3 then s.trainAt e 0 old.why
      else s.onEdge e fun x => { x with tgt := x.cur, denied := true, train := none, up := true }

/-- EDGE_TRAINING_COMPLETE (R333). -/
def execEdgeTrainingComplete (e : Nat) (ok : Bool) (s : State) : Host.Outcome State Fault Refusal :=
  onEdgeUnit e (s.trained e ok)

/-- The replays of an edge within the last 1 ms. -/
def State.replaysNow (s : State) (e : Nat) : List Nat := (s.edge e).recent.filter fun t => s.time < t + msTime

/-- AUTOMATIC_STEP_DOWN (R334). -/
def execAutomaticStepDown (e : Nat) (s : State) : Host.Outcome State Fault Refusal :=
  onEdgeUnit e (
    let x := s.edge e
    if x.auto && x.cur != 0 && x.up && x.train.isNone && x.fbthr.toNat < (s.replaysNow e).length then
      (s.trainAt e (x.cur - 1) 1).onEdge e fun y => { y with recent := [] }
    else s)

/-- The width code of a module (R332). -/
def Edge.width (x : Edge) (m : Nat) : Nat := x.mods.toNat / 4 ^ m % 4

/-- MODULE_WIDTH_HALVING (R334, R401): a module that is in service halves its width, or leaves service. -/
def execModuleWidthHalving (e m : Nat) (s : State) : Host.Outcome State Fault Refusal :=
  onUnit (e < 4 ∧ m < 12) (
    let old := s.edge e
    if old.width m = 3 then s
    else
      let s := s.onEdge e fun x => { x with mods := x.mods + BitVec.ofNat 24 (4 ^ m), degr := true }
      let s := s.linkRecord e 3 old (edgeDies e)
      if (s.edge e).mods.toNat = 2 ^ 24 - 1 then s.edgeLost e
      else if old.down then s else s.trainAt e old.cur (if old.live then 3 else 0))

/-- Add one to a counter of an edge, saturating. -/
def satInc {w : Nat} (v : BitVec w) : BitVec w := if v = BitVec.allOnes w then v else v + 1

/-- An edge replays a flit (R399). -/
def State.replay (s : State) (e : Nat) : State :=
  let l := s.replaysNow e
  s.onEdge e fun x => { x with replays := satInc x.replays, recent := l ++ [s.time] }

/-- FLIT_CRC_ERROR (R399). -/
def execFlitCrcError (e : Nat) (s : State) : Host.Outcome State Fault Refusal :=
  onEdgeUnit e (
    if (s.edge e).up then (s.replay e).onEdge e fun x => { x with crcerr := satInc x.crcerr } else s)

/-- SPARE_LANE_REPAIR (R332, R334). -/
def execSpareLaneRepair (e : Nat) (s : State) : Host.Outcome State Fault Refusal :=
  onEdgeUnit e (s.onEdge e fun x => { x with repaired := satInc x.repaired })

/-- A load at the head of its queue that has been outstanding since a time goes to die `b`: it faults (R400, R403). -/
def State.cutLoad (s : State) (b t0 k : Nat) : State :=
  match s.strand k with
  | none => s
  | some st => match st.lq with
    | [] => s
    | m :: _ => match s.locate (s.whoOf k st) kLoad m.a.toNat 1 with
      | .ok (l, _, _) _ =>
        if l.home = b && m.at_ ≤ t0 then s.accessFlt k (unreachable (bits (s.reg (slotDie k) 0x900) 0 16) b m.a) m.w.pc 1 else s
      | _ => s

/-- The losses of an edge at least 100 µs ago that changed the route of a pair of dies, there or back (R12, R400). -/
def State.rerouted (s : State) (a b : Nat) : List Nat :=
  [0, 1, 2, 3].filterMap fun e => (s.edge e).downAt.bind fun t =>
    let ok := fun n => match (s.edge n).downAt with | some u => t ≤ u | none => true
    let used := fun x y => ((routeOver ok x y).getD []).contains e
    if t + 100000 * 65536 ≤ s.time ∧ (used a b || used b a) then some t else none

/-- REROUTE_TIMEOUT (R397, R400): 100 µs after the loss of an edge that the pair's route used, what die `a` still has outstanding
at die `b` from before the loss is written off. -/
def execRerouteTimeout (a b : Nat) (s : State) : Host.Outcome State Fault Refusal :=
  onUnit (a < 4 ∧ b < 4) (
    let at_ := s.rerouted a b
    if a = b ∨ at_.isEmpty then s
    else
      let s := s.onDie a fun x => { x with acks := x.acks.map fun y =>
        if y.2.home = b && !y.2.pkg && at_.any (y.2.at_ ≤ ·) then (y.1, { y.2 with lost := true }) else y }
      ((s.strands.filter fun e => slotDie e.1 == a).map (·.1)).foldl (fun (s : State) k => s.cutLoad b (at_.foldl max 0) k) s)

/-- FABRIC_PORT_DOWN (R335). -/
def execFabricPortDown (d n : Nat) (s : State) : Host.Outcome State Fault Refusal :=
  onUnit (d < 4 ∧ n < 4) (s.setField d (0x908 + 8 * n) 0 4 0)

/-- FABRIC_PORT_TRAINED (R435): UP 1, LANES 7. -/
def execFabricPortTrained (d n : Nat) (s : State) : Host.Outcome State Fault Refusal :=
  onUnit (d < 4 ∧ n < 4) (s.setField d (0x908 + 8 * n) 0 4 15)

/-- UNCORRECTABLE_FRAME (R335). -/
def execUncorrectableFrame (d n : Nat) (s : State) : Host.Outcome State Fault Refusal :=
  onUnit (d < 4 ∧ n < 4) (s.bumpField d (0x908 + 8 * n) 32 32 1)

/-- The line lies in the host memory behind a port. -/
def behindPort (p line : Nat) : Bool :=
  2 ^ 54 + p * 2 ^ 52 ≤ line * 128 && line * 128 < 2 ^ 54 + (p + 1) * 2 ^ 52

/-- Host lines in the caches of the device when the port is lost (R428): clean ones are dropped, dirty ones poisoned. -/
def State.dropHost (s : State) (p : Nat) : State :=
  let s := [0, 1, 2, 3].foldl (fun (s : State) d => s.loseDirty ((s.dirtyL1 d).filter fun x => behindPort p x.1)) s
  let s := s.loseDirty ((s.die (portDie p)).l2.filter fun x => behindPort p x.1)
  let s := [0, 1, 2, 3].foldl (fun (s : State) d =>
    s.dieTiles d fun t => { t with l1 := t.l1.filter fun x => !behindPort p x.1 }) s
  { s with dies := s.dies.map fun (e : Nat × Die) => (e.1, { e.2 with l2 := e.2.l2.filter fun x => !behindPort p x.1 }) }

/-- Queues of a die whose descriptor or ring lies behind a port that is down become broken (R420, R428). -/
def State.breakRings (s : State) (d : Nat) : State :=
  (s.die d).bound.foldl (fun (s : State) q =>
    if !(s.die d).broken.contains q && s.ringLost d q then s.breakAny d q else s) s

/-- A host port is lost (R428). -/
def State.portLost (s : State) (p : Nat) : State :=
  if s.portsDown.contains p then s
  else
    let s := { s with portsDown := insertNat s.portsDown p }
    let names := fun (s : State) (d c : Nat) => match s.context d c with
      | some (c0, _, _) => c0.getLsbD 3 == (p == 1)
      | none => false
    let s := s.dropHost p
    let s := [0, 1, 2, 3].foldl (fun (s : State) d => s.priSet d (fun q => names s d q.ctx) 4) s
    let s := [0, 1, 2, 3].foldl (fun (s : State) d => if s.dieUp d then s.breakRings d else s) s
    [0, 1, 2, 3].foldl (fun (s : State) d =>
      if s.dieUp d && s.portSees (1 - p) d then
        s.hostFault d { cls := 9, code := 7, info := BitVec.ofNat 64 p, src := 4 }
      else s) s

/-- HOST_PORT_DOWN (R428). -/
def execHostPortDown (p : Nat) (s : State) : Host.Outcome State Fault Refusal := onUnit (p < 2) (s.portLost p)

/-- Where an HDM decoder of a port's die sends a host address (R337). -/
def State.hdmTarget (s : State) (p a : Nat) : Option (Nat × Nat) :=
  [0, 1, 2, 3].findSome? fun n =>
    let lo := s.reg (portDie p) (0x800 + 0x10 * n)
    let hi := s.reg (portDie p) (0x808 + 0x10 * n)
    let base := bits lo 28 36 * 2 ^ 28
    if lo.getLsbD 0 && base ≤ a && a < base + bits hi 40 24 * 2 ^ 28 then
      some (bits hi 38 2, bits hi 0 24 * 2 ^ 28 + (a - base))
    else none

/-- The pieces of a host access, line by line: host address and length. -/
def hostPieces (a n : Nat) : List (Nat × Nat) :=
  (upFrom (a / 128) (if n = 0 then 0 else (a + n - 1) / 128 - a / 128 + 1)).map fun l =>
    (max a (128 * l), min (a + n) (128 * l + 128) - max a (128 * l))

/-- The byte of a die's HBM that a host address of a port reaches (R337), where the port's die runs and reaches it. -/
def State.hostLoc (s : State) (p a : Nat) : Option Loc :=
  match s.hdmTarget p a with
  | some (d, o) =>
    if s.portsDown.contains p || !s.dieUp (portDie p) || !s.canReach (portDie p) d || 0x3000000000 ≤ o then none else some (.hbm d o)
  | none => none

/-- The dies that a host access reaches. -/
def State.hdmDies (s : State) (p a n : Nat) : List Nat := (hostPieces a n).filterMap fun x => (s.hdmTarget p x.1).map (·.1)

/-- The number of a line that the host at a port holds. -/
def hostLine (p line : Nat) : Nat := 2 * line + p

/-- Bytes of a line as the host gets them: none where the line's data carry poison (R394). -/
def Line.toHost (c : Line) (o n : Nat) : List (Option Byte) :=
  ((c.data.drop o).take n).map fun b => if c.bad then none else some b

/-- A host reads bytes of one line (R337): of the copy that it holds, or of the home, whose directory then tracks it as a sharer. It may let its
copy go at any time. -/
def State.hostFetch (s : State) (p : Nat) (l : Loc) (n : Nat) : List (Option Byte) × State :=
  let o := l.key % 128
  let (j, s) := s.pick 2
  match if j = 0 then Tab.find s.hostL (hostLine p l.line) else none with
  | some c => (c.toHost o n, s)
  | none =>
    let c : Line := { data := readMem s.mem (l.line * 128) 128, bad := s.poisoned (l.line * 128) 128 }
    (c.toHost o n, { s with hostL := Tab.put s.hostL (hostLine p l.line) c })

/-- HOST_CXL_MEM_ACCESS (R337): each line of it within a decoder's range is written as .g (R259), or read. -/
def execHostCxlMemAccess (p : Nat) (a : BitVec 64) (wr : Option (List (BitVec 8))) (len : Nat) (s : State) :
    Host.Outcome State Fault Refusal :=
  onUnit (p < 2) (s.orWait p (s.hdmDies p a.toNat len) (.mem p a wr len) (
    match wr with
    | some b => (hostPieces a.toNat (min len b.length)).foldl (fun (s : State) x => match s.hostLoc p x.1 with
        | some l => s.storeHome l ((b.drop (x.1 - a.toNat)).take x.2)
        | none => s) s
    | none =>
      let (got, s) := (hostPieces a.toNat len).foldl (fun (r : List (Option Byte) × State) x => match r.2.hostLoc p x.1 with
        | some l => let (b, s) := r.2.hostFetch p l x.2; (r.1 ++ b, s)
        | none => r) ([], s)
      { s with hostGot := Tab.put s.hostGot p got }))

end Sys2Proof.Machine
end

