-- ==== Sys2Proof/Machine/Keep.lean ====
section
/-! DEFINITION. Attestation (R437), the discipline of time (R231, R438), power and telemetry (R439), background activity
(R440), and memory errors (R392, R395, R396). -/

namespace Sys2Proof.Machine

/-- The nonce registers as bytes (R437). -/
def State.nonce (s : State) (d : Nat) : List Byte := wordBytes ([0xE48, 0xE50, 0xE58, 0xE60].map (s.reg d))

/-- A GO write to ATT.CTL (R437): the nonce is captured whole; ignored while BUSY is 1. -/
def State.goAtt (s : State) (d : Nat) : State :=
  if (s.reg d 0xE40).getLsbD 1 then s
  else
    let n := s.nonce d
    (s.setField d 0xE40 1 1 1).onDie d fun x => { x with att := some n }

/-- ATTESTATION (R437). -/
def execAttestation (d : Nat) (s : State) : Host.Outcome State Fault Refusal :=
  onUnit (d < 4) (if s.dieUp d then s.goAtt d else s)

/-- The report of R437 over a nonce. -/
def State.report (s : State) (d : Nat) (nonce : List Byte) : List Byte :=
  let body := nonce ++ imageDigest (s.die d).ran ++ leBytes 8 (Config.serial d).toNat ++
    [BitVec.ofNat 8 d, BitVec.ofNat 8 (s.die d).state] ++ List.replicate 22 0
  body ++ bigBytes 64 (Config.signReport d (sha256 body)).toNat

/-- ATTESTATION_DONE (R437). -/
def execAttestationDone (d : Nat) (s : State) : Host.Outcome State Fault Refusal :=
  onUnit (d < 4) (match (s.die d).att with
    | none => s
    | some n =>
      let r := s.report d n
      let s := s.onDie d fun x => { x with att := none }
      let s := (upFrom 0 20).foldl (fun (s : State) i => s.setReg d (0xE80 + 8 * i) (wordAt r (8 * i))) s
      (s.setField d 0xE40 1 1 0).setField d 0xE40 2 1 1)

/-- One second, and 20 ns (R438). -/
def secTime : Nat := 1000000000 * 65536

/-- A write of TIME.ADJ (R231, R438): every replica of the die's half slews by the offset; LOCKED after two writes no more
than 1 s apart with offsets of at most 20 ns. -/
def State.timeAdj (s : State) (d : Nat) (v : Word) : State :=
  let off : Int := (v.setWidth 48 : BitVec 48).toInt
  let good := decide (off.natAbs ≤ 20)
  (s.half d).foldl (fun (s : State) e => s.onDie e fun x =>
    let near := match x.adjAt with
      | some t => decide (s.time ≤ t + secTime)
      | none => false
    let n := if good then (if near then x.adjOk + 1 else 1) else 0
    { x with
      slew := off * 65536
      slewing := true
      holdover := false
      adjAt := some s.time
      adjOk := min n 2
      timeLocked := x.timeLocked || decide (2 ≤ n) }) s

/-- TIME_ADJ_WRITE (R438). -/
def execTimeAdjWrite (d : Nat) (v : BitVec 64) (s : State) : Host.Outcome State Fault Refusal :=
  onUnit (d < 4) (if s.dieUp d then s.timeAdj d v else s)

/-- Change every die. -/
def State.allDies (s : State) (f : Die → Die) : State := [0, 1, 2, 3].foldl (fun (s : State) d => s.onDie d f) s

/-- CORRECTION_SLEW_END (R438): where nothing of a correction is left. -/
def execCorrectionSlewEnd (s : State) : Host.Outcome State Fault Refusal :=
  .next (s.allDies fun x => if x.slew = 0 then { x with slewing := false } else x)

/-- HOLDOVER (R438): locked, and 2 s without a write. -/
def execHoldover (s : State) : Host.Outcome State Fault Refusal :=
  .next (s.allDies fun x => match x.adjAt with
    | some t => if x.timeLocked && decide (t + 2 * secTime ≤ s.time) then { x with holdover := true } else x
    | none => x)

/-- A die is over a limit of R439, as last sampled: 7500 A, the lower of 3600 W and PWR.LIMIT, or a junction of some die above 105 °C. -/
def State.overLimit (s : State) (d : Nat) : Bool :=
  let w := s.reg d 0xF40
  decide (7500 < bits w 32 16) || decide (min 3600 (bits (s.reg d 0xF48) 0 16) < bits w 48 16) ||
    [0, 1, 2, 3].any fun e => decide (105 < bits (s.reg e 0xF40) 24 8)

/-- THROTTLE (R439): the level that the device's control takes. While a limit is passed the level rises, by how much being open
(DESIGN CHOICE, log 88). -/
def execThrottle (d : Nat) (thr : BitVec 8) (s : State) : Host.Outcome State Fault Refusal :=
  onUnit (d < 4) (
    let now := bits (s.reg d 0xF40) 8 8
    s.setField d 0xF40 8 8 (if s.overLimit d then max thr.toNat (min 255 (now + 1)) else thr.toNat))

/-- TELEMETRY_SAMPLE (R439). -/
def execTelemetrySample (d : Nat) (pkgW : BitVec 16) (coreA : BitVec 16) (temp : BitVec 8) (s : State) :
    Host.Outcome State Fault Refusal :=
  onUnit (d < 4) (((s.setField d 0xF40 48 16 pkgW.toNat).setField d 0xF40 32 16 coreA.toNat).setField d 0xF40 24 8 temp.toNat)

/-- HBM_PATROL_SCRUB (R394, R440): a poisoned line is reported once. -/
def execHbmPatrolScrub (d pa : Nat) (s : State) : Host.Outcome State Fault Refusal :=
  onUnit (d < 4) (
    let n := (Loc.hbm d pa).line
    if pa < 0x3000000000 && s.poisoned (n * 128) 128 && !s.told.contains n then
      { s with told := insertNat s.told n }.hostFault d
        { cls := 5, code := 7, addr := BitVec.ofNat 64 (pa / 128 * 128), src := 4 }
    else s)

/-- SRAM_SCRUB (R440): it changes no value. -/
def execSramScrub (d : Nat) (s : State) : Host.Outcome State Fault Refusal := onUnit (d < 4) s

/-- LINK_RECALIBRATION (R440): it changes no value and no order. -/
def execLinkRecalibration (e : Nat) (s : State) : Host.Outcome State Fault Refusal := onUnit (e < 4) s

/-- HBM_ROW_ACTIVATION_MANAGEMENT (R440): it changes no value and no order. -/
def execHbmRowActivationManagement (d : Nat) (s : State) : Host.Outcome State Fault Refusal := onUnit (d < 4) s

/-- SINGLE_BIT_ERROR (R392, R395): corrected, and counted. -/
def execSingleBitError (d : Nat) (hbm : Bool) (s : State) : Host.Outcome State Fault Refusal :=
  onUnit (d < 4) (s.bumpField d 0xC00 (if hbm then 0 else 32) 32 1)

/-- An uncorrectable error is counted and, where none is logged, logged (R395): units 0, 1, 2 and 5 have addresses. -/
def State.logError (s : State) (d unit line : Nat) : State :=
  let s := s.bumpField d 0xC08 0 32 1
  if (s.reg d 0xC10).getLsbD 0 then s
  else
    let pa := match unit with
      | 0 => line
      | 1 => lineAddr line
      | 2 => lineAddr (line / 24)
      | 5 => lineAddr (line / 24)
      | _ => 0
    s.setReg d 0xC10 (wordOf [(unit, 60), (pa, 7), (1, 0)])

/-- A copy held in a table of lines is poisoned. -/
def badLine (t : Tab Line) (n : Nat) : Tab Line :=
  match Tab.find t n with
  | some c => Tab.put t n { c with bad := true }
  | none => t

/-- A line is poisoned (R393). -/
def State.poisonLine (s : State) (n : Nat) : State := { s with poison := insertNat s.poison n }

/-- An error strikes the copy of a line in the L1 of a tile (R392): of a line that hardware keeps coherent, none of which the model holds
there, the copy that this L1 has by then. -/
def State.badL1 (s : State) (t line : Nat) : State :=
  if (Tab.find (s.tile t).l1 line).isSome then s.onTile t fun x => { x with l1 := badLine x.l1 line }
  else s.onDie (t / 24) fun x => { x with l1bad := (t, line) :: x.l1bad.filter (· != (t, line)) }

/-- What a double-bit error does (R392, R396). `line` counts 128-byte lines: of the die's HBM (unit 0); of the package's
memory (1 L2, 7 directory); 24 line + tile (2 L1, 5 sampler); 32,768 tile + line (3 scratchpad); 12,288 tile + line
(4 accumulator store); 1024 slot + register, in the numbering of `Strand.bad` (6); 4096 tile + word (8 microcode store);
the edge (9 replay buffer). Of a queue the error strikes the oldest entry (DESIGN CHOICE, log 92). -/
def State.hardError (s : State) (d unit line : Nat) : State :=
  match unit with
  | 0 => if line * 128 < 0x3000000000 then s.poisonLine (Loc.hbm d (line * 128)).line else s
  | 1 => if homeOf line = d then s.poisonLine line else s.onDie d fun x => { x with l2 := badLine x.l2 line }
  | 2 => s.badL1 (24 * d + line % 24) (line / 24)
  | 3 => if line / 32768 < 24 then s.poisonLine (Loc.spad (24 * d + line / 32768) (line % 32768 * 128)).line else s
  | 4 => if line / 12288 < 24 then s.poisonLine (Loc.acc (24 * d + line / 12288) (line % 12288 * 128)).line else s
  | 5 => s.onTile (24 * d + line % 24) fun t => { t with smp := badLine t.smp (line / 24) }
  | 6 =>
    let r := line % 1024
    if r % 512 = 0 ∨ r % 512 = 64 ∨ 311 < r % 512 ∨ 192 ≤ line / 1024 then s
    else s.onStrand (192 * d + line / 1024) fun st => if st.hasEntry r then { st with bad := insertNat st.bad r } else st
  | 7 => if homeOf line = d then (s.poisonLine line).dropL2 line [] else s
  | 8 =>
    if 24 ≤ line / 4096 then s
    else s.onTile (24 * d + line / 4096) fun t =>
      let a := line % 4096
      { t with micro := if a < 0x100 then Tab.put t.micro a 0 else Tab.del t.micro a }
  | 9 => if (dieEdges d).contains line then s.replay line else s
  | _ => s

/-- DOUBLE_BIT_ERROR (R392, R395, R396). -/
def execDoubleBitError (d unit line : Nat) (s : State) : Host.Outcome State Fault Refusal :=
  onUnit (d < 4) (if 10 ≤ unit then s else (s.logError d unit line).hardError d unit line)

end Sys2Proof.Machine
end

