-- ==== Sys2Proof/Machine/Regs.lean ====
section
/-! DEFINITION. The register block of a die (R7 to R9, R336): writes under the access codes, with the action of each
register that has one, and what a read returns. -/

namespace Sys2Proof.Machine

/-- How a write changes the stored bits of a register (R7): the RW bits, the W1C bits, and whether they are RWL. -/
structure Access where
  rw  : Nat := 0
  w1c : Nat := 0
  rwl : Bool := false
  deriving DecidableEq, Repr

/-- The bits hi to lo. -/
def mask (hi lo : Nat) : Nat := 2 ^ (hi + 1) - 2 ^ lo

/-- The access of each register with stored bits; those not listed ignore writes. -/
def regAccess (d off : Nat) : Access :=
  match off with
  | 0x100 => { rw := mask 51 12 }
  | 0x108 => { rw := mask 31 0 }
  | 0x110 => { rw := mask 7 5, w1c := mask 3 2 }
  | 0x200 => { rw := mask 55 10 }
  | 0x208 => { rw := mask 55 3 }
  | 0x210 => { rw := mask 47 32 + mask 16 0 }
  | 0x218 => { rw := mask 39 0 }
  | 0x220 => { rw := mask 55 3 }
  | 0x228 => { rw := mask 31 16, w1c := mask 3 3 }
  | 0x300 => { rw := mask 51 12, rwl := true }
  | 0x308 => { rw := mask 31 16 + 1 }
  | 0x400 => { rw := mask 23 0 }
  | 0x500 => { rw := mask 19 8 + mask 3 0 }
  | 0x508 => { rw := mask 63 0 }
  | 0x510 => { rw := mask 63 0 }
  | 0x518 => { rw := mask 63 0 }
  | 0x600 => { rw := mask 51 12, rwl := true }
  | 0x608 => { rw := mask 16 0 }
  | 0x610 => { rw := mask 55 12 }
  | 0x618 => { rw := mask 63 16 + mask 4 4, w1c := mask 3 3 }
  | 0x620 => { rw := mask 51 12, rwl := true }
  | 0x628 => { rw := mask 51 12, rwl := true }
  | 0x630 => { rw := mask 47 32 + mask 15 0 }
  | 0x900 => { rw := mask 15 0, rwl := true }
  | 0x908 => { rw := mask 63 32 }
  | 0x910 => { rw := mask 63 32 }
  | 0x918 => { rw := mask 63 32 }
  | 0x920 => { rw := mask 63 32 }
  | 0xA08 => { w1c := mask 3 3 }
  | 0xB00 => { rw := mask 51 6 }
  | 0xB08 => { rw := mask 8 4 + 1, w1c := mask 3 3 }
  | 0xB10 => { rw := mask 31 0 }
  | 0xC00 => { rw := mask 63 0 }
  | 0xC08 => { rw := mask 31 0 }
  | 0xC10 => { w1c := 1 }
  | 0xD00 => { rw := mask 31 0 }
  | 0xD08 => { rw := mask 55 12 }
  | 0xD10 => { rw := mask 55 12 }
  | 0xD18 => { rw := mask 31 16 + 1 }
  | 0xE08 => { rw := mask 47 12 }
  | 0xE40 => { w1c := mask 2 2 }
  | 0xE48 => { rw := mask 63 0 }
  | 0xE50 => { rw := mask 63 0 }
  | 0xE58 => { rw := mask 63 0 }
  | 0xE60 => { rw := mask 63 0 }
  | 0xF48 => { rw := mask 15 0 }
  | _ =>
    if 0x800 ≤ off ∧ off < 0x840 ∧ (d = 0 ∨ d = 3) then
      if off % 16 = 0 then { rw := mask 63 28 + 1 } else if off % 16 = 8 then { rw := mask 63 38 + mask 23 0 } else {}
    else {}

/-- A value written into stored bits under their access (R7). -/
def Access.put (a : Access) (old v : Word) : Word :=
  let rw : Word := BitVec.ofNat 64 a.rw
  ((old &&& ~~~rw) ||| (v &&& rw)) &&& ~~~(v &&& BitVec.ofNat 64 a.w1c)

/-- The stored bits of a register take a write (R7, R8): an RWL field only its first. -/
def State.putReg (s : State) (d off : Nat) (v : Word) : State :=
  let a := regAccess d off
  if a.rw = 0 ∧ a.w1c = 0 then s
  else if a.rwl then
    if (s.die d).locked.contains off then s
    else (s.setReg d off (a.put (s.reg d off) v)).onDie d fun x => { x with locked := insertNat x.locked off }
  else s.setReg d off (a.put (s.reg d off) v)

/-- A write of CP.MBOX_CMD (R317): ignored while BUSY is 1; a reserved OP is answered at once. -/
def State.mboxWrite (s : State) (d : Nat) (v : Word) : State :=
  if (s.die d).mbox.isSome then s
  else
    let s := s.putReg d 0x500 v
    let op := bits v 0 4
    if op = 0 ∨ 4 < op then s.mboxDone d 1 0
    else (s.setField d 0x520 8 1 1).onDie d fun x => { x with mbox := some op }

/-- A write to an edge's registers on a die that terminates it (R332). -/
def State.edgeWrite (s : State) (d p off : Nat) (v : Word) : State :=
  let e := (off - 0x700) / 0x40
  if !(dieEdges d).contains e then s
  else match (off - 0x700) % 0x40 with
    | 0x00 => s.rateWrite e p v
    | 0x10 => s.onEdge e fun x => { x with crcerr := BitVec.ofNat 32 (bits v 32 32), replays := BitVec.ofNat 32 (bits v 0 32) }
    | 0x18 => s.onEdge e fun x => { x with degr := x.degr && !v.getLsbD 3, denied := x.denied && !v.getLsbD 2 }
    | _ => s

/-- A write of a register of a die that takes writes, with its action. -/
def State.writeReg (s : State) (d p off : Nat) (v : Word) : State :=
  match off with
  | 0x048 => s.timeAdj d v
  | 0x110 => (fun (s : State) => if v.getLsbD 0 then s.goSweep d else s) (s.putReg d off v)
  | 0x228 =>
    (fun (s : State) => if v.getLsbD 0 && !(s.reg d 0x228).getLsbD 1 then s.goBoundary d (bits v 16 16) else s) (s.putReg d off v)
  | 0x500 => s.mboxWrite d v
  | 0x618 => (fun (s : State) => if v.getLsbD 0 then s.goInv d else s) (s.putReg d off v)
  | 0x620 => (s.putReg d off v).onDie d fun x => { x with noExp := false }
  | 0x630 => (fun (s : State) => if v.getLsbD 16 then s.goClr d else s) (s.putReg d off v)
  | 0xD08 => (s.putReg d off v).onDie d fun x => { x with mirror := [] }
  | 0xE08 =>
    if v.getLsbD 0 then
      (fun (r : Bool × State) => if r.1 then (r.2.putReg d off v).loadImage d p v else r.2) (s.gate p)
    else s.putReg d off v
  | 0xE40 => (fun (s : State) => if v.getLsbD 0 then s.goAtt d else s) (s.putReg d off v)
  | _ =>
    if 0x700 ≤ off ∧ off < 0x800 then s.edgeWrite d p off v
    else if 0x10000 ≤ off ∧ off < 0x18000 ∧ off % 8 = 0 then s.wake d ((off - 0x10000) / 8) (v.setWidth 32)
    else s.putReg d off v

/-- A register write is one to a package-wide operation (R15): a new TGT, or a load of firmware. -/
def State.packageWide (s : State) (d off : Nat) (v : Word) : Bool :=
  let e := (off - 0x700) / 0x40
  (0x700 ≤ off && off < 0x800 && off % 0x40 == 0 && (dieEdges d).contains e && s.newRate e v) || (off == 0xE08 && v.getLsbD 0)

/-- REGISTER_WRITE (R7, R336, R338, R436, R441): through a host port that reaches the die, which takes writes once it runs
(PKG_SEM always; a die that failed to boot, only a load); through the sideband, the attestation registers. A package-wide write from
outside D0's half is dropped, and leaves PWDENIED (R404). -/
def execRegisterWrite (d off : Nat) (v : BitVec 64) (p : Nat) (s : State) : Host.Outcome State Fault Refusal :=
  onUnit (d < 4 ∧ p < 3) (
    if p = 2 then
      if s.dieUp d && [0xE40, 0xE48, 0xE50, 0xE58, 0xE60].contains off then s.writeReg d p off v else s
    else if s.packageWide d off v && !s.portsDown.contains p && !(s.half (portDie p)).contains 0 then (s.gate p).2
    else s.orWait p (if s.packageWide d off v then [0, d] else [d]) (.reg d off v p) (
      if !s.portSees p d then s
      else if d = 0 ∧ off = 0xA00 then s.semWrite p v
      else if s.dieUp d || ((s.die d).state == 4 && off == 0xE08) then s.writeReg d p off v
      else s))

/-- The edge registers as a die reads them (R332). -/
def State.readEdge (s : State) (d off : Nat) : Word :=
  let e := (off - 0x700) / 0x40
  let x := s.edge e
  if !(dieEdges d).contains e then 0
  else match (off - 0x700) % 0x40 with
    | 0x00 => wordOf [(x.fbthr.toNat, 16), (x.auto.toNat, 8), (x.tgt.toNat, 4), (x.cur.toNat, 0)]
    | 0x08 => wordOf [(x.repaired.toNat, 24), (x.mods.toNat, 0)]
    | 0x10 => wordOf [(x.crcerr.toNat, 32), (x.replays.toNat, 0)]
    | 0x18 => wordOf [(x.degr.toNat, 3), (x.denied.toNat, 2), (x.train.isSome.toNat, 1), (x.up.toNat, 0)]
    | _ => 0

/-- PKG.PART_STATUS of a die (R406). -/
def State.partStatus (s : State) (d : Nat) : Word :=
  let h := s.half d
  let sees := fun e : Nat => h.contains e && (e == d || (s.die e).state != 5)
  wordOf [(s.epoch.toNat, 16), (packNat 1 (fun e => if (s.edge e).down then 0 else 1) 4, 12),
    (packNat 1 (fun e => (sees e).toNat) 4, 8), (bits (s.reg d 0xA08) 3 1, 3),
    (if h.contains 0 || h.contains 3 then 0 else 1, 2), ((sees 0).toNat, 1),
    (if [0, 1, 2, 3].all sees then 0 else 1, 0)]

/-- The shadow bank of a launch context (R311): the expanded operator. -/
def State.shadowBank (s : State) (d c : Nat) : List Word :=
  match s.qslot d c with
  | none => []
  | some q => match q.recs.find? fun r => !r.started && !r.lr.isEmpty with
    | none => []
    | some r => padWords 8 r.lr ++ [r.words.getD 2 0, r.words.getD 3 0, BitVec.ofNat 64 (s.recAddr d q.q r.idx), 1]

/-- The launch banks of a queue slot (R311). -/
def State.readBank (s : State) (d off : Nat) : Word :=
  let c := (off - 0x20000) / 0x100
  (if off % 0x100 < 0x80 then s.currentBank d c else s.shadowBank d c).getD (off % 0x80 / 8) 0

/-- The wait that the wait register of a strand shows: of several the one that began first, and of those the first of
`Strand.waits` (DESIGN CHOICE, log 77). -/
def Strand.shown (st : Strand) : Option Stall :=
  (st.waits.filter fun w => w.2.cause < 12).foldl (fun (r : Option Stall) w => match r with
    | some x => if x.since ≤ w.2.since then r else some w.2
    | none => some w.2) none

/-- STR.WAIT of a slot (R424). -/
def State.strWait (s : State) (k : Nat) : Word :=
  match (s.strand k).bind Strand.shown with
  | none => wordOf [(Tab.getD s.idle k 0 % 2 ^ 32, 0)]
  | some x => wordOf [(x.cause, 60), (x.obj % 2 ^ 16, 40), (x.since % 2 ^ 32, 0)]

/-- The value that a read of a register of a running die returns (R7 to R9); QUANTUM 0 reads as 1 (R304), SIZE above 12 as 12
(R368), PKG_W above 3600 as 3600 (R439). -/
def State.readReg (s : State) (d off : Nat) : Word :=
  match off with
  | 0x000 => wordOf [(packNat 1 (fun e => if (dieEdges d).contains e then 1 else 0) 4, 12), ((if d = 0 then 1 else if d = 3 then 2 else 0), 10), (d, 0)]
  | 0x040 => wordOf [((s.die d).slewing.toNat, 2), ((s.die d).holdover.toNat, 1), ((s.die d).timeLocked.toNat, 0)]
  | 0x308 => putBits (s.reg d 0x308) 16 16 (max 1 (bits (s.reg d 0x308) 16 16))
  | 0x310 => wordOf [((s.die d).remap.length, 16), (((s.die d).qslots.filter fun e => e.1 < 128).length, 0)]
  | 0x630 => putBits (s.reg d 0x630) 17 1 ((s.die d).priDis.contains (bits (s.reg d 0x630) 32 16)).toNat
  | 0xA00 => if d = 0 then wordOf [(s.semExpired.toNat, 2), (s.semOwner.toNat, 0)] else 0
  | 0xA08 => s.partStatus d
  | 0xB08 => putBits (s.reg d 0xB08) 4 4 (min 12 (bits (s.reg d 0xB08) 4 4))
  | 0xF48 => putBits (s.reg d 0xF48) 0 16 (min 3600 (bits (s.reg d 0xF48) 0 16))
  | 0xE00 =>
    wordOf [((if (s.die d).state = 3 then leNat (((s.die d).ran.drop 4).take 4) else 0), 32), ((s.die d).fail, 8), ((s.die d).state, 0)]
  | _ =>
    if 0x700 ≤ off ∧ off < 0x800 then s.readEdge d off
    else if 0x10000 ≤ off ∧ off < 0x18000 then 0
    else if 0x20000 ≤ off ∧ off < 0x28000 then s.readBank d off
    else if 0x28000 ≤ off ∧ off < 0x29000 then
      match s.qslot d ((off - 0x28000) / 0x20) with
      | some q => q.waitWords.getD (off % 0x20 / 8) 0
      | none => 0
    else if 0x30000 ≤ off ∧ off < 0x30000 + 8 * 192 then s.strWait (192 * d + (off - 0x30000) / 8)
    else s.reg d off

/-- The dies that carry a sideband target (R441). -/
def sbDie (t : Nat) : Bool := t == 0 || t == 3

/-- A read over the sideband target of die `t` (R441): TOPO.ID, BOOT.STATUS, PWR.STATUS, PKG.PART_STATUS or ATT.REPORT of a die that it
reaches; none of another register or die. -/
def State.sbRead (s : State) (t d off : Nat) : Option Word :=
  if sbDie t && (s.half t).contains d && ([0x000, 0xE00, 0xF40, 0xA08].contains off || (0xE80 ≤ off && off < 0xF20)) then
    some (s.readReg d off)
  else none

/-- The identity certificate of a die, read over the sideband (R437, R441). -/
def State.sbCert (s : State) (t d : Nat) : Option (List Byte) :=
  if sbDie t && (s.half t).contains d then some (Config.certificate d) else none

/-- A host read through a port (R336, R338): all ones where the die cannot be reached or does not run. -/
def State.hostRead (s : State) (p d off : Nat) : Word :=
  if !s.portSees p d then BitVec.allOnes 64
  else if d = 0 ∧ off = 0xA00 then s.readReg 0 0xA00
  else if s.dieUp d then s.readReg d off else BitVec.allOnes 64

end Sys2Proof.Machine
end

