-- ==== Sys2Proof/Machine/Dispatch.lean ====
section
/-! DEFINITION. One arm for each constructor of `Instr`: the meaning of that row, or its rejection by name. -/

namespace Sys2Proof.Machine

def exec (i : Instr) (s : State) : Host.Outcome State Fault Refusal :=
  match i with
  | .add a => Sys2Proof.Machine.execAdd a s
  | .sub a => Sys2Proof.Machine.execSub a s
  | .mul a => Sys2Proof.Machine.execMul a s
  | .mulh a => Sys2Proof.Machine.execMulh a s
  | .div a => Sys2Proof.Machine.execDiv a s
  | .rem a => Sys2Proof.Machine.execRem a s
  | .and a => Sys2Proof.Machine.execAnd a s
  | .or a => Sys2Proof.Machine.execOr a s
  | .xor a => Sys2Proof.Machine.execXor a s
  | .andn a => Sys2Proof.Machine.execAndn a s
  | .shl a => Sys2Proof.Machine.execShl a s
  | .shr a => Sys2Proof.Machine.execShr a s
  | .sra a => Sys2Proof.Machine.execSra a s
  | .fsh a => Sys2Proof.Machine.execFsh a s
  | .bfx a => Sys2Proof.Machine.execBfx a s
  | .bfi a => Sys2Proof.Machine.execBfi a s
  | .addi a => Sys2Proof.Machine.execAddi a s
  | .andi a => Sys2Proof.Machine.execAndi a s
  | .ori a => Sys2Proof.Machine.execOri a s
  | .xori a => Sys2Proof.Machine.execXori a s
  | .shli a => Sys2Proof.Machine.execShli a s
  | .shri a => Sys2Proof.Machine.execShri a s
  | .srai a => Sys2Proof.Machine.execSrai a s
  | .li a => Sys2Proof.Machine.execLi a s
  | .popc a => Sys2Proof.Machine.execPopc a s
  | .clz a => Sys2Proof.Machine.execClz a s
  | .ctz a => Sys2Proof.Machine.execCtz a s
  | .min a => Sys2Proof.Machine.execMin a s
  | .max a => Sys2Proof.Machine.execMax a s
  | .cmp a => Sys2Proof.Machine.execCmp a s
  | .cmpi a => Sys2Proof.Machine.execCmpi a s
  | .sel a => Sys2Proof.Machine.execSel a s
  | .spop a => Sys2Proof.Machine.execSpop a s
  | .br a => Sys2Proof.Machine.execBr a s
  | .loop a => Sys2Proof.Machine.execLoop a s
  | .bq a => Sys2Proof.Machine.execBq a s
  | .bcc a => Sys2Proof.Machine.execBcc a s
  | .lcset a => Sys2Proof.Machine.execLcset a s
  | .lcmov a => Sys2Proof.Machine.execLcmov a s
  | .rbset a => Sys2Proof.Machine.execRbset a s
  | .rbmov a => Sys2Proof.Machine.execRbmov a s
  | .mfw a => Sys2Proof.Machine.execMfw a s
  | .mfwi a => Sys2Proof.Machine.execMfwi a s
  | .mfs a => Sys2Proof.Machine.execMfs a s
  | .mts a => Sys2Proof.Machine.execMts a s
  | .trap a => Sys2Proof.Machine.execTrap a s
  | .hret a => Sys2Proof.Machine.execHret a s
  | .yield a => Sys2Proof.Machine.execYield a s
  | .halt a => Sys2Proof.Machine.execHalt a s
  | .tnow a => Sys2Proof.Machine.execTnow a s
  | .gadd a => Sys2Proof.Machine.execGadd a s
  | .gsub a => Sys2Proof.Machine.execGsub a s
  | .gmul a => Sys2Proof.Machine.execGmul a s
  | .gand a => Sys2Proof.Machine.execGand a s
  | .gor a => Sys2Proof.Machine.execGor a s
  | .gshl a => Sys2Proof.Machine.execGshl a s
  | .gshr a => Sys2Proof.Machine.execGshr a s
  | .gaddi a => Sys2Proof.Machine.execGaddi a s
  | .gli a => Sys2Proof.Machine.execGli a s
  | .gshli a => Sys2Proof.Machine.execGshli a s
  | .aout a => Sys2Proof.Machine.execAout a s
  | .ld a => Sys2Proof.Machine.execLd a s
  | .st a => Sys2Proof.Machine.execSt a s
  | .ldLast a => Sys2Proof.Machine.execLdLast a s
  | .lds a => Sys2Proof.Machine.execLds a s
  | .sts a => Sys2Proof.Machine.execSts a s
  | .ldg a => Sys2Proof.Machine.execLdg a s
  | .stg a => Sys2Proof.Machine.execStg a s
  | .tld a => Sys2Proof.Machine.execTld a s
  | .tst a => Sys2Proof.Machine.execTst a s
  | .qsync a => Sys2Proof.Machine.execQsync a s
  | .fence a => Sys2Proof.Machine.execFence a s
  | .amoAdd a => Sys2Proof.Machine.execAmoAdd a s
  | .amoFadd a => Sys2Proof.Machine.execAmoFadd a s
  | .amoFmax a => Sys2Proof.Machine.execAmoFmax a s
  | .amoMin a => Sys2Proof.Machine.execAmoMin a s
  | .amoMax a => Sys2Proof.Machine.execAmoMax a s
  | .amoAnd a => Sys2Proof.Machine.execAmoAnd a s
  | .amoOr a => Sys2Proof.Machine.execAmoOr a s
  | .amoSwp a => Sys2Proof.Machine.execAmoSwp a s
  | .amoCas a => Sys2Proof.Machine.execAmoCas a s
  | .amoInc a => Sys2Proof.Machine.execAmoInc a s
  | .feLd a => Sys2Proof.Machine.execFeLd a s
  | .feSt a => Sys2Proof.Machine.execFeSt a s
  | .feSet a => Sys2Proof.Machine.execFeSet a s
  | .feClr a => Sys2Proof.Machine.execFeClr a s
  | .smpLd a => Sys2Proof.Machine.execSmpLd a s
  | .smpInv a => Sys2Proof.Machine.execSmpInv a s
  | .cp a => Sys2Proof.Machine.execCp a s
  | .cpTensor a => Sys2Proof.Machine.execCpTensor a s
  | .cpQuant a => Sys2Proof.Machine.execCpQuant a s
  | .cpChain a => Sys2Proof.Machine.execCpChain a s
  | .cpPages a => Sys2Proof.Machine.execCpPages a s
  | .cpRing a => Sys2Proof.Machine.execCpRing a s
  | .cpadv a => Sys2Proof.Machine.execCpadv a s
  | .batchClose a => Sys2Proof.Machine.execBatchClose a s
  | .batchWait a => Sys2Proof.Machine.execBatchWait a s
  | .vadd a => Sys2Proof.Machine.execVadd a s
  | .vsub a => Sys2Proof.Machine.execVsub a s
  | .vmul a => Sys2Proof.Machine.execVmul a s
  | .vmulh a => Sys2Proof.Machine.execVmulh a s
  | .vfma a => Sys2Proof.Machine.execVfma a s
  | .vfms a => Sys2Proof.Machine.execVfms a s
  | .vmin a => Sys2Proof.Machine.execVmin a s
  | .vmax a => Sys2Proof.Machine.execVmax a s
  | .vabs a => Sys2Proof.Machine.execVabs a s
  | .vneg a => Sys2Proof.Machine.execVneg a s
  | .vand a => Sys2Proof.Machine.execVand a s
  | .vor a => Sys2Proof.Machine.execVor a s
  | .vxor a => Sys2Proof.Machine.execVxor a s
  | .vnot a => Sys2Proof.Machine.execVnot a s
  | .vshl a => Sys2Proof.Machine.execVshl a s
  | .vshr a => Sys2Proof.Machine.execVshr a s
  | .vsra a => Sys2Proof.Machine.execVsra a s
  | .vbfx a => Sys2Proof.Machine.execVbfx a s
  | .vfsh a => Sys2Proof.Machine.execVfsh a s
  | .vpopc a => Sys2Proof.Machine.execVpopc a s
  | .vclz a => Sys2Proof.Machine.execVclz a s
  | .vmov a => Sys2Proof.Machine.execVmov a s
  | .vli a => Sys2Proof.Machine.execVli a s
  | .vbcast a => Sys2Proof.Machine.execVbcast a s
  | .vsel a => Sys2Proof.Machine.execVsel a s
  | .vcmp a => Sys2Proof.Machine.execVcmp a s
  | .vperm a => Sys2Proof.Machine.execVperm a s
  | .vslide a => Sys2Proof.Machine.execVslide a s
  | .vrot a => Sys2Proof.Machine.execVrot a s
  | .vredsum a => Sys2Proof.Machine.execVredsum a s
  | .vredmax a => Sys2Proof.Machine.execVredmax a s
  | .vredmin a => Sys2Proof.Machine.execVredmin a s
  | .vscan a => Sys2Proof.Machine.execVscan a s
  | .vcvt a => Sys2Proof.Machine.execVcvt a s
  | .vqmx a => Sys2Proof.Machine.execVqmx a s
  | .vqem a => Sys2Proof.Machine.execVqem a s
  | .vamax a => Sys2Proof.Machine.execVamax a s
  | .vaccRd a => Sys2Proof.Machine.execVaccRd a s
  | .vaccWr a => Sys2Proof.Machine.execVaccWr a s
  | .vaccAdd a => Sys2Proof.Machine.execVaccAdd a s
  | .pand a => Sys2Proof.Machine.execPand a s
  | .por a => Sys2Proof.Machine.execPor a s
  | .pxor a => Sys2Proof.Machine.execPxor a s
  | .pnot a => Sys2Proof.Machine.execPnot a s
  | .pset a => Sys2Proof.Machine.execPset a s
  | .exp2 a => Sys2Proof.Machine.execExp2 a s
  | .log2 a => Sys2Proof.Machine.execLog2 a s
  | .rcp a => Sys2Proof.Machine.execRcp a s
  | .rsqrt a => Sys2Proof.Machine.execRsqrt a s
  | .sqrt a => Sys2Proof.Machine.execSqrt a s
  | .tanh a => Sys2Proof.Machine.execTanh a s
  | .sigm a => Sys2Proof.Machine.execSigm a s
  | .erf a => Sys2Proof.Machine.execErf a s
  | .fcvt a => Sys2Proof.Machine.execFcvt a s
  | .fcvtI a => Sys2Proof.Machine.execFcvtI a s
  | .mlease a => Sys2Proof.Machine.execMlease a s
  | .mrel a => Sys2Proof.Machine.execMrel a s
  | .mldw a => Sys2Proof.Machine.execMldw a s
  | .mswap a => Sys2Proof.Machine.execMswap a s
  | .mmul a => Sys2Proof.Machine.execMmul a s
  | .mchain a => Sys2Proof.Machine.execMchain a s
  | .mrnd a => Sys2Proof.Machine.execMrnd a s
  | .mclr a => Sys2Proof.Machine.execMclr a s
  | .maccSt a => Sys2Proof.Machine.execMaccSt a s
  | .mdrain a => Sys2Proof.Machine.execMdrain a s
  | .lfwd a => Sys2Proof.Machine.execLfwd a s
  | .ldgrad a => Sys2Proof.Machine.execLdgrad a s
  | .lwgrad a => Sys2Proof.Machine.execLwgrad a s
  | .lupd a => Sys2Proof.Machine.execLupd a s
  | .mcload a => Sys2Proof.Machine.execMcload a s
  | .barInit a => Sys2Proof.Machine.execBarInit a s
  | .barArrive a => Sys2Proof.Machine.execBarArrive a s
  | .barWait a => Sys2Proof.Machine.execBarWait a s
  | .barArrwait a => Sys2Proof.Machine.execBarArrwait a s
  | .domJoin a => Sys2Proof.Machine.execDomJoin a s
  | .domLeave a => Sys2Proof.Machine.execDomLeave a s
  | .domSync a => Sys2Proof.Machine.execDomSync a s
  | .sqPut a => Sys2Proof.Machine.execSqPut a s
  | .sqGet a => Sys2Proof.Machine.execSqGet a s
  | .spawn a => Sys2Proof.Machine.execSpawn a s
  | .sigWait a => Sys2Proof.Machine.execSigWait a s
  | .sigSet a => Sys2Proof.Machine.execSigSet a s
  | .waitTime a => Sys2Proof.Machine.execWaitTime a s
  | .prio a => Sys2Proof.Machine.execPrio a s
  | .cqWake a => Sys2Proof.Machine.execCqWake a s
  | .align => Sys2Proof.Machine.execAlign s
  | .alignSuspend => Sys2Proof.Machine.execAlignSuspend s
  | .uend u => Sys2Proof.Machine.execUend u s
  | .uldw u => Sys2Proof.Machine.execUldw u s
  | .uswap u => Sys2Proof.Machine.execUswap u s
  | .umul u => Sys2Proof.Machine.execUmul u s
  | .uclr u => Sys2Proof.Machine.execUclr u s
  | .ust u => Sys2Proof.Machine.execUst u s
  | .uupd u => Sys2Proof.Machine.execUupd u s
  | .uadd u => Sys2Proof.Machine.execUadd u s
  | .uaddi u => Sys2Proof.Machine.execUaddi u s
  | .ukset u => Sys2Proof.Machine.execUkset u s
  | .uloop u => Sys2Proof.Machine.execUloop u s
  | .dispatchWord k => Sys2Proof.Machine.execDispatchWord k s
  | .landingBufferWrite k => Sys2Proof.Machine.execLandingBufferWrite k s
  | .issueWindowExpiry t => Sys2Proof.Machine.execIssueWindowExpiry t s
  | .strandCreate d l st => Sys2Proof.Machine.execStrandCreate d l st s
  | .strandPickup k => Sys2Proof.Machine.execStrandPickup k s
  | .strandReady d l b => Sys2Proof.Machine.execStrandReady d l b s
  | .preemption k => Sys2Proof.Machine.execPreemption k s
  | .rebalance d => Sys2Proof.Machine.execRebalance d s
  | .reserveMaskWrite d v => Sys2Proof.Machine.execReserveMaskWrite d v s
  | .heldArrival k => Sys2Proof.Machine.execHeldArrival k s
  | .leadCounterArrival lvl inst => Sys2Proof.Machine.execLeadCounterArrival lvl inst s
  | .queueSpaceAvailable d l st => Sys2Proof.Machine.execQueueSpaceAvailable d l st s
  | .itemAvailable d l st => Sys2Proof.Machine.execItemAvailable d l st s
  | .signalReread d l b => Sys2Proof.Machine.execSignalReread d l b s
  | .timeTargetReached d l b => Sys2Proof.Machine.execTimeTargetReached d l b s
  | .steal d l => Sys2Proof.Machine.execSteal d l s
  | .loadDataArrival k => Sys2Proof.Machine.execLoadDataArrival k s
  | .storePerform k => Sys2Proof.Machine.execStorePerform k s
  | .atomicPerform k => Sys2Proof.Machine.execAtomicPerform k s
  | .storeAcknowledgement d a => Sys2Proof.Machine.execStoreAcknowledgement d a s
  | .acknowledgementLoss d a => Sys2Proof.Machine.execAcknowledgementLoss d a s
  | .copyLineLanding d j => Sys2Proof.Machine.execCopyLineLanding d j s
  | .batchComplete d b => Sys2Proof.Machine.execBatchComplete d b s
  | .arrayGrant t => Sys2Proof.Machine.execArrayGrant t s
  | .matrixCommandStart k => Sys2Proof.Machine.execMatrixCommandStart k s
  | .matrixCommandRetire k => Sys2Proof.Machine.execMatrixCommandRetire k s
  | .chainRendezvous t => Sys2Proof.Machine.execChainRendezvous t s
  | .handlerStrandCreate d l => Sys2Proof.Machine.execHandlerStrandCreate d l s
  | .cqWakeWrite d q v => Sys2Proof.Machine.execCqWakeWrite d q v s
  | .queueMap d => Sys2Proof.Machine.execQueueMap d s
  | .queueUnmap d c => Sys2Proof.Machine.execQueueUnmap d c s
  | .forcedUnmap d => Sys2Proof.Machine.execForcedUnmap d s
  | .operator d c => Sys2Proof.Machine.execOperator d c s
  | .launchBegin d c => Sys2Proof.Machine.execLaunchBegin d c s
  | .launchRetire d l => Sys2Proof.Machine.execLaunchRetire d l s
  | .batchIteration d l => Sys2Proof.Machine.execBatchIteration d l s
  | .batchAdmissionWake d l => Sys2Proof.Machine.execBatchAdmissionWake d l s
  | .wait d c => Sys2Proof.Machine.execWait d c s
  | .waitRecordSatisfied d c => Sys2Proof.Machine.execWaitRecordSatisfied d c s
  | .signal d c => Sys2Proof.Machine.execSignal d c s
  | .boundary d c => Sys2Proof.Machine.execBoundary d c s
  | .transfer d c => Sys2Proof.Machine.execTransfer d c s
  | .nop d c => Sys2Proof.Machine.execNop d c s
  | .transferJobComplete d e => Sys2Proof.Machine.execTransferJobComplete d e s
  | .regionGrant d => Sys2Proof.Machine.execRegionGrant d s
  | .queueBind d => Sys2Proof.Machine.execQueueBind d s
  | .revoke d => Sys2Proof.Machine.execRevoke d s
  | .queueUnbind d => Sys2Proof.Machine.execQueueUnbind d s
  | .flush d => Sys2Proof.Machine.execFlush d s
  | .wdogExpiry d c => Sys2Proof.Machine.execWdogExpiry d c s
  | .iterationBoundary d => Sys2Proof.Machine.execIterationBoundary d s
  | .invalidation d => Sys2Proof.Machine.execInvalidation d s
  | .invalidationComplete d => Sys2Proof.Machine.execInvalidationComplete d s
  | .priAnswer d grp gen code => Sys2Proof.Machine.execPriAnswer d grp gen code s
  | .priTimeout d r => Sys2Proof.Machine.execPriTimeout d r s
  | .priClear d => Sys2Proof.Machine.execPriClear d s
  | .atsInvalidationRequest p pasid base pages => Sys2Proof.Machine.execAtsInvalidationRequest p pasid base pages s
  | .cacheSweep d => Sys2Proof.Machine.execCacheSweep d s
  | .sweepDone d => Sys2Proof.Machine.execSweepDone d s
  | .overdrive e p v => Sys2Proof.Machine.execOverdrive e p v s
  | .edgeTrainingComplete e ok => Sys2Proof.Machine.execEdgeTrainingComplete e ok s
  | .automaticStepDown e => Sys2Proof.Machine.execAutomaticStepDown e s
  | .moduleWidthHalving e m => Sys2Proof.Machine.execModuleWidthHalving e m s
  | .flitCrcError e => Sys2Proof.Machine.execFlitCrcError e s
  | .edgeDown e => Sys2Proof.Machine.execEdgeDown e s
  | .rerouteTimeout a b => Sys2Proof.Machine.execRerouteTimeout a b s
  | .fabricPortDown d n => Sys2Proof.Machine.execFabricPortDown d n s
  | .hostPortDown p => Sys2Proof.Machine.execHostPortDown p s
  | .hostCxlMemAccess p a wr len => Sys2Proof.Machine.execHostCxlMemAccess p a wr len s
  | .pkgSemWrite p v => Sys2Proof.Machine.execPkgSemWrite p v s
  | .pkgSemLeaseExpiry => Sys2Proof.Machine.execPkgSemLeaseExpiry s
  | .packageReset => Sys2Proof.Machine.execPackageReset s
  | .portFundamentalReset p => Sys2Proof.Machine.execPortFundamentalReset p s
  | .sbReset v => Sys2Proof.Machine.execSbReset v s
  | .dieReset d p => Sys2Proof.Machine.execDieReset d p s
  | .bootStateAdvance d => Sys2Proof.Machine.execBootStateAdvance d s
  | .firmwareLoad d p hpa => Sys2Proof.Machine.execFirmwareLoad d p hpa s
  | .attestation d => Sys2Proof.Machine.execAttestation d s
  | .attestationDone d => Sys2Proof.Machine.execAttestationDone d s
  | .timeAdjWrite d v => Sys2Proof.Machine.execTimeAdjWrite d v s
  | .holdover => Sys2Proof.Machine.execHoldover s
  | .throttle d thr => Sys2Proof.Machine.execThrottle d thr s
  | .thermalReset d => Sys2Proof.Machine.execThermalReset d s
  | .telemetrySample d pkgW coreA temp => Sys2Proof.Machine.execTelemetrySample d pkgW coreA temp s
  | .hbmPatrolScrub d pa => Sys2Proof.Machine.execHbmPatrolScrub d pa s
  | .sramScrub d => Sys2Proof.Machine.execSramScrub d s
  | .linkRecalibration e => Sys2Proof.Machine.execLinkRecalibration e s
  | .hbmRowActivationManagement d => Sys2Proof.Machine.execHbmRowActivationManagement d s
  | .singleBitError d hbm => Sys2Proof.Machine.execSingleBitError d hbm s
  | .doubleBitError d unit line => Sys2Proof.Machine.execDoubleBitError d unit line s
  | .registerWrite d off v p => Sys2Proof.Machine.execRegisterWrite d off v p s
  | .pkgSemRead p => Sys2Proof.Machine.execPkgSemRead p s
  | .spareLaneRepair e => Sys2Proof.Machine.execSpareLaneRepair e s
  | .fabricPortTrained d n => Sys2Proof.Machine.execFabricPortTrained d n s
  | .correctionSlewEnd => Sys2Proof.Machine.execCorrectionSlewEnd s
  | .uncorrectableFrame d n => Sys2Proof.Machine.execUncorrectableFrame d n s

end Sys2Proof.Machine
end

