-- ==== Sys2Proof/Machine/Next.lean ====
section
/-! DEFINITION. Who acts next: the acts that the package may make in a state, one of which a step takes, and the wall clock
with the virtual clocks of the strands (R84, R85, R231, R439). -/

namespace Sys2Proof.Machine

/-- Fetch is held (R85): at a word that holds it, at a bq with no decision, or at a word whose queue is full. -/
def State.fetchHeld (s : State) (k : Nat) (st : Strand) : Bool :=
  match st.hold with
  | .run => match st.disp with
    | some w => (match w.ins with
      | .bq _ => st.bq.isEmpty
      | _ => false)
    | none => ([0, 1, 2, 3, 4, 5].any fun c => 32 ≤ (st.queue c).length) && match s.fetchInstr k st with
      | .ok (.inl i) _ => (st.place i).isNone
      | _ => false
  | _ => true

/-- The virtual clock of a strand may leave its vc (R83 to R85): what is due has landed, retired and started, and every
execute-side engine has its next word, due later or behind a boundary, or an empty queue with fetch held. An unanswered page
request of the slot holds the clock (R84, R416). -/
def State.clockMay (s : State) (k : Nat) (st : Strand) : Bool :=
  !st.yHolds && !((s.die (slotDie k)).pri.any fun p => p.slot == k && p.ans.isNone && p.left.isNone) && !(st.land.any fun l => l.due ≤ st.now) && !(st.mq.any st.retires) &&
    !(st.mops.any fun c => c.done && c.retire ≤ st.now) && st.nextCmd.isNone && (s.uopDue k).isNone &&
    [0, 2, 3, 4].all fun c => match st.queue c with
      | w :: _ => st.behindStop w.seq || st.now < st.due c (insHdr w.ins)
      | [] => s.fetchHeld k st

/-- One clk of a slot: rows of started matrix commands are done, and the virtual clock moves where it may; a strand that is
being stopped comes to its point of rest (R384). -/
def State.tickSlot (s : State) (k : Nat) : State :=
  let s := s.onStrand k fun st => { st with aGap := st.aGap + 1 }
  match s.strand k with
  | none => s
  | some st =>
    if st.stop.isSome then (s.rows k true rowFuel).1.settle k
    else if st.want then s.stall k 9 6 0
    else match s.rows k false rowFuel with
      | (s, some (c, o)) => s.stall k 10 c o
      | (s, none) =>
        let s := s.stall k 10 0 0
        match s.strand k with
        | none => s
        | some st =>
          if st.stop.isNone && s.clockMay k st then s.onStrand k fun x => { x with now := x.now + 1, fresh := [] } else s

/-- 1.25 ns in units of 2^-16 ns (R20). -/
def clkTime : Nat := 81920

/-- The correction of a replica in one clk: at most 200 ppm (R231, R438). -/
def Die.slewed (x : Die) : Die :=
  let c := max (-16) (min 16 x.slew)
  { x with lag := x.lag + c, slew := x.slew - c }

/-- The uses of a tile's shared engines after one clk, each as long as it lasts (R30, R109). -/
def Tile.busyLeft (t : Tile) : List (Nat × Nat) := t.busy.filterMap fun b => if b.2 ≤ 1 then none else some (b.1, b.2 - 1)

/-- In every clk the round of each tile that holds strands moves on (R30). -/
def State.windows (s : State) : State :=
  (dedup (s.strands.map (fun e => slotTile e.1) ++ (s.tiles.filter fun e => !e.2.round.isEmpty).map (·.1))).foldl State.windowStep s

/-- Whether the issue opportunity of this clk is withheld from the slots of a die (R439): THR of every 256 are, which ones being open. -/
def State.withheld (s : State) (d : Nat) : Bool × State :=
  let x := s.die d
  let (left, hold) := if x.opLeft = 0 then (256, bits (s.reg d 0xF40) 8 8) else (x.opLeft, x.opHold)
  let (j, s) := if hold = 0 then (0, s) else if left ≤ hold then (1, s) else s.pick 2
  (j == 1, s.onDie d fun x => { x with opLeft := left - 1, opHold := hold - j })

/-- One clk of wall time: the counter (R231), arbitration (R30), and every slot; a throttled die may hold its slots' clocks
(R439). -/
def State.tick (s : State) : State :=
  let s := { s with
    time := s.time + clkTime
    dies := s.dies.map fun (e : Nat × Die) => (e.1, e.2.slewed)
    tiles := s.tiles.map fun (e : Nat × Tile) => (e.1, { e.2 with busy := e.2.busyLeft, win := e.2.win + 1 }) }.windows
  [0, 1, 2, 3].foldl (fun (s : State) d =>
    let (off, s) := s.withheld d
    let s := ((s.die d).launches.filter fun e => e.2.ending.isSome).foldl (fun (s : State) e => s.drainEnd d e.1) s
    let s := if s.dieUp d then s.showWaits d else s
    if off then s
    else ((s.strands.filter fun e => slotDie e.1 == d).map (·.1)).foldl State.tickSlot s) s

/-- The events that units of the package raise by themselves, by unit and kind. -/
inductive Ev where
  /-- of a slot -/
  | slot (n k : Nat)
  /-- of a tile -/
  | tile (n t : Nat)
  /-- of a die -/
  | die (n d : Nat)
  /-- of a queue slot -/
  | queue (n d c : Nat)
  /-- of a launch -/
  | launch (n d l : Nat)
  /-- of a stage of a launch -/
  | stage (n d l st : Nat)
  /-- of a waiting strand of a launch -/
  | blocked (n d l b : Nat)
  /-- of an entry of a die's tables: acknowledgement, copy, batch, transfer engine, page request -/
  | entry (n d x : Nat)
  /-- of the die edges: the change of phase of a domain instance, what a lost edge leaves -/
  | pair (n a b : Nat)
  /-- of the package -/
  | part (n : Nat)
  deriving DecidableEq, Repr

/-- The meaning of an event that a unit raises by itself: that of its row. -/
def Ev.run (e : Ev) (s : State) : Host.Outcome State Fault Refusal :=
  match e with
  | .slot 0 k => execDispatchWord k s
  | .slot 1 k => execStrandPickup k s
  | .slot 2 k => execLandingBufferWrite k s
  | .slot 3 k => execLoadDataArrival k s
  | .slot 4 k => execStorePerform k s
  | .slot 5 k => execAtomicPerform k s
  | .slot 6 k => execHeldArrival k s
  | .slot 7 k => execMatrixCommandStart k s
  | .slot 8 k => execMatrixCommandRetire k s
  | .slot _ k => execPreemption k s
  | .tile 0 t => execChainRendezvous t s
  | .tile 1 t => execArrayGrant t s
  | .tile _ t => execIssueWindowExpiry t s
  | .die 0 d => execRebalance d s
  | .die 1 d => execQueueMap d s
  | .die 2 d => execForcedUnmap d s
  | .die 3 d => execRegionGrant d s
  | .die 4 d => execQueueBind d s
  | .die 5 d => execRevoke d s
  | .die 6 d => execQueueUnbind d s
  | .die 7 d => execFlush d s
  | .die 8 d => execIterationBoundary d s
  | .die 9 d => execInvalidationComplete d s
  | .die 10 d => execSweepDone d s
  | .die 11 d => execBootStateAdvance d s
  | .die _ d => execAttestationDone d s
  | .queue 0 d c => execQueueUnmap d c s
  | .queue 1 d c => execOperator d c s
  | .queue 2 d c => execLaunchBegin d c s
  | .queue 3 d c => execWait d c s
  | .queue 4 d c => execWaitRecordSatisfied d c s
  | .queue 5 d c => execSignal d c s
  | .queue 6 d c => execBoundary d c s
  | .queue 7 d c => execTransfer d c s
  | .queue 8 d c => execNop d c s
  | .queue _ d c => execWdogExpiry d c s
  | .launch 0 d l => execHandlerStrandCreate d l s
  | .launch 1 d l => execLaunchRetire d l s
  | .launch 2 d l => execBatchIteration d l s
  | .launch 3 d l => execBatchAdmissionWake d l s
  | .launch _ d l => execSteal d l s
  | .stage 0 d l st => execStrandCreate d l st s
  | .stage 1 d l st => execQueueSpaceAvailable d l st s
  | .stage _ d l st => execItemAvailable d l st s
  | .blocked 0 d l b => execStrandReady d l b s
  | .blocked 1 d l b => execSignalReread d l b s
  | .blocked _ d l b => execTimeTargetReached d l b s
  | .entry 0 d a => execStoreAcknowledgement d a s
  | .entry 1 d a => execAcknowledgementLoss d a s
  | .entry 2 d j => execCopyLineLanding d j s
  | .entry 3 d b => execBatchComplete d b s
  | .entry 4 d e => execTransferJobComplete d e s
  | .entry _ d r => execPriTimeout d r s
  | .pair 0 lvl inst => execLeadCounterArrival lvl inst s
  | .pair 1 a b => execRerouteTimeout a b s
  | .pair _ e _ => execAutomaticStepDown e s
  | .part 0 => execPkgSemLeaseExpiry s
  | .part 1 => execCorrectionSlewEnd s
  | .part _ => execHoldover s

/-- An act of the package: a slot's front end takes the next word, which issues at once where it stands first; a word or a
micro-operation of a slot; a segment of a stream of a slot; the units of memory that the head of a load queue reads early (R143); a line
that leaves the L1 of a tile, the L2 of a die, or enters or leaves the sampler cache of a tile; a byte of a copy; an event of a unit; the
next input from outside; a clk. -/
inductive Act where
  | front (k : Nat)
  | segment (k : Nat)
  | glance (k : Nat)
  | prefetch (t : Nat)
  | forget (t line : Nat)
  | fleck (d j : Nat)
  | evict (t line : Nat)
  | drop (d line : Nat)
  | word (i : Instr) (k : Nat)
  | event (e : Ev)
  | input
  | clk
  deriving DecidableEq, Repr

/-- The front end of a slot takes a word (R77): the word, where it stands first in its queue, and the state. -/
def State.fetchNext (s : State) (k : Nat) : Option Instr × State :=
  let t := s.frontEnd k
  match s.strand k, t.strand k with
  | some a, some b =>
    let heads := b.disp.toList ++ [0, 1, 2, 3, 4, 5].filterMap fun c => (b.queue c).head?
    match heads.find? fun w => w.seq == a.seq && a.seq != b.seq with
    | some w => (some w.ins, { t with cur := k })
    | none => (none, t)
  | _, _ => (none, t)

/-- A row stands for an event, not for a word of a program or a macro. -/
def isEvent (i : Instr) : Bool := i.cell.isNone && i.uop.isNone

/-- A host access still waits for an edge that retrains (R333). -/
def HostAccess.waits (i : HostAccess) (s : State) : Bool :=
  match i with
  | .reg d off v p => s.hostWaits p (if s.packageWide d off v then [0, d] else [d])
  | .rate e p _ => s.hostWaits p (0 :: edgeDies e)
  | .semWrite p _ => s.hostWaits p [0]
  | .semRead p => s.hostWaits p [0]
  | .reset d p => s.hostWaits p [0, d]
  | .load d p _ => s.hostWaits p [0, d]
  | .mem p a _ len => s.hostWaits p (s.hdmDies p a.toNat len)

/-- A host access that has waited is made. -/
def HostAccess.run (i : HostAccess) (s : State) : Host.Outcome State Fault Refusal :=
  match i with
  | .reg d off v p => execRegisterWrite d off v p s
  | .rate e p v => execOverdrive e p v s
  | .semWrite p v => execPkgSemWrite p v s
  | .semRead p => execPkgSemRead p s
  | .reset d p => execDieReset d p s
  | .load d p hpa => execFirmwareLoad d p hpa s
  | .mem p a wr len => execHostCxlMemAccess p a wr len s

/-- The lines of device and host memory (R319). -/
def lineCount : Nat := 2 ^ 48

/-- What an act performs, and from which state; none where it is performed already. -/
def State.perform (s : State) (a : Act) : Option Instr × State :=
  match a with
  | .front k => s.fetchNext k
  | .segment k => (none, s.segment k)
  | .glance k => (none, s.glance k)
  | .prefetch t => let (x, s) := s.pick lineCount; (none, s.prefetch t x)
  | .forget t x => (none, s.evictSmp t x)
  | .fleck d j => (none, s.fleck d j)
  | .evict t x =>
    if (s.die (t / 24)).l1bad.contains (t, x) then (none, s.onDie (t / 24) fun y => { y with l1bad := y.l1bad.filter (· != (t, x)) })
    else (none, if homeOf x < 4 && s.crossWaits (t / 24) (homeOf x) then s else s.evictL1 t x)
  | .drop d x => (none, s.onDie d fun y => { y with l2 := Tab.del y.l2 x })
  | .word i k => (some i, { s with cur := k })
  | .event e => match e.run s with
    | .next t => (none, t)
    | _ => (none, s)
  | .input => match s.waiting.find? fun i => !i.waits s with
    | some i => match i.run { s with waiting := s.waiting.erase i } with
      | .next t => (none, t)
      | _ => (none, s)
    | none => match s.inputs with
      | [] => (none, s)
      | i :: l => (if isEvent i then some i else none, { s with inputs := l })
  | .clk => (none, s.tick)

/-- The kinds of act of a slot. -/
def slotKinds : Nat := 22

/-- An act of slot `k`, by kind: the front end, the heads of its engine queues, the dispatcher's word, an open suspension
point, a micro-operation, the events of its queues and buffers, a segment of a stream. -/
def State.slotAct (s : State) (kind k : Nat) : Option Act :=
  let word := fun w : Option QWord => w.map fun w => Act.word w.ins k
  let st := s.strand k
  match kind with
  | 0 => some (.front k)
  | 1 => word (st.bind fun x => (x.queue 0).head?)
  | 2 => word (st.bind fun x => (x.queue 1).head?)
  | 3 => word (st.bind fun x => (x.queue 2).head?)
  | 4 => word (st.bind fun x => (x.queue 3).head?)
  | 5 => word (st.bind fun x => (x.queue 4).head?)
  | 6 => word (st.bind fun x => (x.queue 5).head?)
  | 7 => word (st.bind (·.disp))
  | 8 => word (st.bind (·.susp))
  | 9 => (s.uopDue k).map fun i => .word i k
  | 20 => some (.segment k)
  | 21 => some (.glance k)
  | n => some (.event (.slot (n - 10) k))

/-- The events of a launch of a die. -/
def launchActs (d : Nat) (l : Launch) : List Ev :=
  (upFrom 0 5).map (fun n => .launch n d l.no) ++
    (upFrom 0 l.stages.length).flatMap (fun st => (upFrom 0 3).map fun n => .stage n d l.no st) ++
    (upFrom 0 l.blocked.length).flatMap fun b => (upFrom 0 3).map fun n => .blocked n d l.no b

/-- The events of a die. -/
def State.dieActs (s : State) (d : Nat) : List Ev :=
  let x := s.die d
  (upFrom 0 13).map (fun n => .die n d) ++ x.qslots.flatMap (fun e => (upFrom 0 10).map fun n => .queue n d e.1) ++
    x.launches.flatMap (fun e => launchActs d e.2) ++ x.acks.flatMap (fun e => [.entry 0 d e.1, .entry 1 d e.1]) ++
    x.copies.map (fun e => .entry 2 d e.1) ++ (upFrom 0 x.batches.length).map (.entry 3 d) ++
    (upFrom 0 4).map (.entry 4 d) ++ (upFrom 0 x.pri.length).map (.entry 5 d) ++
    (x.doms.flatMap (·.2)).map (fun y => .pair 0 y.lvl y.inst)

/-- What the sampler caches of the tiles with strands may do (R155): one takes some line, or a line leaves it. -/
def State.sampled (s : State) : List Act :=
  (dedup (s.strands.map fun e => slotTile e.1)).flatMap fun t => Act.prefetch t :: (s.tile t).smp.map fun e => Act.forget t e.1

/-- The acts that are no slot's; any line may leave a cache at any time (R250, R251). A line of a die's own memory stays in its L2: what its
HBM holds beneath is what ld.last leaves (R145; DEDUCED, log 86). -/
def State.otherActs (s : State) : List Act :=
  [.clk, .input] ++ ((upFrom 0 96).flatMap (fun t => (upFrom 0 3).map fun n => Ev.tile n t) ++ (upFrom 0 4).flatMap s.dieActs ++
    (upFrom 0 3).map Ev.part ++ (upFrom 0 16).map (fun i => Ev.pair 1 (i / 4) (i % 4)) ++
    (upFrom 0 4).map fun e => Ev.pair 2 e 0).map Act.event ++
    s.tiles.flatMap (fun e => e.2.l1.map fun c => Act.evict e.1 c.1) ++ s.dies.flatMap (fun e => e.2.l1bad.map fun x => Act.evict x.1 x.2) ++
    s.dies.flatMap (fun e => (e.2.l2.filter fun c => homeOf c.1 != e.1).map fun c => Act.drop e.1 c.1) ++
    s.dies.flatMap (fun e => e.2.copies.map fun c => Act.fleck e.1 c.1) ++ s.sampled

/-- The act under a number: kind by kind over the slots, then the others. -/
def State.act (s : State) (n : Nat) : Option Act :=
  if n < slotKinds * slotCount then s.slotAct (n / slotCount) (n % slotCount)
  else s.otherActs[n - slotKinds * slotCount]?

/-- Every act that the package may make. -/
def State.acts (s : State) : List Act :=
  ((upFrom 0 (slotKinds * slotCount)).filterMap fun n => s.slotAct (n / slotCount) (n % slotCount)) ++ s.otherActs

/-- An act changes the state beyond the model's own choices. -/
def State.matters (s : State) (a : Act) : Bool :=
  let (i, t) := s.perform a
  let r := match i with
    | none => some t
    | some i => match exec i t with
      | .next u => some u
      | _ => none
  match r with
  | none => true
  | some u => decide ({ u with cur := s.cur, choice := s.choice } ≠ s)

/-- What the next step performs, and from which state: the act that `agenda` names, or, where it is used up, any of the
acts that change the state. -/
def State.chosen (s : State) : Option Instr × State :=
  match s.agenda with
  | n :: rest =>
    let s := { s with agenda := rest }
    match s.act n with
    | some a => s.perform a
    | none => (none, s)
  | [] =>
    let l := s.acts.filter s.matters
    let (j, s) := s.pick l.length
    s.perform (l.getD j .clk)

end Sys2Proof.Machine
end

