-- ==== Sys2Proof/Machine/Step.lean ====
section
/-! DEFINITION. One step of the package, and a state that fetches a given instruction next. -/

namespace Sys2Proof.Machine

/-- One step: the act that is chosen, a row being performed by its meaning. -/
def step (s : State) : Host.Outcome State Fault Refusal :=
  match s.chosen with
  | (some i, t) => exec i t
  | (none, t) => .next t

/-- Where `withFetchWord` places its instruction, and the tables that map it: physical addresses in die 0's HBM. -/
def fetchBase : Nat := 0x10000

/-- The context table, the two upper page tables, and a readable, writable, executable leaf of 1 GiB over physical
address 0, all in die 0's HBM (R320 to R324). -/
def State.withTables (s : State) : State :=
  (((s.pokeWord (.hbm 0 0x1000) 0x2001).pokeWord (.hbm 0 0x2000) 0x3001).pokeWord (.hbm 0 0x3000) 0x4001).pokeWord (.hbm 0 0x4000)
    (wordOf [(8, 59), (0x31F, 0)])

/-- The strand that fetches the placed instruction. -/
def fetchStrand : Strand := { id := { uid := 0, launch := 1, stage := 0, tile := 0 }, pc := BitVec.ofNat 64 fetchBase }

/-- The launch of that strand: context 0, no handler. -/
def fetchLaunch : Launch :=
  { no := 1, cslot := 0, ctx := 0, oprec := 0, tag := 0, lr := [], n := 0, stages := [{ desc := [] }], tiles := [0], begun := true }

/-- `s` with an instruction whose bits are `w` where slot 0 of die 0 fetches next: the die runs, context 0 maps the first GiB
of its HBM, a launch has a strand in the slot, and the slot's front end acts next. -/
def State.withFetchWord (s : State) (_nbits w : Nat) : State :=
  let s := (s.withTables.setReg 0 0x600 0x1000).setReg 0 0x608 1
  let s := s.poke (.hbm 0 fetchBase) (leBytes 16 w)
  let s := s.onDie 0 fun x =>
    { x with
      state := 3
      quiesce := none
      tlb := []
      launches := Tab.put x.launches 1 fetchLaunch }
  let s := s.onTile 0 fun x => { x with busy := [], round := [], served := [] }
  { s.setStrand 0 fetchStrand with agenda := [0], poison := s.poison.filter fun n => 0x10100 ≤ n * 128, marks := s.marks.filter fun n => 0x10100 ≤ n }

end Sys2Proof.Machine
end

