-- ==== Sys2Proof/Safety.lean ====
section
/-! DEFINITION. The terms in which claims are made: what a state in good order is; when a word stands where it issues
now, by the spec's own conditions; and what its issue changes and leaves. -/

namespace Sys2Proof.Machine

/-- The plain data of a state are in their canonical forms: memory (notes/assumptions, entry 2). -/
structure State.Inv (s : State) : Prop where
  memory : Memory.wf s.mem = true

/-- A run of `n` steps goes on: no fault and no refusal. -/
def State.Safe (s : State) (n : Nat) : Prop := ∃ t, Host.Core.run Sys2Proof.core n s = .next t

/-- Slot `s.cur` holds the strand `st`, which is not being stopped and does not wait for the array after a resumption; `w`, of
instruction `i`, heads its class queue with `l` behind it; no Y word and no suspension point ahead of it is open (R24, R77,
R78). -/
structure Stands (s : State) (st : Strand) (i : Instr) (w : QWord) (l : List QWord) : Prop where
  here  : s.strand s.cur = some st
  runs  : st.stop = none
  awake : st.want = false
  head  : st.queue (insCls i) = w :: l
  word  : w.ins = i
  fresh : st.opened i = none
  order : st.behindSusp w.seq = false
  sync  : st.behindY w.seq = false

/-- The POP token of a word is there, and its PUSH queue has room (R86). -/
def Strand.TokensOk (st : Strand) (c : Nat) (h : Hdr) : Prop :=
  (h.pop = 0 ∨ Cells.get st.tok (tokKey (tokEng h.pop) c) ≠ 0) ∧ (h.push = 0 ∨ st.tokens c (tokEng h.push) < 16)

/-- An execute-side word issues now: its strand's clock stands at the vc at which it is due (R81), the issue interval of the
word before it is kept (R109), what was due has landed (R83), its tokens (R86), its queue sources (R88) and room for its
queue results (R84) are there, nothing that it reads holds an uncorrectable error (R396), and its engine is free (R30). -/
structure Issuable (s : State) (st : Strand) (i : Instr) (w : QWord) (l : List QWord) : Prop extends Stands s st i w l where
  due    : st.now = st.due (insCls i) (insHdr i)
  apart  : (st.engine (insCls i)).last = none ∨ (st.engine (insCls i)).itv ≤ (insHdr i).delay.toNat + 1
  landed : ∀ e ∈ st.land, st.now < e.due
  tokens : st.TokensOk (insCls i) (insHdr i)
  queues : ∀ n ∈ qSources i, st.qs n ≠ []
  room   : insCls i ≠ 3 → 88 ≤ dstField i → dstField i ≤ 91 → st.wLoad (dstField i - 88) < 16
  roomG  : insCls i = 0 → dstField i = 92 → st.xgLoad < 16
  clean  : st.meetsBad (regReads i ++ wordReads i) (qSources i) = false
  unit   : s.arbFree s.cur (insCls i) = true

/-- Two strands hold the same in every register of the program: x, sp, g, v, p, the loop counters and the rotation base, and
have the same identity and trap registers. -/
structure SameRegs (a b : Strand) : Prop where
  x    : b.x = a.x
  sp   : b.sp = a.sp
  g    : b.g = a.g
  v    : b.v = a.v
  p    : b.p = a.p
  lc   : b.lc = a.lc
  base : b.base = a.base
  id   : b.id = a.id

/-- Everything outside a tile's strands, their slots and its arbitration is the same: memory, full bits, poison, dies, edges,
the package's registers, the clock. -/
structure SamePart (s t : State) : Prop where
  mem     : t.mem = s.mem
  empties : t.empties = s.empties
  poison  : t.poison = s.poison ∧ t.marks = s.marks
  dies    : t.dies = s.dies
  edges   : t.edges = s.edges
  time    : t.time = s.time
  sem     : t.semOwner = s.semOwner ∧ t.semExpired = s.semExpired ∧ t.semLease = s.semLease
  rest    : t.epoch = s.epoch ∧ t.recLines = s.recLines ∧ t.told = s.told ∧ t.flash = s.flash ∧ t.portsDown = s.portsDown
  inputs  : t.inputs = s.inputs ∧ t.waiting = s.waiting
  hosts   : t.hostMap = s.hostMap ∧ t.hostGot = s.hostGot ∧ t.hostL = s.hostL

/-- Every other strand and slot is the same, and every tile but for the engines taken in this clk. -/
structure SameOthers (s t : State) : Prop where
  idle    : ∀ k, k ≠ s.cur → Tab.find t.idle k = Tab.find s.idle k
  strands : ∀ k, k ≠ s.cur → t.strand k = s.strand k
  tiles   : ∀ u, ({ t.tile u with busy := (s.tile u).busy } : Tile) = s.tile u

/-- What issues as results of a word: its effects, and its PUSH token, which a matrix command pushes only as it retires (R86, R110). -/
def outcome (i : Instr) (effs : List Eff) : List Eff :=
  effs ++ if (insHdr i).push = 0 ∨ insCls i = 3 then [] else [.tok (insCls i) (tokEng (insHdr i).push)]

/-- `t` is `s` once the word `w` at the head of its queue has issued with the results `effs` (R81 to R88): they wait in the
landing buffer for vc + L with the PUSH token, those of a word with SUSP, yield or halt until step 1 of R24 is done, at whose
suspension point the strand then stands (R24, R372); the word has left its queue, whose engine stands at the vc; entries of
its queue sources are taken; no register of the program has changed yet; nothing else has changed. -/
structure IssueOf (s : State) (st : Strand) (i : Instr) (w : QWord) (l : List QWord) (effs : List Eff) (t : State) : Prop where
  strand : ∃ u, t.strand s.cur = some u ∧ SameRegs st u ∧ u.queue (insCls i) = l ∧
    (suspends i = false → (∀ e, e ∈ u.land ↔ e ∈ st.land ∨ ∃ f ∈ outcome i effs, e = ⟨st.now + (timing i).2, w.seq, f⟩) ∧
      u.late = st.late ∧ u.susp = st.susp) ∧
    (suspends i = true → u.land = st.land ∧ u.late = outcome i effs ∧ u.susp = some w) ∧
    u.engine (insCls i) = ⟨some st.now, (timing i).1⟩ ∧
    (∀ n, u.qs n = if n ∈ qSources i then (st.qs n).drop 1 else st.qs n) ∧
    u.w = st.w ∧ u.xg = st.xg ∧ u.lq = st.lq ∧ u.sq = st.sq ∧ u.mq = st.mq ∧ u.bq = st.bq ∧ u.fmt = st.fmt ∧ u.now = st.now ∧ u.pc = st.pc
  part   : SamePart s t
  others : SameOthers s t

/-- A g register is the destination of a load, an atomic or a cpadv of the strand still in its load or store queue (R82), or of an
atomic whose old value has not come back (R152), or has been lost on its way (R397). -/
def State.Awaited (s : State) (st : Strand) (n : Nat) : Prop :=
  n ≠ 0 ∧ (∃ m ∈ st.lq ++ st.sq, writesG m.w.ins = true ∧ dstField m.w.ins = n) ∨ ∃ b, s.owes st.id.uid n b = true

/-- A word of class A issues now (R78, R82, R86, R88): the gap that its DELAY asks for has passed, no g register of `gs` awaits
a value, the w and xg entries that it takes and the room that it needs in a q queue, the load queue or the store queue are
there, with SUSP every earlier word has retired and every queue that must be empty is (R24, R25), no copy waits to close its batch (R160),
nothing that it reads holds an uncorrectable error (R396), and the engine is free (R30). -/
structure Accessible (s : State) (st : Strand) (i : Instr) (w : QWord) (l : List QWord) (gs : List (BitVec 7)) (load store : Bool) :
    Prop extends Stands s st i w l where
  cls    : insCls i = 1
  gap    : (insHdr i).delay.toNat + 1 ≤ st.aGap
  tokens : st.TokensOk 1 (insHdr i)
  free   : ∀ n ∈ gRegs gs, ¬ s.Awaited st n
  rested : (insHdr i).susp = true → st.drainedTo w = true ∧ (st.popped i).leftover = 0
  closes : st.causeAt 8 ≠ 13
  takes  : ∀ c ∈ popCodes i, if c = 92 then st.xg ≠ [] else st.ws (c - 88) ≠ []
  roomQ  : 80 ≤ dstField i → dstField i ≤ 87 →
    (st.qs (dstField i - 80)).length + (st.lq.filter fun m => dstField m.w.ins == dstField i).length < 16
  roomL  : load = true → st.lq.length < 16
  roomS  : store = true → st.sq.length < 16
  clean  : st.meetsBad ((gRegs gs).map (64 + ·) ++ (popCodes i).map (176 + ·) ++ wordReads i) [] = false
  unit   : s.arbFree s.cur 1 = true

/-- `t` is `s` once the word `w` of class A has issued (R82): it has left its queue with the entries it takes; g reads `gr`,
the load, store and branch queues are `lq`, `sq` and `bq`; nothing else has changed. -/
structure AccessOf (s : State) (st : Strand) (i : Instr) (l : List QWord) (gr : Nat → Word) (lq sq : List MemOp)
    (bq : List Bool) (t : State) : Prop where
  strand : ∃ u, t.strand s.cur = some u ∧ (∀ n, u.gr n = gr n) ∧ u.lq = lq ∧ u.sq = sq ∧ u.bq = bq ∧ u.queue 1 = l ∧ u.aGap = 0 ∧
    u.x = st.x ∧ u.sp = st.sp ∧ u.v = st.v ∧ u.p = st.p ∧ u.lc = st.lc ∧ u.base = st.base ∧ u.id = st.id ∧ u.q = st.q ∧
    u.land = st.land ∧ u.mq = st.mq ∧ u.fmt = st.fmt ∧ u.now = st.now ∧ u.pc = st.pc ∧
    (∀ n, n < 4 → u.ws n = if 88 + n ∈ popCodes i then (st.ws n).drop 1 else st.ws n) ∧
    u.xg = if 92 ∈ popCodes i then st.xg.drop 1 else st.xg
  part   : SamePart s t
  others : SameOthers s t

end Sys2Proof.Machine
end

