-- ==== Sys2Proof/Certificates/Slice0/Obligations.lean ====
section
/-! DEFINITION. The statements for the provers, one `Obligations.<Name>` for each, with the tables that they share. A table
names the instructions that a statement covers and what the cited rules say each of them gives. -/

namespace Sys2Proof.Claims

open Sys2Proof.Machine

/-- A register pattern read as signed or, where MOD[0] is 1, as unsigned (R114). -/
def num (a : RForm) (v : Word) : Int := if a.mod.getLsbD 0 then (v.toNat : Int) else v.toInt

/-- The exact integers of R114, R116 and R117 for the two sources of a word, by its fields; the destination receives them
modulo 2^64. -/
def scalarValue (st : Strand) : Instr → Option (BitVec 7 × Int)
  | .add a => some (a.fd, (st.srcX a.fa).toNat + (st.srcX a.fb).toNat)
  | .sub a => some (a.fd, (st.srcX a.fa).toNat - (st.srcX a.fb).toNat)
  | .mul a => some (a.fd, (st.srcX a.fa).toNat * (st.srcX a.fb).toNat)
  | .mulh a => some (a.fd, (num a (st.srcX a.fa) * num a (st.srcX a.fb)) / 2 ^ 64)
  | .div a => some (a.fd, if st.srcX a.fb = 0 then 2 ^ 64 - 1 else Int.tdiv (num a (st.srcX a.fa)) (num a (st.srcX a.fb)))
  | .rem a => some (a.fd, if st.srcX a.fb = 0 then (st.srcX a.fa).toNat else
      num a (st.srcX a.fa) - num a (st.srcX a.fb) * Int.tdiv (num a (st.srcX a.fa)) (num a (st.srcX a.fb)))
  | .and a => some (a.fd, (st.srcX a.fa &&& st.srcX a.fb).toNat)
  | .or a => some (a.fd, (st.srcX a.fa ||| st.srcX a.fb).toNat)
  | .xor a => some (a.fd, (st.srcX a.fa ^^^ st.srcX a.fb).toNat)
  | .andn a => some (a.fd, (st.srcX a.fa &&& ~~~st.srcX a.fb).toNat)
  | .shl a => some (a.fd, if 64 ≤ (st.srcX a.fb).toNat then 0 else (st.srcX a.fa).toNat * 2 ^ (st.srcX a.fb).toNat)
  | .shr a => some (a.fd, ((st.srcX a.fa).toNat / 2 ^ min (st.srcX a.fb).toNat 64 : Nat))
  | .sra a => some (a.fd, (st.srcX a.fa).toInt / 2 ^ min (st.srcX a.fb).toNat 63)
  | .popc a => some (a.fd, ((List.range 64).filter (st.srcX a.fa).getLsbD).length)
  | .clz a => some (a.fd, if st.srcX a.fa = 0 then 64 else 63 - (Nat.log2 (st.srcX a.fa).toNat : Int))
  | .ctz a => some (a.fd, (((List.range 64).find? (st.srcX a.fa).getLsbD).getD 64 : Nat))
  | .min a => some (a.fd, min (num a (st.srcX a.fa)) (num a (st.srcX a.fb)))
  | .max a => some (a.fd, max (num a (st.srcX a.fa)) (num a (st.srcX a.fb)))
  | .fsh a =>
    let n := if a.mod.getLsbD 6 then (st.srcX a.fd).toNat % 64 else a.mod.toNat % 64
    some (a.fd, (((st.srcX a.fa).toNat * 2 ^ 64 + (st.srcX a.fb).toNat) / 2 ^ n : Nat))
  | .bfx a =>
    let p := if a.mod.getLsbD 13 then (st.srcX a.fb).toNat else a.mod.toNat % 64
    let w := a.mod.toNat / 64 % 64 + 1
    let f := (st.srcX a.fa).toNat / 2 ^ p % 2 ^ w
    some (a.fd, if a.mod.getLsbD 12 ∧ 2 ^ (w - 1) ≤ f then (f : Int) - 2 ^ w else f)
  | _ => none

/-- The immediate operand (R115): IMM sign-extended, or the 64 bits that an extension word completes (R76). -/
def immediate (a : IForm) : Word := match a.ext with
  | none => a.imm.signExtend 64
  | some e => BitVec.ofNat 64 (a.imm.toNat % 2 ^ 16 + e.toNat * 2 ^ 16)

/-- The results of R115. -/
def immediateValue (st : Strand) : Instr → Option (BitVec 7 × Word)
  | .addi a => some (a.fd, st.srcX a.fa + immediate a)
  | .andi a => some (a.fd, st.srcX a.fa &&& immediate a)
  | .ori a => some (a.fd, st.srcX a.fa ||| immediate a)
  | .xori a => some (a.fd, st.srcX a.fa ^^^ immediate a)
  | .shli a => some (a.fd, st.srcX a.fa <<< (a.imm.toNat % 64))
  | .shri a => some (a.fd, st.srcX a.fa >>> (a.imm.toNat % 64))
  | .srai a => some (a.fd, (st.srcX a.fa).sshiftRight (a.imm.toNat % 64))
  | .li a => some (a.fd, immediate a)
  | _ => none

/-- COND of R118: 0 eq, 1 ne, 2 lt, 3 ge, of signed or unsigned patterns. -/
def holds (c : Nat) (u : Bool) (a b : Word) : Bool :=
  if c = 0 then a == b else if c = 1 then a != b
  else if c = 2 then (if u then decide (a.toNat < b.toNat) else decide (a.toInt < b.toInt))
  else (if u then decide (b.toNat ≤ a.toNat) else decide (b.toInt ≤ a.toInt))

/-- What the compares, spop and sel give (R118 to R120). -/
def predicateValue (st : Strand) : Instr → Option Eff
  | .cmp a => some (.sp (a.fd.toNat - 64) (holds (a.mod.toNat % 4) (a.mod.getLsbD 2) (st.srcX a.fa) (st.srcX a.fb)))
  | .cmpi a => some (.sp (a.fd.toNat - 64) (match a.ext with
    | some _ => st.srcX a.fa == immediate a
    | none => holds (a.imm.toNat / 2 ^ 20) (a.imm.getLsbD 19) (st.srcX a.fa) ((a.imm.setWidth 19).signExtend 64)))
  | .spop a =>
    let x := st.srcSp (a.fa.toNat - 64)
    let y := st.srcSp (a.fb.toNat - 64)
    some (.sp (a.fd.toNat - 64) (([x && y, x || y, x ^^ y, x && !y, !x, true, false] : List Bool).getD (a.mod.toNat % 8) false))
  | .sel a => some (effX a.fd (if st.srcSp (a.mod.toNat % 8) then st.srcX a.fa else st.srcX a.fb))
  | _ => none

end Sys2Proof.Claims

open Sys2Proof Sys2Proof.Machine Sys2Proof.Claims

/-- R114, R116, R117: add, sub, mul, mulh, div, rem, and, or, xor, andn, shl, shr, sra, popc, clz, ctz, min, max, fsh and bfx
complete wherever they stand to issue, with the rule's exact integer modulo 2^64 on its way to the destination. -/
def Sys2Proof.Claims.ScalarResultsAreTheExactIntegers : Prop :=
  ∀ s st i w l fd x, Issuable s st i w l → scalarValue st i = some (fd, x) →
    ∃ t, exec i s = .next t ∧ IssueOf s st i w l [effX fd (BitVec.ofInt 64 x)] t

/-- R117: bfi replaces bits p to p + w - 1 of the destination as read at issue by the low bits of the source. -/
def Sys2Proof.Claims.BitFieldInsertKeepsTheOtherBits : Prop :=
  ∀ s st a w l, Issuable s st (.bfi a) w l →
    ∃ t r, exec (.bfi a) s = .next t ∧ IssueOf s st (.bfi a) w l [effX a.fd r] t ∧
      ∀ i, i < 64 →
        let p := if a.mod.getLsbD 13 then (st.srcX a.fb).toNat else a.mod.toNat % 64
        r.getLsbD i = if p ≤ i ∧ i < p + (a.mod.toNat / 64 % 64 + 1) then (st.srcX a.fa).getLsbD (i - p) else (st.srcX a.fd).getLsbD i

/-- R115: the immediate operations. -/
def Obligations.ImmediateResults : Prop :=
  ∀ s st i w l fd x, Issuable s st i w l → immediateValue st i = some (fd, x) →
    ∃ t, exec i s = .next t ∧ IssueOf s st i w l [effX fd x] t

/-- R118 to R120: cmp, cmpi, spop and sel. -/
def Obligations.ComparesPredicatesAndSelect : Prop :=
  ∀ s st i w l e, Issuable s st i w l → predicateValue st i = some e →
    ∃ t, exec i s = .next t ∧ IssueOf s st i w l [e] t

namespace Sys2Proof.Claims

open Sys2Proof.Machine

/-- The dispatcher of slot `s.cur` holds the word `w` of instruction `i` (R77, R89). -/
structure InDispatcher (s : State) (st : Strand) (i : Instr) (w : QWord) : Prop where
  here : s.strand s.cur = some st
  runs : st.stop = none
  held : st.disp = some w
  word : w.ins = i

/-- The strand with a loop counter written, which holds an uncorrectable error no more (R123, R396). -/
def loaded (st : Strand) (n : Nat) (c : BitVec 32) : Strand :=
  { st with lc := Cells.set st.lc n c, bad := st.bad.filter (· != 308 + n) }

/-- What a word that the dispatcher consumes leaves of its strand, `pc` being the word's address (R89, R90, R121,
R123, R124); none where it waits. -/
def dispatched (st : Strand) (pc : Word) : Instr → Option Strand
  | .br a => some { st with pc := pc + 8 * a.imm.signExtend 64 }
  | .loop a =>
    let n := a.imm.toNat / 2 ^ 20
    let c := Cells.get st.lc n
    let st := { st with base := st.base - 1 }
    some (if c = 0 then st else { st with lc := Cells.set st.lc n (c - 1), pc := pc + 8 * (a.imm.setWidth 20).signExtend 64 })
  | .bq a => match st.bq with
    | [] => none
    | b :: l => some { st with bq := l, pc := if b then pc + 8 * a.imm.signExtend 64 else st.pc }
  | .lcset a => match a.ext with
    | none => some (loaded st (a.imm.toNat / 2 ^ 20) (BitVec.ofNat 32 (a.imm.toNat % 2 ^ 20)))
    | some _ => some (loaded st ((immediate a).toNat / 2 ^ 32 % 4) ((immediate a).setWidth 32))
  | .rbset a => some { st with base := a.imm.setWidth 5 }
  | _ => none

/-- What a word that acts on its strand at issue does there (R121, R123, R124, R126), `pc` being the word's address. -/
def atIssue (st : Strand) (pc : Word) : Instr → Option (Strand → Strand)
  | .bcc a => some fun x => if st.srcSp (a.fa.toNat - 64) then { x with pc := pc + 8 * a.imm.signExtend 64 } else x
  | .lcmov a => some fun x => loaded x (a.mod.toNat % 4) ((st.srcX a.fa).setWidth 32)
  | .rbmov a => some fun x => { x with base := (st.srcX a.fa).setWidth 5 }
  | .mts a => if a.mod.toNat % 4096 = 0x008 then some fun x => { x with base := (st.srcX a.fa).setWidth 5 } else none
  | _ => none

/-- What mfs, mts, tnow, mfw and mfwi land (R125, R126, R136). -/
def systemValue (s : State) (st : Strand) : Instr → Option Eff
  | .mfs a => some (effX a.fd (s.sysReg s.cur st (a.mod.toNat % 4096)))
  | .mts a => if a.mod.toNat % 4096 = 0x008 ∨ (a.mod.toNat % 4096 = 0x018 ∧ st.id.joined) then none
      else some (.sys (a.mod.toNat % 4096) (st.srcX a.fa))
  | .tnow a => some (effX a.fd (BitVec.ofNat 64 (if a.mod.getLsbD 0 then s.clock (slotDie s.cur) else s.clock (slotDie s.cur) / 2 ^ 16)))
  | .mfw a => if st.fmtLoad < 32 then some (.fmt (st.srcX a.fa)) else none
  | .mfwi a => if st.fmtLoad < 32 then some (.fmt (match a.ext with | none => a.imm.zeroExtend 64 | some _ => immediate a)) else none
  | _ => none

/-- A suspension point `w` of slot `s.cur` has issued and every word before it has retired, the load, store and matrix queues
being empty (R24 steps 1 and 2); `took` says what it took, until it has been tested (R25, R372). -/
structure Drained (s : State) (st : Strand) (i : Instr) (w : QWord) (took : Option Took) : Prop where
  here  : s.strand s.cur = some st
  runs  : st.stop = none
  susp  : st.susp = some w
  word  : w.ins = i
  first : st.issuedBefore w.seq = true
  done  : st.land = [] ∧ st.mq = [] ∧ st.lq = [] ∧ st.sq = []
  took  : st.took = took

end Sys2Proof.Claims

open Sys2Proof Sys2Proof.Machine Sys2Proof.Claims

/-- R89, R90, R121, R123, R124: br, loop, bq (with a decision there), lcset and rbset take effect at dispatch, where the decision or the
counter that they read holds no uncorrectable error (R396); nothing but their strand changes, whose dispatcher waits no longer (R424). -/
def Obligations.DispatcherWordsActAtDispatch : Prop :=
  ∀ s st i w u, InDispatcher s st i w → st.meetsBad (dispReads i) [] = false → dispatched { st with disp := none } w.pc i = some u →
    ∃ t, exec i s = .next t ∧ t.strand s.cur = some { u with waits := Tab.del u.waits 6 } ∧ SamePart s t ∧ SameOthers s t

/-- R121, R123, R124, R126: bcc, lcmov, rbmov and an mts to ROTBASE take effect at their issue. -/
def Obligations.ControlWordsActAtIssue : Prop :=
  ∀ s st i w l f, Issuable s st i w l → atIssue st w.pc i = some f →
    ∃ t, IssueOf s st i w l [] t ∧ exec i s = .next (t.onStrand s.cur f)

/-- R125, R126, R136: mfs, mts, tnow, mfw and mfwi (with room in the format word queue). -/
def Sys2Proof.Claims.SystemAndFormatWords : Prop :=
  ∀ s st i w l e, Issuable s st i w l → systemValue s st i = some e → ∃ t, exec i s = .next t ∧ IssueOf s st i w l [e] t

/-- R35: an mts to DOM_MEMBER while JOINED is 1 stops the strand with 0x03/0x0003; with stores still to perform the strand
is in its slot, stopped, with the trap registers of R131; it stands in no line of a stage any more (R234). -/
def Sys2Proof.Claims.WriteOfMembershipWhileJoinedFaults : Prop :=
  ∀ s st a w l, Issuable s st (.mts a) w l → a.mod.toNat % 4096 = 0x018 → st.id.joined = true → st.sq ≠ [] →
    ∃ t u, exec (.mts a) s = .next t ∧ t.strand s.cur = some u ∧ SamePart (s.unwait s.cur st) t ∧
      u.stop.map (fun p => (p.f.cls, p.f.code, p.pc)) = some (3, 3, w.pc) ∧ u.id.cause = 0x03000003 ∧
      u.id.tpc = w.pc &&& 0xFFFFFFFFFFFFF8 ∧ u.x = st.x ∧ u.queue 0 = w :: l

/-- R133: a trap issues, and its strand then stops with class 0x01 and the code of its immediate. Where stores are still to
perform, the strand stands in its slot, stopped, its trap registers written (R131), and in no line of a stage any more (R234); the rest of the part is as
it was. -/
def Sys2Proof.Claims.TrapStopsItsStrand : Prop :=
  ∀ s st a w l, Issuable s st (.trap a) w l →
    (∃ t, IssueOf s st (.trap a) w l [] t ∧
      exec (.trap a) s = .next (t.takeFault s.cur { cls := 1, code := a.imm.toNat % 2 ^ 16 } w.pc 0 0 (some w))) ∧
    (st.sq ≠ [] → ∃ t u, exec (.trap a) s = .next t ∧ t.strand s.cur = some u ∧ SamePart (s.unwait s.cur st) t ∧ SameOthers s t ∧
      u.stop.map (fun p => (p.f.cls, p.f.code, p.pc)) = some (1, a.imm.toNat % 2 ^ 16, w.pc) ∧
      u.id.cause = BitVec.ofNat 64 (2 ^ 24 + a.imm.toNat % 2 ^ 16) ∧ u.id.tpc = w.pc &&& 0xFFFFFFFFFFFFF8 ∧ u.id.taddr = 0 ∧
      u.x = st.x ∧ u.g = st.g ∧ u.v = st.v ∧ u.p = st.p ∧ u.queue 0 = l)

/-- R24, R135: yield and halt issue as suspension points: from then on the point is open. -/
def Sys2Proof.Claims.YieldAndHaltOpenASuspensionPoint : Prop :=
  ∀ s st a w l, ∀ i ∈ [Instr.yield a, Instr.halt a], Issuable s st i w l →
    ∃ t u, exec i s = .next t ∧ IssueOf s st i w l [] t ∧ t.strand s.cur = some u ∧ u.susp = some w

/-- R24, R25, R362, R372: at a drained suspension point the queues are tested. With all of them empty the results of its word go
to the landing buffer, at the vc of the clock (what is due there lands in that vc, R83); with an entry left in one the strand
stops at the word with 0x03/0x0002, whose INFO names the queues, and the word stands in its queue again. -/
def Sys2Proof.Claims.SuspensionPointTestsItsQueues : Prop :=
  ∀ s st i w tk, (∃ a, i = .yield a) ∨ (∃ a, i = .halt a) ∨ (∃ a, i = .add a) → Drained s st i w (some tk) → tk.ret = none →
    (st.leftover = 0 → ∃ t u, exec i s = .next t ∧ t.strand s.cur = some u ∧ u.took = none ∧ u.susp = some w ∧ SameRegs st u ∧
      (∀ e, e ∈ u.land ↔ ∃ f ∈ st.late, e = ⟨st.now, w.seq, f⟩) ∧ SamePart s t ∧ SameOthers s t) ∧
    (st.leftover ≠ 0 → exec i s = .next ((s.setStrand s.cur (st.undone w tk)).takeFault s.cur
      { cls := 3, code := 2, info := st.leftover } w.pc (insCls w.ins)))

/-- R24, R25, R135: once the strand has drained, the queues have been tested and its record can be written, while no line of its L1
waits for an edge that retrains (R333), yield empties the slot and puts the strand at the tail of its stage's ready list. -/
def Sys2Proof.Claims.YieldReturnsToTheReadyList : Prop :=
  ∀ s st a w v lc g, Drained s st (.yield a) w none →
    s.backWaits (s.l1s (slotTile s.cur)) [1, 2] = false → (s.tidy s.cur st.id).writeRecord s.cur st false st.pc = .ok () v →
    v.launch (slotDie s.cur) st.id.launch = some lc → lc.no = st.id.launch → lc.stages[st.id.stage]? = some g → lc.latency = false →
    ∃ t lc' e, exec (.yield a) s = .next t ∧ t.strand s.cur = none ∧ t.mem = v.mem ∧
      t.launch (slotDie s.cur) st.id.launch = some lc' ∧
      lc'.stages[st.id.stage]?.map (·.ready) = some (g.ready ++ [e]) ∧ e.id.uid = st.id.uid ∧ e.id.crec = st.id.crec ∧ e.full = false

/-- R42, R135: a drained halt, its queues tested, whose batches are complete and whose stores are acknowledged, while no line of its L1
waits for an edge that retrains (R333), ends the strand: its
slot is idle and its frame returns to the pool of its stage in the launch that created it (R28), the launch named in `org` where it
resumed on another die. -/
def Sys2Proof.Claims.HaltEndsTheStrand : Prop :=
  ∀ s st a w d l lc g, Drained s st (.halt a) w none → st.id.handler = false → st.id.org.getD (slotDie s.cur, st.id.launch) = (d, l) →
    (∀ e ∈ s.dies, ∀ b ∈ e.2.batches, b.uid ≠ st.id.uid) → s.backWaits (s.l1s (slotTile s.cur)) [1, 2] = false →
    (∀ e ∈ s.dies, ∀ x ∈ e.2.acks, x.2.uid ≠ st.id.uid ∧ st.id.uid ∉ x.2.read) →
    s.launch d l = some lc → lc.no = l → lc.stages[st.id.stage]? = some g →
    ∃ t lc', exec (.halt a) s = .next t ∧ t.strand s.cur = none ∧ t.launch d l = some lc' ∧
      lc'.stages[st.id.stage]?.map (·.freeF) = some (g.freeF ++ [st.id.frame])

/-- R134: hret of a record that a stopped strand of its launch left on its own die, with every earlier access of its own strand performed
and acknowledged and the record readable: the strand leaves the list of stopped strands and joins its stage's ready list, with the
class of the record; FULL 0 in the record makes it resume from its record alone. With SUSP the word opens its suspension point first
and nothing has moved (R24, R362); at the drained point, with every queue empty, the strand moves. -/
def Obligations.HandlerReturnMovesTheStoppedStrand : Prop :=
  (∀ s st a w l s1 s2 r lc2 g e h, Issuable s st (.hret a) w l → (insHdr (.hret a)).susp = false → (st.srcX a.fa).toNat % 64 = 0 →
    st.sq = [] → st.lq = [] → (∀ x ∈ st.queue 1, w.seq ≤ x.seq) → s.release s.cur st.id.uid st.id.launch 4 = .ok () s1 →
    s1.stoppedAt (slotDie s.cur) st.id.launch (st.srcX a.fa) = some (slotDie s.cur, st.id.launch, e) →
    s1.readVa { s1.whoOf s.cur st with uid := 0, home := true } kLoad (st.srcX a.fa).toNat 64 = .ok r s2 → (wordAt r 0).getLsbD 55 = false →
    s2.launch (slotDie s.cur) st.id.launch = some lc2 → lc2.no = st.id.launch → lc2.stopped = [(e, h)] → lc2.latency = false →
    e.id.launch = st.id.launch → lc2.stages[e.id.stage]? = some g →
    ∃ t lc', exec (.hret a) s = .next t ∧ t.launch (slotDie s.cur) st.id.launch = some lc' ∧ lc'.stopped = [] ∧ t.mem = s2.mem ∧
      lc'.stages[e.id.stage]?.map (·.ready) = some (g.ready ++ [{ e with full := false, id := { e.id with cls := ((wordAt r 0) >>> 53).setWidth 2 } }])) ∧
  (∀ s st a w l s1 s2, Issuable s st (.hret a) w l → (insHdr (.hret a)).susp = true → (st.srcX a.fa).toNat % 64 = 0 → st.sq = [] → st.lq = [] →
    (∀ x ∈ st.queue 1, w.seq ≤ x.seq) → s.release s.cur st.id.uid st.id.launch 4 = .ok () s1 →
    s1.hretMove s.cur st (st.srcX a.fa) = .ok true s2 →
    ∃ t u, exec (.hret a) s = .next t ∧ t.dies = s1.dies ∧ t.mem = s1.mem ∧ t.strand s.cur = some u ∧ SameRegs st u ∧ u.susp = some w) ∧
  ∀ s st a w tk va v, Drained s st (.hret a) w (some tk) → tk.ret = some va → st.leftover = 0 → s.hretMove s.cur st va = .ok true v →
    ∃ t u, exec (.hret a) s = .next t ∧ t.dies = v.dies ∧ t.mem = v.mem ∧ t.strand s.cur = some u ∧ SameRegs st u ∧ u.took = none

namespace Sys2Proof.Claims

open Sys2Proof.Machine

/-- What a generator word writes (R140): its g sources and its result modulo 2^64. -/
def generatorValue (st : Strand) : Instr → Option (List (BitVec 7) × BitVec 7 × Word)
  | .gadd a => some ([a.fd, a.fa, a.fb], a.fd, st.srcG a.fa + st.srcG a.fb)
  | .gsub a => some ([a.fd, a.fa, a.fb], a.fd, st.srcG a.fa - st.srcG a.fb)
  | .gmul a => some ([a.fd, a.fa, a.fb], a.fd, st.srcG a.fa * st.srcG a.fb)
  | .gand a => some ([a.fd, a.fa, a.fb], a.fd, st.srcG a.fa &&& st.srcG a.fb)
  | .gor a => some ([a.fd, a.fa, a.fb], a.fd, st.srcG a.fa ||| st.srcG a.fb)
  | .gshl a => some ([a.fd, a.fa, a.fb], a.fd, st.srcG a.fa <<< (st.srcG a.fb).toNat)
  | .gshr a => some ([a.fd, a.fa, a.fb], a.fd, st.srcG a.fa >>> (st.srcG a.fb).toNat)
  | .gaddi a => some ([a.fd, a.fa], a.fd, st.srcG a.fa + immediate a)
  | .gli a => some ([a.fd], a.fd, immediate a)
  | .gshli a => some ([a.fd, a.fa], a.fd, st.srcG a.fa <<< (a.imm.toNat % 64))
  | _ => none

/-- Bytes of a contiguous access (R142): 64 × 2^SZ for a queue entry, 2^SZ for a g or xg register. -/
def bytesOf (sz code : Nat) : Nat := if 80 ≤ code ∧ code ≤ 91 then 64 * 2 ^ sz else 2 ^ sz

/-- SZ, ORD and E of ld, st and ld.last: IMM[21:16], or the six top bits of the extended immediate (R142). -/
def ctlField (a : IForm) : Nat := match a.ext with
  | none => a.imm.toNat / 2 ^ 16
  | some _ => (immediate a).toNat / 2 ^ 58

/-- SZ (R142). -/
def szField (a : IForm) : Nat := ctlField a / 16

/-- The offset of ld, st and ld.last (R142). -/
def offsetOf (a : IForm) : Word := match a.ext with
  | none => (a.imm.setWidth 16).signExtend 64
  | some _ => ((immediate a).setWidth 58).signExtend 64

/-- `n` bytes at an address lie below 2^56, not in a reserved part of the local window, and the address is a multiple of `al`
(R137, R143). -/
def Sound (va : Word) (n al : Nat) : Prop := va.toNat < 2 ^ 56 ∧ window va.toNat n ≠ .bad ∧ va.toNat % al = 0

/-- The entry that a load places in the load queue (R143 to R147, R154, R155, R158), its g sources, and what its address must
meet at issue. -/
def loadEntry (st : Strand) (w : QWord) : Instr → Option (List (BitVec 7) × MemOp × Prop)
  | .ld a => some ([a.fd, a.fa], { w := w, a := st.srcG a.fa + offsetOf a },
      Sound (st.srcG a.fa + offsetOf a) (bytesOf (szField a) a.fd.toNat) (min (bytesOf (szField a) a.fd.toNat) 64))
  | .ldLast a => some ([a.fd, a.fa], { w := w, a := st.srcG a.fa + offsetOf a },
      Sound (st.srcG a.fa + offsetOf a) (bytesOf (szField a) a.fd.toNat) (min (bytesOf (szField a) a.fd.toNat) 64))
  | .lds a => some ([a.fa, a.fb], { w := w, a := st.srcG a.fa, b := st.srcG a.fb }, True)
  | .ldg a => some ([a.fa], { w := w, a := st.srcG a.fa, idx := st.srcW a.fb }, True)
  | .tld a => some ([a.fa, a.fb], { w := w, a := st.srcG a.fa, b := st.srcG a.fb },
      (st.srcG a.fa).toNat % 128 = 0 ∧ (st.srcG a.fb).toNat % 128 = 0 ∧ offMemory (st.srcG a.fb).toNat 128 = false)
  | .feLd a => some ([a.fd, a.fa], { w := w, a := st.srcG a.fa },
      feFlt (st.srcG a.fa) (bytesOf (a.mod.toNat % 4) a.fd.toNat) (min 64 (bytesOf (a.mod.toNat % 4) a.fd.toNat)) = none)
  | .smpLd a => if a.mod.getLsbD 14 then some ([a.fa], { w := w, a := st.srcG a.fa, idx := st.srcW a.fb }, True)
      else some ([a.fa], { w := w, a := st.srcG a.fa },
        offMemory (st.srcG a.fa).toNat (64 * 2 ^ (a.mod.toNat % 4)) = false ∧ (st.srcG a.fa).toNat % 64 = 0)
  | _ => none

/-- The bytes of an atomic (R151): 8 for s64 and n64, else 4. -/
def atomBytes (a : RForm) : Nat := if a.mod.toNat % 16 = 2 ∨ a.mod.toNat % 16 = 3 then 8 else 4

/-- An atomic: its fields. -/
def atomOf : Instr → Option RForm
  | .amoAdd a | .amoFadd a | .amoFmax a | .amoMin a | .amoMax a | .amoAnd a | .amoOr a | .amoSwp a | .amoCas a | .amoInc a => some a
  | _ => none

/-- The signed offset that an extension word adds to a descriptor's address (R162). -/
def extOffset (a : RForm) : Word := match a.ext with
  | none => 0
  | some e => e.signExtend 64

/-- A copy descriptor is 64-byte aligned and in memory (R159). -/
def DescriptorAt (va : Word) : Prop := va.toNat % 64 = 0 ∧ offMemory va.toNat 64 = false

/-- The entry that a store, an atomic or a copy places in the store queue (R143, R146, R147, R151, R154, R156, R157, R162 to R167),
its g sources, and what its addresses must meet at issue. -/
def storeEntry (st : Strand) (w : QWord) : Instr → Option (List (BitVec 7) × MemOp × Prop)
  | .st a => some ([a.fd, a.fa], { w := w, a := st.srcG a.fa + offsetOf a, data := st.srcData a.fd },
      Sound (st.srcG a.fa + offsetOf a) (bytesOf (szField a) a.fd.toNat) (min (bytesOf (szField a) a.fd.toNat) 64))
  | .sts a => some ([a.fa, a.fb], { w := w, a := st.srcG a.fa, b := st.srcG a.fb, data := st.srcData a.fd }, True)
  | .stg a => some ([a.fa], { w := w, a := st.srcG a.fa, data := st.srcData a.fd, idx := st.srcW a.fb }, True)
  | .tst a => some ([a.fa, a.fb], { w := w, a := st.srcG a.fa, b := st.srcG a.fb, data := st.srcData a.fd },
      (st.srcG a.fa).toNat % 128 = 0 ∧ (st.srcG a.fb).toNat % 128 = 0 ∧ offMemory (st.srcG a.fb).toNat 128 = false)
  | .feSt a => some ([a.fd, a.fa], { w := w, a := st.srcG a.fa, data := st.srcData a.fd },
      feFlt (st.srcG a.fa) (bytesOf (a.mod.toNat % 4) a.fd.toNat) (min 64 (bytesOf (a.mod.toNat % 4) a.fd.toNat)) = none)
  | .feSet a => some ([a.fa, a.fb], { w := w, a := st.srcG a.fa, b := st.srcG a.fb }, feFlt (st.srcG a.fa) (st.srcG a.fb).toNat 1 = none)
  | .feClr a => some ([a.fa, a.fb], { w := w, a := st.srcG a.fa, b := st.srcG a.fb }, feFlt (st.srcG a.fa) (st.srcG a.fb).toNat 1 = none)
  | .smpInv _ => some ([], { w := w }, True)
  | .cp a => some ([a.fd, a.fa, a.fb], { w := w, a := st.srcG a.fa, b := st.srcG a.fd, d := (match a.ext with
      | none => st.srcG a.fb
      | some e => e.zeroExtend 64) }, (st.srcG a.fd).toNat < 2 ^ 56 ∧ (st.srcG a.fa).toNat < 2 ^ 56)
  | .cpTensor a => some ([a.fa], { w := w, a := st.srcG a.fa + extOffset a }, DescriptorAt (st.srcG a.fa + extOffset a))
  | .cpQuant a => some ([a.fa], { w := w, a := st.srcG a.fa + extOffset a }, DescriptorAt (st.srcG a.fa + extOffset a))
  | .cpPages a => some ([a.fa], { w := w, a := st.srcG a.fa + extOffset a }, DescriptorAt (st.srcG a.fa + extOffset a))
  | .cpRing a => some ([a.fa], { w := w, a := st.srcG a.fa + extOffset a }, DescriptorAt (st.srcG a.fa + extOffset a))
  | .cpChain a => some ([a.fa, a.fb], { w := w, a := st.srcG a.fa, b := (match a.ext with
      | none => st.srcG a.fb
      | some e => e.zeroExtend 64) }, True)
  | .cpadv a => some ([a.fd, a.fa], { w := w, a := st.srcG a.fa }, (st.srcG a.fa).toNat < 2 ^ 56 ∧ (st.srcG a.fa).toNat % 32 = 0)
  | i => (atomOf i).map fun a => ([a.fd, a.fa, a.fb], { w := w, a := st.srcG a.fa, b := st.srcG a.fb, d := st.gr a.fd.toNat },
      Sound (st.srcG a.fa) (atomBytes a) (atomBytes a) ∧ ∀ o, window (st.srcG a.fa).toNat (atomBytes a) ≠ .acc o)

/-- The type of an atomic is s32 or s64 (R151). -/
def atomSigned (a : RForm) : Bool := a.mod.toNat % 16 == 1 || a.mod.toNat % 16 == 3

/-- new(m, b) of R151 and R153 for an atomic of `w` bits; `d` is the old gd of the compare-and-swap. -/
def atomNew (w m b d : Nat) : Instr → Option Nat
  | .amoAdd _ => some ((m + b) % 2 ^ w)
  | .amoInc _ => some ((m + 1) % 2 ^ w)
  | .amoFadd _ => some (toF32 0 (Ext.add false (f32 (BitVec.ofNat 32 m)) (f32 (BitVec.ofNat 32 b)))).toNat
  | .amoFmax _ => some (fmaxF (BitVec.ofNat 32 m) (BitVec.ofNat 32 b)).toNat
  | .amoAnd _ => some (m &&& b)
  | .amoOr _ => some (m ||| b)
  | .amoSwp _ => some b
  | .amoCas _ => some (if m = d then b else m)
  | .amoMin a => some (if atomSigned a then (if (BitVec.ofNat w m).toInt ≤ (BitVec.ofNat w b).toInt then m else b) else min m b)
  | .amoMax a => some (if atomSigned a then (if (BitVec.ofNat w m).toInt ≤ (BitVec.ofNat w b).toInt then b else m) else max m b)
  | _ => none

/-- The head of the load queue of slot `k` may take its value: the strand is not being stopped, nothing earlier in the
store queue holds it (R148 to R150), and the entry holds no uncorrectable error (R396). -/
structure LoadHead (s : State) (k : Nat) (st : Strand) (m : MemOp) (l : List MemOp) : Prop where
  here  : s.strand k = some st
  runs  : st.stop = none
  head  : st.lq = m :: l
  may   : s.loadMay k st m = true
  clean : st.bad.contains 297 = false

/-- The head of the store queue of slot `k` may perform (R148 to R150): the entry holds no uncorrectable error (R396), and no line of the
tile's L1 is still on its way home (R333). -/
structure StoreHead (s : State) (k : Nat) (st : Strand) (m : MemOp) (l : List MemOp) : Prop where
  here  : s.strand k = some st
  runs  : st.stop = none
  head  : st.sq = m :: l
  may   : st.storeMay m = true
  clean : st.bad.contains 298 = false
  home  : s.backWaits (s.l1s (slotTile k)) [1, 2] = false

/-- The bytes of a tile's scratchpad from offset `o`. -/
def spadBytes (s : State) (t o n : Nat) : List Byte := s.peek (.spad t o) n

/-- Every byte of memory outside `n` bytes from `a` reads as before. -/
def KeepsMemory (s t : State) (a n : Nat) : Prop := ∀ k, k < a ∨ a + n ≤ k → t.byte k = s.byte k

end Sys2Proof.Claims

open Sys2Proof Sys2Proof.Machine Sys2Proof.Claims

/-- R140: the generator operations write g at their issue; g0 discards (R75). -/
def Sys2Proof.Claims.GeneratorResults : Prop :=
  ∀ s st i w l gs fd x, generatorValue st i = some (gs, fd, x) → Accessible s st i w l gs false false →
    ∃ t, exec i s = .next t ∧
      AccessOf s st i l (fun n => if n = 0 then 0 else if n = fd.toNat then x else st.gr n) st.lq st.sq st.bq t

/-- R141: aout pushes the outcome of its compare to bq where bq has room. -/
def Sys2Proof.Claims.CompareOutcomeEntersTheBranchQueue : Prop :=
  ∀ s st a w l, Accessible s st (.aout a) w l [a.fa, a.fb] false false → st.bq.length < 16 →
    ∃ t, exec (.aout a) s = .next t ∧ AccessOf s st (.aout a) l st.gr st.lq st.sq
      (st.bq ++ [holds (a.mod.toNat % 4) (a.mod.getLsbD 2) (st.srcG a.fa) (st.srcG a.fb)]) t

/-- R143 to R147, R154, R155, R158: ld, ld.last, lds, ldg, tld, fe.ld and smp.ld, their addresses in order, enter the load
queue with their operands as read at issue. -/
def Sys2Proof.Claims.LoadsEnterTheLoadQueue : Prop :=
  ∀ s st i w l gs m ok, loadEntry st w i = some (gs, m, ok) → ok → Accessible s st i w l gs true false →
    ∃ t, exec i s = .next t ∧ AccessOf s st i l st.gr (st.lq ++ [{ m with at_ := s.time }]) st.sq st.bq t

/-- R143, R146, R147, R151, R154, R156, R157, R162 to R167: st, sts, stg, tst, fe.st, fe.set, fe.clr, smp.inv, the ten atomics, the
six copies and cpadv, their addresses in order, enter the store queue with their operands and data as read at issue. -/
def Sys2Proof.Claims.StoresEnterTheStoreQueue : Prop :=
  ∀ s st i w l gs m ok, storeEntry st w i = some (gs, m, ok) → ok → Accessible s st i w l gs false true →
    ∃ t, exec i s = .next t ∧ AccessOf s st i l st.gr st.lq (st.sq ++ [m]) st.bq t

/-- R148 to R150: qsync and fence stand in both queues. -/
def Sys2Proof.Claims.SyncAndFenceEnterBothQueues : Prop :=
  ∀ s st a w l, ∀ i ∈ [Instr.qsync a, Instr.fence a], Accessible s st i w l [] true true →
    ∃ t, exec i s = .next t ∧ AccessOf s st i l st.gr (st.lq ++ [{ w := w }]) (st.sq ++ [{ w := w }]) st.bq t

/-- R142, R143: the data of a contiguous load of 2^SZ bytes from the scratchpad window arrive in its g register,
zero-extended, where the lines are full (R144) and not poisoned; no byte of memory changes. -/
def Obligations.LoadOfScratchpadReachesItsRegister : Prop :=
  ∀ s k st a m l o n, k < 768 → LoadHead s k st m l → m.w.ins = .ld a → ctlField a / 2 % 8 = 0 → (a.fd.toNat ≤ 31 ∧ a.fd.toNat ≠ 0) →
    n = bytesOf (szField a) a.fd.toNat → m.a.toNat < 2 ^ 56 → m.a.toNat % n = 0 → window m.a.toNat n = .spad o → m.seen = none →
    s.emptyLine (slotTile k) o n = none → s.poisoned (Loc.spad (slotTile k) o).key n = false →
    ∃ t u, exec (.loadDataArrival k) s = .next t ∧ t.strand k = some u ∧ u.lq = l ∧
      u.gr a.fd.toNat = BitVec.ofNat 64 (leNat (spadBytes s (slotTile k) o n)) ∧ (∀ j, j ≠ a.fd.toNat → u.gr j = st.gr j) ∧
      u.x = st.x ∧ u.v = st.v ∧ u.p = st.p ∧ u.sp = st.sp ∧ u.sq = st.sq ∧ SamePart s t ∧ (∀ j, j ≠ k → t.strand j = s.strand j)

/-- R143, R246: a contiguous store from a g register to the scratchpad window writes its 2^SZ low bytes, little-endian, at the
address and nowhere else; the store leaves its queue. -/
def Obligations.StoreToScratchpadWritesItsBytesAlone : Prop :=
  ∀ s k st a m l o n, k < 768 → StoreHead s k st m l → m.w.ins = .st a → ctlField a / 2 % 8 = 0 → a.fd.toNat ≤ 31 → m.part = 0 →
    n = bytesOf (szField a) a.fd.toNat → m.a.toNat < 2 ^ 56 → m.a.toNat % n = 0 → window m.a.toNat n = .spad o →
    ∃ t u, exec (.storePerform k) s = .next t ∧ t.strand k = some u ∧ u.sq = l ∧
      t.peek (.spad (slotTile k) o) n = leBytes n m.data.toNat ∧ KeepsMemory s t (Loc.spad (slotTile k) o).key n ∧
      SameRegs st u ∧ u.lq = st.lq ∧ t.dies = s.dies ∧ t.empties = s.empties ∧ (∀ j, j ≠ k → t.strand j = s.strand j)

/-- R151, R153: an atomic on the scratchpad window writes new(m, b) at its address and nowhere else, and gd receives
the old value (zero-extended, or sign-extended for s32). -/
def Obligations.AtomicReturnsTheOldValueAndWritesTheNew : Prop :=
  ∀ s k st i a m l o n old v, k < 768 → StoreHead s k st m l → m.w.ins = i → atomOf i = some a → n = atomBytes a → a.mod.toNat / 2 ^ 13 = 0 →
    (a.fd.toNat ≤ 31 ∧ a.fd.toNat ≠ 0) → m.a.toNat < 2 ^ 56 → window m.a.toNat n = .spad o →
    s.poisoned (Loc.spad (slotTile k) o).key n = false → old = leNat (spadBytes s (slotTile k) o n) →
    atomNew (8 * n) old (m.b.toNat % 2 ^ (8 * n)) (m.d.toNat % 2 ^ (8 * n)) i = some v →
    ∃ t u, exec (.atomicPerform k) s = .next t ∧ t.strand k = some u ∧ u.sq = l ∧
      t.peek (.spad (slotTile k) o) n = leBytes n v ∧ KeepsMemory s t (Loc.spad (slotTile k) o).key n ∧
      u.gr a.fd.toNat = (if a.mod.toNat % 16 = 1 then (BitVec.ofNat 32 old).signExtend 64 else BitVec.ofNat 64 old) ∧
      (∀ j, j ≠ a.fd.toNat → u.gr j = st.gr j) ∧ u.x = st.x ∧ t.dies = s.dies ∧ t.empties = s.empties

/-- R154: fe.set and fe.clr mark every scratchpad line that their bytes touch, and no other; a size of zero marks none. -/
def Sys2Proof.Claims.FullBitsAreSetAndCleared : Prop :=
  ∀ s k st a m l o (b : Bool), k < 768 → StoreHead s k st m l → m.w.ins = (if b then .feSet a else .feClr a) →
    window m.a.toNat m.b.toNat = .spad o →
    ∃ t u, exec (.storePerform k) s = .next t ∧ t.strand k = some u ∧ u.sq = l ∧ t.mem = s.mem ∧ SameRegs st u ∧
      ∀ t' n, n < 32768 → t.full t' n =
        if m.b ≠ 0 ∧ t' = slotTile k ∧ o / 128 ≤ n ∧ n ≤ (o + m.b.toNat - 1) / 128 then b else s.full t' n

/-- R143 to R147, R155, R158, R247: once a load's value can be read, its arrival delivers it: a q destination gains an entry, a g
destination other than g0 the value's low 64 bits; the load leaves its queue. Where the load has read its memory before, each of its
lanes is as it was read then or as it is read now; else the value is the one read now. -/
def Obligations.LoadDataReachTheDestination : Prop :=
  ∀ s k st m l v s1, k < 768 → LoadHead s k st m l →
    (∃ a b, m.w.ins ∈ [Instr.ld a, .ldLast a, .lds b, .ldg b, .tld b, .smpLd b]) → (ordOf m.w.ins).1 = false →
    s.loadValue (m.who 1 (s.whoOf k st)) m = .ok v s1 →
    ∃ t u x, exec (.loadDataArrival k) s = .next t ∧ t.strand k = some u ∧ u.lq = l ∧ t.mem = s1.mem ∧ t.dies = s1.dies ∧ t.tiles = s1.tiles ∧
      (m.seen = none → x = v) ∧ (∀ i, i < 128 → lane x i = lane v i ∨ ∃ y, m.seen = some y ∧ lane x i = lane y i) ∧
      (∀ n, u.qs n = if n < 8 ∧ dstField m.w.ins = 80 + n then st.qs n ++ [x] else st.qs n) ∧
      (∀ n, u.gr n = if n ≠ 0 ∧ dstField m.w.ins = n ∧ ¬ (80 ≤ n ∧ n ≤ 87) then x.setWidth 64 else st.gr n) ∧
      u.x = st.x ∧ u.v = st.v ∧ u.p = st.p ∧ u.sp = st.sp ∧ u.sq = st.sq

/-- R154, R394: fe.ld within one full line takes its bytes, and marks the line empty where its take bit is set; where a byte of them is
poisoned it stops its strand with 0x05/0x0001, and nothing is delivered and the line stays full; fe.st within one empty line writes its
bytes there, and nowhere else, and marks the line full. -/
def Sys2Proof.Claims.FullEmptyAccessesHandOverALine : Prop :=
  (∀ s k st a m l o n, k < 768 → LoadHead s k st m l → m.w.ins = .feLd a → m.part = 0 → n = bytesOf (a.mod.toNat % 4) a.fd.toNat →
    (a.fd.toNat ≤ 31 ∧ a.fd.toNat ≠ 0) → window m.a.toNat n = .spad o → m.a.toNat % n = 0 → s.full (slotTile k) (o / 128) = true →
    s.poisoned (Loc.spad (slotTile k) o).key n = false →
    ∃ t u, exec (.loadDataArrival k) s = .next t ∧ t.strand k = some u ∧ u.lq = l ∧ t.mem = s.mem ∧
      u.gr a.fd.toNat = BitVec.ofNat 64 (leNat (spadBytes s (slotTile k) o n)) ∧
      t.full (slotTile k) (o / 128) = !a.mod.getLsbD 2) ∧
  (∀ s k st a m l o n, k < 768 → LoadHead s k st m l → m.w.ins = .feLd a → m.part = 0 → n = bytesOf (a.mod.toNat % 4) a.fd.toNat →
    o % 128 + n ≤ 128 → window m.a.toNat n = .spad o → s.full (slotTile k) (o / 128) = true →
    s.poisoned (Loc.spad (slotTile k) o).key n = true → st.sq ≠ [] →
    ∃ t u, exec (.loadDataArrival k) s = .next t ∧ t.strand k = some u ∧ u.lq.drop 1 = l ∧ u.g = st.g ∧ u.q = st.q ∧ t.mem = s.mem ∧
      t.empties = s.empties ∧ u.stop.map (fun p => (p.f.cls, p.f.code, p.pc)) = some (5, 1, m.w.pc)) ∧
  (∀ s k st a m l o n, k < 768 → StoreHead s k st m l → m.w.ins = .feSt a → m.part = 0 → n = bytesOf (a.mod.toNat % 4) a.fd.toNat →
    a.fd.toNat ≤ 31 → window m.a.toNat n = .spad o → m.a.toNat % n = 0 → s.full (slotTile k) (o / 128) = false →
    ∃ t u, exec (.storePerform k) s = .next t ∧ t.strand k = some u ∧ u.sq = l ∧
      t.peek (.spad (slotTile k) o) n = leBytes n m.data.toNat ∧ KeepsMemory s t (Loc.spad (slotTile k) o).key n ∧
      t.full (slotTile k) (o / 128) = true)

namespace Sys2Proof.Claims

open Sys2Proof.Machine

/-- The strand `uid` has no open batch (R159, R160). -/
def NoOpenBatch (s : State) (uid : Nat) : Prop := ∀ b ∈ s.allBatches, b.uid = uid → b.closed = true

/-- Batches of a strand closed and not complete (R160). -/
def closedOnes (s : State) (uid : Nat) : Nat := (s.allBatches.filter fun b => b.uid == uid && b.closed && !b.done).length

/-- The dies of a state once every batch of a strand is closed. -/
def diesClosed (s : State) (uid : Nat) : Tab Die :=
  s.dies.map fun e => (e.1, { e.2 with batches := e.2.batches.map fun b => if b.uid = uid then { b with closed := true } else b })

end Sys2Proof.Claims

open Sys2Proof Sys2Proof.Machine Sys2Proof.Claims

/-- R144, R159, R160: a cp at the head of the store queue whose strand has no open batch is accepted: it stands in the
die's copies with its source, destination and length, in a new open batch; the full bits of the scratchpad lines that
it will write are cleared; no byte of memory has changed. -/
def Sys2Proof.Claims.AcceptedCopyOpensABatch : Prop :=
  ∀ s k st a m l, k < 768 → StoreHead s k st m l → m.w.ins = .cp a → NoOpenBatch s st.id.uid →
    ∃ t u c, exec (.storePerform k) s = .next t ∧ t.strand k = some u ∧ u.sq = l ∧ SameRegs st u ∧ t.mem = s.mem ∧
      Tab.find (t.die (slotDie k)).copies s.nextCopy = some c ∧
      c.work = [.bytes [⟨m.a, m.b, m.d.toNat⟩] false none] ∧ c.uid = st.id.uid ∧ c.eng = none ∧ c.batch = st.id.closed ∧ c.tile = slotTile k ∧
      (t.die (slotDie k)).batches = (s.die (slotDie k)).batches ++
        [{ uid := st.id.uid, launch := st.id.launch, no := st.id.closed, size := 1, count := 1 }] ∧
      ∀ o, window m.b.toNat m.d.toNat = .spad o → m.d ≠ 0 →
        ∀ n, o / 128 ≤ n → n ≤ (o + m.d.toNat - 1) / 128 → t.full (slotTile k) n = false

/-- R144, R162: the last line of a byte copy within the tile's scratchpad lands: its destination holds the source's bytes, no
other byte of memory changes, and the full bit of the line is set. -/
def Sys2Proof.Claims.CopiedLineLandsAndIsFull : Prop :=
  ∀ s d j c src dst n os od, d < 4 → Tab.find (s.die d).copies j = some c → (∀ e ∈ s.dies, ∀ x ∈ e.2.copies, x = (j, c)) →
    c.eng = none → c.job = none → c.tile / 24 = d → (∀ b ∈ s.allBatches, b.uid = c.uid → b.lines = []) →
    c.work = [.bytes [⟨src, dst, n⟩] true none] → n ≠ 0 → window src.toNat n = .spad os → window dst.toNat n = .spad od →
    os % 128 + n ≤ 128 → od % 128 + n ≤ 128 → s.full c.tile (os / 128) = true → s.poisoned (Loc.spad c.tile os).key n = false →
    ∃ t, exec (.copyLineLanding d j) s = .next t ∧ t.peek (.spad c.tile od) n = s.peek (.spad c.tile os) n ∧
      KeepsMemory s t (Loc.spad c.tile od).key n ∧ t.full c.tile (od / 128) = true ∧ t.strands = s.strands

/-- R160, R169: a closed batch whose copies have all landed, and which no earlier batch of its strand precedes, completes, and is
outstanding no more; its wait still finds the fault that it recorded. -/
def Sys2Proof.Claims.ClosedBatchCompletes : Prop :=
  ∀ s d b x, d < 4 → (s.die d).batches[b]? = some x → x.closed = true → x.done = false → x.count = 0 →
    (∀ y ∈ s.allBatches, y.uid = x.uid → y.no < x.no → y.done = true) →
    ∃ t, exec (.batchComplete d b) s = .next t ∧ t.mem = s.mem ∧ t.strands = s.strands ∧
      (t.die d).batches = if x.flt = none ∧ x.lines = [] then (s.die d).batches.eraseIdx b
        else (s.die d).batches.set b { x with done := true }

/-- R168: a batch.close that decodes has every field and MOD zero. It closes the open batch, which counts among the closed ones from
then on; with 15 closed batches not complete it holds (R160); without an open batch that has copies nothing else happens. -/
def Obligations.BatchCloseClosesTheOpenBatch : Prop :=
  (∀ w v a n, decodeWords w v = .ok (.batchClose a, n) → n = 8 ∧ a.fd = 0 ∧ a.fa = 0 ∧ a.fb = 0 ∧ a.mod = 0 ∧ a.ext = none) ∧
  (∀ s st a w l, Accessible s st (.batchClose a) w l [] false false → (∀ m ∈ st.sq, isCopy m.w.ins = false) →
    closedOnes s st.id.uid < 15 →
    ∃ t u, exec (.batchClose a) s = .next t ∧ t.strand s.cur = some u ∧ u.queue 1 = l ∧ t.mem = s.mem ∧ u.x = st.x ∧ u.g = st.g ∧
      t.dies = diesClosed s st.id.uid ∧
      u.id.closed = if s.allBatches.all (fun b => b.uid != st.id.uid || b.closed) then st.id.closed else st.id.closed + 1) ∧
  ∀ s st a w l, Accessible s st (.batchClose a) w l [] false false → (∀ m ∈ st.sq, isCopy m.w.ins = false) →
    15 ≤ closedOnes s st.id.uid → ¬ NoOpenBatch s st.id.uid →
    ∃ t u, exec (.batchClose a) s = .next t ∧ t.strand s.cur = some u ∧ u.queue 1 = w :: l ∧ t.mem = s.mem ∧ u.x = st.x ∧ u.g = st.g ∧
      t.dies = s.dies ∧ u.id = st.id

/-- R169: batch.wait n with at most n batches outstanding once the open one is closed, none of them with a recorded fault,
issues, and the open batch is closed. -/
def Obligations.BatchWaitPassesOnceFewEnoughAreOutstanding : Prop :=
  ∀ s st a w l, Accessible s st (.batchWait a) w l [] false false → (∀ m ∈ st.sq, isCopy m.w.ins = false) →
    (∀ b ∈ s.allBatches, b.uid = st.id.uid → b.done = false ∧ b.flt = none) →
    (s.allBatches.filter fun b => b.uid == st.id.uid).length ≤ a.imm.toNat % 16 →
    ∃ t u, exec (.batchWait a) s = .next t ∧ t.strand s.cur = some u ∧ u.queue 1 = l ∧ t.mem = s.mem ∧ u.x = st.x ∧ u.g = st.g ∧
      t.dies = diesClosed s st.id.uid

namespace Sys2Proof.Claims

open Sys2Proof.Machine
/-- What a vector destination holds as read at issue, lane by lane; zero for a w queue (R170). -/
def oldLane (st : Strand) (c : BitVec 7) (i : Nat) : Lane := if c.toNat ≤ 63 then lane (Cells.get st.v c.toNat) i else 0

/-- Lane `i` is active: unmasked, or its bit of the guard is 1 (R173). -/
def on (st : Strand) (a : RForm) (i : Nat) : Bool := !a.mod.getLsbD 9 || (Cells.get st.p (a.mod.toNat / 32 % 16)).getLsbD i

/-- The integer that a lane holds under .s32 (code 1), else unsigned (R174). -/
def whole (ty : Nat) (v : Lane) : Int := if ty = 1 then v.toInt else v.toNat

/-- An integer wrapped to 32 bits, or with .sat held to the range of its type (R174). -/
def wrapped (ty : Nat) (sat : Bool) (i : Int) : Lane :=
  BitVec.ofInt 32 (if sat then (if ty = 1 then max (-2 ^ 31) (min (2 ^ 31 - 1) i) else max 0 (min (2 ^ 32 - 1) i)) else i)

/-- The type of a lane word: MOD[3:0]; 3 is FP32 (R171). -/
def ty (a : RForm) : Nat := a.mod.toNat % 16

/-- RM of a lane word: MOD[12:10]; 2 rounds toward minus infinity (R60, R172). -/
def rm (a : RForm) : Nat := a.mod.toNat / 2 ^ 10 % 8

/-- .sat (R172). -/
def sat (a : RForm) : Bool := a.mod.getLsbD 13

/-- An exact FP32 operation rounded once under RM (R174): the sum. -/
def fsum (a : RForm) (x y : Ext) : Lane := toF32 (rm a) (Ext.add (rm a == 2) x y)

/-- What a lane operation gives in an active lane, from a, b and the old lane of the destination (R174, R175, R179, R181). -/
def laneValue (x y d : Lane) : Instr → Option (RForm × Lane)
  | .vadd a => some (a, if ty a = 3 then fsum a (f32 x) (f32 y) else wrapped (ty a) (sat a) (whole (ty a) x + whole (ty a) y))
  | .vsub a => some (a, if ty a = 3 then fsum a (f32 x) (f32 y).neg else wrapped (ty a) (sat a) (whole (ty a) x - whole (ty a) y))
  | .vmul a => some (a, if ty a = 3 then toF32 (rm a) (Ext.mul (f32 x) (f32 y)) else x * y)
  | .vmulh a => some (a, BitVec.ofInt 32 (whole (ty a) x * whole (ty a) y / 2 ^ 32))
  | .vfma a => some (a, if ty a = 3 then fsum a (Ext.mul (f32 x) (f32 y)) (f32 d) else x * y + d)
  | .vfms a => some (a, if ty a = 3 then fsum a (f32 d) (Ext.mul (f32 x) (f32 y)).neg else d - x * y)
  | .vmin a => some (a, if ty a = 3 then fminF x y else if whole (ty a) x ≤ whole (ty a) y then x else y)
  | .vmax a => some (a, if ty a = 3 then fmaxL x y else if whole (ty a) x ≤ whole (ty a) y then y else x)
  | .vabs a => some (a, if ty a = 3 then (if f32 x = .nan then qnan else x &&& 0x7FFFFFFF) else wrapped 1 (sat a) x.toInt.natAbs)
  | .vneg a => some (a, if ty a = 3 then (if f32 x = .nan then qnan else x ^^^ 0x80000000) else wrapped 1 (sat a) (-x.toInt))
  | .vand a => some (a, x &&& y)
  | .vor a => some (a, x ||| y)
  | .vxor a => some (a, x ^^^ y)
  | .vnot a => some (a, ~~~x)
  | .vshl a => some (a, x <<< y.toNat)
  | .vshr a => some (a, x >>> y.toNat)
  | .vsra a => some (a, x.sshiftRight y.toNat)
  | .vbfx a =>
    let w := y.toNat / 32 % 32 + 1
    let f := x.toNat / 2 ^ (y.toNat % 32) % 2 ^ w
    some (a, BitVec.ofInt 32 (if ty a = 1 ∧ 2 ^ (w - 1) ≤ f then (f : Int) - 2 ^ w else f))
  | .vpopc a => some (a, BitVec.ofNat 32 ((List.range 32).filter x.getLsbD).length)
  | .vclz a => some (a, if x = 0 then 32 else BitVec.ofNat 32 (31 - Nat.log2 x.toNat))
  | .vmov a => some (a, x)
  | _ => none

/-- What the unmasked moves, permutes and conversions of classes V and F give in each lane (R177, R179 to R181, R184, R186, R189 to
R191); the special functions of R190 by the function of their row. -/
def laneOf (st : Strand) (i : Nat) : Instr → Option (BitVec 7 × Lane)
  | .vli a => some (a.fd, (immediate a).setWidth 32)
  | .vbcast a => some (a.fd, if on st a i then (st.xr a.fa.toNat).setWidth 32 else oldLane st a.fd i)
  | .vsel a => some (a.fd, if (Cells.get st.p (a.mod.toNat / 32 % 16)).getLsbD i then lane (st.srcV a.fa) i else lane (st.srcV a.fb) i)
  | .vperm a =>
    let j := lane (st.srcV a.fb) i
    some (a.fd, if j.getLsbD 31 then 0 else lane (st.srcV a.fa) (j.toNat % 128))
  | .vslide a =>
    let j := (i : Int) + (a.mod.setWidth 8).toInt
    some (a.fd, if j < 0 then lane (st.srcV a.fb) (j + 128).toNat
      else if j < 128 then lane (st.srcV a.fa) j.toNat else lane (st.srcV a.fb) (j - 128).toNat)
  | .vrot a =>
    let n := if a.mod.getLsbD 7 then (st.xr a.fb.toNat).toNat % 128 else a.mod.toNat % 128
    some (a.fd, lane (st.srcV a.fa) ((i + n) % 128))
  | .vfsh a =>
    let n := if a.mod.getLsbD 5 then (oldLane st a.fd i).toNat % 32 else a.mod.toNat % 32
    some (a.fd, BitVec.ofNat 32 (((lane (st.srcV a.fa) i).toNat * 2 ^ 32 + (lane (st.srcV a.fb) i).toNat) / 2 ^ n))
  | .vcvt a => some (a.fd, laneCvt a (lane (st.srcV a.fa) i) (oldLane st a.fd i))
  | .vamax a =>
    let b := if a.mod.getLsbD 0 then 16 else 32
    some (a.fd, if i < 128 / b then blockAmax (st.srcV a.fa) b i else 0)
  | .exp2 a => some (a.fd, fnExp2 (lane (st.srcV a.fa) i))
  | .log2 a => some (a.fd, fnLog2 (lane (st.srcV a.fa) i))
  | .rcp a => some (a.fd, fnRcp (a.mod.toNat / 2 ^ 8 % 8) (lane (st.srcV a.fa) i))
  | .rsqrt a => some (a.fd, fnRsqrt (lane (st.srcV a.fa) i))
  | .sqrt a => some (a.fd, fnSqrt (a.mod.toNat / 2 ^ 8 % 8) (lane (st.srcV a.fa) i))
  | .tanh a => some (a.fd, fnTanh (lane (st.srcV a.fa) i))
  | .sigm a => some (a.fd, fnSigm (lane (st.srcV a.fa) i))
  | .erf a => some (a.fd, fnErf (lane (st.srcV a.fa) i))
  | .fcvtI a => some (a.fd, laneRound (a.mod.toNat / 2 ^ 8 % 8) (lane (st.srcV a.fa) i))
  | .fcvt a =>
    let rm := a.mod.toNat / 2 ^ 8 % 8
    let h := a.mod.toNat / 2 ^ 11 % 2
    let dt := a.mod.toNat % 16
    some (a.fd, if dt = 12 ∨ dt = 13 then
        let r := vtypeRange dt
        let y := (toInt rm r.1 r.2 0 (f32 (lane (st.srcV a.fa) (64 * h + i / 2))) % 2 ^ 64).toNat
        BitVec.ofNat 32 (if i % 2 = 0 then y else y / 2 ^ 32)
      else if i / 64 = h then
        let lo := lane (st.srcV a.fa) (2 * (i % 64))
        let hi := lane (st.srcV a.fa) (2 * (i % 64) + 1)
        toF32 rm (extOf (intOf (a.mod.toNat / 16 % 16) 64 (lo.toNat + 2 ^ 32 * hi.toNat)))
      else oldLane st a.fd i)
  | _ => none

/-- The relation of vcmp (R176): 0 eq, 1 ne, 2 lt, 3 ge, 4 le, 5 gt, 6 uo; of floats, every relation but ne and uo is false with
a NaN. -/
def related (t c : Nat) (x y : Lane) : Bool :=
  if t = 3 then
    let nan := decide (f32 x = .nan ∨ f32 y = .nan)
    let lt := (f32 x).lt (f32 y)
    let gt := (f32 y).lt (f32 x)
    ([!nan && !lt && !gt, nan || lt || gt, lt, !nan && !lt, !nan && !gt, gt, nan] : List Bool).getD c nan
  else ([decide (whole t x = whole t y), decide (whole t x ≠ whole t y), decide (whole t x < whole t y), decide (whole t y ≤ whole t x),
    decide (whole t x ≤ whole t y), decide (whole t y < whole t x)] : List Bool).getD c false

/-- What the predicate words and vcmp give in bit `i` (R176, R178). -/
def predicateBit (st : Strand) (i : Nat) : Instr → Option (Nat × Bool)
  | .vcmp a => some (a.fd.toNat, on st a i && related (ty a) (rm a) (lane (st.srcV a.fa) i) (lane (st.srcV a.fb) i))
  | .pand a => some (a.fd.toNat, (st.srcP (a.fa.toNat - 64)).getLsbD i && (st.srcP (a.fb.toNat - 64)).getLsbD i)
  | .por a => some (a.fd.toNat, (st.srcP (a.fa.toNat - 64)).getLsbD i || (st.srcP (a.fb.toNat - 64)).getLsbD i)
  | .pxor a => some (a.fd.toNat, (st.srcP (a.fa.toNat - 64)).getLsbD i ^^ (st.srcP (a.fb.toNat - 64)).getLsbD i)
  | .pnot a => some (a.fd.toNat, !(st.srcP (a.fa.toNat - 64)).getLsbD i)
  | .pset a => some (a.fd.toNat, decide (i < a.imm.toNat % 256) ^^ a.imm.getLsbD 8)
  | _ => none

/-- The reductions (R182): operator number of `foldOp`. -/
def reduction : Instr → Option (RForm × Nat)
  | .vredsum a => some (a, 0)
  | .vredmax a => some (a, 1)
  | .vredmin a => some (a, 2)
  | _ => none

end Sys2Proof.Claims

open Sys2Proof Sys2Proof.Machine Sys2Proof.Claims

/-- R172 to R175, R179, R181: the masked lane operations; an inactive lane keeps what the destination held. -/
def Obligations.LaneOperations : Prop :=
  ∀ s st i w l (f : Lane → Lane → Lane → Lane) a, Issuable s st i w l → (∀ x y d, laneValue x y d i = some (a, f x y d)) →
    ∃ t r, exec i s = .next t ∧ IssueOf s st i w l [effV a.fd r] t ∧ ∀ j, j < 128 →
      lane r j = if on st a j then f (lane (st.srcV a.fa) j) (lane (st.srcV a.fb) j) (oldLane st a.fd j) else oldLane st a.fd j

/-- R177, R179 to R181, R184, R186, R189 to R191: moves, permutes, conversions and special functions, lane by lane. -/
def Obligations.MovesPermutesConversionsAndFunctions : Prop :=
  ∀ s st i w l fd (f : Nat → Lane), Issuable s st i w l → (∀ j, laneOf st j i = some (fd, f j)) →
    ∃ t r, exec i s = .next t ∧ IssueOf s st i w l [effV fd r] t ∧ ∀ j, j < 128 → lane r j = f j

/-- R176, R178: vcmp, pand, por, pxor, pnot and pset, bit by bit; an inactive lane of vcmp gives 0. -/
def Obligations.PredicateBits : Prop :=
  ∀ s st i w l n (f : Nat → Bool), Issuable s st i w l → (∀ j, predicateBit st j i = some (n, f j)) →
    ∃ t r, exec i s = .next t ∧ IssueOf s st i w l [.p (n - 64) r] t ∧ ∀ j, j < 128 → r.getLsbD j = f j

/-- R182: vredsum, vredmax and vredmin give every lane one value; with every lane active, an integer sum is the sum of the
lanes modulo 2^32, and a maximum or minimum is one of the lanes that no lane exceeds or undercuts. -/
def Sys2Proof.Claims.Reductions : Prop :=
  ∀ s st i w l a op, Issuable s st i w l → reduction i = some (a, op) →
    ∃ t r v, exec i s = .next t ∧ IssueOf s st i w l [effV a.fd r] t ∧ (∀ j, j < 128 → lane r j = v) ∧
      (ty a ≠ 3 → a.mod.getLsbD 9 = false →
        (op = 0 → v = ((List.range 128).map (lane (st.srcV a.fa))).foldl (· + ·) 0) ∧
        (op = 1 → (∃ j, j < 128 ∧ v = lane (st.srcV a.fa) j) ∧ ∀ j, j < 128 → whole (ty a) (lane (st.srcV a.fa) j) ≤ whole (ty a) v) ∧
        (op = 2 → (∃ j, j < 128 ∧ v = lane (st.srcV a.fa) j) ∧ ∀ j, j < 128 → whole (ty a) v ≤ whole (ty a) (lane (st.srcV a.fa) j)))

/-- R183: vscan of .n32 or .s32 sums (OP 0) gives, with every lane active, each lane the sum of lanes 0 to its own modulo 2^32. -/
def Sys2Proof.Claims.PrefixSums : Prop :=
  ∀ s st a w l, Issuable s st (.vscan a) w l →
    ∃ t r, exec (.vscan a) s = .next t ∧ IssueOf s st (.vscan a) w l [effV a.fd r] t ∧
      (ty a ≠ 3 → a.mod.getLsbD 9 = false → a.mod.toNat / 2 ^ 13 = 0 → ∀ j, j < 128 →
        lane r j = ((List.range (j + 1)).map (lane (st.srcV a.fa))).foldl (· + ·) 0) ∧
      ∀ j, j < 128 → on st a j = false → lane r j = oldLane st a.fd j

/-- R185: vqmx and vqem give the packed elements and scales of the quantised blocks in one entry, and with F in MOD[7] the
blocks' flags in a predicate. -/
def Obligations.BlockQuantisation : Prop :=
  ∀ s st a w l, ∀ i ∈ [Instr.vqmx a, Instr.vqem a], Issuable s st i w l →
    let c := a.mod.toNat % 16
    let qs := quantise c (a.mod.toNat / 16 % 8) ((List.range 128).map fun j => f32 (lane (st.srcV a.fa) j))
    let data := padTo 508 (quantBytes c qs) ++ (if c < 9 then qs.map fun q => BitVec.ofNat 8 q.scale else [])
    ∃ t, exec i s = .next t ∧ IssueOf s st i w l (effV a.fd (BitVec.ofNat 4096 (leNat data)) ::
      (if a.mod.getLsbD 7 then [.p (a.fb.toNat - 64) (BitVec.ofNat 128 (quantFlags qs))] else [])) t

/-- R187: vacc.rd reads a quarter of an accumulator row as it stands, vacc.wr and vacc.add carry a vector to one; the row is
xa plus the offset field, and below 768. -/
def Sys2Proof.Claims.AccumulatorQuarters : Prop :=
  ∀ s st a w l, let row := (st.xr a.fa.toNat).toNat + a.mod.toNat % 2 ^ 10
    let quarter := a.mod.toNat / 2 ^ 10 % 4
    let clean := s.poisoned (Loc.acc (slotTile s.cur) (2048 * row + 512 * quarter)).key 512 = false
    row < 768 →
      (clean → Issuable s st (.vaccRd a) w l → ∃ t, exec (.vaccRd a) s = .next t ∧ IssueOf s st (.vaccRd a) w l
        [effV a.fd (BitVec.ofNat 4096 (s.peekNat (.acc (slotTile s.cur) (2048 * row + 512 * quarter)) 512))] t) ∧
      (Issuable s st (.vaccWr a) w l → ∃ t, exec (.vaccWr a) s = .next t ∧ IssueOf s st (.vaccWr a) w l
        [.acc row quarter (st.srcV a.fb)] t) ∧
      (clean → Issuable s st (.vaccAdd a) w l → ∃ t, exec (.vaccAdd a) s = .next t ∧ IssueOf s st (.vaccAdd a) w l
        [.accAdd row quarter 0 (a.mod.toNat / 2 ^ 12 % 2) (st.srcV a.fb)] t)

/-- R187, R377: a vacc word whose row is 768 or more stops its strand with 0x03/0x0007. -/
def Sys2Proof.Claims.AccumulatorRowOverrunFaults : Prop :=
  ∀ s st a w l, ∀ i ∈ [Instr.vaccRd a, .vaccWr a, .vaccAdd a], Issuable s st i w l → st.sq ≠ [] →
    768 ≤ (st.xr a.fa.toNat).toNat + a.mod.toNat % 2 ^ 10 →
    ∃ t u, exec i s = .next t ∧ t.strand s.cur = some u ∧ t.mem = s.mem ∧ u.v = st.v ∧ u.land = st.land ∧
      u.stop.map (fun p => (p.f.cls, p.f.code, p.pc)) = some (3, 7, w.pc)

namespace Sys2Proof.Claims

open Sys2Proof.Machine

/-- Of a matrix word: whether it needs the lease, whether it pops a format word, its operation with its operands as read at
issue, and what its operands must meet there besides the checks of R194 (R199, R200, R202, R205, R207 to R210). `fw` is the
head of the format word queue. -/
def matrixOp (s : State) (st : Strand) (fw : Word) : Instr → Option (Bool × Bool × MOp × Prop)
  | .mldw a => some (true, true, .ldw fw (st.xr a.fa.toNat).toNat, True)
  | .mswap _ => some (true, false, .swap, True)
  | .mmul a => some (true, true, .mul fw (st.xr a.fa.toNat).toNat (st.xr a.fb.toNat).toNat
      (if a.mod.getLsbD 10 then (st.xr a.fd.toNat).toNat else a.mod.toNat % 2 ^ 10) (fw.getLsbD 11), True)
  | .mchain a => some (true, false, .chain (a.mod.toNat % 8) (a.mod.toNat / 8 % 8 + 1),
      a.mod.toNat % 8 ≤ slotTile s.cur % 6 ∧ slotTile s.cur % 6 - a.mod.toNat % 8 + (a.mod.toNat / 8 % 8 + 1) ≤ 6)
  | .mclr a => some (true, false, .clr (st.xr a.fa.toNat).toNat (a.mod.toNat % 2 ^ 10), True)
  | .maccSt a =>
    let x := st.xr a.fa.toNat
    let mem := a.fd.toNat ≤ 63
    some (true, false, .st (x.toNat % 2 ^ 10) (x.toNat / 2 ^ 16 % 2 ^ 10) (a.mod.toNat / 64 % 4 + 1) (a.mod.toNat % 16)
      (a.mod.getLsbD 4) (a.mod.getLsbD 5) (if mem then (st.xr a.fd.toNat).toNat else 0) (if mem then none else some (a.fd.toNat - 88))
      (x.toNat / 2 ^ 32 % 2 ^ 16) st.rmode, x &&& 0xFFFF0000FC00FC00 = 0)
  | .mrnd _ => some (true, false, .other, True)
  | .mrel _ => some (false, false, .other, True)
  | .mdrain _ => some (false, false, .drain, True)
  | _ => none

/-- The run of a lease ends as this word issues: mrel, or the last that the lease covers (R196, R197); with SUSP it ends at the suspension
point (R24). -/
def endsRun (st : Strand) (needs : Bool) (i : Instr) : Bool :=
  !suspends i && match i with
    | .mrel _ => true
    | _ => needs && st.remain == 1

end Sys2Proof.Claims

open Sys2Proof Sys2Proof.Machine Sys2Proof.Claims

/-- R197, R198: mlease of n issues once the array has been granted to its slot; the strand then holds a lease of n commands. -/
def Obligations.LeaseOpensARun : Prop :=
  ∀ s st a w l, Issuable s st (.mlease a) w l → st.mq.length < 64 → st.held = false → (s.tile (slotTile s.cur)).lessee = some s.cur →
    ∃ t u, exec (.mlease a) s = .next t ∧ t.strand s.cur = some u ∧ u.held = true ∧ u.remain = a.imm.toNat % 128 ∧
      u.run = st.run + 1 ∧ SameRegs st u ∧ u.queue 3 = l ∧ SamePart s t

/-- R192, R194, R196, R199, R200, R202, R205, R207 to R210: with the lease where it is needed, the format word where one is
popped, room among the 64 commands and its checks passed, each matrix word enters the command queue with its operands as read
at issue; it counts toward the lease; mrnd sets the rounding mode of later read-outs, but for one with SUSP, after whose suspension
point the mode is RNE. -/
def Sys2Proof.Claims.MatrixWordsEnterTheCommandQueue : Prop :=
  ∀ s st i w l fw needs pops op ok, Issuable s st i w l → fw = st.fmt.headD 0 → matrixOp s st fw i = some (needs, pops, op, ok) → ok →
    (needs = true → st.held = true ∧ st.remain ≠ 0) → (pops = true → st.fmt ≠ []) →
    st.mq.length < 64 → op.check (s.planesOf s.cur st).1 (s.chainOf s.cur st) = none →
    ∃ t u c, exec i s = .next t ∧ t.strand s.cur = some u ∧ u.mq = st.mq ++ [c] ∧ c.op = op ∧ c.w = w ∧ c.start = none ∧
      c.run = st.run ∧ c.issued = st.now ∧ SameRegs st u ∧ u.queue 3 = l ∧ t.mem = s.mem ∧ t.dies = s.dies ∧
      u.fmt = (if pops then st.fmt.drop 1 else st.fmt) ∧ u.held = (st.held && !endsRun st needs i) ∧
      u.remain = (if endsRun st needs i then 0 else if needs then st.remain - 1 else st.remain) ∧
      u.rmode = (match i with
        | .mrnd a => if suspends i then st.rmode else a.imm.toNat % 8
        | _ => st.rmode)

/-- R196, R381: a matrix word that needs the lease, without one, stops its strand with 0x03/0x0006. -/
def Sys2Proof.Claims.MatrixWordWithoutLeaseFaults : Prop :=
  ∀ s st i w l fw pops op ok, Issuable s st i w l → matrixOp s st fw i = some (true, pops, op, ok) → st.held = false → st.sq ≠ [] →
    st.mq.length < 64 →
    ∃ t u, exec i s = .next t ∧ t.strand s.cur = some u ∧ u.mq = st.mq ∧ t.mem = s.mem ∧
      u.stop.map (fun p => (p.f.cls, p.f.code, p.pc)) = some (3, 6, w.pc)

/-- R198, R235: the free array goes to the slot that arbitration names, where its strand waits at an mlease; a strand of another
launch than the last owner finds the planes empty. -/
def Obligations.FreeArrayIsGranted : Prop :=
  ∀ s t k st, t < 96 → s.grantee t = some k → s.strand k = some st → st.want = false →
    ∃ u, exec (.arrayGrant t) s = .next u ∧ (u.tile t).lessee = some k ∧ (u.tile t).lastG = k % 8 ∧
      (u.tile t).owner = some st.id.launch ∧ ((s.tile t).owner ≠ some st.id.launch → (u.tile t).active = none ∧ (u.tile t).shadow = none) ∧
      ((s.tile t).owner = some st.id.launch → (u.tile t).active = (s.tile t).active) ∧ u.strands = s.strands ∧ SamePart s u

/-- R211: the first command that has not started starts at the strand's vc where its bounds are met and its operands hold no
poison, nor its entry an uncorrectable error (R396); mswap exchanges the planes as it starts, and a stream keeps the plane that is active then (R200). -/
def Sys2Proof.Claims.CommandStartsWhereItsBoundsAreMet : Prop :=
  ∀ s k st c, k < 768 → s.strand k = some st → st.nextCmd = some c → c.op.meets = false → s.opPoison k c.w.seq c.op 0 = none →
    st.bad.contains 299 = false →
    ∃ t u, exec (.matrixCommandStart k) s = .next t ∧ t.strand k = some u ∧ t.mem = s.mem ∧ SameRegs st u ∧
      (∃ c', c' ∈ u.mq ∧ c'.w = c.w ∧ c'.start = some st.now ∧ c'.op = c.op ∧
        ∀ fw line row0 m ch, c.op = .mul fw line row0 m ch → c'.plane = (s.tile (slotTile k)).active) ∧
      (c.op = .swap → (t.tile (slotTile k)).active = (s.tile (slotTile k)).shadow ∧
        (t.tile (slotTile k)).shadow = (s.tile (slotTile k)).active)

/-- R211, R86: a command that has come to its retirement leaves the queue; its PUSH token enters its queue then. -/
def Sys2Proof.Claims.RetiredCommandLeavesTheQueue : Prop :=
  ∀ s k st c, k < 768 → s.strand k = some st → st.mops = [] → st.mq.find? st.retires = some c →
    ∃ t u, exec (.matrixCommandRetire k) s = .next t ∧ t.strand k = some u ∧ u.mq = st.mq.filter (fun x => x.w.seq != c.w.seq) ∧
      SameRegs st u ∧ SamePart s t ∧ t.tiles = s.tiles ∧
      ((insHdr c.w.ins).push ≠ 0 → Cells.get u.tok (tokKey 3 (tokEng (insHdr c.w.ins).push)) =
        Cells.get st.tok (tokKey 3 (tokEng (insHdr c.w.ins).push)) + 1)

/-- R205: the mchain words of two neighbouring tiles, both at the heads of their command queues and their runs not ended, meet: both start, and both
tiles are in one chain of two. -/
def Obligations.ChainMembersStartTogether : Prop :=
  ∀ s t k1 k2 no c1 c2 x1 x2, t < 95 → s.chainHead t = some (k1, no, c1) → s.chainHead (t + 1) = some (k2, no, c2) →
    c1.op = .chain 0 2 → c2.op = .chain 1 2 → s.strand k1 = some x1 → x1.nextCmd = some c1 → s.strand k2 = some x2 → x2.nextCmd = some c2 →
    x1.bad.contains 299 = false → x2.bad.contains 299 = false → s.runs k1 c1 = true → s.runs k2 c2 = true →
    ∃ u, exec (.chainRendezvous t) s = .next u ∧ (u.tile t).chain = some { pos := 0, len := 2 } ∧
      (u.tile (t + 1)).chain = some { pos := 1, len := 2 } ∧ u.mem = s.mem ∧
      (∃ x c, u.strand k1 = some x ∧ c ∈ x.mq ∧ c.w = c1.w ∧ c.start.isSome = true) ∧
      ∃ x c, u.strand k2 = some x ∧ c ∈ x.mq ∧ c.w = c2.w ∧ c.start.isSome = true

/-- R208: each row of a clear is written with zeros, whole, and no other byte of memory changes. -/
def Sys2Proof.Claims.ClearedRowsReadZero : Prop :=
  ∀ (s : State) k (c : MCmd) row0 m, c.op = .clr row0 m → c.row < m →
    ∃ c' t, s.rowStep k c = .ok c' t ∧ c'.row = c.row + 1 ∧
      t.peek (accLoc (slotTile k) (row0 + c.row) 0) 2048 = List.replicate 2048 0 ∧
      KeepsMemory s t (accLoc (slotTile k) (row0 + c.row) 0).key 2048

/-- R188, R202: a segment of the row that a started stream has next is one update of the row's lanes: they hold the lanes of
`mulSeg`, and no other byte of memory changes; the command then stands at the next segment, or after the last at the next row. -/
def Sys2Proof.Claims.SegmentUpdatesItsLanes : Prop :=
  ∀ (s : State) k (c : MCmd) fw line row0 m ch h rest p, c.op = .mul fw line row0 m ch → c.pipe = h :: rest → c.plane = some p →
    let r := accLoc (slotTile k) (row0 + c.row) 0
    let v := mulSeg fw p (opRow (fwA fw) (fwRed fw) h.1 h.2) c.seg fun o => BitVec.ofNat 32 (s.peekNat (r.add (4 * o)) 4)
    fwWidth fw ≤ 512 → ∃ c' t, s.segStep k c = .ok c' t ∧
      (∀ o, o < fwWidth fw → t.peekNat (r.add (4 * o)) 4 = (v.getD o 0).toNat) ∧ KeepsMemory s t r.key (4 * fwWidth fw) ∧
      (c.seg + 1 < fwSegs fw → c'.seg = c.seg + 1 ∧ c'.row = c.row ∧ c'.pipe = c.pipe) ∧
      (fwSegs fw ≤ c.seg + 1 → c'.seg = 0 ∧ c'.row = c.row + 1 ∧ c'.pipe = rest)

/-- R66, R68, R202: the segments of a row, one after another, give the sum of the whole row in each lane. -/
def Sys2Proof.Claims.SegmentsOfARowMakeTheRow : Prop :=
  ∀ fw p a (old : Nat → Lane), a.length = fwRed fw →
    (∀ o, o < fwWidth fw → (against fw ((upFrom 0 (fwN fw)).map p.col) o).length = fwRed fw) →
    (upFrom 0 (fwSegs fw)).foldl (fun v seg => mulSeg fw p a seg fun o => v.getD o 0) ((upFrom 0 (fwWidth fw)).map old) =
      mulRow fw p a old

namespace Sys2Proof.Claims

open Sys2Proof.Machine

/-- The entry address of a layer macro's shipped sequence (R235, R240). -/
def macroEntry : Instr → Option (RForm × Nat)
  | .lfwd a => some (a, 0x000)
  | .ldgrad a => some (a, 0x010)
  | .lwgrad a => some (a, 0x020)
  | .lupd a => some (a, 0x030)
  | _ => none

/-- What a micro-operation on the macro's registers leaves: the next address, the base registers and the counters (R238). -/
def microRegs (m : Mac) : Instr → Option (Nat × (Nat → BitVec 16) × (Nat → BitVec 16))
  | .uadd u => some (m.addr + 1, fun j => if j = u.ud.toNat then Cells.get m.b j + Cells.get m.b u.ub.toNat else Cells.get m.b j,
      Cells.get m.c)
  | .uaddi u => some (m.addr + 1, fun j => if j = u.ud.toNat then Cells.get m.b j + u.imm else Cells.get m.b j, Cells.get m.c)
  | .ukset u => some (m.addr + 1, Cells.get m.b, fun j => if j = u.ksel.toNat then u.imm else Cells.get m.c j)
  | .uloop u =>
    if Cells.get m.c u.ksel.toNat = 0 then some (m.addr + 1, Cells.get m.b, Cells.get m.c)
    else some (u.tgt.toNat, Cells.get m.b, fun j => if j = u.ksel.toNat then Cells.get m.c j - 1 else Cells.get m.c j)
  | _ => none

/-- The size of a micro-operation: IMM[9:0], or with IMM[15] the field of descriptor word 7 (R237). -/
def microSize (m : Mac) (u : UForm) : Nat := if u.imm.getLsbD 15 then m.w7.toNat / 2 ^ 32 % 2 ^ 10 else u.imm.toNat % 2 ^ 10

/-- A base register of the running macro, as a line or row number (R236). -/
def microBase (m : Mac) (i : BitVec 3) : Nat := (Cells.get m.b i.toNat).toNat

/-- The array operation of a micro-operation (R238, R239). -/
def microOp (m : Mac) : Instr → Option MOp
  | .uldw u => some (.ldw (Cells.get m.f u.fsel.toNat) (microBase m u.ua))
  | .uswap _ => some .swap
  | .umul u => some (.mul (Cells.get m.f u.fsel.toNat) (microBase m u.ua) (microBase m u.ub) (microSize m u) false)
  | .uclr u => some (.clr (microBase m u.ub) (microSize m u))
  | .ust u =>
    let out := if u.dsc then m.w7.toNat / 2 ^ 42 % 16 else u.out.toNat
    let lq := (if u.dsc then m.w7.toNat / 2 ^ 46 % 4 else u.lq.toNat) + 1
    some (.st (microBase m u.ub) (microSize m u) lq out false false (microBase m u.ua) none (microBase m u.ud) m.mode)
  | .uupd u =>
    let out := if u.dsc then m.w7.toNat / 2 ^ 42 % 16 else u.out.toNat
    let lq := (if u.dsc then m.w7.toNat / 2 ^ 46 % 4 else u.lq.toNat) + 1
    some (.upd (microBase m u.ub) (microSize m u) lq out (microBase m u.ua) (microBase m u.ud) (microBase m (u.tgt.setWidth 3))
      (m.w7.setWidth 32) m.mode)
  | _ => none

/-- The macro of the strand in slot `s.cur` has come to a micro-operation that may start (R241). -/
structure MicroDue (s : State) (st : Strand) (m : Mac) (c : MCmd) (i : Instr) : Prop where
  here : s.strand s.cur = some st
  runs : st.stop = none
  mac  : st.mac = some m
  cmd  : st.macCmd = some c
  may  : st.uopMay m c i = true

end Sys2Proof.Claims

open Sys2Proof Sys2Proof.Machine Sys2Proof.Claims

/-- R240: a layer macro whose descriptor line is full and whose sequence, walked with the descriptor, meets no fault enters the
command queue with its entry (the shipped one, or 0x100 and above from its extension) and the eight descriptor words. -/
def Sys2Proof.Claims.LayerMacrosEnterTheCommandQueue : Prop :=
  ∀ s st i w l a e entry b q, Issuable s st i w l → macroEntry i = some (a, e) →
    entry = (match a.ext with
      | none => e
      | some v => v.toNat % 2 ^ 12) → (a.ext.isSome = true → 0x100 ≤ entry) →
    st.held = true → st.remain ≠ 0 → st.mq.length < 64 → (st.xr a.fa.toNat).toNat < 32768 →
    s.fetchFor s.cur w.seq (128 * (st.xr a.fa.toNat).toNat) 128 = .ok b s →
    (wordAt b 56).toNat / 2 ^ 48 = 0 → (wordAt b 56).toNat / 2 ^ 32 % 2 ^ 10 ≤ 768 →
    macWalk (st.microOf (s.tile (slotTile s.cur)).micro) 65537 (macOf entry ((upFrom 0 8).map fun j => wordAt b (8 * j)) st.rmode 0)
      (s.planesOf s.cur st) = .inr q →
    ∃ t u c, exec i s = .next t ∧ t.strand s.cur = some u ∧ u.mq = st.mq ++ [c] ∧ c.w = w ∧ c.start = none ∧
      c.op = .mac entry ((upFrom 0 8).map fun j => wordAt b (8 * j)) st.rmode ∧ SameRegs st u ∧ t.mem = s.mem

/-- R235, R238: mcload of n words that hold no reserved encoding enters the command queue with them, where its extension, if
any, gives their CRC-32. -/
def Sys2Proof.Claims.MicrocodeLoadEntersTheCommandQueue : Prop :=
  ∀ s st w l a b n, Issuable s st (.mcload a) w l → n = (st.xr a.fb.toNat).toNat →
    st.held = true → st.remain ≠ 0 → st.mq.length < 64 →
    a.mod.toNat % 2 ^ 12 + n ≤ 4096 → n ≤ 3840 → (st.xr a.fa.toNat).toNat < 32768 → (st.xr a.fa.toNat).toNat + (n + 15) / 16 ≤ 32768 →
    s.fetchFor s.cur w.seq (128 * (st.xr a.fa.toNat).toNat) (8 * n) = .ok b s →
    badMicro (a.mod.toNat % 2 ^ 12) ((upFrom 0 n).map fun j => wordAt b (8 * j)) = none →
    (∀ e, a.ext = some e → e.setWidth 32 = crc32 b) →
    ∃ t u c, exec (.mcload a) s = .next t ∧ t.strand s.cur = some u ∧ u.mq = st.mq ++ [c] ∧ c.w = w ∧ c.start = none ∧
      c.op = .load (a.mod.toNat % 2 ^ 12) ((n + 15) / 16) ((upFrom 0 n).map fun j => wordAt b (8 * j)) ∧ SameRegs st u ∧ t.mem = s.mem

/-- R238: UADD, UADDI, UKSET and ULOOP change the macro's registers and address; UEND ends the macro. -/
def Sys2Proof.Claims.RegisterMicroOperations : Prop :=
  (∀ s st m c i addr fb fc, MicroDue s st m c i → microRegs m i = some (addr, fb, fc) →
    ∃ t u m', exec i s = .next t ∧ t.strand s.cur = some u ∧ u.mac = some m' ∧ m'.addr = addr ∧ (∀ j, Cells.get m'.b j = fb j) ∧
      (∀ j, Cells.get m'.c j = fc j) ∧ m'.f = m.f ∧ m'.w7 = m.w7 ∧ u.mops = st.mops ∧ SameRegs st u ∧ SamePart s t ∧ t.tiles = s.tiles) ∧
  ∀ s st m c v, MicroDue s st m c (.uend v) →
    ∃ t u, exec (.uend v) s = .next t ∧ t.strand s.cur = some u ∧ u.mac = none ∧ u.mops.map (fun x => (x.w.seq, x.start, x.op)) = st.mops.map (fun x => (x.w.seq, x.start, x.op)) ∧ SameRegs st u ∧
      SamePart s t ∧ t.tiles = s.tiles

/-- R238, R239: ULDW, USWAP, UMUL, UCLR, UST and UUPD, their operands free of poison, start the array operation that their
fields and the macro's registers name, and the macro goes on at the next address; USWAP exchanges the planes. -/
def Sys2Proof.Claims.ArrayMicroOperations : Prop :=
  ∀ s st m c i o, MicroDue s st m c i → microOp m i = some o → s.opPoison s.cur c.w.seq o 0 = none →
    ∃ t u x m', exec i s = .next t ∧ t.strand s.cur = some u ∧ u.mops = st.mops ++ [x] ∧ x.op = o ∧ x.start.isSome = true ∧
      u.mac = some m' ∧ m'.addr = m.addr + 1 ∧ m'.b = m.b ∧ m'.c = m.c ∧ SameRegs st u ∧ t.mem = s.mem ∧ t.dies = s.dies ∧
      (o = .swap → (t.tile (slotTile s.cur)).active = (s.tile (slotTile s.cur)).shadow ∧
        (t.tile (slotTile s.cur)).shadow = (s.tile (slotTile s.cur)).active)

/-- R239: one row of a weight update with no narrowed copy (OUT 13): each master lane becomes the once-rounded w - LR × g, the
gradient row is cleared in those lanes, and no other byte of memory changes. -/
def Sys2Proof.Claims.WeightUpdateRow : Prop :=
  ∀ (s : State) k (c : MCmd) row0 m lq master copy scl lr mode, c.op = .upd row0 m lq 13 master copy scl lr mode → c.row < m →
    let o := 128 * (master + c.row * 4 * lq)
    let acc := accLoc (slotTile k) (row0 + c.row) 0
    o + 512 * lq ≤ 0x400000 → row0 + c.row < 768 → lq ≤ 4 →
    s.toFill k c.w.seq (linesAt o (512 * lq)) = none → s.emptyLine (slotTile k) o (512 * lq) = none → s.poisoned (Loc.spad (slotTile k) o).key (512 * lq) = false →
    ∃ c' t, s.rowStep k c = .ok c' t ∧ c'.row = c.row + 1 ∧
      t.peek (.spad (slotTile k) o) (512 * lq) = ((upFrom 0 (128 * lq)).map fun i =>
        updLane (laneAt (s.peek (.spad (slotTile k) o) (512 * lq)) i) lr (laneAt (s.peek acc 2048) i)).flatMap (fun x => leBytes 4 x.toNat) ∧
      t.peek acc (512 * lq) = List.replicate (512 * lq) 0 ∧
      ∀ a, (a < (Loc.spad (slotTile k) o).key ∨ (Loc.spad (slotTile k) o).key + 512 * lq ≤ a) →
        (a < acc.key ∨ acc.key + 512 * lq ≤ a) → t.byte a = s.byte a

namespace Sys2Proof.Claims

open Sys2Proof.Machine

/-- A word of class Y heads its queue and issues now (R78, R214): every earlier word has issued, no suspension point is open;
at a schedule boundary every earlier word has also retired; with SUSP every queue that must be empty at the suspension point will be,
and in the blocking form the strand has drained (R24, R25, R215); nothing that it reads holds an uncorrectable error (R396), and no line of
the tile's L1 is still on its way home (R333). -/
structure SyncReady (s : State) (st : Strand) (i : Instr) (w : QWord) (l : List QWord) : Prop extends Stands s st i w l where
  cls   : insCls i = 5
  point : st.susp = none
  first : (st.setQueue 5 []).issuedBefore w.seq = true
  still : isBoundary i = true → st.retired = true
  rest  : suspends i = true → st.willLeave = false ∧ (blockingForm i = true → st.drained = true)
  clean : st.meetsBad (regReads i ++ wordReads i) [] = false
  home  : s.backWaits (s.l1s (slotTile s.cur)) [1, 2] = false

/-- A barrier after an arrival in its current phase from slot `n` of the tile: the phase completes with the COUNT-th (R220). -/
def arrivedNow (b : Bar) (n : Nat) : Bar :=
  if b.cur + 1 = b.count then { b with phase := (b.phase + 1) % 4, cur := b.nxt, nxt := 0, mcur := b.mnxt, mnxt := 0 }
  else { b with cur := b.cur + 1, mcur := b.mcur ||| BitVec.twoPow 8 n }

/-- The identity of a strand that has arrived at a barrier of its tile: it inherits nothing there any more (R32). -/
def arrivedId (s : State) (st : Strand) (a : IForm) : Ident :=
  { st.id with inh := st.id.inh.filter fun b => !(b.1 == slotTile s.cur && b.2.1 == barId a) }

/-- The phase word of a barrier word with its field one further (R220). -/
def advancedWord (st : Strand) (a : IForm) : Cells 64 :=
  (st.setX (yWA a) (putBits (st.xr (yWA a)) (2 * a.i 11 5) 2 (st.barField a + 1))).x

/-- What a word of class Y does once it stands ready and what it waits for is there: the rest of the machine, x, the
identity and the store queue after it. -/
inductive Synced (s : State) (st : Strand) : Instr → State → Cells 64 → Ident → List MemOp → Prop where
  /-- align in both its forms only orders (R80, R217) -/
  | align : Synced s st .align s st.x st.id st.sq
  | alignSuspend : Synced s st .alignSuspend s st.x st.id st.sq
  /-- an idle barrier of the launch receives its count (R219) -/
  | barInit (a : IForm) : (s.bar (slotTile s.cur) (barId a)).owner = some st.id.launch → (s.bar (slotTile s.cur) (barId a)).cur = 0 →
      (s.bar (slotTile s.cur) (barId a)).nxt = 0 →
      (∀ e ∈ s.resident (slotTile s.cur), e.1 ≠ s.cur → e.2.id.launch = st.id.launch → s.waitsBar (slotTile s.cur) e.2 ≠ some (barId a)) →
      (∀ e ∈ s.blockedAt (slotTile s.cur), e.2.launch = st.id.launch → e.1 ≠ barId a) →
      Synced s st (.barInit a) (s.setBar (slotTile s.cur) (barId a) { owner := some st.id.launch, count := a.imm.toNat / 2048 })
        st.x st.id st.sq
  /-- an arrival in the current phase; where it completes the phase, the strands that waited for it are released (R220, R221) -/
  | barArrive (a : IForm) (b : Bar) : s.bar (slotTile s.cur) (barId a) = b → b.owner = some st.id.launch → st.lq = [] → st.sq = [] →
      b.cur < b.count → b.nxt < b.count → st.barField a = b.phase →
      Synced s st (.barArrive a) (s.completeBar (slotTile s.cur) (barId a) (arrivedNow b (s.cur % 8))) (advancedWord st a) (arrivedId s st a) []
  /-- an arrival one phase ahead (R220) -/
  | barArriveAhead (a : IForm) (b : Bar) : s.bar (slotTile s.cur) (barId a) = b → b.owner = some st.id.launch → st.lq = [] → st.sq = [] →
      b.cur < b.count → b.nxt + 1 < b.count → b.phase < 4 → st.barField a = (b.phase + 1) % 4 →
      Synced s st (.barArrive a)
        (s.setBar (slotTile s.cur) (barId a) { b with nxt := b.nxt + 1, mnxt := b.mnxt ||| BitVec.twoPow 8 (s.cur % 8) })
        (advancedWord st a) (arrivedId s st a) []
  /-- a wait whose phase has completed, or that a completion has released (R221) -/
  | barWait (a : IForm) (b : Bar) : s.bar (slotTile s.cur) (barId a) = b → b.owner = some st.id.launch → a.hdr.susp = false →
      st.target = some 4 ∨ b.phase < 4 ∧ st.barField a = b.phase → Synced s st (.barWait a) s st.x st.id st.sq
  /-- the last arrival of a phase, which waits for nobody (R221) -/
  | barArrwait (a : IForm) (b : Bar) : s.bar (slotTile s.cur) (barId a) = b → b.owner = some st.id.launch → a.hdr.susp = false →
      st.arr = false → st.lq = [] → st.sq = [] → b.cur + 1 = b.count → b.nxt < b.count → st.barField a = b.phase →
      Synced s st (.barArrwait a) (s.completeBar (slotTile s.cur) (barId a) (arrivedNow b (s.cur % 8))) (advancedWord st a)
        (arrivedId s st a) []
  /-- one that has arrived before, its phase complete (R221) -/
  | barArrwaitAgain (a : IForm) (b : Bar) : s.bar (slotTile s.cur) (barId a) = b → b.owner = some st.id.launch → a.hdr.susp = false →
      st.arr = true → (st.target = some 4 ∨ b.phase < 4 ∧ st.barField a = b.phase) → Synced s st (.barArrwait a) s st.x st.id st.sq
  /-- joining the instance of the strand's level that contains its tile (R223) -/
  | domJoin (a : IForm) : st.id.joined = false →
      Synced s st (.domJoin a)
        (s.onDom (slotDie s.cur) st.id.launch st.id.level.toNat (s.instOf s.cur st.id.launch st.id.level.toNat)
          fun y => { y with mem := st.id.uid :: y.mem })
        st.x { st.id with joined := true, inst := BitVec.ofNat 16 (s.instOf s.cur st.id.launch st.id.level.toNat), dom := some (slotDie s.cur, st.id.launch) } st.sq
  /-- leaving it: the instance goes on without the strand (R37, R223) -/
  | domLeave (a : IForm) : st.id.joined = true →
      Synced s st (.domLeave a)
        (s.onDom (st.id.domHome (slotDie s.cur)).1 (st.id.domHome (slotDie s.cur)).2 st.id.level.toNat st.id.inst.toNat
          fun y => { y with mem := y.mem.filter (· != st.id.uid), arr := y.arr.filter (· != st.id.uid) })
        st.x { st.id with joined := false, inst := 0, dom := none } st.sq
  /-- leaving without having joined does nothing (R223) -/
  | domLeaveFree (a : IForm) : st.id.joined = false → Synced s st (.domLeave a) s st.x { st.id with joined := false, inst := 0, dom := none } st.sq
  /-- the arrival that lets the instance enter its next phase (R37, R224) -/
  | domSync (a : IForm) (s1 s2 : State) (h : Nat × Nat) (sc : Nat) : st.id.joined = true → a.hdr.susp = false → st.darr = false →
      h = st.id.domHome (slotDie s.cur) → sc = levelScope st.id.level.toNat (s.fabric (slotDie s.cur) st.id.launch) →
      s.yRelease s.cur st sc = .ok () s1 →
      s1.onDom h.1 h.2 st.id.level.toNat st.id.inst.toNat (fun y => { y with arr := st.id.uid :: y.arr }) = s2 →
      s2.domPhase h.1 h.2 st.id.level.toNat st.id.inst.toNat ≠ s1.domPhase h.1 h.2 st.id.level.toNat st.id.inst.toNat →
      Synced s st (.domSync a) (s2.acqClean s.cur st.id.launch sc) st.x st.id st.sq
  /-- one that has arrived before, its instance moved on (R224) -/
  | domSyncAgain (a : IForm) : st.id.joined = true → a.hdr.susp = false → st.darr = true →
      s.domPhase (st.id.domHome (slotDie s.cur)).1 (st.id.domHome (slotDie s.cur)).2 st.id.level.toNat st.id.inst.toNat ≠ st.phase →
      Synced s st (.domSync a)
        (s.acqClean s.cur st.id.launch (levelScope st.id.level.toNat (s.fabric (slotDie s.cur) st.id.launch))) st.x st.id st.sq
  /-- an item into the next stage's queue, with room and nobody before (R225) -/
  | sqPut (a : IForm) (lc : Launch) (g : Stage) (s1 : State) : s.launch (slotDie s.cur) st.id.launch = some lc → a.hdr.susp = false →
      lc.stages[st.id.stage + 1]? = some g → g.puts = [] → g.queue.length < lc.depth (st.id.stage + 1) →
      s.yRelease s.cur st 3 = .ok () s1 →
      Synced s st (.sqPut a)
        (s1.onStage (slotDie s.cur) st.id.launch (st.id.stage + 1) fun y => y.enter s1.time s.cur (st.xr (yWA a))) st.x st.id st.sq
  /-- the item of the strand that stands first in line, where there is room now (R225) -/
  | sqPutFirst (a : IForm) (lc : Launch) (g : Stage) (p : Put) (rest : List Put) (s1 : State) :
      s.launch (slotDie s.cur) st.id.launch = some lc → a.hdr.susp = false →
      lc.stages[st.id.stage + 1]? = some g → g.puts = p :: rest → p.uid = st.id.uid → g.queue.length < lc.depth (st.id.stage + 1) →
      s.yRelease s.cur st 3 = .ok () s1 →
      Synced s st (.sqPut a)
        (s1.onStage (slotDie s.cur) st.id.launch (st.id.stage + 1) fun y =>
          match y.puts with
          | [] => y
          | p :: l => { y with puts := l, queue := y.queue ++ [p.v], fresh := [] })
        st.x st.id st.sq
  /-- the head item of the own stage's queue (R226) -/
  | sqGet (a : IForm) (lc : Launch) (g : Stage) (v : Word) (q : List Word) : s.launch (slotDie s.cur) st.id.launch = some lc →
      a.hdr.susp = false → st.id.stage ≠ 0 → lc.pulls st.id.stage = true → lc.stages[st.id.stage]? = some g → g.takes = [] →
      g.queue = v :: q →
      Synced s st (.sqGet a)
        ((s.onStage (slotDie s.cur) st.id.launch st.id.stage fun y => { y with takes := y.takes.filter (· != st.id.uid), queue := q }).acqClean s.cur st.id.launch 3)
        (st.setX (yWA a) v).x st.id st.sq
  /-- a strand of a pulling stage, of the spawning strand's class, at the stage's PC or the given one (R227) -/
  | spawn (a : IForm) (lc : Launch) (s1 s2 : State) : s.launch (slotDie s.cur) st.id.launch = some lc → yWB a < lc.stages.length →
      (a.ext.isSome = true → a.imm64.toNat % 8 = 0 ∧ a.imm64.toNat < 2 ^ 56) → lc.pulls (yWB a) = true →
      s.yRelease s.cur st 3 = .ok () s1 →
      s1.createStrand (slotDie s.cur) st.id.launch (yWB a) (st.xr (yWA a)) (some st.id.cls) (if a.ext.isSome then some a.imm64 else none) =
        .ok () s2 → s2.ends (slotDie s.cur) st.id.launch = false →
      Synced s st (.spawn a) s2 st.x st.id st.sq
  /-- a signal word that meets the condition (R229) -/
  | sigWait (a : IForm) (v : Word) (s1 : State) : a.hdr.susp = false → sigFlt (st.xr (yWA a)) = none →
      s.readSig (s.whoOf s.cur st) (st.xr (yWA a)) = .ok v s1 → condSig (ySB a) v (st.ySel a (yWB a)) = true →
      Synced s st (.sigWait a) (s1.acqClean s.cur st.id.launch (ySA a)) st.x st.id st.sq
  /-- sig.set enters the store queue (R228) -/
  | sigSet (a : IForm) (w : QWord) : sigFlt (st.xr (yWA a)) = none → st.sq.length < 16 → (st.queue 5).head? = some w →
      Synced s st (.sigSet a) s st.x st.id (st.sq ++ [{ w := w, a := st.xr (yWA a), b := st.ySel a (yWB a) }])
  /-- a time that has come (R230) -/
  | waitTime (a : IForm) : a.hdr.susp = false →
      (match st.target with
        | some n => n
        | none => (st.ySel a (yWA a)).toNat + (if ySA a % 2 = 1 then s.ns (slotDie s.cur) else 0)) ≤ s.ns (slotDie s.cur) →
      Synced s st (.waitTime a) s st.x st.id st.sq
  /-- the class of the strand (R232) -/
  | prio (a : IForm) : Synced s st (.prio a) s st.x { st.id with cls := BitVec.ofNat 2 (a.imm.toNat % 4) } st.sq
  /-- the wake register of a queue whose descriptor allows it (R233) -/
  | cqWake (a : IForm) (q : Nat) (v : Word) (s1 : State) : (yWA a ≠ 0 → (st.xr (yWA a)).toNat < 4096) →
      q = (if yWA a = 0 then a.imm.toNat else (st.xr (yWA a)).toNat) % 4096 →
      v = (if a.ext.isSome then a.imm64 else st.xr (yWB a)) → v.toNat < 2 ^ 32 →
      (s.qdesc (slotDie s.cur) q 1).getLsbD 4 = true → s.yRelease s.cur st 5 = .ok () s1 →
      Synced s st (.cqWake a) (s1.wake (slotDie s.cur) q (v.setWidth 32)) st.x st.id st.sq

/-- `t` after a Y word has issued in `s` (R80, R214): its strand has `x`, `id` and `sq`, and its other registers and queues as
they were; after a schedule boundary the vc is 0; SUSP opens a suspension point; everything else is as in `s1`. -/
structure SyncOf (s : State) (st : Strand) (i : Instr) (w : QWord) (l : List QWord) (s1 : State) (x : Cells 64) (id : Ident)
    (sq : List MemOp) (t : State) : Prop where
  strand : ∃ u, t.strand s.cur = some u ∧ u.queue 5 = l ∧ u.x = x ∧ u.id = id ∧ u.sq = sq ∧ u.lq = st.lq ∧ u.mq = st.mq ∧
    u.land = st.land ∧ u.sp = st.sp ∧ u.g = st.g ∧ u.v = st.v ∧ u.p = st.p ∧ u.lc = st.lc ∧ u.base = st.base ∧ u.pc = st.pc ∧
    u.now = (if isBoundary i then 0 else st.now) ∧ u.susp = (if suspends i then some w else none)
  part   : SamePart s1 t
  others : ∀ k, k ≠ s.cur → t.strand k = s1.strand k
  tiles  : t.tiles = s1.tiles

/-- What a strand that waits off its slot waits for at a barrier: the phase field, or 4 where its wait has completed (R221). -/
def waitField (b : Bar) (f : Nat) : Nat := if barWaits b f then f else 4

/-- The L1s that a tile uses hold nothing, so that an acquire on it discards nothing (R250). -/
def NothingCached (s : State) (t : Nat) : Prop := ∀ u ∈ s.l1s t, (s.tile u).l1 = []

/-- The blocking form of a wait (R215), drained: what is done before the strand leaves its slot, its x and identity then, and its wait. -/
inductive Awaits (s : State) (st : Strand) : Instr → State → Cells 64 → Ident → Wait → Prop where
  | barWait (a : IForm) : a.hdr.susp = true → (s.bar (slotTile s.cur) (barId a)).owner = some st.id.launch →
      Awaits s st (.barWait a) s st.x st.id (.bar (slotTile s.cur) (barId a) (waitField (s.bar (slotTile s.cur) (barId a)) (st.barField a)))
  /-- the arrival, then the wait on the field as it stands after (R221) -/
  | barArrwait (a : IForm) (b : Bar) : a.hdr.susp = true → st.arr = false → s.bar (slotTile s.cur) (barId a) = b →
      b.owner = some st.id.launch → b.cur < b.count → b.nxt < b.count → st.barField a = b.phase →
      Awaits s st (.barArrwait a) (s.completeBar (slotTile s.cur) (barId a) (arrivedNow b (s.cur % 8))) (advancedWord st a)
        (arrivedId s st a) (.bar (slotTile s.cur) (barId a)
          (waitField (arrivedNow b (s.cur % 8)) (if yWA a = 0 then b.phase else (b.phase + 1) % 4)))
  | domSync (a : IForm) (s1 : State) (h : Nat × Nat) : a.hdr.susp = true → st.id.joined = true → st.darr = false →
      h = st.id.domHome (slotDie s.cur) →
      s.yRelease s.cur st (levelScope st.id.level.toNat (s.fabric (slotDie s.cur) st.id.launch)) = .ok () s1 →
      Awaits s st (.domSync a) (s1.onDom h.1 h.2 st.id.level.toNat st.id.inst.toNat fun y => { y with arr := st.id.uid :: y.arr }) st.x
        st.id (.dom st.id.level.toNat st.id.inst.toNat (s1.domPhase h.1 h.2 st.id.level.toNat st.id.inst.toNat))
  | sqPut (a : IForm) (lc : Launch) (s1 : State) : a.hdr.susp = true → s.launch (slotDie s.cur) st.id.launch = some lc →
      st.id.stage + 1 < lc.stages.length → s.yRelease s.cur st 3 = .ok () s1 →
      Awaits s st (.sqPut a) s1 st.x st.id (.put (st.xr (yWA a)))
  | sqGet (a : IForm) (lc : Launch) : a.hdr.susp = true → s.launch (slotDie s.cur) st.id.launch = some lc → st.id.stage ≠ 0 →
      lc.pulls st.id.stage = true → Awaits s st (.sqGet a) s st.x st.id (.get (yWA a))
  /-- the word once read, and where the strand stands again should a later read fault (R229) -/
  | sigWait (a : IForm) (w : QWord) (v : Word) (s1 : State) : a.hdr.susp = true → sigFlt (st.xr (yWA a)) = none →
      (st.queue 5).head? = some w → s.readSig (s.whoOf s.cur st) (st.xr (yWA a)) = .ok v s1 →
      Awaits s st (.sigWait a) s1 st.x st.id
        (.sig (st.xr (yWA a)) (ySB a) (st.ySel a (yWB a)) (ySA a) (if a.ext.isSome then w.pc - 8 else w.pc))
  | waitTime (a : IForm) : a.hdr.susp = true → st.target = none →
      Awaits s st (.waitTime a) s st.x st.id
        (.time ((st.ySel a (yWA a)).toNat + (if ySA a % 2 = 1 then s.ns (slotDie s.cur) else 0)))

end Sys2Proof.Claims

open Sys2Proof Sys2Proof.Machine Sys2Proof.Claims

/-- R80, R217, R219 to R233: each word of class Y that stands ready, with what it waits for there, completes with the effect
that its rule gives it. -/
def Obligations.SyncWordsComplete : Prop :=
  ∀ s st i w l s1 x id sq, SyncReady s st i w l → Synced s st i s1 x id sq → ∃ t, exec i s = .next t ∧ SyncOf s st i w l s1 x id sq t

/-- R24, R215: the blocking form of a wait, its strand drained and its queues empty, writes the record of the strand and
takes it off its slot: the slot is idle, and the strand waits among those of its launch; sq.put stands in the line of the next stage
behind all that stood there earlier, and sq.get last in that of its own (R225, R226). -/
def Obligations.BlockingWaitsLeaveTheSlot : Prop :=
  ∀ s st i w l s1 x id wt u v lc, SyncReady s st i w l → Awaits s st i s1 x id wt →
    u = { (({ st with x := x, id := id }.setQueue 5 l).issuedY i w) with susp := none } →
    ((s1.setStrand s.cur { u with susp := some w }).tidy s.cur id).writeRecord s.cur u false st.pc = .ok () v →
    v.strand s.cur = some { u with susp := some w } →
    v.launch (slotDie s.cur) st.id.launch = some lc → lc.no = st.id.launch →
    ∃ t lc' e, exec i s = .next t ∧ t.strand s.cur = none ∧ t.mem = v.mem ∧ t.launch (slotDie s.cur) st.id.launch = some lc' ∧
      lc'.blocked = lc.blocked ++ [⟨e, wt⟩] ∧ e.id.uid = st.id.uid ∧ e.id.crec = st.id.crec ∧ e.full = false ∧
      (∀ y, wt = .put y → lc'.stages[st.id.stage + 1]?.map (·.puts) = lc.stages[st.id.stage + 1]?.map fun g =>
        (g.lineUp ⟨st.id.uid, s.cur, v.time, y⟩).puts) ∧
      ∀ n, wt = .get n → lc'.stages[st.id.stage]?.map (·.takes) = lc.stages[st.id.stage]?.map fun g => g.takes ++ [st.id.uid]

/-- R43: an item enters a stage's queue behind all that entered at an earlier time; of the items of one time, those of an earlier slot
stay before it and those of a later slot come after it. -/
def Sys2Proof.Claims.ItemsEnterInOrder : Prop :=
  ∀ (g : Stage) now k v, g.fresh.length ≤ g.queue.length →
    ∃ n, n ≤ g.queue.length ∧ (g.enter now k v).queue = g.queue.take n ++ v :: g.queue.drop n ∧
      (g.freshAt ≠ now → n = g.queue.length) ∧
      (g.freshAt = now → ∃ i, i ≤ g.fresh.length ∧ n + g.fresh.length = g.queue.length + i ∧ (∀ j, j < i → g.fresh.getD j 0 ≤ k) ∧
        (i < g.fresh.length → k < g.fresh.getD i 0))

/-- R32, R220, R221: an arrival that completes a phase of a barrier releases every strand that waits for it, in a slot of the tile or off
its slot; one that waits for a later phase, or elsewhere, stays. What any strand has inherited from waiters there ends. -/
def Sys2Proof.Claims.CompletedPhaseReleasesItsWaiters : Prop :=
  ∀ (s : State) n id (b : Bar) k st, b.phase ≠ (s.bar n id).phase → s.strand k = some st → slotTile k = n →
    (s.completeBar n id b).strand k =
        some { (if s.waitsBar n st = some id ∧ st.target.any (fun f => !barWaits b f) = true then { st with target := some 4 } else st) with
          id := { st.id with inh := st.id.inh.filter fun x => !(x.1 == n && x.2.1 == id) } } ∧
      (s.completeBar n id b).bar n id = b ∧ (s.completeBar n id b).mem = s.mem ∧
      ∀ l lc, s.launch (n / 24) l = some lc → ((s.completeBar n id b).launch (n / 24) l).map (·.blocked) =
        some (lc.blocked.map fun y =>
          { e := { y.e with id := { y.e.id with inh := y.e.id.inh.filter fun x => !(x.1 == n && x.2.1 == id) } }
            w := match y.w with
              | .bar m c f => if m = n ∧ c = id ∧ barWaits b f = false then .bar m c 4 else .bar m c f
              | w => w })

/-- R28, R49, R221, R224: strandReady: a strand off its slot whose barrier phase has completed, or whose domain instance has moved on,
joins its ready list; one whose wait goes on stays. -/
def Sys2Proof.Claims.CompletedWaitMakesReady : Prop :=
  (∀ s d l b lc x g n c f, d < 4 → s.launch d l = some lc → lc.blocked[b]? = some x → lc.no = l → lc.latency = false → x.e.id.launch = l →
    lc.stages[x.e.id.stage]? = some g → x.w = .bar n c f → barWaits (s.bar n c) f = false →
    ∃ t lc', exec (.strandReady d l b) s = .next t ∧ t.launch d l = some lc' ∧ t.mem = s.mem ∧ t.strands = s.strands ∧
      lc'.stages[x.e.id.stage]?.map (·.ready) = some (g.ready ++ [{ x.e with flt := none }]) ∧
      lc'.blocked = lc.blocked.filter fun y => y.e.id.uid != x.e.id.uid) ∧
  (∀ s d l b lc x g lvl inst p h, d < 4 → s.launch d l = some lc → lc.blocked[b]? = some x → lc.no = l → lc.latency = false →
    x.e.id.launch = l → lc.stages[x.e.id.stage]? = some g → x.w = .dom lvl inst p → h = x.e.id.domHome d →
    s.domPhase h.1 h.2 lvl inst ≠ p → NothingCached s x.e.id.tile →
    ∃ t lc', exec (.strandReady d l b) s = .next t ∧ t.launch d l = some lc' ∧ t.mem = s.mem ∧ t.strands = s.strands ∧
      lc'.stages[x.e.id.stage]?.map (·.ready) = some (g.ready ++ [{ x.e with flt := none }]) ∧
      lc'.blocked = lc.blocked.filter fun y => y.e.id.uid != x.e.id.uid) ∧
  ∀ s d l b lc x, d < 4 → s.launch d l = some lc → lc.blocked[b]? = some x →
    ((∃ n c f, x.w = .bar n c f ∧ barWaits (s.bar n c) f = true) ∨
      ∃ lvl inst p, x.w = .dom lvl inst p ∧ s.domPhase (x.e.id.domHome d).1 (x.e.id.domHome d).2 lvl inst = p) →
    exec (.strandReady d l b) s = .next s

namespace Sys2Proof.Claims

open Sys2Proof.Machine

/-- What a result that lands leaves of the registers and queues of its strand (R83, R84, R86): one register or one queue
has changed. -/
inductive LandsIn (st u : Strand) : Eff → Prop where
  | x (n : Nat) (v : Word) : (∀ m, u.xr m = if m = n ∧ n ≠ 0 then v else st.xr m) → u.sp = st.sp → u.v = st.v → u.p = st.p → LandsIn st u (.x n v)
  | sp (n : Nat) (b : Bool) : (∀ m, m < 8 → u.sp.getLsbD m = if m = n then b else st.sp.getLsbD m) → u.x = st.x → u.v = st.v → u.p = st.p →
      LandsIn st u (.sp n b)
  | v (n : Nat) (y : Vec) : (∀ m, Cells.get u.v m = if m = n then y else Cells.get st.v m) → u.x = st.x → u.sp = st.sp → u.p = st.p →
      LandsIn st u (.v n y)
  | p (n : Nat) (y : BitVec 128) : (∀ m, Cells.get u.p m = if m = n then y else Cells.get st.p m) → u.x = st.x → u.sp = st.sp → u.v = st.v →
      LandsIn st u (.p n y)
  | w (n : Nat) (y : Vec) : (∀ m, u.ws m = if m = n then st.ws m ++ [y] else st.ws m) → u.x = st.x → u.v = st.v → LandsIn st u (.w n y)
  | xg (y : Word) : u.xg = st.xg ++ [y] → u.x = st.x → u.g = st.g → LandsIn st u (.xg y)
  | fmt (y : Word) : u.fmt = st.fmt ++ [y] → u.x = st.x → LandsIn st u (.fmt y)
  | tok (a b : Nat) : (∀ m, Cells.get u.tok m = if m = tokKey a b then Cells.get st.tok m + 1 else Cells.get st.tok m) → u.x = st.x →
      LandsIn st u (.tok a b)
  | prio (y : Word) : u.id = { st.id with cls := y.setWidth 2 } → u.x = st.x → LandsIn st u (.sys 0x009 y)
  | level (y : Word) : u.id = { st.id with level := y.setWidth 2 } → u.x = st.x → LandsIn st u (.sys 0x018 y)
  | cause (y : Word) : u.id = { st.id with cause := y &&& 0xFF00FFFF } → u.x = st.x → LandsIn st u (.sys 0x030 y)
  | tpc (y : Word) : u.id = { st.id with tpc := y &&& 0xFFFFFFFFFFFFF8 } → u.x = st.x → LandsIn st u (.sys 0x031 y)
  | taddr (y : Word) : u.id = { st.id with taddr := y &&& 0xFFFFFFFFFFFFFF } → u.x = st.x → LandsIn st u (.sys 0x032 y)

/-- The results that land in a strand: every one but a row of the accumulator store, and of system registers the writable
ones (R126). -/
def landsInStrand : Eff → Bool
  | .acc _ _ _ => false
  | .accAdd _ _ _ _ _ => false
  | .sys n _ => n == 0x009 || n == 0x018 || n == 0x030 || n == 0x031 || n == 0x032
  | _ => true

/-- The state that hands a stage's next frame and the next strand number out (R42). -/
def withFrame (s : State) (d no st : Nat) (g : Stage) : State :=
  (s.onDie d fun y => { y with nextU := (s.die d).nextU + 1 }).onStage d no st fun _ => { g with made := g.made + 1 }

/-- The first four words of the record of a new strand at a frame (R23, R42), the rest zero. -/
def firstRecord (pc : Word) (cls : BitVec 2) (x2 x3 x4 : Word) : List Byte :=
  [pc.toNat / 8 % 2 ^ 53 + cls.toNat * 2 ^ 53, x2.toNat, x3.toNat, x4.toNat, 0, 0, 0, 0].flatMap (leBytes 8)

/-- The address of the word of class Y at which a strand waits, of a phase or another condition; else 0 (R234). -/
def waitingPc (st : Strand) : Word :=
  match st.queue 5 with
  | y :: _ => if st.causeAt 5 = 8 ∨ st.causeAt 5 = 9 then y.pc &&& 0xFFFFFFFFFFFFF8 else 0
  | [] => 0

/-- Slot `k` holds a strand whose stop a store still to perform keeps open (R384). -/
structure StopHolds (s : State) (k : Nat) (st : Strand) : Prop where
  here : s.strand k = some st
  runs : st.stop = none
  sq   : st.sq ≠ []

end Sys2Proof.Claims

open Sys2Proof Sys2Proof.Machine Sys2Proof.Claims

/-- R77, R89, R91: the front end of a running strand takes the decoded word at its pc, rotates it, and places it with the
dispatcher or at the tail of its class queue with room, unless the clock has passed the vc at which it is due (R85); the pc moves past
it; behind a suspension point fetch stops. -/
def Obligations.DispatchPlacesTheFetchedWord : Prop :=
  ∀ s k st i j s1, k < 768 → s.strand k = some st → st.stop = none → st.disp = none → st.want = false → st.hold = .run →
    s.fetchInstr k st = .ok (.inl i) s1 → j = rotIns st.base.toNat i → (consumed j = false → (st.queue (insCls j)).length < 32) →
    (consumed j = true ∨ insCls j = 1 ∨ insCls j = 5 ∨ st.queue (insCls j) ≠ [] ∨ st.now ≤ st.due (insCls j) (insHdr j) ∨
      st.behindStop st.seq = true) →
    ∃ t u w, exec (.dispatchWord k) s = .next t ∧ t.strand k = some u ∧ t.mem = s1.mem ∧ t.dies = s1.dies ∧ w.ins = j ∧ w.seq = st.seq ∧
      w.pc = st.pc + (insLen j - 8) ∧ u.pc = st.pc + insLen j ∧ u.seq = st.seq + 1 ∧ SameRegs st u ∧
      (∀ c, u.queue c = if consumed j = false ∧ c = insCls j then st.queue c ++ [w] else st.queue c) ∧
      u.disp = (if consumed j then some w else none) ∧ (consumed j = false → suspends j = true → u.hold = .retire st.seq)

/-- R83, R84: a result at the head of the landing buffer, alone due, reaches its register or queue at its vc, and nothing else of
the strand or outside it changes; one that is not due waits. -/
def Sys2Proof.Claims.LandingBufferWritesWhatIsDue : Prop :=
  (∀ s k st e l, k < 768 → s.strand k = some st → st.stop = none → st.land = e :: l → e.due ≤ st.now → (∀ f ∈ l, st.now < f.due) →
    landsInStrand e.eff = true →
    ∃ t u, exec (.landingBufferWrite k) s = .next t ∧ t.strand k = some u ∧ LandsIn st u e.eff ∧ u.land = l ∧ u.pc = st.pc ∧
      u.g = st.g ∧ u.now = st.now ∧ SamePart s t ∧ t.tiles = s.tiles ∧ ∀ m, m ≠ k → t.strand m = s.strand m) ∧
  ∀ s k st, k < 768 → s.strand k = some st → st.stop = none → (∀ f ∈ st.land, st.now < f.due) →
    ∃ t, exec (.landingBufferWrite k) s = .next t ∧ t.strand k = some st ∧ SamePart s t

/-- R30: the round of a tile's arbitration holds ready slots only, and a window's end changes nothing but the round. -/
def Sys2Proof.Claims.WindowExpiryKeepsReadySlots : Prop :=
  ∀ s n, n < 96 → ∃ t, exec (.issueWindowExpiry n) s = .next t ∧ (∀ k ∈ (t.tile n).round, k ∈ s.readySlots n) ∧ t.strands = s.strands ∧
    SamePart s t ∧ t.tile n = { s.tile n with round := (t.tile n).round, served := (t.tile n).served, win := (t.tile n).win } ∧
    ∀ m, m ≠ n → t.tile m = s.tile m

/-- R23, R42: stage 0 of a launch that begun and has an index left creates a strand: its number is new, its record, with PC of
the stage, x2 the frame and x3 the index, stands in the frame, and it is last on the ready list; without an index nothing
happens. -/
def Sys2Proof.Claims.StrandCreation : Prop :=
  ∀ s d l lc g f g', d < 4 → s.launch d l = some lc → lc.no = l → lc.begun = true → lc.ending = none → lc.span = false → lc.latency = false →
    lc.stages[0]? = some g → g.frame = some (f, g') →
    (lc.limit < lc.n → ∀ v,
      (withFrame ((s.onLaunch d l fun y => { y with created := y.created + 1 }).onLaunch d l fun y => { y with limit := y.limit + 1 })
        d l 0 { g' with made := g.made }).writeVa (cpWho d lc.ctx) kStore (BitVec.ofNat 64 (g.frameVa f + 0x2A080)).toNat
          (firstRecord (g.desc.getD 0 0) (BitVec.ofNat 2 ((g.desc.getD 1 0).toNat % 4)) (BitVec.ofNat 64 (g.frameVa f))
            (BitVec.ofNat 64 lc.limit) 0) = .ok () v →
      v.launch d l = (withFrame ((s.onLaunch d l fun y => { y with created := y.created + 1 }).onLaunch d l fun y => { y with limit := y.limit + 1 })
        d l 0 { g' with made := g.made }).launch d l →
      ∃ t lc' e, exec (.strandCreate d l 0) s = .next t ∧ t.mem = v.mem ∧ t.strands = v.strands ∧ t.launch d l = some lc' ∧
        lc'.limit = lc.limit + 1 ∧ lc'.created = lc.created + 1 ∧ lc'.stages[0]?.map (·.ready) = some (g'.ready ++ [e]) ∧
        e.full = false ∧ e.id.uid = 4 * (s.die d).nextU + d ∧ e.id.frame = f ∧ e.id.crec = BitVec.ofNat 64 (g.frameVa f + 0x2A080) ∧
        e.id.cls = BitVec.ofNat 2 ((g.desc.getD 1 0).toNat % 4)) ∧
    (lc.limit = lc.n → exec (.strandCreate d l 0) s = .next s)

/-- R25, R28, R42: an idle slot takes its one candidate, of its own die, with FULL 0: pc, sp and x2 to x8 come from the record, every other register
is 0, and the entry leaves the ready list. -/
def Obligations.PickupLoadsTheRecord : Prop :=
  ∀ s k e r v lc g, k < 768 → s.candidates k = [(slotDie k, e)] → e.flt = none → s.backWaits (s.l1s (slotTile k)) [1, 2] = false →
    (s.arrive k e.id).readVa { (s.arrive k e.id).whoOf k { id := e.id, pc := 0 } with uid := 0, home := true } kLoad e.id.crec.toNat 64 = .ok r v →
    (wordAt r 0).getLsbD 55 = false →
    v.launch (slotDie k) e.id.launch = some lc → lc.no = e.id.launch → lc.stages[e.id.stage]? = some g →
    ∃ t u lc', exec (.strandPickup k) s = .next t ∧ t.strand k = some u ∧ t.mem = v.mem ∧
      u.pc.toNat = 8 * ((wordAt r 0).toNat % 2 ^ 53) ∧ u.sp.toNat = (wordAt r 0).toNat / 2 ^ 56 ∧
      u.id.cls.toNat = (wordAt r 0).toNat / 2 ^ 53 % 4 ∧ u.id.uid = e.id.uid ∧ u.id.cause = 0 ∧
      (∀ n, u.xr n = if 2 ≤ n ∧ n ≤ 8 then wordAt r (8 * (n - 1)) else 0) ∧ (∀ n, u.gr n = 0) ∧ (∀ n, Cells.get u.v n = 0) ∧
      (∀ n, Cells.get u.p n = 0) ∧ (∀ n, Cells.get u.lc n = 0) ∧ u.base = 0 ∧ u.now = 0 ∧ u.stop = none ∧
      t.launch (slotDie k) e.id.launch = some lc' ∧
      lc'.stages[e.id.stage]?.map (·.ready) = some (g.ready.filter fun x => x.id.uid != e.id.uid)

/-- R45, R46, R234, R383: preemption: a displaced strand still in its slot after 20 µs is stopped with class 0x0A, code 1, and TRAP_PC the
waiting word's address where it waits at a word of class Y; before that, nothing happens. -/
def Sys2Proof.Claims.PreemptionStopsTheDisplaced : Prop :=
  ∀ s k st, k < 768 → StopHolds s k st →
    ((∃ x ∈ (s.die (slotDie k)).disp, x.slot = k ∧ x.due ≤ s.time) →
      ∃ t u, exec (.preemption k) s = .next t ∧ t.strand k = some u ∧ (∀ p, u.stop = some p → p.pre = true ∧ p.f.cls = 10 ∧ p.f.code = 1) ∧
        u.stop.isSome = true ∧ u.id.cause = 0x0A000001 ∧ u.id.tpc = waitingPc st ∧ u.id.taddr = 0 ∧ u.x = st.x ∧ u.sq = st.sq ∧ t.mem = s.mem ∧
        ∀ x ∈ (t.die (slotDie k)).disp, x.slot ≠ k) ∧
    ((∀ x ∈ (s.die (slotDie k)).disp, x.slot = k → s.time < x.due) → exec (.preemption k) s = .next s)

/-- R44, R45: reserveMaskWrite and rebalance: a reserve mask that is written is in force only from the next rebalance, which comes once
its interval has passed and leaves every strand in its slot; with no launch running it changes nothing in memory. -/
def Sys2Proof.Claims.ReserveMaskTakesEffectAtRebalance : Prop :=
  ∀ s d v, d < 4 →
    (∃ t, exec (.reserveMaskWrite d v) s = .next t ∧ (t.reg d 0x400).toNat = v.toNat ∧ (t.die d).mask = (s.die d).mask ∧ t.mem = s.mem ∧
      t.strands = s.strands ∧ ∀ e off, (e ≠ d ∨ off ≠ 0x400) → t.reg e off = s.reg e off) ∧
    (s.time < (s.die d).nextReb → exec (.rebalance d) s = .next s) ∧
    ((s.die d).nextReb ≤ s.time → ∃ t, exec (.rebalance d) s = .next t ∧ s.time < (t.die d).nextReb ∧
      (t.die d).nextReb % (4096 * 81920) = 0 ∧ (t.die d).mask.toNat = (s.reg d 0x400).toNat % 2 ^ 24 ∧ t.strands = s.strands ∧
      (s.running d = [] → t.mem = s.mem))

/-- R38, R40: leadCounterArrival: the counter of a tile or cluster instance reaches a neighbour of the one launch that runs; R220:
heldArrival: an arrival that the lead held is made again as the barrier word makes it, and completes where its lead has come. -/
def Sys2Proof.Claims.CountersAndHeldArrivalsReachTheirPlaces : Prop :=
  (∀ s d lc lvl inst n, d < 4 → lvl < 2 → s.running d = [lc] → (∀ e, e < 4 → e ≠ d → s.running e = []) → s.launch d lc.no = some lc →
    (∃ y ∈ Tab.getD (s.die d).doms lc.no [], y.lvl = lvl ∧ y.inst = inst) →
    s.neighbours d lc (s.domOf d lc.no lvl inst) = [n] → n ≠ inst →
    ∃ t, exec (.leadCounterArrival lvl inst) s = .next t ∧
      Tab.getD (t.domOf d lc.no lvl n).seen inst 0 = (s.domOf d lc.no lvl inst).phase ∧ t.mem = s.mem ∧ t.strands = s.strands ∧
      t.tiles = s.tiles) ∧
  (∀ s k st w l a i, k < 768 → s.strand k = some st → st.queue 5 = w :: l → w.ins = i → (i = .barArrive a ∨ i = .barArrwait a) →
    ∃ u, exec i { s with cur := k } = .next u ∧ exec (.heldArrival k) s = .next { u with cur := s.cur }) ∧
  ∀ s k st w l a i s1 x id sq, k < 768 → (i = .barArrive a ∨ i = .barArrwait a) → SyncReady { s with cur := k } st i w l →
    Synced { s with cur := k } st i s1 x id sq → ∃ t, exec (.heldArrival k) s = .next t ∧ t.cur = s.cur ∧
      SyncOf { s with cur := k } st i w l s1 x id sq t

/-- R43, R225, R226: queueSpaceAvailable and itemAvailable: the item that stands first in line enters a queue that has room, and its
strand joins its ready list; the strand that waits longest for an item receives the head item, in the word of its record that its
word names, and joins its ready list. -/
def Sys2Proof.Claims.StageQueuesServeTheirWaiters : Prop :=
  (∀ s d l n lc g h b p rest, d < 4 → s.launch d l = some lc → lc.no = l → lc.latency = false → lc.stages[n + 1]? = some g →
    b.e.id.launch = l → b.e.id.stage = n → lc.stages[n]? = some h → g.puts = p :: rest → p.uid = b.e.id.uid →
    lc.blkOf b.e.id.uid = some b → g.queue.length < lc.depth (n + 1) →
    ∃ t lc', exec (.queueSpaceAvailable d l (n + 1)) s = .next t ∧ t.launch d l = some lc' ∧ t.mem = s.mem ∧ t.strands = s.strands ∧
      lc'.stages[n + 1]?.map (fun y => (y.queue, y.puts)) = some (g.queue ++ [p.v], rest) ∧
      lc'.stages[n]?.map (·.ready) = some (h.ready ++ [{ b.e with flt := none }]) ∧
      lc'.blocked = lc.blocked.filter fun y => y.e.id.uid != b.e.id.uid) ∧
  (∀ s d l n lc g b rest v q, d < 4 → s.launch d l = some lc → lc.no = l → lc.latency = false → lc.stages[n]? = some g →
    b.e.id.launch = l → b.e.id.stage = n → g.takes = b.e.id.uid :: rest → g.queue = v :: q → lc.blkOf b.e.id.uid = some b → b.w = .get 0 →
    NothingCached s b.e.id.tile →
    ∃ t lc', exec (.itemAvailable d l n) s = .next t ∧ t.launch d l = some lc' ∧ t.mem = s.mem ∧ t.strands = s.strands ∧
      lc'.stages[n]?.map (fun y => (y.queue, y.takes, y.ready)) = some (q, rest, g.ready ++ [{ b.e with flt := none }]) ∧
      lc'.blocked = lc.blocked.filter fun y => y.e.id.uid != b.e.id.uid) ∧
  ∀ s d l n lc g b rest v q wd u lu gu, d < 4 → s.launch d l = some lc → lc.no = l → lc.stages[n]? = some g →
    b.e.id.launch = l → b.e.id.stage = n → g.takes = b.e.id.uid :: rest → g.queue = v :: q → lc.blkOf b.e.id.uid = some b →
    b.w = .get (wd + 1) →
    (s.onStage d l n fun y => { y with takes := rest, queue := q }).writeWord (cpWho d lc.ctx) kStore (b.e.id.crec.toNat + 8 * wd) v =
      .ok () u →
    u.launch d l = some lu → lu.no = l → lu.latency = false → lu.stages[n]? = some gu → NothingCached u b.e.id.tile →
    ∃ t lc', exec (.itemAvailable d l n) s = .next t ∧ t.launch d l = some lc' ∧ t.mem = u.mem ∧ t.strands = u.strands ∧
      lc'.stages[n]?.map (·.ready) = some (gu.ready ++ [{ b.e with flt := none }]) ∧
      lc'.blocked = lu.blocked.filter fun y => y.e.id.uid != b.e.id.uid

/-- R229, R230: signalReread and timeTargetReached: the word of a signal is read again, and a strand whose condition holds joins its ready
list, another stays; a strand whose time has come joins its ready list, one whose time has not stays. -/
def Sys2Proof.Claims.SignalsAndTimesWakeTheirWaiters : Prop :=
  (∀ s d l b lc x va c v sc pc y u lu gu, d < 4 → s.launch d l = some lc → lc.blocked[b]? = some x → x.w = .sig va c v sc pc →
    s.readSig { die := d, ctx := lc.ctx, tile := x.e.id.tile, agent := awayAgent x.e.id.uid, uid := x.e.id.uid } va = .ok y u →
    condSig c y v = true →
    u.launch d l = some lu → lu.no = l → lu.latency = false → x.e.id.launch = l → lu.stages[x.e.id.stage]? = some gu →
    NothingCached u x.e.id.tile →
    ∃ t lc', exec (.signalReread d l b) s = .next t ∧ t.launch d l = some lc' ∧ t.mem = u.mem ∧ t.strands = u.strands ∧
      lc'.stages[x.e.id.stage]?.map (·.ready) = some (gu.ready ++ [{ x.e with flt := none }]) ∧
      lc'.blocked = lu.blocked.filter fun y => y.e.id.uid != x.e.id.uid) ∧
  (∀ s d l b lc x va c v sc pc y u, d < 4 → s.launch d l = some lc → lc.blocked[b]? = some x → x.w = .sig va c v sc pc →
    s.readSig { die := d, ctx := lc.ctx, tile := x.e.id.tile, agent := awayAgent x.e.id.uid, uid := x.e.id.uid } va = .ok y u →
    condSig c y v = false → exec (.signalReread d l b) s = .next u) ∧
  (∀ s d l b lc x n g, d < 4 → s.launch d l = some lc → lc.blocked[b]? = some x → x.w = .time n → n ≤ s.ns d → lc.no = l →
    lc.latency = false → x.e.id.launch = l → lc.stages[x.e.id.stage]? = some g →
    ∃ t lc', exec (.timeTargetReached d l b) s = .next t ∧ t.launch d l = some lc' ∧ t.mem = s.mem ∧ t.strands = s.strands ∧
      lc'.stages[x.e.id.stage]?.map (·.ready) = some (g.ready ++ [{ x.e with flt := none }]) ∧
      lc'.blocked = lc.blocked.filter fun y => y.e.id.uid != x.e.id.uid) ∧
  ∀ s d l b lc x n, d < 4 → s.launch d l = some lc → lc.blocked[b]? = some x → x.w = .time n → s.ns d < n →
    exec (.timeTargetReached d l b) s = .next s

/-- R48: steal: a member that has stolen a range installs it in its own range word; one whose own range is not empty steals nothing. -/
def Sys2Proof.Claims.StolenRangeIsInstalled : Prop :=
  ∀ s d l lc, d < 4 → s.launch d l = some lc → lc.no = l → lc.span = true → lc.begun = true → lc.ending = none → lc.noSteal = false →
    (∀ a b u lu, lc.stolen = some (a, b) → a < 2 ^ 32 → b < 2 ^ 32 →
      s.writeWord (cpWho d lc.ctx) kAtomic (lc.word 6).toNat (BitVec.ofNat 64 (a + b * 2 ^ 32)) = .ok () u → u.launch d l = some lu → lu.no = l →
      ∃ t lc', exec (.steal d l) s = .next t ∧ t.mem = u.mem ∧ t.launch d l = some lc' ∧ lc'.stolen = none) ∧
    ∀ own u, lc.stolen = none → s.readWord (cpWho d lc.ctx) kLoad (lc.word 6).toNat = .ok own u →
      own.toNat % 2 ^ 32 < own.toNat / 2 ^ 32 → exec (.steal d l) s = .next s

/-- R366: handlerStrandCreate: where a record of a launch waits for its handler and no handler strand runs, one is created at the handler's PC for the
oldest record; with one running, nothing happens. -/
def Sys2Proof.Claims.HandlerStrandIsCreated : Prop :=
  ∀ s d l lc g, d < 4 → s.launch d l = some lc → lc.no = l → lc.latency = false → lc.stages[0]? = some g →
    (lc.hrun = none → lc.hnext < lc.hseq → lc.ending = none → lc.word 4 ≠ 0 → ∀ v,
      ((s.onDie d fun y => { y with nextU := (s.die d).nextU + 1 }).onLaunch d l fun y => { y with hnext := lc.hnext + 1, hrun := some lc.hnext }).writeVa
        (cpWho d lc.ctx) kStore (lc.word 5 + 4032).toNat
        (firstRecord (lc.word 4) 0 (lc.word 5 + 2048) (lc.word 5 + BitVec.ofNat 64 (64 * (lc.hnext % 32))) (BitVec.ofNat 64 lc.hnext)) = .ok () v →
      v.launch d l = some { lc with hnext := lc.hnext + 1, hrun := some lc.hnext } →
      ∃ t lc' e, exec (.handlerStrandCreate d l) s = .next t ∧ t.mem = v.mem ∧ t.launch d l = some lc' ∧ lc'.hnext = lc.hnext + 1 ∧
        lc'.hrun = some lc.hnext ∧ lc'.stages[0]?.map (·.ready) = some (g.ready ++ [e]) ∧ e.id.handler = true ∧
        e.id.uid = 4 * (s.die d).nextU + d ∧ e.id.crec = lc.word 5 + 4032) ∧
    (lc.hrun.isSome = true → exec (.handlerStrandCreate d l) s = .next s)

/-- R152, R259, R264: storeAcknowledgement and acknowledgementLoss: an acknowledgement that returns within 10 µs is no longer
outstanding, the copies of an .e store's line on other dies leave, and the old value of an atomic reaches its g register; one that has
not returned 10 µs after its store performed is lost, and not before. -/
def Sys2Proof.Claims.AcknowledgementsReturnOrAreLost : Prop :=
  ∀ s d a x, d < 4 → Tab.find (s.die d).acks a = some x → x.lost = false →
    (∀ k st, s.strand k = some st → st.id.uid = x.uid → st.stop = none) →
    ((4 ≤ x.home ∨ s.canReach d x.home = true) → s.time < x.at_ + 655360000 →
      ∃ t, exec (.storeAcknowledgement d a) s = .next t ∧ Tab.find (t.die d).acks a = none ∧ t.mem = s.mem ∧
        (∀ k, t.strand k = (s.strand k).map fun st => match x.gd with
          | some (n, v) => if st.id.uid = x.uid then st.setG n v else st
          | none => st) ∧
        (x.e = true → ∀ e, e < 4 → e ≠ d → e ≠ homeOf x.line → Tab.find (t.die e).l2 x.line = none) ∧
        ∀ n, n ≠ a → Tab.find (t.die d).acks n = Tab.find (s.die d).acks n) ∧
    (s.time < x.at_ + 655360000 → exec (.acknowledgementLoss d a) s = .next s) ∧
    (x.at_ + 655360000 ≤ s.time →
      ∀ i, (i = .acknowledgementLoss d a ∨ i = .storeAcknowledgement d a ∧ (4 ≤ x.home ∨ s.canReach d x.home = true)) →
        ∃ t, exec i s = .next t ∧ Tab.find (t.die d).acks a = some { x with lost := true } ∧ t.mem = s.mem ∧ t.strands = s.strands)

namespace Sys2Proof.Claims

open Sys2Proof.Machine

/-- The command processor of die `d` runs, with no wait-state mirror, its wait states as they stand now, and no status still to be written
(R305, R423, R435). -/
structure CpQuiet (s : State) (d : Nat) : Prop where
  die    : d < 4
  runs   : (s.die d).state = 3
  mirror : bits (s.reg d 0xD08) 12 44 = 0
  shown  : s.kinds d = s
  told   : ∀ e ∈ (s.die d).qslots, ∀ r ∈ e.2.recs, r.done = 0

/-- The next record of queue slot `c` can be read and names what it may: its words are `ws`, and the state then, its wake
consumed, is `s2` (R300, R303, R305, R307, R318). -/
structure NextRecord (s : State) (d c : Nat) (q : QSlot) (ws : List Word) (s2 : State) : Prop extends CpQuiet s d where
  slot  : s.qslot d c = some q
  low   : c < 128
  on    : s.cqOn d = true
  whole : q.bad = false
  stays : q.leaving = none
  free  : s.flushing d q.q = false
  begun : ∀ r ∈ q.recs, r.started = true
  clean : s.qdescBad d q.q = false
  early : (q.q, q.head) ∉ (s.die d).early
  ring  : s.ringCap d q.q = true
  more  : s.qtail d q.q ≠ q.head
  read  : ∃ s1, s.readWords (cpWho d (s.qctx d q.q)) kLoad (s.recAddr d q.q q.head) 8 = .ok ws s1 ∧ (s1.takePend d q.q).2 = s2
  good  : recBad ws = false
  ctx   : (s.context d (s.qctx d q.q)).isSome = true
  caps  : s2.capFault d (s2.qctx d q.q) (recNeeds ws) = none
  keeps : s2.qslot d c = some q
  quiet : bits (s2.reg d 0xD08) 12 44 = 0

/-- The record that acceptance adds for a kind that starts at once. -/
def startedRec (q : QSlot) (ws : List Word) : Rec := { idx := q.head, words := ws, started := true }

/-- The engine job of a Transfer record (R316). -/
def transferJob (d c e : Nat) (q : QSlot) (ctx : Nat) (x : Work) : Copy :=
  { uid := 0, batch := 0, tile := 24 * d, ctx := ctx, eng := some e, work := [x], job := some (c, q.head) }

/-- `t` with record `r` accepted in slot `c`: last among its records, and HEAD past it (R303, R307). -/
def Accepted (q : QSlot) (r : Rec) (d c : Nat) (t : State) : Prop :=
  ∃ y, t.qslot d c = some y ∧ y.q = q.q ∧ y.recs = q.recs ++ [r] ∧ y.head = (q.head + 1) % 2 ^ 32

end Sys2Proof.Claims

open Sys2Proof Sys2Proof.Machine Sys2Proof.Claims

/-- R300 to R303: cqWakeWrite, queueMap, queueUnmap and forcedUnmap: a wake writes the VALUE and PEND of its queue and puts a bound queue
on the remap list; the head of that list takes a free slot; an idle queue whose PEND is 1 has it cleared and stays, another begins to
leave, and one that has begun leaves its slot with HEAD in its descriptor, to the head of the remap list where work is left; without a
free slot the oldest eligible queue gives its slot to the head of the remap list. -/
def Obligations.QueuesAreWokenMappedAndUnmapped : Prop :=
  (∀ s d q v, d < 4 → q < 4096 → (s.die d).state = 3 → q ∉ (s.die d).broken → s.qdescCut d q = false →
    ∃ t, exec (.cqWakeWrite d q v) s = .next t ∧ (t.qdesc d q 2).toNat = v.toNat * 2 ^ 32 + (s.qdesc d q 2).toNat % 2 ^ 32 ∧
      (t.qdesc d q 3).toNat = v.toNat * 2 ^ 32 + 1 ∧ t.strands = s.strands ∧ (t.die d).qslots = (s.die d).qslots ∧
      (q ∈ (s.die d).bound → (∀ e ∈ (s.die d).qslots, e.2.q ≠ q) → q ∈ (t.die d).remap)) ∧
  (∀ s d c q rest, CpQuiet s d → s.cqOn d = true → (s.die d).remap = q :: rest → (∀ n, n < c → (s.qslot d n).isSome = true) →
    s.qslot d c = none → c < 128 → s.qdescBad d q = false →
    ∃ t y, exec (.queueMap d) s = .next t ∧ t.qslot d c = some y ∧ y.q = q ∧ y.at_ = s.time ∧ y.head = (s.qdesc d q 2).toNat % 2 ^ 32 ∧
      y.recs = [] ∧ y.leaving = none ∧ (t.die d).remap = rest.filter (· != q) ∧ t.mem = s.mem) ∧
  (∀ s d c q, CpQuiet s d → s.qslot d c = some q → c < 128 → q.bad = false → s.qdescBad d q.q = false → q.leaving = none →
    q.recs = [] → s.qtail d q.q = q.head →
    ∃ t, exec (.queueUnmap d c) s = .next t ∧ (t.qdesc d q.q 3).getLsbD 0 = false ∧ (t.die d).remap = (s.die d).remap ∧
      t.qslot d c = some (if (s.qdesc d q.q 3).getLsbD 0 then q else { q with leaving := some none })) ∧
  (∀ s d c q, CpQuiet s d → s.qslot d c = some q → c < 128 → q.bad = false → s.qdescBad d q.q = false →
    q.leaving = some none → q.recs = [] → q.head < 2 ^ 32 → q.q ∉ (s.die d).remap →
    ∃ t, exec (.queueUnmap d c) s = .next t ∧ t.qslot d c = none ∧ (t.qdesc d q.q 2).toNat % 2 ^ 32 = q.head ∧
      (t.die d).remap = if (s.qdesc d q.q 3).toNat / 2 ^ 32 ≠ q.head ∨ (s.qdesc d q.q 3).getLsbD 0 = true then q.q :: (s.die d).remap
        else (s.die d).remap) ∧
  (∀ s d c q p rest, CpQuiet s d → s.cqOn d = true → (s.die d).remap = p :: rest → (∀ n, n < 128 → (s.qslot d n).isSome = true) →
    (c, q) ∈ (s.die d).qslots → s.qslot d c = some q → c < 128 → q.eligible = true → q.bad = false →
    (∀ e ∈ (s.die d).qslots, e.2.leaving = none) →
    (∀ e ∈ (s.die d).qslots, e.2.eligible = true → e.2.bad = false → e = (c, q) ∨ q.at_ < e.2.at_) →
    q.at_ + max 1 ((s.reg d 0x308).toNat / 2 ^ 16 % 2 ^ 16) * 1000 * 65536 ≤ s.time → s.qdescBad d q.q = false →
    ∃ t, exec (.forcedUnmap d) s = .next t ∧ t.qslot d c = some { q with leaving := some (some p) } ∧
      (t.qdesc d q.q 3).getLsbD 0 = false ∧ (t.die d).remap = (s.die d).remap) ∧
  ∀ s d c q p, CpQuiet s d → s.qslot d c = some q → c < 128 → q.bad = false → s.qdescBad d q.q = false →
    q.leaving = some (some p) → p ∈ (s.die d).remap → p ≠ q.q → s.qdescBad d p = false →
    ∃ t y, exec (.queueUnmap d c) s = .next t ∧ t.qslot d c = some y ∧ y.q = p ∧ y.at_ = s.time ∧ y.leaving = none ∧ p ∉ (t.die d).remap

/-- R305, R307: nop, wait, signal and boundary: a Nop record retires with STATUS 1; a Wait record whose condition does not hold stays in
flight; a Signal record behind another starts, and one at the head updates its word and retires; a Boundary record starts, and starts a
boundary with its GROUPS, or waits where one is in progress. -/
def Sys2Proof.Claims.RecordsOfQueuesStart : Prop :=
  (∀ s d c q ws s2 u, NextRecord s d c q ws s2 → recKind ws = 6 → startWhy ws [] q.recs = none →
    (s2.onQslot d c fun y => { y with head := (y.head + 1) % 2 ^ 32 }).statusOut d q.q q.head (s2.muted d (s2.qctx d q.q) ws) 1 = .ok () u →
    u.qslot d c = some { q with head := (q.head + 1) % 2 ^ 32 } → bits (u.reg d 0xD08) 12 44 = 0 →
    ∃ t y, exec (.nop d c) s = .next t ∧ t.mem = u.mem ∧ t.qslot d c = some y ∧ y.head = (q.head + 1) % 2 ^ 32 ∧ y.recs = q.recs) ∧
  (∀ s d c q ws s2 v s4, NextRecord s d c q ws s2 → recKind ws = 2 → startWhy ws [] q.recs = none →
    (s2.acceptRec d c (startedRec q ws)).readSig (cpWho d ((s2.acceptRec d c (startedRec q ws)).qctx d q.q)) (ws.getD 1 0) = .ok v s4 →
    condSig (ws.getD 3 0).toNat v (ws.getD 2 0) = false →
    ∃ t, exec (.wait d c) s = .next t ∧ Accepted q (startedRec q ws) d c t ∧ t.mem = s2.mem ∧
      (q.recs = [] → (t.qslot d c).map (·.kind) = some 1)) ∧
  (∀ s d c q ws s2 r l, NextRecord s d c q ws s2 → recKind ws = 3 → startWhy ws [] q.recs = none → q.recs = r :: l → recKind r.words ≠ 3 →
    ∃ t, exec (.signal d c) s = .next t ∧ Accepted q (startedRec q ws) d c t ∧ t.mem = s2.mem) ∧
  (∀ s d c q ws s2 v s4, NextRecord s d c q ws s2 → recKind ws = 3 → q.recs = [] → s2.flushing d q.q = false →
    (s2.acceptRec d c (startedRec q ws)).rmw (cpWho d (s2.qctx d q.q)) (ws.getD 1 0) 8 false
      (fun n => (opSig (ws.getD 3 0).toNat (BitVec.ofNat 64 n) (ws.getD 2 0)).toNat) = .ok v s4 →
    bits ((s4.retireRec d c q.head 1).reg d 0xD08) 12 44 = 0 →
    ∃ t, exec (.signal d c) s = .next t ∧ t.mem = (s4.retireRec d c q.head 1).mem) ∧
  ∀ s d c q ws s2, NextRecord s d c q ws s2 → recKind ws = 4 → startWhy ws [] q.recs = none →
    (∀ r ∈ q.recs, r.idx ≠ q.head ∧ (recKind r.words = 4 → r.gone = true)) →
    ∃ t, exec (.boundary d c) s = .next t ∧ t.mem = s2.mem ∧
      if (s2.reg d 0x228).getLsbD 1 then Accepted q (startedRec q ws) d c t ∧ (t.die d).gov = (s2.die d).gov ∧
        (q.recs = [] → (t.qslot d c).map (·.kind) = some 4)
      else Accepted q { startedRec q ws with gone := true } d c t ∧ (t.reg d 0x228).getLsbD 1 = true ∧
        (t.reg d 0x228).toNat / 2 ^ 16 % 2 ^ 16 = (ws.getD 1 0).toNat % 2 ^ 16 ∧ (t.die d).gov = some (c, q.head)

/-- R307, R316: waitRecordSatisfied, transfer and transferJobComplete: a Wait record in flight whose condition holds retires with STATUS 1; a Transfer record whose descriptor is
admitted becomes a job at the tail of an engine; an engine's first job, all its blocks moved and acknowledged, ends. -/
def Sys2Proof.Claims.WaitsEndAndTransfersRun : Prop :=
  (∀ s d c q r v u, CpQuiet s d → s.qslot d c = some q → q.leaving = none → q.recs.find? (fun y => recKind y.words == 2) = some r →
    s.readSig (cpWho d (s.qctx d q.q)) (r.words.getD 1 0) = .ok v u →
    (condSig (r.words.getD 3 0).toNat v (r.words.getD 2 0) = true →
      exec (.waitRecordSatisfied d c) s = .next ((u.retireRec d c r.idx 1).showWaits d)) ∧
    (condSig (r.words.getD 3 0).toNat v (r.words.getD 2 0) = false → exec (.waitRecordSatisfied d c) s = .next s)) ∧
  (∀ s d c q ws s2 ds s3 x s4 s5 t, NextRecord s d c q ws s2 → recKind ws = 5 → q.recs = [] → recFootn ws = 0 →
    (ws.getD 1 0).toNat % 64 = 0 → offMemory (ws.getD 1 0).toNat 64 = false →
    s2.capFault d (s2.qctx d q.q) [((ws.getD 1 0).toNat, 64, false)] = none →
    s2.readWords (cpWho d (s2.qctx d q.q)) kLoad (ws.getD 1 0).toNat 8 = .ok ds s3 → dKind ds = 3 → descOk ds = true →
    s3.capFault d (s2.qctx d q.q) ([(wd ds 1, 1, false), (wd ds 2, 1, false), (wd ds 4, 4 * dNblk ds, false), (wd ds 5, 4 * dNblk ds, false)] ++
      (if wd ds 6 = 0 then [] else [(wd ds 6, 8, true)]) ++ if wd ds 7 = 0 then [] else [(wd ds 7, 128, false)]) = none →
    s3.workOf (cpWho d (s2.qctx d q.q)) (ws.getD 1 0).toNat ds = .ok x s4 →
    s4.acceptRec d c { startedRec q ws with foot := [(0x8000000000000000, 2 ^ 57), (0, 2 ^ 57)] } = s5 →
    ((s5.pinAll (cpWho d (s2.qctx d q.q)) [x]).placeCopy d (transferJob d c (s5.pickEngine d) q (s2.qctx d q.q) x)) = t →
    exec (.transfer d c) s = .next (t.showWaits d)) ∧
  (∀ (s : State) d e c, c.eng = some e → c.work.head?.map Work.isPages ≠ some true →
    Tab.find ((s.placeCopy d c).die d).copies s.nextCopy = some c ∧
      Tab.getD ((s.placeCopy d c).die d).engines e [] = Tab.getD (s.die d).engines e [] ++ [s.nextCopy] ∧ (s.placeCopy d c).mem = s.mem) ∧
  ∀ s d e j rest x, CpQuiet s d → Tab.getD (s.die d).engines e [] = j :: rest → Tab.find (s.die d).copies j = some x → x.work = [] →
    (∀ z ∈ s.dies, ∀ a ∈ z.2.acks, a.2.uid = copyUid j → a.2.lost = true) →
    ∃ t, exec (.transferJobComplete d e) s = .next t ∧ Tab.find (t.die d).copies j = none ∧ Tab.getD (t.die d).engines e [] = rest

/-- R306, R309, R310: operator, launchBegin and launchRetire: an operator record that is admitted is the last of its slot's records, not
started, with the launch record and the stage descriptors that its addresses name, and HEAD is past it; its launch begins with its
index range; a launch all of whose strands have ended, with no index left, leaves the die with its slots. -/
def Sys2Proof.Claims.LaunchesBeginAndRetire : Prop :=
  (∀ s d c q ws s2 s3 s4, NextRecord s d c q ws s2 → recKind ws = 1 → s2.expand d c q ws = .ok s3 s4 → s4.qslot d c = some q →
    bits (s4.reg d 0xD08) 12 44 = 0 →
    ∃ t lr a desc b foot bars, exec (.operator d c) s = .next t ∧
      s2.readWords (cpWho d (s2.qctx d q.q)) kLoad (ws.getD 1 0).toNat 8 = .ok lr a ∧
      a.readWords (cpWho d (s2.qctx d q.q)) kLoad (lr.getD 1 0).toNat (8 * ((lr.getD 0 0).toNat % 16 + 1)) = .ok desc b ∧
      launchBad ws lr = false ∧ Accepted q { idx := q.head, words := ws, foot := foot, lr := lr, desc := desc, bars := bars, started := false } d c t ∧
      t.mem = s4.mem ∧ t.strands = s4.strands ∧ (t.die d).launches = (s4.die d).launches) ∧
  (∀ s d c q r, CpQuiet s d → s.qslot d c = some q → c < 128 → s.flushing d q.q = false → q.recs.find? (fun y => !y.started) = some r →
    startWhy r.words r.foot (q.recs.filter fun y => y.idx != r.idx) = none → (r.lr.getD 0 0).getLsbD 6 = false →
    ∃ t lc, exec (.launchBegin d c) s = .next t ∧ t.launch d (s.die d).nextL = some lc ∧ lc.begun = true ∧ lc.limit = 0 ∧
      lc.n = (r.words.getD 2 0).toNat % 2 ^ 32 ∧ lc.ctx = s.qctx d q.q ∧ lc.lr = r.lr ∧ lc.oprec.toNat = s.recAddr d q.q r.idx % 2 ^ 64 ∧
      lc.stages.length = (r.lr.getD 0 0).toNat % 16 + 1 ∧ (t.die d).nextL = (s.die d).nextL + 1) ∧
  ∀ s d l x, CpQuiet s d → s.launch d l = some x → x.no = l → x.begun = true → x.ending = none → s.strandsDone d x = true →
    x.initDone = true → s.noneLeft d x = true → s.backWaits (x.tiles.flatMap s.l1s) [1, 2] = false →
    ∃ t, exec (.launchRetire d l) s = .next t ∧ t.launch d l = none ∧ (∀ a ∈ (t.die d).assign, a.2.1 ≠ l) ∧ t.strands = s.strands

/-- R315: batchIteration and batchAdmissionWake: when an iteration of a batched launch has ended, the scheduler's step over the batch table gives the indices of the
next; with none and CLOSE 0 the launch waits until ATAIL or CLOSE is written. -/
def Sys2Proof.Claims.BatchedLaunchesIterate : Prop :=
  ∀ s d l x n seen u lu, d < 4 → s.launch d l = some x → x.no = l → x.ending = none → s.batchTable d x = .ok (n, seen) u →
    u.launch d l = some lu → lu.no = l →
    (x.batch ≠ 0 → x.begun = true → x.iter = true → x.n ≤ x.limit → s.strandsDone d x = true →
      ∃ t y, exec (.batchIteration d l) s = .next t ∧ t.mem = u.mem ∧ t.launch d l = some y ∧ y.n = n ∧ y.limit = 0 ∧
        y.iter = decide (n ≠ 0) ∧ y.bwait = (decide (n = 0) && !seen.getLsbD 0)) ∧
    (x.iter = false → exec (.batchIteration d l) s = .next s) ∧
    (∀ w0 w2 a b, x.bwait = true → s.batchWord d x 0 = .ok w0 a → a.batchWord d x 2 = .ok w2 b →
      x.seen = some (batchSeen w0 w2) → exec (.batchAdmissionWake d l) s = .next s) ∧
    (∀ w0 w2 a b, x.bwait = true → s.batchWord d x 0 = .ok w0 a → a.batchWord d x 2 = .ok w2 b →
      x.seen ≠ some (batchSeen w0 w2) →
      ∃ t y, exec (.batchAdmissionWake d l) s = .next t ∧ t.mem = u.mem ∧ t.launch d l = some y ∧ y.n = n ∧ y.limit = 0)

/-- R317: regionGrant, queueBind, revoke and queueUnbind: each mailbox command that is admitted has its effect and ends with code 0; a grant that breaks a rule ends with 1. -/
def Sys2Proof.Claims.MailboxCommandsComplete : Prop :=
  (∀ s d, CpQuiet s d → (s.die d).mbox = some 1 →
    ((s.mboxArg d 2).toNat / 2 ^ 18 = 0 → (s.mboxArg d 1) ≠ 0 → (s.mboxArg d 0).toNat + (s.mboxArg d 1).toNat ≤ 2 ^ 56 →
      (s.mboxArg d 2).toNat / 2 ^ 16 % 4 ≠ 0 → (s.context d ((s.mboxArg d 2).toNat % 2 ^ 16)).isSome = true →
      (s.die d).caps.length + (s.die d).revoked.length < 65536 → (s.die d).nextCap < 2 ^ 32 →
      ∃ t, exec (.regionGrant d) s = .next t ∧ Tab.find (t.die d).caps (s.die d).nextCap =
          some ⟨(s.mboxArg d 0).toNat, (s.mboxArg d 1).toNat, (s.mboxArg d 2).toNat % 2 ^ 16, (s.mboxArg d 2).getLsbD 16,
            (s.mboxArg d 2).getLsbD 17, false⟩ ∧
        (t.reg d 0x520).toNat = (s.die d).nextCap * 2 ^ 32 ∧ (t.die d).mbox = none ∧ t.mem = s.mem) ∧
    (s.mboxArg d 1 = 0 → ∃ t, exec (.regionGrant d) s = .next t ∧ (t.die d).caps = (s.die d).caps ∧ t.reg d 0x520 = 1 ∧ t.mem = s.mem)) ∧
  (∀ s d q, CpQuiet s d → (s.die d).mbox = some 2 → q = (s.reg d 0x500).toNat / 2 ^ 8 % 2 ^ 12 → q ∉ (s.die d).bound →
    (∀ e ∈ (s.die d).qslots, e.2.q ≠ q) → only (s.mboxArg d 1) 0x33F = true → (s.mboxArg d 2).toNat / 2 ^ 16 = 0 →
    (s.mboxArg d 0).toNat % 64 = 0 → (s.mboxArg d 1).toNat % 16 < 13 → (s.context d (s.mboxArg d 2).toNat).isSome = true →
    (s.die d).caps.length + (s.die d).revoked.length < 65536 → (s.die d).nextCap < 2 ^ 32 → s.qdescCut d q = false → s.portsDown = [] → (s.die d).pri = [] →
    ∃ t, exec (.queueBind d) s = .next t ∧ q ∈ (t.die d).bound ∧ t.qdesc d q 0 = s.mboxArg d 0 ∧ t.qdesc d q 1 = s.mboxArg d 1 ∧
      t.qdesc d q 2 = 0 ∧ t.qdesc d q 3 = 0 ∧ t.qdesc d q 4 = s.mboxArg d 2 ∧ (t.qdesc d q 5).toNat = (s.die d).nextCap ∧
      (t.reg d 0x520).toNat = (s.die d).nextCap * 2 ^ 32 ∧ (t.die d).mbox = none) ∧
  (∀ s d x, CpQuiet s d → (s.die d).mbox = some 3 → s.mboxArg d 1 = 0 → s.mboxArg d 2 = 0 →
    Tab.find (s.die d).caps ((s.mboxArg d 0).toNat % 2 ^ 32) = some x →
    ∃ t, exec (.revoke d) s = .next t ∧ Tab.find (t.die d).caps ((s.mboxArg d 0).toNat % 2 ^ 32) = none ∧
      (∀ n, n ≠ (s.mboxArg d 0).toNat % 2 ^ 32 → Tab.find (t.die d).caps n = Tab.find (s.die d).caps n) ∧ t.reg d 0x520 = 0 ∧
      (t.die d).mbox = none ∧ t.mem = s.mem) ∧
  ∀ s d q, CpQuiet s d → (s.die d).mbox = some 4 → s.mboxArg d 1 = 0 → s.mboxArg d 2 = 0 → q = (s.reg d 0x500).toNat / 2 ^ 8 % 2 ^ 12 →
    q ∈ (s.die d).bound → (∀ e ∈ (s.die d).qslots, e.2.q = q → e.2.recs = []) → s.qdescCut d q = false →
    ∃ t, exec (.queueUnbind d) s = .next t ∧ q ∉ (t.die d).bound ∧ q ∉ (t.die d).remap ∧ (t.qdesc d q 1).getLsbD 4 = false ∧
      (t.qdesc d q 5).toNat % 2 ^ 32 = 0 ∧ t.reg d 0x520 = 0 ∧ (t.die d).mbox = none

/-- R425, R426: flush and wdogExpiry: a flush waits for the started records of its queue, retires one that has not started with STATUS 4, and completes
its entry with result 1 when HEAD is at the TAIL it took; the watchdog reports a wait once, after its time. -/
def Sys2Proof.Claims.FlushesAndTheWatchdog : Prop :=
  (∀ s d q n c y, CpQuiet s d → (s.die d).ctrl = some (q, n) → q ∉ (s.die d).broken → s.slotOfQueue d q = some c → s.qslot d c = some y →
    y.bad = false → s.qdescBad d q = false →
    ((∃ r ∈ y.recs, r.started = true) → exec (.flush d) s = .next s) ∧
    ∀ r l, y.recs = r :: l → (∀ p ∈ y.recs, p.started = false) →
      exec (.flush d) s = .next ((s.retireRec d c r.idx 4).showWaits d)) ∧
  (∀ s d q n, CpQuiet s d → (s.die d).ctrl = some (q, n) → q ∉ (s.die d).broken → s.slotOfQueue d q = none →
    s.qdescBad d q = false → (s.qdesc d q 2).toNat % 2 ^ 32 = n →
    exec (.flush d) s = .next ((s.ctrlDone d 1).showWaits d)) ∧
  (∀ s d, CpQuiet s d → (s.die d).ctrl = none → (s.reg d 0xD18).getLsbD 0 = false → exec (.flush d) s = .next s) ∧
  ∀ s d c q r, CpQuiet s d → s.qslot d c = some q → q.kind = 1 → q.barked = false → q.recs.find? (fun y => recKind y.words == 2) = some r →
    let limit := (s.reg d 0xD00).toNat % 2 ^ 32
    (limit ≠ 0 → q.since + 1000 * limit < s.ns d →
      ∃ t, exec (.wdogExpiry d c) s = .next t ∧ t.qslot d c = some { q with barked := true } ∧
        t.mem = (s.hostFault d { cls := 9, code := 3, info := wordOf [(bits (r.words.getD 1 0) 3 53, 12), (q.q, 0)], src := 4 }
          (recTag r.words)).mem) ∧
    (s.ns d ≤ q.since + 1000 * limit ∨ limit = 0 → exec (.wdogExpiry d c) s = .next s)

namespace Sys2Proof.Claims

open Sys2Proof.Machine

/-- `t` is `s` but for dies. -/
def SameButDies (s t : State) : Prop :=
  t.mem = s.mem ∧ t.strands = s.strands ∧ t.tiles = s.tiles ∧ t.edges = s.edges ∧ t.empties = s.empties ∧ t.poison = s.poison ∧ t.time = s.time

/-- `t` is `s` but for one die. -/
def SameButDie (s t : State) (d : Nat) : Prop := SameButDies s t ∧ ∀ e, e ≠ d → t.die e = s.die e

/-- A page request after its answer: gone where its strand has left its slot (R419), else with the answer. -/
def answered (q : Pri) (a : Nat) : Option Pri := if q.left.isSome then none else some { q with ans := some a }

/-- No strand of a die is being stopped. -/
def NoneStops (s : State) (d : Nat) : Prop := ∀ e ∈ s.strands, slotDie e.1 = d → e.2.stop = none

end Sys2Proof.Claims

open Sys2Proof Sys2Proof.Machine Sys2Proof.Claims

/-- R325, R326: a GO (`invalidation`) sets BUSY and takes what the registers cover, and is ignored while BUSY is 1; at its completion
(`invalidationComplete`) no cached translation that it covers is left, in any TLB or in the walk cache, every other one is, BUSY is 0
and DONE 1; it does not complete while a copy goes on with a translation that it covers. -/
def Sys2Proof.Claims.InvalidationRemovesWhatItCovers : Prop :=
  (∀ s d, d < 4 → (s.die d).state = 3 →
    ((s.reg d 0x618).getLsbD 1 = true → exec (.invalidation d) s = .next s) ∧
    ((s.reg d 0x618).getLsbD 1 = false → ∃ t, exec (.invalidation d) s = .next t ∧ (t.reg d 0x618).getLsbD 1 = true ∧
      (t.die d).inv = some ((s.reg d 0x610).toNat / 4096 % 2 ^ 44 * 4096, s.reg d 0x618) ∧ (t.die d).tlb = (s.die d).tlb ∧ SameButDie s t d)) ∧
  (∀ s d va ctl, d < 4 → (s.die d).inv = some (va, ctl) → (∃ e ∈ (s.die d).copies, e.2.uses va ctl = true) →
    exec (.invalidationComplete d) s = .next s) ∧
  ∀ s d va ctl, d < 4 → (s.die d).inv = some (va, ctl) → (∀ e ∈ (s.die d).copies, e.2.uses va ctl = false) →
    ∃ t, exec (.invalidationComplete d) s = .next t ∧ (t.die d).ats = [] ∧ (t.reg d 0x618).getLsbD 1 = false ∧ (t.reg d 0x618).getLsbD 3 = true ∧
      SameButDie s t d ∧ (∀ x, x ∈ (t.die d).steps ↔ x ∈ (s.die d).steps ∧ ¬ (ctl.getLsbD 4 = true ∨ x.ctx = ctl.toNat / 2 ^ 16 % 2 ^ 16 ∧
        (ctl.toNat / 2 ^ 32 = 0 ∨ x.va < va + 4096 * (ctl.toNat / 2 ^ 32) ∧ va < x.va + 2 ^ (12 + 9 * x.lv)))) ∧
      ∀ x, x ∈ (t.die d).tlb ↔ x ∈ (s.die d).tlb ∧ ¬ (ctl.getLsbD 4 = true ∨ x.ctx = ctl.toNat / 2 ^ 16 % 2 ^ 16 ∧
        (ctl.toNat / 2 ^ 32 = 0 ∨ x.va < va + 4096 * (ctl.toNat / 2 ^ 32) ∧ va < x.va + x.size))

/-- R331, R418, R419: an answer (`priAnswer`) reaches the request of its group and generation that has none; a Response Failure reaches every
request of its context and disables it; one that matches none is counted; a request without an answer after TIMEOUT ms ends (`priTimeout`); CLR
enables its context (`priClear`); an ATS invalidation (`atsInvalidationRequest`) removes the answers that it covers. -/
def Sys2Proof.Claims.PageRequestsAreAnswered : Prop :=
  (∀ s d grp gen code, d < 4 → NoneStops s d →
    ((∀ p ∈ (s.die d).pri, p.grp = grp → p.gen = gen → p.ans.isSome = true) →
      ∃ t, exec (.priAnswer d grp gen code) s = .next t ∧ (t.die d).pri = (s.die d).pri ∧
        (t.reg d 0x630).toNat / 2 ^ 48 = min ((s.reg d 0x630).toNat / 2 ^ 48 + 1) 65535 ∧ SameButDie s t d) ∧
    ∀ p, (s.die d).pri.find? (fun p => p.grp == grp && p.gen == gen && p.ans.isNone) = some p →
      ∃ t, exec (.priAnswer d grp gen code) s = .next t ∧ SameButDie s t d ∧
        (code ≤ 1 → (t.die d).priDis = (s.die d).priDis ∧ (t.die d).pri = (s.die d).pri.filterMap fun q =>
          if q.grp = grp ∧ q.gen = gen ∧ q.ans = none then answered q code else some q) ∧
        (2 ≤ code → p.ctx ∈ (t.die d).priDis ∧ (t.die d).pri = (s.die d).pri.filterMap fun q =>
          if q.ctx = p.ctx ∧ q.ans = none then answered q 2 else some q)) ∧
  (∀ s d r p, d < 4 → NoneStops s d → (s.die d).pri[r]? = some p → p.ans = none →
    let ms := (s.reg d 0x630).toNat % 2 ^ 16
    (ms ≠ 0 → p.at_ + ms * 1000000 * 65536 ≤ s.time →
      ∃ t, exec (.priTimeout d r) s = .next t ∧ SameButDie s t d ∧
        (t.die d).pri = (s.die d).pri.filterMap fun q => if q = p then answered q 3 else some q) ∧
    (ms = 0 ∨ s.time < p.at_ + ms * 1000000 * 65536 → exec (.priTimeout d r) s = .next s)) ∧
  (∀ s d, d < 4 → (s.die d).state = 3 → ∃ t, exec (.priClear d) s = .next t ∧ SameButDie s t d ∧ (t.die d).pri = (s.die d).pri ∧
    ∀ c, c ∈ (t.die d).priDis ↔ c ∈ (s.die d).priDis ∧ c ≠ (s.reg d 0x630).toNat / 2 ^ 32 % 2 ^ 16) ∧
  ∀ s p pasid base pages, p < 2 → ∃ t, exec (.atsInvalidationRequest p pasid base pages) s = .next t ∧
    SameButDie s t (if p = 0 then 0 else 3) ∧
    ∀ x, x ∈ (t.die (if p = 0 then 0 else 3)).ats ↔ x ∈ (s.die (if p = 0 then 0 else 3)).ats ∧
      ¬ (x.ctx = pasid.toNat ∧ base.toNat / 4096 ≤ x.va ∧ x.va < base.toNat / 4096 + pages)

/-- R253, R254: a sweep (`cacheSweep`) of a range of the die's own memory leaves no copy of its lines in the L1s and the L2 of the die,
and none of them a tensor record's line, with BUSY 1 until it is done (`sweepDone`); a HOME that the die does not import is refused with ERR; a GO while BUSY is 1 is ignored. -/
def Sys2Proof.Claims.SweepsEmptyTheCaches : Prop :=
  ∀ s d, d < 4 → (s.die d).state = 3 →
    let n := (s.reg d 0x108).toNat % 2 ^ 32 * 4096
    let pa := (s.reg d 0x100).toNat / 4096 % 2 ^ 40 * 4096
    let home := (s.reg d 0x110).toNat / 64 % 4
    ((s.reg d 0x110).getLsbD 1 = true → exec (.cacheSweep d) s = .next s) ∧
    ((s.reg d 0x110).getLsbD 1 = false → home ≠ d → s.importsFrom d home = false →
      ∃ t, exec (.cacheSweep d) s = .next t ∧ (t.reg d 0x110).getLsbD 2 = true ∧ (t.reg d 0x110).getLsbD 3 = true ∧ SameButDie s t d) ∧
    ((s.reg d 0x110).getLsbD 1 = false → home = d → pa + n ≤ 2 ^ 52 → n ≠ 0 →
      ∃ t, exec (.cacheSweep d) s = .next t ∧ (t.reg d 0x110).getLsbD 1 = true ∧
        (∀ x ∈ (t.die d).l2, inSweep d pa n x.1 = false) ∧ (∀ x ∈ t.recLines, inSweep d pa n x = false) ∧
        ∀ u ∈ t.tiles, u.1 / 24 = d → u.2.smp = [] ∧ ∀ x ∈ u.2.l1, inSweep d pa n x.1 = false) ∧
    ((s.reg d 0x110).getLsbD 1 = true → ∃ t, exec (.sweepDone d) s = .next t ∧ (t.reg d 0x110).getLsbD 1 = false ∧
      (t.reg d 0x110).getLsbD 3 = true ∧ SameButDie s t d) ∧
    ((s.reg d 0x110).getLsbD 1 = false → exec (.sweepDone d) s = .next s)

/-- R289, R290, R294: a boundary (`iterationBoundary`) runs only while BUSY is 1; one over an empty table leaves BND_STATUS 0, BUSY 0 and DONE 1, and changes
no byte of memory. -/
def Sys2Proof.Claims.EmptyBoundaryCompletes : Prop :=
  ∀ s d, CpQuiet s d →
    ((s.reg d 0x228).getLsbD 1 = false → exec (.iterationBoundary d) s = .next s) ∧
    ((s.reg d 0x228).getLsbD 1 = true → ((s.die d).govIn.getD 2 0).toNat % 2 ^ 17 = 0 → (s.reg d 0x220).toNat / 8 % 2 ^ 53 = 0 → (s.die d).gov = none →
      ∃ t, exec (.iterationBoundary d) s = .next t ∧ t.reg d 0x230 = 0 ∧ (t.reg d 0x228).getLsbD 1 = false ∧
        (t.reg d 0x228).getLsbD 3 = true ∧ SameButDie s t d)

/-- R292: the fall-back requests that are granted need no more footprint, in quarters of a byte, than the budget, and of two requests
that need some the later is granted only where the earlier is. -/
def Sys2Proof.Claims.GrantsKeepWithinTheBudget : Prop :=
  (∀ (l : List (Nat × Row)) (budget : Int), 0 ≤ budget → (l.map (·.1)).Nodup →
    ((l.filter fun e => (grants l budget false).contains e.1).map fun e => e.2.extra.getD 0).sum ≤ budget) ∧
  ∀ (l : List (Nat × Row)) (budget : Int) (i j : Nat) (a b : Nat × Row), (l.map (·.1)).Nodup → i < j → l[i]? = some a → l[j]? = some b →
    a.2.extra.getD 0 ≠ 0 → b.2.extra.getD 0 ≠ 0 → b.1 ∈ grants l budget false → a.1 ∈ grants l budget false

namespace Sys2Proof.Claims

open Sys2Proof.Machine

/-- Port `p` is up, holds the package semaphore with its lease running, and reaches die 0 and die `d`, which runs, with no edge on the
way there that retrains (R15, R333, R338, R404). -/
structure Holds (s : State) (p d : Nat) : Prop where
  port  : p < 2
  up    : p ∉ s.portsDown
  owner : s.semOwner.toNat = p + 1
  lease : s.time < s.semLease
  sees  : s.portSees p d = true
  zero  : (s.half (portDie p)).contains 0 = true
  runs  : (s.die d).state = 3
  calm  : s.hostWaits p [0, d] = false

/-- `t` is `s` but for edge `e`, and for what the fault queues of the dies received. -/
def SameButEdge (s t : State) (e : Nat) : Prop :=
  t.strands = s.strands ∧ t.tiles = s.tiles ∧ t.time = s.time ∧ t.semOwner = s.semOwner ∧ ∀ f, f ≠ e → t.edge f = s.edge f

/-- The route from die `a` to die `b` over the edges in service just before time `n` used edge `e` (R12, R400). -/
def UsedAt (s : State) (a b e n : Nat) : Prop :=
  ∃ l, routeOver (fun m => match (s.edge m).downAt with | some u => decide (n ≤ u) | none => true) a b = some l ∧ e ∈ l

end Sys2Proof.Claims

open Sys2Proof Sys2Proof.Machine Sys2Proof.Claims

/-- R332, R333, R338: a new TGT written (`overdrive`) through the port that holds the semaphore starts a training at it; without the semaphore it
is DENIED and TGT stays; FBTHR and AUTO are written in both cases. -/
def Sys2Proof.Claims.RateWritesNeedTheSemaphore : Prop :=
  ∀ s e d p (v : Word), e < 4 → d ∈ edgeDies e → p < 2 → s.portSees p d = true → p ∉ s.portsDown →
    (s.half (portDie p)).contains 0 = true → (s.die d).state = 3 → (s.semOwner = 0 ∨ s.time < s.semLease) →
    v.toNat / 16 % 8 ≤ 4 → v.toNat / 16 % 8 ≠ (s.edge e).tgt.toNat → (s.edge e).down = false → s.hostWaits p (0 :: edgeDies e) = false →
    ∃ t, exec (.overdrive e p v) s = .next t ∧ SameButEdge s t e ∧ t.mem = s.mem ∧ (t.edge e).cur = (s.edge e).cur ∧
      (t.edge e).fbthr.toNat = v.toNat / 2 ^ 16 % 2 ^ 16 ∧ (t.edge e).auto = v.getLsbD 8 ∧
      (s.semOwner.toNat = p + 1 → (t.edge e).tgt.toNat = v.toNat / 16 % 8 ∧ (t.edge e).train = some (t.edge e).tgt) ∧
      (s.semOwner.toNat ≠ p + 1 → (t.edge e).tgt = (s.edge e).tgt ∧ (t.edge e).train = (s.edge e).train ∧ (t.edge e).denied = true)

/-- R333, R334, R400: a training that succeeds (`edgeTrainingComplete`) leaves the edge up at its rate; one that fails after a TGT write
leaves it DENIED at its old rate; one that fails at boot or after a change of width falls back to 32 GT/s; too many replays in 1 ms step an
AUTO edge one rate down (`automaticStepDown`); an edge that does not train, or steps not, stays. -/
def Sys2Proof.Claims.EdgesTrainAndStepDown : Prop :=
  ∀ s e, e < 4 →
    (∀ r, (s.edge e).train = some r →
      (∃ t, exec (.edgeTrainingComplete e true) s = .next t ∧ SameButEdge s t e ∧ (t.edge e).cur = r ∧ (t.edge e).up = true ∧
        (t.edge e).train = none ∧ (t.edge e).mods = (s.edge e).mods ∧ (t.edge e).degr = ((s.edge e).degr || decide (r.toNat < (s.edge e).cur.toNat))) ∧
      (r ≠ 0 → (s.edge e).why = 2 → (s.edge e).fails < 3 → ∃ t, exec (.edgeTrainingComplete e false) s = .next t ∧ SameButEdge s t e ∧
        (t.edge e).cur = (s.edge e).cur ∧ (t.edge e).tgt = (s.edge e).cur ∧ (t.edge e).denied = true ∧ (t.edge e).train = none ∧ t.mem = s.mem) ∧
      ((s.edge e).why = 0 → (s.edge e).fails + (if r = 0 then 1 else 0) < 3 → ∃ t, exec (.edgeTrainingComplete e false) s = .next t ∧
        SameButEdge s t e ∧ (t.edge e).cur = (s.edge e).cur ∧ (t.edge e).train = some 0 ∧ t.mem = s.mem)) ∧
    (∀ ok, (s.edge e).train = none → exec (.edgeTrainingComplete e ok) s = .next s) ∧
    ((s.edge e).auto = true → (s.edge e).cur ≠ 0 → (s.edge e).up = true → (s.edge e).train = none →
      (s.edge e).fbthr.toNat < ((s.edge e).recent.filter fun n => s.time < n + 65536000000).length →
      ∃ t, exec (.automaticStepDown e) s = .next t ∧ SameButEdge s t e ∧ (t.edge e).train = some ((s.edge e).cur - 1) ∧ t.mem = s.mem) ∧
    ((s.edge e).auto = false ∨ (s.edge e).cur = 0 ∨ ((s.edge e).recent.filter fun n => s.time < n + 65536000000).length ≤ (s.edge e).fbthr.toNat →
      exec (.automaticStepDown e) s = .next s)

/-- R332, R399: a CRC error (`flitCrcError`) on an edge that is up is counted with the replay; a lane repair (`spareLaneRepair`) is counted;
a module that loses lanes (`moduleWidthHalving`) halves its width, marked DEGR, and the edge trains again while a module is left; R440: a recalibration
(`linkRecalibration`) changes nothing. -/
def Sys2Proof.Claims.EdgeErrorsAreCounted : Prop :=
  ∀ s e, e < 4 →
    ((s.edge e).up = true → ∃ t, exec (.flitCrcError e) s = .next t ∧ SameButEdge s t e ∧ t.mem = s.mem ∧
      (t.edge e).crcerr.toNat = min ((s.edge e).crcerr.toNat + 1) (2 ^ 32 - 1) ∧
      (t.edge e).replays.toNat = min ((s.edge e).replays.toNat + 1) (2 ^ 32 - 1) ∧ (t.edge e).cur = (s.edge e).cur) ∧
    (∃ t, exec (.spareLaneRepair e) s = .next t ∧ SameButEdge s t e ∧ t.mem = s.mem ∧
      (t.edge e).repaired.toNat = min ((s.edge e).repaired.toNat + 1) 255 ∧ (t.edge e).mods = (s.edge e).mods) ∧
    (∀ m, m < 12 → (s.edge e).mods.toNat / 4 ^ m % 4 < 3 → (s.edge e).mods.toNat + 4 ^ m ≠ 2 ^ 24 - 1 →
      ∃ t, exec (.moduleWidthHalving e m) s = .next t ∧ SameButEdge s t e ∧ (t.edge e).mods.toNat = (s.edge e).mods.toNat + 4 ^ m ∧
        (t.edge e).degr = true ∧ ((s.edge e).down = false → (t.edge e).train = some (s.edge e).cur)) ∧
    exec (.linkRecalibration e) s = .next s

/-- R12, R397, R400, R401: a lost edge (`edgeDown`) is down with rate 0, and the package's edge count advances, once; the first to be lost
changes no other edge; 100 µs later (`rerouteTimeout`) what a die still has outstanding from before the loss at a die to which its route used
that edge is written off, and of a pair of dies whose routes used no lost edge nothing is. -/
def Sys2Proof.Claims.LostEdgesAreWrittenOff : Prop :=
  (∀ s e, e < 4 → (s.edge e).down = true → exec (.edgeDown e) s = .next s) ∧
  (∀ s e, e < 4 → (s.edge e).down = false →
    ∃ t, exec (.edgeDown e) s = .next t ∧ (t.edge e).down = true ∧ (t.edge e).up = false ∧ (t.edge e).cur = 0 ∧ (t.edge e).train = none ∧
      (t.edge e).mods = (s.edge e).mods ∧ t.epoch = s.epoch + 1 ∧
      ((∀ f, f < 4 → (s.edge f).down = false) → (t.edge e).degr = true ∧ ∀ f, f ≠ e → t.edge f = s.edge f)) ∧
  (∀ s a b, a < 4 → b < 4 → (∀ e, e < 4 → ∀ n, (s.edge e).downAt = some n → n + 6553600000 ≤ s.time → ¬ UsedAt s a b e n ∧ ¬ UsedAt s b a e n) →
    exec (.rerouteTimeout a b) s = .next s) ∧
  ∀ s a b e n, a < 4 → b < 4 → a ≠ b → e < 4 → (s.edge e).downAt = some n → n + 6553600000 ≤ s.time → (UsedAt s a b e n ∨ UsedAt s b a e n) →
    (∀ k st, s.strand k = some st → st.lq = []) →
    ∃ t, exec (.rerouteTimeout a b) s = .next t ∧ t.mem = s.mem ∧ t.strands = s.strands ∧
      ∀ x y, Tab.find (s.die a).acks x = some y → y.home = b → y.pkg = false → y.at_ ≤ n →
        Tab.find (t.die a).acks x = some { y with lost := true }

/-- R335: the state of a fabric port (`fabricPortDown`, `fabricPortTrained`) and its counter of uncorrectable frames (`uncorrectableFrame`)
stand in its register, and nothing else changes; a line of another package is reached through the port that its address names where
that is up, and through none where no port is and nothing is outstanding. -/
def Sys2Proof.Claims.FabricPortsKeepTheirState : Prop :=
  ∀ s d n, d < 4 → n < 4 →
    (∃ t, exec (.fabricPortDown d n) s = .next t ∧ (t.reg d (0x908 + 8 * n)).toNat = (s.reg d (0x908 + 8 * n)).toNat / 16 * 16 ∧ SameButDie s t d) ∧
    (∃ t, exec (.fabricPortTrained d n) s = .next t ∧ (t.reg d (0x908 + 8 * n)).toNat = (s.reg d (0x908 + 8 * n)).toNat / 16 * 16 + 15 ∧ SameButDie s t d) ∧
    ((s.reg d (0x908 + 8 * n)).getLsbD 0 = true → s.fabricPort d n 4 = some n) ∧
    ((∀ p, p < 4 → (s.reg d (0x908 + 8 * p)).getLsbD 0 = false) → (∀ x ∈ (s.die d).acks, x.2.pkg = false) → s.fabricPort d n 4 = some 4) ∧
    ∃ t, exec (.uncorrectableFrame d n) s = .next t ∧ SameButDie s t d ∧
      (t.reg d (0x908 + 8 * n)).toNat / 2 ^ 32 = min ((s.reg d (0x908 + 8 * n)).toNat / 2 ^ 32 + 1) (2 ^ 32 - 1) ∧
      (t.reg d (0x908 + 8 * n)).toNat % 2 ^ 32 = (s.reg d (0x908 + 8 * n)).toNat % 2 ^ 32

/-- R333, R337, R394, R428: a host write (`hostCxlMemAccess`) through an enabled decoder to a die that is reached changes its bytes of HBM alone; a host
read within a line gets the bytes there, as poison where the line is poisoned, and changes no memory; where an edge on the way retrains
the access waits; a port that is lost (`hostPortDown`) is down, and one that is down already loses nothing more. -/
def Sys2Proof.Claims.HostPortsReachTheMemory : Prop :=
  (∀ s p (a : BitVec 64) len d o, p < 2 → s.hdmTarget p a.toNat = some (d, o) → p ∉ s.portsDown → (s.die (portDie p)).state = 3 →
    s.canReach (portDie p) d = true → o < 0x3000000000 → len ≠ 0 → a.toNat % 128 + len ≤ 128 →
    s.hostWaits p (s.hdmDies p a.toNat len) = false → s.hostL = [] →
    ∃ t, exec (.hostCxlMemAccess p a none len) s = .next t ∧ t.mem = s.mem ∧ t.poison = s.poison ∧ t.strands = s.strands ∧ t.dies = s.dies ∧
      Tab.getD t.hostGot p [] = (s.peek (.hbm d o) len).map fun b =>
        if s.poisoned ((Loc.hbm d o).line * 128) 128 then none else some b) ∧
  (∀ s p a wr len, p < 2 → s.hostWaits p (s.hdmDies p a.toNat len) = true →
    exec (.hostCxlMemAccess p a wr len) s = .next { s with waiting := s.waiting ++ [.mem p a wr len] }) ∧
  (∀ s p (a : BitVec 64) b len d o, p < 2 → (∀ i, i < (b.take len).length → s.hdmTarget p (a.toNat + i) = some (d, o + i)) →
    p ∉ s.portsDown → (s.die (portDie p)).state = 3 →
    s.canReach (portDie p) d = true → o + (b.take len).length ≤ 0x3000000000 → s.hostWaits p (s.hdmDies p a.toNat len) = false →
    ∃ t, exec (.hostCxlMemAccess p a (some b) len) s = .next t ∧ t.peek (.hbm d o) (b.take len).length = b.take len ∧ t.strands = s.strands ∧
      ∀ k, (k < (Loc.hbm d o).key ∨ (Loc.hbm d o).key + (b.take len).length ≤ k) → t.byte k = s.byte k) ∧
  ∀ s p, p < 2 → (p ∈ s.portsDown → exec (.hostPortDown p) s = .next s) ∧
    (p ∉ s.portsDown → ∃ t, exec (.hostPortDown p) s = .next t ∧ p ∈ t.portsDown ∧ t.time = s.time)

namespace Sys2Proof.Claims

open Sys2Proof.Machine

/-- Nothing of die `d` holds a reset up: it runs no launch and no launch elsewhere spans it, no copy and no strand of it is left, and
no cache holds dirty lines (R402). -/
structure Restful (s : State) (d : Nat) : Prop where
  quiet   : (s.die d).quiesce = none
  none_   : s.launchesAt d = []
  launches : (s.die d).launches = []
  copies  : (s.die d).copies = []
  strands : ∀ e ∈ s.strands, slotDie e.1 ≠ d
  l1      : s.dirtyL1 d = []
  l2      : (s.die d).l2 = []

/-- The bytes that no die reset touches: HBM, host memory and remote memory, all but the stores of the tiles (R402, R442). -/
def outsideTiles (k : Nat) : Prop := k < 2 ^ 55 ∨ 2 ^ 64 ≤ k

end Sys2Proof.Claims

open Sys2Proof Sys2Proof.Machine Sys2Proof.Claims

/-- R9, R338, R429: a write of PKG_SEM (`pkgSemWrite`) takes the free semaphore for its port, or frees one that the port holds; another port's is not
taken; a read by the holder (`pkgSemRead`) restarts the lease of 100 ms, and without an access it ends then (`pkgSemLeaseExpiry`); a write at
the very time of that end leaves EXPIRED 1. -/
def Sys2Proof.Claims.SemaphoreHasOneOwner : Prop :=
  (∀ s p (v : BitVec 64), p < 2 → p ∉ s.portsDown → s.portSees p 0 = true → s.hostWaits p [0] = false → (s.semOwner = 0 ∨ s.time < s.semLease) →
    ∃ t, exec (.pkgSemWrite p v) s = .next t ∧ t.mem = s.mem ∧ t.dies = s.dies ∧
      t.semExpired = (s.semExpired && !v.getLsbD 2) ∧
      (s.semOwner = 0 → t.semOwner.toNat = if v.toNat % 4 = p + 1 then p + 1 else 0) ∧
      (s.semOwner.toNat = p + 1 → t.semOwner.toNat = (if v.toNat % 4 = 0 then 0 else p + 1) ∧ t.semLease = s.time + 6553600000000) ∧
      (s.semOwner.toNat ≠ 0 → s.semOwner.toNat ≠ p + 1 → t.semOwner = s.semOwner ∧ t.semLease = s.semLease)) ∧
  (∀ s p, p < 2 → p ∉ s.portsDown → s.portSees p 0 = true → s.hostWaits p [0] = false → s.semOwner.toNat = p + 1 → s.time < s.semLease →
    ∃ t, exec (.pkgSemRead p) s = .next t ∧ t.semLease = s.time + 6553600000000 ∧ t.semOwner = s.semOwner ∧ t.mem = s.mem) ∧
  (∀ s p (v : BitVec 64), p < 2 → p ∉ s.portsDown → s.portSees p 0 = true → s.hostWaits p [0] = false → s.semOwner ≠ 0 → s.time = s.semLease →
    ∃ t, exec (.pkgSemWrite p v) s = .next t ∧ t.semExpired = true) ∧
  ∀ s, ((s.semOwner = 0 ∨ s.time < s.semLease) → exec .pkgSemLeaseExpiry s = .next s) ∧
    (s.semOwner ≠ 0 → s.semLease ≤ s.time → ∃ t, exec .pkgSemLeaseExpiry s = .next t ∧ t.semOwner = 0 ∧ t.semExpired = true ∧
      t.strands = s.strands ∧ t.edges = s.edges)

/-- R435, R441, R442: a package reset (`packageReset`) leaves no strand, every register, edge and tile at its reset value, and, with no
dirty line in a cache, the stores of the tiles zero and every other byte of memory as it was; the sideband's reset (`sbReset`) is the same; a port's own reset
(`portFundamentalReset`) brings its link back and touches nothing else. -/
def Sys2Proof.Claims.PackageResetLeavesTheResetState : Prop :=
  (∀ s, ∃ t, exec .packageReset s = .next t ∧ t.strands = [] ∧ t.tiles = [] ∧ t.edges = [] ∧ t.dies = [] ∧ t.time = 0 ∧ t.semOwner = 0 ∧
    t.semExpired = false ∧ t.epoch = 0 ∧ t.empties = [] ∧ t.portsDown = [] ∧ t.flash = s.flash ∧
    ((∀ d, d < 4 → Restful s d) → (∀ d k, d < 4 → inTiles d k = true → t.byte k = 0) ∧
      ∀ k, outsideTiles k → t.byte k = s.byte k)) ∧
  (∀ s v, exec (.sbReset v) s = if v.getLsbD 0 then exec .packageReset s else .next s) ∧
  ∀ s p, p < 2 → exec (.portFundamentalReset p) s = .next { s with portsDown := s.portsDown.filter (· != p) }

/-- R7, R402, R405, R439: a reset of a die that is at rest (`dieReset`), through the port that holds the semaphore, leaves it booting with
its registers, those of its edges that hold no state of the hardware, and its tiles at their reset values; without the semaphore nothing
happens; a thermal reset (`thermalReset`) holds it; no other die's memory changes. -/
def Sys2Proof.Claims.DieResetWipesTheDie : Prop :=
  (∀ s d p, d < 4 → Holds s p d → Restful s d →
    ∃ t, exec (.dieReset d p) s = .next t ∧ (t.die d).state = 0 ∧ (t.die d).quiesce = none ∧ (∀ off, t.reg d off = regReset off) ∧
      (t.die d).qslots = [] ∧ (t.die d).caps = [] ∧
      (∀ e ∈ dieEdges d, (t.edge e).fbthr = 64 ∧ (t.edge e).auto = true ∧ (t.edge e).tgt = 0 ∧ (t.edge e).crcerr = 0 ∧ (t.edge e).replays = 0 ∧
        (t.edge e).degr = false ∧ (t.edge e).denied = false ∧ (t.edge e).up = (s.edge e).up ∧ (t.edge e).mods = (s.edge e).mods) ∧ (∀ u, u / 24 = d → t.tile u = {}) ∧
      (∀ k, inTiles d k = true → t.byte k = 0) ∧ ∀ k, inTiles d k = false → t.byte k = s.byte k) ∧
  (∀ s d p, d < 4 → p < 2 → p ∉ s.portsDown → (s.half (portDie p)).contains 0 = true → s.semOwner.toNat ≠ p + 1 →
    (s.semOwner = 0 ∨ s.time < s.semLease) → s.hostWaits p [0, d] = false → exec (.dieReset d p) s = .next s) ∧
  ∀ s d, d < 4 → ((s.die d).state = 5 → exec (.thermalReset d) s = .next s) ∧
    (Restful s d → (s.die d).state ≠ 5 → ∃ t, exec (.thermalReset d) s = .next t ∧ (t.die d).state = 5 ∧
      ∀ k, inTiles d k = false → t.byte k = s.byte k)

/-- R435, R436: a die that boots goes from state to state (`bootStateAdvance`): training may fail, an image may be unreadable, one that does not verify
stops it, and one that does lets it run; a load (`firmwareLoad`) of an image that verifies, through the holding port, is written to flash, one
that does not only leaves its address in BOOT.CTL. -/
def Sys2Proof.Claims.DiesBootFromTheirImage : Prop :=
  (∀ s d, d < 4 → (s.die d).quiesce = none →
    ((s.die d).state = 0 → ∃ t, exec (.bootStateAdvance d) s = .next t ∧ (t.die d).state = 1 ∧ (t.die d).fail = 0 ∧ SameButDie s t d) ∧
    ((s.die d).state = 1 → ∃ t, exec (.bootStateAdvance d) s = .next t ∧ SameButDie s t d ∧
      ((t.die d).state = 2 ∧ (t.die d).fail = 0 ∨ (t.die d).state = 4 ∧ (t.die d).fail = 3)) ∧
    ((s.die d).state = 2 → ∃ t, exec (.bootStateAdvance d) s = .next t ∧ t.mem = s.mem ∧ t.strands = s.strands ∧
      ((t.die d).state = 3 ∧ imageOk s.image = true ∨ (t.die d).state = 4 ∧ (t.die d).fail = 2 ∨
        (t.die d).state = 4 ∧ (t.die d).fail = 1 ∧ imageOk s.image = false)) ∧
    (3 ≤ (s.die d).state → exec (.bootStateAdvance d) s = .next s)) ∧
  (∀ s d p hpa, d < 4 → p < 2 → p ∉ s.portsDown → (s.half (portDie p)).contains 0 = true → s.semOwner.toNat ≠ p + 1 →
    (s.semOwner = 0 ∨ s.time < s.semLease) → s.hostWaits p [0, d] = false → exec (.firmwareLoad d p hpa) s = .next s) ∧
  ∀ s d p (hpa : BitVec 64) m, d < 4 → Holds s p d → m = s.peek (.host p (hpa.toNat / 4096 % 2 ^ 36 * 4096)) (s.peekNat (.host p (hpa.toNat / 4096 % 2 ^ 36 * 4096)) 4) →
    s.poisoned (Loc.host p (hpa.toNat / 4096 % 2 ^ 36 * 4096)).key (s.peekNat (.host p (hpa.toNat / 4096 % 2 ^ 36 * 4096)) 4) = false →
    ∃ t, exec (.firmwareLoad d p hpa) s = .next t ∧
      (imageOk m = false ∧ t.flash = s.flash ∧ SameButDie s t d ∧ (t.reg d 0xE08).toNat / 2 ^ 12 % 2 ^ 36 = hpa.toNat / 2 ^ 12 % 2 ^ 36 ∨
        imageOk m = true ∧ t.flash = some m)

/-- R437: an attestation (`attestation`) captures the nonce registers and is BUSY; when it is done (`attestationDone`) the report begins with that nonce, BUSY is 0 and bit 2 is
1. -/
def Sys2Proof.Claims.AttestationReportsTheNonce : Prop :=
  ∀ s d, d < 4 →
    ((s.die d).state = 3 → (s.reg d 0xE40).getLsbD 1 = false →
      ∃ t, exec (.attestation d) s = .next t ∧ (t.die d).att = some ((([0xE48, 0xE50, 0xE58, 0xE60].map (s.reg d)).flatMap fun w => leBytes 8 w.toNat)) ∧
        (t.reg d 0xE40).getLsbD 1 = true ∧ SameButDie s t d) ∧
    ((s.die d).state = 3 → (s.reg d 0xE40).getLsbD 1 = true → exec (.attestation d) s = .next s) ∧
    ∀ n, (s.die d).att = some n → n.length = 32 →
      ∃ t, exec (.attestationDone d) s = .next t ∧ (t.die d).att = none ∧ (t.reg d 0xE40).getLsbD 1 = false ∧ (t.reg d 0xE40).getLsbD 2 = true ∧
        SameButDie s t d ∧ ∀ i, i < 4 → t.reg d (0xE80 + 8 * i) = wordAt n (8 * i)

namespace Sys2Proof.Claims

open Sys2Proof.Machine

end Sys2Proof.Claims

open Sys2Proof Sys2Proof.Machine Sys2Proof.Claims

/-- R231, R438: an offset written to TIME.ADJ (`timeAdjWrite`) is slewed by every replica of the die's half, and by no other; two seconds
without a write put a locked replica into holdover (`holdover`); a correction that is used up ends (`correctionSlewEnd`). -/
def Sys2Proof.Claims.TimeIsDisciplined : Prop :=
  (∀ s d (v : BitVec 64), d < 4 → (s.die d).state = 3 → ∃ t, exec (.timeAdjWrite d v) s = .next t ∧ t.time = s.time ∧ SameButDies s t ∧
    (∀ e, (s.half d).contains e = true → (t.die e).slew = (v.setWidth 48 : BitVec 48).toInt * 65536 ∧ (t.die e).slewing = true ∧
      (t.die e).holdover = false ∧ (t.die e).adjAt = some s.time ∧ (t.die e).lag = (s.die e).lag) ∧
    ∀ e, (s.half d).contains e = false → t.die e = s.die e) ∧
  (∀ s, ∃ t, exec .holdover s = .next t ∧ SameButDies s t ∧ ∀ e, e < 4 →
    (t.die e).holdover = ((s.die e).holdover || ((s.die e).timeLocked && match (s.die e).adjAt with
      | some n => decide (n + 131072000000000 ≤ s.time)
      | none => false))) ∧
  ∀ s, ∃ t, exec .correctionSlewEnd s = .next t ∧ SameButDies s t ∧ ∀ e, e < 4 →
    (t.die e).slewing = ((s.die e).slewing && decide ((s.die e).slew ≠ 0)) ∧ (t.die e).slew = (s.die e).slew

/-- R394, R439, R440: the throttle level (`throttle`), which rises while a limit is passed, and the telemetry (`telemetrySample`) stand in
their fields; scrubbing of SRAM (`sramScrub`) and the management of HBM rows (`hbmRowActivationManagement`) change nothing; the patrol
(`hbmPatrolScrub`) reports a poisoned line to the host fault queue as 0x05/0x0007, and it enters the lines told, so that it is reported once. -/
def Sys2Proof.Claims.PowerAndBackgroundActivity : Prop :=
  ∀ s d, d < 4 →
    (∀ thr, ∃ t, exec (.throttle d thr) s = .next t ∧ SameButDie s t d ∧
      (s.overLimit d = false → (t.reg d 0xF40).toNat / 2 ^ 8 % 2 ^ 8 = thr.toNat) ∧
      (s.overLimit d = true → thr.toNat ≤ (t.reg d 0xF40).toNat / 2 ^ 8 % 2 ^ 8 ∧
        ((s.reg d 0xF40).toNat / 2 ^ 8 % 2 ^ 8 < (t.reg d 0xF40).toNat / 2 ^ 8 % 2 ^ 8 ∨ (t.reg d 0xF40).toNat / 2 ^ 8 % 2 ^ 8 = 255)) ∧
      (t.reg d 0xF40).toNat / 2 ^ 16 = (s.reg d 0xF40).toNat / 2 ^ 16 ∧ (t.reg d 0xF40).toNat % 2 ^ 8 = (s.reg d 0xF40).toNat % 2 ^ 8) ∧
    (∀ w a c, ∃ t, exec (.telemetrySample d w a c) s = .next t ∧ SameButDie s t d ∧ (t.reg d 0xF40).toNat / 2 ^ 48 = w.toNat ∧
      (t.reg d 0xF40).toNat / 2 ^ 32 % 2 ^ 16 = a.toNat ∧ (t.reg d 0xF40).toNat / 2 ^ 24 % 2 ^ 8 = c.toNat ∧
      (t.reg d 0xF40).toNat % 2 ^ 24 = (s.reg d 0xF40).toNat % 2 ^ 24) ∧
    exec (.sramScrub d) s = .next s ∧ exec (.hbmRowActivationManagement d) s = .next s ∧
    ∀ pa, pa < 0x3000000000 →
      ((s.poisoned ((Loc.hbm d pa).line * 128) 128 = false ∨ (Loc.hbm d pa).line ∈ s.told) → exec (.hbmPatrolScrub d pa) s = .next s) ∧
      (s.poisoned ((Loc.hbm d pa).line * 128) 128 = true → (Loc.hbm d pa).line ∉ s.told →
        ∃ t, exec (.hbmPatrolScrub d pa) s = .next t ∧ (Loc.hbm d pa).line ∈ t.told ∧
          t.mem = (s.hostFault d { cls := 5, code := 7, addr := BitVec.ofNat 64 (pa / 128 * 128), src := 4 }).mem ∧
          t.dies = (s.hostFault d { cls := 5, code := 7, addr := BitVec.ofNat 64 (pa / 128 * 128), src := 4 }).dies ∧
          t.strands = s.strands ∧ t.tiles = s.tiles ∧ exec (.hbmPatrolScrub d pa) t = .next t)

/-- R392, R393, R395: a single-bit error (`singleBitError`) is corrected and counted; a double-bit error (`doubleBitError`) in HBM poisons its line, is counted, and is logged
where nothing is logged yet; no byte of memory changes. -/
def Sys2Proof.Claims.MemoryErrorsAreCountedAndPoison : Prop :=
  ∀ s d, d < 4 →
    (∀ hbm, ∃ t, exec (.singleBitError d hbm) s = .next t ∧ SameButDie s t d ∧
      (t.reg d 0xC00).toNat % 2 ^ 32 = (if hbm then min ((s.reg d 0xC00).toNat % 2 ^ 32 + 1) (2 ^ 32 - 1) else (s.reg d 0xC00).toNat % 2 ^ 32) ∧
      (t.reg d 0xC00).toNat / 2 ^ 32 = (if hbm then (s.reg d 0xC00).toNat / 2 ^ 32 else min ((s.reg d 0xC00).toNat / 2 ^ 32 + 1) (2 ^ 32 - 1))) ∧
    ∀ line, line * 128 < 0x3000000000 → ∃ t, exec (.doubleBitError d 0 line) s = .next t ∧ t.mem = s.mem ∧ t.strands = s.strands ∧
      t.tiles = s.tiles ∧ t.poisoned (Loc.hbm d (line * 128)).key 128 = true ∧
      (t.reg d 0xC08).toNat % 2 ^ 32 = min ((s.reg d 0xC08).toNat % 2 ^ 32 + 1) (2 ^ 32 - 1) ∧
      ((s.reg d 0xC10).getLsbD 0 = true → t.reg d 0xC10 = s.reg d 0xC10) ∧
      ((s.reg d 0xC10).getLsbD 0 = false → (t.reg d 0xC10).toNat = line * 128 + 1)

/-- R7, R8, R336, R404: a write (`registerWrite`) through a port that reaches a running die changes the writable bits of a plain register and nothing else; a
field that takes one write keeps it; a die that does not run, or cannot be reached, takes none; a package-wide write through a port
outside D0's half only sets PWDENIED there. -/
def Sys2Proof.Claims.RegisterWritesChangeWritableBits : Prop :=
  ∀ s d p (v : BitVec 64), d < 4 → p < 2 →
    ((s.portSees p d = false) → ∀ off, s.packageWide d off v = false → exec (.registerWrite d off v p) s = .next s) ∧
    (p ∉ s.portsDown → (s.half (portDie p)).contains 0 = false → ∀ off, s.packageWide d off v = true →
      ∃ t, exec (.registerWrite d off v p) s = .next t ∧ SameButDie s t (portDie p) ∧ (t.reg (portDie p) 0xA08).getLsbD 3 = true ∧
        ∀ o, o ≠ 0xA08 → t.reg (portDie p) o = s.reg (portDie p) o) ∧
    (s.portSees p d = true → (s.die d).state = 3 → s.hostWaits p [d] = false →
      (∀ off ∈ [0x100, 0x108, 0x200, 0x208, 0x210, 0x218, 0x220, 0x308, 0x400, 0x508, 0x510, 0x518, 0x608, 0x610, 0xB00, 0xB10, 0xD00, 0xD18, 0xF48],
        ∃ t, exec (.registerWrite d off v p) s = .next t ∧ SameButDie s t d ∧
          t.reg d off = (s.reg d off &&& ~~~(BitVec.ofNat 64 (regAccess d off).rw)) ||| (v &&& BitVec.ofNat 64 (regAccess d off).rw) ∧
          ∀ o, o ≠ off → t.reg d o = s.reg d o) ∧
      (∀ off ∈ [0x300, 0x600, 0x628, 0x900], off ∈ (s.die d).locked → exec (.registerWrite d off v p) s = .next s) ∧
      ∀ off ∈ [0x300, 0x600, 0x628, 0x900], off ∉ (s.die d).locked → ∃ t, exec (.registerWrite d off v p) s = .next t ∧ SameButDie s t d ∧
        off ∈ (t.die d).locked ∧
        t.reg d off = (s.reg d off &&& ~~~(BitVec.ofNat 64 (regAccess d off).rw)) ||| (v &&& BitVec.ofNat 64 (regAccess d off).rw)) ∧
    ((s.die d).state ≠ 3 → (s.die d).state ≠ 4 → s.hostWaits p [d] = false → ∀ off, (d ≠ 0 ∨ off ≠ 0xA00) → s.packageWide d off v = false → exec (.registerWrite d off v p) s = .next s)

namespace Sys2Proof.Claims

open Sys2Proof.Machine

/-- Scheduling fields of a word. -/
def hdr (d : BitVec 10) (susp : Bool := false) (pop push : BitVec 3 := 0) : Hdr := ⟨d, susp, pop, push⟩

/-- Example words of the spec and what each stands for (R73, R115, R117, R145, R149, R155, R174, R201, R209, R215, R217, R221, R229,
R236, R283). -/
def knownWords : List (Word × Instr) :=
  [(0x0008010000000000, .addi ⟨hdr 1, 0, 0, 0, none⟩),
    (0x000000E142C62200, .bfx ⟨hdr 0, 10, 11, 12, 0x2200, none⟩),
    (0x20000110E13B0040, .st ⟨hdr 0, 7, 4, 0x3B0040, none⟩),
    (0x2000019000000000, .qsync ⟨hdr 0, 0, 0, 0, 0, none⟩),
    (0x2000018B02038000, .tst ⟨hdr 0, 88, 8, 7, 0, none⟩),
    (0x2000029003805402, .amoInc ⟨hdr 0, 0, 14, 0, 0x5402, none⟩),
    (0x401D404081430003, .vfma ⟨hdr 3 true 2 4, 4, 5, 6, 3, none⟩),
    (0x4018000040681403, .vadd ⟨hdr 3, 2, 1, 80, 0x1403, none⟩),
    (0x6000004001828040, .mmul ⟨hdr 0, 0, 6, 5, 0x40, none⟩),
    (0x6000008B0380000D, .maccSt ⟨hdr 0, 88, 14, 0, 0xD, none⟩),
    (0x6000010001C00000, .lfwd ⟨hdr 0, 0, 7, 0, 0, none⟩),
    (0xA000000000000000, .align), (0xA004000000000000, .alignSuspend),
    (0xA004004100000011, .barArrwait ⟨hdr 0 true, 8, 0, 17, none⟩),
    (0xA00000BA69400000, .sigWait ⟨hdr 0, 0x53, 0x25, 0, none⟩),
    (0xA00000F0A1800000, .cqWake ⟨hdr 0, 5, 6, 0, none⟩)]

/-- What the record of a precise fault says of its strand, with the time at which the fault was detected (R364). -/
def strandSite (k : Nat) (st : Strand) (lc : Launch) (pc : Word) (ns : Nat) : Site :=
  { tag := lc.tag, die := slotDie k, tile := slotTile k % 24, slot := k % 8, sid := st.id.sid, pc := pc, crec := st.id.crec,
    oprec := lc.oprec, precise := true, ns := some ns }

/-- An event of a unit that the package does not have (R1, R11, R15 to R18). -/
def OfAbsentUnit (i : Instr) : Prop :=
  (∃ k, 768 ≤ k ∧ (i = .dispatchWord k ∨ i = .landingBufferWrite k ∨ i = .strandPickup k ∨ i = .loadDataArrival k ∨ i = .storePerform k ∨
    i = .atomicPerform k ∨ i = .matrixCommandStart k ∨ i = .matrixCommandRetire k ∨ i = .preemption k ∨ i = .heldArrival k)) ∨
  (∃ t, 96 ≤ t ∧ (i = .issueWindowExpiry t ∨ i = .arrayGrant t ∨ i = .chainRendezvous t)) ∨
  (∃ d n m, 4 ≤ d ∧ (i = .strandCreate d n m ∨ i = .copyLineLanding d n ∨ i = .queueMap d ∨ i = .launchBegin d n ∨ i = .iterationBoundary d ∨
    i = .invalidation d ∨ i = .cacheSweep d ∨ i = .edgeDown d ∨ i = .fabricPortDown d n ∨ i = .dieReset d n ∨ i = .attestation d ∨
    i = .doubleBitError d n m ∨ i = .thermalReset d)) ∨
  ∃ p, 2 ≤ p ∧ (i = .hostPortDown p ∨ i = .pkgSemRead p ∨ i = .portFundamentalReset p)

/-- An event row, of a unit that the package has: a slot, tile, die, edge, module, queue or port of R1, R11 and R15 to R18. -/
def OfPresentUnit (i : Instr) : Prop :=
  match i with
  | .dispatchWord k => k < 768
  | .landingBufferWrite k => k < 768
  | .issueWindowExpiry t => t < 96
  | .strandCreate d _ _ => d < 4
  | .strandPickup k => k < 768
  | .strandReady d _ _ => d < 4
  | .preemption k => k < 768
  | .rebalance d => d < 4
  | .reserveMaskWrite d _ => d < 4
  | .heldArrival k => k < 768
  | .leadCounterArrival lvl _ => lvl < 4
  | .queueSpaceAvailable d _ _ => d < 4
  | .itemAvailable d _ _ => d < 4
  | .signalReread d _ _ => d < 4
  | .timeTargetReached d _ _ => d < 4
  | .steal d _ => d < 4
  | .loadDataArrival k => k < 768
  | .storePerform k => k < 768
  | .atomicPerform k => k < 768
  | .storeAcknowledgement d _ => d < 4
  | .acknowledgementLoss d _ => d < 4
  | .copyLineLanding d _ => d < 4
  | .batchComplete d _ => d < 4
  | .arrayGrant t => t < 96
  | .matrixCommandStart k => k < 768
  | .matrixCommandRetire k => k < 768
  | .chainRendezvous t => t < 96
  | .handlerStrandCreate d _ => d < 4
  | .cqWakeWrite d q _ => d < 4 ∧ q < 4096
  | .queueMap d => d < 4
  | .queueUnmap d _ => d < 4
  | .forcedUnmap d => d < 4
  | .operator d _ => d < 4
  | .launchBegin d _ => d < 4
  | .launchRetire d _ => d < 4
  | .batchIteration d _ => d < 4
  | .batchAdmissionWake d _ => d < 4
  | .wait d _ => d < 4
  | .waitRecordSatisfied d _ => d < 4
  | .signal d _ => d < 4
  | .boundary d _ => d < 4
  | .transfer d _ => d < 4
  | .nop d _ => d < 4
  | .transferJobComplete d _ => d < 4
  | .regionGrant d => d < 4
  | .queueBind d => d < 4
  | .revoke d => d < 4
  | .queueUnbind d => d < 4
  | .flush d => d < 4
  | .wdogExpiry d _ => d < 4
  | .iterationBoundary d => d < 4
  | .invalidation d => d < 4
  | .invalidationComplete d => d < 4
  | .priAnswer d _ _ _ => d < 4
  | .priTimeout d _ => d < 4
  | .priClear d => d < 4
  | .atsInvalidationRequest p _ _ _ => p < 2
  | .cacheSweep d => d < 4
  | .sweepDone d => d < 4
  | .overdrive e p _ => e < 4 ∧ p < 2
  | .edgeTrainingComplete e _ => e < 4
  | .automaticStepDown e => e < 4
  | .moduleWidthHalving e m => e < 4 ∧ m < 12
  | .flitCrcError e => e < 4
  | .edgeDown e => e < 4
  | .rerouteTimeout a b => a < 4 ∧ b < 4
  | .fabricPortDown d n => d < 4 ∧ n < 4
  | .hostPortDown p => p < 2
  | .hostCxlMemAccess p _ _ _ => p < 2
  | .pkgSemWrite p _ => p < 2
  | .pkgSemLeaseExpiry => True
  | .packageReset => True
  | .portFundamentalReset p => p < 2
  | .sbReset _ => True
  | .dieReset d p => d < 4 ∧ p < 2
  | .bootStateAdvance d => d < 4
  | .firmwareLoad d p _ => d < 4 ∧ p < 2
  | .attestation d => d < 4
  | .attestationDone d => d < 4
  | .timeAdjWrite d _ => d < 4
  | .holdover => True
  | .throttle d _ => d < 4
  | .thermalReset d => d < 4
  | .telemetrySample d _ _ _ => d < 4
  | .hbmPatrolScrub d _ => d < 4
  | .sramScrub d => d < 4
  | .linkRecalibration e => e < 4
  | .hbmRowActivationManagement d => d < 4
  | .singleBitError d _ => d < 4
  | .doubleBitError d _ _ => d < 4
  | .registerWrite d _ _ p => d < 4 ∧ p < 3
  | .pkgSemRead p => p < 2
  | .spareLaneRepair e => e < 4
  | .fabricPortTrained d n => d < 4 ∧ n < 4
  | .correctionSlewEnd => True
  | .uncorrectableFrame d n => d < 4 ∧ n < 4
  | _ => False

/-- The cells of class F in the order of their opcodes (R105). -/
def functionRow (k : Nat) (a : RForm) : Option Instr :=
  [.exp2 a, .log2 a, .rcp a, .rsqrt a, .sqrt a, .tanh a, .sigm a, .erf a, .fcvt a, .fcvtI a][k]?

/-- The cells of class M (R106). -/
def matrixRow (k : Nat) (a : RForm) (b : IForm) : Option Instr :=
  if k < 16 then
    [.mlease b, .mrel a, .mldw a, .mswap a, .mmul a, .mchain a, .mrnd b, .mclr a, .maccSt a, .mdrain a][k]?
  else [.lfwd a, .ldgrad a, .lwgrad a, .lupd a, .mcload a][k - 16]?

/-- The cells of class Y after align (R107). -/
def syncRow (k : Nat) (b : IForm) : Option Instr :=
  if k = 0 then none
  else [.barInit b, .barArrive b, .barWait b, .barArrwait b, .domJoin b, .domLeave b, .domSync b, .sqPut b, .sqGet b, .spawn b,
    .sigWait b, .sigSet b, .waitTime b, .prio b, .cqWake b][k - 1]?

end Sys2Proof.Claims

open Sys2Proof Sys2Proof.Machine Sys2Proof.Claims

/-- R105, R106, R107: the words of classes F, M and Y decode to the cells of the tables under their opcodes, with an extension word only
where the table marks the cell with +; each cell encodes to its class and opcode; a Y word carries no DELAY, POP or PUSH. -/
def Obligations.CellsOfTheFunctionMatrixAndSyncClasses : Prop :=
  (∀ w v i, decodeWords w v = .ok (i, 8) →
    (clsOf w = 4 → ∃ a, functionRow (opcOf w) a = some i) ∧ (clsOf w = 3 → ∃ a b, matrixRow (opcOf w) a b = some i) ∧
    (clsOf w = 5 → (opcOf w = 0 ∧ (i = .align ∨ i = .alignSuspend)) ∨ ∃ b, syncRow (opcOf w) b = some i)) ∧
  (∀ w v i, decodeWords w v = .ok (i, 16) →
    clsOf v ≠ 4 ∧ (clsOf v = 3 → 16 ≤ opcOf v ∧ ∃ a b, matrixRow (opcOf v) a b = some i) ∧
    (clsOf v = 5 → opcOf v ∈ [10, 11, 12, 15] ∧ ∃ b, syncRow (opcOf v) b = some i)) ∧
  (∀ k a b i, k < 256 → i.wf = true →
    (functionRow k a = some i → (encode i).getLast?.map (fun w => (clsOf w, opcOf w)) = some (4, k)) ∧
    (matrixRow k a b = some i → (encode i).getLast?.map (fun w => (clsOf w, opcOf w)) = some (3, k)) ∧
    (syncRow k b = some i → (encode i).getLast?.map (fun w => (clsOf w, opcOf w)) = some (5, k))) ∧
  ∀ w v i n, decodeWords w v = .ok (i, n) → insCls i = 5 → (insHdr i).delay = 0 ∧ (insHdr i).pop = 0 ∧ (insHdr i).push = 0

/-- A step runs what its first agenda number names: for the front end of a slot whose fetched word stands first in its queue and is not
late, that word, the dispatcher waiting no longer (R424); for a word at the head of an engine queue, that word (R77, R78; the agenda is the
model's own, notes/assumptions/5). -/
def Obligations.StepRunsTheDecodedInstruction : Prop :=
  (∀ s k rest st i j s1 u, k < 768 → s.agenda = k :: rest → s.strand k = some st → st.stop = none → st.disp = none → st.want = false →
    st.hold = .run → ({ s with agenda := rest } : State).fetchInstr k st = .ok (.inl i) s1 → j = rotIns st.base.toNat i → st.place i = some u →
    u.tooLate i = none → (∀ c, ∀ w ∈ st.queue c, w.seq < st.seq) → (consumed j = true ∨ st.queue (insCls j) = []) →
    Host.Core.step Sys2Proof.core s = exec j { ((s1.setStrand k (u.unwaits 6)).idled k (u.lastWait 6)) with cur := k }) ∧
  (∀ s k c st w l rest, k < 768 → c < 6 → s.agenda = (768 * (c + 1) + k) :: rest → s.strand k = some st → st.queue c = w :: l →
    Host.Core.step Sys2Proof.core s = exec w.ins { s with agenda := rest, cur := k }) ∧
  (∀ (s : State) k st (b : List Byte) s1 i n, s.strand k = some st → offMemory st.pc.toNat 8 = false →
    s.readVa (s.whoOf k st) kFetch st.pc.toNat 8 = .ok b s1 → clsOf (BitVec.ofNat 64 (leNat b)) ≠ 7 →
    decodeWords (BitVec.ofNat 64 (leNat b)) 0 = .ok (i, n) → s.fetchInstr k st = .ok (.inl i) s1) ∧
  ∀ (s : State) k st (b c : List Byte) s1 s2 i n, s.strand k = some st → offMemory st.pc.toNat 8 = false → offMemory (st.pc + 8).toNat 8 = false →
    s.readVa (s.whoOf k st) kFetch st.pc.toNat 8 = .ok b s1 → s1.readVa (s1.whoOf k st) kFetch (st.pc + 8).toNat 8 = .ok c s2 →
    clsOf (BitVec.ofNat 64 (leNat b)) = 7 →
    decodeWords (BitVec.ofNat 64 (leNat b)) (BitVec.ofNat 64 (leNat c)) = .ok (i, n) → s.fetchInstr k st = .ok (.inl i) s2

/-- R73, R76, R108, R217 and the example words of the spec: each decodes to the instruction that it is printed for, and the words that
the spec calls illegal are refused with their codes. -/
def Obligations.ExampleWordsDecode : Prop :=
  (∀ e ∈ knownWords, decodeWords e.1 0 = .ok (e.2, 8) ∧ encode e.2 = [e.1]) ∧
  decodeWords 0xE2468ACF13578000 0x000001702000DEF0 =
    .ok (.li ⟨hdr 0, 1, 0, 0xDEF0, some 0x123456789ABC⟩, 16) ∧
  decodeWords 0x60000FF000000000 0 = .error (.illegal 2 false) ∧ decodeWords 0xA008000000000000 0 = .error (.illegal 6 false) ∧
  decodeWords 0xE000000000002000 0 = .error (.illegal 7 true) ∧ decodeWords 0xC000000000000000 0 = .error (.illegal 1 false)

/-- R435, R442: after reset no strand, launch, queue or cached line is there; memory lists nothing, every full bit is 1, no barrier has
an owner; the registers hold the reset values of R45, R302, R332, R418 and R439, and all others 0; the semaphore is free. -/
def Sys2Proof.Claims.ResetStandsAtTheResetValues : Prop :=
  (∀ k, State.reset.strand k = none) ∧ (∀ a, State.reset.byte a = 0) ∧ (∀ t n, State.reset.full t n = true) ∧
  (∀ t n, (State.reset.bar t n).owner = none) ∧ (∀ t, (State.reset.tile t).lessee = none ∧ (State.reset.tile t).active = none) ∧
  (∀ d, (State.reset.die d).state = 0 ∧ (State.reset.die d).mask = 0x820820#24 ∧ (State.reset.die d).qslots = [] ∧
    (State.reset.die d).launches = [] ∧ (State.reset.die d).caps = [] ∧ (State.reset.die d).tlb = []) ∧
  (∀ d, State.reset.reg d 0x308 = 0x640000 ∧ State.reset.reg d 0x400 = 0x820820 ∧ State.reset.reg d 0x630 = 1000 ∧
    State.reset.reg d 0xF48 = 3600 ∧ ∀ off, off ∉ [0x308, 0x400, 0x630, 0xF48] → State.reset.reg d off = 0) ∧
  (∀ e, (State.reset.edge e).fbthr = 64 ∧ (State.reset.edge e).auto = true ∧ (State.reset.edge e).up = false ∧ (State.reset.edge e).mods = 0) ∧
  State.reset.semOwner = 0 ∧ State.reset.semExpired = false ∧ State.reset.time = 0 ∧ State.reset.epoch = 0

/-- The invariant holds after reset (its form of memory is the model's own, notes/assumptions/2). -/
def Sys2Proof.Claims.InvariantHoldsAtReset : Prop := State.reset.Inv

/-- Every step keeps the canonical form of memory, from every state that has it (notes/assumptions/2: equal memories are equal
lists). -/
def Obligations.EveryStepKeepsTheInvariant : Prop :=
  ∀ s t, s.Inv → Host.Core.step Sys2Proof.core s = .next t → t.Inv

/-- R73, R76, R102 to R107: every well-formed program instruction decodes from its own bytes, whatever follows them, with every operand at
every value that its encoding admits. -/
def Sys2Proof.Claims.DecodingInvertsEncoding : Prop :=
  ∀ i rest, i.cell.isSome = true → i.wf = true → decode (encodeBytes i ++ rest) = .ok (i, rest)

/-- R237, R238: so does every well-formed micro-operation; and a program word that decodes is the word that its instruction encodes
to, so that each word has one meaning (R73, R108). -/
def Sys2Proof.Claims.EncodingInvertsDecoding : Prop :=
  (∀ i w, i.illegal = none → encodeUop i = some w → decodeUop w = some i) ∧
  (∀ w i, decodeUop w = some i → encodeUop i = some w) ∧
  ∀ w v i n, decodeWords w v = .ok (i, n) → encode i = if n = 8 then [w] else [w, v]

/-- R1, R11, R15 to R18: an event of a die, tile, slot, edge or port that the package does not have stops with `noSuchUnit`. -/
def Sys2Proof.Claims.EventsOfAbsentUnitsStop : Prop := ∀ i s, OfAbsentUnit i → exec i s = .fault .noSuchUnit

/-- R1, R11, R15 to R18: every event of a unit that the package has completes, from every state; what it does, the statements of its
family say. -/
def Obligations.EventsCompleteOnTheirUnits : Prop := ∀ i s, OfPresentUnit i → ∃ t, exec i s = .next t

/-- R362 to R366, R384: a fault of a strand that has come to rest, whose launch has a handler with room in its ring: the strand leaves
its slot and stands among the stopped strands of its launch with its trap registers written (R131), and the record is the next of
the ring. -/
def Sys2Proof.Claims.DeliveredFaultLeavesTheSlot : Prop :=
  ∀ (s : State) k (st : Strand) (lc : Launch) (f : Flt) (pc : Word) e (u : Strand) (v y : State) (lv : Launch), s.strand k = some st →
    st.stop = none → st.sq = [] → st.mops = [] → st.mac = none → st.mq = [] → st.fresh = [] → st.disp = none →
    s.backWaits (s.l1s (slotTile k)) [1, 2] = false →
    (∀ a ∈ s.owedG st.id.uid, a.lost = true) → st.id.handler = false → s.launch (slotDie k) st.id.launch = some lc → lc.word 4 ≠ 0 → f.cls ≠ 9 →
    u = { st with
      stop := some { f := f, pc := pc, feng := e, seq := st.seqAt e 0, at_ := s.ns (slotDie k) }
      fq := 0
      id := { st.id with
        cause := BitVec.ofNat 64 (f.cls % 256 * 2 ^ 24 + f.code % 65536)
        tpc := pc &&& 0xFFFFFFFFFFFFF8
        taddr := f.addr &&& 0xFFFFFFFFFFFFFF } } →
    ((((s.unwait k st).setStrand k u).tidy k u.id).saveContext k u { f := f, pc := pc, feng := e, seq := st.seqAt e 0, at_ := s.ns (slotDie k) }) = .ok () v →
    (v.vacate k).launch (slotDie k) st.id.launch = some lv → lv.no = st.id.launch → lv.hseq < lv.hnext + 32 →
    (v.vacate k).writeVa (cpWho (slotDie k) lv.ctx) kStore ((lv.word 5).toNat + 64 * (lv.hseq % 32))
      (wordBytes (v.faultRecord f (strandSite k st lc pc (s.ns (slotDie k))))) = .ok () y →
    (y.reg (slotDie k) 0xB08).getLsbD 8 = false → y.launch (slotDie k) st.id.launch = some lv → y.strand k = none →
    ∃ t lt x, s.takeFault k f pc e = t ∧ t.strand k = none ∧ t.mem = y.mem ∧ t.launch (slotDie k) st.id.launch = some lt ∧
      lt.hseq = lv.hseq + 1 ∧ lt.stopped = lv.stopped ++ [(x, lv.hseq)] ∧ x.id.uid = st.id.uid ∧ x.full = true ∧
      x.id.cause = u.id.cause ∧ x.id.tpc = u.id.tpc ∧ x.id.taddr = u.id.taddr

namespace Sys2Proof.Claims

open Sys2Proof.Machine

end Sys2Proof.Claims

open Sys2Proof Sys2Proof.Machine Sys2Proof.Claims

/-- R114, R117: the scalar results and the bit-field insert. -/
def Obligations.ScalarAndBitFieldResults : Prop := ScalarResultsAreTheExactIntegers ∧ BitFieldInsertKeepsTheOtherBits

/-- R125, R126, R131: system registers, format words, and the write that faults. -/
def Obligations.SystemRegistersAndFormatWords : Prop := SystemAndFormatWords ∧ WriteOfMembershipWhileJoinedFaults

/-- R133, R362 to R366: a trap, and how a fault reaches its handler. -/
def Obligations.TrapsAndDeliveredFaults : Prop := TrapStopsItsStrand ∧ DeliveredFaultLeavesTheSlot

/-- R24, R25, R135: yield and halt, from issue to the empty slot. -/
def Obligations.YieldAndHalt : Prop :=
  YieldAndHaltOpenASuspensionPoint ∧ SuspensionPointTestsItsQueues ∧ YieldReturnsToTheReadyList ∧ HaltEndsTheStrand

/-- R141: the address generator, and aout. -/
def Obligations.GeneratorWords : Prop := GeneratorResults ∧ CompareOutcomeEntersTheBranchQueue

/-- R82, R86, R142, R149: loads, stores, qsync and fence enter the queues of the access engine. -/
def Obligations.AccessesEnterTheirQueues : Prop := LoadsEnterTheLoadQueue ∧ StoresEnterTheStoreQueue ∧ SyncAndFenceEnterBothQueues

/-- R144, R154, R394: the full bits of the scratchpad. -/
def Obligations.FullEmptyBits : Prop := FullBitsAreSetAndCleared ∧ FullEmptyAccessesHandOverALine

/-- R158 to R160: copies that are accepted, the lines that they write, and the batches that they belong to. -/
def Obligations.CopiesLandAndBatchesComplete : Prop := AcceptedCopyOpensABatch ∧ CopiedLineLandsAndIsFull ∧ ClosedBatchCompletes

/-- The reductions and the prefix sums over lanes. -/
def Obligations.ReductionsAndPrefixSums : Prop := Reductions ∧ PrefixSums

/-- R187, R377: the rows of the accumulator store. -/
def Obligations.AccumulatorRowAccess : Prop := AccumulatorQuarters ∧ AccumulatorRowOverrunFaults

/-- R192 to R194: words of class M with a lease enter the command queue, and fault without one. -/
def Obligations.MatrixWordsNeedALease : Prop := MatrixWordsEnterTheCommandQueue ∧ MatrixWordWithoutLeaseFaults

/-- The commands of the array from their start to their retirement. -/
def Obligations.MatrixCommandsStartAndRetire : Prop := CommandStartsWhereItsBoundsAreMet ∧ RetiredCommandLeavesTheQueue

/-- R202, R208 and the weight update: what the rows hold afterwards. -/
def Obligations.RowsClearedAndUpdated : Prop := SegmentUpdatesItsLanes ∧ SegmentsOfARowMakeTheRow ∧ ClearedRowsReadZero ∧ WeightUpdateRow

/-- The layer macros and the microcode load enter the command queue. -/
def Obligations.LayerMacroWords : Prop := LayerMacrosEnterTheCommandQueue ∧ MicrocodeLoadEntersTheCommandQueue

/-- The micro-operations of macros. -/
def Obligations.MicroOperations : Prop := RegisterMicroOperations ∧ ArrayMicroOperations

/-- Blocked strands become ready when what they wait for is there. -/
def Obligations.WaitersAreServed : Prop :=
  CompletedPhaseReleasesItsWaiters ∧ CompletedWaitMakesReady ∧ ItemsEnterInOrder ∧ StageQueuesServeTheirWaiters ∧ SignalsAndTimesWakeTheirWaiters

/-- R30, R83: the landing buffer, the issue window, counters and held arrivals. -/
def Obligations.LandingWindowsAndCounters : Prop :=
  LandingBufferWritesWhatIsDue ∧ WindowExpiryKeepsReadySlots ∧ CountersAndHeldArrivalsReachTheirPlaces

/-- Strands of a stage, and those of a handler. -/
def Obligations.StrandsAreCreated : Prop := StrandCreation ∧ HandlerStrandIsCreated

/-- R45, R46, R383: pre-emption, and the mask of reserved tiles. -/
def Obligations.PreemptionAndReservedTiles : Prop := PreemptionStopsTheDisplaced ∧ ReserveMaskTakesEffectAtRebalance

/-- R264 and the stolen ranges. -/
def Obligations.AcknowledgementsAndStolenRanges : Prop := AcknowledgementsReturnOrAreLost ∧ StolenRangeIsInstalled

/-- Records of queues: their start, the end of waits, and transfers. -/
def Obligations.RecordsStartAndWaitsEnd : Prop := RecordsOfQueuesStart ∧ WaitsEndAndTransfersRun

/-- Launches from their begin to their retirement, batched ones among them. -/
def Obligations.LaunchesRun : Prop := LaunchesBeginAndRetire ∧ BatchedLaunchesIterate

/-- The mailbox, queue flushes and the watchdog. -/
def Obligations.MailboxFlushesAndWatchdog : Prop := MailboxCommandsComplete ∧ FlushesAndTheWatchdog

/-- Invalidation, page requests and cache sweeps. -/
def Obligations.TranslationAndCacheSweeps : Prop := InvalidationRemovesWhatItCovers ∧ PageRequestsAreAnswered ∧ SweepsEmptyTheCaches

/-- R289, R292: the boundary and the grants of its second pass. -/
def Obligations.GovernorBoundaries : Prop := EmptyBoundaryCompletes ∧ GrantsKeepWithinTheBudget

/-- The die edges: rates, training, errors and losses. -/
def Obligations.DieEdges : Prop := RateWritesNeedTheSemaphore ∧ EdgesTrainAndStepDown ∧ EdgeErrorsAreCounted ∧ LostEdgesAreWrittenOff

/-- The fabric ports and the host ports. -/
def Obligations.FabricAndHostPorts : Prop := FabricPortsKeepTheirState ∧ HostPortsReachTheMemory

/-- The package semaphore, and the resets. -/
def Obligations.SemaphoreAndResets : Prop := SemaphoreHasOneOwner ∧ PackageResetLeavesTheResetState ∧ DieResetWipesTheDie

/-- Boot of a die and its attestation. -/
def Obligations.BootAndAttestation : Prop := DiesBootFromTheirImage ∧ AttestationReportsTheNonce

/-- Time, power, memory errors, register writes, and events of absent units. -/
def Obligations.TimePowerAndErrors : Prop :=
  TimeIsDisciplined ∧ PowerAndBackgroundActivity ∧ MemoryErrorsAreCountedAndPoison ∧ RegisterWritesChangeWritableBits ∧ EventsOfAbsentUnitsStop

/-- R435, R442: what reset leaves, and that the invariant holds there. -/
def Obligations.ResetStateAndItsInvariant : Prop := ResetStandsAtTheResetValues ∧ InvariantHoldsAtReset

/-- R73, R76, R237, R238: decode and encode agree, both ways. -/
def Obligations.DecodeAndEncodeAgree : Prop := DecodingInvertsEncoding ∧ EncodingInvertsDecoding
end

