-- ==== Sys2Proof/Laws/Tab.lean ====
section
/-! SUPPORT. Laws of tables: what is found after a write or a removal, and that both keep the canonical form. -/

namespace Sys2Proof.Machine

/-! ### Finding after writing -/

@[simp] theorem Tab.find_nil {α : Type} (a : Nat) : Tab.find ([] : Tab α) a = none := rfl

@[simp] theorem Tab.find_put_self {α : Type} (t : Tab α) (a : Nat) (v : α) : Tab.find (Tab.put t a v) a = some v := by
  induction t with
  | nil => simp [Tab.put, Tab.find]
  | cons e l ih =>
    obtain ⟨b, w⟩ := e
    simp only [Tab.put]
    split
    · simp [Tab.find]
    · split
      · simp [Tab.find]
      · simp [Tab.find, *]

@[simp] theorem Tab.find_put_ne {α : Type} (t : Tab α) {a b : Nat} (v : α) (h : b ≠ a) :
    Tab.find (Tab.put t a v) b = Tab.find t b := by
  induction t with
  | nil => simp [Tab.put, Tab.find, h]
  | cons e l ih =>
    obtain ⟨c, w⟩ := e
    simp only [Tab.put]
    split
    · simp [Tab.find, h]
    · split
      · subst_vars; simp [Tab.find, h]
      · simp [Tab.find, ih]

@[simp] theorem Tab.find_del_self {α : Type} (t : Tab α) (a : Nat) : Tab.find (Tab.del t a) a = none := by
  induction t with
  | nil => rfl
  | cons e l ih =>
    obtain ⟨b, w⟩ := e
    simp only [Tab.del]
    split
    · exact ih
    · simp [Tab.find, *]

@[simp] theorem Tab.find_del_ne {α : Type} (t : Tab α) {a b : Nat} (h : b ≠ a) : Tab.find (Tab.del t a) b = Tab.find t b := by
  induction t with
  | nil => rfl
  | cons e l ih =>
    obtain ⟨c, w⟩ := e
    simp only [Tab.del]
    split
    · subst_vars; simpa [Tab.find, h] using ih
    · simp [Tab.find, ih]

@[simp] theorem Tab.getD_put_self {α : Type} (t : Tab α) (a : Nat) (v d : α) : Tab.getD (Tab.put t a v) a d = v := by
  simp [Tab.getD]

@[simp] theorem Tab.getD_put_ne {α : Type} (t : Tab α) {a b : Nat} (v d : α) (h : b ≠ a) :
    Tab.getD (Tab.put t a v) b d = Tab.getD t b d := by
  simp [Tab.getD, h]

@[simp] theorem Tab.getD_nil {α : Type} (a : Nat) (d : α) : Tab.getD ([] : Tab α) a d = d := rfl

@[simp] theorem Cells.get_nil {w : Nat} (a : Nat) : Cells.get ([] : Cells w) a = 0 := rfl

/-- Reading after writing the same key gives the value written. -/
@[simp] theorem Cells.get_set_self {w : Nat} (c : Cells w) (a : Nat) (v : BitVec w) : Cells.get (Cells.set c a v) a = v := by
  simp only [Cells.get, Cells.set]
  split <;> simp_all

/-- A write leaves every other key as it was. -/
@[simp] theorem Cells.get_set_ne {w : Nat} (c : Cells w) {a b : Nat} (v : BitVec w) (h : b ≠ a) :
    Cells.get (Cells.set c a v) b = Cells.get c b := by
  simp only [Cells.get, Cells.set]
  split <;> simp [h]

/-! ### The canonical form -/

/-- The keys of a table rise, all of them above `n`. -/
def Tab.risingFrom {α : Type} (n : Nat) : Tab α → Bool
  | [] => true
  | (a, _) :: l => n ≤ a && Tab.risingFrom (a + 1) l

theorem Tab.risingFrom_mono {α : Type} {m n : Nat} (h : m ≤ n) : ∀ {t : Tab α}, Tab.risingFrom n t = true → Tab.risingFrom m t = true
  | [], _ => rfl
  | (a, _) :: _, ht => by
    simp only [Tab.risingFrom, Bool.and_eq_true, decide_eq_true_eq] at ht ⊢
    exact ⟨by omega, ht.2⟩

theorem Tab.rising_iff {α : Type} : ∀ t : Tab α, Tab.rising t = Tab.risingFrom 0 t
  | [] => rfl
  | [_] => rfl
  | (a, _) :: (b, w) :: l => by
    have ih := Tab.rising_iff ((b, w) :: l)
    simp only [Tab.rising, ih, Tab.risingFrom, Nat.zero_le, decide_true, Bool.true_and]
    congr 1

theorem Tab.risingFrom_put {α : Type} {n a : Nat} (v : α) (h : n ≤ a) :
    ∀ {t : Tab α}, Tab.risingFrom n t = true → Tab.risingFrom n (Tab.put t a v) = true
  | [], _ => by simp [Tab.put, Tab.risingFrom, h]
  | (b, w) :: l, ht => by
    simp only [Tab.risingFrom, Bool.and_eq_true, decide_eq_true_eq] at ht
    simp only [Tab.put]
    split
    · simp [Tab.risingFrom, h, ht.2]; omega
    · split
      · subst_vars; simp [Tab.risingFrom, h, ht.2]
      · simp only [Tab.risingFrom, Bool.and_eq_true, decide_eq_true_eq]
        exact ⟨ht.1, Tab.risingFrom_put v (by omega) ht.2⟩

theorem Tab.risingFrom_del {α : Type} {n : Nat} (a : Nat) :
    ∀ {t : Tab α}, Tab.risingFrom n t = true → Tab.risingFrom n (Tab.del t a) = true
  | [], _ => rfl
  | (b, w) :: l, ht => by
    simp only [Tab.risingFrom, Bool.and_eq_true, decide_eq_true_eq] at ht
    simp only [Tab.del]
    split
    · exact Tab.risingFrom_mono (by omega) (Tab.risingFrom_del a ht.2)
    · simp only [Tab.risingFrom, Bool.and_eq_true, decide_eq_true_eq]
      exact ⟨ht.1, Tab.risingFrom_del a ht.2⟩

theorem Tab.rising_put {α : Type} {t : Tab α} (a : Nat) (v : α) (h : Tab.rising t = true) : Tab.rising (Tab.put t a v) = true := by
  rw [Tab.rising_iff] at *; exact Tab.risingFrom_put v (Nat.zero_le a) h

theorem Tab.rising_del {α : Type} {t : Tab α} (a : Nat) (h : Tab.rising t = true) : Tab.rising (Tab.del t a) = true := by
  rw [Tab.rising_iff] at *; exact Tab.risingFrom_del a h

theorem Tab.mem_put {α : Type} {t : Tab α} {a : Nat} {v : α} {e : Nat × α} (h : e ∈ Tab.put t a v) : e = (a, v) ∨ e ∈ t := by
  induction t with
  | nil => simpa [Tab.put] using h
  | cons f l ih =>
    obtain ⟨b, w⟩ := f
    simp only [Tab.put] at h
    split at h
    · simpa using h
    · split at h
      · rcases List.mem_cons.mp h with h | h
        · exact .inl h
        · exact .inr (List.mem_cons_of_mem _ h)
      · rcases List.mem_cons.mp h with h | h
        · exact .inr (h ▸ List.mem_cons_self)
        · exact (ih h).imp_right (List.mem_cons_of_mem _)

theorem Tab.mem_del {α : Type} {t : Tab α} {a : Nat} {e : Nat × α} (h : e ∈ Tab.del t a) : e ∈ t := by
  induction t with
  | nil => simp [Tab.del] at h
  | cons f l ih =>
    obtain ⟨b, w⟩ := f
    simp only [Tab.del] at h
    split at h
    · exact List.mem_cons_of_mem _ (ih h)
    · rcases List.mem_cons.mp h with h | h
      · exact h ▸ List.mem_cons_self
      · exact List.mem_cons_of_mem _ (ih h)

/-- Writing keeps the canonical form of a table of bit vectors. -/
theorem Cells.wf_set {w : Nat} {c : Cells w} (a : Nat) (v : BitVec w) (h : Cells.wf c = true) : Cells.wf (Cells.set c a v) = true := by
  simp only [Cells.wf, Bool.and_eq_true, List.all_eq_true] at h ⊢
  simp only [Cells.set]
  split
  · exact ⟨Tab.rising_del a h.1, fun e he => h.2 e (Tab.mem_del he)⟩
  · rename_i hv
    refine ⟨Tab.rising_put a v h.1, fun e he => ?_⟩
    rcases Tab.mem_put he with rfl | he
    · simpa using hv
    · exact h.2 e he

@[simp] theorem Cells.wf_nil {w : Nat} : Cells.wf ([] : Cells w) = true := rfl

end Sys2Proof.Machine
end

