-- ==== Sys2Proof/Laws/State.lean ====
section
/-! SUPPORT. Laws of the named updates: one lemma for each field of the state or of a strand and each update. -/

namespace Sys2Proof.Machine

/-! ### State.setDie -/

@[simp] theorem State.setDie_mem (s : State) (d : Nat) (x : Die) : (s.setDie d x).mem = s.mem := rfl
@[simp] theorem State.setDie_empties (s : State) (d : Nat) (x : Die) : (s.setDie d x).empties = s.empties := rfl
@[simp] theorem State.setDie_poison (s : State) (d : Nat) (x : Die) : (s.setDie d x).poison = s.poison := rfl
@[simp] theorem State.setDie_marks (s : State) (d : Nat) (x : Die) : (s.setDie d x).marks = s.marks := rfl
@[simp] theorem State.setDie_dies (s : State) (d : Nat) (x : Die) : (s.setDie d x).dies = Tab.put s.dies d x := rfl
@[simp] theorem State.setDie_tiles (s : State) (d : Nat) (x : Die) : (s.setDie d x).tiles = s.tiles := rfl
@[simp] theorem State.setDie_strands (s : State) (d : Nat) (x : Die) : (s.setDie d x).strands = s.strands := rfl
@[simp] theorem State.setDie_edges (s : State) (d : Nat) (x : Die) : (s.setDie d x).edges = s.edges := rfl
@[simp] theorem State.setDie_time (s : State) (d : Nat) (x : Die) : (s.setDie d x).time = s.time := rfl
@[simp] theorem State.setDie_semOwner (s : State) (d : Nat) (x : Die) : (s.setDie d x).semOwner = s.semOwner := rfl
@[simp] theorem State.setDie_semExpired (s : State) (d : Nat) (x : Die) : (s.setDie d x).semExpired = s.semExpired := rfl
@[simp] theorem State.setDie_semLease (s : State) (d : Nat) (x : Die) : (s.setDie d x).semLease = s.semLease := rfl
@[simp] theorem State.setDie_epoch (s : State) (d : Nat) (x : Die) : (s.setDie d x).epoch = s.epoch := rfl
@[simp] theorem State.setDie_recLines (s : State) (d : Nat) (x : Die) : (s.setDie d x).recLines = s.recLines := rfl
@[simp] theorem State.setDie_told (s : State) (d : Nat) (x : Die) : (s.setDie d x).told = s.told := rfl
@[simp] theorem State.setDie_flash (s : State) (d : Nat) (x : Die) : (s.setDie d x).flash = s.flash := rfl
@[simp] theorem State.setDie_portsDown (s : State) (d : Nat) (x : Die) : (s.setDie d x).portsDown = s.portsDown := rfl
@[simp] theorem State.setDie_idle (s : State) (d : Nat) (x : Die) : (s.setDie d x).idle = s.idle := rfl
@[simp] theorem State.setDie_hostMap (s : State) (d : Nat) (x : Die) : (s.setDie d x).hostMap = s.hostMap := rfl
@[simp] theorem State.setDie_inputs (s : State) (d : Nat) (x : Die) : (s.setDie d x).inputs = s.inputs := rfl
@[simp] theorem State.setDie_waiting (s : State) (d : Nat) (x : Die) : (s.setDie d x).waiting = s.waiting := rfl
@[simp] theorem State.setDie_hostGot (s : State) (d : Nat) (x : Die) : (s.setDie d x).hostGot = s.hostGot := rfl
@[simp] theorem State.setDie_hostL (s : State) (d : Nat) (x : Die) : (s.setDie d x).hostL = s.hostL := rfl
@[simp] theorem State.setDie_agenda (s : State) (d : Nat) (x : Die) : (s.setDie d x).agenda = s.agenda := rfl
@[simp] theorem State.setDie_choice (s : State) (d : Nat) (x : Die) : (s.setDie d x).choice = s.choice := rfl
@[simp] theorem State.setDie_cur (s : State) (d : Nat) (x : Die) : (s.setDie d x).cur = s.cur := rfl

/-! ### State.onDie -/

@[simp] theorem State.onDie_mem (s : State) (d : Nat) (f : Die → Die) : (s.onDie d f).mem = s.mem := rfl
@[simp] theorem State.onDie_empties (s : State) (d : Nat) (f : Die → Die) : (s.onDie d f).empties = s.empties := rfl
@[simp] theorem State.onDie_poison (s : State) (d : Nat) (f : Die → Die) : (s.onDie d f).poison = s.poison := rfl
@[simp] theorem State.onDie_marks (s : State) (d : Nat) (f : Die → Die) : (s.onDie d f).marks = s.marks := rfl
@[simp] theorem State.onDie_dies (s : State) (d : Nat) (f : Die → Die) : (s.onDie d f).dies = Tab.put s.dies d (f (s.die d)) := rfl
@[simp] theorem State.onDie_tiles (s : State) (d : Nat) (f : Die → Die) : (s.onDie d f).tiles = s.tiles := rfl
@[simp] theorem State.onDie_strands (s : State) (d : Nat) (f : Die → Die) : (s.onDie d f).strands = s.strands := rfl
@[simp] theorem State.onDie_edges (s : State) (d : Nat) (f : Die → Die) : (s.onDie d f).edges = s.edges := rfl
@[simp] theorem State.onDie_time (s : State) (d : Nat) (f : Die → Die) : (s.onDie d f).time = s.time := rfl
@[simp] theorem State.onDie_semOwner (s : State) (d : Nat) (f : Die → Die) : (s.onDie d f).semOwner = s.semOwner := rfl
@[simp] theorem State.onDie_semExpired (s : State) (d : Nat) (f : Die → Die) : (s.onDie d f).semExpired = s.semExpired := rfl
@[simp] theorem State.onDie_semLease (s : State) (d : Nat) (f : Die → Die) : (s.onDie d f).semLease = s.semLease := rfl
@[simp] theorem State.onDie_epoch (s : State) (d : Nat) (f : Die → Die) : (s.onDie d f).epoch = s.epoch := rfl
@[simp] theorem State.onDie_recLines (s : State) (d : Nat) (f : Die → Die) : (s.onDie d f).recLines = s.recLines := rfl
@[simp] theorem State.onDie_told (s : State) (d : Nat) (f : Die → Die) : (s.onDie d f).told = s.told := rfl
@[simp] theorem State.onDie_flash (s : State) (d : Nat) (f : Die → Die) : (s.onDie d f).flash = s.flash := rfl
@[simp] theorem State.onDie_portsDown (s : State) (d : Nat) (f : Die → Die) : (s.onDie d f).portsDown = s.portsDown := rfl
@[simp] theorem State.onDie_idle (s : State) (d : Nat) (f : Die → Die) : (s.onDie d f).idle = s.idle := rfl
@[simp] theorem State.onDie_hostMap (s : State) (d : Nat) (f : Die → Die) : (s.onDie d f).hostMap = s.hostMap := rfl
@[simp] theorem State.onDie_inputs (s : State) (d : Nat) (f : Die → Die) : (s.onDie d f).inputs = s.inputs := rfl
@[simp] theorem State.onDie_waiting (s : State) (d : Nat) (f : Die → Die) : (s.onDie d f).waiting = s.waiting := rfl
@[simp] theorem State.onDie_hostGot (s : State) (d : Nat) (f : Die → Die) : (s.onDie d f).hostGot = s.hostGot := rfl
@[simp] theorem State.onDie_hostL (s : State) (d : Nat) (f : Die → Die) : (s.onDie d f).hostL = s.hostL := rfl
@[simp] theorem State.onDie_agenda (s : State) (d : Nat) (f : Die → Die) : (s.onDie d f).agenda = s.agenda := rfl
@[simp] theorem State.onDie_choice (s : State) (d : Nat) (f : Die → Die) : (s.onDie d f).choice = s.choice := rfl
@[simp] theorem State.onDie_cur (s : State) (d : Nat) (f : Die → Die) : (s.onDie d f).cur = s.cur := rfl

/-! ### State.setTile -/

@[simp] theorem State.setTile_mem (s : State) (t : Nat) (x : Tile) : (s.setTile t x).mem = s.mem := rfl
@[simp] theorem State.setTile_empties (s : State) (t : Nat) (x : Tile) : (s.setTile t x).empties = s.empties := rfl
@[simp] theorem State.setTile_poison (s : State) (t : Nat) (x : Tile) : (s.setTile t x).poison = s.poison := rfl
@[simp] theorem State.setTile_marks (s : State) (t : Nat) (x : Tile) : (s.setTile t x).marks = s.marks := rfl
@[simp] theorem State.setTile_dies (s : State) (t : Nat) (x : Tile) : (s.setTile t x).dies = s.dies := rfl
@[simp] theorem State.setTile_tiles (s : State) (t : Nat) (x : Tile) : (s.setTile t x).tiles = Tab.put s.tiles t x := rfl
@[simp] theorem State.setTile_strands (s : State) (t : Nat) (x : Tile) : (s.setTile t x).strands = s.strands := rfl
@[simp] theorem State.setTile_edges (s : State) (t : Nat) (x : Tile) : (s.setTile t x).edges = s.edges := rfl
@[simp] theorem State.setTile_time (s : State) (t : Nat) (x : Tile) : (s.setTile t x).time = s.time := rfl
@[simp] theorem State.setTile_semOwner (s : State) (t : Nat) (x : Tile) : (s.setTile t x).semOwner = s.semOwner := rfl
@[simp] theorem State.setTile_semExpired (s : State) (t : Nat) (x : Tile) : (s.setTile t x).semExpired = s.semExpired := rfl
@[simp] theorem State.setTile_semLease (s : State) (t : Nat) (x : Tile) : (s.setTile t x).semLease = s.semLease := rfl
@[simp] theorem State.setTile_epoch (s : State) (t : Nat) (x : Tile) : (s.setTile t x).epoch = s.epoch := rfl
@[simp] theorem State.setTile_recLines (s : State) (t : Nat) (x : Tile) : (s.setTile t x).recLines = s.recLines := rfl
@[simp] theorem State.setTile_told (s : State) (t : Nat) (x : Tile) : (s.setTile t x).told = s.told := rfl
@[simp] theorem State.setTile_flash (s : State) (t : Nat) (x : Tile) : (s.setTile t x).flash = s.flash := rfl
@[simp] theorem State.setTile_portsDown (s : State) (t : Nat) (x : Tile) : (s.setTile t x).portsDown = s.portsDown := rfl
@[simp] theorem State.setTile_idle (s : State) (t : Nat) (x : Tile) : (s.setTile t x).idle = s.idle := rfl
@[simp] theorem State.setTile_hostMap (s : State) (t : Nat) (x : Tile) : (s.setTile t x).hostMap = s.hostMap := rfl
@[simp] theorem State.setTile_inputs (s : State) (t : Nat) (x : Tile) : (s.setTile t x).inputs = s.inputs := rfl
@[simp] theorem State.setTile_waiting (s : State) (t : Nat) (x : Tile) : (s.setTile t x).waiting = s.waiting := rfl
@[simp] theorem State.setTile_hostGot (s : State) (t : Nat) (x : Tile) : (s.setTile t x).hostGot = s.hostGot := rfl
@[simp] theorem State.setTile_hostL (s : State) (t : Nat) (x : Tile) : (s.setTile t x).hostL = s.hostL := rfl
@[simp] theorem State.setTile_agenda (s : State) (t : Nat) (x : Tile) : (s.setTile t x).agenda = s.agenda := rfl
@[simp] theorem State.setTile_choice (s : State) (t : Nat) (x : Tile) : (s.setTile t x).choice = s.choice := rfl
@[simp] theorem State.setTile_cur (s : State) (t : Nat) (x : Tile) : (s.setTile t x).cur = s.cur := rfl

/-! ### State.onTile -/

@[simp] theorem State.onTile_mem (s : State) (t : Nat) (f : Tile → Tile) : (s.onTile t f).mem = s.mem := rfl
@[simp] theorem State.onTile_empties (s : State) (t : Nat) (f : Tile → Tile) : (s.onTile t f).empties = s.empties := rfl
@[simp] theorem State.onTile_poison (s : State) (t : Nat) (f : Tile → Tile) : (s.onTile t f).poison = s.poison := rfl
@[simp] theorem State.onTile_marks (s : State) (t : Nat) (f : Tile → Tile) : (s.onTile t f).marks = s.marks := rfl
@[simp] theorem State.onTile_dies (s : State) (t : Nat) (f : Tile → Tile) : (s.onTile t f).dies = s.dies := rfl
@[simp] theorem State.onTile_tiles (s : State) (t : Nat) (f : Tile → Tile) : (s.onTile t f).tiles = Tab.put s.tiles t (f (s.tile t)) := rfl
@[simp] theorem State.onTile_strands (s : State) (t : Nat) (f : Tile → Tile) : (s.onTile t f).strands = s.strands := rfl
@[simp] theorem State.onTile_edges (s : State) (t : Nat) (f : Tile → Tile) : (s.onTile t f).edges = s.edges := rfl
@[simp] theorem State.onTile_time (s : State) (t : Nat) (f : Tile → Tile) : (s.onTile t f).time = s.time := rfl
@[simp] theorem State.onTile_semOwner (s : State) (t : Nat) (f : Tile → Tile) : (s.onTile t f).semOwner = s.semOwner := rfl
@[simp] theorem State.onTile_semExpired (s : State) (t : Nat) (f : Tile → Tile) : (s.onTile t f).semExpired = s.semExpired := rfl
@[simp] theorem State.onTile_semLease (s : State) (t : Nat) (f : Tile → Tile) : (s.onTile t f).semLease = s.semLease := rfl
@[simp] theorem State.onTile_epoch (s : State) (t : Nat) (f : Tile → Tile) : (s.onTile t f).epoch = s.epoch := rfl
@[simp] theorem State.onTile_recLines (s : State) (t : Nat) (f : Tile → Tile) : (s.onTile t f).recLines = s.recLines := rfl
@[simp] theorem State.onTile_told (s : State) (t : Nat) (f : Tile → Tile) : (s.onTile t f).told = s.told := rfl
@[simp] theorem State.onTile_flash (s : State) (t : Nat) (f : Tile → Tile) : (s.onTile t f).flash = s.flash := rfl
@[simp] theorem State.onTile_portsDown (s : State) (t : Nat) (f : Tile → Tile) : (s.onTile t f).portsDown = s.portsDown := rfl
@[simp] theorem State.onTile_idle (s : State) (t : Nat) (f : Tile → Tile) : (s.onTile t f).idle = s.idle := rfl
@[simp] theorem State.onTile_hostMap (s : State) (t : Nat) (f : Tile → Tile) : (s.onTile t f).hostMap = s.hostMap := rfl
@[simp] theorem State.onTile_inputs (s : State) (t : Nat) (f : Tile → Tile) : (s.onTile t f).inputs = s.inputs := rfl
@[simp] theorem State.onTile_waiting (s : State) (t : Nat) (f : Tile → Tile) : (s.onTile t f).waiting = s.waiting := rfl
@[simp] theorem State.onTile_hostGot (s : State) (t : Nat) (f : Tile → Tile) : (s.onTile t f).hostGot = s.hostGot := rfl
@[simp] theorem State.onTile_hostL (s : State) (t : Nat) (f : Tile → Tile) : (s.onTile t f).hostL = s.hostL := rfl
@[simp] theorem State.onTile_agenda (s : State) (t : Nat) (f : Tile → Tile) : (s.onTile t f).agenda = s.agenda := rfl
@[simp] theorem State.onTile_choice (s : State) (t : Nat) (f : Tile → Tile) : (s.onTile t f).choice = s.choice := rfl
@[simp] theorem State.onTile_cur (s : State) (t : Nat) (f : Tile → Tile) : (s.onTile t f).cur = s.cur := rfl

/-! ### State.setStrand -/

@[simp] theorem State.setStrand_mem (s : State) (k : Nat) (x : Strand) : (s.setStrand k x).mem = s.mem := rfl
@[simp] theorem State.setStrand_empties (s : State) (k : Nat) (x : Strand) : (s.setStrand k x).empties = s.empties := rfl
@[simp] theorem State.setStrand_poison (s : State) (k : Nat) (x : Strand) : (s.setStrand k x).poison = s.poison := rfl
@[simp] theorem State.setStrand_marks (s : State) (k : Nat) (x : Strand) : (s.setStrand k x).marks = s.marks := rfl
@[simp] theorem State.setStrand_dies (s : State) (k : Nat) (x : Strand) : (s.setStrand k x).dies = s.dies := rfl
@[simp] theorem State.setStrand_tiles (s : State) (k : Nat) (x : Strand) : (s.setStrand k x).tiles = s.tiles := rfl
@[simp] theorem State.setStrand_strands (s : State) (k : Nat) (x : Strand) : (s.setStrand k x).strands = Tab.put s.strands k x := rfl
@[simp] theorem State.setStrand_edges (s : State) (k : Nat) (x : Strand) : (s.setStrand k x).edges = s.edges := rfl
@[simp] theorem State.setStrand_time (s : State) (k : Nat) (x : Strand) : (s.setStrand k x).time = s.time := rfl
@[simp] theorem State.setStrand_semOwner (s : State) (k : Nat) (x : Strand) : (s.setStrand k x).semOwner = s.semOwner := rfl
@[simp] theorem State.setStrand_semExpired (s : State) (k : Nat) (x : Strand) : (s.setStrand k x).semExpired = s.semExpired := rfl
@[simp] theorem State.setStrand_semLease (s : State) (k : Nat) (x : Strand) : (s.setStrand k x).semLease = s.semLease := rfl
@[simp] theorem State.setStrand_epoch (s : State) (k : Nat) (x : Strand) : (s.setStrand k x).epoch = s.epoch := rfl
@[simp] theorem State.setStrand_recLines (s : State) (k : Nat) (x : Strand) : (s.setStrand k x).recLines = s.recLines := rfl
@[simp] theorem State.setStrand_told (s : State) (k : Nat) (x : Strand) : (s.setStrand k x).told = s.told := rfl
@[simp] theorem State.setStrand_flash (s : State) (k : Nat) (x : Strand) : (s.setStrand k x).flash = s.flash := rfl
@[simp] theorem State.setStrand_portsDown (s : State) (k : Nat) (x : Strand) : (s.setStrand k x).portsDown = s.portsDown := rfl
@[simp] theorem State.setStrand_idle (s : State) (k : Nat) (x : Strand) : (s.setStrand k x).idle = s.idle := rfl
@[simp] theorem State.setStrand_hostMap (s : State) (k : Nat) (x : Strand) : (s.setStrand k x).hostMap = s.hostMap := rfl
@[simp] theorem State.setStrand_inputs (s : State) (k : Nat) (x : Strand) : (s.setStrand k x).inputs = s.inputs := rfl
@[simp] theorem State.setStrand_waiting (s : State) (k : Nat) (x : Strand) : (s.setStrand k x).waiting = s.waiting := rfl
@[simp] theorem State.setStrand_hostGot (s : State) (k : Nat) (x : Strand) : (s.setStrand k x).hostGot = s.hostGot := rfl
@[simp] theorem State.setStrand_hostL (s : State) (k : Nat) (x : Strand) : (s.setStrand k x).hostL = s.hostL := rfl
@[simp] theorem State.setStrand_agenda (s : State) (k : Nat) (x : Strand) : (s.setStrand k x).agenda = s.agenda := rfl
@[simp] theorem State.setStrand_choice (s : State) (k : Nat) (x : Strand) : (s.setStrand k x).choice = s.choice := rfl
@[simp] theorem State.setStrand_cur (s : State) (k : Nat) (x : Strand) : (s.setStrand k x).cur = s.cur := rfl

/-! ### State.onEdge -/

@[simp] theorem State.onEdge_mem (s : State) (e : Nat) (f : Edge → Edge) : (s.onEdge e f).mem = s.mem := rfl
@[simp] theorem State.onEdge_empties (s : State) (e : Nat) (f : Edge → Edge) : (s.onEdge e f).empties = s.empties := rfl
@[simp] theorem State.onEdge_poison (s : State) (e : Nat) (f : Edge → Edge) : (s.onEdge e f).poison = s.poison := rfl
@[simp] theorem State.onEdge_marks (s : State) (e : Nat) (f : Edge → Edge) : (s.onEdge e f).marks = s.marks := rfl
@[simp] theorem State.onEdge_dies (s : State) (e : Nat) (f : Edge → Edge) : (s.onEdge e f).dies = s.dies := rfl
@[simp] theorem State.onEdge_tiles (s : State) (e : Nat) (f : Edge → Edge) : (s.onEdge e f).tiles = s.tiles := rfl
@[simp] theorem State.onEdge_strands (s : State) (e : Nat) (f : Edge → Edge) : (s.onEdge e f).strands = s.strands := rfl
@[simp] theorem State.onEdge_edges (s : State) (e : Nat) (f : Edge → Edge) : (s.onEdge e f).edges = Tab.put s.edges e (f (s.edge e)) := rfl
@[simp] theorem State.onEdge_time (s : State) (e : Nat) (f : Edge → Edge) : (s.onEdge e f).time = s.time := rfl
@[simp] theorem State.onEdge_semOwner (s : State) (e : Nat) (f : Edge → Edge) : (s.onEdge e f).semOwner = s.semOwner := rfl
@[simp] theorem State.onEdge_semExpired (s : State) (e : Nat) (f : Edge → Edge) : (s.onEdge e f).semExpired = s.semExpired := rfl
@[simp] theorem State.onEdge_semLease (s : State) (e : Nat) (f : Edge → Edge) : (s.onEdge e f).semLease = s.semLease := rfl
@[simp] theorem State.onEdge_epoch (s : State) (e : Nat) (f : Edge → Edge) : (s.onEdge e f).epoch = s.epoch := rfl
@[simp] theorem State.onEdge_recLines (s : State) (e : Nat) (f : Edge → Edge) : (s.onEdge e f).recLines = s.recLines := rfl
@[simp] theorem State.onEdge_told (s : State) (e : Nat) (f : Edge → Edge) : (s.onEdge e f).told = s.told := rfl
@[simp] theorem State.onEdge_flash (s : State) (e : Nat) (f : Edge → Edge) : (s.onEdge e f).flash = s.flash := rfl
@[simp] theorem State.onEdge_portsDown (s : State) (e : Nat) (f : Edge → Edge) : (s.onEdge e f).portsDown = s.portsDown := rfl
@[simp] theorem State.onEdge_idle (s : State) (e : Nat) (f : Edge → Edge) : (s.onEdge e f).idle = s.idle := rfl
@[simp] theorem State.onEdge_hostMap (s : State) (e : Nat) (f : Edge → Edge) : (s.onEdge e f).hostMap = s.hostMap := rfl
@[simp] theorem State.onEdge_inputs (s : State) (e : Nat) (f : Edge → Edge) : (s.onEdge e f).inputs = s.inputs := rfl
@[simp] theorem State.onEdge_waiting (s : State) (e : Nat) (f : Edge → Edge) : (s.onEdge e f).waiting = s.waiting := rfl
@[simp] theorem State.onEdge_hostGot (s : State) (e : Nat) (f : Edge → Edge) : (s.onEdge e f).hostGot = s.hostGot := rfl
@[simp] theorem State.onEdge_hostL (s : State) (e : Nat) (f : Edge → Edge) : (s.onEdge e f).hostL = s.hostL := rfl
@[simp] theorem State.onEdge_agenda (s : State) (e : Nat) (f : Edge → Edge) : (s.onEdge e f).agenda = s.agenda := rfl
@[simp] theorem State.onEdge_choice (s : State) (e : Nat) (f : Edge → Edge) : (s.onEdge e f).choice = s.choice := rfl
@[simp] theorem State.onEdge_cur (s : State) (e : Nat) (f : Edge → Edge) : (s.onEdge e f).cur = s.cur := rfl

/-! ### State.poke -/

@[simp] theorem State.poke_mem (s : State) (l : Loc) (b : List Byte) : (s.poke l b).mem = writeMem s.mem l.key b := rfl
@[simp] theorem State.poke_empties (s : State) (l : Loc) (b : List Byte) : (s.poke l b).empties = s.empties := rfl
@[simp] theorem State.poke_poison (s : State) (l : Loc) (b : List Byte) : (s.poke l b).poison = clearPoison s.poison l.key b.length := rfl
@[simp] theorem State.poke_marks (s : State) (l : Loc) (b : List Byte) : (s.poke l b).marks = s.marks.filter fun a => !(l.key ≤ a && a < l.key + b.length) := rfl
@[simp] theorem State.poke_dies (s : State) (l : Loc) (b : List Byte) : (s.poke l b).dies = s.dies := rfl
@[simp] theorem State.poke_tiles (s : State) (l : Loc) (b : List Byte) : (s.poke l b).tiles = s.tiles := rfl
@[simp] theorem State.poke_strands (s : State) (l : Loc) (b : List Byte) : (s.poke l b).strands = s.strands := rfl
@[simp] theorem State.poke_edges (s : State) (l : Loc) (b : List Byte) : (s.poke l b).edges = s.edges := rfl
@[simp] theorem State.poke_time (s : State) (l : Loc) (b : List Byte) : (s.poke l b).time = s.time := rfl
@[simp] theorem State.poke_semOwner (s : State) (l : Loc) (b : List Byte) : (s.poke l b).semOwner = s.semOwner := rfl
@[simp] theorem State.poke_semExpired (s : State) (l : Loc) (b : List Byte) : (s.poke l b).semExpired = s.semExpired := rfl
@[simp] theorem State.poke_semLease (s : State) (l : Loc) (b : List Byte) : (s.poke l b).semLease = s.semLease := rfl
@[simp] theorem State.poke_epoch (s : State) (l : Loc) (b : List Byte) : (s.poke l b).epoch = s.epoch := rfl
@[simp] theorem State.poke_recLines (s : State) (l : Loc) (b : List Byte) : (s.poke l b).recLines = s.recLines := rfl
@[simp] theorem State.poke_told (s : State) (l : Loc) (b : List Byte) : (s.poke l b).told = clearPoison s.told l.key b.length := rfl
@[simp] theorem State.poke_flash (s : State) (l : Loc) (b : List Byte) : (s.poke l b).flash = s.flash := rfl
@[simp] theorem State.poke_portsDown (s : State) (l : Loc) (b : List Byte) : (s.poke l b).portsDown = s.portsDown := rfl
@[simp] theorem State.poke_idle (s : State) (l : Loc) (b : List Byte) : (s.poke l b).idle = s.idle := rfl
@[simp] theorem State.poke_hostMap (s : State) (l : Loc) (b : List Byte) : (s.poke l b).hostMap = s.hostMap := rfl
@[simp] theorem State.poke_inputs (s : State) (l : Loc) (b : List Byte) : (s.poke l b).inputs = s.inputs := rfl
@[simp] theorem State.poke_waiting (s : State) (l : Loc) (b : List Byte) : (s.poke l b).waiting = s.waiting := rfl
@[simp] theorem State.poke_hostGot (s : State) (l : Loc) (b : List Byte) : (s.poke l b).hostGot = s.hostGot := rfl
@[simp] theorem State.poke_hostL (s : State) (l : Loc) (b : List Byte) : (s.poke l b).hostL = s.hostL := rfl
@[simp] theorem State.poke_agenda (s : State) (l : Loc) (b : List Byte) : (s.poke l b).agenda = s.agenda := rfl
@[simp] theorem State.poke_choice (s : State) (l : Loc) (b : List Byte) : (s.poke l b).choice = s.choice := rfl
@[simp] theorem State.poke_cur (s : State) (l : Loc) (b : List Byte) : (s.poke l b).cur = s.cur := rfl

/-! ### State.pokeWord -/

@[simp] theorem State.pokeWord_empties (s : State) (l : Loc) (v : Word) : (s.pokeWord l v).empties = s.empties := rfl
@[simp] theorem State.pokeWord_dies (s : State) (l : Loc) (v : Word) : (s.pokeWord l v).dies = s.dies := rfl
@[simp] theorem State.pokeWord_tiles (s : State) (l : Loc) (v : Word) : (s.pokeWord l v).tiles = s.tiles := rfl
@[simp] theorem State.pokeWord_strands (s : State) (l : Loc) (v : Word) : (s.pokeWord l v).strands = s.strands := rfl
@[simp] theorem State.pokeWord_edges (s : State) (l : Loc) (v : Word) : (s.pokeWord l v).edges = s.edges := rfl
@[simp] theorem State.pokeWord_time (s : State) (l : Loc) (v : Word) : (s.pokeWord l v).time = s.time := rfl
@[simp] theorem State.pokeWord_semOwner (s : State) (l : Loc) (v : Word) : (s.pokeWord l v).semOwner = s.semOwner := rfl
@[simp] theorem State.pokeWord_semExpired (s : State) (l : Loc) (v : Word) : (s.pokeWord l v).semExpired = s.semExpired := rfl
@[simp] theorem State.pokeWord_semLease (s : State) (l : Loc) (v : Word) : (s.pokeWord l v).semLease = s.semLease := rfl
@[simp] theorem State.pokeWord_epoch (s : State) (l : Loc) (v : Word) : (s.pokeWord l v).epoch = s.epoch := rfl
@[simp] theorem State.pokeWord_recLines (s : State) (l : Loc) (v : Word) : (s.pokeWord l v).recLines = s.recLines := rfl
@[simp] theorem State.pokeWord_flash (s : State) (l : Loc) (v : Word) : (s.pokeWord l v).flash = s.flash := rfl
@[simp] theorem State.pokeWord_portsDown (s : State) (l : Loc) (v : Word) : (s.pokeWord l v).portsDown = s.portsDown := rfl
@[simp] theorem State.pokeWord_idle (s : State) (l : Loc) (v : Word) : (s.pokeWord l v).idle = s.idle := rfl
@[simp] theorem State.pokeWord_hostMap (s : State) (l : Loc) (v : Word) : (s.pokeWord l v).hostMap = s.hostMap := rfl
@[simp] theorem State.pokeWord_inputs (s : State) (l : Loc) (v : Word) : (s.pokeWord l v).inputs = s.inputs := rfl
@[simp] theorem State.pokeWord_waiting (s : State) (l : Loc) (v : Word) : (s.pokeWord l v).waiting = s.waiting := rfl
@[simp] theorem State.pokeWord_hostGot (s : State) (l : Loc) (v : Word) : (s.pokeWord l v).hostGot = s.hostGot := rfl
@[simp] theorem State.pokeWord_hostL (s : State) (l : Loc) (v : Word) : (s.pokeWord l v).hostL = s.hostL := rfl
@[simp] theorem State.pokeWord_agenda (s : State) (l : Loc) (v : Word) : (s.pokeWord l v).agenda = s.agenda := rfl
@[simp] theorem State.pokeWord_choice (s : State) (l : Loc) (v : Word) : (s.pokeWord l v).choice = s.choice := rfl
@[simp] theorem State.pokeWord_cur (s : State) (l : Loc) (v : Word) : (s.pokeWord l v).cur = s.cur := rfl

/-! ### State.setFull -/

@[simp] theorem State.setFull_mem (s : State) (t n : Nat) (b : Bool) : (s.setFull t n b).mem = s.mem := rfl
@[simp] theorem State.setFull_poison (s : State) (t n : Nat) (b : Bool) : (s.setFull t n b).poison = s.poison := rfl
@[simp] theorem State.setFull_marks (s : State) (t n : Nat) (b : Bool) : (s.setFull t n b).marks = s.marks := rfl
@[simp] theorem State.setFull_dies (s : State) (t n : Nat) (b : Bool) : (s.setFull t n b).dies = s.dies := rfl
@[simp] theorem State.setFull_tiles (s : State) (t n : Nat) (b : Bool) : (s.setFull t n b).tiles = s.tiles := rfl
@[simp] theorem State.setFull_strands (s : State) (t n : Nat) (b : Bool) : (s.setFull t n b).strands = s.strands := rfl
@[simp] theorem State.setFull_edges (s : State) (t n : Nat) (b : Bool) : (s.setFull t n b).edges = s.edges := rfl
@[simp] theorem State.setFull_time (s : State) (t n : Nat) (b : Bool) : (s.setFull t n b).time = s.time := rfl
@[simp] theorem State.setFull_semOwner (s : State) (t n : Nat) (b : Bool) : (s.setFull t n b).semOwner = s.semOwner := rfl
@[simp] theorem State.setFull_semExpired (s : State) (t n : Nat) (b : Bool) : (s.setFull t n b).semExpired = s.semExpired := rfl
@[simp] theorem State.setFull_semLease (s : State) (t n : Nat) (b : Bool) : (s.setFull t n b).semLease = s.semLease := rfl
@[simp] theorem State.setFull_epoch (s : State) (t n : Nat) (b : Bool) : (s.setFull t n b).epoch = s.epoch := rfl
@[simp] theorem State.setFull_recLines (s : State) (t n : Nat) (b : Bool) : (s.setFull t n b).recLines = s.recLines := rfl
@[simp] theorem State.setFull_told (s : State) (t n : Nat) (b : Bool) : (s.setFull t n b).told = s.told := rfl
@[simp] theorem State.setFull_flash (s : State) (t n : Nat) (b : Bool) : (s.setFull t n b).flash = s.flash := rfl
@[simp] theorem State.setFull_portsDown (s : State) (t n : Nat) (b : Bool) : (s.setFull t n b).portsDown = s.portsDown := rfl
@[simp] theorem State.setFull_idle (s : State) (t n : Nat) (b : Bool) : (s.setFull t n b).idle = s.idle := rfl
@[simp] theorem State.setFull_hostMap (s : State) (t n : Nat) (b : Bool) : (s.setFull t n b).hostMap = s.hostMap := rfl
@[simp] theorem State.setFull_inputs (s : State) (t n : Nat) (b : Bool) : (s.setFull t n b).inputs = s.inputs := rfl
@[simp] theorem State.setFull_waiting (s : State) (t n : Nat) (b : Bool) : (s.setFull t n b).waiting = s.waiting := rfl
@[simp] theorem State.setFull_hostGot (s : State) (t n : Nat) (b : Bool) : (s.setFull t n b).hostGot = s.hostGot := rfl
@[simp] theorem State.setFull_hostL (s : State) (t n : Nat) (b : Bool) : (s.setFull t n b).hostL = s.hostL := rfl
@[simp] theorem State.setFull_agenda (s : State) (t n : Nat) (b : Bool) : (s.setFull t n b).agenda = s.agenda := rfl
@[simp] theorem State.setFull_choice (s : State) (t n : Nat) (b : Bool) : (s.setFull t n b).choice = s.choice := rfl
@[simp] theorem State.setFull_cur (s : State) (t n : Nat) (b : Bool) : (s.setFull t n b).cur = s.cur := rfl

/-! ### State.dropL2 -/

@[simp] theorem State.dropL2_mem (s : State) (n : Nat) (keep : List Nat) : (s.dropL2 n keep).mem = s.mem := rfl
@[simp] theorem State.dropL2_empties (s : State) (n : Nat) (keep : List Nat) : (s.dropL2 n keep).empties = s.empties := rfl
@[simp] theorem State.dropL2_poison (s : State) (n : Nat) (keep : List Nat) : (s.dropL2 n keep).poison = s.poison := rfl
@[simp] theorem State.dropL2_marks (s : State) (n : Nat) (keep : List Nat) : (s.dropL2 n keep).marks = s.marks := rfl
@[simp] theorem State.dropL2_tiles (s : State) (n : Nat) (keep : List Nat) : (s.dropL2 n keep).tiles = s.tiles := rfl
@[simp] theorem State.dropL2_strands (s : State) (n : Nat) (keep : List Nat) : (s.dropL2 n keep).strands = s.strands := rfl
@[simp] theorem State.dropL2_edges (s : State) (n : Nat) (keep : List Nat) : (s.dropL2 n keep).edges = s.edges := rfl
@[simp] theorem State.dropL2_time (s : State) (n : Nat) (keep : List Nat) : (s.dropL2 n keep).time = s.time := rfl
@[simp] theorem State.dropL2_semOwner (s : State) (n : Nat) (keep : List Nat) : (s.dropL2 n keep).semOwner = s.semOwner := rfl
@[simp] theorem State.dropL2_semExpired (s : State) (n : Nat) (keep : List Nat) : (s.dropL2 n keep).semExpired = s.semExpired := rfl
@[simp] theorem State.dropL2_semLease (s : State) (n : Nat) (keep : List Nat) : (s.dropL2 n keep).semLease = s.semLease := rfl
@[simp] theorem State.dropL2_epoch (s : State) (n : Nat) (keep : List Nat) : (s.dropL2 n keep).epoch = s.epoch := rfl
@[simp] theorem State.dropL2_recLines (s : State) (n : Nat) (keep : List Nat) : (s.dropL2 n keep).recLines = s.recLines := rfl
@[simp] theorem State.dropL2_told (s : State) (n : Nat) (keep : List Nat) : (s.dropL2 n keep).told = s.told := rfl
@[simp] theorem State.dropL2_flash (s : State) (n : Nat) (keep : List Nat) : (s.dropL2 n keep).flash = s.flash := rfl
@[simp] theorem State.dropL2_portsDown (s : State) (n : Nat) (keep : List Nat) : (s.dropL2 n keep).portsDown = s.portsDown := rfl
@[simp] theorem State.dropL2_idle (s : State) (n : Nat) (keep : List Nat) : (s.dropL2 n keep).idle = s.idle := rfl
@[simp] theorem State.dropL2_hostMap (s : State) (n : Nat) (keep : List Nat) : (s.dropL2 n keep).hostMap = s.hostMap := rfl
@[simp] theorem State.dropL2_inputs (s : State) (n : Nat) (keep : List Nat) : (s.dropL2 n keep).inputs = s.inputs := rfl
@[simp] theorem State.dropL2_waiting (s : State) (n : Nat) (keep : List Nat) : (s.dropL2 n keep).waiting = s.waiting := rfl
@[simp] theorem State.dropL2_hostGot (s : State) (n : Nat) (keep : List Nat) : (s.dropL2 n keep).hostGot = s.hostGot := rfl
@[simp] theorem State.dropL2_agenda (s : State) (n : Nat) (keep : List Nat) : (s.dropL2 n keep).agenda = s.agenda := rfl
@[simp] theorem State.dropL2_choice (s : State) (n : Nat) (keep : List Nat) : (s.dropL2 n keep).choice = s.choice := rfl
@[simp] theorem State.dropL2_cur (s : State) (n : Nat) (keep : List Nat) : (s.dropL2 n keep).cur = s.cur := rfl

/-! ### State.loseLine -/

@[simp] theorem State.loseLine_mem (s : State) (x : Nat × Line) : (s.loseLine x).mem = writeMem s.mem (x.1 * 128) x.2.data := rfl
@[simp] theorem State.loseLine_empties (s : State) (x : Nat × Line) : (s.loseLine x).empties = s.empties := rfl
@[simp] theorem State.loseLine_poison (s : State) (x : Nat × Line) : (s.loseLine x).poison = s.poison := rfl
@[simp] theorem State.loseLine_marks (s : State) (x : Nat × Line) : (s.loseLine x).marks = s.marks := rfl
@[simp] theorem State.loseLine_strands (s : State) (x : Nat × Line) : (s.loseLine x).strands = s.strands := rfl
@[simp] theorem State.loseLine_edges (s : State) (x : Nat × Line) : (s.loseLine x).edges = s.edges := rfl
@[simp] theorem State.loseLine_time (s : State) (x : Nat × Line) : (s.loseLine x).time = s.time := rfl
@[simp] theorem State.loseLine_semOwner (s : State) (x : Nat × Line) : (s.loseLine x).semOwner = s.semOwner := rfl
@[simp] theorem State.loseLine_semExpired (s : State) (x : Nat × Line) : (s.loseLine x).semExpired = s.semExpired := rfl
@[simp] theorem State.loseLine_semLease (s : State) (x : Nat × Line) : (s.loseLine x).semLease = s.semLease := rfl
@[simp] theorem State.loseLine_epoch (s : State) (x : Nat × Line) : (s.loseLine x).epoch = s.epoch := rfl
@[simp] theorem State.loseLine_recLines (s : State) (x : Nat × Line) : (s.loseLine x).recLines = s.recLines := rfl
@[simp] theorem State.loseLine_told (s : State) (x : Nat × Line) : (s.loseLine x).told = s.told := rfl
@[simp] theorem State.loseLine_flash (s : State) (x : Nat × Line) : (s.loseLine x).flash = s.flash := rfl
@[simp] theorem State.loseLine_portsDown (s : State) (x : Nat × Line) : (s.loseLine x).portsDown = s.portsDown := rfl
@[simp] theorem State.loseLine_idle (s : State) (x : Nat × Line) : (s.loseLine x).idle = s.idle := rfl
@[simp] theorem State.loseLine_hostMap (s : State) (x : Nat × Line) : (s.loseLine x).hostMap = s.hostMap := rfl
@[simp] theorem State.loseLine_inputs (s : State) (x : Nat × Line) : (s.loseLine x).inputs = s.inputs := rfl
@[simp] theorem State.loseLine_waiting (s : State) (x : Nat × Line) : (s.loseLine x).waiting = s.waiting := rfl
@[simp] theorem State.loseLine_hostGot (s : State) (x : Nat × Line) : (s.loseLine x).hostGot = s.hostGot := rfl
@[simp] theorem State.loseLine_agenda (s : State) (x : Nat × Line) : (s.loseLine x).agenda = s.agenda := rfl
@[simp] theorem State.loseLine_choice (s : State) (x : Nat × Line) : (s.loseLine x).choice = s.choice := rfl
@[simp] theorem State.loseLine_cur (s : State) (x : Nat × Line) : (s.loseLine x).cur = s.cur := rfl

/-! ### State.setReg -/

@[simp] theorem State.setReg_mem (s : State) (d off : Nat) (v : Word) : (s.setReg d off v).mem = s.mem := rfl
@[simp] theorem State.setReg_empties (s : State) (d off : Nat) (v : Word) : (s.setReg d off v).empties = s.empties := rfl
@[simp] theorem State.setReg_poison (s : State) (d off : Nat) (v : Word) : (s.setReg d off v).poison = s.poison := rfl
@[simp] theorem State.setReg_marks (s : State) (d off : Nat) (v : Word) : (s.setReg d off v).marks = s.marks := rfl
@[simp] theorem State.setReg_tiles (s : State) (d off : Nat) (v : Word) : (s.setReg d off v).tiles = s.tiles := rfl
@[simp] theorem State.setReg_strands (s : State) (d off : Nat) (v : Word) : (s.setReg d off v).strands = s.strands := rfl
@[simp] theorem State.setReg_edges (s : State) (d off : Nat) (v : Word) : (s.setReg d off v).edges = s.edges := rfl
@[simp] theorem State.setReg_time (s : State) (d off : Nat) (v : Word) : (s.setReg d off v).time = s.time := rfl
@[simp] theorem State.setReg_semOwner (s : State) (d off : Nat) (v : Word) : (s.setReg d off v).semOwner = s.semOwner := rfl
@[simp] theorem State.setReg_semExpired (s : State) (d off : Nat) (v : Word) : (s.setReg d off v).semExpired = s.semExpired := rfl
@[simp] theorem State.setReg_semLease (s : State) (d off : Nat) (v : Word) : (s.setReg d off v).semLease = s.semLease := rfl
@[simp] theorem State.setReg_epoch (s : State) (d off : Nat) (v : Word) : (s.setReg d off v).epoch = s.epoch := rfl
@[simp] theorem State.setReg_recLines (s : State) (d off : Nat) (v : Word) : (s.setReg d off v).recLines = s.recLines := rfl
@[simp] theorem State.setReg_told (s : State) (d off : Nat) (v : Word) : (s.setReg d off v).told = s.told := rfl
@[simp] theorem State.setReg_flash (s : State) (d off : Nat) (v : Word) : (s.setReg d off v).flash = s.flash := rfl
@[simp] theorem State.setReg_portsDown (s : State) (d off : Nat) (v : Word) : (s.setReg d off v).portsDown = s.portsDown := rfl
@[simp] theorem State.setReg_idle (s : State) (d off : Nat) (v : Word) : (s.setReg d off v).idle = s.idle := rfl
@[simp] theorem State.setReg_hostMap (s : State) (d off : Nat) (v : Word) : (s.setReg d off v).hostMap = s.hostMap := rfl
@[simp] theorem State.setReg_inputs (s : State) (d off : Nat) (v : Word) : (s.setReg d off v).inputs = s.inputs := rfl
@[simp] theorem State.setReg_waiting (s : State) (d off : Nat) (v : Word) : (s.setReg d off v).waiting = s.waiting := rfl
@[simp] theorem State.setReg_hostGot (s : State) (d off : Nat) (v : Word) : (s.setReg d off v).hostGot = s.hostGot := rfl
@[simp] theorem State.setReg_hostL (s : State) (d off : Nat) (v : Word) : (s.setReg d off v).hostL = s.hostL := rfl
@[simp] theorem State.setReg_agenda (s : State) (d off : Nat) (v : Word) : (s.setReg d off v).agenda = s.agenda := rfl
@[simp] theorem State.setReg_choice (s : State) (d off : Nat) (v : Word) : (s.setReg d off v).choice = s.choice := rfl
@[simp] theorem State.setReg_cur (s : State) (d off : Nat) (v : Word) : (s.setReg d off v).cur = s.cur := rfl

/-! ### State.setField -/

@[simp] theorem State.setField_mem (s : State) (d off lo len v : Nat) : (s.setField d off lo len v).mem = s.mem := rfl
@[simp] theorem State.setField_empties (s : State) (d off lo len v : Nat) : (s.setField d off lo len v).empties = s.empties := rfl
@[simp] theorem State.setField_poison (s : State) (d off lo len v : Nat) : (s.setField d off lo len v).poison = s.poison := rfl
@[simp] theorem State.setField_marks (s : State) (d off lo len v : Nat) : (s.setField d off lo len v).marks = s.marks := rfl
@[simp] theorem State.setField_tiles (s : State) (d off lo len v : Nat) : (s.setField d off lo len v).tiles = s.tiles := rfl
@[simp] theorem State.setField_strands (s : State) (d off lo len v : Nat) : (s.setField d off lo len v).strands = s.strands := rfl
@[simp] theorem State.setField_edges (s : State) (d off lo len v : Nat) : (s.setField d off lo len v).edges = s.edges := rfl
@[simp] theorem State.setField_time (s : State) (d off lo len v : Nat) : (s.setField d off lo len v).time = s.time := rfl
@[simp] theorem State.setField_semOwner (s : State) (d off lo len v : Nat) : (s.setField d off lo len v).semOwner = s.semOwner := rfl
@[simp] theorem State.setField_semExpired (s : State) (d off lo len v : Nat) : (s.setField d off lo len v).semExpired = s.semExpired := rfl
@[simp] theorem State.setField_semLease (s : State) (d off lo len v : Nat) : (s.setField d off lo len v).semLease = s.semLease := rfl
@[simp] theorem State.setField_epoch (s : State) (d off lo len v : Nat) : (s.setField d off lo len v).epoch = s.epoch := rfl
@[simp] theorem State.setField_recLines (s : State) (d off lo len v : Nat) : (s.setField d off lo len v).recLines = s.recLines := rfl
@[simp] theorem State.setField_told (s : State) (d off lo len v : Nat) : (s.setField d off lo len v).told = s.told := rfl
@[simp] theorem State.setField_flash (s : State) (d off lo len v : Nat) : (s.setField d off lo len v).flash = s.flash := rfl
@[simp] theorem State.setField_portsDown (s : State) (d off lo len v : Nat) : (s.setField d off lo len v).portsDown = s.portsDown := rfl
@[simp] theorem State.setField_idle (s : State) (d off lo len v : Nat) : (s.setField d off lo len v).idle = s.idle := rfl
@[simp] theorem State.setField_hostMap (s : State) (d off lo len v : Nat) : (s.setField d off lo len v).hostMap = s.hostMap := rfl
@[simp] theorem State.setField_inputs (s : State) (d off lo len v : Nat) : (s.setField d off lo len v).inputs = s.inputs := rfl
@[simp] theorem State.setField_waiting (s : State) (d off lo len v : Nat) : (s.setField d off lo len v).waiting = s.waiting := rfl
@[simp] theorem State.setField_hostGot (s : State) (d off lo len v : Nat) : (s.setField d off lo len v).hostGot = s.hostGot := rfl
@[simp] theorem State.setField_hostL (s : State) (d off lo len v : Nat) : (s.setField d off lo len v).hostL = s.hostL := rfl
@[simp] theorem State.setField_agenda (s : State) (d off lo len v : Nat) : (s.setField d off lo len v).agenda = s.agenda := rfl
@[simp] theorem State.setField_choice (s : State) (d off lo len v : Nat) : (s.setField d off lo len v).choice = s.choice := rfl
@[simp] theorem State.setField_cur (s : State) (d off lo len v : Nat) : (s.setField d off lo len v).cur = s.cur := rfl

/-! ### State.bumpField -/

@[simp] theorem State.bumpField_mem (s : State) (d off lo len v : Nat) : (s.bumpField d off lo len v).mem = s.mem := rfl
@[simp] theorem State.bumpField_empties (s : State) (d off lo len v : Nat) : (s.bumpField d off lo len v).empties = s.empties := rfl
@[simp] theorem State.bumpField_poison (s : State) (d off lo len v : Nat) : (s.bumpField d off lo len v).poison = s.poison := rfl
@[simp] theorem State.bumpField_marks (s : State) (d off lo len v : Nat) : (s.bumpField d off lo len v).marks = s.marks := rfl
@[simp] theorem State.bumpField_tiles (s : State) (d off lo len v : Nat) : (s.bumpField d off lo len v).tiles = s.tiles := rfl
@[simp] theorem State.bumpField_strands (s : State) (d off lo len v : Nat) : (s.bumpField d off lo len v).strands = s.strands := rfl
@[simp] theorem State.bumpField_edges (s : State) (d off lo len v : Nat) : (s.bumpField d off lo len v).edges = s.edges := rfl
@[simp] theorem State.bumpField_time (s : State) (d off lo len v : Nat) : (s.bumpField d off lo len v).time = s.time := rfl
@[simp] theorem State.bumpField_semOwner (s : State) (d off lo len v : Nat) : (s.bumpField d off lo len v).semOwner = s.semOwner := rfl
@[simp] theorem State.bumpField_semExpired (s : State) (d off lo len v : Nat) : (s.bumpField d off lo len v).semExpired = s.semExpired := rfl
@[simp] theorem State.bumpField_semLease (s : State) (d off lo len v : Nat) : (s.bumpField d off lo len v).semLease = s.semLease := rfl
@[simp] theorem State.bumpField_epoch (s : State) (d off lo len v : Nat) : (s.bumpField d off lo len v).epoch = s.epoch := rfl
@[simp] theorem State.bumpField_recLines (s : State) (d off lo len v : Nat) : (s.bumpField d off lo len v).recLines = s.recLines := rfl
@[simp] theorem State.bumpField_told (s : State) (d off lo len v : Nat) : (s.bumpField d off lo len v).told = s.told := rfl
@[simp] theorem State.bumpField_flash (s : State) (d off lo len v : Nat) : (s.bumpField d off lo len v).flash = s.flash := rfl
@[simp] theorem State.bumpField_portsDown (s : State) (d off lo len v : Nat) : (s.bumpField d off lo len v).portsDown = s.portsDown := rfl
@[simp] theorem State.bumpField_idle (s : State) (d off lo len v : Nat) : (s.bumpField d off lo len v).idle = s.idle := rfl
@[simp] theorem State.bumpField_hostMap (s : State) (d off lo len v : Nat) : (s.bumpField d off lo len v).hostMap = s.hostMap := rfl
@[simp] theorem State.bumpField_inputs (s : State) (d off lo len v : Nat) : (s.bumpField d off lo len v).inputs = s.inputs := rfl
@[simp] theorem State.bumpField_waiting (s : State) (d off lo len v : Nat) : (s.bumpField d off lo len v).waiting = s.waiting := rfl
@[simp] theorem State.bumpField_hostGot (s : State) (d off lo len v : Nat) : (s.bumpField d off lo len v).hostGot = s.hostGot := rfl
@[simp] theorem State.bumpField_hostL (s : State) (d off lo len v : Nat) : (s.bumpField d off lo len v).hostL = s.hostL := rfl
@[simp] theorem State.bumpField_agenda (s : State) (d off lo len v : Nat) : (s.bumpField d off lo len v).agenda = s.agenda := rfl
@[simp] theorem State.bumpField_choice (s : State) (d off lo len v : Nat) : (s.bumpField d off lo len v).choice = s.choice := rfl
@[simp] theorem State.bumpField_cur (s : State) (d off lo len v : Nat) : (s.bumpField d off lo len v).cur = s.cur := rfl

/-! ### State.claim -/

@[simp] theorem State.claim_mem (s : State) (k c : Nat) : (s.claim k c).mem = s.mem := rfl
@[simp] theorem State.claim_empties (s : State) (k c : Nat) : (s.claim k c).empties = s.empties := rfl
@[simp] theorem State.claim_poison (s : State) (k c : Nat) : (s.claim k c).poison = s.poison := rfl
@[simp] theorem State.claim_marks (s : State) (k c : Nat) : (s.claim k c).marks = s.marks := rfl
@[simp] theorem State.claim_dies (s : State) (k c : Nat) : (s.claim k c).dies = s.dies := rfl
@[simp] theorem State.claim_strands (s : State) (k c : Nat) : (s.claim k c).strands = s.strands := rfl
@[simp] theorem State.claim_edges (s : State) (k c : Nat) : (s.claim k c).edges = s.edges := rfl
@[simp] theorem State.claim_time (s : State) (k c : Nat) : (s.claim k c).time = s.time := rfl
@[simp] theorem State.claim_semOwner (s : State) (k c : Nat) : (s.claim k c).semOwner = s.semOwner := rfl
@[simp] theorem State.claim_semExpired (s : State) (k c : Nat) : (s.claim k c).semExpired = s.semExpired := rfl
@[simp] theorem State.claim_semLease (s : State) (k c : Nat) : (s.claim k c).semLease = s.semLease := rfl
@[simp] theorem State.claim_epoch (s : State) (k c : Nat) : (s.claim k c).epoch = s.epoch := rfl
@[simp] theorem State.claim_recLines (s : State) (k c : Nat) : (s.claim k c).recLines = s.recLines := rfl
@[simp] theorem State.claim_told (s : State) (k c : Nat) : (s.claim k c).told = s.told := rfl
@[simp] theorem State.claim_flash (s : State) (k c : Nat) : (s.claim k c).flash = s.flash := rfl
@[simp] theorem State.claim_portsDown (s : State) (k c : Nat) : (s.claim k c).portsDown = s.portsDown := rfl
@[simp] theorem State.claim_idle (s : State) (k c : Nat) : (s.claim k c).idle = s.idle := rfl
@[simp] theorem State.claim_hostMap (s : State) (k c : Nat) : (s.claim k c).hostMap = s.hostMap := rfl
@[simp] theorem State.claim_inputs (s : State) (k c : Nat) : (s.claim k c).inputs = s.inputs := rfl
@[simp] theorem State.claim_waiting (s : State) (k c : Nat) : (s.claim k c).waiting = s.waiting := rfl
@[simp] theorem State.claim_hostGot (s : State) (k c : Nat) : (s.claim k c).hostGot = s.hostGot := rfl
@[simp] theorem State.claim_hostL (s : State) (k c : Nat) : (s.claim k c).hostL = s.hostL := rfl
@[simp] theorem State.claim_agenda (s : State) (k c : Nat) : (s.claim k c).agenda = s.agenda := rfl
@[simp] theorem State.claim_choice (s : State) (k c : Nat) : (s.claim k c).choice = s.choice := rfl
@[simp] theorem State.claim_cur (s : State) (k c : Nat) : (s.claim k c).cur = s.cur := rfl

/-! ### State.onStrand -/

@[simp] theorem State.onStrand_mem (s : State) (k : Nat) (f : Strand → Strand) : (s.onStrand k f).mem = s.mem := by
  simp only [State.onStrand]; split <;> rfl
@[simp] theorem State.onStrand_empties (s : State) (k : Nat) (f : Strand → Strand) : (s.onStrand k f).empties = s.empties := by
  simp only [State.onStrand]; split <;> rfl
@[simp] theorem State.onStrand_poison (s : State) (k : Nat) (f : Strand → Strand) : (s.onStrand k f).poison = s.poison := by
  simp only [State.onStrand]; split <;> rfl
@[simp] theorem State.onStrand_marks (s : State) (k : Nat) (f : Strand → Strand) : (s.onStrand k f).marks = s.marks := by
  simp only [State.onStrand]; split <;> rfl
@[simp] theorem State.onStrand_dies (s : State) (k : Nat) (f : Strand → Strand) : (s.onStrand k f).dies = s.dies := by
  simp only [State.onStrand]; split <;> rfl
@[simp] theorem State.onStrand_tiles (s : State) (k : Nat) (f : Strand → Strand) : (s.onStrand k f).tiles = s.tiles := by
  simp only [State.onStrand]; split <;> rfl
@[simp] theorem State.onStrand_edges (s : State) (k : Nat) (f : Strand → Strand) : (s.onStrand k f).edges = s.edges := by
  simp only [State.onStrand]; split <;> rfl
@[simp] theorem State.onStrand_time (s : State) (k : Nat) (f : Strand → Strand) : (s.onStrand k f).time = s.time := by
  simp only [State.onStrand]; split <;> rfl
@[simp] theorem State.onStrand_semOwner (s : State) (k : Nat) (f : Strand → Strand) : (s.onStrand k f).semOwner = s.semOwner := by
  simp only [State.onStrand]; split <;> rfl
@[simp] theorem State.onStrand_semExpired (s : State) (k : Nat) (f : Strand → Strand) : (s.onStrand k f).semExpired = s.semExpired := by
  simp only [State.onStrand]; split <;> rfl
@[simp] theorem State.onStrand_semLease (s : State) (k : Nat) (f : Strand → Strand) : (s.onStrand k f).semLease = s.semLease := by
  simp only [State.onStrand]; split <;> rfl
@[simp] theorem State.onStrand_epoch (s : State) (k : Nat) (f : Strand → Strand) : (s.onStrand k f).epoch = s.epoch := by
  simp only [State.onStrand]; split <;> rfl
@[simp] theorem State.onStrand_recLines (s : State) (k : Nat) (f : Strand → Strand) : (s.onStrand k f).recLines = s.recLines := by
  simp only [State.onStrand]; split <;> rfl
@[simp] theorem State.onStrand_told (s : State) (k : Nat) (f : Strand → Strand) : (s.onStrand k f).told = s.told := by
  simp only [State.onStrand]; split <;> rfl
@[simp] theorem State.onStrand_flash (s : State) (k : Nat) (f : Strand → Strand) : (s.onStrand k f).flash = s.flash := by
  simp only [State.onStrand]; split <;> rfl
@[simp] theorem State.onStrand_portsDown (s : State) (k : Nat) (f : Strand → Strand) : (s.onStrand k f).portsDown = s.portsDown := by
  simp only [State.onStrand]; split <;> rfl
@[simp] theorem State.onStrand_idle (s : State) (k : Nat) (f : Strand → Strand) : (s.onStrand k f).idle = s.idle := by
  simp only [State.onStrand]; split <;> rfl
@[simp] theorem State.onStrand_hostMap (s : State) (k : Nat) (f : Strand → Strand) : (s.onStrand k f).hostMap = s.hostMap := by
  simp only [State.onStrand]; split <;> rfl
@[simp] theorem State.onStrand_inputs (s : State) (k : Nat) (f : Strand → Strand) : (s.onStrand k f).inputs = s.inputs := by
  simp only [State.onStrand]; split <;> rfl
@[simp] theorem State.onStrand_waiting (s : State) (k : Nat) (f : Strand → Strand) : (s.onStrand k f).waiting = s.waiting := by
  simp only [State.onStrand]; split <;> rfl
@[simp] theorem State.onStrand_hostGot (s : State) (k : Nat) (f : Strand → Strand) : (s.onStrand k f).hostGot = s.hostGot := by
  simp only [State.onStrand]; split <;> rfl
@[simp] theorem State.onStrand_hostL (s : State) (k : Nat) (f : Strand → Strand) : (s.onStrand k f).hostL = s.hostL := by
  simp only [State.onStrand]; split <;> rfl
@[simp] theorem State.onStrand_agenda (s : State) (k : Nat) (f : Strand → Strand) : (s.onStrand k f).agenda = s.agenda := by
  simp only [State.onStrand]; split <;> rfl
@[simp] theorem State.onStrand_choice (s : State) (k : Nat) (f : Strand → Strand) : (s.onStrand k f).choice = s.choice := by
  simp only [State.onStrand]; split <;> rfl
@[simp] theorem State.onStrand_cur (s : State) (k : Nat) (f : Strand → Strand) : (s.onStrand k f).cur = s.cur := by
  simp only [State.onStrand]; split <;> rfl

/-! ### State.idled -/

@[simp] theorem State.idled_mem (s : State) (k : Nat) (b : Bool) : (s.idled k b).mem = s.mem := by
  simp only [State.idled]; split <;> rfl
@[simp] theorem State.idled_empties (s : State) (k : Nat) (b : Bool) : (s.idled k b).empties = s.empties := by
  simp only [State.idled]; split <;> rfl
@[simp] theorem State.idled_poison (s : State) (k : Nat) (b : Bool) : (s.idled k b).poison = s.poison := by
  simp only [State.idled]; split <;> rfl
@[simp] theorem State.idled_marks (s : State) (k : Nat) (b : Bool) : (s.idled k b).marks = s.marks := by
  simp only [State.idled]; split <;> rfl
@[simp] theorem State.idled_dies (s : State) (k : Nat) (b : Bool) : (s.idled k b).dies = s.dies := by
  simp only [State.idled]; split <;> rfl
@[simp] theorem State.idled_tiles (s : State) (k : Nat) (b : Bool) : (s.idled k b).tiles = s.tiles := by
  simp only [State.idled]; split <;> rfl
@[simp] theorem State.idled_strands (s : State) (k : Nat) (b : Bool) : (s.idled k b).strands = s.strands := by
  simp only [State.idled]; split <;> rfl
@[simp] theorem State.idled_edges (s : State) (k : Nat) (b : Bool) : (s.idled k b).edges = s.edges := by
  simp only [State.idled]; split <;> rfl
@[simp] theorem State.idled_time (s : State) (k : Nat) (b : Bool) : (s.idled k b).time = s.time := by
  simp only [State.idled]; split <;> rfl
@[simp] theorem State.idled_semOwner (s : State) (k : Nat) (b : Bool) : (s.idled k b).semOwner = s.semOwner := by
  simp only [State.idled]; split <;> rfl
@[simp] theorem State.idled_semExpired (s : State) (k : Nat) (b : Bool) : (s.idled k b).semExpired = s.semExpired := by
  simp only [State.idled]; split <;> rfl
@[simp] theorem State.idled_semLease (s : State) (k : Nat) (b : Bool) : (s.idled k b).semLease = s.semLease := by
  simp only [State.idled]; split <;> rfl
@[simp] theorem State.idled_epoch (s : State) (k : Nat) (b : Bool) : (s.idled k b).epoch = s.epoch := by
  simp only [State.idled]; split <;> rfl
@[simp] theorem State.idled_recLines (s : State) (k : Nat) (b : Bool) : (s.idled k b).recLines = s.recLines := by
  simp only [State.idled]; split <;> rfl
@[simp] theorem State.idled_told (s : State) (k : Nat) (b : Bool) : (s.idled k b).told = s.told := by
  simp only [State.idled]; split <;> rfl
@[simp] theorem State.idled_flash (s : State) (k : Nat) (b : Bool) : (s.idled k b).flash = s.flash := by
  simp only [State.idled]; split <;> rfl
@[simp] theorem State.idled_portsDown (s : State) (k : Nat) (b : Bool) : (s.idled k b).portsDown = s.portsDown := by
  simp only [State.idled]; split <;> rfl
@[simp] theorem State.idled_hostMap (s : State) (k : Nat) (b : Bool) : (s.idled k b).hostMap = s.hostMap := by
  simp only [State.idled]; split <;> rfl
@[simp] theorem State.idled_inputs (s : State) (k : Nat) (b : Bool) : (s.idled k b).inputs = s.inputs := by
  simp only [State.idled]; split <;> rfl
@[simp] theorem State.idled_waiting (s : State) (k : Nat) (b : Bool) : (s.idled k b).waiting = s.waiting := by
  simp only [State.idled]; split <;> rfl
@[simp] theorem State.idled_hostGot (s : State) (k : Nat) (b : Bool) : (s.idled k b).hostGot = s.hostGot := by
  simp only [State.idled]; split <;> rfl
@[simp] theorem State.idled_hostL (s : State) (k : Nat) (b : Bool) : (s.idled k b).hostL = s.hostL := by
  simp only [State.idled]; split <;> rfl
@[simp] theorem State.idled_agenda (s : State) (k : Nat) (b : Bool) : (s.idled k b).agenda = s.agenda := by
  simp only [State.idled]; split <;> rfl
@[simp] theorem State.idled_choice (s : State) (k : Nat) (b : Bool) : (s.idled k b).choice = s.choice := by
  simp only [State.idled]; split <;> rfl
@[simp] theorem State.idled_cur (s : State) (k : Nat) (b : Bool) : (s.idled k b).cur = s.cur := by
  simp only [State.idled]; split <;> rfl

/-! ### Strand.setQueue -/

@[simp] theorem Strand.setQueue_id (st : Strand) (c : Nat) (l : List QWord) : (st.setQueue c l).id = st.id := rfl
@[simp] theorem Strand.setQueue_pc (st : Strand) (c : Nat) (l : List QWord) : (st.setQueue c l).pc = st.pc := rfl
@[simp] theorem Strand.setQueue_x (st : Strand) (c : Nat) (l : List QWord) : (st.setQueue c l).x = st.x := rfl
@[simp] theorem Strand.setQueue_sp (st : Strand) (c : Nat) (l : List QWord) : (st.setQueue c l).sp = st.sp := rfl
@[simp] theorem Strand.setQueue_g (st : Strand) (c : Nat) (l : List QWord) : (st.setQueue c l).g = st.g := rfl
@[simp] theorem Strand.setQueue_v (st : Strand) (c : Nat) (l : List QWord) : (st.setQueue c l).v = st.v := rfl
@[simp] theorem Strand.setQueue_p (st : Strand) (c : Nat) (l : List QWord) : (st.setQueue c l).p = st.p := rfl
@[simp] theorem Strand.setQueue_lc (st : Strand) (c : Nat) (l : List QWord) : (st.setQueue c l).lc = st.lc := rfl
@[simp] theorem Strand.setQueue_base (st : Strand) (c : Nat) (l : List QWord) : (st.setQueue c l).base = st.base := rfl
@[simp] theorem Strand.setQueue_q (st : Strand) (c : Nat) (l : List QWord) : (st.setQueue c l).q = st.q := rfl
@[simp] theorem Strand.setQueue_w (st : Strand) (c : Nat) (l : List QWord) : (st.setQueue c l).w = st.w := rfl
@[simp] theorem Strand.setQueue_xg (st : Strand) (c : Nat) (l : List QWord) : (st.setQueue c l).xg = st.xg := rfl
@[simp] theorem Strand.setQueue_bq (st : Strand) (c : Nat) (l : List QWord) : (st.setQueue c l).bq = st.bq := rfl
@[simp] theorem Strand.setQueue_fmt (st : Strand) (c : Nat) (l : List QWord) : (st.setQueue c l).fmt = st.fmt := rfl
@[simp] theorem Strand.setQueue_tok (st : Strand) (c : Nat) (l : List QWord) : (st.setQueue c l).tok = st.tok := rfl
@[simp] theorem Strand.setQueue_eq (st : Strand) (c : Nat) (l : List QWord) : (st.setQueue c l).eq = Tab.put st.eq c l := rfl
@[simp] theorem Strand.setQueue_disp (st : Strand) (c : Nat) (l : List QWord) : (st.setQueue c l).disp = st.disp := rfl
@[simp] theorem Strand.setQueue_hold (st : Strand) (c : Nat) (l : List QWord) : (st.setQueue c l).hold = st.hold := rfl
@[simp] theorem Strand.setQueue_land (st : Strand) (c : Nat) (l : List QWord) : (st.setQueue c l).land = st.land := rfl
@[simp] theorem Strand.setQueue_fresh (st : Strand) (c : Nat) (l : List QWord) : (st.setQueue c l).fresh = st.fresh := rfl
@[simp] theorem Strand.setQueue_lq (st : Strand) (c : Nat) (l : List QWord) : (st.setQueue c l).lq = st.lq := rfl
@[simp] theorem Strand.setQueue_sq (st : Strand) (c : Nat) (l : List QWord) : (st.setQueue c l).sq = st.sq := rfl
@[simp] theorem Strand.setQueue_mq (st : Strand) (c : Nat) (l : List QWord) : (st.setQueue c l).mq = st.mq := rfl
@[simp] theorem Strand.setQueue_least (st : Strand) (c : Nat) (l : List QWord) : (st.setQueue c l).least = st.least := rfl
@[simp] theorem Strand.setQueue_fly (st : Strand) (c : Nat) (l : List QWord) : (st.setQueue c l).fly = st.fly := rfl
@[simp] theorem Strand.setQueue_now (st : Strand) (c : Nat) (l : List QWord) : (st.setQueue c l).now = st.now := rfl
@[simp] theorem Strand.setQueue_eng (st : Strand) (c : Nat) (l : List QWord) : (st.setQueue c l).eng = st.eng := rfl
@[simp] theorem Strand.setQueue_seq (st : Strand) (c : Nat) (l : List QWord) : (st.setQueue c l).seq = st.seq := rfl
@[simp] theorem Strand.setQueue_aGap (st : Strand) (c : Nat) (l : List QWord) : (st.setQueue c l).aGap = st.aGap := rfl
@[simp] theorem Strand.setQueue_held (st : Strand) (c : Nat) (l : List QWord) : (st.setQueue c l).held = st.held := rfl
@[simp] theorem Strand.setQueue_remain (st : Strand) (c : Nat) (l : List QWord) : (st.setQueue c l).remain = st.remain := rfl
@[simp] theorem Strand.setQueue_run (st : Strand) (c : Nat) (l : List QWord) : (st.setQueue c l).run = st.run := rfl
@[simp] theorem Strand.setQueue_rmode (st : Strand) (c : Nat) (l : List QWord) : (st.setQueue c l).rmode = st.rmode := rfl
@[simp] theorem Strand.setQueue_mac (st : Strand) (c : Nat) (l : List QWord) : (st.setQueue c l).mac = st.mac := rfl
@[simp] theorem Strand.setQueue_mops (st : Strand) (c : Nat) (l : List QWord) : (st.setQueue c l).mops = st.mops := rfl
@[simp] theorem Strand.setQueue_want (st : Strand) (c : Nat) (l : List QWord) : (st.setQueue c l).want = st.want := rfl
@[simp] theorem Strand.setQueue_reA (st : Strand) (c : Nat) (l : List QWord) : (st.setQueue c l).reA = st.reA := rfl
@[simp] theorem Strand.setQueue_reS (st : Strand) (c : Nat) (l : List QWord) : (st.setQueue c l).reS = st.reS := rfl
@[simp] theorem Strand.setQueue_susp (st : Strand) (c : Nat) (l : List QWord) : (st.setQueue c l).susp = st.susp := rfl
@[simp] theorem Strand.setQueue_late (st : Strand) (c : Nat) (l : List QWord) : (st.setQueue c l).late = st.late := rfl
@[simp] theorem Strand.setQueue_took (st : Strand) (c : Nat) (l : List QWord) : (st.setQueue c l).took = st.took := rfl
@[simp] theorem Strand.setQueue_arr (st : Strand) (c : Nat) (l : List QWord) : (st.setQueue c l).arr = st.arr := rfl
@[simp] theorem Strand.setQueue_darr (st : Strand) (c : Nat) (l : List QWord) : (st.setQueue c l).darr = st.darr := rfl
@[simp] theorem Strand.setQueue_phase (st : Strand) (c : Nat) (l : List QWord) : (st.setQueue c l).phase = st.phase := rfl
@[simp] theorem Strand.setQueue_target (st : Strand) (c : Nat) (l : List QWord) : (st.setQueue c l).target = st.target := rfl
@[simp] theorem Strand.setQueue_waits (st : Strand) (c : Nat) (l : List QWord) : (st.setQueue c l).waits = st.waits := rfl
@[simp] theorem Strand.setQueue_stop (st : Strand) (c : Nat) (l : List QWord) : (st.setQueue c l).stop = st.stop := rfl
@[simp] theorem Strand.setQueue_fq (st : Strand) (c : Nat) (l : List QWord) : (st.setQueue c l).fq = st.fq := rfl
@[simp] theorem Strand.setQueue_bad (st : Strand) (c : Nat) (l : List QWord) : (st.setQueue c l).bad = st.bad := rfl

/-! ### Strand.toLoad -/

@[simp] theorem Strand.toLoad_id (st : Strand) (m : MemOp) : (Strand.toLoad m st).id = st.id := rfl
@[simp] theorem Strand.toLoad_pc (st : Strand) (m : MemOp) : (Strand.toLoad m st).pc = st.pc := rfl
@[simp] theorem Strand.toLoad_x (st : Strand) (m : MemOp) : (Strand.toLoad m st).x = st.x := rfl
@[simp] theorem Strand.toLoad_sp (st : Strand) (m : MemOp) : (Strand.toLoad m st).sp = st.sp := rfl
@[simp] theorem Strand.toLoad_g (st : Strand) (m : MemOp) : (Strand.toLoad m st).g = st.g := rfl
@[simp] theorem Strand.toLoad_v (st : Strand) (m : MemOp) : (Strand.toLoad m st).v = st.v := rfl
@[simp] theorem Strand.toLoad_p (st : Strand) (m : MemOp) : (Strand.toLoad m st).p = st.p := rfl
@[simp] theorem Strand.toLoad_lc (st : Strand) (m : MemOp) : (Strand.toLoad m st).lc = st.lc := rfl
@[simp] theorem Strand.toLoad_base (st : Strand) (m : MemOp) : (Strand.toLoad m st).base = st.base := rfl
@[simp] theorem Strand.toLoad_q (st : Strand) (m : MemOp) : (Strand.toLoad m st).q = st.q := rfl
@[simp] theorem Strand.toLoad_w (st : Strand) (m : MemOp) : (Strand.toLoad m st).w = st.w := rfl
@[simp] theorem Strand.toLoad_xg (st : Strand) (m : MemOp) : (Strand.toLoad m st).xg = st.xg := rfl
@[simp] theorem Strand.toLoad_bq (st : Strand) (m : MemOp) : (Strand.toLoad m st).bq = st.bq := rfl
@[simp] theorem Strand.toLoad_fmt (st : Strand) (m : MemOp) : (Strand.toLoad m st).fmt = st.fmt := rfl
@[simp] theorem Strand.toLoad_tok (st : Strand) (m : MemOp) : (Strand.toLoad m st).tok = st.tok := rfl
@[simp] theorem Strand.toLoad_eq (st : Strand) (m : MemOp) : (Strand.toLoad m st).eq = st.eq := rfl
@[simp] theorem Strand.toLoad_disp (st : Strand) (m : MemOp) : (Strand.toLoad m st).disp = st.disp := rfl
@[simp] theorem Strand.toLoad_hold (st : Strand) (m : MemOp) : (Strand.toLoad m st).hold = st.hold := rfl
@[simp] theorem Strand.toLoad_land (st : Strand) (m : MemOp) : (Strand.toLoad m st).land = st.land := rfl
@[simp] theorem Strand.toLoad_fresh (st : Strand) (m : MemOp) : (Strand.toLoad m st).fresh = st.fresh := rfl
@[simp] theorem Strand.toLoad_lq (st : Strand) (m : MemOp) : (Strand.toLoad m st).lq = st.lq ++ [m] := rfl
@[simp] theorem Strand.toLoad_sq (st : Strand) (m : MemOp) : (Strand.toLoad m st).sq = st.sq := rfl
@[simp] theorem Strand.toLoad_mq (st : Strand) (m : MemOp) : (Strand.toLoad m st).mq = st.mq := rfl
@[simp] theorem Strand.toLoad_least (st : Strand) (m : MemOp) : (Strand.toLoad m st).least = st.least := rfl
@[simp] theorem Strand.toLoad_fly (st : Strand) (m : MemOp) : (Strand.toLoad m st).fly = st.fly := rfl
@[simp] theorem Strand.toLoad_now (st : Strand) (m : MemOp) : (Strand.toLoad m st).now = st.now := rfl
@[simp] theorem Strand.toLoad_eng (st : Strand) (m : MemOp) : (Strand.toLoad m st).eng = st.eng := rfl
@[simp] theorem Strand.toLoad_seq (st : Strand) (m : MemOp) : (Strand.toLoad m st).seq = st.seq := rfl
@[simp] theorem Strand.toLoad_aGap (st : Strand) (m : MemOp) : (Strand.toLoad m st).aGap = st.aGap := rfl
@[simp] theorem Strand.toLoad_held (st : Strand) (m : MemOp) : (Strand.toLoad m st).held = st.held := rfl
@[simp] theorem Strand.toLoad_remain (st : Strand) (m : MemOp) : (Strand.toLoad m st).remain = st.remain := rfl
@[simp] theorem Strand.toLoad_run (st : Strand) (m : MemOp) : (Strand.toLoad m st).run = st.run := rfl
@[simp] theorem Strand.toLoad_rmode (st : Strand) (m : MemOp) : (Strand.toLoad m st).rmode = st.rmode := rfl
@[simp] theorem Strand.toLoad_mac (st : Strand) (m : MemOp) : (Strand.toLoad m st).mac = st.mac := rfl
@[simp] theorem Strand.toLoad_mops (st : Strand) (m : MemOp) : (Strand.toLoad m st).mops = st.mops := rfl
@[simp] theorem Strand.toLoad_want (st : Strand) (m : MemOp) : (Strand.toLoad m st).want = st.want := rfl
@[simp] theorem Strand.toLoad_reA (st : Strand) (m : MemOp) : (Strand.toLoad m st).reA = st.reA := rfl
@[simp] theorem Strand.toLoad_reS (st : Strand) (m : MemOp) : (Strand.toLoad m st).reS = st.reS := rfl
@[simp] theorem Strand.toLoad_susp (st : Strand) (m : MemOp) : (Strand.toLoad m st).susp = st.susp := rfl
@[simp] theorem Strand.toLoad_late (st : Strand) (m : MemOp) : (Strand.toLoad m st).late = st.late := rfl
@[simp] theorem Strand.toLoad_took (st : Strand) (m : MemOp) : (Strand.toLoad m st).took = st.took := rfl
@[simp] theorem Strand.toLoad_arr (st : Strand) (m : MemOp) : (Strand.toLoad m st).arr = st.arr := rfl
@[simp] theorem Strand.toLoad_darr (st : Strand) (m : MemOp) : (Strand.toLoad m st).darr = st.darr := rfl
@[simp] theorem Strand.toLoad_phase (st : Strand) (m : MemOp) : (Strand.toLoad m st).phase = st.phase := rfl
@[simp] theorem Strand.toLoad_target (st : Strand) (m : MemOp) : (Strand.toLoad m st).target = st.target := rfl
@[simp] theorem Strand.toLoad_waits (st : Strand) (m : MemOp) : (Strand.toLoad m st).waits = st.waits := rfl
@[simp] theorem Strand.toLoad_stop (st : Strand) (m : MemOp) : (Strand.toLoad m st).stop = st.stop := rfl
@[simp] theorem Strand.toLoad_fq (st : Strand) (m : MemOp) : (Strand.toLoad m st).fq = st.fq := rfl
@[simp] theorem Strand.toLoad_bad (st : Strand) (m : MemOp) : (Strand.toLoad m st).bad = st.bad := rfl

/-! ### Strand.toStore -/

@[simp] theorem Strand.toStore_id (st : Strand) (m : MemOp) : (Strand.toStore m st).id = st.id := rfl
@[simp] theorem Strand.toStore_pc (st : Strand) (m : MemOp) : (Strand.toStore m st).pc = st.pc := rfl
@[simp] theorem Strand.toStore_x (st : Strand) (m : MemOp) : (Strand.toStore m st).x = st.x := rfl
@[simp] theorem Strand.toStore_sp (st : Strand) (m : MemOp) : (Strand.toStore m st).sp = st.sp := rfl
@[simp] theorem Strand.toStore_g (st : Strand) (m : MemOp) : (Strand.toStore m st).g = st.g := rfl
@[simp] theorem Strand.toStore_v (st : Strand) (m : MemOp) : (Strand.toStore m st).v = st.v := rfl
@[simp] theorem Strand.toStore_p (st : Strand) (m : MemOp) : (Strand.toStore m st).p = st.p := rfl
@[simp] theorem Strand.toStore_lc (st : Strand) (m : MemOp) : (Strand.toStore m st).lc = st.lc := rfl
@[simp] theorem Strand.toStore_base (st : Strand) (m : MemOp) : (Strand.toStore m st).base = st.base := rfl
@[simp] theorem Strand.toStore_q (st : Strand) (m : MemOp) : (Strand.toStore m st).q = st.q := rfl
@[simp] theorem Strand.toStore_w (st : Strand) (m : MemOp) : (Strand.toStore m st).w = st.w := rfl
@[simp] theorem Strand.toStore_xg (st : Strand) (m : MemOp) : (Strand.toStore m st).xg = st.xg := rfl
@[simp] theorem Strand.toStore_bq (st : Strand) (m : MemOp) : (Strand.toStore m st).bq = st.bq := rfl
@[simp] theorem Strand.toStore_fmt (st : Strand) (m : MemOp) : (Strand.toStore m st).fmt = st.fmt := rfl
@[simp] theorem Strand.toStore_tok (st : Strand) (m : MemOp) : (Strand.toStore m st).tok = st.tok := rfl
@[simp] theorem Strand.toStore_eq (st : Strand) (m : MemOp) : (Strand.toStore m st).eq = st.eq := rfl
@[simp] theorem Strand.toStore_disp (st : Strand) (m : MemOp) : (Strand.toStore m st).disp = st.disp := rfl
@[simp] theorem Strand.toStore_hold (st : Strand) (m : MemOp) : (Strand.toStore m st).hold = st.hold := rfl
@[simp] theorem Strand.toStore_land (st : Strand) (m : MemOp) : (Strand.toStore m st).land = st.land := rfl
@[simp] theorem Strand.toStore_fresh (st : Strand) (m : MemOp) : (Strand.toStore m st).fresh = st.fresh := rfl
@[simp] theorem Strand.toStore_lq (st : Strand) (m : MemOp) : (Strand.toStore m st).lq = st.lq := rfl
@[simp] theorem Strand.toStore_sq (st : Strand) (m : MemOp) : (Strand.toStore m st).sq = st.sq ++ [m] := rfl
@[simp] theorem Strand.toStore_mq (st : Strand) (m : MemOp) : (Strand.toStore m st).mq = st.mq := rfl
@[simp] theorem Strand.toStore_least (st : Strand) (m : MemOp) : (Strand.toStore m st).least = st.least := rfl
@[simp] theorem Strand.toStore_fly (st : Strand) (m : MemOp) : (Strand.toStore m st).fly = st.fly := rfl
@[simp] theorem Strand.toStore_now (st : Strand) (m : MemOp) : (Strand.toStore m st).now = st.now := rfl
@[simp] theorem Strand.toStore_eng (st : Strand) (m : MemOp) : (Strand.toStore m st).eng = st.eng := rfl
@[simp] theorem Strand.toStore_seq (st : Strand) (m : MemOp) : (Strand.toStore m st).seq = st.seq := rfl
@[simp] theorem Strand.toStore_aGap (st : Strand) (m : MemOp) : (Strand.toStore m st).aGap = st.aGap := rfl
@[simp] theorem Strand.toStore_held (st : Strand) (m : MemOp) : (Strand.toStore m st).held = st.held := rfl
@[simp] theorem Strand.toStore_remain (st : Strand) (m : MemOp) : (Strand.toStore m st).remain = st.remain := rfl
@[simp] theorem Strand.toStore_run (st : Strand) (m : MemOp) : (Strand.toStore m st).run = st.run := rfl
@[simp] theorem Strand.toStore_rmode (st : Strand) (m : MemOp) : (Strand.toStore m st).rmode = st.rmode := rfl
@[simp] theorem Strand.toStore_mac (st : Strand) (m : MemOp) : (Strand.toStore m st).mac = st.mac := rfl
@[simp] theorem Strand.toStore_mops (st : Strand) (m : MemOp) : (Strand.toStore m st).mops = st.mops := rfl
@[simp] theorem Strand.toStore_want (st : Strand) (m : MemOp) : (Strand.toStore m st).want = st.want := rfl
@[simp] theorem Strand.toStore_reA (st : Strand) (m : MemOp) : (Strand.toStore m st).reA = st.reA := rfl
@[simp] theorem Strand.toStore_reS (st : Strand) (m : MemOp) : (Strand.toStore m st).reS = st.reS := rfl
@[simp] theorem Strand.toStore_susp (st : Strand) (m : MemOp) : (Strand.toStore m st).susp = st.susp := rfl
@[simp] theorem Strand.toStore_late (st : Strand) (m : MemOp) : (Strand.toStore m st).late = st.late := rfl
@[simp] theorem Strand.toStore_took (st : Strand) (m : MemOp) : (Strand.toStore m st).took = st.took := rfl
@[simp] theorem Strand.toStore_arr (st : Strand) (m : MemOp) : (Strand.toStore m st).arr = st.arr := rfl
@[simp] theorem Strand.toStore_darr (st : Strand) (m : MemOp) : (Strand.toStore m st).darr = st.darr := rfl
@[simp] theorem Strand.toStore_phase (st : Strand) (m : MemOp) : (Strand.toStore m st).phase = st.phase := rfl
@[simp] theorem Strand.toStore_target (st : Strand) (m : MemOp) : (Strand.toStore m st).target = st.target := rfl
@[simp] theorem Strand.toStore_waits (st : Strand) (m : MemOp) : (Strand.toStore m st).waits = st.waits := rfl
@[simp] theorem Strand.toStore_stop (st : Strand) (m : MemOp) : (Strand.toStore m st).stop = st.stop := rfl
@[simp] theorem Strand.toStore_fq (st : Strand) (m : MemOp) : (Strand.toStore m st).fq = st.fq := rfl
@[simp] theorem Strand.toStore_bad (st : Strand) (m : MemOp) : (Strand.toStore m st).bad = st.bad := rfl

/-! ### Strand.popped -/

@[simp] theorem Strand.popped_id (st : Strand) (i : Instr) : (st.popped i).id = st.id := rfl
@[simp] theorem Strand.popped_pc (st : Strand) (i : Instr) : (st.popped i).pc = st.pc := rfl
@[simp] theorem Strand.popped_x (st : Strand) (i : Instr) : (st.popped i).x = st.x := rfl
@[simp] theorem Strand.popped_sp (st : Strand) (i : Instr) : (st.popped i).sp = st.sp := rfl
@[simp] theorem Strand.popped_g (st : Strand) (i : Instr) : (st.popped i).g = st.g := rfl
@[simp] theorem Strand.popped_v (st : Strand) (i : Instr) : (st.popped i).v = st.v := rfl
@[simp] theorem Strand.popped_p (st : Strand) (i : Instr) : (st.popped i).p = st.p := rfl
@[simp] theorem Strand.popped_lc (st : Strand) (i : Instr) : (st.popped i).lc = st.lc := rfl
@[simp] theorem Strand.popped_base (st : Strand) (i : Instr) : (st.popped i).base = st.base := rfl
@[simp] theorem Strand.popped_bq (st : Strand) (i : Instr) : (st.popped i).bq = st.bq := rfl
@[simp] theorem Strand.popped_fmt (st : Strand) (i : Instr) : (st.popped i).fmt = st.fmt := rfl
@[simp] theorem Strand.popped_tok (st : Strand) (i : Instr) : (st.popped i).tok = st.tok := rfl
@[simp] theorem Strand.popped_eq (st : Strand) (i : Instr) : (st.popped i).eq = st.eq := rfl
@[simp] theorem Strand.popped_disp (st : Strand) (i : Instr) : (st.popped i).disp = st.disp := rfl
@[simp] theorem Strand.popped_hold (st : Strand) (i : Instr) : (st.popped i).hold = st.hold := rfl
@[simp] theorem Strand.popped_land (st : Strand) (i : Instr) : (st.popped i).land = st.land := rfl
@[simp] theorem Strand.popped_fresh (st : Strand) (i : Instr) : (st.popped i).fresh = st.fresh := rfl
@[simp] theorem Strand.popped_lq (st : Strand) (i : Instr) : (st.popped i).lq = st.lq := rfl
@[simp] theorem Strand.popped_sq (st : Strand) (i : Instr) : (st.popped i).sq = st.sq := rfl
@[simp] theorem Strand.popped_mq (st : Strand) (i : Instr) : (st.popped i).mq = st.mq := rfl
@[simp] theorem Strand.popped_least (st : Strand) (i : Instr) : (st.popped i).least = st.least := rfl
@[simp] theorem Strand.popped_fly (st : Strand) (i : Instr) : (st.popped i).fly = st.fly := rfl
@[simp] theorem Strand.popped_now (st : Strand) (i : Instr) : (st.popped i).now = st.now := rfl
@[simp] theorem Strand.popped_eng (st : Strand) (i : Instr) : (st.popped i).eng = st.eng := rfl
@[simp] theorem Strand.popped_seq (st : Strand) (i : Instr) : (st.popped i).seq = st.seq := rfl
@[simp] theorem Strand.popped_aGap (st : Strand) (i : Instr) : (st.popped i).aGap = st.aGap := rfl
@[simp] theorem Strand.popped_held (st : Strand) (i : Instr) : (st.popped i).held = st.held := rfl
@[simp] theorem Strand.popped_remain (st : Strand) (i : Instr) : (st.popped i).remain = st.remain := rfl
@[simp] theorem Strand.popped_run (st : Strand) (i : Instr) : (st.popped i).run = st.run := rfl
@[simp] theorem Strand.popped_rmode (st : Strand) (i : Instr) : (st.popped i).rmode = st.rmode := rfl
@[simp] theorem Strand.popped_mac (st : Strand) (i : Instr) : (st.popped i).mac = st.mac := rfl
@[simp] theorem Strand.popped_mops (st : Strand) (i : Instr) : (st.popped i).mops = st.mops := rfl
@[simp] theorem Strand.popped_want (st : Strand) (i : Instr) : (st.popped i).want = st.want := rfl
@[simp] theorem Strand.popped_reA (st : Strand) (i : Instr) : (st.popped i).reA = st.reA := rfl
@[simp] theorem Strand.popped_reS (st : Strand) (i : Instr) : (st.popped i).reS = st.reS := rfl
@[simp] theorem Strand.popped_susp (st : Strand) (i : Instr) : (st.popped i).susp = st.susp := rfl
@[simp] theorem Strand.popped_late (st : Strand) (i : Instr) : (st.popped i).late = st.late := rfl
@[simp] theorem Strand.popped_took (st : Strand) (i : Instr) : (st.popped i).took = st.took := rfl
@[simp] theorem Strand.popped_arr (st : Strand) (i : Instr) : (st.popped i).arr = st.arr := rfl
@[simp] theorem Strand.popped_darr (st : Strand) (i : Instr) : (st.popped i).darr = st.darr := rfl
@[simp] theorem Strand.popped_phase (st : Strand) (i : Instr) : (st.popped i).phase = st.phase := rfl
@[simp] theorem Strand.popped_target (st : Strand) (i : Instr) : (st.popped i).target = st.target := rfl
@[simp] theorem Strand.popped_waits (st : Strand) (i : Instr) : (st.popped i).waits = st.waits := rfl
@[simp] theorem Strand.popped_stop (st : Strand) (i : Instr) : (st.popped i).stop = st.stop := rfl
@[simp] theorem Strand.popped_fq (st : Strand) (i : Instr) : (st.popped i).fq = st.fq := rfl
@[simp] theorem Strand.popped_bad (st : Strand) (i : Instr) : (st.popped i).bad = st.bad := rfl

/-! ### Strand.rebase -/

@[simp] theorem Strand.rebase_id (st : Strand) : st.rebase.id = st.id := rfl
@[simp] theorem Strand.rebase_pc (st : Strand) : st.rebase.pc = st.pc := rfl
@[simp] theorem Strand.rebase_x (st : Strand) : st.rebase.x = st.x := rfl
@[simp] theorem Strand.rebase_sp (st : Strand) : st.rebase.sp = st.sp := rfl
@[simp] theorem Strand.rebase_g (st : Strand) : st.rebase.g = st.g := rfl
@[simp] theorem Strand.rebase_v (st : Strand) : st.rebase.v = st.v := rfl
@[simp] theorem Strand.rebase_p (st : Strand) : st.rebase.p = st.p := rfl
@[simp] theorem Strand.rebase_lc (st : Strand) : st.rebase.lc = st.lc := rfl
@[simp] theorem Strand.rebase_base (st : Strand) : st.rebase.base = st.base := rfl
@[simp] theorem Strand.rebase_q (st : Strand) : st.rebase.q = st.q := rfl
@[simp] theorem Strand.rebase_w (st : Strand) : st.rebase.w = st.w := rfl
@[simp] theorem Strand.rebase_xg (st : Strand) : st.rebase.xg = st.xg := rfl
@[simp] theorem Strand.rebase_bq (st : Strand) : st.rebase.bq = st.bq := rfl
@[simp] theorem Strand.rebase_fmt (st : Strand) : st.rebase.fmt = st.fmt := rfl
@[simp] theorem Strand.rebase_tok (st : Strand) : st.rebase.tok = st.tok := rfl
@[simp] theorem Strand.rebase_eq (st : Strand) : st.rebase.eq = st.eq := rfl
@[simp] theorem Strand.rebase_disp (st : Strand) : st.rebase.disp = st.disp := rfl
@[simp] theorem Strand.rebase_hold (st : Strand) : st.rebase.hold = st.hold := rfl
@[simp] theorem Strand.rebase_land (st : Strand) : st.rebase.land = st.land := rfl
@[simp] theorem Strand.rebase_fresh (st : Strand) : st.rebase.fresh = st.fresh := rfl
@[simp] theorem Strand.rebase_lq (st : Strand) : st.rebase.lq = st.lq := rfl
@[simp] theorem Strand.rebase_sq (st : Strand) : st.rebase.sq = st.sq := rfl
@[simp] theorem Strand.rebase_mq (st : Strand) : st.rebase.mq = st.mq := rfl
@[simp] theorem Strand.rebase_least (st : Strand) : st.rebase.least = 0 := rfl
@[simp] theorem Strand.rebase_fly (st : Strand) : st.rebase.fly = [] := rfl
@[simp] theorem Strand.rebase_now (st : Strand) : st.rebase.now = 0 := rfl
@[simp] theorem Strand.rebase_eng (st : Strand) : st.rebase.eng = [] := rfl
@[simp] theorem Strand.rebase_seq (st : Strand) : st.rebase.seq = st.seq := rfl
@[simp] theorem Strand.rebase_aGap (st : Strand) : st.rebase.aGap = st.aGap := rfl
@[simp] theorem Strand.rebase_held (st : Strand) : st.rebase.held = st.held := rfl
@[simp] theorem Strand.rebase_remain (st : Strand) : st.rebase.remain = st.remain := rfl
@[simp] theorem Strand.rebase_run (st : Strand) : st.rebase.run = st.run := rfl
@[simp] theorem Strand.rebase_rmode (st : Strand) : st.rebase.rmode = st.rmode := rfl
@[simp] theorem Strand.rebase_mac (st : Strand) : st.rebase.mac = st.mac := rfl
@[simp] theorem Strand.rebase_mops (st : Strand) : st.rebase.mops = st.mops := rfl
@[simp] theorem Strand.rebase_want (st : Strand) : st.rebase.want = st.want := rfl
@[simp] theorem Strand.rebase_reA (st : Strand) : st.rebase.reA = st.reA := rfl
@[simp] theorem Strand.rebase_reS (st : Strand) : st.rebase.reS = st.reS := rfl
@[simp] theorem Strand.rebase_susp (st : Strand) : st.rebase.susp = st.susp := rfl
@[simp] theorem Strand.rebase_late (st : Strand) : st.rebase.late = st.late := rfl
@[simp] theorem Strand.rebase_took (st : Strand) : st.rebase.took = st.took := rfl
@[simp] theorem Strand.rebase_arr (st : Strand) : st.rebase.arr = st.arr := rfl
@[simp] theorem Strand.rebase_darr (st : Strand) : st.rebase.darr = st.darr := rfl
@[simp] theorem Strand.rebase_phase (st : Strand) : st.rebase.phase = st.phase := rfl
@[simp] theorem Strand.rebase_target (st : Strand) : st.rebase.target = st.target := rfl
@[simp] theorem Strand.rebase_waits (st : Strand) : st.rebase.waits = st.waits := rfl
@[simp] theorem Strand.rebase_stop (st : Strand) : st.rebase.stop = st.stop := rfl
@[simp] theorem Strand.rebase_fq (st : Strand) : st.rebase.fq = st.fq := rfl
@[simp] theorem Strand.rebase_bad (st : Strand) : st.rebase.bad = st.bad := rfl

/-! ### Strand.setX -/

@[simp] theorem Strand.setX_id (st : Strand) (n : Nat) (v : Word) : (st.setX n v).id = st.id := by
  simp only [Strand.setX]; split <;> rfl
@[simp] theorem Strand.setX_pc (st : Strand) (n : Nat) (v : Word) : (st.setX n v).pc = st.pc := by
  simp only [Strand.setX]; split <;> rfl
@[simp] theorem Strand.setX_sp (st : Strand) (n : Nat) (v : Word) : (st.setX n v).sp = st.sp := by
  simp only [Strand.setX]; split <;> rfl
@[simp] theorem Strand.setX_g (st : Strand) (n : Nat) (v : Word) : (st.setX n v).g = st.g := by
  simp only [Strand.setX]; split <;> rfl
@[simp] theorem Strand.setX_v (st : Strand) (n : Nat) (v : Word) : (st.setX n v).v = st.v := by
  simp only [Strand.setX]; split <;> rfl
@[simp] theorem Strand.setX_p (st : Strand) (n : Nat) (v : Word) : (st.setX n v).p = st.p := by
  simp only [Strand.setX]; split <;> rfl
@[simp] theorem Strand.setX_lc (st : Strand) (n : Nat) (v : Word) : (st.setX n v).lc = st.lc := by
  simp only [Strand.setX]; split <;> rfl
@[simp] theorem Strand.setX_base (st : Strand) (n : Nat) (v : Word) : (st.setX n v).base = st.base := by
  simp only [Strand.setX]; split <;> rfl
@[simp] theorem Strand.setX_q (st : Strand) (n : Nat) (v : Word) : (st.setX n v).q = st.q := by
  simp only [Strand.setX]; split <;> rfl
@[simp] theorem Strand.setX_w (st : Strand) (n : Nat) (v : Word) : (st.setX n v).w = st.w := by
  simp only [Strand.setX]; split <;> rfl
@[simp] theorem Strand.setX_xg (st : Strand) (n : Nat) (v : Word) : (st.setX n v).xg = st.xg := by
  simp only [Strand.setX]; split <;> rfl
@[simp] theorem Strand.setX_bq (st : Strand) (n : Nat) (v : Word) : (st.setX n v).bq = st.bq := by
  simp only [Strand.setX]; split <;> rfl
@[simp] theorem Strand.setX_fmt (st : Strand) (n : Nat) (v : Word) : (st.setX n v).fmt = st.fmt := by
  simp only [Strand.setX]; split <;> rfl
@[simp] theorem Strand.setX_tok (st : Strand) (n : Nat) (v : Word) : (st.setX n v).tok = st.tok := by
  simp only [Strand.setX]; split <;> rfl
@[simp] theorem Strand.setX_eq (st : Strand) (n : Nat) (v : Word) : (st.setX n v).eq = st.eq := by
  simp only [Strand.setX]; split <;> rfl
@[simp] theorem Strand.setX_disp (st : Strand) (n : Nat) (v : Word) : (st.setX n v).disp = st.disp := by
  simp only [Strand.setX]; split <;> rfl
@[simp] theorem Strand.setX_hold (st : Strand) (n : Nat) (v : Word) : (st.setX n v).hold = st.hold := by
  simp only [Strand.setX]; split <;> rfl
@[simp] theorem Strand.setX_land (st : Strand) (n : Nat) (v : Word) : (st.setX n v).land = st.land := by
  simp only [Strand.setX]; split <;> rfl
@[simp] theorem Strand.setX_fresh (st : Strand) (n : Nat) (v : Word) : (st.setX n v).fresh = st.fresh := by
  simp only [Strand.setX]; split <;> rfl
@[simp] theorem Strand.setX_lq (st : Strand) (n : Nat) (v : Word) : (st.setX n v).lq = st.lq := by
  simp only [Strand.setX]; split <;> rfl
@[simp] theorem Strand.setX_sq (st : Strand) (n : Nat) (v : Word) : (st.setX n v).sq = st.sq := by
  simp only [Strand.setX]; split <;> rfl
@[simp] theorem Strand.setX_mq (st : Strand) (n : Nat) (v : Word) : (st.setX n v).mq = st.mq := by
  simp only [Strand.setX]; split <;> rfl
@[simp] theorem Strand.setX_least (st : Strand) (n : Nat) (v : Word) : (st.setX n v).least = st.least := by
  simp only [Strand.setX]; split <;> rfl
@[simp] theorem Strand.setX_fly (st : Strand) (n : Nat) (v : Word) : (st.setX n v).fly = st.fly := by
  simp only [Strand.setX]; split <;> rfl
@[simp] theorem Strand.setX_now (st : Strand) (n : Nat) (v : Word) : (st.setX n v).now = st.now := by
  simp only [Strand.setX]; split <;> rfl
@[simp] theorem Strand.setX_eng (st : Strand) (n : Nat) (v : Word) : (st.setX n v).eng = st.eng := by
  simp only [Strand.setX]; split <;> rfl
@[simp] theorem Strand.setX_seq (st : Strand) (n : Nat) (v : Word) : (st.setX n v).seq = st.seq := by
  simp only [Strand.setX]; split <;> rfl
@[simp] theorem Strand.setX_aGap (st : Strand) (n : Nat) (v : Word) : (st.setX n v).aGap = st.aGap := by
  simp only [Strand.setX]; split <;> rfl
@[simp] theorem Strand.setX_held (st : Strand) (n : Nat) (v : Word) : (st.setX n v).held = st.held := by
  simp only [Strand.setX]; split <;> rfl
@[simp] theorem Strand.setX_remain (st : Strand) (n : Nat) (v : Word) : (st.setX n v).remain = st.remain := by
  simp only [Strand.setX]; split <;> rfl
@[simp] theorem Strand.setX_run (st : Strand) (n : Nat) (v : Word) : (st.setX n v).run = st.run := by
  simp only [Strand.setX]; split <;> rfl
@[simp] theorem Strand.setX_rmode (st : Strand) (n : Nat) (v : Word) : (st.setX n v).rmode = st.rmode := by
  simp only [Strand.setX]; split <;> rfl
@[simp] theorem Strand.setX_mac (st : Strand) (n : Nat) (v : Word) : (st.setX n v).mac = st.mac := by
  simp only [Strand.setX]; split <;> rfl
@[simp] theorem Strand.setX_mops (st : Strand) (n : Nat) (v : Word) : (st.setX n v).mops = st.mops := by
  simp only [Strand.setX]; split <;> rfl
@[simp] theorem Strand.setX_want (st : Strand) (n : Nat) (v : Word) : (st.setX n v).want = st.want := by
  simp only [Strand.setX]; split <;> rfl
@[simp] theorem Strand.setX_reA (st : Strand) (n : Nat) (v : Word) : (st.setX n v).reA = st.reA := by
  simp only [Strand.setX]; split <;> rfl
@[simp] theorem Strand.setX_reS (st : Strand) (n : Nat) (v : Word) : (st.setX n v).reS = st.reS := by
  simp only [Strand.setX]; split <;> rfl
@[simp] theorem Strand.setX_susp (st : Strand) (n : Nat) (v : Word) : (st.setX n v).susp = st.susp := by
  simp only [Strand.setX]; split <;> rfl
@[simp] theorem Strand.setX_late (st : Strand) (n : Nat) (v : Word) : (st.setX n v).late = st.late := by
  simp only [Strand.setX]; split <;> rfl
@[simp] theorem Strand.setX_took (st : Strand) (n : Nat) (v : Word) : (st.setX n v).took = st.took := by
  simp only [Strand.setX]; split <;> rfl
@[simp] theorem Strand.setX_arr (st : Strand) (n : Nat) (v : Word) : (st.setX n v).arr = st.arr := by
  simp only [Strand.setX]; split <;> rfl
@[simp] theorem Strand.setX_darr (st : Strand) (n : Nat) (v : Word) : (st.setX n v).darr = st.darr := by
  simp only [Strand.setX]; split <;> rfl
@[simp] theorem Strand.setX_phase (st : Strand) (n : Nat) (v : Word) : (st.setX n v).phase = st.phase := by
  simp only [Strand.setX]; split <;> rfl
@[simp] theorem Strand.setX_target (st : Strand) (n : Nat) (v : Word) : (st.setX n v).target = st.target := by
  simp only [Strand.setX]; split <;> rfl
@[simp] theorem Strand.setX_waits (st : Strand) (n : Nat) (v : Word) : (st.setX n v).waits = st.waits := by
  simp only [Strand.setX]; split <;> rfl
@[simp] theorem Strand.setX_stop (st : Strand) (n : Nat) (v : Word) : (st.setX n v).stop = st.stop := by
  simp only [Strand.setX]; split <;> rfl
@[simp] theorem Strand.setX_fq (st : Strand) (n : Nat) (v : Word) : (st.setX n v).fq = st.fq := by
  simp only [Strand.setX]; split <;> rfl
@[simp] theorem Strand.setX_bad (st : Strand) (n : Nat) (v : Word) : (st.setX n v).bad = st.bad := by
  simp only [Strand.setX]; split <;> rfl

/-! ### Strand.setG -/

@[simp] theorem Strand.setG_id (st : Strand) (n : Nat) (v : Word) : (st.setG n v).id = st.id := by
  simp only [Strand.setG]; split <;> rfl
@[simp] theorem Strand.setG_pc (st : Strand) (n : Nat) (v : Word) : (st.setG n v).pc = st.pc := by
  simp only [Strand.setG]; split <;> rfl
@[simp] theorem Strand.setG_x (st : Strand) (n : Nat) (v : Word) : (st.setG n v).x = st.x := by
  simp only [Strand.setG]; split <;> rfl
@[simp] theorem Strand.setG_sp (st : Strand) (n : Nat) (v : Word) : (st.setG n v).sp = st.sp := by
  simp only [Strand.setG]; split <;> rfl
@[simp] theorem Strand.setG_v (st : Strand) (n : Nat) (v : Word) : (st.setG n v).v = st.v := by
  simp only [Strand.setG]; split <;> rfl
@[simp] theorem Strand.setG_p (st : Strand) (n : Nat) (v : Word) : (st.setG n v).p = st.p := by
  simp only [Strand.setG]; split <;> rfl
@[simp] theorem Strand.setG_lc (st : Strand) (n : Nat) (v : Word) : (st.setG n v).lc = st.lc := by
  simp only [Strand.setG]; split <;> rfl
@[simp] theorem Strand.setG_base (st : Strand) (n : Nat) (v : Word) : (st.setG n v).base = st.base := by
  simp only [Strand.setG]; split <;> rfl
@[simp] theorem Strand.setG_q (st : Strand) (n : Nat) (v : Word) : (st.setG n v).q = st.q := by
  simp only [Strand.setG]; split <;> rfl
@[simp] theorem Strand.setG_w (st : Strand) (n : Nat) (v : Word) : (st.setG n v).w = st.w := by
  simp only [Strand.setG]; split <;> rfl
@[simp] theorem Strand.setG_xg (st : Strand) (n : Nat) (v : Word) : (st.setG n v).xg = st.xg := by
  simp only [Strand.setG]; split <;> rfl
@[simp] theorem Strand.setG_bq (st : Strand) (n : Nat) (v : Word) : (st.setG n v).bq = st.bq := by
  simp only [Strand.setG]; split <;> rfl
@[simp] theorem Strand.setG_fmt (st : Strand) (n : Nat) (v : Word) : (st.setG n v).fmt = st.fmt := by
  simp only [Strand.setG]; split <;> rfl
@[simp] theorem Strand.setG_tok (st : Strand) (n : Nat) (v : Word) : (st.setG n v).tok = st.tok := by
  simp only [Strand.setG]; split <;> rfl
@[simp] theorem Strand.setG_eq (st : Strand) (n : Nat) (v : Word) : (st.setG n v).eq = st.eq := by
  simp only [Strand.setG]; split <;> rfl
@[simp] theorem Strand.setG_disp (st : Strand) (n : Nat) (v : Word) : (st.setG n v).disp = st.disp := by
  simp only [Strand.setG]; split <;> rfl
@[simp] theorem Strand.setG_hold (st : Strand) (n : Nat) (v : Word) : (st.setG n v).hold = st.hold := by
  simp only [Strand.setG]; split <;> rfl
@[simp] theorem Strand.setG_land (st : Strand) (n : Nat) (v : Word) : (st.setG n v).land = st.land := by
  simp only [Strand.setG]; split <;> rfl
@[simp] theorem Strand.setG_fresh (st : Strand) (n : Nat) (v : Word) : (st.setG n v).fresh = st.fresh := by
  simp only [Strand.setG]; split <;> rfl
@[simp] theorem Strand.setG_lq (st : Strand) (n : Nat) (v : Word) : (st.setG n v).lq = st.lq := by
  simp only [Strand.setG]; split <;> rfl
@[simp] theorem Strand.setG_sq (st : Strand) (n : Nat) (v : Word) : (st.setG n v).sq = st.sq := by
  simp only [Strand.setG]; split <;> rfl
@[simp] theorem Strand.setG_mq (st : Strand) (n : Nat) (v : Word) : (st.setG n v).mq = st.mq := by
  simp only [Strand.setG]; split <;> rfl
@[simp] theorem Strand.setG_least (st : Strand) (n : Nat) (v : Word) : (st.setG n v).least = st.least := by
  simp only [Strand.setG]; split <;> rfl
@[simp] theorem Strand.setG_fly (st : Strand) (n : Nat) (v : Word) : (st.setG n v).fly = st.fly := by
  simp only [Strand.setG]; split <;> rfl
@[simp] theorem Strand.setG_now (st : Strand) (n : Nat) (v : Word) : (st.setG n v).now = st.now := by
  simp only [Strand.setG]; split <;> rfl
@[simp] theorem Strand.setG_eng (st : Strand) (n : Nat) (v : Word) : (st.setG n v).eng = st.eng := by
  simp only [Strand.setG]; split <;> rfl
@[simp] theorem Strand.setG_seq (st : Strand) (n : Nat) (v : Word) : (st.setG n v).seq = st.seq := by
  simp only [Strand.setG]; split <;> rfl
@[simp] theorem Strand.setG_aGap (st : Strand) (n : Nat) (v : Word) : (st.setG n v).aGap = st.aGap := by
  simp only [Strand.setG]; split <;> rfl
@[simp] theorem Strand.setG_held (st : Strand) (n : Nat) (v : Word) : (st.setG n v).held = st.held := by
  simp only [Strand.setG]; split <;> rfl
@[simp] theorem Strand.setG_remain (st : Strand) (n : Nat) (v : Word) : (st.setG n v).remain = st.remain := by
  simp only [Strand.setG]; split <;> rfl
@[simp] theorem Strand.setG_run (st : Strand) (n : Nat) (v : Word) : (st.setG n v).run = st.run := by
  simp only [Strand.setG]; split <;> rfl
@[simp] theorem Strand.setG_rmode (st : Strand) (n : Nat) (v : Word) : (st.setG n v).rmode = st.rmode := by
  simp only [Strand.setG]; split <;> rfl
@[simp] theorem Strand.setG_mac (st : Strand) (n : Nat) (v : Word) : (st.setG n v).mac = st.mac := by
  simp only [Strand.setG]; split <;> rfl
@[simp] theorem Strand.setG_mops (st : Strand) (n : Nat) (v : Word) : (st.setG n v).mops = st.mops := by
  simp only [Strand.setG]; split <;> rfl
@[simp] theorem Strand.setG_want (st : Strand) (n : Nat) (v : Word) : (st.setG n v).want = st.want := by
  simp only [Strand.setG]; split <;> rfl
@[simp] theorem Strand.setG_reA (st : Strand) (n : Nat) (v : Word) : (st.setG n v).reA = st.reA := by
  simp only [Strand.setG]; split <;> rfl
@[simp] theorem Strand.setG_reS (st : Strand) (n : Nat) (v : Word) : (st.setG n v).reS = st.reS := by
  simp only [Strand.setG]; split <;> rfl
@[simp] theorem Strand.setG_susp (st : Strand) (n : Nat) (v : Word) : (st.setG n v).susp = st.susp := by
  simp only [Strand.setG]; split <;> rfl
@[simp] theorem Strand.setG_late (st : Strand) (n : Nat) (v : Word) : (st.setG n v).late = st.late := by
  simp only [Strand.setG]; split <;> rfl
@[simp] theorem Strand.setG_took (st : Strand) (n : Nat) (v : Word) : (st.setG n v).took = st.took := by
  simp only [Strand.setG]; split <;> rfl
@[simp] theorem Strand.setG_arr (st : Strand) (n : Nat) (v : Word) : (st.setG n v).arr = st.arr := by
  simp only [Strand.setG]; split <;> rfl
@[simp] theorem Strand.setG_darr (st : Strand) (n : Nat) (v : Word) : (st.setG n v).darr = st.darr := by
  simp only [Strand.setG]; split <;> rfl
@[simp] theorem Strand.setG_phase (st : Strand) (n : Nat) (v : Word) : (st.setG n v).phase = st.phase := by
  simp only [Strand.setG]; split <;> rfl
@[simp] theorem Strand.setG_target (st : Strand) (n : Nat) (v : Word) : (st.setG n v).target = st.target := by
  simp only [Strand.setG]; split <;> rfl
@[simp] theorem Strand.setG_waits (st : Strand) (n : Nat) (v : Word) : (st.setG n v).waits = st.waits := by
  simp only [Strand.setG]; split <;> rfl
@[simp] theorem Strand.setG_stop (st : Strand) (n : Nat) (v : Word) : (st.setG n v).stop = st.stop := by
  simp only [Strand.setG]; split <;> rfl
@[simp] theorem Strand.setG_fq (st : Strand) (n : Nat) (v : Word) : (st.setG n v).fq = st.fq := by
  simp only [Strand.setG]; split <;> rfl

/-! ### Strand.pushA -/

@[simp] theorem Strand.pushA_id (st : Strand) (i : Instr) : (st.pushA i).id = st.id := by
  simp only [Strand.pushA]; split <;> rfl
@[simp] theorem Strand.pushA_pc (st : Strand) (i : Instr) : (st.pushA i).pc = st.pc := by
  simp only [Strand.pushA]; split <;> rfl
@[simp] theorem Strand.pushA_x (st : Strand) (i : Instr) : (st.pushA i).x = st.x := by
  simp only [Strand.pushA]; split <;> rfl
@[simp] theorem Strand.pushA_sp (st : Strand) (i : Instr) : (st.pushA i).sp = st.sp := by
  simp only [Strand.pushA]; split <;> rfl
@[simp] theorem Strand.pushA_g (st : Strand) (i : Instr) : (st.pushA i).g = st.g := by
  simp only [Strand.pushA]; split <;> rfl
@[simp] theorem Strand.pushA_v (st : Strand) (i : Instr) : (st.pushA i).v = st.v := by
  simp only [Strand.pushA]; split <;> rfl
@[simp] theorem Strand.pushA_p (st : Strand) (i : Instr) : (st.pushA i).p = st.p := by
  simp only [Strand.pushA]; split <;> rfl
@[simp] theorem Strand.pushA_lc (st : Strand) (i : Instr) : (st.pushA i).lc = st.lc := by
  simp only [Strand.pushA]; split <;> rfl
@[simp] theorem Strand.pushA_base (st : Strand) (i : Instr) : (st.pushA i).base = st.base := by
  simp only [Strand.pushA]; split <;> rfl
@[simp] theorem Strand.pushA_q (st : Strand) (i : Instr) : (st.pushA i).q = st.q := by
  simp only [Strand.pushA]; split <;> rfl
@[simp] theorem Strand.pushA_w (st : Strand) (i : Instr) : (st.pushA i).w = st.w := by
  simp only [Strand.pushA]; split <;> rfl
@[simp] theorem Strand.pushA_xg (st : Strand) (i : Instr) : (st.pushA i).xg = st.xg := by
  simp only [Strand.pushA]; split <;> rfl
@[simp] theorem Strand.pushA_bq (st : Strand) (i : Instr) : (st.pushA i).bq = st.bq := by
  simp only [Strand.pushA]; split <;> rfl
@[simp] theorem Strand.pushA_fmt (st : Strand) (i : Instr) : (st.pushA i).fmt = st.fmt := by
  simp only [Strand.pushA]; split <;> rfl
@[simp] theorem Strand.pushA_eq (st : Strand) (i : Instr) : (st.pushA i).eq = st.eq := by
  simp only [Strand.pushA]; split <;> rfl
@[simp] theorem Strand.pushA_disp (st : Strand) (i : Instr) : (st.pushA i).disp = st.disp := by
  simp only [Strand.pushA]; split <;> rfl
@[simp] theorem Strand.pushA_hold (st : Strand) (i : Instr) : (st.pushA i).hold = st.hold := by
  simp only [Strand.pushA]; split <;> rfl
@[simp] theorem Strand.pushA_land (st : Strand) (i : Instr) : (st.pushA i).land = st.land := by
  simp only [Strand.pushA]; split <;> rfl
@[simp] theorem Strand.pushA_fresh (st : Strand) (i : Instr) : (st.pushA i).fresh = st.fresh := by
  simp only [Strand.pushA]; split <;> rfl
@[simp] theorem Strand.pushA_lq (st : Strand) (i : Instr) : (st.pushA i).lq = st.lq := by
  simp only [Strand.pushA]; split <;> rfl
@[simp] theorem Strand.pushA_sq (st : Strand) (i : Instr) : (st.pushA i).sq = st.sq := by
  simp only [Strand.pushA]; split <;> rfl
@[simp] theorem Strand.pushA_mq (st : Strand) (i : Instr) : (st.pushA i).mq = st.mq := by
  simp only [Strand.pushA]; split <;> rfl
@[simp] theorem Strand.pushA_least (st : Strand) (i : Instr) : (st.pushA i).least = st.least := by
  simp only [Strand.pushA]; split <;> rfl
@[simp] theorem Strand.pushA_fly (st : Strand) (i : Instr) : (st.pushA i).fly = st.fly := by
  simp only [Strand.pushA]; split <;> rfl
@[simp] theorem Strand.pushA_now (st : Strand) (i : Instr) : (st.pushA i).now = st.now := by
  simp only [Strand.pushA]; split <;> rfl
@[simp] theorem Strand.pushA_eng (st : Strand) (i : Instr) : (st.pushA i).eng = st.eng := by
  simp only [Strand.pushA]; split <;> rfl
@[simp] theorem Strand.pushA_seq (st : Strand) (i : Instr) : (st.pushA i).seq = st.seq := by
  simp only [Strand.pushA]; split <;> rfl
@[simp] theorem Strand.pushA_aGap (st : Strand) (i : Instr) : (st.pushA i).aGap = st.aGap := by
  simp only [Strand.pushA]; split <;> rfl
@[simp] theorem Strand.pushA_held (st : Strand) (i : Instr) : (st.pushA i).held = st.held := by
  simp only [Strand.pushA]; split <;> rfl
@[simp] theorem Strand.pushA_remain (st : Strand) (i : Instr) : (st.pushA i).remain = st.remain := by
  simp only [Strand.pushA]; split <;> rfl
@[simp] theorem Strand.pushA_run (st : Strand) (i : Instr) : (st.pushA i).run = st.run := by
  simp only [Strand.pushA]; split <;> rfl
@[simp] theorem Strand.pushA_rmode (st : Strand) (i : Instr) : (st.pushA i).rmode = st.rmode := by
  simp only [Strand.pushA]; split <;> rfl
@[simp] theorem Strand.pushA_mac (st : Strand) (i : Instr) : (st.pushA i).mac = st.mac := by
  simp only [Strand.pushA]; split <;> rfl
@[simp] theorem Strand.pushA_mops (st : Strand) (i : Instr) : (st.pushA i).mops = st.mops := by
  simp only [Strand.pushA]; split <;> rfl
@[simp] theorem Strand.pushA_want (st : Strand) (i : Instr) : (st.pushA i).want = st.want := by
  simp only [Strand.pushA]; split <;> rfl
@[simp] theorem Strand.pushA_reA (st : Strand) (i : Instr) : (st.pushA i).reA = st.reA := by
  simp only [Strand.pushA]; split <;> rfl
@[simp] theorem Strand.pushA_reS (st : Strand) (i : Instr) : (st.pushA i).reS = st.reS := by
  simp only [Strand.pushA]; split <;> rfl
@[simp] theorem Strand.pushA_susp (st : Strand) (i : Instr) : (st.pushA i).susp = st.susp := by
  simp only [Strand.pushA]; split <;> rfl
@[simp] theorem Strand.pushA_late (st : Strand) (i : Instr) : (st.pushA i).late = st.late := by
  simp only [Strand.pushA]; split <;> rfl
@[simp] theorem Strand.pushA_took (st : Strand) (i : Instr) : (st.pushA i).took = st.took := by
  simp only [Strand.pushA]; split <;> rfl
@[simp] theorem Strand.pushA_arr (st : Strand) (i : Instr) : (st.pushA i).arr = st.arr := by
  simp only [Strand.pushA]; split <;> rfl
@[simp] theorem Strand.pushA_darr (st : Strand) (i : Instr) : (st.pushA i).darr = st.darr := by
  simp only [Strand.pushA]; split <;> rfl
@[simp] theorem Strand.pushA_phase (st : Strand) (i : Instr) : (st.pushA i).phase = st.phase := by
  simp only [Strand.pushA]; split <;> rfl
@[simp] theorem Strand.pushA_target (st : Strand) (i : Instr) : (st.pushA i).target = st.target := by
  simp only [Strand.pushA]; split <;> rfl
@[simp] theorem Strand.pushA_waits (st : Strand) (i : Instr) : (st.pushA i).waits = st.waits := by
  simp only [Strand.pushA]; split <;> rfl
@[simp] theorem Strand.pushA_stop (st : Strand) (i : Instr) : (st.pushA i).stop = st.stop := by
  simp only [Strand.pushA]; split <;> rfl
@[simp] theorem Strand.pushA_fq (st : Strand) (i : Instr) : (st.pushA i).fq = st.fq := by
  simp only [Strand.pushA]; split <;> rfl
@[simp] theorem Strand.pushA_bad (st : Strand) (i : Instr) : (st.pushA i).bad = st.bad := by
  simp only [Strand.pushA]; split <;> rfl

/-! ### Strand.popTok -/

@[simp] theorem Strand.popTok_id (st : Strand) (c : Nat) (h : Hdr) : (st.popTok c h).id = st.id := by
  simp only [Strand.popTok]; split <;> rfl
@[simp] theorem Strand.popTok_pc (st : Strand) (c : Nat) (h : Hdr) : (st.popTok c h).pc = st.pc := by
  simp only [Strand.popTok]; split <;> rfl
@[simp] theorem Strand.popTok_x (st : Strand) (c : Nat) (h : Hdr) : (st.popTok c h).x = st.x := by
  simp only [Strand.popTok]; split <;> rfl
@[simp] theorem Strand.popTok_sp (st : Strand) (c : Nat) (h : Hdr) : (st.popTok c h).sp = st.sp := by
  simp only [Strand.popTok]; split <;> rfl
@[simp] theorem Strand.popTok_g (st : Strand) (c : Nat) (h : Hdr) : (st.popTok c h).g = st.g := by
  simp only [Strand.popTok]; split <;> rfl
@[simp] theorem Strand.popTok_v (st : Strand) (c : Nat) (h : Hdr) : (st.popTok c h).v = st.v := by
  simp only [Strand.popTok]; split <;> rfl
@[simp] theorem Strand.popTok_p (st : Strand) (c : Nat) (h : Hdr) : (st.popTok c h).p = st.p := by
  simp only [Strand.popTok]; split <;> rfl
@[simp] theorem Strand.popTok_lc (st : Strand) (c : Nat) (h : Hdr) : (st.popTok c h).lc = st.lc := by
  simp only [Strand.popTok]; split <;> rfl
@[simp] theorem Strand.popTok_base (st : Strand) (c : Nat) (h : Hdr) : (st.popTok c h).base = st.base := by
  simp only [Strand.popTok]; split <;> rfl
@[simp] theorem Strand.popTok_q (st : Strand) (c : Nat) (h : Hdr) : (st.popTok c h).q = st.q := by
  simp only [Strand.popTok]; split <;> rfl
@[simp] theorem Strand.popTok_w (st : Strand) (c : Nat) (h : Hdr) : (st.popTok c h).w = st.w := by
  simp only [Strand.popTok]; split <;> rfl
@[simp] theorem Strand.popTok_xg (st : Strand) (c : Nat) (h : Hdr) : (st.popTok c h).xg = st.xg := by
  simp only [Strand.popTok]; split <;> rfl
@[simp] theorem Strand.popTok_bq (st : Strand) (c : Nat) (h : Hdr) : (st.popTok c h).bq = st.bq := by
  simp only [Strand.popTok]; split <;> rfl
@[simp] theorem Strand.popTok_fmt (st : Strand) (c : Nat) (h : Hdr) : (st.popTok c h).fmt = st.fmt := by
  simp only [Strand.popTok]; split <;> rfl
@[simp] theorem Strand.popTok_eq (st : Strand) (c : Nat) (h : Hdr) : (st.popTok c h).eq = st.eq := by
  simp only [Strand.popTok]; split <;> rfl
@[simp] theorem Strand.popTok_disp (st : Strand) (c : Nat) (h : Hdr) : (st.popTok c h).disp = st.disp := by
  simp only [Strand.popTok]; split <;> rfl
@[simp] theorem Strand.popTok_hold (st : Strand) (c : Nat) (h : Hdr) : (st.popTok c h).hold = st.hold := by
  simp only [Strand.popTok]; split <;> rfl
@[simp] theorem Strand.popTok_land (st : Strand) (c : Nat) (h : Hdr) : (st.popTok c h).land = st.land := by
  simp only [Strand.popTok]; split <;> rfl
@[simp] theorem Strand.popTok_fresh (st : Strand) (c : Nat) (h : Hdr) : (st.popTok c h).fresh = st.fresh := by
  simp only [Strand.popTok]; split <;> rfl
@[simp] theorem Strand.popTok_lq (st : Strand) (c : Nat) (h : Hdr) : (st.popTok c h).lq = st.lq := by
  simp only [Strand.popTok]; split <;> rfl
@[simp] theorem Strand.popTok_sq (st : Strand) (c : Nat) (h : Hdr) : (st.popTok c h).sq = st.sq := by
  simp only [Strand.popTok]; split <;> rfl
@[simp] theorem Strand.popTok_mq (st : Strand) (c : Nat) (h : Hdr) : (st.popTok c h).mq = st.mq := by
  simp only [Strand.popTok]; split <;> rfl
@[simp] theorem Strand.popTok_least (st : Strand) (c : Nat) (h : Hdr) : (st.popTok c h).least = st.least := by
  simp only [Strand.popTok]; split <;> rfl
@[simp] theorem Strand.popTok_fly (st : Strand) (c : Nat) (h : Hdr) : (st.popTok c h).fly = st.fly := by
  simp only [Strand.popTok]; split <;> rfl
@[simp] theorem Strand.popTok_now (st : Strand) (c : Nat) (h : Hdr) : (st.popTok c h).now = st.now := by
  simp only [Strand.popTok]; split <;> rfl
@[simp] theorem Strand.popTok_eng (st : Strand) (c : Nat) (h : Hdr) : (st.popTok c h).eng = st.eng := by
  simp only [Strand.popTok]; split <;> rfl
@[simp] theorem Strand.popTok_seq (st : Strand) (c : Nat) (h : Hdr) : (st.popTok c h).seq = st.seq := by
  simp only [Strand.popTok]; split <;> rfl
@[simp] theorem Strand.popTok_aGap (st : Strand) (c : Nat) (h : Hdr) : (st.popTok c h).aGap = st.aGap := by
  simp only [Strand.popTok]; split <;> rfl
@[simp] theorem Strand.popTok_held (st : Strand) (c : Nat) (h : Hdr) : (st.popTok c h).held = st.held := by
  simp only [Strand.popTok]; split <;> rfl
@[simp] theorem Strand.popTok_remain (st : Strand) (c : Nat) (h : Hdr) : (st.popTok c h).remain = st.remain := by
  simp only [Strand.popTok]; split <;> rfl
@[simp] theorem Strand.popTok_run (st : Strand) (c : Nat) (h : Hdr) : (st.popTok c h).run = st.run := by
  simp only [Strand.popTok]; split <;> rfl
@[simp] theorem Strand.popTok_rmode (st : Strand) (c : Nat) (h : Hdr) : (st.popTok c h).rmode = st.rmode := by
  simp only [Strand.popTok]; split <;> rfl
@[simp] theorem Strand.popTok_mac (st : Strand) (c : Nat) (h : Hdr) : (st.popTok c h).mac = st.mac := by
  simp only [Strand.popTok]; split <;> rfl
@[simp] theorem Strand.popTok_mops (st : Strand) (c : Nat) (h : Hdr) : (st.popTok c h).mops = st.mops := by
  simp only [Strand.popTok]; split <;> rfl
@[simp] theorem Strand.popTok_want (st : Strand) (c : Nat) (h : Hdr) : (st.popTok c h).want = st.want := by
  simp only [Strand.popTok]; split <;> rfl
@[simp] theorem Strand.popTok_reA (st : Strand) (c : Nat) (h : Hdr) : (st.popTok c h).reA = st.reA := by
  simp only [Strand.popTok]; split <;> rfl
@[simp] theorem Strand.popTok_reS (st : Strand) (c : Nat) (h : Hdr) : (st.popTok c h).reS = st.reS := by
  simp only [Strand.popTok]; split <;> rfl
@[simp] theorem Strand.popTok_susp (st : Strand) (c : Nat) (h : Hdr) : (st.popTok c h).susp = st.susp := by
  simp only [Strand.popTok]; split <;> rfl
@[simp] theorem Strand.popTok_late (st : Strand) (c : Nat) (h : Hdr) : (st.popTok c h).late = st.late := by
  simp only [Strand.popTok]; split <;> rfl
@[simp] theorem Strand.popTok_took (st : Strand) (c : Nat) (h : Hdr) : (st.popTok c h).took = st.took := by
  simp only [Strand.popTok]; split <;> rfl
@[simp] theorem Strand.popTok_arr (st : Strand) (c : Nat) (h : Hdr) : (st.popTok c h).arr = st.arr := by
  simp only [Strand.popTok]; split <;> rfl
@[simp] theorem Strand.popTok_darr (st : Strand) (c : Nat) (h : Hdr) : (st.popTok c h).darr = st.darr := by
  simp only [Strand.popTok]; split <;> rfl
@[simp] theorem Strand.popTok_phase (st : Strand) (c : Nat) (h : Hdr) : (st.popTok c h).phase = st.phase := by
  simp only [Strand.popTok]; split <;> rfl
@[simp] theorem Strand.popTok_target (st : Strand) (c : Nat) (h : Hdr) : (st.popTok c h).target = st.target := by
  simp only [Strand.popTok]; split <;> rfl
@[simp] theorem Strand.popTok_waits (st : Strand) (c : Nat) (h : Hdr) : (st.popTok c h).waits = st.waits := by
  simp only [Strand.popTok]; split <;> rfl
@[simp] theorem Strand.popTok_stop (st : Strand) (c : Nat) (h : Hdr) : (st.popTok c h).stop = st.stop := by
  simp only [Strand.popTok]; split <;> rfl
@[simp] theorem Strand.popTok_fq (st : Strand) (c : Nat) (h : Hdr) : (st.popTok c h).fq = st.fq := by
  simp only [Strand.popTok]; split <;> rfl
@[simp] theorem Strand.popTok_bad (st : Strand) (c : Nat) (h : Hdr) : (st.popTok c h).bad = st.bad := by
  simp only [Strand.popTok]; split <;> rfl

/-! ### Strand.unhold -/

@[simp] theorem Strand.unhold_id (st : Strand) (n : Nat) : (st.unhold n).id = st.id := by
  simp only [Strand.unhold]; split <;> rfl
@[simp] theorem Strand.unhold_pc (st : Strand) (n : Nat) : (st.unhold n).pc = st.pc := by
  simp only [Strand.unhold]; split <;> rfl
@[simp] theorem Strand.unhold_x (st : Strand) (n : Nat) : (st.unhold n).x = st.x := by
  simp only [Strand.unhold]; split <;> rfl
@[simp] theorem Strand.unhold_sp (st : Strand) (n : Nat) : (st.unhold n).sp = st.sp := by
  simp only [Strand.unhold]; split <;> rfl
@[simp] theorem Strand.unhold_g (st : Strand) (n : Nat) : (st.unhold n).g = st.g := by
  simp only [Strand.unhold]; split <;> rfl
@[simp] theorem Strand.unhold_v (st : Strand) (n : Nat) : (st.unhold n).v = st.v := by
  simp only [Strand.unhold]; split <;> rfl
@[simp] theorem Strand.unhold_p (st : Strand) (n : Nat) : (st.unhold n).p = st.p := by
  simp only [Strand.unhold]; split <;> rfl
@[simp] theorem Strand.unhold_lc (st : Strand) (n : Nat) : (st.unhold n).lc = st.lc := by
  simp only [Strand.unhold]; split <;> rfl
@[simp] theorem Strand.unhold_base (st : Strand) (n : Nat) : (st.unhold n).base = st.base := by
  simp only [Strand.unhold]; split <;> rfl
@[simp] theorem Strand.unhold_q (st : Strand) (n : Nat) : (st.unhold n).q = st.q := by
  simp only [Strand.unhold]; split <;> rfl
@[simp] theorem Strand.unhold_w (st : Strand) (n : Nat) : (st.unhold n).w = st.w := by
  simp only [Strand.unhold]; split <;> rfl
@[simp] theorem Strand.unhold_xg (st : Strand) (n : Nat) : (st.unhold n).xg = st.xg := by
  simp only [Strand.unhold]; split <;> rfl
@[simp] theorem Strand.unhold_bq (st : Strand) (n : Nat) : (st.unhold n).bq = st.bq := by
  simp only [Strand.unhold]; split <;> rfl
@[simp] theorem Strand.unhold_fmt (st : Strand) (n : Nat) : (st.unhold n).fmt = st.fmt := by
  simp only [Strand.unhold]; split <;> rfl
@[simp] theorem Strand.unhold_tok (st : Strand) (n : Nat) : (st.unhold n).tok = st.tok := by
  simp only [Strand.unhold]; split <;> rfl
@[simp] theorem Strand.unhold_eq (st : Strand) (n : Nat) : (st.unhold n).eq = st.eq := by
  simp only [Strand.unhold]; split <;> rfl
@[simp] theorem Strand.unhold_disp (st : Strand) (n : Nat) : (st.unhold n).disp = st.disp := by
  simp only [Strand.unhold]; split <;> rfl
@[simp] theorem Strand.unhold_land (st : Strand) (n : Nat) : (st.unhold n).land = st.land := by
  simp only [Strand.unhold]; split <;> rfl
@[simp] theorem Strand.unhold_fresh (st : Strand) (n : Nat) : (st.unhold n).fresh = st.fresh := by
  simp only [Strand.unhold]; split <;> rfl
@[simp] theorem Strand.unhold_lq (st : Strand) (n : Nat) : (st.unhold n).lq = st.lq := by
  simp only [Strand.unhold]; split <;> rfl
@[simp] theorem Strand.unhold_sq (st : Strand) (n : Nat) : (st.unhold n).sq = st.sq := by
  simp only [Strand.unhold]; split <;> rfl
@[simp] theorem Strand.unhold_mq (st : Strand) (n : Nat) : (st.unhold n).mq = st.mq := by
  simp only [Strand.unhold]; split <;> rfl
@[simp] theorem Strand.unhold_least (st : Strand) (n : Nat) : (st.unhold n).least = st.least := by
  simp only [Strand.unhold]; split <;> rfl
@[simp] theorem Strand.unhold_fly (st : Strand) (n : Nat) : (st.unhold n).fly = st.fly := by
  simp only [Strand.unhold]; split <;> rfl
@[simp] theorem Strand.unhold_now (st : Strand) (n : Nat) : (st.unhold n).now = st.now := by
  simp only [Strand.unhold]; split <;> rfl
@[simp] theorem Strand.unhold_eng (st : Strand) (n : Nat) : (st.unhold n).eng = st.eng := by
  simp only [Strand.unhold]; split <;> rfl
@[simp] theorem Strand.unhold_seq (st : Strand) (n : Nat) : (st.unhold n).seq = st.seq := by
  simp only [Strand.unhold]; split <;> rfl
@[simp] theorem Strand.unhold_aGap (st : Strand) (n : Nat) : (st.unhold n).aGap = st.aGap := by
  simp only [Strand.unhold]; split <;> rfl
@[simp] theorem Strand.unhold_held (st : Strand) (n : Nat) : (st.unhold n).held = st.held := by
  simp only [Strand.unhold]; split <;> rfl
@[simp] theorem Strand.unhold_remain (st : Strand) (n : Nat) : (st.unhold n).remain = st.remain := by
  simp only [Strand.unhold]; split <;> rfl
@[simp] theorem Strand.unhold_run (st : Strand) (n : Nat) : (st.unhold n).run = st.run := by
  simp only [Strand.unhold]; split <;> rfl
@[simp] theorem Strand.unhold_rmode (st : Strand) (n : Nat) : (st.unhold n).rmode = st.rmode := by
  simp only [Strand.unhold]; split <;> rfl
@[simp] theorem Strand.unhold_mac (st : Strand) (n : Nat) : (st.unhold n).mac = st.mac := by
  simp only [Strand.unhold]; split <;> rfl
@[simp] theorem Strand.unhold_mops (st : Strand) (n : Nat) : (st.unhold n).mops = st.mops := by
  simp only [Strand.unhold]; split <;> rfl
@[simp] theorem Strand.unhold_want (st : Strand) (n : Nat) : (st.unhold n).want = st.want := by
  simp only [Strand.unhold]; split <;> rfl
@[simp] theorem Strand.unhold_reA (st : Strand) (n : Nat) : (st.unhold n).reA = st.reA := by
  simp only [Strand.unhold]; split <;> rfl
@[simp] theorem Strand.unhold_reS (st : Strand) (n : Nat) : (st.unhold n).reS = st.reS := by
  simp only [Strand.unhold]; split <;> rfl
@[simp] theorem Strand.unhold_susp (st : Strand) (n : Nat) : (st.unhold n).susp = st.susp := by
  simp only [Strand.unhold]; split <;> rfl
@[simp] theorem Strand.unhold_late (st : Strand) (n : Nat) : (st.unhold n).late = st.late := by
  simp only [Strand.unhold]; split <;> rfl
@[simp] theorem Strand.unhold_took (st : Strand) (n : Nat) : (st.unhold n).took = st.took := by
  simp only [Strand.unhold]; split <;> rfl
@[simp] theorem Strand.unhold_arr (st : Strand) (n : Nat) : (st.unhold n).arr = st.arr := by
  simp only [Strand.unhold]; split <;> rfl
@[simp] theorem Strand.unhold_darr (st : Strand) (n : Nat) : (st.unhold n).darr = st.darr := by
  simp only [Strand.unhold]; split <;> rfl
@[simp] theorem Strand.unhold_phase (st : Strand) (n : Nat) : (st.unhold n).phase = st.phase := by
  simp only [Strand.unhold]; split <;> rfl
@[simp] theorem Strand.unhold_target (st : Strand) (n : Nat) : (st.unhold n).target = st.target := by
  simp only [Strand.unhold]; split <;> rfl
@[simp] theorem Strand.unhold_waits (st : Strand) (n : Nat) : (st.unhold n).waits = st.waits := by
  simp only [Strand.unhold]; split <;> rfl
@[simp] theorem Strand.unhold_stop (st : Strand) (n : Nat) : (st.unhold n).stop = st.stop := by
  simp only [Strand.unhold]; split <;> rfl
@[simp] theorem Strand.unhold_fq (st : Strand) (n : Nat) : (st.unhold n).fq = st.fq := by
  simp only [Strand.unhold]; split <;> rfl
@[simp] theorem Strand.unhold_bad (st : Strand) (n : Nat) : (st.unhold n).bad = st.bad := by
  simp only [Strand.unhold]; split <;> rfl

/-! ### Strand.issued -/

@[simp] theorem Strand.issued_id (st : Strand) (i : Instr) (w : QWord) (l : List Eff) : (st.issued i w l).id = st.id := by
  simp [Strand.issued]
@[simp] theorem Strand.issued_pc (st : Strand) (i : Instr) (w : QWord) (l : List Eff) : (st.issued i w l).pc = st.pc := by
  simp [Strand.issued]
@[simp] theorem Strand.issued_x (st : Strand) (i : Instr) (w : QWord) (l : List Eff) : (st.issued i w l).x = st.x := by
  simp [Strand.issued]
@[simp] theorem Strand.issued_sp (st : Strand) (i : Instr) (w : QWord) (l : List Eff) : (st.issued i w l).sp = st.sp := by
  simp [Strand.issued]
@[simp] theorem Strand.issued_g (st : Strand) (i : Instr) (w : QWord) (l : List Eff) : (st.issued i w l).g = st.g := by
  simp [Strand.issued]
@[simp] theorem Strand.issued_v (st : Strand) (i : Instr) (w : QWord) (l : List Eff) : (st.issued i w l).v = st.v := by
  simp [Strand.issued]
@[simp] theorem Strand.issued_p (st : Strand) (i : Instr) (w : QWord) (l : List Eff) : (st.issued i w l).p = st.p := by
  simp [Strand.issued]
@[simp] theorem Strand.issued_lc (st : Strand) (i : Instr) (w : QWord) (l : List Eff) : (st.issued i w l).lc = st.lc := by
  simp [Strand.issued]
@[simp] theorem Strand.issued_base (st : Strand) (i : Instr) (w : QWord) (l : List Eff) : (st.issued i w l).base = st.base := by
  simp [Strand.issued]
@[simp] theorem Strand.issued_bq (st : Strand) (i : Instr) (w : QWord) (l : List Eff) : (st.issued i w l).bq = st.bq := by
  simp [Strand.issued]
@[simp] theorem Strand.issued_fmt (st : Strand) (i : Instr) (w : QWord) (l : List Eff) : (st.issued i w l).fmt = st.fmt := by
  simp [Strand.issued]
@[simp] theorem Strand.issued_eq (st : Strand) (i : Instr) (w : QWord) (l : List Eff) : (st.issued i w l).eq = st.eq := by
  simp [Strand.issued]
@[simp] theorem Strand.issued_disp (st : Strand) (i : Instr) (w : QWord) (l : List Eff) : (st.issued i w l).disp = st.disp := by
  simp [Strand.issued]
@[simp] theorem Strand.issued_fresh (st : Strand) (i : Instr) (w : QWord) (l : List Eff) : (st.issued i w l).fresh = st.fresh := by
  simp [Strand.issued]
@[simp] theorem Strand.issued_lq (st : Strand) (i : Instr) (w : QWord) (l : List Eff) : (st.issued i w l).lq = st.lq := by
  simp [Strand.issued]
@[simp] theorem Strand.issued_sq (st : Strand) (i : Instr) (w : QWord) (l : List Eff) : (st.issued i w l).sq = st.sq := by
  simp [Strand.issued]
@[simp] theorem Strand.issued_mq (st : Strand) (i : Instr) (w : QWord) (l : List Eff) : (st.issued i w l).mq = st.mq := by
  simp [Strand.issued]
@[simp] theorem Strand.issued_least (st : Strand) (i : Instr) (w : QWord) (l : List Eff) : (st.issued i w l).least = st.least := by
  simp [Strand.issued]
@[simp] theorem Strand.issued_fly (st : Strand) (i : Instr) (w : QWord) (l : List Eff) : (st.issued i w l).fly = st.fly := by
  simp [Strand.issued]
@[simp] theorem Strand.issued_now (st : Strand) (i : Instr) (w : QWord) (l : List Eff) : (st.issued i w l).now = st.now := by
  simp [Strand.issued]
@[simp] theorem Strand.issued_seq (st : Strand) (i : Instr) (w : QWord) (l : List Eff) : (st.issued i w l).seq = st.seq := by
  simp [Strand.issued]
@[simp] theorem Strand.issued_aGap (st : Strand) (i : Instr) (w : QWord) (l : List Eff) : (st.issued i w l).aGap = st.aGap := by
  simp [Strand.issued]
@[simp] theorem Strand.issued_held (st : Strand) (i : Instr) (w : QWord) (l : List Eff) : (st.issued i w l).held = st.held := by
  simp [Strand.issued]
@[simp] theorem Strand.issued_remain (st : Strand) (i : Instr) (w : QWord) (l : List Eff) : (st.issued i w l).remain = st.remain := by
  simp [Strand.issued]
@[simp] theorem Strand.issued_run (st : Strand) (i : Instr) (w : QWord) (l : List Eff) : (st.issued i w l).run = st.run := by
  simp [Strand.issued]
@[simp] theorem Strand.issued_rmode (st : Strand) (i : Instr) (w : QWord) (l : List Eff) : (st.issued i w l).rmode = st.rmode := by
  simp [Strand.issued]
@[simp] theorem Strand.issued_mac (st : Strand) (i : Instr) (w : QWord) (l : List Eff) : (st.issued i w l).mac = st.mac := by
  simp [Strand.issued]
@[simp] theorem Strand.issued_mops (st : Strand) (i : Instr) (w : QWord) (l : List Eff) : (st.issued i w l).mops = st.mops := by
  simp [Strand.issued]
@[simp] theorem Strand.issued_want (st : Strand) (i : Instr) (w : QWord) (l : List Eff) : (st.issued i w l).want = st.want := by
  simp [Strand.issued]
@[simp] theorem Strand.issued_reA (st : Strand) (i : Instr) (w : QWord) (l : List Eff) : (st.issued i w l).reA = st.reA := by
  simp [Strand.issued]
@[simp] theorem Strand.issued_reS (st : Strand) (i : Instr) (w : QWord) (l : List Eff) : (st.issued i w l).reS = st.reS := by
  simp [Strand.issued]
@[simp] theorem Strand.issued_arr (st : Strand) (i : Instr) (w : QWord) (l : List Eff) : (st.issued i w l).arr = st.arr := by
  simp [Strand.issued]
@[simp] theorem Strand.issued_darr (st : Strand) (i : Instr) (w : QWord) (l : List Eff) : (st.issued i w l).darr = st.darr := by
  simp [Strand.issued]
@[simp] theorem Strand.issued_phase (st : Strand) (i : Instr) (w : QWord) (l : List Eff) : (st.issued i w l).phase = st.phase := by
  simp [Strand.issued]
@[simp] theorem Strand.issued_target (st : Strand) (i : Instr) (w : QWord) (l : List Eff) : (st.issued i w l).target = st.target := by
  simp [Strand.issued]
@[simp] theorem Strand.issued_stop (st : Strand) (i : Instr) (w : QWord) (l : List Eff) : (st.issued i w l).stop = st.stop := by
  simp [Strand.issued]
@[simp] theorem Strand.issued_fq (st : Strand) (i : Instr) (w : QWord) (l : List Eff) : (st.issued i w l).fq = st.fq := by
  simp [Strand.issued]
@[simp] theorem Strand.issued_bad (st : Strand) (i : Instr) (w : QWord) (l : List Eff) : (st.issued i w l).bad = st.bad := by
  simp [Strand.issued]

/-! ### Strand.issuedA -/

@[simp] theorem Strand.issuedA_id (st : Strand) (i : Instr) (w : QWord) : (st.issuedA i w).id = st.id := by
  simp [Strand.issuedA]
@[simp] theorem Strand.issuedA_pc (st : Strand) (i : Instr) (w : QWord) : (st.issuedA i w).pc = st.pc := by
  simp [Strand.issuedA]
@[simp] theorem Strand.issuedA_x (st : Strand) (i : Instr) (w : QWord) : (st.issuedA i w).x = st.x := by
  simp [Strand.issuedA]
@[simp] theorem Strand.issuedA_sp (st : Strand) (i : Instr) (w : QWord) : (st.issuedA i w).sp = st.sp := by
  simp [Strand.issuedA]
@[simp] theorem Strand.issuedA_g (st : Strand) (i : Instr) (w : QWord) : (st.issuedA i w).g = st.g := by
  simp [Strand.issuedA]
@[simp] theorem Strand.issuedA_v (st : Strand) (i : Instr) (w : QWord) : (st.issuedA i w).v = st.v := by
  simp [Strand.issuedA]
@[simp] theorem Strand.issuedA_p (st : Strand) (i : Instr) (w : QWord) : (st.issuedA i w).p = st.p := by
  simp [Strand.issuedA]
@[simp] theorem Strand.issuedA_lc (st : Strand) (i : Instr) (w : QWord) : (st.issuedA i w).lc = st.lc := by
  simp [Strand.issuedA]
@[simp] theorem Strand.issuedA_base (st : Strand) (i : Instr) (w : QWord) : (st.issuedA i w).base = st.base := by
  simp [Strand.issuedA]
@[simp] theorem Strand.issuedA_bq (st : Strand) (i : Instr) (w : QWord) : (st.issuedA i w).bq = st.bq := by
  simp [Strand.issuedA]
@[simp] theorem Strand.issuedA_fmt (st : Strand) (i : Instr) (w : QWord) : (st.issuedA i w).fmt = st.fmt := by
  simp [Strand.issuedA]
@[simp] theorem Strand.issuedA_eq (st : Strand) (i : Instr) (w : QWord) : (st.issuedA i w).eq = st.eq := by
  simp [Strand.issuedA]
@[simp] theorem Strand.issuedA_disp (st : Strand) (i : Instr) (w : QWord) : (st.issuedA i w).disp = st.disp := by
  simp [Strand.issuedA]
@[simp] theorem Strand.issuedA_hold (st : Strand) (i : Instr) (w : QWord) : (st.issuedA i w).hold = st.hold := by
  simp [Strand.issuedA]
@[simp] theorem Strand.issuedA_land (st : Strand) (i : Instr) (w : QWord) : (st.issuedA i w).land = st.land := by
  simp [Strand.issuedA]
@[simp] theorem Strand.issuedA_fresh (st : Strand) (i : Instr) (w : QWord) : (st.issuedA i w).fresh = st.fresh := by
  simp [Strand.issuedA]
@[simp] theorem Strand.issuedA_lq (st : Strand) (i : Instr) (w : QWord) : (st.issuedA i w).lq = st.lq := by
  simp [Strand.issuedA]
@[simp] theorem Strand.issuedA_sq (st : Strand) (i : Instr) (w : QWord) : (st.issuedA i w).sq = st.sq := by
  simp [Strand.issuedA]
@[simp] theorem Strand.issuedA_mq (st : Strand) (i : Instr) (w : QWord) : (st.issuedA i w).mq = st.mq := by
  simp [Strand.issuedA]
@[simp] theorem Strand.issuedA_least (st : Strand) (i : Instr) (w : QWord) : (st.issuedA i w).least = st.least := by
  simp [Strand.issuedA]
@[simp] theorem Strand.issuedA_fly (st : Strand) (i : Instr) (w : QWord) : (st.issuedA i w).fly = st.fly := by
  simp [Strand.issuedA]
@[simp] theorem Strand.issuedA_now (st : Strand) (i : Instr) (w : QWord) : (st.issuedA i w).now = st.now := by
  simp [Strand.issuedA]
@[simp] theorem Strand.issuedA_eng (st : Strand) (i : Instr) (w : QWord) : (st.issuedA i w).eng = st.eng := by
  simp [Strand.issuedA]
@[simp] theorem Strand.issuedA_seq (st : Strand) (i : Instr) (w : QWord) : (st.issuedA i w).seq = st.seq := by
  simp [Strand.issuedA]
@[simp] theorem Strand.issuedA_held (st : Strand) (i : Instr) (w : QWord) : (st.issuedA i w).held = st.held := by
  simp [Strand.issuedA]
@[simp] theorem Strand.issuedA_remain (st : Strand) (i : Instr) (w : QWord) : (st.issuedA i w).remain = st.remain := by
  simp [Strand.issuedA]
@[simp] theorem Strand.issuedA_run (st : Strand) (i : Instr) (w : QWord) : (st.issuedA i w).run = st.run := by
  simp [Strand.issuedA]
@[simp] theorem Strand.issuedA_rmode (st : Strand) (i : Instr) (w : QWord) : (st.issuedA i w).rmode = st.rmode := by
  simp [Strand.issuedA]
@[simp] theorem Strand.issuedA_mac (st : Strand) (i : Instr) (w : QWord) : (st.issuedA i w).mac = st.mac := by
  simp [Strand.issuedA]
@[simp] theorem Strand.issuedA_mops (st : Strand) (i : Instr) (w : QWord) : (st.issuedA i w).mops = st.mops := by
  simp [Strand.issuedA]
@[simp] theorem Strand.issuedA_want (st : Strand) (i : Instr) (w : QWord) : (st.issuedA i w).want = st.want := by
  simp [Strand.issuedA]
@[simp] theorem Strand.issuedA_reA (st : Strand) (i : Instr) (w : QWord) : (st.issuedA i w).reA = st.reA := by
  simp [Strand.issuedA]
@[simp] theorem Strand.issuedA_reS (st : Strand) (i : Instr) (w : QWord) : (st.issuedA i w).reS = st.reS := by
  simp [Strand.issuedA]
@[simp] theorem Strand.issuedA_late (st : Strand) (i : Instr) (w : QWord) : (st.issuedA i w).late = st.late := by
  simp [Strand.issuedA]
@[simp] theorem Strand.issuedA_took (st : Strand) (i : Instr) (w : QWord) : (st.issuedA i w).took = st.took := by
  simp [Strand.issuedA]
@[simp] theorem Strand.issuedA_arr (st : Strand) (i : Instr) (w : QWord) : (st.issuedA i w).arr = st.arr := by
  simp [Strand.issuedA]
@[simp] theorem Strand.issuedA_darr (st : Strand) (i : Instr) (w : QWord) : (st.issuedA i w).darr = st.darr := by
  simp [Strand.issuedA]
@[simp] theorem Strand.issuedA_phase (st : Strand) (i : Instr) (w : QWord) : (st.issuedA i w).phase = st.phase := by
  simp [Strand.issuedA]
@[simp] theorem Strand.issuedA_target (st : Strand) (i : Instr) (w : QWord) : (st.issuedA i w).target = st.target := by
  simp [Strand.issuedA]
@[simp] theorem Strand.issuedA_stop (st : Strand) (i : Instr) (w : QWord) : (st.issuedA i w).stop = st.stop := by
  simp [Strand.issuedA]
@[simp] theorem Strand.issuedA_fq (st : Strand) (i : Instr) (w : QWord) : (st.issuedA i w).fq = st.fq := by
  simp [Strand.issuedA]
@[simp] theorem Strand.issuedA_bad (st : Strand) (i : Instr) (w : QWord) : (st.issuedA i w).bad = st.bad := by
  simp [Strand.issuedA]

end Sys2Proof.Machine
end

