-- ==== Sys2Proof/Laws/Units.lean ====
section
/-! SUPPORT. Laws of units: the strand, tile, die and edge found after an update of the same or another unit, and the
registers of a strand after a write. -/

namespace Sys2Proof.Machine

@[simp] theorem State.strand_setStrand_self (s : State) (k : Nat) (x : Strand) : (s.setStrand k x).strand k = some x :=
  Tab.find_put_self _ _ _
@[simp] theorem State.strand_setStrand_ne (s : State) {j k : Nat} (x : Strand) (h : j ≠ k) :
    (s.setStrand k x).strand j = s.strand j := Tab.find_put_ne _ _ h
@[simp] theorem State.die_onDie_self (s : State) (d : Nat) (f : Die → Die) : (s.onDie d f).die d = f (s.die d) :=
  Tab.getD_put_self _ _ _ _
@[simp] theorem State.die_onDie_ne (s : State) {d e : Nat} (f : Die → Die) (h : e ≠ d) : (s.onDie d f).die e = s.die e :=
  Tab.getD_put_ne _ _ _ h
@[simp] theorem State.tile_onTile_self (s : State) (t : Nat) (f : Tile → Tile) : (s.onTile t f).tile t = f (s.tile t) :=
  Tab.getD_put_self _ _ _ _
@[simp] theorem State.tile_onTile_ne (s : State) {t u : Nat} (f : Tile → Tile) (h : u ≠ t) : (s.onTile t f).tile u = s.tile u :=
  Tab.getD_put_ne _ _ _ h
@[simp] theorem State.edge_onEdge_self (s : State) (e : Nat) (f : Edge → Edge) : (s.onEdge e f).edge e = f (s.edge e) :=
  Tab.getD_put_self _ _ _ _
@[simp] theorem State.edge_onEdge_ne (s : State) {d e : Nat} (f : Edge → Edge) (h : d ≠ e) : (s.onEdge e f).edge d = s.edge d :=
  Tab.getD_put_ne _ _ _ h

@[simp] theorem State.die_setStrand (s : State) (k : Nat) (x : Strand) (d : Nat) : (s.setStrand k x).die d = s.die d := rfl
@[simp] theorem State.tile_setStrand (s : State) (k : Nat) (x : Strand) (t : Nat) : (s.setStrand k x).tile t = s.tile t := rfl
@[simp] theorem State.edge_setStrand (s : State) (k : Nat) (x : Strand) (e : Nat) : (s.setStrand k x).edge e = s.edge e := rfl
@[simp] theorem State.strand_onTile (s : State) (t : Nat) (f : Tile → Tile) (k : Nat) : (s.onTile t f).strand k = s.strand k := rfl
@[simp] theorem State.die_onTile (s : State) (t : Nat) (f : Tile → Tile) (d : Nat) : (s.onTile t f).die d = s.die d := rfl
@[simp] theorem State.edge_onTile (s : State) (t : Nat) (f : Tile → Tile) (e : Nat) : (s.onTile t f).edge e = s.edge e := rfl
@[simp] theorem State.strand_onDie (s : State) (d : Nat) (f : Die → Die) (k : Nat) : (s.onDie d f).strand k = s.strand k := rfl
@[simp] theorem State.tile_onDie (s : State) (d : Nat) (f : Die → Die) (t : Nat) : (s.onDie d f).tile t = s.tile t := rfl
@[simp] theorem State.edge_onDie (s : State) (d : Nat) (f : Die → Die) (e : Nat) : (s.onDie d f).edge e = s.edge e := rfl
@[simp] theorem State.strand_onEdge (s : State) (e : Nat) (f : Edge → Edge) (k : Nat) : (s.onEdge e f).strand k = s.strand k := rfl
@[simp] theorem State.die_onEdge (s : State) (e : Nat) (f : Edge → Edge) (d : Nat) : (s.onEdge e f).die d = s.die d := rfl
@[simp] theorem State.tile_onEdge (s : State) (e : Nat) (f : Edge → Edge) (t : Nat) : (s.onEdge e f).tile t = s.tile t := rfl
@[simp] theorem State.strand_poke (s : State) (l : Loc) (b : List Byte) (k : Nat) : (s.poke l b).strand k = s.strand k := rfl
@[simp] theorem State.die_poke (s : State) (l : Loc) (b : List Byte) (d : Nat) : (s.poke l b).die d = s.die d := rfl
@[simp] theorem State.tile_poke (s : State) (l : Loc) (b : List Byte) (t : Nat) : (s.poke l b).tile t = s.tile t := rfl
@[simp] theorem State.edge_poke (s : State) (l : Loc) (b : List Byte) (e : Nat) : (s.poke l b).edge e = s.edge e := rfl
@[simp] theorem State.strand_claim (s : State) (k c j : Nat) : (s.claim k c).strand j = s.strand j := rfl
@[simp] theorem State.die_claim (s : State) (k c d : Nat) : (s.claim k c).die d = s.die d := rfl
@[simp] theorem State.edge_claim (s : State) (k c e : Nat) : (s.claim k c).edge e = s.edge e := rfl

@[simp] theorem State.reg_setReg_self (s : State) (d off : Nat) (v : Word) : (s.setReg d off v).reg d off = v := by
  simp [State.reg, State.setReg]
theorem State.reg_setReg_ne (s : State) {d e off o : Nat} (v : Word) (h : e ≠ d ∨ o ≠ off) :
    (s.setReg d off v).reg e o = s.reg e o := by
  simp only [State.reg, State.setReg]
  rcases Decidable.em (e = d) with rfl | hd
  · simp [h.resolve_left (fun g => g rfl)]
  · simp [hd]

theorem State.strand_onStrand_self (s : State) (k : Nat) (f : Strand → Strand) : (s.onStrand k f).strand k = (s.strand k).map f := by
  simp only [State.onStrand]
  cases h : s.strand k <;> simp [h]
theorem State.strand_onStrand_ne (s : State) {j k : Nat} (f : Strand → Strand) (h : j ≠ k) : (s.onStrand k f).strand j = s.strand j := by
  simp only [State.onStrand]
  cases s.strand k <;> simp [h]

/-- x0 reads zero, whatever the file holds (R75). -/
@[simp] theorem Strand.xr_zero (st : Strand) : st.xr 0 = 0 := rfl
@[simp] theorem Strand.gr_zero (st : Strand) : st.gr 0 = 0 := rfl
/-- A register other than x0 reads what was written to it. -/
theorem Strand.xr_setX_self (st : Strand) {n : Nat} (v : Word) (h : n ≠ 0) : (st.setX n v).xr n = v := by
  simp [Strand.xr, Strand.setX, h]
theorem Strand.xr_setX_ne (st : Strand) {m n : Nat} (v : Word) (h : m ≠ n) : (st.setX n v).xr m = st.xr m := by
  by_cases hm : m = 0
  · simp [Strand.xr, hm]
  · by_cases hn : n = 0 <;> simp [Strand.xr, Strand.setX, hm, hn, h]
/-- A write to x0 is discarded (R75). -/
@[simp] theorem Strand.setX_zero (st : Strand) (v : Word) : st.setX 0 v = st := rfl
theorem Strand.gr_setG_self (st : Strand) {n : Nat} (v : Word) (h : n ≠ 0) : (st.setG n v).gr n = v := by
  simp [Strand.gr, Strand.setG, h]
theorem Strand.gr_setG_ne (st : Strand) {m n : Nat} (v : Word) (h : m ≠ n) : (st.setG n v).gr m = st.gr m := by
  by_cases hm : m = 0
  · simp [Strand.gr, hm]
  · by_cases hn : n = 0 <;> simp [Strand.gr, Strand.setG, hm, hn, h]
@[simp] theorem Strand.setG_zero (st : Strand) (v : Word) : st.setG 0 v = st := rfl

@[simp] theorem Strand.queue_setQueue_self (st : Strand) (c : Nat) (l : List QWord) : (st.setQueue c l).queue c = l :=
  Tab.getD_put_self _ _ _ _
@[simp] theorem Strand.queue_setQueue_ne (st : Strand) {b c : Nat} (l : List QWord) (h : b ≠ c) :
    (st.setQueue c l).queue b = st.queue b := Tab.getD_put_ne _ _ _ h

end Sys2Proof.Machine
end

