-- ==== Sys2Proof/Laws/Issue.lean ====
section
/-! SUPPORT. Laws of issue: a word that stands where it issues is found ready, and what its issue leaves. -/

namespace Sys2Proof.Machine

theorem mem_landIn {e x : Land} : ∀ {l : List Land}, x ∈ landIn e l ↔ x = e ∨ x ∈ l
  | [] => by simp [landIn]
  | a :: l => by
    simp only [landIn]
    split
    · simp
    · simp only [List.mem_cons, mem_landIn]
      exact ⟨by rintro (h | h | h) <;> simp [h], by rintro (h | h | h) <;> simp [h]⟩

theorem mem_landIns {now seq : Nat} {x : Land} : ∀ {effs : List Eff} {l : List Land},
    x ∈ effs.foldl (fun l e => landIn ⟨now, seq, e⟩ l) l ↔ x ∈ l ∨ ∃ f ∈ effs, x = ⟨now, seq, f⟩
  | [], l => by simp
  | e :: effs, l => by
    simp only [List.foldl_cons, mem_landIns, mem_landIn, List.mem_cons, exists_eq_or_imp]
    exact ⟨by rintro ((h | h) | h) <;> simp [h], by rintro (h | h | h) <;> simp [h]⟩

theorem firstWait_ok {l : List (Bool × Nat × Nat)} (h : ∀ e ∈ l, e.1 = false) : firstWait l = .ok := by
  induction l with
  | nil => rfl
  | cons e l ih =>
    obtain ⟨b, c, o⟩ := e
    have hb : b = false := h (b, c, o) List.mem_cons_self
    subst hb
    exact ih fun x hx => h x (List.mem_cons_of_mem _ hx)

/-- The token queues of a word are found ready. -/
theorem tokWaits_ok {st : Strand} {c : Nat} {h : Hdr} (ht : st.TokensOk c h) : ∀ e ∈ st.tokWaits c h, e.1 = false := by
  intro e he
  simp only [Strand.tokWaits, List.mem_cons, List.not_mem_nil, or_false] at he
  obtain ⟨h1, h2⟩ := ht
  rcases he with rfl | rfl
  · rcases h1 with h1 | h1
    · simp [h1]
    · simpa using fun _ => h1
  · rcases h2 with h2 | h2
    · simp [h2]
    · simpa using fun _ => h2

/-- A word that stands where it issues finds no obstacle but the use of its engine. -/
theorem readyBare_ok {s : State} {st : Strand} {i : Instr} {w : QWord} {l : List QWord} (h : Issuable s st i w l) :
    st.readyBare i w = .ok := by
  have hd := h.due
  have h1 : ¬ (st.stop.isSome = true ∨ st.behindSusp w.seq = true ∨ st.want = true ∨ st.behindY w.seq = true) := by
    simp [h.runs, h.order, h.awake, h.sync]
  simp only [Strand.readyBare, h1, if_false, hd, Nat.lt_irrefl]
  rw [if_neg]
  · apply firstWait_ok
    intro e he
    simp only [List.mem_append, List.mem_cons, List.not_mem_nil, or_false, List.mem_map] at he
    rcases he with ((he | he) | he) | he | he
    · subst he
      simp only [Bool.eq_false_iff, ne_eq, List.any_eq_true, decide_eq_true_eq, not_exists, not_and]
      intro x hx
      have := h.landed x hx
      omega
    · exact tokWaits_ok h.tokens e he
    · obtain ⟨n, hn, rfl⟩ := he
      have := h.queues n hn
      simpa using this
    · subst he
      have := h.room
      simp only [Bool.and_eq_false_iff, bne_eq_false_iff_eq, decide_eq_false_iff_not, Nat.not_le]
      rcases Decidable.em (insCls i = 3) with hc | hc
      · simp [hc]
      rcases Nat.lt_or_ge (dstField i) 88 with h8 | h8
      · simp [h8]
      rcases Nat.lt_or_ge 91 (dstField i) with h9 | h9
      · simp [h9]
      · exact .inr (this hc h8 h9)
    · subst he
      have := h.roomG
      simp only [Bool.and_eq_false_iff, beq_eq_false_iff_ne, decide_eq_false_iff_not, Nat.not_le]
      rcases Decidable.em (insCls i = 0) with hc | hc
      · rcases Decidable.em (dstField i = 92) with h9 | h9
        · exact .inr (this hc h9)
        · exact .inl (.inr h9)
      · exact .inl (.inl hc)
  · rintro ⟨g1, g2⟩
    rcases h.apart with g | g
    · simp [g] at g1
    · omega

/-- A word that stands where it issues is found ready. -/
theorem readySide_ok {s : State} {st : Strand} {i : Instr} {w : QWord} {l : List QWord} (h : Issuable s st i w l) :
    s.readySide s.cur st i w = .ok := by simp [State.readySide, readyBare_ok h, h.unit]

theorem headOr_head {st : Strand} {c : Nat} {i : Instr} {w : QWord} {l : List QWord} (h : st.queue c = w :: l) (hw : w.ins = i) :
    st.headOr c i = (w, st.setQueue c l) := by
  simp [Strand.headOr, h, hw]

/-- An execute-side word that stands where it issues: what its body answers happens. -/
theorem execSide_next {s : State} {st : Strand} {i : Instr} {w : QWord} {l : List QWord} (h : Issuable s st i w l)
    {body : Strand → QWord → State → Res (List Eff × (Strand → Strand))} {post : Strand → QWord → State → State} {effs : List Eff}
    {f : Strand → Strand} {t : State} (hb : body (st.setQueue (insCls i) l) w s = .ok (effs, f) t) :
    execSide i s body post = post (st.setQueue (insCls i) l) w
      (((t.setStrand s.cur (f ((st.setQueue (insCls i) l).issued i w effs))).claim s.cur (insCls i)).idled s.cur (st.lastWait (insCls i))) := by
  simp [execSide, h.here, h.fresh, headOr_head h.head h.word, readySide_ok h, h.clean, hb]

theorem foldl_qpop {st : Strand} : ∀ {ns : List Nat} {t : Tab (List Vec)} {n : Nat}, 
    Tab.getD (ns.foldl (fun t n => Tab.put t n ((st.qs n).drop 1)) t) n [] = if n ∈ ns then (st.qs n).drop 1 else Tab.getD t n []
  | [], t, n => by simp
  | m :: ns, t, n => by
    simp only [List.foldl_cons, foldl_qpop, List.mem_cons]
    by_cases hn : n ∈ ns
    · simp [hn]
    · by_cases hm : n = m
      · subst hm; simp [hn]
      · simp [hn, hm]

theorem issued_qs {st : Strand} {i : Instr} {w : QWord} {effs : List Eff} (n : Nat) :
    (st.issued i w effs).qs n = if n ∈ qSources i then (st.qs n).drop 1 else st.qs n := by
  have : (st.issued i w effs).q = (qSources i).foldl (fun t n => Tab.put t n ((st.qs n).drop 1)) st.q := by
    simp [Strand.issued, Strand.popped]
  show Tab.getD (st.issued i w effs).q n [] = _
  rw [this]; exact foldl_qpop

theorem popCodes_side {i : Instr} (h : insCls i ≠ 1) : popCodes i = [] := by simp [popCodes, h]

/-- The landing buffer after the issue of a word: its results wait there, or, of one with SUSP, yield or halt, beside it (R24). -/
theorem issued_land {st : Strand} {i : Instr} {w : QWord} {effs : List Eff} :
    (suspends i = false → (∀ e, e ∈ (st.issued i w effs).land ↔ e ∈ st.land ∨ ∃ f ∈ outcome i effs, e = ⟨st.now + (timing i).2, w.seq, f⟩) ∧
      (st.issued i w effs).late = st.late ∧ (st.issued i w effs).susp = st.susp) ∧
    (suspends i = true → (st.issued i w effs).land = st.land ∧ (st.issued i w effs).late = outcome i effs ∧
      (st.issued i w effs).susp = some w) := by
  refine ⟨fun h => ⟨fun e => ?_, ?_, ?_⟩, fun h => ⟨?_, ?_, ?_⟩⟩ <;> simp only [Strand.issued, h, if_true, if_false, Bool.false_eq_true]
  · rw [← mem_landIns]; simp [outcome]
  · simp
  · simp
  · simp
  · simp [outcome]
  · simp

/-- What an issue whose word changes nothing else leaves (R81 to R88). -/
theorem issueOf {s : State} {st : Strand} {i : Instr} {w : QWord} {l : List QWord} {effs : List Eff} (hc : insCls i ≠ 1) :
    IssueOf s st i w l effs
      ((s.setStrand s.cur ((st.setQueue (insCls i) l).issued i w effs)).claim s.cur (insCls i)) := by
  have hl := @issued_land (st.setQueue (insCls i) l) i w effs
  refine ⟨⟨(st.setQueue (insCls i) l).issued i w effs, by simp, ⟨by simp, by simp, by simp, by simp, by simp, by simp, by simp, by simp⟩,
    by simp [Strand.queue, Strand.setQueue], by simpa using hl.1, by simpa using hl.2, ?_, ?_, ?_⟩, by constructor <;> simp,
    ⟨fun k hk => by simp, fun k hk => by simp [hk], fun u => ?_⟩⟩
  · simp [Strand.engine, Strand.issued]
  · intro n; rw [issued_qs]; simp [Strand.qs]
  · simp [Strand.issued, Strand.popped, popCodes_side hc]
  · simp only [State.claim]
    by_cases hu : u = slotTile s.cur
    · subst hu; simp
    · simp [hu]

@[simp] theorem State.strand_idled (s : State) (k j : Nat) (b : Bool) : (s.idled k b).strand j = s.strand j := by simp [State.strand]
@[simp] theorem State.tile_idled (s : State) (k u : Nat) (b : Bool) : (s.idled k b).tile u = s.tile u := by simp [State.tile]

theorem SamePart.idled {s t : State} {k : Nat} {b : Bool} (h : SamePart s t) : SamePart s (t.idled k b) := by
  obtain ⟨h1, h2, h3, h4, h5, h6, h7, h8, h9, h10⟩ := h
  constructor <;> simpa

theorem SameOthers.idled {s t : State} {b : Bool} (h : SameOthers s t) : SameOthers s (t.idled s.cur b) := by
  refine ⟨fun k hk => ?_, fun k hk => by simpa using h.strands k hk, fun u => by simpa using h.tiles u⟩
  rw [← h.idle k hk]
  simp only [State.idled]
  split
  · exact Tab.find_put_ne _ _ hk
  · rfl

/-- The end of the last wait of the slot, which its wait register shows from then on (R424), changes nothing that an issue leaves. -/
theorem IssueOf.idled {s t : State} {st : Strand} {i : Instr} {w : QWord} {l : List QWord} {effs : List Eff} {b : Bool}
    (h : IssueOf s st i w l effs t) : IssueOf s st i w l effs (t.idled s.cur b) :=
  ⟨by simpa using h.strand, h.part.idled, h.others.idled⟩

/-- The same, as the meaning answers it: an execute-side word that only gives results. -/
theorem execSide_issueOf {s : State} {st : Strand} {i : Instr} {w : QWord} {l : List QWord} (hc : insCls i ≠ 1)
    (h : Issuable s st i w l) {body : Strand → QWord → State → Res (List Eff × (Strand → Strand))} {effs : List Eff}
    (hb : body (st.setQueue (insCls i) l) w s = .ok (effs, id) s) :
    IssueOf s st i w l effs (execSide i s body) := by
  rw [execSide_next h hb]
  exact (issueOf hc).idled

@[simp] theorem Strand.srcX_setQueue (st : Strand) (c : Nat) (l : List QWord) (r : BitVec 7) :
    (st.setQueue c l).srcX r = st.srcX r := rfl
@[simp] theorem Strand.srcV_setQueue (st : Strand) (c : Nat) (l : List QWord) (r : BitVec 7) :
    (st.setQueue c l).srcV r = st.srcV r := rfl
@[simp] theorem Strand.srcSp_setQueue (st : Strand) (c : Nat) (l : List QWord) (n : Nat) :
    (st.setQueue c l).srcSp n = st.srcSp n := rfl
@[simp] theorem Strand.srcP_setQueue (st : Strand) (c : Nat) (l : List QWord) (n : Nat) :
    (st.setQueue c l).srcP n = st.srcP n := rfl

/-- The same of a word whose results depend on the strand's registers alone. -/
theorem execReg_next {s : State} {st : Strand} {i : Instr} {w : QWord} {l : List QWord} (hc : insCls i ≠ 1) (h : Issuable s st i w l)
    (effs : Strand → List Eff) :
    ∃ t, execReg i s effs = .next t ∧ IssueOf s st i w l (effs (st.setQueue (insCls i) l)) t :=
  ⟨_, rfl, execSide_issueOf hc h rfl⟩

theorem put_put {α : Type} (t : Tab α) (k : Nat) (x y : α) : Tab.put (Tab.put t k x) k y = Tab.put t k y := by
  induction t with
  | nil => simp [Tab.put]
  | cons e l ih =>
    obtain ⟨b, w⟩ := e
    simp only [Tab.put]
    split
    · simp [Tab.put]
    · split
      · simp [Tab.put]
      · simp [Tab.put, *]

/-- Changing the strand that has just issued. -/
theorem onStrand_claim (s : State) (k c : Nat) (x : Strand) (f : Strand → Strand) :
    ((s.setStrand k x).claim k c).onStrand k f = (s.setStrand k (f x)).claim k c := by
  simp only [State.onStrand, State.strand_claim, State.strand_setStrand_self]
  simp only [State.claim, State.onTile, State.setTile, State.setStrand, put_put, State.tile]

/-! ### Class A -/

/-- A strand that has drained up to a word has retired what is ahead of it. -/
theorem drained_retired {st : Strand} {w : QWord} (h : st.drainedTo w = true) : st.retiredTo w = true := by
  simp only [Strand.drainedTo, Bool.and_eq_true, List.isEmpty_iff] at h
  simp only [Strand.retiredTo, Bool.and_eq_true, List.isEmpty_iff]
  obtain ⟨⟨⟨⟨h1, h2⟩, h3⟩, h4⟩, h5⟩ := h
  exact ⟨⟨⟨⟨h1, h2⟩, h3⟩, by simp [h4]⟩, h5⟩

/-- A word of class A that stands where it issues is found ready. -/
theorem readyAcc_ok {s : State} {st : Strand} {i : Instr} {w : QWord} {l : List QWord} {gs : List (BitVec 7)} {load store : Bool}
    (h : Accessible s st i w l gs load store) : s.readyAcc s.cur st i w (gRegs gs) load store = .ok := by
  have h1 : ¬ (st.stop.isSome = true ∨ st.behindSusp w.seq = true ∨ st.want = true ∨ st.behindY w.seq = true) := by
    simp [h.runs, h.order, h.awake, h.sync]
  have h2 : ¬ (st.stop.isSome = true ∨ st.behindSusp w.seq = true ∨ st.want = true ∨ st.behindY w.seq = true ∨
      ((insHdr i).susp = true ∧ (!st.retiredTo w) = true) ∨ st.causeAt 8 = 13) := by
    rintro (g | g | g | g | ⟨g, g'⟩ | g)
    · exact h1 (.inl g)
    · exact h1 (.inr (.inl g))
    · exact h1 (.inr (.inr (.inl g)))
    · exact h1 (.inr (.inr (.inr g)))
    · simp [drained_retired (h.rested g).1] at g'
    · exact h.closes g
  have h3 : ¬ ((insHdr i).susp = true ∧ (st.popped i).leftover ≠ 0) := fun g => g.2 (h.rested g.1).2
  have hb : s.readyAccBare st i w (gRegs gs) load store = .ok := by
   simp only [State.readyAccBare, h2, h3, if_false]
   apply firstWait_ok
   intro e he
   simp only [List.mem_append, List.mem_cons, List.not_mem_nil, or_false, List.mem_map] at he
   rcases he with (((he | he) | he) | he) | he | he | he
   · subst he
     have := h.gap
     have hd : ((insHdr i).susp && !st.drainedTo w) = false := by
       rcases hs : (insHdr i).susp with _ | _
       · rfl
       · simp [(h.rested hs).1]
     simp only [hd, Bool.or_false, decide_eq_false_iff_not]; omega
   · exact tokWaits_ok h.tokens e he
   · obtain ⟨n, hn, rfl⟩ := he
     have := h.free n hn
     rw [Bool.eq_false_iff, ne_eq, Bool.and_eq_true, Bool.or_eq_true, List.any_eq_true]
     rintro ⟨h0, ⟨m, hm, hd⟩ | hd⟩
     · simp only [Bool.and_eq_true, beq_iff_eq] at hd
       exact this (.inl ⟨by simpa using h0, m, by simpa using hm, hd.1, hd.2⟩)
     · exact this (.inr ⟨_, hd⟩)
   · obtain ⟨c, hc, rfl⟩ := he
     have := h.takes c hc
     by_cases h9 : c = 92
     · simpa [h9] using this
     · simpa [h9] using this
   · subst he
     have := h.roomQ
     simp only [Bool.and_eq_false_iff, decide_eq_false_iff_not, Nat.not_le]
     rcases Nat.lt_or_ge (dstField i) 80 with h8 | h8
     · simp [h8]
     rcases Nat.lt_or_ge 87 (dstField i) with h9 | h9
     · simp [h9]
     · exact .inr (this h8 h9)
   · subst he
     have := h.roomL
     cases load <;> simp_all
   · subst he
     have := h.roomS
     cases store <;> simp_all
  simp [State.readyAcc, hb, h.unit]

/-- A word of class A that stands where it issues: what its body answers happens. -/
theorem execAcc_next {s : State} {st : Strand} {i : Instr} {w : QWord} {l : List QWord} {gs : List (BitVec 7)} {load store : Bool}
    (h : Accessible s st i w l gs load store) {body : Strand → QWord → State → Res (Strand → Strand)} {f : Strand → Strand} {t : State}
    (hb : body (st.setQueue 1 l) w s = .ok f t) :
    execAcc i s (gRegs gs) load store body =
      ((t.setStrand s.cur (f ((st.setQueue 1 l).issuedA i w))).claim s.cur 1).idled s.cur (st.lastWait 1) := by
  have hh := h.head
  rw [h.cls] at hh
  have hl : ((gRegs gs).any fun n => s.owes st.id.uid n true) = false := by
    rw [Bool.eq_false_iff, ne_eq, List.any_eq_true]
    rintro ⟨n, hn, hd⟩
    exact h.free n hn (.inr ⟨_, hd⟩)
  have hc := h.clean
  simp only [List.append_assoc] at hc
  simp [execAcc, h.here, h.fresh, headOr_head hh h.word, readyAcc_ok h, hc, hb, hl]

theorem foldl_wpop {st : Strand} (n : Nat) (hn : n < 4) : ∀ {cs : List Nat} {t : Tab (List Vec)}, (∀ c ∈ cs, 88 ≤ c) →
    Tab.getD (cs.foldl (fun t c => if c < 92 then Tab.put t (c - 88) ((st.ws (c - 88)).drop 1) else t) t) n [] =
      if 88 + n ∈ cs then (st.ws n).drop 1 else Tab.getD t n []
  | [], t, _ => by simp
  | c :: cs, t, h => by
    have ih := @foldl_wpop st n hn cs
    have hc := h c List.mem_cons_self
    simp only [List.foldl_cons, List.mem_cons]
    rw [ih fun x hx => h x (List.mem_cons_of_mem _ hx)]
    by_cases h1 : 88 + n ∈ cs
    · simp [h1]
    · by_cases h2 : 88 + n = c
      · subst h2
        simp [h1, show 88 + n < 92 by omega, show 88 + n - 88 = n by omega]
      · simp only [h1, h2, or_self, if_false]
        split
        · rw [Tab.getD_put_ne]; omega
        · rfl

theorem popCodes_ge {i : Instr} : ∀ c ∈ popCodes i, 88 ≤ c := by
  have hd : ∀ (l : List Nat) (c : Nat), c ∈ dedup l → c ∈ l := by
    intro l; induction l with
    | nil => simp [dedup]
    | cons a l ih =>
      intro c hc; simp only [dedup] at hc
      split at hc
      · exact List.mem_cons_of_mem _ (ih c hc)
      · rcases List.mem_cons.mp hc with rfl | hc
        · exact List.mem_cons_self
        · exact List.mem_cons_of_mem _ (ih c hc)
  intro c hc
  simp only [popCodes] at hc
  split at hc
  · have := hd _ _ hc
    rw [List.mem_filter] at this
    have := this.2
    simp only [decide_eq_true_eq] at this
    exact this.1
  · simp at hc

theorem qSources_acc {i : Instr} (h : insCls i = 1) : qSources i = [] := by simp [qSources, h]

theorem issuedA_ws {st : Strand} {i : Instr} {w : QWord} (n : Nat) (hn : n < 4) :
    (st.issuedA i w).ws n = if 88 + n ∈ popCodes i then (st.ws n).drop 1 else st.ws n := by
  have : (st.issuedA i w).w = (popCodes i).foldl (fun t c => if c < 92 then Tab.put t (c - 88) ((st.ws (c - 88)).drop 1) else t) st.w := by
    simp [Strand.issuedA, Strand.popped]
  show Tab.getD (st.issuedA i w).w n [] = _
  rw [this]; exact foldl_wpop n hn popCodes_ge

/-- What the issue of a word of class A leaves, where the word itself changes g, the load, store and branch queues alone. -/
theorem accessOf {s : State} {st : Strand} {i : Instr} {w : QWord} {l : List QWord} {u : Strand} (hc : insCls i = 1)
    {gr : Nat → Word} {lq sq : List MemOp} {bq : List Bool}
    (h1 : ∀ n, u.gr n = gr n) (h2 : u.lq = lq) (h3 : u.sq = sq) (h4 : u.bq = bq)
    (h5 : u.eq = ((st.setQueue 1 l).issuedA i w).eq ∧ u.aGap = 0 ∧ u.x = st.x ∧ u.sp = st.sp ∧ u.v = st.v ∧ u.p = st.p ∧ u.lc = st.lc ∧
      u.base = st.base ∧ u.id = st.id ∧ u.q = ((st.setQueue 1 l).issuedA i w).q ∧ u.land = st.land ∧ u.mq = st.mq ∧ u.fmt = st.fmt ∧
      u.now = st.now ∧ u.pc = st.pc ∧ u.w = ((st.setQueue 1 l).issuedA i w).w ∧ u.xg = ((st.setQueue 1 l).issuedA i w).xg) :
    AccessOf s st i l gr lq sq bq ((s.setStrand s.cur u).claim s.cur 1) := by
  obtain ⟨g1, g2, g3, g4, g5, g6, g7, g8, g9, g10, g11, g12, g13, g14, g15, g16, g17⟩ := h5
  refine ⟨⟨u, by simp, h1, h2, h3, h4, ?_, g2, g3, g4, g5, g6, g7, g8, g9, ?_, g11, g12, g13, g14, g15, ?_, ?_⟩, by constructor <;> simp,
    ⟨fun k hk => by simp, fun k hk => by simp [hk], fun x => ?_⟩⟩
  · show Tab.getD u.eq 1 [] = l
    rw [g1]; simp [Strand.setQueue]
  · rw [g10]; simp [Strand.issuedA, Strand.popped, qSources_acc hc]
  · intro n hn
    have := @issuedA_ws (st.setQueue 1 l) i w n hn
    show Tab.getD u.w n [] = _
    rw [g16]; exact this
  · rw [g17]; simp [Strand.issuedA, Strand.popped]
  · simp only [State.claim]
    by_cases hx : x = slotTile s.cur
    · subst hx; simp
    · simp [hx]

theorem AccessOf.idled {s t : State} {st : Strand} {i : Instr} {l : List QWord} {gr : Nat → Word} {lq sq : List MemOp} {bq : List Bool}
    {b : Bool} (h : AccessOf s st i l gr lq sq bq t) : AccessOf s st i l gr lq sq bq (t.idled s.cur b) :=
  ⟨by simpa using h.strand, h.part.idled, h.others.idled⟩

@[simp] theorem Strand.srcG_setQueue (st : Strand) (c : Nat) (l : List QWord) (r : BitVec 7) : (st.setQueue c l).srcG r = st.srcG r := rfl
@[simp] theorem Strand.srcW_setQueue (st : Strand) (c : Nat) (l : List QWord) (r : BitVec 7) : (st.setQueue c l).srcW r = st.srcW r := rfl
@[simp] theorem Strand.srcData_setQueue (st : Strand) (c : Nat) (l : List QWord) (r : BitVec 7) :
    (st.setQueue c l).srcData r = st.srcData r := rfl
@[simp] theorem Strand.gr_setQueue (st : Strand) (c : Nat) (l : List QWord) (n : Nat) : (st.setQueue c l).gr n = st.gr n := rfl

end Sys2Proof.Machine
end

