-- ==== Sys2Proof/Laws/Lanes.lean ====
section
/-! SUPPORT. Laws of packed values: the lanes of a vector and the bits of a predicate made lane by lane, and bytes of a
number in little-endian order. -/

namespace Sys2Proof.Machine

theorem packNat_lt (w : Nat) (f : Nat → Nat) : ∀ n, packNat w f n < 2 ^ (w * n)
  | 0 => by simp [packNat]
  | n + 1 => by
    have ih := packNat_lt w f n
    have h1 : f n % 2 ^ w < 2 ^ w := Nat.mod_lt _ (Nat.two_pow_pos w)
    have h2 : (f n % 2 ^ w + 1) * 2 ^ (w * n) ≤ 2 ^ w * 2 ^ (w * n) := Nat.mul_le_mul_right _ h1
    rw [Nat.add_mul, Nat.one_mul] at h2
    simp only [packNat, Nat.mul_succ, Nat.pow_add, Nat.mul_comm (2 ^ (w * n)) (2 ^ w)]
    omega

theorem packNat_get (w : Nat) (f : Nat → Nat) : ∀ {n i}, i < n → packNat w f n / 2 ^ (w * i) % 2 ^ w = f i % 2 ^ w
  | 0, _, h => by omega
  | n + 1, i, h => by
    simp only [packNat]
    rcases Nat.lt_or_ge i n with hi | hi
    · have ih := packNat_get w f hi
      have hp : 2 ^ (w * n) = 2 ^ (w * i) * (2 ^ w * 2 ^ (w * (n - i - 1))) := by
        rw [← Nat.pow_add, ← Nat.pow_add]; congr 1
        rw [← Nat.mul_one w, Nat.mul_assoc, Nat.mul_assoc, Nat.mul_assoc, Nat.one_mul, Nat.one_mul, Nat.one_mul, ← Nat.mul_add, ← Nat.mul_add]
        congr 1; omega
      rw [hp, show f n % 2 ^ w * (2 ^ (w * i) * (2 ^ w * 2 ^ (w * (n - i - 1)))) =
        2 ^ (w * i) * (2 ^ w * (f n % 2 ^ w * 2 ^ (w * (n - i - 1)))) by ac_rfl,
        Nat.add_mul_div_left _ _ (Nat.two_pow_pos _), Nat.add_mul_mod_self_left, ih]
    · have : i = n := by omega
      subst this
      rw [Nat.add_mul_div_right _ _ (Nat.two_pow_pos _), Nat.div_eq_of_lt (packNat_lt w f i), Nat.zero_add, Nat.mod_mod]

theorem lane_toNat (v : Vec) (i : Nat) : (lane v i).toNat = v.toNat / 2 ^ (32 * i) % 2 ^ 32 := by
  rw [lane, BitVec.extractLsb'_toNat, Nat.shiftRight_eq_div_pow]

/-- Lane `i` of a vector made from lanes. -/
@[simp] theorem lane_vecOf (f : Nat → Lane) {i : Nat} (h : i < 128) : lane (vecOf f) i = f i := by
  have hl : packNat 32 (fun i => (f i).toNat) 128 < 2 ^ 4096 := packNat_lt 32 (fun i => (f i).toNat) 128
  have hg := packNat_get 32 (fun i => (f i).toNat) h
  apply BitVec.eq_of_toNat_eq
  rw [lane_toNat, vecOf, BitVec.toNat_ofNat, Nat.mod_eq_of_lt hl, hg]
  exact Nat.mod_eq_of_lt (f i).isLt

/-- Bit `i` of a predicate made from bits. -/
@[simp] theorem getLsbD_predOf (f : Nat → Bool) {i : Nat} (h : i < 128) : (predOf f).getLsbD i = f i := by
  have hl := packNat_lt 1 (fun i => (f i).toNat) 128
  have hg := packNat_get 1 (fun i => (f i).toNat) h
  have hm : (f i).toNat % 2 ^ 1 = (f i).toNat := Nat.mod_eq_of_lt (by cases f i <;> simp)
  simp only [predOf, BitVec.getLsbD_ofNat, h, decide_true, Bool.true_and, Nat.testBit_eq_decide_div_mod_eq]
  rw [Nat.one_mul] at hg
  rw [show (2 : Nat) ^ 1 = 2 by rfl] at hg hm
  rw [hg, hm]
  cases f i <;> rfl

theorem leBytes_length : ∀ n v, (leBytes n v).length = n
  | 0, _ => rfl
  | n + 1, v => by simp [leBytes, leBytes_length n]

/-- The number that little-endian bytes of a number hold. -/
theorem leNat_leBytes : ∀ n v, leNat (leBytes n v) = v % 256 ^ n
  | 0, v => by simp [leBytes, leNat, Nat.mod_one]
  | n + 1, v => by
    have h : (BitVec.ofNat 8 v).toNat = v % 256 := rfl
    rw [leBytes, leNat, leNat_leBytes n, h, Nat.pow_succ, Nat.mul_comm (256 ^ n) 256, Nat.mod_mul]

end Sys2Proof.Machine
end

