-- ==== Sys2Proof/Laws/Mem.lean ====
section
/-! SUPPORT. Laws of memory: a read after a write, what a write leaves alone, and that every memory operation keeps the
canonical form. -/

namespace Sys2Proof.Machine

/-! ### Reading after writing -/

theorem readMem_length (m : List Host.Cell) (k n : Nat) : (readMem m k n).length = n := by
  induction n generalizing k with
  | zero => rfl
  | succ n ih => simp [readMem, ih]

theorem readMem_get (m : List Host.Cell) (k : Nat) {n i : Nat} (h : i < n) : (readMem m k n)[i]? = some (Cells.get m (k + i)) := by
  induction n generalizing k i with
  | zero => omega
  | succ n ih =>
    cases i with
    | zero => simp [readMem]
    | succ i => simp only [readMem, List.getElem?_cons_succ]; rw [ih (k + 1) (by omega)]; congr 2; omega

/-- A byte outside the bytes written reads as before. -/
theorem get_writeMem_out (b : List Byte) (m : List Host.Cell) {k a : Nat} (h : a < k ∨ k + b.length ≤ a) :
    Cells.get (writeMem m k b) a = Cells.get m a := by
  induction b generalizing m k with
  | nil => rfl
  | cons x l ih =>
    simp only [List.length_cons] at h
    simp only [writeMem]
    rw [ih _ (by omega), Cells.get_set_ne _ _ (by omega)]

/-- A byte written reads as written. -/
theorem get_writeMem_in (b : List Byte) (m : List Host.Cell) (k : Nat) {i : Nat} (h : i < b.length) :
    Cells.get (writeMem m k b) (k + i) = b[i] := by
  induction b generalizing m k i with
  | nil => simp at h
  | cons x l ih =>
    simp only [writeMem]
    cases i with
    | zero => rw [get_writeMem_out _ _ (by omega)]; simp
    | succ i =>
      have := ih (Cells.set m k x) (k + 1) (i := i) (by simpa using h)
      simpa [Nat.add_assoc, Nat.add_comm 1 i] using this

/-- A read of the bytes just written gives them. -/
theorem readMem_writeMem (m : List Host.Cell) (k : Nat) (b : List Byte) : readMem (writeMem m k b) k b.length = b := by
  apply List.ext_getElem? ; intro i
  rcases Nat.lt_or_ge i b.length with h | h
  · rw [readMem_get _ _ h, get_writeMem_in _ _ _ h, List.getElem?_eq_getElem h]
  · rw [List.getElem?_eq_none (by rw [readMem_length]; exact h), List.getElem?_eq_none h]

@[simp] theorem State.peek_poke (s : State) (l : Loc) (b : List Byte) : (s.poke l b).peek l b.length = b :=
  readMem_writeMem _ _ _

/-- A write leaves every byte outside it as it was. -/
theorem State.byte_poke_out (s : State) (l : Loc) (b : List Byte) {a : Nat} (h : a < l.key ∨ l.key + b.length ≤ a) :
    (s.poke l b).byte a = s.byte a := get_writeMem_out _ _ h

/-! ### The canonical form -/

theorem writeMem_wf (b : List Byte) {m : List Host.Cell} (k : Nat) (h : Memory.wf m = true) : Memory.wf (writeMem m k b) = true := by
  induction b generalizing m k with
  | nil => exact h
  | cons x l ih => exact ih (k + 1) (Cells.wf_set k x h)

/-- The memory of a state is in canonical form. -/
abbrev State.Canon (s : State) : Prop := Memory.wf s.mem = true

theorem State.reset_canon : State.reset.Canon := rfl

theorem State.poke_canon {s : State} (l : Loc) (b : List Byte) (h : s.Canon) : (s.poke l b).Canon := writeMem_wf b _ h
theorem State.pokeWord_canon {s : State} (l : Loc) (v : Word) (h : s.Canon) : (s.pokeWord l v).Canon := s.poke_canon l _ h
theorem State.loseLine_canon {s : State} (x : Nat × Line) (h : s.Canon) : (s.loseLine x).Canon := writeMem_wf _ _ h

@[simp] theorem State.pick_mem (s : State) (n : Nat) : (s.pick n).2.mem = s.mem := by
  simp only [State.pick]; split <;> rfl
@[simp] theorem State.intoL2_mem (s : State) (d n : Nat) (c : Line) : (s.intoL2 d n c).mem = s.mem := by
  simp only [State.intoL2]; split <;> simp
@[simp] theorem State.taken_mem (s : State) (n c : Nat) (src : Option Nat) : (s.taken n c src).mem = s.mem := by
  simp only [State.taken]; split <;> rfl
@[simp] theorem State.keepHome_mem (s : State) (n : Nat) : (s.keepHome n).mem = s.mem := by
  simp only [State.keepHome]; split <;> simp

theorem State.writeBack_canon {s : State} (n : Nat) (c : Line) (h : s.Canon) : (s.writeBack n c).Canon := by
  simp only [State.writeBack]
  split
  · exact writeMem_wf _ _ (by simpa using h)
  · exact h

theorem State.writeBacks_canon (l : Tab Line) {s : State} (h : s.Canon) : (s.writeBacks l).Canon := by
  induction l generalizing s with
  | nil => exact h
  | cons e l ih => exact ih (s.writeBack_canon e.1 e.2 h)

theorem State.cleanL1_canon {s : State} (t : Nat) (l : List Nat) (h : s.Canon) : (s.cleanL1 t l).Canon := by
  simpa [State.cleanL1, State.Canon] using s.writeBacks_canon _ h

theorem State.flushL1_canon {s : State} (t : Nat) (l : List Nat) (h : s.Canon) : (s.flushL1 t l).Canon := by
  simpa [State.flushL1, State.Canon] using s.cleanL1_canon t l h

theorem State.evictL1_canon {s : State} (t n : Nat) (h : s.Canon) : (s.evictL1 t n).Canon := by
  simp only [State.evictL1]
  split
  · simpa [State.Canon] using s.writeBack_canon n _ h
  · exact h

theorem State.fillL1_canon {s : State} (t : Nat) (l : Loc) (coh : Nat) (h : s.Canon) : (s.fillL1 t l coh).1.Canon := by
  have hp : ∀ p : Nat × State, p.2.mem = s.mem → p.2.Canon := fun p e => by simpa [State.Canon, e] using h
  simp only [State.fillL1]
  split
  · exact h
  · have he : (if l1Lines ≤ (s.tile t).l1.length then s.pick (s.tile t).l1.length else ((s.tile t).l1.length, s)).2.mem = s.mem := by
      split <;> simp
    split
    · simpa [State.Canon] using hp _ he
    · simpa [State.Canon] using State.evictL1_canon t _ (hp _ he)

theorem State.loadLine_canon {s : State} (d t : Nat) (fused : Bool) (l : Loc) (coh n : Nat) (h : s.Canon) :
    (s.loadLine d t fused l coh n).2.Canon := by
  simp only [State.loadLine]
  split
  · exact h
  · exact h
  · split
    · split
      · exact h
      · split
        · exact h
        · split <;> simpa [State.Canon] using h
    · exact s.fillL1_canon _ l coh h

theorem State.storeLine_canon {s : State} (d t : Nat) (fused : Bool) (l : Loc) (coh : Nat) (e : Bool) (uid : Nat) (va : Word)
    (b : List Byte) (h : s.Canon) : (s.storeLine d t fused l coh e uid va b).Canon := by
  simp only [State.storeLine]
  split
  · exact s.poke_canon _ b h
  · exact s.poke_canon _ b h
  · split
    · have hp : ∀ keep, ((s.dropL2 l.line keep).keepHome l.line).Canon := fun keep => by simpa [State.Canon] using h
      split
      · exact State.poke_canon _ b (hp _)
      · simpa only [State.Canon, State.onDie_mem] using State.poke_canon _ b (hp _)
    · simpa only [State.Canon, State.onTile_mem] using s.fillL1_canon _ l coh h

theorem State.discard_canon {s : State} (d t : Nat) (fused : Bool) (n : Nat) (h : s.Canon) : (s.discard d t fused n).Canon := by
  simp only [State.discard, State.Canon, State.onDie_mem]
  split
  · split
    · exact State.loseLine_canon _ (by simpa [State.Canon] using h)
    · simpa using h
  · simpa using h

end Sys2Proof.Machine
end

