-- ==== Sys2Proof/Tests/Slice0.lean ====
section
/-! SUPPORT. Tests of the model on small states, and for every statement of the certificates states and operands that meet its
hypotheses. A test's expected value is worked out from the rule that its docstring names. -/

namespace Sys2Proof.Tests

set_option Elab.async false

open Sys2Proof Sys2Proof.Machine Sys2Proof.Claims

/-! ### Small states -/

/-- A plain strand of launch 1, stage 0. -/
def who : Ident := { uid := 1, launch := 1, stage := 0, crec := 0x10000 }

/-- The word of an instruction, at address 8, first of its strand. -/
def word (i : Instr) : QWord := { ins := i, pc := 8, seq := 0 }

/-- A strand whose one word heads its queue. -/
def lone (i : Instr) : Strand := { id := who, pc := 16, seq := 1, eq := [(insCls i, [word i])] }

/-- Slot 0 holds a strand. -/
def holding (st : Strand) : State := State.reset.setStrand 0 st

/-- Slot 0 holds a strand whose one word heads its queue. -/
def ready (i : Instr) : State := holding (lone i)

/-- The conditions of `Stands`, evaluated. -/
def standsNow (s : State) (st : Strand) (i : Instr) (w : QWord) (l : List QWord) : Bool :=
  decide (s.strand s.cur = some st ∧ st.stop = none ∧ st.want = false ∧ st.queue (insCls i) = w :: l ∧ w.ins = i ∧ st.opened i = none ∧
    st.behindSusp w.seq = false ∧ st.behindY w.seq = false)

theorem stands_of {s : State} {st : Strand} {i : Instr} {w : QWord} {l : List QWord} (h : standsNow s st i w l = true) :
    Stands s st i w l := by
  obtain ⟨h1, h2, h3, h4, h5, h6, h7, h8⟩ := of_decide_eq_true h
  exact ⟨h1, h2, h3, h4, h5, h6, h7, h8⟩

/-- The tokens of a word, evaluated. -/
def tokensNow (st : Strand) (c : Nat) (h : Hdr) : Bool :=
  decide ((h.pop = 0 ∨ Cells.get st.tok (tokKey (tokEng h.pop) c) ≠ 0) ∧ (h.push = 0 ∨ st.tokens c (tokEng h.push) < 16))

/-- The conditions of `Issuable`, evaluated. -/
def issuesNow (s : State) (st : Strand) (i : Instr) (w : QWord) (l : List QWord) : Bool :=
  standsNow s st i w l && decide (st.now = st.due (insCls i) (insHdr i)) &&
    decide ((st.engine (insCls i)).last = none ∨ (st.engine (insCls i)).itv ≤ (insHdr i).delay.toNat + 1) &&
    st.land.all (fun e => decide (st.now < e.due)) && tokensNow st (insCls i) (insHdr i) &&
    (qSources i).all (fun n => decide (st.qs n ≠ [])) &&
    decide (insCls i ≠ 3 → 88 ≤ dstField i → dstField i ≤ 91 → st.wLoad (dstField i - 88) < 16) &&
    decide (insCls i = 0 → dstField i = 92 → st.xgLoad < 16) && decide (st.meetsBad (regReads i ++ wordReads i) (qSources i) = false) &&
    s.arbFree s.cur (insCls i)

theorem issuable_of {s : State} {st : Strand} {i : Instr} {w : QWord} {l : List QWord} (h : issuesNow s st i w l = true) :
    Issuable s st i w l := by
  simp only [issuesNow, Bool.and_eq_true, decide_eq_true_eq, List.all_eq_true, ne_eq, tokensNow] at h
  obtain ⟨⟨⟨⟨⟨⟨⟨⟨⟨h1, h2⟩, h3⟩, h4⟩, h5⟩, h6⟩, h7⟩, h8⟩, h9⟩, h10⟩ := h
  exact { stands_of h1 with
    due := h2, apart := h3, landed := h4, tokens := h5, queues := h6, room := h7, roomG := h8, clean := h9, unit := h10 }

/-- The conditions of `Accessible`, evaluated. -/
def accessesNow (s : State) (st : Strand) (i : Instr) (w : QWord) (l : List QWord) (gs : List (BitVec 7)) (load store : Bool) : Bool :=
  standsNow s st i w l && decide (insCls i = 1) && decide ((insHdr i).delay.toNat + 1 ≤ st.aGap) && tokensNow st 1 (insHdr i) &&
    (gRegs gs).all (fun n => decide ((n = 0 ∨ ∀ m ∈ st.lq ++ st.sq, ¬ (writesG m.w.ins = true ∧ dstField m.w.ins = n)) ∧ ∀ b, s.owes st.id.uid n b = false)) &&
    decide ((insHdr i).susp = true → st.drainedTo w = true ∧ (st.popped i).leftover = 0) &&
    (popCodes i).all (fun c => decide (if c = 92 then st.xg ≠ [] else st.ws (c - 88) ≠ [])) &&
    decide (80 ≤ dstField i → dstField i ≤ 87 →
      (st.qs (dstField i - 80)).length + (st.lq.filter fun m => dstField m.w.ins == dstField i).length < 16) &&
    decide (load = true → st.lq.length < 16) && decide (store = true → st.sq.length < 16) &&
    decide (st.meetsBad ((gRegs gs).map (64 + ·) ++ (popCodes i).map (176 + ·) ++ wordReads i) [] = false) && s.arbFree s.cur 1 &&
    decide (st.causeAt 8 ≠ 13)

theorem accessible_of {s : State} {st : Strand} {i : Instr} {w : QWord} {l : List QWord} {gs : List (BitVec 7)} {load store : Bool}
    (h : accessesNow s st i w l gs load store = true) : Accessible s st i w l gs load store := by
  simp only [accessesNow, Bool.and_eq_true, decide_eq_true_eq, List.all_eq_true, tokensNow] at h
  obtain ⟨⟨⟨⟨⟨⟨⟨⟨⟨⟨⟨⟨h1, h2⟩, h3⟩, h4⟩, h5⟩, hr⟩, h6⟩, h7⟩, h8⟩, h9⟩, h10⟩, h11⟩, h12⟩ := h
  exact { stands_of h1 with
    cls := h2, gap := h3, tokens := h4, rested := hr, takes := h6, roomQ := h7, roomL := h8, roomS := h9, clean := h10, unit := h11, closes := h12
    free := fun n hn => by
      obtain ⟨h, ho⟩ := h5 n hn
      rintro (⟨h0, m, hm, hw⟩ | ⟨b, hb⟩)
      · exact h.elim h0 fun h => h m hm hw
      · exact Bool.false_ne_true ((ho b).symm.trans hb) }

/-- No scheduling fields. -/
def plain : Hdr := ⟨0, false, 0, 0⟩
/-- An R-form word of three fields and MOD. -/
def rf (d a b : BitVec 7) (m : BitVec 15 := 0) : RForm := ⟨plain, d, a, b, m, none⟩
/-- An I-form word of two fields and the immediate. -/
def if_ (d a : BitVec 7) (m : BitVec 22) : IForm := ⟨plain, d, a, m, none⟩

theorem every {α : Type} {l : List α} {f : α → Bool} {P : α → Prop} (h : l.all f = true) (g : ∀ x, f x = true → P x) : ∀ x ∈ l, P x :=
  fun x hx => g x (List.all_eq_true.mp h x hx)

/-- An execute-side word alone at the head of its queue issues, and a further condition on it holds. -/
theorem lone_issues {l : List Instr} {g : Instr → Bool}
    (h : l.all (fun i => issuesNow (ready i) (lone i) i (word i) [] && g i) = true) :
    ∀ i ∈ l, Issuable (ready i) (lone i) i (word i) [] ∧ g i = true :=
  every h fun _ hx => ⟨issuable_of (by simp only [Bool.and_eq_true] at hx; exact hx.1), by simp only [Bool.and_eq_true] at hx; exact hx.2⟩

/-! ### Class S: witnesses -/

/-- One word of each row of `scalarValue`. -/
def scalarRows : List Instr :=
  let a := rf 3 1 2
  [.add a, .sub a, .mul a, .mulh a, .div a, .rem a, .and a, .or a, .xor a, .andn a, .shl a, .shr a, .sra a, .popc a, .clz a, .ctz a,
    .min a, .max a, .fsh a, .bfx a]

theorem witness_scalar_results : ∀ i ∈ scalarRows,
    Issuable (ready i) (lone i) i (word i) [] ∧ (scalarValue (lone i) i).isSome = true := lone_issues (by decide)

theorem witness_bit_field_insert : ∀ i ∈ [Instr.bfi (rf 3 1 2)], Issuable (ready i) (lone i) i (word i) [] ∧ true = true :=
  lone_issues (by decide)

theorem witness_immediate_results :
    ∀ i ∈ ([.addi (if_ 3 1 5), .andi (if_ 3 1 5), .ori (if_ 3 1 5), .xori (if_ 3 1 5), .shli (if_ 3 1 5), .shri (if_ 3 1 5),
        .srai (if_ 3 1 5), .li (if_ 3 0 5), .addi ⟨plain, 3, 1, 5, some 7⟩] : List Instr),
      Issuable (ready i) (lone i) i (word i) [] ∧ (immediateValue (lone i) i).isSome = true := lone_issues (by decide)

theorem witness_compares :
    ∀ i ∈ ([.cmp (rf 65 1 2 2), .cmpi (if_ 65 1 5), .cmpi ⟨plain, 65, 1, 5, some 7⟩, .spop (rf 65 66 67 3), .sel (rf 3 1 2 1)] : List Instr),
      Issuable (ready i) (lone i) i (word i) [] ∧ (predicateValue (lone i) i).isSome = true := lone_issues (by decide)

/-- A strand whose dispatcher holds a word, with one outcome in its branch queue. -/
def dispatching (i : Instr) : Strand := { id := who, pc := 16, seq := 1, disp := some (word i), bq := [true], lc := [(1, 2)] }

theorem witness_dispatcher_words :
    ∀ i ∈ ([.br (if_ 0 0 5), .loop (if_ 0 0 0x1FFFFE), .loop (if_ 0 0 5), .bq (if_ 0 0 5), .lcset (if_ 0 0 5),
        .lcset ⟨plain, 0, 0, 5, some 7⟩, .rbset (if_ 0 0 31)] : List Instr),
      (∃ u, InDispatcher (holding (dispatching i)) (dispatching i) i (word i) ∧
        dispatched { dispatching i with disp := none } (word i).pc i = some u) := by
  intro i hi
  have h1 : InDispatcher (holding (dispatching i)) (dispatching i) i (word i) := ⟨rfl, rfl, rfl, rfl⟩
  simp only [List.mem_cons, List.not_mem_nil, or_false] at hi
  rcases hi with rfl | rfl | rfl | rfl | rfl | rfl | rfl <;> exact ⟨_, h1, rfl⟩

theorem witness_control_words :
    ∀ i ∈ ([.bcc (if_ 0 65 5), .lcmov (rf 0 1 0 3), .rbmov (rf 0 1 0), .mts (rf 0 1 0 8)] : List Instr),
      Issuable (ready i) (lone i) i (word i) [] ∧ (atIssue (lone i) 8 i).isSome = true := lone_issues (by decide)

theorem witness_system_words :
    ∀ i ∈ ([.mfs (rf 3 0 0 0), .mfs (rf 3 0 0 0x20), .mts (rf 0 1 0 0x10), .mts (rf 0 1 0 0x18), .tnow (rf 3 0 0), .tnow (rf 3 0 0 1),
        .mfw (rf 0 1 0), .mfwi (if_ 0 0 5), .mfwi ⟨plain, 0, 0, 5, some 7⟩] : List Instr),
      Issuable (ready i) (lone i) i (word i) [] ∧ (systemValue (ready i) (lone i) i).isSome = true := lone_issues (by decide)

/-- A store of four bytes to the scratchpad, in the store queue. -/
def stored : MemOp := { w := { ins := .sts (rf 64 1 0), pc := 0, seq := 0 }, a := 0x40, data := 0 }

/-- A strand with a store still to perform. -/
def storing (i : Instr) : Strand := { lone i with sq := [stored] }

theorem witness_membership_write :
    Issuable (holding { storing (.mts (rf 0 1 0 0x18)) with id := { who with joined := true } })
      { storing (.mts (rf 0 1 0 0x18)) with id := { who with joined := true } } (.mts (rf 0 1 0 0x18)) (word (.mts (rf 0 1 0 0x18))) [] ∧
    (rf 0 1 0 0x18).mod.toNat % 4096 = 0x018 ∧ (storing (.mts (rf 0 1 0 0x18))).sq ≠ [] :=
  ⟨issuable_of (by decide +kernel), by decide +kernel⟩

theorem witness_trap : Issuable (holding (storing (.trap (if_ 0 0 5)))) (storing (.trap (if_ 0 0 5))) (.trap (if_ 0 0 5)) (word (.trap (if_ 0 0 5))) [] :=
  issuable_of (by decide +kernel)

theorem witness_yield_and_halt : ∀ i ∈ ([.yield (rf 0 0 0), .halt (rf 0 0 0)] : List Instr),
    Issuable (ready i) (lone i) i (word i) [] ∧ true = true := lone_issues (by decide +kernel)

/-- A running launch of number 1 with a handler and one stage. -/
def launch1 : Launch :=
  { no := 1, cslot := 0, ctx := 1, oprec := 0, tag := 7, lr := [0, 0, 0, 0, 0x8000, 0x20000, 0, 0], n := 1, stages := [{ desc := [0, 0] }] }

/-- Context 1 and its tables: one leaf of 1 GiB that maps virtual to physical addresses from 0 (R320 to R323). -/
def tables : List Host.Cell :=
  [(0x1020, 1), (0x1021, 0x20), (0x2000, 1), (0x2001, 0x30), (0x3000, 1), (0x3001, 0x40), (0x4000, 0x1F), (0x4001, 3), (0x4007, 0x40)]

/-- Die 0 with its context table and launch 1. -/
def die1 (l : Launch := launch1) : Die := { regs := [(0x600, 0x1000), (0x608, 2)], state := 3, launches := [(1, l)] }

/-- Slot 0 of a die with memory and a launch holds a strand. -/
def world (st : Strand) (l : Launch := launch1) : State :=
  { State.reset with mem := tables, dies := [(0, die1 l)], strands := [(0, st)] }

/-- The state that a part of a step answers. -/
def after {α : Type} (r : Res α) : State := match r with
  | .ok _ s => s
  | .flt _ s => s
  | .wait _ _ s => s

/-- A part of a step succeeded. -/
def fine {α : Type} (r : Res α) : Bool := match r with
  | .ok _ _ => true
  | _ => false

theorem ok_after {r : Res Unit} (h : fine r = true) : r = .ok () (after r) := by
  cases r <;> simp_all [fine, after]

/-- A strand whose one word is an open suspension point. -/
def suspended (i : Instr) : Strand := { id := who, pc := 16, seq := 1, susp := some (word i) }

/-- The conditions of `Drained`, evaluated. -/
def drainedNow (s : State) (st : Strand) (i : Instr) (w : QWord) (tk : Option Took) : Bool :=
  decide (s.strand s.cur = some st ∧ st.stop = none ∧ st.susp = some w ∧ w.ins = i ∧ st.issuedBefore w.seq = true ∧
    (st.land = [] ∧ st.mq = [] ∧ st.lq = [] ∧ st.sq = []) ∧ st.took = tk)

theorem drained_of {s : State} {st : Strand} {i : Instr} {w : QWord} {tk : Option Took} (h : drainedNow s st i w tk = true) :
    Drained s st i w tk := by
  obtain ⟨h1, h2, h3, h4, h5, h6, h7⟩ := of_decide_eq_true h
  exact ⟨h1, h2, h3, h4, h5, h6, h7⟩

/-- The words whose suspension points are shown. -/
def endWords : List Instr := [.halt (rf 0 0 0), .yield (rf 0 0 0)]

theorem witness_drained : ∀ i ∈ endWords, Drained (world (suspended i)) (suspended i) i (word i) none :=
  every (f := fun i => drainedNow (world (suspended i)) (suspended i) i (word i) none) (by decide +kernel) fun _ h => drained_of h

/-- The suspension point of a word whose queues are still to be tested; `n` entries are left in q3. -/
def untested (i : Instr) (n : Nat) : Strand := { suspended i with took := some {}, q := if n = 0 then [] else [(3, List.replicate n 0)] }

theorem witness_queues_tested : ∀ i ∈ .add (rf 1 2 3) :: endWords,
    (Drained (world (untested i 0)) (untested i 0) i (word i) (some {}) ∧ (untested i 0).leftover = 0) ∧
    Drained (world (untested i 2)) (untested i 2) i (word i) (some {}) ∧ (untested i 2).leftover ≠ 0 :=
  every (f := fun i => (drainedNow (world (untested i 0)) (untested i 0) i (word i) (some {}) && (untested i 0).leftover == 0) &&
      (drainedNow (world (untested i 2)) (untested i 2) i (word i) (some {}) && (untested i 2).leftover != 0))
    (by decide +kernel) fun i h => by
      simp only [Bool.and_eq_true, beq_iff_eq, bne_iff_ne] at h
      exact ⟨⟨drained_of h.1.1, h.1.2⟩, drained_of h.2.1, h.2.2⟩

/-- The record that a yielding strand leaves is written, and its launch is there. -/
def yielded : Res Unit :=
  ((world (suspended (.yield (rf 0 0 0)))).tidy 0 who).writeRecord 0 (suspended (.yield (rf 0 0 0))) false 16

theorem witness_yield_returns : yielded = .ok () (after yielded) ∧ (after yielded).launch 0 1 = some launch1 ∧ launch1.no = 1 ∧
    launch1.stages[0]? = some { desc := [0, 0] } ∧ launch1.latency = false ∧
    (world (suspended (.yield (rf 0 0 0)))).backWaits ((world (suspended (.yield (rf 0 0 0)))).l1s 0) [1, 2] = false :=
  ⟨ok_after (by decide +kernel), by decide +kernel, rfl, rfl, by decide, by decide +kernel⟩

theorem witness_halt_ends : who.handler = false ∧ who.org.getD (slotDie 0, who.launch) = (0, 1) ∧ (world (suspended (.halt (rf 0 0 0)))).die 0 = die1 ∧
    die1.batches = [] ∧ die1.acks = [] ∧ (world (suspended (.halt (rf 0 0 0)))).launch 0 1 = some launch1 ∧
    (world (suspended (.halt (rf 0 0 0)))).backWaits ((world (suspended (.halt (rf 0 0 0)))).l1s 0) [1, 2] = false := by
  exact ⟨rfl, rfl, rfl, rfl, rfl, rfl, by decide +kernel⟩

/-- The answer of a part of a step. -/
def answer {α : Type} (r : Res α) (x : α) : α := match r with
  | .ok a _ => a
  | _ => x

theorem ok_answer {α : Type} {r : Res α} {x : α} (h : fine r = true) : r = .ok (answer r x) (after r) := by
  cases r <;> simp_all [fine, after, answer]

/-- A stopped strand's entry. -/
def stopped1 : Entry := { id := { who with uid := 9, crec := 0x40 }, full := true }

/-- The handler strand of `launch1` about to return the record at 0x40. -/
def handler1 : Strand := { lone (.hret (rf 0 1 0)) with id := { who with handler := true }, x := [(1, 0x40)] }

/-- `launch1` with the entry among its stopped strands. -/
def launch1s : Launch := { launch1 with stopped := [(stopped1, 0)] }

/-- What hret's release leaves, and its read of the record. -/
def hretDone : Res Unit := (world handler1 launch1s).release 0 1 1 4
def hretRead : Res (List Byte) :=
  (after hretDone).readVa { (after hretDone).whoOf 0 handler1 with uid := 0, home := true } kLoad 0x40 64

theorem witness_handler_return :
    Issuable (world handler1 launch1s) handler1 (.hret (rf 0 1 0)) (word (.hret (rf 0 1 0))) [] ∧
    (handler1.srcX 1).toNat % 64 = 0 ∧ handler1.sq = [] ∧ handler1.lq = [] ∧ handler1.queue 1 = [] ∧
    hretDone = .ok () (after hretDone) ∧ (after hretDone).stoppedAt 0 1 (handler1.srcX 1) = some (0, 1, stopped1) ∧ stopped1.id.crec = handler1.srcX 1 ∧
    hretRead = .ok (answer hretRead []) (after hretRead) ∧ (wordAt (answer hretRead []) 0).getLsbD 55 = false ∧
    (after hretRead).launch 0 1 = some launch1s ∧ launch1s.latency = false ∧ launch1s.stages[0]? = some { desc := [0, 0] } := by
  refine ⟨issuable_of (by decide +kernel), ?_, ?_, ?_, ?_, ok_after ?_, ?_, ?_, ok_answer ?_, ?_, ?_, ?_, ?_⟩ <;> decide +kernel

/-- The same word with SUSP, and its world. -/
def hretSusp : Instr := .hret ⟨⟨0, true, 0, 0⟩, 0, 1, 0, 0, none⟩
def handler2 : Strand := { handler1 with eq := [(0, [word hretSusp])] }
def hretOpens : Res Unit := (world handler2 launch1s).release 0 1 1 4

theorem witness_handler_return_suspends :
    Issuable (world handler2 launch1s) handler2 hretSusp (word hretSusp) [] ∧ (insHdr hretSusp).susp = true ∧
    hretOpens = .ok () (after hretOpens) ∧
    (after hretOpens).hretMove 0 handler2 0x40 = .ok true (after ((after hretOpens).hretMove 0 handler2 0x40)) := by
  refine ⟨issuable_of (by decide +kernel), by decide, ok_after (by decide +kernel), ?_⟩
  have h : answer ((after hretOpens).hretMove 0 handler2 0x40) false = true := by decide +kernel
  rw [← h]; exact ok_answer (by decide +kernel)

/-- A handler strand at the drained suspension point of its hret. -/
def returning : Strand :=
  { untested hretSusp 0 with id := { who with handler := true }, took := some { ret := some 0x40 } }

theorem witness_handler_returns_at_its_point :
    Drained (world returning launch1s) returning hretSusp (word hretSusp) (some { ret := some 0x40 }) ∧ returning.leftover = 0 ∧
    (world returning launch1s).hretMove 0 returning 0x40 = .ok true (after ((world returning launch1s).hretMove 0 returning 0x40)) := by
  refine ⟨drained_of (by decide +kernel), by decide +kernel, ?_⟩
  have h : answer ((world returning launch1s).hretMove 0 returning 0x40) false = true := by decide +kernel
  rw [← h]; exact ok_answer (by decide +kernel)

/-! ### Class A: witnesses -/

/-- One word of each row of `generatorValue`. -/
def generatorRows : List Instr :=
  [.gadd (rf 3 1 2), .gsub (rf 3 1 2), .gmul (rf 3 1 2), .gand (rf 3 1 2), .gor (rf 3 1 2), .gshl (rf 3 1 2),
    .gshr (rf 3 1 2), .gaddi (if_ 3 1 5), .gli (if_ 3 0 5), .gli ⟨plain, 3, 0, 5, some 7⟩, .gshli (if_ 3 1 5), .gadd (rf 0 1 2)]

/-- An access word alone at the head of its queue issues with these g sources and queues. -/
def loneAccess (i : Instr) (gs : List (BitVec 7)) (load store : Bool) : Bool :=
  accessesNow (ready i) (lone i) i (word i) [] gs load store

theorem witness_generator : ∀ i ∈ generatorRows,
    ∃ gs fd x, generatorValue (lone i) i = some (gs, fd, x) ∧ Accessible (ready i) (lone i) i (word i) [] gs false false := by
  have h : generatorRows.all (fun i => match generatorValue (lone i) i with
      | some (gs, _, _) => loneAccess i gs false false
      | none => false) = true := by decide +kernel
  refine every h fun i hi => ?_
  split at hi
  · rename_i gs fd x hx; exact ⟨gs, fd, x, hx, accessible_of hi⟩
  · simp at hi

theorem witness_aout : Accessible (ready (.aout (rf 0 1 2))) (lone (.aout (rf 0 1 2))) (.aout (rf 0 1 2)) (word (.aout (rf 0 1 2))) []
    [1, 2] false false ∧ (lone (.aout (rf 0 1 2))).bq.length < 16 := ⟨accessible_of (by decide +kernel), by decide +kernel⟩

/-- One word of each row of `loadEntry`, with a w entry for those that take their addresses from there. -/
def loadRows : List Instr :=
  [.ld (if_ 3 5 0x300000), .ld (if_ 83 5 0x300000), .ldLast (if_ 3 5 0x300000), .lds (rf 80 5 6 1), .ldg (rf 80 5 88), .tld (rf 80 5 6),
    .feLd (rf 3 7 0), .smpLd (rf 80 5 0)]

/-- A strand as `lone`, with an entry in each w queue, and g5 at a line of its own. -/
def fed (i : Instr) : Strand := { lone i with w := [(0, [0]), (1, [0])], xg := [0], g := [(5, 0x100000), (6, 0x100080), (7, 0xFF000000000000)] }

theorem witness_loads : ∀ i ∈ loadRows, ∃ gs m ok, loadEntry (fed i) (word i) i = some (gs, m, ok) ∧ ok ∧
    Accessible (holding (fed i)) (fed i) i (word i) [] gs true false := by
  simp only [loadRows, List.forall_mem_cons, List.not_mem_nil, false_imp_iff, implies_true, and_true]
  repeat' apply And.intro
  all_goals first
    | exact ⟨_, _, _, rfl, by first | trivial | decide +kernel, accessible_of (by decide +kernel)⟩

/-- One word of each row of `storeEntry`. -/
def storeRows : List Instr :=
  let a := rf 3 5 0 1
  [.st (if_ 3 5 0x300000), .sts (rf 88 5 6 1), .stg (rf 88 5 89), .tst (rf 88 5 6), .feSt (rf 3 7 0), .feSet (rf 0 7 0), .feClr (rf 0 7 6),
    .smpInv (rf 0 0 0), .cp (rf 5 6 0), .cpTensor (rf 0 5 0), .cpTensor ⟨plain, 0, 5, 0, 0, some 64⟩, .cpQuant (rf 0 5 0), .cpPages (rf 0 5 0), .cpRing (rf 0 5 0),
    .cpChain (rf 0 5 0), .cpadv (if_ 6 5 0), .amoAdd a, .amoFadd a, .amoFmax a, .amoMin a, .amoMax a, .amoAnd a, .amoOr a, .amoSwp a,
    .amoCas a, .amoInc a]

theorem witness_stores : ∀ i ∈ storeRows, ∃ gs m ok, storeEntry (fed i) (word i) i = some (gs, m, ok) ∧ ok ∧
    Accessible (holding (fed i)) (fed i) i (word i) [] gs false true := by
  simp only [storeRows, List.forall_mem_cons, List.not_mem_nil, false_imp_iff, implies_true, and_true]
  repeat' apply And.intro
  all_goals refine ⟨_, _, _, rfl, ?_, accessible_of (by decide +kernel)⟩
  all_goals
    first
    | trivial
    | (unfold Sound; decide +kernel)
    | (unfold DescriptorAt; decide +kernel)
    | decide +kernel
    | exact ⟨by unfold Sound; decide +kernel, fun o h => nomatch (show window 0x100000 4 = .out by decide +kernel).symm.trans h⟩

theorem witness_sync_and_fence : ∀ i ∈ ([.qsync (rf 0 0 0), .fence (rf 0 0 0)] : List Instr),
    Accessible (ready i) (lone i) i (word i) [] [] true true :=
  every (f := fun i => loneAccess i [] true true) (by decide +kernel) fun _ h => accessible_of h

/-- The load queue of slot 0 holds one load. -/
def loading (i : Instr) (a : Word) : Strand := { id := who, pc := 16, seq := 1, lq := [{ w := word i, a := a }] }

/-- The store queue of slot 0 holds one entry. -/
def performing (i : Instr) (a : Word) (b : Word := 0) : Strand :=
  { id := who, pc := 16, seq := 1, sq := [{ w := word i, a := a, b := b, data := 0x1122334455667788 }] }

/-- The first address of the scratchpad window. -/
def padVa : Word := 0xFF000000000000

theorem witness_scratchpad_load :
    LoadHead (holding (loading (.ld (if_ 3 5 0x300000)) padVa)) 0 (loading (.ld (if_ 3 5 0x300000)) padVa) { w := word (.ld (if_ 3 5 0x300000)), a := padVa } [] ∧
    ctlField (if_ 3 5 0x300000) / 2 % 8 = 0 ∧ bytesOf (szField (if_ 3 5 0x300000)) 3 = 8 ∧ padVa.toNat < 2 ^ 56 ∧ padVa.toNat % 8 = 0 ∧
    window padVa.toNat 8 = .spad 0 ∧ State.reset.emptyLine 0 0 8 = none ∧ State.reset.poisoned (Loc.spad 0 0).key 8 = false :=
  ⟨⟨rfl, rfl, rfl, by decide +kernel, rfl⟩, by decide +kernel⟩

theorem witness_scratchpad_store :
    StoreHead (holding (performing (.st (if_ 3 5 0x300000)) padVa)) 0 (performing (.st (if_ 3 5 0x300000)) padVa)
      { w := word (.st (if_ 3 5 0x300000)), a := padVa, data := 0x1122334455667788 } [] ∧
    ctlField (if_ 3 5 0x300000) / 2 % 8 = 0 ∧ bytesOf (szField (if_ 3 5 0x300000)) 3 = 8 :=
  ⟨⟨rfl, rfl, rfl, by decide +kernel, rfl, rfl⟩, by decide +kernel⟩

/-- The atomics on s32 words. -/
def atomRows : List Instr :=
  let a := rf 3 5 6 1
  [.amoAdd a, .amoFadd a, .amoFmax a, .amoMin a, .amoMax a, .amoAnd a, .amoOr a, .amoSwp a, .amoCas a, .amoInc a]

theorem witness_atomics : ∀ i ∈ atomRows,
    StoreHead (holding (performing i padVa)) 0 (performing i padVa) { w := word i, a := padVa, data := 0x1122334455667788 } [] ∧
    atomOf i = some (rf 3 5 6 1) ∧ (∃ v, atomNew 32 0 0 0 i = some v) ∧ window padVa.toNat 4 = .spad 0 := by
  simp only [atomRows, List.forall_mem_cons, List.not_mem_nil, false_imp_iff, implies_true, and_true]
  repeat' apply And.intro
  all_goals first
    | exact ⟨rfl, rfl, rfl, by decide +kernel, rfl, rfl⟩
    | exact ⟨_, rfl⟩
    | decide +kernel

theorem witness_full_bits : ∀ i ∈ ([.feSet (rf 0 5 6), .feClr (rf 0 5 6)] : List Instr),
    StoreHead (holding (performing i padVa 300)) 0 (performing i padVa 300) { w := word i, a := padVa, b := 300, data := 0x1122334455667788 } [] ∧
    window padVa.toNat 300 = .spad 0 := by
  intro i hi
  simp only [List.mem_cons, List.not_mem_nil, or_false] at hi
  rcases hi with rfl | rfl <;> exact ⟨⟨rfl, rfl, rfl, by decide +kernel, rfl, rfl⟩, by decide +kernel⟩

/-- A load whose value can be read: `ld` of eight bytes of the scratchpad. -/
def valueOf (i : Instr) : Res Vec :=
  let m : MemOp := { w := word i, a := padVa }
  (holding (loading i padVa)).loadValue (m.who 1 ((holding (loading i padVa)).whoOf 0 (loading i padVa))) m

theorem witness_load_data : ∀ i ∈ ([.ld (if_ 3 5 0x300000), .ld (if_ 83 5 0x300000), .ldLast (if_ 3 5 0x300000), .lds (rf 80 5 6 1), .ldg (rf 80 5 88)] : List Instr),
    LoadHead (holding (loading i padVa)) 0 (loading i padVa) { w := word i, a := padVa } [] ∧ (ordOf i).1 = false ∧
    valueOf i = .ok (answer (valueOf i) 0) (after (valueOf i)) := by
  simp only [List.forall_mem_cons, List.not_mem_nil, false_imp_iff, implies_true, and_true]
  repeat' apply And.intro
  all_goals first
    | exact ⟨rfl, rfl, rfl, by decide +kernel, rfl⟩
    | exact ok_answer (by decide +kernel)
    | decide +kernel

theorem witness_full_load :
    LoadHead (holding (loading (.feLd (rf 3 5 0 7)) padVa)) 0 (loading (.feLd (rf 3 5 0 7)) padVa) { w := word (.feLd (rf 3 5 0 7)), a := padVa } [] ∧
    bytesOf ((rf 3 5 0 7).mod.toNat % 4) 3 = 8 ∧ State.reset.full 0 0 = true :=
  ⟨⟨rfl, rfl, rfl, by decide +kernel, rfl⟩, by decide +kernel⟩

/-- A store that waits for an empty line, which it finds. -/
def filling : State := { holding (performing (.feSt (rf 3 5 0 3)) padVa) with empties := [0] }

theorem witness_full_store :
    StoreHead filling 0 (performing (.feSt (rf 3 5 0 3)) padVa) { w := word (.feSt (rf 3 5 0 3)), a := padVa, data := 0x1122334455667788 } [] ∧
    filling.full 0 0 = false := ⟨⟨rfl, rfl, rfl, by decide +kernel, rfl, rfl⟩, by decide +kernel⟩

/-- A load of a poisoned line whose strand has a store still to perform. -/
def poisonedLoad : Strand := { loading (.feLd (rf 3 5 0 7)) padVa with sq := [{ w := word (.smpInv (rf 0 0 0)) }] }

/-- Its world. -/
def tainted : State := { holding poisonedLoad with poison := [(Loc.spad 0 0).line] }

theorem witness_poisoned_full_load :
    LoadHead tainted 0 poisonedLoad { w := word (.feLd (rf 3 5 0 7)), a := padVa } [] ∧ tainted.full 0 0 = true ∧
    tainted.poisoned (Loc.spad 0 0).key 8 = true ∧ poisonedLoad.sq ≠ [] ∧ window padVa.toNat 8 = .spad 0 ∧ 0 % 128 + 8 ≤ 128 :=
  ⟨⟨rfl, rfl, rfl, by decide +kernel, rfl⟩, by decide +kernel⟩

/-- R154: fe.set of no bytes marks no line, and one byte its line. -/
theorem witness_no_full_bits : ∀ n ∈ ([0, 1] : List Word), ∀ i ∈ ([.feSet (rf 0 5 6), .feClr (rf 0 5 6)] : List Instr),
    StoreHead (holding (performing i padVa n)) 0 (performing i padVa n) { w := word i, a := padVa, b := n, data := 0x1122334455667788 } [] ∧
    window padVa.toNat n.toNat = .spad 0 := by
  intro n hn i hi
  simp only [List.mem_cons, List.not_mem_nil, or_false] at hn hi
  rcases hn with rfl | rfl <;> rcases hi with rfl | rfl <;> exact ⟨⟨rfl, rfl, rfl, by decide +kernel, rfl, rfl⟩, by decide +kernel⟩

/-- A load that has read its memory before. -/
theorem witness_seen_load :
    LoadHead (holding { loading (.ld (if_ 83 5 0x300000)) padVa with lq := [{ w := word (.ld (if_ 83 5 0x300000)), a := padVa, seen := some 5 }] }) 0
      { loading (.ld (if_ 83 5 0x300000)) padVa with lq := [{ w := word (.ld (if_ 83 5 0x300000)), a := padVa, seen := some 5 }] }
      { w := word (.ld (if_ 83 5 0x300000)), a := padVa, seen := some 5 } [] := ⟨rfl, rfl, rfl, by decide +kernel, rfl⟩

/-! ### Copies and batches: witnesses -/

/-- A cp of 128 bytes at the head of a store queue. -/
def copying : Strand :=
  { id := who, pc := 16, seq := 1, sq := [{ w := word (.cp (rf 1 2 3)), a := padVa + 0x100, b := padVa, d := 128 }] }

theorem witness_accepted_copy :
    StoreHead (holding copying) 0 copying { w := word (.cp (rf 1 2 3)), a := padVa + 0x100, b := padVa, d := 128 } [] ∧
    NoOpenBatch (holding copying) 1 :=
  ⟨⟨rfl, rfl, rfl, by decide +kernel, rfl, rfl⟩, fun _ hb => nomatch hb⟩

/-- A copy unit about to land its last line. -/
def landing : State :=
  { State.reset with
    dies := [(0, { copies := [(1, { uid := 1, launch := 1, batch := 0, tile := 0, ctx := 1, work := [.bytes [⟨padVa + 0x100, padVa, 128⟩] true none] })] })] }

theorem witness_copied_line : ∃ c, (landing.die 0).copies = [(1, c)] ∧ landing.allBatches = [] ∧ c.eng = none ∧ c.tile / 24 = 0 ∧
    c.work = [.bytes [⟨padVa + 0x100, padVa, 128⟩] true none] ∧ window (padVa + 0x100).toNat 128 = .spad 0x100 ∧
    window padVa.toNat 128 = .spad 0 ∧ landing.full c.tile 2 = true ∧ landing.poisoned (Loc.spad c.tile 0x100).key 128 = false :=
  ⟨_, rfl, rfl, rfl, rfl, rfl, by decide +kernel⟩

/-- Two batches of a strand, closed, their copies landed. -/
def batches2 : List Batch := [{ uid := 1, launch := 1, no := 0, size := 1, count := 0, closed := true },
  { uid := 2, launch := 1, no := 0, size := 1, count := 0, closed := true }]

theorem witness_closed_batch : batches2[1]? = some { uid := 2, launch := 1, no := 0, size := 1, count := 0, closed := true } ∧
    ∀ y ∈ batches2, y.uid = 2 → y.no < 0 → y.done = true := ⟨rfl, by simp⟩

/-- Slot 0 of a die with some batches. -/
def withBatches (i : Instr) (l : List Batch) : State :=
  { holding (lone i) with dies := [(0, { batches := l })] }

/-- Fifteen closed batches and an open one. -/
def sixteen : List Batch :=
  (List.range 16).map fun n => { uid := 1, launch := 1, no := n, size := 1, count := 1, closed := n != 15 }

theorem witness_batch_close : ∀ l ∈ [[], sixteen.drop 1, sixteen],
    Accessible (withBatches (.batchClose (rf 0 0 0)) l) (lone (.batchClose (rf 0 0 0))) (.batchClose (rf 0 0 0)) (word (.batchClose (rf 0 0 0))) [] [] false false ∧
    (closedOnes (withBatches (.batchClose (rf 0 0 0)) l) 1 < 15 ∨
      (15 ≤ closedOnes (withBatches (.batchClose (rf 0 0 0)) l) 1 ∧
        ¬ NoOpenBatch (withBatches (.batchClose (rf 0 0 0)) l) 1)) := by
  intro l hl
  simp only [List.mem_cons, List.not_mem_nil, or_false] at hl
  rcases hl with rfl | rfl | rfl <;> exact ⟨accessible_of (by decide +kernel), by unfold NoOpenBatch; decide +kernel⟩

theorem witness_batch_close_word : decodeWords 0x2000047000000000 0 = .ok (.batchClose (rf 0 0 0), 8) := by rfl

theorem witness_batch_wait :
    Accessible (withBatches (.batchWait (if_ 0 0 1)) [sixteen.getD 15 { uid := 1, launch := 1, no := 0 }]) (lone (.batchWait (if_ 0 0 1)))
      (.batchWait (if_ 0 0 1)) (word (.batchWait (if_ 0 0 1))) [] [] false false ∧
    (sixteen.getD 15 { uid := 1, launch := 1, no := 0 }).done = false ∧ (sixteen.getD 15 { uid := 1, launch := 1, no := 0 }).flt = none :=
  ⟨accessible_of (by decide +kernel), by decide +kernel⟩

/-! ### A delivered fault: witness -/

theorem put_append {w : Nat} {k : Nat} (v : BitVec w) (r : Cells w) : ∀ p : Cells w, (∀ e ∈ p, e.1 < k) → Tab.put (p ++ r) k v = p ++ Tab.put r k v
  | [], _ => rfl
  | (b, x) :: p, h => by
    have hb : b < k := h _ (List.mem_cons_self ..)
    simp only [List.cons_append, Tab.put]
    rw [if_neg (by omega), if_neg (by omega), put_append v r p fun e he => h e (List.mem_cons_of_mem _ he)]

theorem del_append {w : Nat} {k : Nat} (r : Cells w) : ∀ p : Cells w, (∀ e ∈ p, e.1 < k) → Tab.del (p ++ r) k = p ++ Tab.del r k
  | [], _ => rfl
  | (b, x) :: p, h => by
    have hb : b < k := h _ (List.mem_cons_self ..)
    simp only [List.cons_append, Tab.del]
    rw [if_neg (by omega), del_append r p fun e he => h e (List.mem_cons_of_mem _ he)]

theorem writeMem_append (p : List Host.Cell) : ∀ (b : List Byte) (r : List Host.Cell) (k : Nat), (∀ e ∈ p, e.1 < k) →
    writeMem (p ++ r) k b = p ++ writeMem r k b
  | [], _, _, _ => rfl
  | x :: b, r, k, h => by
    have hs : Cells.set (p ++ r) k x = p ++ Cells.set r k x := by
      unfold Cells.set; split
      · exact del_append r p h
      · exact put_append x r p h
    simp only [writeMem]
    rw [hs, writeMem_append p b _ (k + 1) fun e he => Nat.lt_succ_of_lt (h e he)]

/-- Memory begins with these cells, and no line is poisoned. -/
def From (p : List Host.Cell) (s t : State) : Prop := ∃ r, t = { s with mem := p ++ r }

theorem from_poke {p : List Host.Cell} {s t : State} {t0 : Nat} {o : Nat} (b : List Byte) (hp : ∀ e ∈ p, e.1 < 2 ^ 55)
    (hs : s.poison = [] ∧ s.told = [] ∧ s.marks = []) (h : From p s t) : From p s (t.poke (.spad t0 o) b) := by
  obtain ⟨r, rfl⟩ := h
  refine ⟨writeMem r (Loc.spad t0 o).key b, ?_⟩
  simp only [State.poke, hs.1, hs.2.1, hs.2.2, clearPoison, List.filter_nil]
  rw [writeMem_append p b r _ fun e he => Nat.lt_of_lt_of_le (hp e he) (by simp only [Loc.key]; omega)]

theorem from_pieces {p : List Host.Cell} {s : State} {w : Who} (hp : ∀ e ∈ p, e.1 < 2 ^ 55) (hs : s.poison = [] ∧ s.told = [] ∧ s.marks = [])
    (hw : w.raw = false ∧ w.agent < 4000) : ∀ (n : Nat) (o : Nat) (b : List Byte) (done : Nat) (t : State), o + b.length ≤ 0x400000 → From p s t →
      ∃ t' d, t.writePieces w kStore false (0xFF000000000000 + o) n b done = (t', d, none) ∧ From p s t'
  | 0, o, b, done, t, hb, h => ⟨t, done, rfl, h⟩
  | n + 1, o, b, done, t, hb, h => by
    unfold State.writePieces
    by_cases he : b.isEmpty
    · rw [if_pos he]; exact ⟨t, done, rfl, h⟩
    · rw [if_neg he]
      have hl : 0 < b.length := by cases b <;> simp_all
      have hm : ∀ m, 0 < m → m ≤ b.length → t.locate w kStore (0xFF000000000000 + o) m = .ok (.spad w.tile o, 0, 0x400000 - o) t := by
        intro m h0 hm
        have hwin : window (0xFF000000000000 + o) m = .spad o := by
          unfold window
          rw [Nat.max_eq_left h0]
          simp only
          rw [if_neg (by omega), if_neg (by omega), if_pos (by omega)]
          rw [Nat.add_sub_cancel_left]
        simp only [State.locate, hwin, hw.1]
        rw [if_neg (by omega)]; rfl
      rw [hm _ (by omega) (by omega)]
      have hh : ∀ (u : State) l, u.toHome w (.spad w.tile l) 0 = u := fun u l => by simp [State.toHome, Loc.cachedOn]
      have hn : ∀ (u : State) l, u.noteLine w (.spad w.tile l) 0 = u := fun u l => by simp [State.noteLine, State.cohOf]
      simp only [State.storeLine, Nat.add_assoc, hh, hn]
      exact from_pieces hp hs hw n _ _ _ _ (by simp only [List.length_drop]; omega) (from_poke _ hp hs h)

theorem from_write {p : List Host.Cell} {s t : State} {w : Who} (hp : ∀ e ∈ p, e.1 < 2 ^ 55) (hs : s.poison = [] ∧ s.told = [] ∧ s.marks = [])
    (hw : w.raw = false ∧ w.agent < 4000) (va o : Nat) (hv : va = 0xFF000000000000 + o) (b : List Byte) (hb : o + b.length ≤ 0x400000) (h : From p s t) :
    ∃ t', t.writeVa w kStore va b = .ok () t' ∧ From p s t' := by
  subst hv
  obtain ⟨t', d, h1, h2⟩ := from_pieces hp hs hw (b.length / 128 + 2) o b 0 t hb h
  exact ⟨t', by simp [State.writeVa, h1], h2⟩

theorem length_padTo (n : Nat) (l : List Byte) : (padTo n l).length = n := by simp [padTo]; omega

theorem length_areaLow (st : Strand) (s : State) (k : Nat) (sp : Stop) : (st.areaLow s k sp).length ≤ 172160 := by
  unfold Strand.areaLow
  simp only [List.length_append, length_padTo]
  omega

theorem length_areaHigh (st : Strand) : st.areaHigh.length ≤ 24384 := by
  unfold Strand.areaHigh
  simp only [List.length_append, length_padTo]
  omega

theorem length_wordBytes : ∀ l : List Word, (l.flatMap fun w => leBytes 8 w.toNat).length = 8 * l.length
  | [] => rfl
  | x :: l => by
    rw [List.flatMap_cons, List.length_append, length_wordBytes l]
    have : (leBytes 8 x.toNat).length = 8 := rfl
    rw [this, List.length_cons]; omega

/-- The context of a strand whose save area and record lie in the scratchpad is saved, and only the scratchpad changes. -/
theorem saved_in_scratchpad {p : List Host.Cell} {s : State} {k : Nat} {st : Strand} (sp : Stop) (hp : ∀ e ∈ p, e.1 < 2 ^ 55)
    (hs : s.poison = [] ∧ s.told = [] ∧ s.marks = []) (hw : (s.whoOf k st).raw = false ∧ (s.whoOf k st).agent < 4000) (hm : ∃ r, s.mem = p ++ r) (hx : (st.xr 2).toNat = 0xFF000000000000)
    (hc : st.id.crec.toNat = 0xFF000000200000) (hb : st.bad = []) :
    ∃ v, s.saveContext k st sp = .ok () v ∧ From p s v ∧ ∀ t, From p s t → t.whoOf k st = s.whoOf k st := by
  have hwho : ∀ t, From p s t → t.whoOf k st = s.whoOf k st := by rintro t ⟨r, rfl⟩; rfl
  obtain ⟨r, hr⟩ := hm
  obtain ⟨t1, h1, g1⟩ := from_write (w := s.recWho k st) hp hs hw 0xFF000000000000 0 rfl (st.areaLow s k sp)
    (by have := length_areaLow st s k sp; omega) ⟨r, by rw [← hr]⟩
  obtain ⟨t2, h2, g2⟩ := from_write (w := s.recWho k st) hp hs hw (0xFF000000000000 + 0x2A0C0) 0x2A0C0 rfl st.areaHigh
    (by have := length_areaHigh st; omega) g1
  obtain ⟨t3, h3, g3⟩ := from_write (w := s.recWho k st) hp hs hw 0xFF000000200000 0x200000 rfl
    ((st.record true (if sp.f.cls = 1 then sp.pc + 8 else st.pc)).flatMap fun w => leBytes 8 w.toNat)
    (by rw [length_wordBytes]; simp [Strand.record, upFrom]) g2
  refine ⟨t3, ?_, g3, hwho⟩
  have bind_ok : ∀ {α β : Type} (a : α) (s : State) (f : α → State → Res β), (Res.ok a s).bind f = f a s := fun _ _ _ => rfl
  unfold State.saveContext
  simp only []
  rw [hx, if_neg (by decide), h1, bind_ok, h2, bind_ok, hb]
  simp only [List.flatMap_nil, List.map_nil, State.markAll, bind_ok]
  unfold State.writeRecord State.recWho
  rw [hc, hwho t2 g2]
  exact h3

/-- A strand whose save area and record lie in the scratchpad. -/
def failing : Strand := { id := { who with crec := 0xFF000000200000 }, pc := 16, seq := 1, x := [(2, padVa)] }

/-- Every byte of the words that a walk of `tables` reads, the zero bytes listed too. -/
def below : List Host.Cell := ([0x1020, 0x1028, 0x1030, 0x1038, 0x2000, 0x3000, 0x4000].flatMap fun a => (upFrom a 8).map fun k => (k, Cells.get tables k))

/-- Its world. -/
def failed : State := { world failing with mem := below }

/-- The alignment fault that stops it at its word at 8. -/
def fault1 : Flt := { cls := 4, code := 2, addr := 0x1004 }

/-- The strand as it is stopped. -/
def stopped2 : Strand :=
  { failing with
    stop := some { f := fault1, pc := 8, feng := 0, seq := failing.seqAt 0 0 }
    fq := 0
    id := { failing.id with cause := BitVec.ofNat 64 (4 * 2 ^ 24 + 2), tpc := 8, taddr := 0x1004 } }

/-- The state in which its context is saved. -/
def saving : State := ((failed.unwait 0 failing).setStrand 0 stopped2).tidy 0 stopped2.id

theorem saving_saves : ∃ r, saving.saveContext 0 stopped2 { f := fault1, pc := 8, feng := 0, seq := failing.seqAt 0 0 } = .ok () { saving with mem := below ++ r } := by
  obtain ⟨v, h, ⟨r, hr⟩, -⟩ := saved_in_scratchpad (p := below) (s := saving) (k := 0) (st := stopped2) { f := fault1, pc := 8, feng := 0, seq := failing.seqAt 0 0 }
    (by decide +kernel) (by decide +kernel) (by decide +kernel) ⟨[], by decide +kernel⟩ (by decide +kernel) (by decide +kernel) (by decide +kernel)
  exact ⟨r, hr ▸ h⟩

/-- The cells of the scratchpad after the save. -/
noncomputable def area : List Host.Cell := Classical.choose saving_saves

/-- The state after the save. -/
noncomputable def savedState : State := { saving with mem := below ++ area }

/-- The record of the fault enters the handler's ring. -/
noncomputable def recorded : Res Unit :=
  (savedState.vacate 0).writeVa (cpWho 0 1) kStore (0x20000 + 64 * 0) (wordBytes (savedState.faultRecord fault1 (strandSite 0 failing launch1 8 0)))

theorem witness_delivered : failed.strand 0 = some failing ∧ failing.stop = none ∧ failing.sq = [] ∧ failing.mops = [] ∧ failing.mac = none ∧
    failing.mq = [] ∧ failing.fresh = [] ∧ failing.disp = none ∧ failed.backWaits (failed.l1s (slotTile 0)) [1, 2] = false ∧ failed.owedG failing.id.uid = [] ∧ failing.id.handler = false ∧ failed.launch 0 1 = some launch1 ∧ launch1.word 4 ≠ 0 ∧ fault1.cls ≠ 9 ∧
    stopped2.id.cause = BitVec.ofNat 64 (fault1.cls % 256 * 2 ^ 24 + fault1.code % 65536) ∧
    stopped2.id.tpc = 8 &&& 0xFFFFFFFFFFFFF8 ∧ stopped2.id.taddr = fault1.addr &&& 0xFFFFFFFFFFFFFF ∧
    saving.saveContext 0 stopped2 { f := fault1, pc := 8, feng := 0, seq := failing.seqAt 0 0 } = .ok () savedState ∧ (savedState.vacate 0).launch 0 1 = some launch1 ∧
    launch1.hseq < launch1.hnext + 32 ∧ (launch1.word 5).toNat + 64 * (launch1.hseq % 32) = 0x20000 + 64 * 0 ∧
    recorded = .ok () (after recorded) ∧ ((after recorded).reg 0 0xB08).getLsbD 8 = false ∧
    (after recorded).launch 0 1 = some launch1 ∧ (after recorded).strand 0 = none :=
  ⟨rfl, rfl, rfl, rfl, rfl, rfl, rfl, rfl, rfl, rfl, rfl, by decide +kernel, by decide +kernel, by decide, by decide +kernel, by decide +kernel, by decide +kernel,
    Classical.choose_spec saving_saves, by decide +kernel, by decide, by decide +kernel, ok_after (by decide +kernel), by decide +kernel⟩

/-! ### Classes V and F: witnesses -/

/-- One word of each row of `laneValue`, and a guarded one. -/
def laneRows : List Instr :=
  let a := rf 3 1 2 3
  [.vadd a, .vsub a, .vmul a, .vmulh (rf 3 1 2 1), .vfma a, .vfms a, .vmin a, .vmax a, .vabs a, .vneg a, .vand a, .vor a, .vxor a,
    .vnot a, .vshl a, .vshr a, .vsra a, .vbfx a, .vpopc a, .vclz a, .vmov a, .vadd (rf 3 1 2 0x201)]

theorem witness_lane_operations : ∀ i ∈ laneRows, Issuable (ready i) (lone i) i (word i) [] ∧
    ∃ a, ∃ f : Lane → Lane → Lane → Lane, ∀ x y d, laneValue x y d i = some (a, f x y d) := by
  refine fun i hi => ⟨(lone_issues (l := laneRows) (g := fun _ => true) (by decide +kernel) i hi).1, ?_⟩
  revert i
  simp only [laneRows, List.forall_mem_cons, List.not_mem_nil, false_imp_iff, implies_true, and_true]
  repeat' apply And.intro
  all_goals exact ⟨_, _, fun _ _ _ => rfl⟩

/-- One word of each row of `laneOf`. -/
def moveRows : List Instr :=
  let a := rf 3 1 2 0
  let f := rf 3 1 0 0x33
  [.vli (if_ 3 0 5), .vbcast (rf 3 1 0), .vsel a, .vperm a, .vslide a, .vrot (rf 3 1 0), .vfsh a, .vcvt (rf 3 1 0 0x36), .vamax (rf 3 1 0), .exp2 f, .log2 f,
    .rcp f, .rsqrt f, .sqrt f, .tanh f, .sigm f, .erf f, .fcvtI f, .fcvt (rf 3 1 0 0x3C)]

theorem witness_moves : ∀ i ∈ moveRows, Issuable (ready i) (lone i) i (word i) [] ∧
    ∃ fd, ∃ f : Nat → Lane, ∀ j, laneOf (lone i) j i = some (fd, f j) := by
  refine fun i hi => ⟨(lone_issues (l := moveRows) (g := fun _ => true) (by decide +kernel) i hi).1, ?_⟩
  revert i
  simp only [moveRows, List.forall_mem_cons, List.not_mem_nil, false_imp_iff, implies_true, and_true]
  repeat' apply And.intro
  all_goals exact ⟨_, _, fun _ => rfl⟩

/-- One word of each row of `predicateBit`. -/
def predicateRows : List Instr :=
  [.vcmp (rf 67 1 2 3), .vcmp (rf 67 1 2 0x203), .pand (rf 67 65 66), .por (rf 67 65 66), .pxor (rf 67 65 66), .pnot (rf 67 65 0), .pset (if_ 67 0 5)]

theorem witness_predicate_bits : ∀ i ∈ predicateRows, Issuable (ready i) (lone i) i (word i) [] ∧
    ∃ n, ∃ f : Nat → Bool, ∀ j, predicateBit (lone i) j i = some (n, f j) := by
  refine fun i hi => ⟨(lone_issues (l := predicateRows) (g := fun _ => true) (by decide +kernel) i hi).1, ?_⟩
  revert i
  simp only [predicateRows, List.forall_mem_cons, List.not_mem_nil, false_imp_iff, implies_true, and_true]
  repeat' apply And.intro
  all_goals exact ⟨_, _, fun _ => rfl⟩

theorem witness_reductions : ∀ i ∈ ([.vredsum (rf 3 1 0 1), .vredmax (rf 3 1 0 1), .vredmin (rf 3 1 0 0), .vredsum (rf 3 1 0 3), .vscan (rf 3 1 0 1),
      .vscan (rf 3 1 0 0x201), .vqmx (rf 3 1 66 0x82), .vqem (rf 3 1 0 9)] : List Instr),
    Issuable (ready i) (lone i) i (word i) [] ∧ true = true := lone_issues (by decide +kernel)

/-- The accumulator words: row 767, quarter 3. -/
def accRows : List Instr := [.vaccRd (rf 3 0 0 0xEFF), .vaccWr (rf 0 0 3 0xEFF), .vaccAdd (rf 0 0 3 0xEFF)]

theorem witness_accumulator_quarters : ∀ i ∈ accRows, Issuable (ready i) (lone i) i (word i) [] ∧
    ((lone i).xr 0).toNat + (rf 3 0 0 0xEFF).mod.toNat % 2 ^ 10 = 767 ∧
    (ready i).poisoned (Loc.acc 0 (2048 * 767 + 512 * 3)).key 512 = false := by
  intro i hi
  refine ⟨(lone_issues (l := accRows) (g := fun _ => true) (by decide +kernel) i hi).1, ?_⟩
  simp only [accRows, List.mem_cons, List.not_mem_nil, or_false] at hi
  rcases hi with rfl | rfl | rfl <;> decide +kernel

theorem witness_accumulator_overrun : ∀ i ∈ ([.vaccRd (rf 3 0 0 0x300), .vaccWr (rf 0 0 3 0x300), .vaccAdd (rf 0 0 3 0x300)] : List Instr),
    Issuable (holding (storing i)) (storing i) i (word i) [] ∧ (storing i).sq ≠ [] ∧
    768 ≤ ((storing i).xr 0).toNat + (rf 3 0 0 0x300).mod.toNat % 2 ^ 10 := by
  intro i hi
  simp only [List.mem_cons, List.not_mem_nil, or_false] at hi
  rcases hi with rfl | rfl | rfl <;> exact ⟨issuable_of (by decide +kernel), by decide +kernel⟩

/-! ### Class M: witnesses -/

/-- A format word: E4M3 by E4M3, small K and N. -/
def fw1 : Word := 0x2040182

/-- A strand with a lease of five commands and a format word. -/
def leased (i : Instr) : Strand := { lone i with held := true, remain := 5, fmt := [fw1] }

/-- A tile whose active plane was loaded under `fw1`. -/
def tile1 : Tile := { active := some ⟨fw1, 0, [], []⟩, lessee := some 0, owner := some 1 }

/-- Slot 0, with the lease of the tile's array, holds a strand. -/
def array (st : Strand) : State := { holding st with tiles := [(0, tile1)] }

theorem witness_lease : Issuable (array (lone (.mlease (if_ 0 0 5)))) (lone (.mlease (if_ 0 0 5))) (.mlease (if_ 0 0 5)) (word (.mlease (if_ 0 0 5))) [] ∧
    (lone (.mlease (if_ 0 0 5))).held = false ∧ (lone (.mlease (if_ 0 0 5))).mq = [] ∧ ((array (lone (.mlease (if_ 0 0 5)))).tile 0).lessee = some 0 :=
  ⟨issuable_of (by decide +kernel), by decide +kernel⟩

/-- One word of each row of `matrixOp`. -/
def matrixRows : List Instr :=
  [.mldw (rf 0 0 0), .mswap (rf 0 0 0), .mmul (rf 0 0 0 1), .mmul (rf 0 0 0 0x400), .mchain (rf 0 0 0 8), .mclr (rf 0 0 0 768),
    .maccSt (rf 0 0 0 0), .maccSt (rf 88 0 0 0), .mrnd (if_ 0 0 3), .mrel (rf 0 0 0), .mdrain (rf 0 0 0)]

theorem witness_matrix_words : ∀ i ∈ matrixRows, Issuable (array (leased i)) (leased i) i (word i) [] ∧
    ∃ needs pops op ok, matrixOp (array (leased i)) (leased i) fw1 i = some (needs, pops, op, ok) ∧ ok ∧
      op.check ((array (leased i)).planesOf 0 (leased i)).1 ((array (leased i)).chainOf 0 (leased i)) = none := by
  simp only [matrixRows, List.forall_mem_cons, List.not_mem_nil, false_imp_iff, implies_true, and_true]
  repeat' apply And.intro
  all_goals first
    | exact issuable_of (by decide +kernel)
    | exact ⟨_, _, _, _, rfl, by first | trivial | decide +kernel, by decide +kernel⟩

theorem witness_without_lease : ∀ i ∈ matrixRows.take 8, Issuable (holding (storing i)) (storing i) i (word i) [] ∧
    ∃ pops op ok, matrixOp (holding (storing i)) (storing i) 0 i = some (true, pops, op, ok) := by
  simp only [matrixRows, List.take, List.forall_mem_cons, List.not_mem_nil, false_imp_iff, implies_true, and_true]
  repeat' apply And.intro
  all_goals first
    | exact issuable_of (by decide +kernel)
    | exact ⟨_, _, _, rfl⟩

theorem witness_array_grant : ∀ o ∈ [none, some 1],
    ({ ready (.mlease (if_ 0 0 5)) with tiles := [(0, { owner := o })] } : State).grantee 0 = some 0 ∧ (lone (.mlease (if_ 0 0 5))).want = false := by
  intro o ho
  simp only [List.mem_cons, List.not_mem_nil, or_false] at ho
  rcases ho with rfl | rfl <;> exact ⟨by decide +kernel, rfl⟩

/-- A strand whose command queue holds one command. -/
def commanding (c : MCmd) : Strand := { id := who, pc := 16, seq := 1, now := 1000, held := true, remain := 5, mq := [c] }

theorem witness_command_start : ∀ o ∈ ([.swap, .clr 0 768, .drain, .ldw fw1 0, .mul fw1 0 0 1 false] : List MOp),
    (commanding { w := word (.mdrain (rf 0 0 0)), op := o }).nextCmd = some { w := word (.mdrain (rf 0 0 0)), op := o } ∧ o.meets = false ∧
    (array (commanding { w := word (.mdrain (rf 0 0 0)), op := o })).opPoison 0 0 o 0 = none := by
  intro o ho
  simp only [List.mem_cons, List.not_mem_nil, or_false] at ho
  rcases ho with rfl | rfl | rfl | rfl | rfl <;> exact by decide +kernel

/-- A drain that has come to its retirement, with a token to push. -/
def drained1 : MCmd := { w := word (.mdrain ⟨⟨0, false, 0, 1⟩, 0, 0, 0, 0, none⟩), op := .drain, start := some 10, done := true }

theorem witness_command_retire : (commanding drained1).mq.find? (commanding drained1).retires = some drained1 ∧ (insHdr drained1.w.ins).push ≠ 0 :=
  by decide +kernel

/-- Two tiles whose strands are both at their mchain. -/
def chaining : State :=
  { State.reset with
    strands := [(0, commanding { w := word (.mchain (rf 0 0 0 8)), op := .chain 0 2 }), (8, commanding { w := word (.mchain (rf 0 0 0 9)), op := .chain 1 2 })]
    tiles := [(0, tile1), (1, tile1)] }

theorem witness_chain : chaining.chainHead 0 = some (0, 1, { w := word (.mchain (rf 0 0 0 8)), op := .chain 0 2 }) ∧
    chaining.chainHead 1 = some (8, 1, { w := word (.mchain (rf 0 0 0 9)), op := .chain 1 2 }) ∧
    (∃ x, chaining.strand 0 = some x ∧ x.nextCmd = some { w := word (.mchain (rf 0 0 0 8)), op := .chain 0 2 } ∧ x.bad.contains 299 = false) ∧
    (∃ x, chaining.strand 8 = some x ∧ x.nextCmd = some { w := word (.mchain (rf 0 0 0 9)), op := .chain 1 2 } ∧ x.bad.contains 299 = false) ∧
    chaining.runs 0 { w := word (.mchain (rf 0 0 0 8)), op := .chain 0 2 } = true ∧
    chaining.runs 8 { w := word (.mchain (rf 0 0 0 9)), op := .chain 1 2 } = true :=
  ⟨by decide +kernel, by decide +kernel, ⟨_, rfl, by decide +kernel, rfl⟩, ⟨_, rfl, by decide +kernel, rfl⟩, by decide +kernel, by decide +kernel⟩

theorem witness_cleared_row : ∃ c : MCmd, c.op = .clr 0 768 ∧ c.row < 768 := ⟨{ w := word (.mclr (rf 0 0 0 768)), op := .clr 0 768, row := 767 }, rfl, by decide⟩

/-- A plane loaded under `fw1` (K 64, N 8). -/
def plane1 : Plane := ⟨fw1, 0, [], []⟩

/-- A started stream with a row in its pipe, before a segment of it. -/
def streaming (seg : Nat) : MCmd := { w := word (.mmul (rf 0 0 0 1)), op := .mul fw1 0 0 1 false, pipe := [([], [])], plane := some plane1, seg := seg }

theorem witness_segment : fwWidth fw1 ≤ 512 ∧ (streaming 0).seg + 1 < fwSegs fw1 ∧ fwSegs fw1 ≤ (streaming 1).seg + 1 ∧
    ∀ n, (streaming n).pipe = [([], [])] ∧ (streaming n).plane = some plane1 :=
  ⟨by decide +kernel, by decide +kernel, by decide +kernel, fun _ => ⟨rfl, rfl⟩⟩

theorem witness_segments_of_a_row : (List.replicate 64 Ext.nan).length = fwRed fw1 ∧
    ∀ o, o < fwWidth fw1 → (against fw1 ((upFrom 0 (fwN fw1)).map plane1.col) o).length = fwRed fw1 := by decide +kernel

/-! ### Layer macros: witnesses -/

/-- An array whose program region holds UEND at 0x100. -/
def programmed (st : Strand) : State := { holding st with tiles := [(0, { tile1 with micro := [(0x100, 0)] })] }

/-- Eight zero words. -/
def zeros8 : List Word := (upFrom 0 8).map fun _ => 0

/-- The layer macros with their shipped sequences, and one from the program region. -/
def macroRows : List (Instr × Nat) :=
  [(.lfwd (rf 0 0 0), 0), (.ldgrad (rf 0 0 0), 0x10), (.lwgrad (rf 0 0 0), 0x20), (.lupd (rf 0 0 0), 0x30), (.lupd ⟨plain, 0, 0, 0, 0, some 0x100⟩, 0x100)]

/-- Whether a walk ends without a fault. -/
def walked (w : Flt ⊕ (Option PMeta × Option PMeta)) : Bool := match w with
  | .inr _ => true
  | .inl _ => false

theorem walked_inr {w : Flt ⊕ (Option PMeta × Option PMeta)} (h : walked w = true) : ∃ q, w = .inr q := by
  cases w with
  | inl f => simp [walked] at h
  | inr q => exact ⟨q, rfl⟩

theorem witness_layer_macros : ∀ e ∈ macroRows, Issuable (programmed (leased e.1)) (leased e.1) e.1 (word e.1) [] ∧
    (macroEntry e.1).isSome = true ∧
    (programmed (leased e.1)).fetch 0 0 128 = .ok (List.replicate 128 0) (programmed (leased e.1)) ∧
    ∃ q, macWalk ((leased e.1).microOf ((programmed (leased e.1)).tile 0).micro) 65537
      (macOf e.2 ((upFrom 0 8).map fun j => wordAt (List.replicate 128 0) (8 * j)) 0 0) ((programmed (leased e.1)).planesOf 0 (leased e.1)) = .inr q := by
  intro e he
  simp only [macroRows, List.mem_cons, List.not_mem_nil, or_false] at he
  rcases he with rfl | rfl | rfl | rfl | rfl <;>
    exact ⟨issuable_of (by decide +kernel), rfl, by rfl, walked_inr (by decide +kernel)⟩

theorem witness_microcode_load :
    Issuable (array { leased (.mcload (rf 0 0 1 0xFFF)) with x := [(1, 1)] }) { leased (.mcload (rf 0 0 1 0xFFF)) with x := [(1, 1)] }
      (.mcload (rf 0 0 1 0xFFF)) (word (.mcload (rf 0 0 1 0xFFF))) [] ∧
    (State.reset).fetch 0 0 8 = .ok (List.replicate 8 0) State.reset ∧
    badMicro 0xFFF [wordAt (List.replicate 8 0) 0] = none := ⟨issuable_of (by decide +kernel), by rfl, by decide +kernel⟩

/-- The running macro of a strand. -/
def running : Mac := { addr := 0x100, b := [(1, 3)], c := [(2, 1)], f := [], w7 := 0, last := 0, retire := 0 }

/-- The layer macro that it runs. -/
def runningCmd : MCmd := { w := word (.lfwd (rf 0 0 0)), op := .mac 0x100 [] 0, start := some 5 }

/-- A strand that runs a macro. -/
def microStrand : Strand := { id := who, pc := 16, seq := 1, now := 1000, held := true, mq := [runningCmd], mac := some running }

/-- A micro-operation's fields: base registers 1, 2 and 3, counter 2. -/
def uf : UForm := ⟨false, 0x100, 1, 2, 3, 0, 2, 5, 0, 0, false⟩

theorem witness_register_micro : ∀ i ∈ ([.uadd uf, .uaddi uf, .ukset uf, .uloop uf, .uloop { uf with ksel := 1 }] : List Instr),
    MicroDue (array microStrand) microStrand running runningCmd i ∧ (microRegs running i).isSome = true := by
  intro i hi
  simp only [List.mem_cons, List.not_mem_nil, or_false] at hi
  rcases hi with rfl | rfl | rfl | rfl | rfl <;> exact ⟨⟨rfl, rfl, rfl, by decide +kernel, by decide +kernel⟩, by decide +kernel⟩

theorem witness_micro_end : MicroDue (array microStrand) microStrand running runningCmd (.uend uf) :=
  ⟨rfl, rfl, rfl, by decide +kernel, by decide +kernel⟩

theorem witness_array_micro : ∀ i ∈ ([.uldw uf, .uswap uf, .umul uf, .uclr uf, .ust uf, .uupd uf] : List Instr),
    MicroDue (array microStrand) microStrand running runningCmd i ∧
    ∃ o, microOp running i = some o ∧ (array microStrand).opPoison 0 0 o 0 = none := by
  intro i hi
  simp only [List.mem_cons, List.not_mem_nil, or_false] at hi
  rcases hi with rfl | rfl | rfl | rfl | rfl | rfl <;>
    exact ⟨⟨rfl, rfl, rfl, by decide +kernel, by decide +kernel⟩, _, rfl, by decide +kernel⟩

theorem witness_update_row : (128 * (0 + 767 * 4 * 4) + 512 * 4 ≤ 0x400000) ∧ State.reset.emptyLine 0 (128 * (767 * 16)) 2048 = none ∧
    State.reset.poisoned (Loc.spad 0 (128 * (767 * 16))).key 2048 = false := by decide +kernel

/-! ### Class Y: witnesses -/

/-- A pulling stage with four frames of 256 KiB from 1 MiB. -/
def stage1 : Stage := { desc := [0x200, 0x10, 0x100000, 0x4000000000004] }

/-- A launch of two such stages, with a handler. -/
def launch2 : Launch := { launch1 with stages := [stage1, { stage1 with queue := [11, 12] }] }

/-- A strand of stage 0 or 1 whose one word is of class Y; x1 is a plain number, x2 an address. -/
def syncing (i : Instr) (stage : Nat := 0) (joined : Bool := false) : Strand :=
  { lone i with id := { who with stage := stage, joined := joined }, x := [(1, 0), (2, 0x8000)] }

/-- Slot 0 holds it, with barrier 8 of its launch, an instance of its domain, and a queue descriptor that allows a wake. -/
def synced (i : Instr) (stage : Nat := 0) (joined : Bool := false) (b : Bar := {}) : State :=
  { world (syncing i stage joined) launch2 with
    tiles := [(0, { bars := [(8, { b with owner := some 1, count := 2 })] })]
    dies := [(0, { die1 launch2 with doms := [(1, [{ lvl := 0, inst := 0, mem := [1] }])] })]
    mem := (8, 0x10) :: tables }

/-- The conditions of `SyncReady`, evaluated. -/
def syncsNow (s : State) (st : Strand) (i : Instr) (w : QWord) (l : List QWord) : Bool :=
  standsNow s st i w l && decide (insCls i = 5 ∧ st.susp = none ∧ (st.setQueue 5 []).issuedBefore w.seq = true ∧
    (isBoundary i = true → st.retired = true) ∧ (suspends i = true → st.willLeave = false ∧ (blockingForm i = true → st.drained = true)) ∧
    st.meetsBad (regReads i ++ wordReads i) [] = false ∧ s.backWaits (s.l1s (slotTile s.cur)) [1, 2] = false)

theorem sync_of {s : State} {st : Strand} {i : Instr} {w : QWord} {l : List QWord} (h : syncsNow s st i w l = true) :
    SyncReady s st i w l := by
  simp only [syncsNow, Bool.and_eq_true, decide_eq_true_eq] at h
  obtain ⟨h1, h2, h3, h4, h5, h6, h7, h8⟩ := h
  exact { stands_of h1 with cls := h2, point := h3, first := h4, still := h5, rest := h6, clean := h7, home := h8 }

/-- What a word of class Y needs to complete, in the state that `synced` builds. -/
def Completes (i : Instr) (stage : Nat := 0) (joined : Bool := false) (b : Bar := {}) : Prop :=
  SyncReady (synced i stage joined b) (syncing i stage joined) i (word i) [] ∧
    ∃ s1 x id sq, Synced (synced i stage joined b) (syncing i stage joined) i s1 x id sq

/-- The release that a word of class Y makes first. -/
def released (i : Instr) (sc : Nat) (stage : Nat := 0) (joined : Bool := false) : Res Unit :=
  (synced i stage joined).yRelease 0 (syncing i stage joined) sc

theorem witness_align : Completes .align ∧ Completes .alignSuspend :=
  ⟨⟨sync_of (by decide +kernel), _, _, _, _, .align⟩, ⟨sync_of (by decide +kernel), _, _, _, _, .alignSuspend⟩⟩

theorem witness_bar_init : Completes (.barInit (if_ 0 0 0x1008)) :=
  ⟨sync_of (by decide +kernel), _, _, _, _, .barInit _ (by decide +kernel) (by decide +kernel) (by decide +kernel) (by decide +kernel) (by decide +kernel)⟩

theorem witness_bar_arrive : Completes (.barArrive (if_ 1 0 8)) :=
  ⟨sync_of (by decide +kernel), _, _, _, _, .barArrive _ _ rfl (by decide +kernel) rfl rfl (by decide +kernel) (by decide +kernel) (by decide +kernel)⟩

theorem witness_bar_arrive_last : Completes (.barArrive (if_ 1 0 8)) (b := { cur := 1 }) :=
  ⟨sync_of (by decide +kernel), _, _, _, _, .barArrive _ _ rfl (by decide +kernel) rfl rfl (by decide +kernel) (by decide +kernel) (by decide +kernel)⟩

theorem witness_bar_arrive_ahead : Completes (.barArrive (if_ 1 0 8)) (b := { phase := 3, cur := 1 }) :=
  ⟨sync_of (by decide +kernel), _, _, _, _,
    .barArriveAhead _ _ rfl (by decide +kernel) rfl rfl (by decide +kernel) (by decide +kernel) (by decide +kernel) (by decide +kernel)⟩

theorem witness_bar_wait : Completes (.barWait (if_ 1 0 8)) :=
  ⟨sync_of (by decide +kernel), _, _, _, _, .barWait _ _ rfl (by decide +kernel) rfl (by decide +kernel)⟩

theorem witness_bar_arrwait : Completes (.barArrwait (if_ 1 0 8)) (b := { cur := 1 }) :=
  ⟨sync_of (by decide +kernel), _, _, _, _,
    .barArrwait _ _ rfl (by decide +kernel) rfl rfl rfl rfl (by decide +kernel) (by decide +kernel) (by decide +kernel)⟩

theorem witness_bar_arrwait_again :
    SyncReady { synced (.barArrwait (if_ 1 0 8)) with strands := [(0, { syncing (.barArrwait (if_ 1 0 8)) with arr := true })] }
      { syncing (.barArrwait (if_ 1 0 8)) with arr := true } (.barArrwait (if_ 1 0 8)) (word (.barArrwait (if_ 1 0 8))) [] ∧
    ∃ s1 x id sq, Synced { synced (.barArrwait (if_ 1 0 8)) with strands := [(0, { syncing (.barArrwait (if_ 1 0 8)) with arr := true })] }
      { syncing (.barArrwait (if_ 1 0 8)) with arr := true } (.barArrwait (if_ 1 0 8)) s1 x id sq :=
  ⟨sync_of (by decide +kernel), _, _, _, _, .barArrwaitAgain _ _ rfl (by decide +kernel) rfl rfl (by decide +kernel)⟩

theorem witness_domains : Completes (.domJoin (if_ 0 0 0)) ∧ Completes (.domLeave (if_ 0 0 0)) (joined := true) ∧ Completes (.domLeave (if_ 0 0 0)) :=
  ⟨⟨sync_of (by decide +kernel), _, _, _, _, .domJoin _ rfl⟩, ⟨sync_of (by decide +kernel), _, _, _, _, .domLeave _ rfl⟩,
    ⟨sync_of (by decide +kernel), _, _, _, _, .domLeaveFree _ rfl⟩⟩

theorem witness_dom_sync : Completes (.domSync (if_ 0 0 0)) (joined := true) :=
  ⟨sync_of (by decide +kernel), _, _, _, _,
    .domSync _ (after (released (.domSync (if_ 0 0 0)) 1 0 true)) _ (0, 1) 1 rfl rfl rfl (by decide +kernel) (by decide +kernel)
      (ok_after (r := released (.domSync (if_ 0 0 0)) 1 0 true) (by decide +kernel)) rfl (by decide +kernel)⟩

/-- One that has arrived before, in an instance that has moved on. -/
def arrivedBefore : Strand := { syncing (.domSync (if_ 0 0 0)) 0 true with darr := true, phase := 7 }

theorem witness_dom_sync_again :
    SyncReady { synced (.domSync (if_ 0 0 0)) 0 true with strands := [(0, arrivedBefore)] } arrivedBefore (.domSync (if_ 0 0 0)) (word (.domSync (if_ 0 0 0))) [] ∧
    ∃ s1 x id sq, Synced { synced (.domSync (if_ 0 0 0)) 0 true with strands := [(0, arrivedBefore)] } arrivedBefore (.domSync (if_ 0 0 0)) s1 x id sq :=
  ⟨sync_of (by decide +kernel), _, _, _, _, .domSyncAgain _ rfl rfl rfl (by decide +kernel)⟩

theorem witness_sq_put : ∃ i, i = .sqPut (if_ 1 0 0) ∧ SyncReady (synced i) (syncing i) i (word i) [] ∧
    (∃ s1 x id sq, Synced (synced i) (syncing i) i s1 x id sq) :=
  ⟨_, rfl, sync_of (by decide +kernel), _, _, _, _,
    .sqPut _ launch2 { stage1 with queue := [11, 12] } (after (released (.sqPut (if_ 1 0 0)) 3)) (by decide +kernel) rfl rfl rfl (by decide +kernel)
      (ok_after (r := released (.sqPut (if_ 1 0 0)) 3) (by decide +kernel))⟩

/-- A stage whose queue has room, at which slot 0 stands first in line. -/
def lined : Stage := { stage1 with queue := [11], puts := [⟨1, 0, 0, 9⟩] }

/-- Its world: the strand of slot 0 has waited with its item. -/
def inLine : State :=
  { synced (.sqPut (if_ 1 0 0)) with dies := [(0, die1 { launch2 with stages := [stage1, lined] })] }

theorem witness_sq_put_first : SyncReady inLine (syncing (.sqPut (if_ 1 0 0))) (.sqPut (if_ 1 0 0)) (word (.sqPut (if_ 1 0 0))) [] ∧
    ∃ s1 x id sq, Synced inLine (syncing (.sqPut (if_ 1 0 0))) (.sqPut (if_ 1 0 0)) s1 x id sq :=
  ⟨sync_of (by decide +kernel), _, _, _, _,
    .sqPutFirst _ { launch2 with stages := [stage1, lined] } lined ⟨1, 0, 0, 9⟩ [] (after (inLine.yRelease 0 (syncing (.sqPut (if_ 1 0 0))) 3))
      (by decide +kernel) rfl rfl rfl rfl (by decide +kernel) (ok_after (by decide +kernel))⟩

theorem witness_sq_get : Completes (.sqGet (if_ 1 0 0)) 1 :=
  ⟨sync_of (by decide +kernel), _, _, _, _,
    .sqGet _ launch2 { stage1 with queue := [11, 12] } 11 [12] (by decide +kernel) rfl (by decide) (by decide +kernel) rfl rfl rfl⟩

/-- The strand that a spawn creates. -/
def spawned (i : Instr) (pc : Option Word) : Res Unit :=
  (after (released i 3)).createStrand 0 1 1 0 (some 0) pc

theorem witness_spawn : ∀ i ∈ ([.spawn (if_ 1 1 0), .spawn ⟨plain, 1, 1, 0x300, some 0⟩] : List Instr), Completes i := by
  intro i hi
  simp only [List.mem_cons, List.not_mem_nil, or_false] at hi
  rcases hi with rfl | rfl
  · exact ⟨sync_of (by decide +kernel), _, _, _, _,
      .spawn _ launch2 _ (after (spawned (.spawn (if_ 1 1 0)) none)) (by decide +kernel) (by decide +kernel) (by decide) (by decide +kernel)
        (ok_after (r := released (.spawn (if_ 1 1 0)) 3) (by decide +kernel)) (ok_after (r := spawned (.spawn (if_ 1 1 0)) none) (by decide +kernel)) (by decide +kernel)⟩
  · exact ⟨sync_of (by decide +kernel), _, _, _, _,
      .spawn _ launch2 _ (after (spawned (.spawn ⟨plain, 1, 1, 0x300, some 0⟩) (some 0x300))) (by decide +kernel) (by decide +kernel) (by decide +kernel) (by decide +kernel)
        (ok_after (r := released (.spawn ⟨plain, 1, 1, 0x300, some 0⟩) 3) (by decide +kernel))
        (ok_after (r := spawned (.spawn ⟨plain, 1, 1, 0x300, some 0⟩) (some 0x300)) (by decide +kernel)) (by decide +kernel)⟩

/-- The signal word at x2. -/
def signal (i : Instr) : Res Word := (synced i).readSig ((synced i).whoOf 0 (syncing i)) 0x8000

theorem witness_sig_wait : Completes (.sigWait (if_ 2 1 0)) :=
  ⟨sync_of (by decide +kernel), _, _, _, _,
    .sigWait _ (answer (signal (.sigWait (if_ 2 1 0))) 0) (after (signal (.sigWait (if_ 2 1 0)))) rfl (by decide +kernel)
      (ok_answer (r := signal (.sigWait (if_ 2 1 0))) (by decide +kernel)) (by decide +kernel)⟩

theorem witness_others : Completes (.sigSet (if_ 2 1 0)) ∧ Completes (.waitTime (if_ 1 0 0)) ∧ Completes (.prio (if_ 0 0 2)) :=
  ⟨⟨sync_of (by decide +kernel), _, _, _, _, .sigSet _ _ (by decide +kernel) (by decide +kernel) rfl⟩,
    ⟨sync_of (by decide +kernel), _, _, _, _, .waitTime _ rfl (by decide +kernel)⟩, ⟨sync_of (by decide +kernel), _, _, _, _, .prio _⟩⟩

theorem witness_cq_wake : Completes (.cqWake (if_ 0 1 0)) :=
  ⟨sync_of (by decide +kernel), _, _, _, _,
    .cqWake _ 0 0 (after (released (.cqWake (if_ 0 1 0)) 5)) (by decide) (by decide +kernel) (by decide +kernel) (by decide +kernel) (by decide +kernel)
      (ok_after (r := released (.cqWake (if_ 0 1 0)) 5) (by decide +kernel))⟩

/-- An I-form word with SUSP. -/
def sf (d a : BitVec 7) (m : BitVec 22) : IForm := ⟨⟨0, true, 0, 0⟩, d, a, m, none⟩

/-- The strand that leaves its slot, with these x registers and this identity. -/
def leaving (i : Instr) (x : Cells 64) (id : Ident) (stage : Nat := 0) (joined : Bool := false) : Strand :=
  { ((({ syncing i stage joined with x := x, id := id } : Strand).setQueue 5 []).issuedY i (word i)) with susp := none }

/-- The record of a strand that leaves its slot. -/
def leave (i : Instr) (s1 : State) (x : Cells 64) (id : Ident) (stage : Nat := 0) (joined : Bool := false) : Res Unit :=
  ((s1.setStrand 0 { leaving i x id stage joined with susp := some (word i) }).tidy 0 id).writeRecord 0 (leaving i x id stage joined) false
    (syncing i stage joined).pc

/-- What the blocking form of a wait needs to leave its slot. -/
def Leaves (i : Instr) (stage : Nat := 0) (joined : Bool := false) : Prop :=
  SyncReady (synced i stage joined) (syncing i stage joined) i (word i) [] ∧
    ∃ s1 x id wt, Awaits (synced i stage joined) (syncing i stage joined) i s1 x id wt ∧
      ∃ v lc, leave i s1 x id stage joined = .ok () v ∧
        v.strand 0 = some { leaving i x id stage joined with susp := some (word i) } ∧ v.launch 0 1 = some lc ∧ lc.no = 1

theorem leaves_of {i : Instr} {stage : Nat} {joined : Bool} {s1 : State} {x : Cells 64} {id : Ident} {wt : Wait}
    (h : (syncsNow (synced i stage joined) (syncing i stage joined) i (word i) [] && fine (leave i s1 x id stage joined) &&
      decide ((after (leave i s1 x id stage joined)).strand 0 = some { leaving i x id stage joined with susp := some (word i) }) &&
      decide ((after (leave i s1 x id stage joined)).launch 0 1 = some launch2)) = true)
    (ha : Awaits (synced i stage joined) (syncing i stage joined) i s1 x id wt) : Leaves i stage joined := by
  simp only [Bool.and_eq_true, decide_eq_true_eq] at h
  obtain ⟨⟨⟨h1, h4⟩, h5⟩, h6⟩ := h
  exact ⟨sync_of h1, s1, x, id, wt, ha, _, launch2, ok_after h4, h5, h6, rfl⟩

theorem witness_bar_wait_leaves : Leaves (.barWait (sf 1 0 8)) :=
  leaves_of (by decide +kernel) (.barWait _ rfl (by decide +kernel))

theorem witness_bar_arrwait_leaves : Leaves (.barArrwait (sf 1 0 8)) :=
  leaves_of (by decide +kernel) (.barArrwait _ _ rfl rfl rfl (by decide +kernel) (by decide +kernel) (by decide +kernel) (by decide +kernel))

theorem witness_dom_sync_leaves : Leaves (.domSync (sf 0 0 0)) (joined := true) :=
  leaves_of (by decide +kernel) (.domSync _ (after (released (.domSync (sf 0 0 0)) 1 0 true)) (0, 1) rfl rfl rfl (by decide +kernel)
    (ok_after (r := released (.domSync (sf 0 0 0)) 1 0 true) (by decide +kernel)))

theorem witness_sq_put_leaves : Leaves (.sqPut (sf 1 0 0)) :=
  leaves_of (by decide +kernel) (.sqPut _ launch2 (after (released (.sqPut (sf 1 0 0)) 3)) rfl (by decide +kernel) (by decide +kernel)
    (ok_after (r := released (.sqPut (sf 1 0 0)) 3) (by decide +kernel)))

theorem witness_sq_get_leaves : Leaves (.sqGet (sf 1 0 0)) 1 :=
  leaves_of (by decide +kernel) (.sqGet _ launch2 rfl (by decide +kernel) (by decide) (by decide +kernel))

theorem witness_sig_wait_leaves : Leaves (.sigWait (sf 2 1 0)) :=
  leaves_of (by decide +kernel) (.sigWait _ _ (answer (signal (.sigWait (sf 2 1 0))) 0) (after (signal (.sigWait (sf 2 1 0)))) rfl (by decide +kernel) rfl
    (ok_answer (r := signal (.sigWait (sf 2 1 0))) (by decide +kernel)))

theorem witness_wait_time_leaves : Leaves (.waitTime (sf 1 0 0)) := leaves_of (by decide +kernel) (.waitTime _ rfl rfl)

/-- `launch2` with a strand off its slot. -/
def waiting (w : Wait) : Launch := { launch2 with blocked := [⟨{ id := { who with uid := 5 } }, w⟩] }

/-- A die that runs it. -/
def offSlot (w : Wait) : State := { State.reset with dies := [(0, die1 (waiting w))] }

theorem witness_completed_wait : (offSlot (.bar 0 8 1)).launch 0 1 = some (waiting (.bar 0 8 1)) ∧ barWaits ((offSlot (.bar 0 8 1)).bar 0 8) 1 = true ∧
    (offSlot (.bar 0 8 0)).launch 0 1 = some (waiting (.bar 0 8 0)) ∧ barWaits ((offSlot (.bar 0 8 0)).bar 0 8) 0 = false ∧
    barWaits ((offSlot (.bar 0 8 4)).bar 0 8) 4 = false ∧
    (offSlot (.dom 0 0 0)).launch 0 1 = some (waiting (.dom 0 0 0)) ∧ (offSlot (.dom 0 0 0)).domPhase 0 1 0 0 = 0 ∧
    (offSlot (.dom 0 0 7)).domPhase 0 1 0 0 ≠ 7 ∧ ((offSlot (.dom 0 0 7)).l1s 0).all (fun u => ((offSlot (.dom 0 0 7)).tile u).l1.isEmpty) = true ∧
    (waiting (.bar 0 8 0)).latency = false ∧ (waiting (.bar 0 8 0)).stages[0]? = some stage1 := by decide +kernel

/-- Two strands that wait at barrier 8 of tile 0, the first in slot 0 and the second off its slot. -/
def waitersOf (f : Nat) : State :=
  { world { syncing (.barWait (if_ 1 0 8)) with target := some f } (waiting (.bar 0 8 f)) with
    tiles := [(0, { bars := [(8, { owner := some 1, count := 2, cur := 1 })] })] }

theorem witness_completed_phase : ((waitersOf 1).bar 0 8).phase ≠ 1 ∧ (waitersOf 1).launch 0 1 ≠ none ∧ barWaits { phase := 1 } 1 = false ∧
    (((waitersOf 1).strand 0).map fun st => ((waitersOf 1).waitsBar 0 st, st.target.any fun f => !barWaits { phase := 1 } f)) = some (some 8, true) ∧
    (((waitersOf 2).strand 0).map fun st => st.target.any fun f => !barWaits { phase := 1 } f) = some false := by decide +kernel

/-- A stage into whose queue slot 3 has put an item at time 5. -/
def fresh1 : Stage := { stage1 with queue := [11, 12], fresh := [3], freshAt := 5 }

theorem witness_items_enter : fresh1.fresh.length ≤ fresh1.queue.length ∧ (fresh1.enter 5 2 9).queue = [11, 9, 12] ∧
    (fresh1.enter 5 4 9).queue = [11, 12, 9] ∧ (fresh1.enter 5 3 9).queue = [11, 12, 9] ∧ (fresh1.enter 6 2 9).queue = [11, 12, 9] := by decide +kernel

/-! ### Scheduling: witnesses -/

/-- A strand with nothing in its queues, its pc at a zero word. -/
def fresh : Strand := { id := who, pc := 16 }

/-- Its fetch. -/
def fetched (st : Strand) : Res (Instr ⊕ Flt × Word) := (world st).fetchInstr 0 st

theorem witness_dispatch : fetched fresh = .ok (.inl (.add (rf 0 0 0))) (after (fetched fresh)) ∧ (fresh.queue 0).length < 32 ∧
    fresh.stop = none ∧ fresh.disp = none ∧ fresh.want = false ∧ fresh.hold = .run ∧
    rotIns fresh.base.toNat (.add (rf 0 0 0)) = .add (rf 0 0 0) ∧ fresh.now ≤ fresh.due 0 (insHdr (.add (rf 0 0 0))) := by
  refine ⟨?_, by decide, rfl, rfl, rfl, rfl, by decide +kernel, by decide +kernel⟩
  have h : fine (fetched fresh) = true := by decide +kernel
  have h2 : answer (fetched fresh) (.inl .align) = .inl (.add (rf 0 0 0)) := by decide +kernel
  rw [← h2]; exact ok_answer h

/-- A result of each kind that lands in a strand. -/
def landRows : List Eff :=
  [.x 3 5, .x 0 5, .sp 7 true, .v 63 5, .p 15 5, .w 3 5, .xg 5, .fmt 5, .tok 1 2, .sys 0x009 2, .sys 0x018 2, .sys 0x030 5, .sys 0x031 5, .sys 0x032 5]

theorem witness_landing : ∀ e ∈ landRows, landsInStrand e = true ∧ (world { fresh with land := [⟨0, 0, e⟩, ⟨1, 1, e⟩] }).strand 0 =
    some { fresh with land := [⟨0, 0, e⟩, ⟨1, 1, e⟩] } ∧ fresh.stop = none ∧ fresh.now = 0 := by
  intro e he
  refine ⟨?_, rfl, rfl, rfl⟩
  have h : landRows.all landsInStrand = true := by decide +kernel
  exact List.all_eq_true.mp h e he

theorem witness_strand_creation : ∀ n ∈ [0, 1],
    let l : Launch := { launch2 with begun := true, limit := n }
    (world fresh l).launch 0 1 = some l ∧ l.ending = none ∧ l.span = false ∧ l.latency = false ∧ l.stages[0]? = some stage1 ∧
      stage1.frame = some (0, { stage1 with nextF := 1 }) ∧ (n < l.n ∨ n = l.n) := by
  intro n hn
  simp only [List.mem_cons, List.not_mem_nil, or_false] at hn
  rcases hn with rfl | rfl <;> refine ⟨rfl, rfl, by decide +kernel, by decide +kernel, rfl, by decide +kernel⟩

/-- The state in which the frame of a new strand is handed out, and its first record. -/
def handed : State :=
  withFrame (((world fresh { launch2 with begun := true }).onLaunch 0 1 fun y => { y with created := y.created + 1 }).onLaunch 0 1 fun y => { y with limit := y.limit + 1 })
    0 1 0 { stage1 with nextF := 1 }

/-- The record of the new strand. -/
def record1 : Res Unit :=
  handed.writeVa (cpWho 0 1) kStore (BitVec.ofNat 64 (stage1.frameVa 0 + 0x2A080)).toNat
    (firstRecord 0x200 (BitVec.ofNat 2 (0x10 % 4)) (BitVec.ofNat 64 (stage1.frameVa 0)) 0 0)

theorem witness_new_record : record1 = .ok () (after record1) ∧ (after record1).launch 0 1 = handed.launch 0 1 :=
  ⟨ok_after (by decide +kernel), by decide +kernel⟩

/-- A ready-list entry of stage 0. -/
def entry1 : Entry := { id := { who with uid := 4, tile := 96 } }

/-- A die of a launch with that entry, its tile assigned. -/
def picking : State :=
  { State.reset with
    mem := tables
    dies := [(0, { die1 { launch2 with stages := [{ stage1 with ready := [entry1] }, stage1], begun := true } with assign := [(0, (1, 0))] })] }

theorem witness_pickup : picking.candidates 0 = [(0, entry1)] ∧ picking.backWaits (picking.l1s 0) [1, 2] = false := by decide +kernel

/-- The record that the slot loads. -/
def loaded : Res (List Byte) :=
  (picking.arrive 0 entry1.id).readVa { (picking.arrive 0 entry1.id).whoOf 0 { id := entry1.id, pc := 0 } with uid := 0, home := true } kLoad
    entry1.id.crec.toNat 64

theorem witness_pickup_record : loaded = .ok (answer loaded []) (after loaded) ∧ (wordAt (answer loaded []) 0).getLsbD 55 = false ∧
    (after loaded).launch 0 1 = some { launch2 with stages := [{ stage1 with ready := [entry1] }, stage1], begun := true } ∧
    entry1.id.launch = 1 ∧ entry1.flt = none :=
  ⟨ok_answer (by decide +kernel), by decide +kernel, by decide +kernel, rfl, rfl⟩

theorem witness_preemption : ∀ n ∈ [0, 1],
    let s : State := { world (storing (.align)) with dies := [(0, { die1 with disp := [⟨0, n⟩] })] }
    StopHolds s 0 (storing (.align)) ∧ (s.die 0).disp = [⟨0, n⟩] ∧ s.time = 0 := by
  intro n hn
  simp only [List.mem_cons, List.not_mem_nil, or_false] at hn
  rcases hn with rfl | rfl <;> exact ⟨⟨rfl, rfl, by decide +kernel⟩, rfl, rfl⟩

theorem witness_rebalance : State.reset.time < ({ nextReb := 5 } : Die).nextReb ∧ (State.reset.die 0).nextReb ≤ State.reset.time ∧
    State.reset.running 0 = [] := by decide +kernel

/-- Two tiles of one launch with joined strands, tile instance 0 ahead. -/
def leading : State :=
  { State.reset with
    dies := [(0, { die1 { launch1 with begun := true } with
      doms := [(1, [{ lvl := 1, inst := 0, phase := 3, mem := [1] }, { lvl := 1, inst := 1, mem := [2] }])]
      assign := [(0, (1, 0)), (48, (1, 0))] })]
    strands := [(0, { fresh with id := { who with joined := true, level := 1 } }), (48, { fresh with id := { who with uid := 2, joined := true, level := 1, inst := 1 } })] }

theorem witness_lead_counter : ∃ lc n, leading.running 0 = [lc] ∧ (∀ e ∈ [1, 2, 3], leading.running e = []) ∧ leading.launch 0 lc.no = some lc ∧
    leading.neighbours 0 lc (leading.domOf 0 lc.no 1 0) = [n] ∧ n ≠ 0 :=
  ⟨{ launch1 with begun := true }, 1, by decide +kernel⟩

theorem witness_held_arrival : (syncing (.barArrive (if_ 1 0 8))).queue 5 = [word (.barArrive (if_ 1 0 8))] ∧
    ∃ t, exec (.barArrive (if_ 1 0 8)) { synced (.barArrive (if_ 1 0 8)) with cur := 0 } = .next t := ⟨by decide +kernel, _, rfl⟩

/-- A launch of three stages; a strand of stage 0 waits to put 9 in stage 1, or one of stage 1 for an item. -/
def queueing (n : Nat) (w : Wait) (puts : List Put) (takes : List Nat) : Launch :=
  { launch2 with
    stages := [stage1, { stage1 with queue := [11], puts := puts, takes := takes }, stage1]
    blocked := [⟨{ id := { who with uid := 5, stage := n } }, w⟩] }

/-- The waiting strand. -/
def queued (n : Nat) (w : Wait) : Blk := ⟨{ id := { who with uid := 5, stage := n } }, w⟩

theorem witness_space : let lc := queueing 0 (.put 9) [⟨5, 0, 0, 9⟩] []
    (world fresh lc).launch 0 1 = some lc ∧ lc.no = 1 ∧ lc.latency = false ∧ lc.blkOf 5 = some (queued 0 (.put 9)) ∧
    lc.stages[1]?.map (·.puts) = some [⟨5, 0, 0, 9⟩] ∧ lc.stages[0]? = some stage1 ∧ [11].length < lc.depth 1 := by decide +kernel

/-- The word in which the item is stored for a strand that names x2. -/
def itemStored : Res Unit :=
  ((world fresh (queueing 1 (.get 2) [] [5])).onStage 0 1 1 fun y => { y with takes := [], queue := [] }).writeWord (cpWho 0 1) kStore 0x10008 11

theorem witness_item : ∀ n ∈ [0, 2], let lc := queueing 1 (.get n) [] [5]
    (world fresh lc).launch 0 1 = some lc ∧ lc.no = 1 ∧ lc.latency = false ∧ lc.blkOf 5 = some (queued 1 (.get n)) ∧
    lc.stages[1]?.map (fun g => (g.takes, g.queue)) = some ([5], [11]) ∧
    ((world fresh lc).l1s 0).all (fun u => ((world fresh lc).tile u).l1.isEmpty) = true := by decide +kernel

theorem witness_item_stored : itemStored = .ok () (after itemStored) ∧ ((after itemStored).launch 0 1).map (fun l => (l.no, l.latency, l.stages.length)) =
    some (1, false, 3) ∧ ((after itemStored).l1s 0).all (fun u => ((after itemStored).tile u).l1.isEmpty) = true :=
  ⟨ok_after (by decide +kernel), by decide +kernel⟩

/-- A strand off its slot waits for a signal word, or for a time. -/
def signalled (w : Wait) : State := { world fresh (waiting w) with strands := [] }

/-- The signal word at 0x8000, which is 0, as that strand reads it. -/
def signalWord (c : Nat) : Res Word :=
  (signalled (.sig 0x8000 c 0 1 8)).readSig { die := 0, ctx := 1, tile := 0, agent := awayAgent 5, uid := 5 } 0x8000

theorem witness_signal : ∀ c ∈ [0, 1],
    (signalled (.sig 0x8000 c 0 1 8)).launch 0 1 = some (waiting (.sig 0x8000 c 0 1 8)) ∧ fine (signalWord c) = true ∧
    condSig c (answer (signalWord c) 7) 0 = (c == 0) ∧ ((after (signalWord c)).launch 0 1).map (fun l => (l.no, l.latency)) = some (1, false) ∧
    ((after (signalWord c)).launch 0 1).bind (·.stages[0]?) = some stage1 ∧
    ((after (signalWord c)).l1s 0).all (fun u => ((after (signalWord c)).tile u).l1.isEmpty) = true := by decide +kernel

theorem witness_time_target : ∀ n ∈ [0, 1], (signalled (.time n)).launch 0 1 = some (waiting (.time n)) ∧
    (waiting (.time n)).blocked[0]?.map (·.w) = some (.time n) ∧ ((signalled (.time n)).ns 0 < n ∨ n ≤ (signalled (.time n)).ns 0) ∧
    (waiting (.time n)).latency = false ∧ (waiting (.time n)).stages[0]? = some stage1 := by decide +kernel

/-- A spanning launch whose own range word stands at 0x9000. -/
def spanning (stolen : Option (Nat × Nat)) : Launch :=
  { launch2 with begun := true, lr := [0x40, 0, 0, 0, 0x8000, 0x20000, 0x9000, 0], stolen := stolen }

theorem witness_steal : (spanning (some (2, 5))).span = true ∧
    fine ((world fresh (spanning (some (2, 5)))).writeWord (cpWho 0 1) kAtomic 0x9000 (BitVec.ofNat 64 (2 + 5 * 2 ^ 32))) = true ∧
    (after ((world fresh (spanning (some (2, 5)))).writeWord (cpWho 0 1) kAtomic 0x9000 (BitVec.ofNat 64 (2 + 5 * 2 ^ 32)))).launch 0 1 = some (spanning (some (2, 5))) ∧
    fine (({ world fresh (spanning none) with mem := tables ++ [(0x9004, 3)] } : State).readWord (cpWho 0 1) kLoad 0x9000) = true ∧
    answer (({ world fresh (spanning none) with mem := tables ++ [(0x9004, 3)] } : State).readWord (cpWho 0 1) kLoad 0x9000) 0 = 0x300000000 := by
  refine by decide +kernel

/-- The state in which the record of a handler strand is written. -/
def handing : State :=
  ((world fresh { launch2 with hseq := 1 }).onDie 0 fun y => { y with nextU := 2 }).onLaunch 0 1 fun y => { y with hnext := 1, hrun := some 0 }

/-- The record of the handler strand. -/
def handlerRecord : Res Unit :=
  handing.writeVa (cpWho 0 1) kStore (launch2.word 5 + 4032).toNat
    (firstRecord (launch2.word 4) 0 (launch2.word 5 + 2048) (launch2.word 5 + BitVec.ofNat 64 (64 * (0 % 32))) (BitVec.ofNat 64 0))

theorem witness_handler_strand : handlerRecord = .ok () (after handlerRecord) ∧
    (after handlerRecord).launch 0 1 = some { launch2 with hseq := 1, hnext := 1, hrun := some 0 } ∧
    ({ launch2 with hrun := some 0 } : Launch).hrun.isSome = true :=
  ⟨ok_after (by decide +kernel), by decide +kernel, rfl⟩

/-- A store of die 0 homed there, its acknowledgement outstanding. -/
def ack1 : Ack := { uid := 1, va := 0x8000, line := 256, home := 0, pkg := false, e := true, at_ := 5 }

theorem witness_acknowledgement : ∀ t ∈ [655360004, 655360005], (t < ack1.at_ + 655360000 ∨ ack1.at_ + 655360000 ≤ t) ∧
    Tab.find (({ acks := [(1, ack1)] } : Die)).acks 1 = some ack1 ∧ ack1.lost = false ∧ State.reset.canReach 0 ack1.home = true := by decide +kernel

/-! ### Queues and launches: witnesses -/

/-- Write words to the memory of die 0. -/
def put (s : State) (l : List (Nat × Word)) : State := l.foldl (fun s e => s.pokeWord (.hbm 0 e.1) e.2) s

/-- Die 0 runs its command processor with queue 5, context 1, a ring of sixteen records at 0x50000, mapped in slot 0. -/
def cpDie (recs : List Rec := []) : Die :=
  { regs := [(0x300, 0x100000), (0x308, 0x10001), (0x600, 0x1000), (0x608, 2)], state := 3, bound := [5],
    caps := [(1, ⟨0, 2 ^ 56, 1, true, true, false⟩), (2, ⟨0x50000, 1024, 1, true, true, true⟩)]
    qslots := [(0, { q := 5, at_ := 0, head := 0, recs := recs, kind := if recs.any (·.waits) then 1 else 0 })] }

/-- The package with that die, the queue's descriptor with TAIL, and some words of memory. -/
def cpWorld (die : Die) (tail : Word) (l : List (Nat × Word) := []) : State :=
  put { State.reset with mem := tables, dies := [(0, die)] } ((0x100140, 0x50000) :: (0x100150, tail <<< 32) :: (0x100160, 1) :: (0x100168, 2) :: l)

/-- Slot 0 with its queue, as `cpDie` maps it. -/
def slot0 (recs : List Rec := []) : QSlot := { q := 5, at_ := 0, head := 0, recs := recs, kind := if recs.any (·.waits) then 1 else 0 }

/-- The conditions of `CpQuiet`, evaluated on die 0. -/
def quietNow (s : State) : Bool :=
  decide ((s.die 0).state = 3 ∧ bits (s.reg 0 0xD08) 12 44 = 0 ∧ s.kinds 0 = s) && (s.die 0).qslots.all fun e => e.2.recs.all fun r => decide (r.done = 0)

theorem quiet_of {s : State} (h : quietNow s = true) : CpQuiet s 0 := by
  simp only [quietNow, Bool.and_eq_true, decide_eq_true_eq, List.all_eq_true] at h
  exact ⟨by decide, h.1.1, h.1.2.1, h.1.2.2, h.2⟩

/-- The record that the command processor reads. -/
def recordRead (s : State) (q : QSlot) : Res (List Word) :=
  s.readWords (cpWho 0 (s.qctx 0 q.q)) kLoad (s.recAddr 0 q.q q.head) 8

/-- The state in which the record is accepted. -/
def accepting (s : State) (q : QSlot) : State := ((after (recordRead s q)).takePend 0 q.q).2

/-- The conditions of `NextRecord`, evaluated on slot 0 of die 0. -/
def nextNow (s : State) (q : QSlot) (ws : List Word) : Bool :=
  quietNow s && fine (recordRead s q) && decide (answer (recordRead s q) [] = ws) &&
    (decide (s.qslot 0 0 = some q) && s.cqOn 0 && !q.bad && q.leaving.isNone && !s.flushing 0 q.q && !s.qdescBad 0 q.q && s.ringCap 0 q.q &&
      decide (s.qtail 0 q.q ≠ q.head ∧ (q.q, q.head) ∉ (s.die 0).early)) &&
    (!recBad ws && (s.context 0 (s.qctx 0 q.q)).isSome && ((accepting s q).capFault 0 ((accepting s q).qctx 0 q.q) (recNeeds ws)).isNone &&
      decide ((accepting s q).qslot 0 0 = some q) && decide (bits ((accepting s q).reg 0 0xD08) 12 44 = 0)) && q.recs.all fun r => r.started

theorem next_of {s : State} {q : QSlot} {ws : List Word} (h : nextNow s q ws = true) : NextRecord s 0 0 q ws (accepting s q) := by
  simp only [nextNow, Bool.and_eq_true, decide_eq_true_eq, List.all_eq_true, Bool.not_eq_true', Option.isNone_iff_eq_none] at h
  obtain ⟨⟨⟨⟨⟨h0, h1⟩, h2⟩, ⟨⟨⟨⟨⟨⟨h3, h4⟩, h5⟩, h6⟩, h7⟩, h8⟩, hr⟩, h9, he⟩, ⟨⟨⟨h10, h11⟩, h12⟩, h13⟩, h14⟩, h15⟩ := h
  exact { quiet_of h0 with
    slot := h3, low := by decide, on := h4, whole := h5, stays := h6, free := h7, begun := h15, clean := h8, ring := hr, more := h9, early := he
    read := ⟨_, by rw [← h2]; exact ok_answer (r := recordRead s q) h1, rfl⟩
    good := h10, ctx := h11, caps := h12, keeps := h13, quiet := h14 }

theorem witness_wake : ∃ s : State, (s.die 0).state = 3 ∧ 5 ∉ (s.die 0).broken ∧ s.qdescCut 0 5 = false ∧ 5 ∈ (s.die 0).bound ∧ ∀ e ∈ (s.die 0).qslots, e.2.q ≠ 5 :=
  ⟨cpWorld { cpDie with qslots := [] } 1, by decide +kernel⟩

theorem witness_map : CpQuiet (cpWorld { cpDie with remap := [5], qslots := [] } 1) 0 ∧
    ((cpWorld { cpDie with remap := [5], qslots := [] } 1).cqOn 0 &&
      !(cpWorld { cpDie with remap := [5], qslots := [] } 1).qdescBad 0 5) = true ∧
    (cpWorld { cpDie with remap := [5], qslots := [] } 1).qslot 0 0 = none :=
  ⟨quiet_of (by decide +kernel), by decide +kernel⟩

theorem witness_unmap : ∀ p ∈ [0, 1], CpQuiet (cpWorld cpDie 0 [(0x100158, p)]) 0 ∧ (cpWorld cpDie 0 [(0x100158, p)]).qslot 0 0 = some slot0 ∧
    slot0.bad = false ∧ slot0.leaving = none ∧ (cpWorld cpDie 0 [(0x100158, p)]).qdescBad 0 5 = false ∧
    (cpWorld cpDie 0 [(0x100158, p)]).qtail 0 5 = 0 ∧ ((cpWorld cpDie 0 [(0x100158, p)]).qdesc 0 5 3).getLsbD 0 = (p == 1) := by
  intro p hp
  simp only [List.mem_cons, List.not_mem_nil, or_false] at hp
  rcases hp with rfl | rfl <;> exact ⟨quiet_of (by decide +kernel), by decide +kernel⟩

/-- A die whose queue has begun to leave slot 0, on its own or for queue 7. -/
def leavingDie (p : Option Nat) : Die :=
  { cpDie with qslots := [(0, { slot0 with leaving := some p })], remap := [7] }

theorem witness_leaves : ∀ p ∈ [none, some 7], ∀ w ∈ [0, 1, 0x100000000], CpQuiet (cpWorld (leavingDie p) 0 [(0x100158, w)]) 0 ∧
    (cpWorld (leavingDie p) 0 [(0x100158, w)]).qslot 0 0 = some { slot0 with leaving := some p } ∧ 5 ∉ (leavingDie p).remap ∧ 7 ∈ (leavingDie p).remap ∧
    (cpWorld (leavingDie p) 0 [(0x100158, w)]).qdescBad 0 5 = false ∧
    (cpWorld (leavingDie p) 0 [(0x100158, w)]).qdescBad 0 7 = false ∧
    (cpWorld (leavingDie p) 0 [(0x100158, w)]).qdesc 0 5 3 = w := by
  intro p hp w hw
  simp only [List.mem_cons, List.not_mem_nil, or_false] at hp hw
  rcases hp with rfl | rfl <;> rcases hw with rfl | rfl | rfl <;> exact ⟨quiet_of (by decide +kernel), by decide +kernel⟩

/-- Every slot of a die holds a queue, the one in slot 0 for longest. -/
def full128 : Die :=
  { cpDie with remap := [7], qslots := (upFrom 0 128).map fun n => (n, { q := if n = 0 then 5 else n + 100, at_ := n, head := 0 }) }

theorem witness_forced_unmap :
    CpQuiet { cpWorld full128 0 with time := 100000000 } 0 ∧ ({ cpWorld full128 0 with time := 100000000 } : State).cqOn 0 = true ∧
    (upFrom 0 128).all (fun n => (full128.qslots.find? fun e => e.1 == n).isSome) = true ∧
    full128.qslots.all (fun e => (e == (0, slot0) || decide (0 < e.2.at_)) && e.2.leaving.isNone) = true ∧ slot0.eligible = true ∧
    ({ cpWorld full128 0 with time := 100000000 } : State).qdescBad 0 5 = false ∧
    0 + max 1 ((({ cpWorld full128 0 with time := 100000000 } : State).reg 0 0x308).toNat / 2 ^ 16 % 2 ^ 16) * 1000 * 65536 ≤ 100000000 :=
  ⟨quiet_of (by decide +kernel), by decide +kernel⟩

/-- A Nop record. -/
def nop8 : List Word := [6, 0, 0, 0, 0, 0, 0, 0]

/-- The status of a Nop record that retires. -/
def nopOut : Res Unit :=
  ((accepting (cpWorld cpDie 1 [(0x50000, 6)]) slot0).onQslot 0 0 fun y => { y with head := (y.head + 1) % 2 ^ 32 }).statusOut 0 5 0 nop8 1

theorem witness_nop : NextRecord (cpWorld cpDie 1 [(0x50000, 6)]) 0 0 slot0 nop8 (accepting (cpWorld cpDie 1 [(0x50000, 6)]) slot0) ∧
    startWhy nop8 [] [] = none ∧ nopOut = .ok () (after nopOut) ∧ (after nopOut).qslot 0 0 = some { slot0 with head := 1 } ∧
    bits ((after nopOut).reg 0 0xD08) 12 44 = 0 :=
  ⟨next_of (by decide +kernel), by decide +kernel, ok_after (by decide +kernel), by decide +kernel⟩

/-- A Wait record for the word at 0x8000 to equal 1, a Signal record for it, and a Boundary record. -/
def wait8 : List Word := [2, 0x8000, 1, 0, 0, 0, 0, 0]
def signal8 : List Word := [3, 0x8000, 1, 0, 0, 0, 0, 0]
def boundary8 : List Word := [4, 0xFFFF, 0, 0, 0, 0, 0, 0]

/-- The words of a record in the ring. -/
def ring (ws : List Word) : List (Nat × Word) := List.zip ((upFrom 0 8).map fun i => 0x50000 + 8 * i) ws

/-- The signal word of an accepted Wait record. -/
def waitRead : Res Word :=
  let s := (accepting (cpWorld cpDie 1 (ring wait8)) slot0).acceptRec 0 0 (startedRec slot0 wait8)
  s.readSig (cpWho 0 (s.qctx 0 5)) 0x8000

theorem witness_wait : NextRecord (cpWorld cpDie 1 (ring wait8)) 0 0 slot0 wait8 (accepting (cpWorld cpDie 1 (ring wait8)) slot0) ∧
    waitRead = .ok (answer waitRead 1) (after waitRead) ∧ condSig 0 (answer waitRead 1) 1 = false :=
  ⟨next_of (by decide +kernel), ok_answer (by decide +kernel), by decide +kernel⟩

/-- A Boundary record in flight. -/
def flying : Rec := { idx := 15, words := boundary8, started := true }

theorem witness_signal_behind : NextRecord (cpWorld (cpDie [flying]) 1 (ring signal8)) 0 0 (slot0 [flying]) signal8 (accepting (cpWorld (cpDie [flying]) 1 (ring signal8)) (slot0 [flying])) ∧
    startWhy signal8 [] [flying] = none ∧ recKind flying.words ≠ 3 := ⟨next_of (by decide +kernel), by decide +kernel⟩

/-- The update of the word that a Signal record names. -/
def signalDone : Res Nat :=
  let s := accepting (cpWorld cpDie 1 (ring signal8)) slot0
  (s.acceptRec 0 0 (startedRec slot0 signal8)).rmw (cpWho 0 (s.qctx 0 5)) 0x8000 8 false fun n => (opSig 0 (BitVec.ofNat 64 n) 1).toNat

theorem witness_signal_first : NextRecord (cpWorld cpDie 1 (ring signal8)) 0 0 slot0 signal8 (accepting (cpWorld cpDie 1 (ring signal8)) slot0) ∧
    signalDone = .ok (answer signalDone 0) (after signalDone) ∧ bits (((after signalDone).retireRec 0 0 0 1).reg 0 0xD08) 12 44 = 0 :=
  ⟨next_of (by decide +kernel), ok_answer (by decide +kernel), by decide +kernel⟩

theorem witness_boundary : NextRecord (cpWorld cpDie 1 (ring boundary8)) 0 0 slot0 boundary8 (accepting (cpWorld cpDie 1 (ring boundary8)) slot0) ∧
    startWhy boundary8 [] [] = none ∧ ((accepting (cpWorld cpDie 1 (ring boundary8)) slot0).reg 0 0x228).getLsbD 1 = false :=
  ⟨next_of (by decide +kernel), by decide +kernel⟩

/-- A Wait record in flight. -/
def waitingRec : Rec := { idx := 0, words := wait8, started := true }

theorem witness_wait_ends : ∀ v ∈ [0, 1],
    let s := cpWorld (cpDie [waitingRec]) 1 [(0x8000, v)]
    CpQuiet s 0 ∧ s.qslot 0 0 = some (slot0 [waitingRec]) ∧ fine (s.readSig (cpWho 0 (s.qctx 0 5)) 0x8000) = true ∧
      answer (s.readSig (cpWho 0 (s.qctx 0 5)) 0x8000) 7 = v := by
  intro v hv
  simp only [List.mem_cons, List.not_mem_nil, or_false] at hv
  rcases hv with rfl | rfl <;> exact ⟨quiet_of (by decide +kernel), by decide +kernel⟩

/-- A Transfer record, and its descriptor at 0x60000: one block of 128 bytes between two lists (R161, R166, R316). -/
def transfer8 : List Word := [5, 0x60000, 0, 0, 0, 0, 0, 0]
def pages8 : List Word := [3, 0x61000, 0x62000, 0x100000080, 0x63000, 0x64000, 0, 0]

/-- The state of its acceptance, its descriptor read, and its work made. -/
def transferWorld : State := cpWorld cpDie 1 (ring transfer8 ++ List.zip ((upFrom 0 8).map fun i => 0x60000 + 8 * i) pages8)
def transferDesc : Res (List Word) :=
  (accepting transferWorld slot0).readWords (cpWho 0 ((accepting transferWorld slot0).qctx 0 5)) kLoad 0x60000 8
def transferWork : Res Work := (after transferDesc).workOf (cpWho 0 ((accepting transferWorld slot0).qctx 0 5)) 0x60000 pages8

theorem witness_transfer : NextRecord transferWorld 0 0 slot0 transfer8 (accepting transferWorld slot0) ∧
    recFootn transfer8 = 0 ∧ (0x60000 : Word).toNat % 64 = 0 ∧ offMemory 0x60000 64 = false ∧
    (accepting transferWorld slot0).capFault 0 ((accepting transferWorld slot0).qctx 0 5) [(0x60000, 64, false)] = none ∧
    fine transferDesc = true ∧ answer transferDesc [] = pages8 ∧ dKind pages8 = 3 ∧ descOk pages8 = true ∧
    (after transferDesc).capFault 0 ((accepting transferWorld slot0).qctx 0 5)
      [(wd pages8 1, 1, false), (wd pages8 2, 1, false), (wd pages8 4, 4 * dNblk pages8, false), (wd pages8 5, 4 * dNblk pages8, false)] = none ∧
    fine transferWork = true :=
  ⟨next_of (by decide +kernel), by decide +kernel⟩

/-- An engine whose first job has moved every block. -/
def movedDie : Die :=
  { cpDie with copies := [(4, { uid := 0, batch := 0, tile := 0, ctx := 1, eng := some 1, work := [], job := some (0, 0) })], engines := [(1, [4, 6])] }

theorem witness_transfer_end : CpQuiet (cpWorld movedDie 0) 0 ∧ Tab.getD ((cpWorld movedDie 0).die 0).engines 1 [] = [4, 6] ∧
    (Tab.find ((cpWorld movedDie 0).die 0).copies 4).map (·.work) = some [] ∧ ((cpWorld movedDie 0).die 0).acks = [] :=
  ⟨quiet_of (by decide +kernel), by decide +kernel⟩

/-- An Operator record, its launch record and its stage descriptor. -/
def operator8 : List Word := [1, 0x60000, 4, 0, 0, 0, 0, 0]
def launch8 : List Word := [0x24900000000, 0x61000, 0, 0, 0, 0, 0, 0]
def stage8 : List Word := [0x200, 0, 0x70000, 0x3000000000004, 0, 0, 0, 0]

/-- The die about to accept it, and its expansion. -/
def operatorWorld : State :=
  cpWorld cpDie 1 (ring operator8 ++ List.zip ((upFrom 0 8).map fun i => 0x60000 + 8 * i) launch8 ++ List.zip ((upFrom 0 8).map fun i => 0x61000 + 8 * i) stage8)
def expanded : Acc State := (accepting operatorWorld slot0).expand 0 0 slot0 operator8

/-- An acceptance goes on with its mirror off. -/
def goesOn (a : Acc State) : Bool := match a with
  | .ok s _ => decide (bits (s.reg 0 0xD08) 12 44 = 0)
  | _ => false

theorem goes_on {a : Acc State} (h : goesOn a = true) : ∃ s t, a = .ok s t ∧ bits (s.reg 0 0xD08) 12 44 = 0 := by
  cases a with
  | ok s t => exact ⟨s, t, rfl, by simpa [goesOn] using h⟩
  | _ => simp [goesOn] at h

theorem witness_operator : NextRecord operatorWorld 0 0 slot0 operator8 (accepting operatorWorld slot0) ∧
    ∃ s t, expanded = .ok s t ∧ bits (s.reg 0 0xD08) 12 44 = 0 := ⟨next_of (by decide +kernel), goes_on (by decide +kernel)⟩

/-- The accepted operator, in the shadow bank. -/
def shadow : Rec := { idx := 0, words := operator8, lr := launch8, desc := stage8 }

theorem witness_launch_begin : CpQuiet (cpWorld (cpDie [shadow]) 1) 0 ∧ (cpWorld (cpDie [shadow]) 1).qslot 0 0 = some (slot0 [shadow]) ∧
    (slot0 [shadow]).recs.find? (fun y => !y.started) = some shadow ∧ startWhy operator8 [] [] = none ∧ (launch8.getD 0 0).getLsbD 6 = false :=
  ⟨quiet_of (by decide +kernel), by decide +kernel⟩

/-- A launch of one index, created and ended, its frame returned. -/
def spent : Launch := { launch1 with begun := true, limit := 1, stages := [{ stage1 with desc := stage8, nextF := 1, freeF := [0] }] }

theorem witness_launch_retire : CpQuiet (cpWorld { cpDie with launches := [(1, spent)] } 0) 0 ∧ spent.begun = true ∧ spent.ending = none ∧
    (cpWorld { cpDie with launches := [(1, spent)] } 0).strandsDone 0 spent = true ∧ spent.initDone = true ∧
    (cpWorld { cpDie with launches := [(1, spent)] } 0).noneLeft 0 spent = true ∧
    (cpWorld { cpDie with launches := [(1, spent)] } 0).backWaits (spent.tiles.flatMap (cpWorld { cpDie with launches := [(1, spent)] } 0).l1s) [1, 2] = false :=
  ⟨quiet_of (by decide +kernel), rfl, rfl, by decide +kernel⟩

/-- A batched launch whose table of one slot stands at 0x60000, nothing active. -/
def batched (iter bwait : Bool) (seen : Option Word) : Launch :=
  { spent with batch := 0x60000, iter := iter, bwait := bwait, seen := seen }
def batchWorld (l : Launch) : State :=
  cpWorld { cpDie with launches := [(1, l)] } 0 [(0x60000, 8), (0x60008, 0x61000), (0x60018, 0x62000), (0x60020, 0x100000000), (0x60028, 0x64000)]
def batchRun (l : Launch) : Res (Nat × Word) := (batchWorld l).batchTable 0 l

theorem witness_batch : ∀ l ∈ [batched true false none, batched false true (some 0), batched false true (some 1)],
    fine (batchRun l) = true ∧ (after (batchRun l)).launch 0 1 = some l ∧ fine ((batchWorld l).batchWord 0 l 0) = true ∧
      fine ((after ((batchWorld l).batchWord 0 l 0)).batchWord 0 l 2) = true ∧ (batchWorld l).strandsDone 0 l = true := by
  intro l hl
  simp only [List.mem_cons, List.not_mem_nil, or_false] at hl
  rcases hl with rfl | rfl | rfl <;> exact by decide +kernel

/-- A die whose mailbox holds a command with three arguments, CMD at 0x500. -/
def mail (n : Nat) (cmd a b c : Word) (die : Die := cpDie) : State :=
  cpWorld { die with mbox := some n, regs := [(0x300, 0x100000), (0x308, 0x10001), (0x500, cmd), (0x508, a), (0x510, b), (0x518, c), (0x600, 0x1000), (0x608, 2)] } 0

theorem witness_grant : CpQuiet (mail 1 0 0x1000 0x2000 0x30001) 0 ∧ (mail 1 0 0x1000 0x2000 0x30001).mboxArg 0 2 = 0x30001 ∧
    (mail 1 0 0x1000 0x2000 0x30001).mboxArg 0 1 = 0x2000 ∧ ((mail 1 0 0x1000 0x2000 0x30001).context 0 1).isSome = true ∧
    (mail 1 0 0x1000 0 0x30001).mboxArg 0 1 = 0 ∧ CpQuiet (mail 1 0 0x1000 0 0x30001) 0 :=
  ⟨quiet_of (by decide +kernel), by decide +kernel, by decide +kernel, by decide +kernel, by decide +kernel, quiet_of (by decide +kernel)⟩

theorem witness_bind : CpQuiet (mail 2 0x702 0x58000 0x10 1) 0 ∧ ((mail 2 0x702 0x58000 0x10 1).reg 0 0x500).toNat / 2 ^ 8 % 2 ^ 12 = 7 ∧
    7 ∉ ((mail 2 0x702 0x58000 0x10 1).die 0).bound ∧ only ((mail 2 0x702 0x58000 0x10 1).mboxArg 0 1) 0x33F = true ∧
    ((mail 2 0x702 0x58000 0x10 1).context 0 1).isSome = true ∧ ((mail 2 0x702 0x58000 0x10 1).die 0).qslots.all (fun e => e.2.q != 7) = true ∧
    (mail 2 0x702 0x58000 0x10 1).qdescCut 0 7 = false ∧ (mail 2 0x702 0x58000 0x10 1).portsDown = [] ∧ ((mail 2 0x702 0x58000 0x10 1).die 0).pri = [] :=
  ⟨quiet_of (by decide +kernel), by decide +kernel⟩

theorem witness_revoke_unbind : CpQuiet (mail 3 3 1 0 0) 0 ∧ (Tab.find ((mail 3 3 1 0 0).die 0).caps 1).isSome = true ∧
    CpQuiet (mail 4 0x504 0 0 0) 0 ∧ ((mail 4 0x504 0 0 0).reg 0 0x500).toNat / 2 ^ 8 % 2 ^ 12 = 5 ∧ 5 ∈ ((mail 4 0x504 0 0 0).die 0).bound ∧
    (mail 4 0x504 0 0 0).qdescCut 0 5 = false :=
  ⟨quiet_of (by decide +kernel), by decide +kernel, quiet_of (by decide +kernel), by decide +kernel⟩

theorem witness_flush : ∀ r ∈ [flying, shadow],
    CpQuiet (cpWorld { cpDie [r] with ctrl := some (5, 1) } 1) 0 ∧ (cpWorld { cpDie [r] with ctrl := some (5, 1) } 1).slotOfQueue 0 5 = some 0 ∧
    (cpWorld { cpDie [r] with ctrl := some (5, 1) } 1).qslot 0 0 = some (slot0 [r]) ∧
    (cpWorld { cpDie [r] with ctrl := some (5, 1) } 1).qdescBad 0 5 = false := by
  intro r hr
  simp only [List.mem_cons, List.not_mem_nil, or_false] at hr
  rcases hr with rfl | rfl <;> exact ⟨quiet_of (by decide +kernel), by decide +kernel⟩

/-- A flush of a queue that is not mapped. -/
def flushed : State := cpWorld { cpDie with qslots := [], ctrl := some (5, 0) } 0

theorem witness_flush_done : CpQuiet flushed 0 ∧ flushed.slotOfQueue 0 5 = none ∧ (flushed.qdesc 0 5 2).toNat % 2 ^ 32 = 0 ∧
    flushed.qdescBad 0 5 = false ∧ 5 ∉ (flushed.die 0).broken ∧
    CpQuiet (cpWorld cpDie 0) 0 ∧ ((cpWorld cpDie 0).reg 0 0xD18).getLsbD 0 = false :=
  ⟨quiet_of (by decide +kernel), by decide +kernel, by decide +kernel, by decide +kernel, by decide +kernel, quiet_of (by decide +kernel), by decide +kernel⟩

/-- A queue that waits since 0 under a limit of 1 µs. -/
def barking (t : Nat) : State :=
  { cpWorld { cpDie with regs := [(0x300, 0x100000), (0x308, 0x10001), (0x600, 0x1000), (0x608, 2), (0xD00, 1)], qslots := [(0, { slot0 [waitingRec] with kind := 1 })] } 1 with time := t }

theorem witness_watchdog : ∀ t ∈ [1000 * 65536, 1001 * 65536], CpQuiet (barking t) 0 ∧ (barking t).qslot 0 0 = some { slot0 [waitingRec] with kind := 1 } ∧
    ((barking t).reg 0 0xD00).toNat % 2 ^ 32 = 1 ∧ (1000 < (barking t).ns 0 ∨ (barking t).ns 0 ≤ 1000) := by
  intro t ht
  simp only [List.mem_cons, List.not_mem_nil, or_false] at ht
  rcases ht with rfl | rfl <;> exact ⟨quiet_of (by decide +kernel), by decide +kernel⟩

/-! ### Translation, edges, resets and housekeeping: witnesses -/

/-- Die 0 runs, with these registers. -/
def regs0 (l : List (Nat × Word)) (die : Die := {}) : State := { State.reset with dies := [(0, { die with state := 3, regs := l })] }

theorem witness_invalidation : ∀ v : Word, v = 0 ∨ v = 2 → ((regs0 [(0x618, v)]).die 0).state = 3 ∧
    ((regs0 [(0x618, v)]).reg 0 0x618).getLsbD 1 = v.getLsbD 1 ∧ ((regs0 [] { inv := some (0x1000, v) }).die 0).inv = some (0x1000, v) := by
  rintro v (rfl | rfl) <;> exact by decide +kernel

/-- A copy of blocks of the tensor whose record lies at 0x5000, of context 3. -/
def tensorCopy : Copy :=
  { uid := 1, batch := 0, tile := 0, ctx := 3, work := [.pages [] none (some ⟨0x5000, .hbm 0 0x5000, 0, 0, 0, 0, [], 0, 0, 0⟩) none] }

theorem witness_invalidation_waits : tensorCopy.uses 0x5000 0x100030000 = true ∧ tensorCopy.uses 0x6000 0x100030000 = false ∧ tensorCopy.uses 0 0x30000 = true ∧
    tensorCopy.uses 0 0x40000 = false := by decide +kernel

/-- A page request, answered or not. -/
def ask (a : Option Nat) : Pri := { grp := 3, gen := 0, ctx := 1, slot := 9, page := 5, at_ := 0, ans := a }

theorem witness_page_answer : NoneStops (regs0 [] { pri := [ask none] }) 0 ∧
    (((regs0 [] { pri := [ask none] }).die 0).pri.find? fun p => p.grp == 3 && p.gen == 0 && p.ans.isNone) = some (ask none) ∧
    ∀ p ∈ ((regs0 [] { pri := [ask (some 1)] }).die 0).pri, p.grp = 3 → p.gen = 0 → p.ans.isSome = true := by
  refine ⟨?_, by decide +kernel⟩
  intro e h; exact nomatch h

theorem witness_page_timeout : ∀ t ∈ [65536000000, 65535999999],
    let s : State := { regs0 [(0x630, 1)] { pri := [ask none] } with time := t }
    (s.die 0).pri[0]? = some (ask none) ∧ (s.reg 0 0x630).toNat % 2 ^ 16 = 1 ∧
      ((ask none).at_ + 1 * 1000000 * 65536 ≤ s.time ∨ s.time < (ask none).at_ + 1 * 1000000 * 65536) := by decide +kernel

/-- The sweep registers: 4096 bytes from 0x1000 of the die's own memory, of die 1, and with BUSY. -/
theorem witness_sweep : ∀ v : Word, v = 0 ∨ v = 0x40 ∨ v = 2 →
    ((regs0 [(0x100, 0x1000), (0x108, 1), (0x110, v)]).reg 0 0x110).getLsbD 1 = v.getLsbD 1 ∧
    ((regs0 [(0x100, 0x1000), (0x108, 1), (0x110, v)]).reg 0 0x110).toNat / 64 % 4 = v.toNat / 64 ∧
    ((regs0 [(0x100, 0x1000), (0x108, 1), (0x110, v)]).reg 0 0x100).toNat / 4096 % 2 ^ 40 = 1 ∧
    ((regs0 [(0x100, 0x1000), (0x108, 1), (0x110, v)]).reg 0 0x108).toNat % 2 ^ 32 = 1 := by
  rintro v (rfl | rfl | rfl) <;> exact by decide +kernel

theorem witness_boundary_event : ∀ v : Word, v = 0 ∨ v = 2 → CpQuiet (regs0 [(0x228, v)] { govIn := [0, 0, 0] }) 0 ∧
    (((regs0 [(0x228, v)] { govIn := [0, 0, 0] }).die 0).govIn.getD 2 0).toNat % 2 ^ 17 = 0 ∧
    ((regs0 [(0x228, v)] { govIn := [0, 0, 0] }).reg 0 0x220).toNat / 8 % 2 ^ 53 = 0 ∧ ((regs0 [(0x228, v)] { govIn := [0, 0, 0] }).die 0).gov = none := by
  rintro v (rfl | rfl) <;> exact ⟨quiet_of (by decide +kernel), by decide +kernel⟩

/-- Two rows of a boundary that ask for a footprint of 4 quarters. -/
def row4 : Row := { rec_ := ⟨0, .hbm 0 0, 0, 0, 0, 0, [], 0, 0, 0⟩, ov := 0, am := 0, t2 := 0, f2 := 0, code := 0, extra := some 4 }

/-- The rows of tensors 0 and 1. -/
def asking : List (Nat × Row) := [(0, row4), (128, row4)]

theorem witness_grants : (asking.map (·.1)).Nodup ∧ grants asking 8 false = [0, 128] ∧ grants asking 7 false = [0] := by decide +kernel

/-- Port 0 holds the semaphore; edge 0 at 32 GT/s or lower. -/
def owned (o : BitVec 2) (x : Edge := {}) : State :=
  { regs0 [] with semOwner := o, semLease := 10, edges := [(0, x)] }

theorem witness_rate_write : ∀ o ∈ ([0, 1, 2] : List (BitVec 2)), 0 ∈ edgeDies 0 ∧ 0 ∉ (owned o).portsDown ∧ (owned o).portSees 0 0 = true ∧ ((owned o).half (portDie 0)).contains 0 = true ∧
    ((owned o).die 0).state = 3 ∧ ((owned o).semOwner = 0 ∨ (owned o).time < (owned o).semLease) ∧ 0x40 / 16 % 8 ≤ 4 ∧
    0x40 / 16 % 8 ≠ ((owned o).edge 0).tgt.toNat ∧ ((owned o).edge 0).down = false ∧ (owned o).hostWaits 0 (0 :: edgeDies 0) = false := by decide +kernel

theorem witness_training : (owned 1 { train := some 4, why := 2 }).edge 0 = { train := some 4, why := 2 } ∧ (4 : BitVec 3) ≠ 0 ∧
    ((owned 1 { auto := true, cur := 4, up := true, fbthr := 1, recent := [0, 0] }).edge 0).fbthr.toNat <
      (((owned 1 { auto := true, cur := 4, up := true, fbthr := 1, recent := [0, 0] }).edge 0).recent.filter fun n => (owned 1).time < n + 65536000000).length ∧
    ((owned 1 { auto := false }).edge 0).auto = false ∧ ((owned 1 { cur := 4 }).edge 0).train = none ∧
    ((owned 1 { train := some 4 }).edge 0).why = 0 ∧ ((owned 1 { train := some 0, fails := 1 }).edge 0).fails + 1 < 3 := by decide +kernel

theorem witness_edge_errors : ((owned 1 { up := true }).edge 0).up = true ∧ ((owned 1 { mods := 2 }).edge 0).mods.toNat / 4 ^ 0 % 4 < 3 ∧
    ((owned 1 { mods := 2 }).edge 0).mods.toNat + 4 ^ 0 ≠ 2 ^ 24 - 1 ∧ ((owned 1 { down := true }).edge 0).down = true ∧
    ((owned 1 { up := true }).edge 0).down = false ∧ ((owned 1 { mods := 0x800000 }).edge 0).mods.toNat / 4 ^ 11 % 4 < 3 := by decide +kernel

/-- Edge 0 lost at time 0, 100 µs ago, with a store of die 0 homed on die 1 outstanding since. -/
def lost0 : State :=
  { owned 0 { down := true, downAt := some 0 } with time := 6553600000, dies := [(0, { acks := [(1, { ack1 with home := 1, at_ := 0 })] })] }

theorem witness_reroute : (lost0.edge 0).downAt = some 0 ∧ 0 + 6553600000 ≤ lost0.time ∧ UsedAt lost0 0 1 0 0 ∧
    (∀ k st, lost0.strand k = some st → st.lq = []) ∧ Tab.find (lost0.die 0).acks 1 = some { ack1 with home := 1, at_ := 0 } :=
  ⟨by decide, by decide, ⟨wayRound 0 1 true, rfl, by decide⟩, (fun _ _ h => nomatch h), by decide⟩

/-- The route from die 2 to die 3 uses edge 2 alone, so the loss of edge 0 leaves it. -/
theorem witness_reroute_apart : ∀ e, e < 4 → ∀ n, (lost0.edge e).downAt = some n → n + 6553600000 ≤ lost0.time → ¬ UsedAt lost0 2 3 e n ∧ ¬ UsedAt lost0 3 2 e n := by
  have h : ∀ e, e < 4 → e ≠ 0 → (lost0.edge e).downAt = none := by decide
  intro e he n hn _
  by_cases h0 : e = 0
  · subst h0
    have h0 : (lost0.edge 0).downAt = some 0 := by decide
    have hn0 : n = 0 := Option.some.inj (hn.symm.trans h0)
    subst hn0
    constructor <;> (rintro ⟨l, hl, hm⟩; revert hm; obtain rfl := Option.some.inj hl; decide)
  · rw [h e he h0] at hn; cases hn

/-- HDM decoder 0 of die 0 maps 256 MiB from host address 0 to die 0. -/
def decoding : State := regs0 [(0x800, 1), (0x808, 0x10000000000)]

/-- Decoder 0 maps to die 1 over edge 0, which retrains. -/
def retraining : State :=
  { regs0 [(0x800, 1), (0x808, 0x10000000000 + 0x4000000000)] with edges := [(0, { train := some 4, why := 2, cur := 4 })] }

theorem witness_host_read : ∀ l ∈ [[], [(Loc.hbm 0 0x0FFFFF80).line]], let s : State := { decoding with poison := l }
    s.hdmTarget 0 0x0FFFFF80 = some (0, 0x0FFFFF80) ∧ 0 ∉ s.portsDown ∧ (s.die (portDie 0)).state = 3 ∧ s.canReach (portDie 0) 0 = true ∧
    0x0FFFFF80 % 128 + 128 ≤ 128 ∧ s.hostWaits 0 (s.hdmDies 0 0x0FFFFF80 128) = false ∧ s.hostL = [] := by decide +kernel

theorem witness_host_waits : retraining.hostWaits 0 (retraining.hdmDies 0 0x80 4) = true := by decide +kernel

theorem witness_host_write_bytes : ∀ i, i < 2 → decoding.hdmTarget 0 (0x0FFFFF80 + i) = some (0, 0x0FFFFF80 + i) := by decide +kernel

theorem witness_host_write : decoding.hdmTarget 0 0x0FFFFF80 = some (0, 0x0FFFFF80) ∧ 0 ∉ decoding.portsDown ∧ (decoding.die (portDie 0)).state = 3 ∧
    decoding.canReach (portDie 0) 0 = true ∧ 0x0FFFFF80 + (([1, 2, 3] : List (BitVec 8)).take 2).length ≤ 0x3000000000 := by decide +kernel

theorem witness_fabric_port : ((regs0 [(0x910, 15)]).reg 0 (0x908 + 8 * 1)).getLsbD 0 = true ∧
    (∀ p, p < 4 → ((regs0 []).reg 0 (0x908 + 8 * p)).getLsbD 0 = false) ∧ ∀ x ∈ ((regs0 []).die 0).acks, x.2.pkg = false := by
  refine ⟨by decide +kernel, by decide +kernel, ?_⟩
  intro x h; exact nomatch h

theorem witness_host_port : 0 ∉ decoding.portsDown ∧ 0 ∈ ({ decoding with portsDown := [0] } : State).portsDown := by decide

theorem witness_semaphore : ∀ o ∈ ([0, 1, 2] : List (BitVec 2)), ((owned o).hostWaits 0 [0, 0] = false ∧ (owned o).hostWaits 0 [0] = false ∧ 0 ∉ (owned o).portsDown ∧ (owned o).portSees 0 0 = true ∧
    ((owned o).semOwner = 0 ∨ (owned o).time < (owned o).semLease)) ∧ (o ≠ 0 → ({ owned o with time := 10 } : State).semLease = 10) := by decide +kernel

theorem witness_holds : Holds (owned 1) 0 0 := by constructor <;> decide +kernel

theorem witness_restful : Restful (owned 1) 0 := by
  constructor <;> first | decide +kernel | exact fun _ h => nomatch h

theorem witness_thermal : Restful { owned 1 with dies := [(0, { state := 5 })] } 0 ∧
    (({ owned 1 with dies := [(0, { state := 5 })] } : State).die 0).state = 5 ∧ ((owned 1).die 0).state ≠ 5 := by
  refine ⟨?_, by decide +kernel⟩
  constructor <;> first | decide +kernel | exact fun _ h => nomatch h

theorem witness_boot : ∀ n ∈ [0, 1, 2, 3], (({ State.reset with dies := [(0, { state := n })] } : State).die 0).state = n ∧
    (({ State.reset with dies := [(0, { state := n })] } : State).die 0).quiesce = none := by decide

theorem witness_image : imageOk ((owned 1).peek (.host 0 0) ((owned 1).peekNat (.host 0 0) 4)) = false ∧
    (owned 1).poisoned (Loc.host 0 0).key ((owned 1).peekNat (.host 0 0) 4) = false := by decide +kernel

/-- A nonce of 32 bytes. -/
def nonce : List Byte := (upFrom 0 32).map fun i => BitVec.ofNat 8 i

theorem witness_attestation : ∀ v : Word, v = 0 ∨ v = 2 → ((regs0 [(0xE40, v)] { att := some nonce }).die 0).state = 3 ∧
    ((regs0 [(0xE40, v)] { att := some nonce }).reg 0 0xE40).getLsbD 1 = v.getLsbD 1 ∧ nonce.length = 32 ∧
    ((regs0 [(0xE40, v)] { att := some nonce }).die 0).att = some nonce := by
  rintro v (rfl | rfl) <;> exact by decide +kernel

theorem witness_time : ((regs0 []).die 0).state = 3 ∧ ((regs0 []).half 0).contains 3 = true ∧
    (({ regs0 [] with edges := [(0, { down := true }), (3, { down := true })] } : State).half 0).contains 3 = false := by decide +kernel

theorem witness_throttle : (regs0 [(0xF40, 0xFF00)]).overLimit 0 = false ∧ (regs0 [(0xF40, 0x1D4D00000000)]).overLimit 0 = true := by decide +kernel

theorem witness_patrol : ∀ l ∈ [([], []), ([2], []), ([2], [2])],
    let s : State := { State.reset with poison := l.1, told := l.2 }
    (Loc.hbm 0 256).line = 2 ∧ ((s.poisoned (2 * 128) 128 = false ∨ 2 ∈ s.told) ∨ (s.poisoned (2 * 128) 128 = true ∧ 2 ∉ s.told)) ∧
      s.poisoned (2 * 128) 128 = !l.1.isEmpty := by decide +kernel

theorem witness_error_log : ((regs0 [(0xC10, 1)]).reg 0 0xC10).getLsbD 0 = true ∧ ((regs0 []).reg 0 0xC10).getLsbD 0 = false ∧
    0x5FFFFFFF * 128 < 0x3000000000 := by decide +kernel

theorem witness_register_write : (regs0 []).portSees 0 0 = true ∧ ({ regs0 [] with portsDown := [0] } : State).portSees 0 0 = false ∧
    0x300 ∉ ((regs0 []).die 0).locked ∧ 0x300 ∈ ((regs0 [] { locked := [0x300] }).die 0).locked ∧
    (State.reset.die 0).state ≠ 3 ∧ (State.reset.die 0).state ≠ 4 ∧ (regs0 []).hostWaits 0 [0] = false ∧ (regs0 []).packageWide 0 0x200 1 = false := by
  decide +kernel

theorem witness_denied_write : let s : State := { regs0 [] with edges := [(0, { down := true }), (3, { down := true })] }
    1 ∉ s.portsDown ∧ (s.half (portDie 1)).contains 0 = false ∧ s.packageWide 3 0xE08 1 = true := by decide +kernel

/-! ### The whole machine: witnesses -/

/-- A word decodes to an instruction of so many bytes, evaluated. -/
def reads (w v : Word) (e : Instr × Nat) : Bool := match decodeWords w v with
  | .ok x => decide (x = e)
  | .error _ => false

theorem reads_of {w v : Word} {e : Instr × Nat} (h : reads w v e = true) : decodeWords w v = .ok e := by
  unfold reads at h; split at h
  · rename_i x hx; rw [hx, of_decide_eq_true h]
  · simp at h

/-- A strand at 16 that its front end looks at next. -/
def turning : State := { world fresh with agenda := [0, 5] }

theorem witness_step_fetches : turning.agenda = 0 :: [5] ∧ turning.strand 0 = some fresh ∧ fresh.stop = none ∧ fresh.disp = none ∧
    fresh.want = false ∧ fresh.hold = .run ∧
    ({ turning with agenda := [5] } : State).fetchInstr 0 fresh = .ok (.inl (.add (rf 0 0 0))) (after (({ turning with agenda := [5] } : State).fetchInstr 0 fresh)) ∧
    (∃ u, fresh.place (.add (rf 0 0 0)) = some u ∧ u.tooLate (.add (rf 0 0 0)) = none) ∧ (∀ c, ∀ w ∈ fresh.queue c, w.seq < fresh.seq) ∧ fresh.queue (insCls (.add (rf 0 0 0))) = [] := by
  refine ⟨rfl, rfl, rfl, rfl, rfl, rfl, ?_, ⟨_, rfl, by decide +kernel⟩, ?_, rfl⟩
  · have h : fine (({ turning with agenda := [5] } : State).fetchInstr 0 fresh) = true := by decide +kernel
    have h2 : answer (({ turning with agenda := [5] } : State).fetchInstr 0 fresh) (.inl .align) = .inl (.add (rf 0 0 0)) := by decide +kernel
    rw [← h2]; exact ok_answer h
  · intro c w h; exact nomatch h

theorem witness_step_runs_the_head : ({ ready (.add (rf 3 1 2)) with agenda := [768, 0] } : State).agenda = (768 * (0 + 1) + 0) :: [0] ∧
    (lone (.add (rf 3 1 2))).queue 0 = [word (.add (rf 3 1 2))] := by decide +kernel

/-- A strand at 16, where an `li` with its extension word stands. -/
def literal : State :=
  { world fresh with
    mem := (wordBytes [0xE2468ACF13578000, 0x000001702000DEF0]).zipIdx.map (fun e => (16 + e.2, e.1)) ++ tables }

/-- Its two words. -/
def firstWord : Res (List Byte) := literal.readVa (literal.whoOf 0 fresh) kFetch 16 8
/-- The second. -/
def secondWord : Res (List Byte) := (after firstWord).readVa ((after firstWord).whoOf 0 fresh) kFetch 24 8

theorem witness_fetch : firstWord = .ok (answer firstWord []) (after firstWord) ∧ secondWord = .ok (answer secondWord []) (after secondWord) ∧
    offMemory 16 8 = false ∧ offMemory 24 8 = false ∧ clsOf (BitVec.ofNat 64 (leNat (answer firstWord []))) = 7 ∧
    decodeWords (BitVec.ofNat 64 (leNat (answer firstWord []))) (BitVec.ofNat 64 (leNat (answer secondWord []))) =
      .ok (.li ⟨plain, 1, 0, 0xDEF0, some 0x123456789ABC⟩, 16) :=
  ⟨ok_answer (by decide +kernel), ok_answer (by decide +kernel), by decide +kernel, by decide +kernel, by decide +kernel, reads_of (by decide +kernel)⟩

/-- The bytes of a word without an extension word. -/
def plainWord : Res (List Byte) := (world fresh).readVa ((world fresh).whoOf 0 fresh) kFetch 16 8

theorem witness_plain_fetch : plainWord = .ok (answer plainWord []) (after plainWord) ∧
    clsOf (BitVec.ofNat 64 (leNat (answer plainWord []))) ≠ 7 ∧
    decodeWords (BitVec.ofNat 64 (leNat (answer plainWord []))) 0 = .ok (.add (rf 0 0 0), 8) :=
  ⟨ok_answer (by decide +kernel), by decide +kernel, reads_of (by decide +kernel)⟩

/-- A step answers a next state, evaluated. -/
def stepGoes (o : Host.Outcome State Fault Refusal) : Bool := match o with
  | .next _ => true
  | _ => false

theorem witness_step : (State.reset.withFetchWord 64 0x0008010000000000).Inv ∧
    stepGoes (step (State.reset.withFetchWord 64 0x0008010000000000)) = true := by
  exact ⟨⟨by decide +kernel⟩, by decide +kernel⟩

theorem witness_round_trips : (Instr.addi (if_ 1 2 3)).cell.isSome = true ∧ (Instr.addi (if_ 1 2 3)).wf = true ∧
    (∃ i w, decodeUop w = some i ∧ i.illegal = none ∧ encodeUop i = some w) := by
  refine ⟨by decide, by decide, ?_⟩
  refine ⟨(decodeUop 0).getD .align, 0, ?_, ?_, ?_⟩ <;> decide +kernel

theorem witness_cells : decodeWords 0x8000000000000033 0 = .ok (.exp2 (rf 0 0 0 0x33), 8) ∧
    decodeWords 0x6000004001828040 0 = .ok (.mmul (rf 0 6 5 0x40), 8) ∧ functionRow 0 (rf 0 0 0 0x33) = some (.exp2 (rf 0 0 0 0x33)) ∧
    (Instr.exp2 (rf 0 0 0 0x33)).wf = true ∧ matrixRow 4 (rf 0 6 5 0x40) (if_ 0 0 0) = some (.mmul (rf 0 6 5 0x40)) ∧
    (Instr.mmul (rf 0 6 5 0x40)).wf = true ∧ syncRow 1 (if_ 0 0 0x1008) = some (.barInit (if_ 0 0 0x1008)) ∧
    (Instr.barInit (if_ 0 0 0x1008)).wf = true :=
  ⟨reads_of (by decide +kernel), reads_of (by decide +kernel), by decide +kernel⟩

/-- The last unit of each kind that an event names. -/
theorem witness_present : OfPresentUnit (.dispatchWord 767) ∧ OfPresentUnit (.arrayGrant 95) ∧ OfPresentUnit (.queueMap 3) ∧
    OfPresentUnit (.moduleWidthHalving 3 11) ∧ OfPresentUnit (.cqWakeWrite 3 4095 0) ∧ OfPresentUnit (.hostPortDown 1) ∧
    OfPresentUnit .packageReset := by
  simp [OfPresentUnit]

theorem witness_absent : OfAbsentUnit (.iterationBoundary 4) := Or.inr (Or.inr (Or.inl ⟨4, 0, 0, by decide, by simp⟩))

/-! ### The worked examples of the spec -/

/-- R181: bits 12:4 of 0xB6D3 are 0x16D. -/
theorem test_bfx : opBfx 0xB6D3 4 9 false = 0x16D := by decide

/-- R115: the funnel shift of {1, 2^63} by 63 is 3, and by 0 its low half. -/
theorem test_fsh : opFsh 1 0x8000000000000000 63 = 3 ∧ opFsh 1 5 0 = 5 := by decide

/-- R114: signed division truncates toward zero, unsigned division reads the pattern. -/
theorem test_div : opDiv false (-7) 2 = (-3 : Word) ∧ opRem false (-7) 2 = (-1 : Word) ∧ opDiv true (-1) 2 = (0x7FFFFFFFFFFFFFFF : Word) := by
  decide

/-- R116: shifts by 64 or more leave zero, or the sign. -/
theorem test_shift_out : opShl 1 64 = 0 ∧ opShr 1 64 = 0 ∧ opSra 0x8000000000000000 64 = (-1 : Word) := by decide

/-- Chapter "Number formats": 0.3 becomes 0x2A in E4M3; 500.0 saturates to 0x7E, and to NaN or 0x7E without saturation. -/
theorem test_narrow_e4m3 : narrow e4m3 0 true (f32 0x3E99999A) = 0x2A ∧ narrow e4m3 0 true (f32 0x43FA0000) = 0x7E ∧
    narrow e4m3 0 false (f32 0x43FA0000) = 0x7F ∧ narrow e4m3 1 false (f32 0x43FA0000) = 0x7E := by decide +kernel

/-- R184: vcvt.e4m3.f32 into byte 1 of 0xFFFF_FFFF. -/
theorem test_vcvt_byte : laneCvt (rf 3 1 0 0x1036) 0x3E99999A 0xFFFFFFFF = 0xFFFF2AFF := by decide +kernel

/-- R62: T3 weights +1, 0, -1, -1, +1 are the byte 0xA7. -/
theorem test_t3 : (upFrom 0 5).map (t3Weight 0xA7) = [some 1, some 0, some (-1), some (-1), some 1] := by decide

/-- R67: C = 1.0 with 2^-24 and 2^-90 rounds up, with 2^-24 and -2^-90 down, and with 2^-24 alone to even. -/
theorem test_sticky : segFloat 0x3F800000 [.fin false 1 (-24), .fin false 1 (-90)] = 0x3F800001 ∧
    segFloat 0x3F800000 [.fin false 1 (-24), .fin true 1 (-90)] = 0x3F800000 ∧ segFloat 0x3F800000 [.fin false 1 (-24)] = 0x3F800000 := by
  decide +kernel

/-- R67: C = 2^-70 collapses beside 1.0; R65: 1.0 and 4.0 sum to 5.0. -/
theorem test_segment : segFloat 0x1C800000 [.fin false 1 0] = 0x3F800000 ∧ segFloat 0 [.fin false 1 0, .fin false 1 2] = 0x40A00000 := by
  decide +kernel

/-- R68: an integer segment wraps, or saturates under ACC 0b10. -/
theorem test_segment_integer : segInt false 0x7FFFFFFF 1 = 0x80000000 ∧ segInt true 0x7FFFFFFF 1 = 0x7FFFFFFF := by decide

/-- R152: 1.0 + 2^-24 is a tie to even; 1.0 + 1.5 x 2^-24 rounds up. -/
theorem test_float_add : fl 0 ((f32 0x3F800000).add false (f32 0x33800000)) = 0x3F800000 ∧
    fl 0 ((f32 0x3F800000).add false (f32 0x33C00000)) = 0x3F800001 := by decide +kernel

/-- The source of the worked MXFP4 block: 5.0, -1.25, 0.2, -0.0 and zeros. -/
def mxSource : List Ext := [f32 0x40A00000, f32 0xBFA00000, f32 0x3E4CCCCD, f32 0x80000000] ++ List.replicate 28 (f32 0)

/-- R70: the scale byte is 0x7F, the first data bytes 0xA6 and 0x80, the others 0, and no flag is raised. -/
theorem test_mxfp4 : (quantMx 8 0 mxSource).scale = 0x7F ∧ (quantBytes 8 [quantMx 8 0 mxSource]).take 4 = [0xA6, 0x80, 0, 0] ∧
    (quantMx 8 0 mxSource).ovf = false ∧ (quantMx 8 0 mxSource).unf = false := by decide +kernel

/-- The source of the worked Emmer-5 block: 3.0, 1.1, 0, 0, 0.3, -0.1 and zeros. -/
def emSource : List Ext :=
  [f32 0x40400000, f32 0x3F8CCCCD, f32 0, f32 0, f32 0x3E99999A, f32 0xBDCCCCCD] ++ List.replicate 10 (f32 0)

/-- R71: the 12 bytes of the block. -/
theorem test_emmer5 : quantBytes 10 [quantEm 10 0 emSource] = [0x80, 0xFC, 0x8C, 0x00, 0xA0, 0x26, 0, 0, 0, 0, 0, 0] := by decide +kernel

/-- R176: a comparison with a NaN is unordered, and only ne and uo hold. -/
theorem test_vcmp_nan : (upFrom 0 7).map (fun c => laneCond 3 c 0x7FC00000 0) = [false, true, false, false, false, false, true] := by
  decide +kernel

/-- R175: 2^31 - 1 and 1 saturate as s32; as n32 they wrap. -/
theorem test_lane_out : laneOut 1 true (2 ^ 31) = 0x7FFFFFFF ∧ laneOut 1 false (2 ^ 31) = 0x80000000 := by decide

/-- R239: w = 1.0, LR = 0.5 and g = 3.0 give the master word 0xBF00_0000. -/
theorem test_weight_update : updLane 0x3F800000 0x3F000000 0x40400000 = 0xBF000000 := by decide +kernel

/-- R324: the tables of the worked translation: context 5, and entry 145 of its L1 table. -/
def mapped : State :=
  ((((({ State.reset with dies := [(0, { regs := [(0x600, 0x1000), (0x608, 6)], state := 3 })] }.pokeWord (.hbm 0 0x10A0) 0x2001).pokeWord
    (.hbm 0 0x2000) 0x3001).pokeWord (.hbm 0 0x34A0) 0x4001).pokeWord (.hbm 0 0x47E0) 0x5001).pokeWord (.hbm 0 0x5488) 0x300000100400002F)

/-- The location that a store to the worked address reaches, and what the entry then holds. -/
def mappedTo : Option Loc × Word := match mapped.translate (cpWho 0 5) kStore 0x4A3F12345678 with
  | .ok (l, _, _) s => (some l, s.peekWord (.hbm 0 0x5488))
  | _ => (none, 0)

/-- R324: the address is 0x10_0434_5678, and the store sets A and D of the entry. -/
theorem test_translation : mappedTo = (some (.hbm 0 0x1004345678), 0x300000100400032F) := by decide +kernel

/-! ### One step -/

/-- The word that a step from reset runs. -/
def firstStep (w : Nat) : State := match step (State.reset.withFetchWord 64 w) with
  | .next t => t
  | _ => State.reset

/-- R114: `addi x1, x0, 5` as the first word leaves 5 on its way to x1. -/
theorem test_step_addi : ((firstStep 0x0000010020000005).strand 0).map (fun st => st.land.map (·.eff)) = some [.x 1 5] := by decide +kernel

/-- R133, R366: `trap` of a launch without a handler ends the launch, so that its strand leaves the slot. -/
theorem test_step_trap : (firstStep (encode (.trap (if_ 0 0 7)))[0]!.toNat).strand 0 = none := by decide +kernel

/-! ### Decoding -/

/-- R73, R114: S, opcode 0x10, DELAY 1, all registers x0. -/
theorem test_decode_scalar : reads 0x0008010000000000 0 (.addi ⟨⟨1, false, 0, 0⟩, 0, 0, 0, none⟩, 8) = true := by decide +kernel

/-- R117: bfx with its width and position. -/
theorem test_decode_bfx : reads 0x000000E142C62200 0 (.bfx (rf 10 11 12 0x2200), 8) = true := by decide +kernel

/-- R76, R123: li with its extension word; the pair is 16 bytes long. -/
theorem test_decode_extension : reads 0xE2468ACF13578000 0x000001702000DEF0 (.li ⟨plain, 1, 0, 0xDEF0, some 0x123456789ABC⟩, 16) = true := by
  decide +kernel

/-- R142: `st.b64.rel.pk.e [g4 + 64], g7`. -/
theorem test_decode_store : reads 0x20000110E13B0040 0 (.st (if_ 7 4 0x3B0040), 8) = true := by decide +kernel

/-- R147, R141: a strided store with pops, and aout. -/
theorem test_decode_access : reads 0x2000014B03408202 0 (.sts (rf 88 13 1 0x202), 8) = true ∧
    reads 0x200000A005088006 0 (.aout (rf 0 20 17 6), 8) = true := by decide +kernel

/-- R151, R155: amo.inc, and a tensor store. -/
theorem test_decode_atomic : reads 0x2000029003805402 0 (.amoInc (rf 0 14 0 0x5402), 8) = true ∧
    reads 0x2000018B02038000 0 (.tst (rf 88 8 7), 8) = true := by decide +kernel

/-- R174: vfma with suspension, POP and PUSH; vadd from a queue. -/
theorem test_decode_vector : reads 0x401D404081430003 0 (.vfma ⟨⟨3, true, 2, 4⟩, 4, 5, 6, 3, none⟩, 8) = true ∧
    reads 0x4018000040681403 0 (.vadd ⟨⟨3, false, 0, 0⟩, 2, 1, 80, 0x1403, none⟩, 8) = true := by decide +kernel

/-- R189: exp2 of f32. -/
theorem test_decode_function : reads 0x8000000000000033 0 (.exp2 (rf 0 0 0 0x33), 8) = true := by decide +kernel

/-- R201, R209: mmul acc x5, [x6], 64, and macc.st to w0. -/
theorem test_decode_matrix : reads 0x6000004001828040 0 (.mmul (rf 0 6 5 0x40), 8) = true ∧
    reads 0x6000008B0380000D 0 (.maccSt (rf 88 14 0 0xD), 8) = true := by decide +kernel

/-- R236: lfwd [x7]. -/
theorem test_decode_macro : reads 0x6000010001C00000 0 (.lfwd (rf 0 7 0), 8) = true := by decide +kernel

/-- R215, R217: align, align with suspension, bar.arrwait 17. -/
theorem test_decode_sync : reads 0xA000000000000000 0 (.align, 8) = true ∧ reads 0xA004000000000000 0 (.alignSuspend, 8) = true ∧
    reads 0xA004004100000011 0 (.barArrwait ⟨⟨0, true, 0, 0⟩, 8, 0, 17, none⟩, 8) = true := by decide +kernel

/-- A word is refused with a code, on its extension word or not, evaluated. -/
def refuses (w v : Word) (c : Nat) (ext : Bool) : Bool := match decodeWords w v with
  | .error (.illegal n e) => n == c && e == ext
  | _ => false

/-- R108: the reserved cell, the Y word with DELAY 1, the extension word before `add`, and the reserved class. -/
theorem test_decode_refuses : refuses 0x60000FF000000000 0 2 false = true ∧ refuses 0xA008000000000000 0 6 false = true ∧
    refuses 0xE000000000002000 0 7 true = true ∧ refuses 0xC000000000000000 0 1 false = true := by decide +kernel

/-- R371: POP of a reserved value is code 3. -/
theorem test_decode_refuses_pop : refuses 0x0000E00000000000 0 3 false = true := by decide +kernel

/-! ### Ill-formed terms (R371) -/

/-- A term for each check, which the check refuses with its code. -/
theorem test_ill_formed_terms :
    (Instr.add ⟨⟨0, false, 7, 0⟩, 0, 0, 0, 0, none⟩).illegal = some 3 ∧ (Instr.add (rf 0 0 0 0x4000)).illegal = some 4 ∧
    (Instr.mmul (rf 6 5 0 0x40)).illegal = some 5 ∧ (Instr.barInit ⟨⟨1, false, 0, 0⟩, 0, 0, 0x1008, none⟩).illegal = some 6 ∧
    (Instr.exp2 (rf 0 0 0)).illegal = some 9 := by decide +kernel

/-- R126: a read of a system register that is not listed is code 8. -/
theorem test_ill_formed_system_register : (Instr.mfs (rf 1 0 0 0x3F)).illegal = some 8 := by decide +kernel

/-- R76: an extension that the cell does not admit is code 7, on the extension word. -/
theorem test_ill_formed_extension : (Instr.add ⟨plain, 0, 0, 0, 0, some 1⟩).wf = false ∧ refuses 0xE000000000002000 0 7 true = true := by
  decide +kernel

/-- R371: the reserved classes and cells, codes 1 and 2, are words of no instruction. -/
theorem test_ill_formed_words : refuses 0xC000000000000000 0 1 false = true ∧ refuses 0x60000FF000000000 0 2 false = true := by decide +kernel

/-- None of them is well formed. -/
theorem test_ill_formed_are_refused : (Instr.add ⟨⟨0, false, 7, 0⟩, 0, 0, 0, 0, none⟩).wf = false ∧ (Instr.exp2 (rf 0 0 0)).wf = false := by
  decide +kernel

end Sys2Proof.Tests
end

section
/-! PROOF of O56: the package semaphore (R9, R338, R429), and the resets of the package and of a die (R402, R435, R441, R442). -/

namespace Sys2Proof.Machine

open Sys2Proof.Claims

/-! ### Events of units that are there -/

/-- An event of a unit that the package has ends in the state that its meaning gives. -/
theorem onUnit_of_present {P : Prop} {_ : Decidable P} (h : P) (s : State) : onUnit (decide P) s = .next s := if_pos (decide_eq_true h)

/-! ### Tables with entries taken out by their key -/

theorem Tab.find_filter {α : Type} (p : Nat → Bool) (t : Tab α) (a : Nat) :
    Tab.find (t.filter fun e => p e.1) a = if p a then Tab.find t a else none := by
  induction t with
  | nil => simp
  | cons e l ih =>
    by_cases ha : a = e.1
    · subst ha
      by_cases hp : p e.1 = true <;> simp_all [Tab.find]
    · by_cases hp : p e.1 = true <;> simp_all [Tab.find]

theorem Tab.getD_filter {α : Type} (p : Nat → Bool) (t : Tab α) (a : Nat) (x : α) :
    Tab.getD (t.filter fun e => p e.1) a x = if p a then Tab.getD t a x else x := by
  rw [Tab.getD, Tab.find_filter]
  split <;> rfl

theorem Cells.get_filter {w : Nat} (p : Nat → Bool) (c : Cells w) (a : Nat) :
    Cells.get (c.filter fun e => p e.1) a = if p a then Cells.get c a else 0 := by
  rw [Cells.get, Tab.find_filter]
  split <;> rfl

/-! ### What a record in a host fault queue leaves (R365, R368) -/

/-- The strands, tiles, edges, full bits, clock, semaphore, host ports and flash of `t` are those of `s`: what a write to a home (with
what it does to the caches of the dies) and to the registers of a die leaves. -/
structure State.SameUnits (s t : State) : Prop where
  strands : t.strands = s.strands
  tiles   : t.tiles = s.tiles
  edges   : t.edges = s.edges
  empties : t.empties = s.empties
  time    : t.time = s.time
  owner   : t.semOwner = s.semOwner
  expired : t.semExpired = s.semExpired
  lease   : t.semLease = s.semLease
  ports   : t.portsDown = s.portsDown
  flash   : t.flash = s.flash

theorem State.SameUnits.trans {s t u : State} (h : s.SameUnits t) (g : t.SameUnits u) : s.SameUnits u :=
  ⟨g.strands.trans h.strands, g.tiles.trans h.tiles, g.edges.trans h.edges, g.empties.trans h.empties, g.time.trans h.time,
    g.owner.trans h.owner, g.expired.trans h.expired, g.lease.trans h.lease, g.ports.trans h.ports, g.flash.trans h.flash⟩

theorem State.sameUnits_refl (s : State) : s.SameUnits s := by constructor <;> rfl

theorem State.sameUnits_onDie (s : State) (d : Nat) (f : Die → Die) : s.SameUnits (s.onDie d f) := by constructor <;> rfl

theorem State.sameUnits_setField (s : State) (d off lo len v : Nat) : s.SameUnits (s.setField d off lo len v) := by
  constructor <;> rfl

theorem State.sameUnits_bumpField (s : State) (d off lo len v : Nat) : s.SameUnits (s.bumpField d off lo len v) := by
  constructor <;> rfl

theorem State.sameUnits_pick (s : State) (n : Nat) : s.SameUnits (s.pick n).2 := by
  rw [State.pick]
  split <;> constructor <;> rfl

theorem State.sameUnits_intoL2 (s : State) (d n : Nat) (c : Line) : s.SameUnits (s.intoL2 d n c) := by
  rw [State.intoL2]
  dsimp only
  split
  · exact (s.sameUnits_pick _).trans (State.sameUnits_onDie _ _ _)
  · exact State.sameUnits_onDie _ _ _

theorem State.sameUnits_keepHome (s : State) (n : Nat) : s.SameUnits (s.keepHome n) := by
  rw [State.keepHome]
  split
  · exact s.sameUnits_intoL2 _ _ _
  · exact s.sameUnits_refl

theorem State.sameUnits_storeHome (s : State) (l : Loc) (b : List Byte) : s.SameUnits (s.storeHome l b) := by
  have hd : s.SameUnits (s.dropL2 l.line []) := by constructor <;> rfl
  have hp : ∀ t : State, t.SameUnits (t.poke l b) := fun t => by constructor <;> rfl
  exact (hd.trans (State.sameUnits_keepHome _ _)).trans (hp _)

theorem State.sameUnits_hostRecord (s : State) (d : Nat) (ws : List Word) : s.SameUnits (s.hostRecord d ws).1 := by
  rw [State.hostRecord]
  dsimp only
  split <;> dsimp only
  · exact ((s.sameUnits_storeHome _ _).trans (State.sameUnits_setField _ _ _ _ _ _)).trans (State.sameUnits_onDie _ _ _)
  · exact ((s.sameUnits_bumpField _ _ _ _ _).trans (State.sameUnits_setField _ _ _ _ _ _)).trans (State.sameUnits_onDie _ _ _)

theorem State.sameUnits_hostFault (s : State) (d : Nat) (f : Flt) (tag : Nat) (oprec : Word) :
    s.SameUnits (s.hostFault d f tag oprec) := s.sameUnits_hostRecord d _

/-! ### The package semaphore (R9, R338, R429) -/

/-- While the semaphore is free, or its lease runs, nothing expires. -/
theorem State.semExpire_of_running {s : State} (h : s.semOwner = 0 ∨ s.time < s.semLease) : s.semExpire = s := if_pos h

/-- The lease of a holder has run out: the semaphore is free, EXPIRED reads 1, and only D0's host fault queue is told. -/
theorem State.semExpire_of_over {s : State} (ho : s.semOwner ≠ 0) (hl : s.semLease ≤ s.time) :
    s.semExpire.semOwner = 0 ∧ s.semExpire.semExpired = true ∧ s.semExpire.strands = s.strands ∧ s.semExpire.edges = s.edges := by
  rw [State.semExpire, if_neg (not_or.mpr ⟨ho, Nat.not_lt.mpr hl⟩)]
  have h := State.sameUnits_hostFault { s with semOwner := 0, semExpired := true } 0
    { cls := 9, code := 8, info := s.semOwner.zeroExtend 64, src := 4 } 0 0
  exact ⟨h.owner, h.expired, h.strands, h.edges⟩

theorem State.semTouch_of_holder {s : State} {p : Nat} (h : s.semOwner.toNat = p + 1) :
    s.semTouch p = { s with semLease := s.time + leaseTime } := if_pos h

theorem State.semTouch_semExpired (s : State) (p : Nat) : (s.semTouch p).semExpired = s.semExpired := by
  rw [State.semTouch]
  split <;> rfl

/-- A write that reaches D0 clears EXPIRED by its bit 2, but for one at the very time at which the lease ends (R9). -/
theorem State.semWrite_semExpired {s : State} {p : Nat} (v : Word) (h : s.portSees p 0 = true) :
    (s.semWrite p v).semExpired = (s.semExpire.semExpired && !(v.getLsbD 2 && !(s.semOwner != 0 && s.time == s.semLease))) := by
  simp only [State.semWrite, h]
  cases v.getLsbD 2 <;> cases (s.semOwner != 0 && s.time == s.semLease) <;>
    simp [apply_ite State.semExpired, State.semTouch_semExpired]

/-- While nothing expires, what a write that reaches D0 makes of PKG_SEM: it takes the free semaphore for its port, or, as every access
of the holder does, restarts the lease, freeing the semaphore where OWNER is 0. -/
theorem State.semWrite_of_running {s : State} {p : Nat} (v : Word) (hp : p < 2) (h : s.portSees p 0 = true)
    (hr : s.semOwner = 0 ∨ s.time < s.semLease) :
    s.semWrite p v =
      if v.toNat % 4 = p + 1 ∧ s.semOwner = 0 then
        { s with semExpired := s.semExpired && !v.getLsbD 2, semOwner := BitVec.ofNat 2 (p + 1), semLease := s.time + leaseTime }
      else if s.semOwner.toNat = p + 1 then
        { s with
          semExpired := s.semExpired && !v.getLsbD 2, semOwner := if v.toNat % 4 = 0 then 0 else s.semOwner
          semLease := s.time + leaseTime }
      else { s with semExpired := s.semExpired && !v.getLsbD 2 } := by
  have hw : bits v 0 2 = v.toNat % 4 := rfl
  have hn : (s.semOwner != 0 && s.time == s.semLease) = false := by
    rcases hr with ho | hl
    · simp [ho]
    · simp [Nat.ne_of_lt hl]
  have hx : (if v.getLsbD 2 = true then { s with semExpired := false } else s) = { s with semExpired := s.semExpired && !v.getLsbD 2 } := by
    cases v.getLsbD 2 <;> simp
  have hk : (BitVec.ofNat 2 (p + 1)).toNat = p + 1 := Nat.mod_eq_of_lt (by omega)
  simp only [State.semWrite, h, State.semExpire_of_running hr, hw, hn, hx, Bool.not_true, Bool.not_false, Bool.false_eq_true, Bool.and_true,
    if_false]
  by_cases ht : v.toNat % 4 = p + 1 ∧ s.semOwner = 0
  · rw [if_pos ht, if_pos ht, ht.1, State.semTouch_of_holder hk, if_neg (by omega)]
  · rw [if_neg ht, if_neg ht]
    by_cases ho : s.semOwner.toNat = p + 1
    · simp only [State.semTouch, ho, if_true, and_true]
      split <;> rfl
    · simp only [State.semTouch, ho, if_false, and_false]

theorem State.orWait_of_calm {s : State} {p : Nat} {ds : List Nat} (h : s.hostWaits p ds = false) (i : HostAccess) (f : State) :
    s.orWait p ds i f = f := by simp [State.orWait, h]

theorem exec_pkgSemWrite {s : State} {p : Nat} (v : BitVec 64) (hp : p < 2) (hw : s.hostWaits p [0] = false) :
    exec (.pkgSemWrite p v) s = .next (s.semWrite p v) :=
  (onUnit_of_present hp _).trans (congrArg Host.Outcome.next (State.orWait_of_calm hw _ _))

theorem exec_pkgSemRead {s : State} {p : Nat} (hp : p < 2) (hw : s.hostWaits p [0] = false) (h : s.portSees p 0 = true) :
    exec (.pkgSemRead p) s = .next (s.semExpire.semTouch p) :=
  (onUnit_of_present hp _).trans (congrArg Host.Outcome.next ((State.orWait_of_calm hw _ _).trans (if_pos h)))

/-- Clause by clause: a write, a read by the holder, a write as the lease ends, and the end itself. -/
theorem semaphoreHasOneOwner : SemaphoreHasOneOwner := by
  refine ⟨?_, ?_, ?_, ?_⟩
  · intro s p v hp _ hs hw hr
    refine ⟨_, exec_pkgSemWrite v hp hw, ?_⟩
    have hk : (BitVec.ofNat 2 (p + 1)).toNat = p + 1 := Nat.mod_eq_of_lt (by omega)
    rw [State.semWrite_of_running v hp hs hr]
    split
    case isTrue ht =>
      obtain ⟨hv, ho⟩ := ht
      exact ⟨rfl, rfl, rfl, fun _ => by simp [hk, hv], fun h => by simp [ho] at h, fun h => by simp [ho] at h⟩
    case isFalse ht =>
      split
      case isTrue ho =>
        refine ⟨rfl, rfl, rfl, fun h => ?_, fun _ => ⟨?_, rfl⟩, fun _ h => absurd ho h⟩
        · simp [h] at ho
        · dsimp only; split <;> simp [ho]
      case isFalse ho =>
        exact ⟨rfl, rfl, rfl, fun h => by simp [h] at ht ⊢; simp [ht], fun h => absurd h ho, fun _ _ => ⟨rfl, rfl⟩⟩
  · intro s p hp _ hs hw ho hl
    refine ⟨_, exec_pkgSemRead hp hw hs, ?_⟩
    rw [State.semExpire_of_running (.inr hl), State.semTouch_of_holder ho]
    exact ⟨rfl, rfl, rfl⟩
  · intro s p v hp _ hs hw ho hl
    refine ⟨_, exec_pkgSemWrite v hp hw, ?_⟩
    obtain ⟨-, he, -, -⟩ := State.semExpire_of_over ho (Nat.le_of_eq hl.symm)
    rw [State.semWrite_semExpired v hs, he, bne_iff_ne.mpr ho, hl, beq_self_eq_true]
    simp
  · refine fun s => ⟨fun h => ?_, fun ho hl => ⟨_, rfl, State.semExpire_of_over ho hl⟩⟩
    exact congrArg Host.Outcome.next (State.semExpire_of_running h)

/-! ### What the reset of a die wipes (R402, R442) -/

theorem State.loseDirty_eq (s : State) (l : Tab Line) :
    s.loseDirty l = { s with poison := l.foldl (fun p x => insertNat p x.1) s.poison } := by
  rw [State.loseDirty]
  induction l generalizing s with
  | nil => rfl
  | cons e l ih => rw [List.foldl_cons, ih]; rfl

/-- The edges of a list take their reset values (R7, R332). -/
def clearEdges (t : Tab Edge) (l : List Nat) : Tab Edge := l.foldl (fun t e => Tab.put t e (Tab.getD t e {}).cleared) t

theorem State.foldl_onEdge_cleared (s : State) (l : List Nat) :
    l.foldl (fun (s : State) e => s.onEdge e Edge.cleared) s = { s with edges := clearEdges s.edges l } := by
  induction l generalizing s with
  | nil => rfl
  | cons e l ih => rw [List.foldl_cons, ih]; rfl

/-- An edge cleared once is not changed by being cleared again, so that each edge of a list is cleared and no other is touched. -/
theorem getD_clearEdges (t : Tab Edge) (l : List Nat) (e : Nat) :
    Tab.getD (clearEdges t l) e {} = if e ∈ l then (Tab.getD t e {}).cleared else Tab.getD t e {} := by
  induction l generalizing t with
  | nil => rfl
  | cons f l ih =>
    have hs : clearEdges t (f :: l) = clearEdges (Tab.put t f (Tab.getD t f {}).cleared) l := rfl
    rw [hs, ih]
    by_cases he : e = f
    · subst he
      simp [Edge.cleared]
    · simp [he]

theorem State.wipe_flash (s : State) (d st : Nat) : (s.wipe d st).flash = s.flash := by
  simp [State.wipe, State.loseDirty_eq, State.foldl_onEdge_cleared]

/-- The stores of the die's tiles read zero, and no other byte has changed. -/
theorem State.wipe_byte (s : State) (d st k : Nat) : (s.wipe d st).byte k = if inTiles d k then 0 else s.byte k := by
  have hm : (s.wipe d st).mem = s.mem.filter fun c => !inTiles d c.1 := by
    simp [State.wipe, State.loseDirty_eq, State.foldl_onEdge_cleared]
  rw [State.byte, hm, Cells.get_filter fun n => !inTiles d n]
  cases inTiles d k <;> rfl

theorem State.wipe_tile (s : State) (d st u : Nat) : (s.wipe d st).tile u = if u / 24 = d then {} else s.tile u := by
  have ht : (s.wipe d st).tiles = s.tiles.filter fun e => e.1 / 24 != d := by
    simp [State.wipe, State.loseDirty_eq, State.foldl_onEdge_cleared]
  rw [State.tile, ht, Tab.getD_filter fun n => n / 24 != d]
  by_cases h : u / 24 = d <;> simp [h, State.tile]

theorem State.wipe_edge (s : State) (d st e : Nat) :
    (s.wipe d st).edge e = if e ∈ dieEdges d then (s.edge e).cleared else s.edge e := by
  have he : (s.wipe d st).edges = clearEdges s.edges (dieEdges d) := by
    simp [State.wipe, State.loseDirty_eq, State.foldl_onEdge_cleared]
  rw [State.edge, he, getD_clearEdges]
  rfl

/-- The die stands at its reset values, but for its state and what keeps its time counter running (R231). -/
theorem State.wipe_die (s : State) (d st : Nat) :
    (s.wipe d st).die d =
      { state := st, noExp := true, lag := (s.die d).lag, slew := (s.die d).slew, slewing := (s.die d).slewing,
        timeLocked := (s.die d).timeLocked, holdover := (s.die d).holdover, adjAt := (s.die d).adjAt, adjOk := (s.die d).adjOk } := by
  simp only [State.wipe, State.die, State.setDie, State.loseDirty_eq, State.foldl_onEdge_cleared, Tab.getD_put_self]

/-! ### The reset of the package (R435, R441, R442) -/

theorem State.packageReset_flash (s : State) : s.packageReset.flash = s.flash := by
  simp [State.packageReset, State.wipe_flash]

theorem State.foldl_wipe_byte (l : List Nat) (s : State) (k : Nat) :
    (l.foldl (fun (s : State) d => s.wipe d 0) s).byte k = if l.any (inTiles · k) then 0 else s.byte k := by
  induction l generalizing s with
  | nil => rfl
  | cons d l ih =>
    rw [List.foldl_cons, ih, State.wipe_byte, List.any_cons]
    cases inTiles d k <;> simp

theorem State.packageReset_byte (s : State) (k : Nat) :
    s.packageReset.byte k = if [0, 1, 2, 3].any (inTiles · k) then 0 else s.byte k := by
  rw [← State.foldl_wipe_byte]
  simp only [State.byte, State.packageReset]

theorem inTiles_of_outside {k : Nat} (h : outsideTiles k) {d : Nat} (hd : d < 4) : inTiles d k = false := by
  rw [outsideTiles] at h
  rw [inTiles, Bool.and_eq_false_iff, decide_eq_false_iff_not, decide_eq_false_iff_not]
  omega

/-- Clause by clause: the package reset, the sideband's, and a port's own. -/
theorem packageResetLeavesTheResetState : PackageResetLeavesTheResetState := by
  refine ⟨fun s => ⟨s.packageReset, rfl, rfl, rfl, rfl, rfl, rfl, rfl, rfl, rfl, rfl, rfl, s.packageReset_flash, fun _ => ⟨?_, ?_⟩⟩, ?_, ?_⟩
  · intro d k hd hk
    rw [State.packageReset_byte, if_pos (List.any_eq_true.mpr ⟨d, by simp; omega, hk⟩)]
  · intro k hk
    rw [State.packageReset_byte]
    simp [inTiles_of_outside hk]
  · exact fun s v => apply_ite Host.Outcome.next _ _ _
  · exact fun s p hp => onUnit_of_present hp _

/-! ### The reset of a die at rest (R402, R439) -/

/-- While nothing expires, D0 lets a package-wide write through a port that reaches it pass where that port holds the semaphore (R404). -/
theorem State.gate_of_running {s : State} {p : Nat} (hp : p ∉ s.portsDown) (hz : (s.half (portDie p)).contains 0 = true)
    (hr : s.semOwner = 0 ∨ s.time < s.semLease) : s.gate p = (s.semOwner.toNat == p + 1, s) := by
  have hp' : s.portsDown.contains p = false := by simpa using hp
  simp only [State.gate, hp', hz, State.semExpire_of_running hr, if_true, Bool.false_eq_true, if_false]

theorem State.launchesAt_onDie (s : State) (d : Nat) (f : Die → Die) (hf : (f (s.die d)).launches = (s.die d).launches) :
    (s.onDie d f).launchesAt d = s.launchesAt d := by
  have he : ∀ e, ((s.onDie d f).die e).launches = (s.die e).launches := by
    intro e
    by_cases h : e = d
    · subst h; rw [State.die_onDie_self, hf]
    · rw [State.die_onDie_ne _ _ h]
  simp only [State.launchesAt, he]

/-- A die as it stands when its reset begins, with nothing to wait for. -/
def State.quiesced (s : State) (d st : Nat) : State :=
  (s.onDie d fun x => { x with quiesce := some (max st (x.quiesce.getD 0)) }).onDie d fun x => { x with state := 0, fail := 0 }

/-- A die at rest is wiped as its reset begins. -/
theorem State.startReset_of_restful {s : State} {d : Nat} (h : Restful s d) (hs : (s.die d).state ≠ 5) (st : Nat) (f : Flt) :
    s.startReset d st f = (s.quiesced d st).wipe d st := by
  have hl : (s.onDie d fun x => { x with quiesce := some (max st (x.quiesce.getD 0)) }).launchesAt d = [] :=
    (s.launchesAt_onDie d _ rfl).trans h.none_
  have hb : s.startReset d st f = (s.quiesced d st).resetMore d := by
    rw [State.startReset, if_neg hs]
    dsimp only
    rw [hl]
    rfl
  have hd : (s.quiesced d st).die d = { s.die d with quiesce := some st, state := 0, fail := 0 } := by
    simp [State.quiesced, h.quiet]
  have hs : (s.quiesced d st).strands = s.strands := rfl
  have hr : (s.quiesced d st).restful d = true := by
    simp only [State.restful, hd, hs, h.copies, List.any_nil, Bool.not_false, Bool.true_and, List.all_eq_true]
    intro e he
    simp [h.strands e he]
  have hf : ({ s.quiesced d st with strands := s.strands.filter fun e => slotDie e.1 != d } : State) = s.quiesced d st := by
    rw [List.filter_eq_self.mpr fun e he => bne_iff_ne.mpr (h.strands e he), ← hs]
  rw [hb, State.resetMore, hd]
  simp only [hr, if_true, hs, hf, hd, h.launches, List.foldl_nil]

@[simp] theorem State.byte_quiesced (s : State) (d st k : Nat) : (s.quiesced d st).byte k = s.byte k := rfl

@[simp] theorem State.edge_quiesced (s : State) (d st e : Nat) : (s.quiesced d st).edge e = s.edge e := rfl

/-- Through a port that reaches D0, a die is reset where the port holds the semaphore, reaches the die, and the die has not failed to
boot; else nothing happens (R402, R404). -/
theorem exec_dieReset {s : State} {d p : Nat} (hd : d < 4) (hp : p < 2) (hu : p ∉ s.portsDown)
    (hz : (s.half (portDie p)).contains 0 = true) (hr : s.semOwner = 0 ∨ s.time < s.semLease) (hw : s.hostWaits p [0, d] = false) :
    exec (.dieReset d p) s =
      .next (if s.semOwner.toNat == p + 1 && s.portSees p d && (s.die d).state != 4 then s.startReset d 0 resetFlt else s) := by
  refine (onUnit_of_present ⟨hd, hp⟩ _).trans (congrArg Host.Outcome.next ?_)
  rw [State.orWait_of_calm hw, State.gate_of_running hu hz hr]

/-- Clause by clause: the reset of a die at rest, one without the semaphore, and the thermal reset. -/
theorem dieResetWipesTheDie : DieResetWipesTheDie := by
  refine ⟨?_, ?_, ?_⟩
  · intro s d p hd hh hf
    refine ⟨(s.quiesced d 0).wipe d 0, ?_, ?_⟩
    · rw [exec_dieReset hd hh.port hh.up hh.zero (.inr hh.lease) hh.calm, hh.owner, hh.sees, hh.runs,
        State.startReset_of_restful hf (by simp [hh.runs]), beq_self_eq_true]
      rfl
    · simp only [State.reg, State.wipe_die, State.wipe_byte, State.wipe_tile, State.byte_quiesced, State.wipe_edge, State.edge_quiesced]
      refine ⟨trivial, trivial, fun off => rfl, trivial, trivial, ?_, ?_, ?_, ?_⟩
      · intro e he
        simp [he, Edge.cleared]
      · intro u hu
        simp [hu]
      · intro k hk
        simp [hk]
      · intro k hk
        simp [hk]
  · intro s d p hd hp hu hz ho hr hw
    rw [exec_dieReset hd hp hu hz hr hw, beq_eq_false_iff_ne.mpr ho]
    rfl
  · intro s d hd
    have he : exec (.thermalReset d) s = .next (s.startReset d 5 resetFlt) := onUnit_of_present hd _
    refine ⟨fun h5 => ?_, fun hf h5 => ⟨(s.quiesced d 5).wipe d 5, ?_, ?_, ?_⟩⟩
    · rw [he, State.startReset, if_pos h5]
    · rw [he, State.startReset_of_restful hf h5]
    · rw [State.wipe_die]
    · intro k hk
      rw [State.wipe_byte, hk]
      rfl

/-- Settles O56: the rules of the semaphore, and what each reset wipes, clause by clause (what a package reset keeps and which edge fields a
die reset clears are the model's choices, notes/assumptions/23 and 22). -/
theorem semaphoreAndResets : Obligations.SemaphoreAndResets :=
  ⟨semaphoreHasOneOwner, packageResetLeavesTheResetState, dieResetWipesTheDie⟩

end Sys2Proof.Machine
end

section
/-! PROOF of O28: every event of a unit that the package has ends in a state (R1, R11, R15 to R18). -/

namespace Sys2Proof.Machine

open Sys2Proof.Claims

theorem onUnit_completes {P : Prop} {_ : Decidable P} (h : P) (s : State) : ∃ t, onUnit (decide P) s = .next t :=
  ⟨s, onUnit_of_present h s⟩

/-! ### The events of the matrix array, which test their slot or tile themselves -/

theorem execMatrixCommandStart_completes {k : Nat} (h : k < 768) (s : State) : ∃ t, execMatrixCommandStart k s = .next t := by
  rw [execMatrixCommandStart, if_neg (Nat.not_le.mpr h)]
  split
  · exact ⟨_, rfl⟩
  · split
    · exact ⟨_, rfl⟩
    · split
      · split <;> exact ⟨_, rfl⟩
      · exact ⟨_, rfl⟩

theorem execMatrixCommandRetire_completes {k : Nat} (h : k < 768) (s : State) : ∃ t, execMatrixCommandRetire k s = .next t :=
  ⟨_, if_neg (Nat.not_le.mpr h)⟩

theorem execChainRendezvous_completes {u : Nat} (h : u < 96) (s : State) : ∃ t, execChainRendezvous u s = .next t := by
  rw [execChainRendezvous, if_neg (Nat.not_le.mpr h)]
  split
  · exact ⟨_, rfl⟩
  · split
    · dsimp only
      split
      · exact ⟨_, rfl⟩
      · split <;> exact ⟨_, rfl⟩
    · exact ⟨_, rfl⟩
    · dsimp only
      split <;> exact ⟨_, rfl⟩

theorem execArrayGrant_completes {u : Nat} (h : u < 96) (s : State) : ∃ t, execArrayGrant u s = .next t := by
  rw [execArrayGrant, if_neg (Nat.not_le.mpr h)]
  split
  · exact ⟨_, rfl⟩
  · split
    · exact ⟨_, rfl⟩
    · dsimp only
      split
      · exact ⟨_, rfl⟩
      · split <;> exact ⟨_, rfl⟩

/-- Settles O28, by the constructors of the table, grouped by the unit that they are events of. -/
theorem eventsCompleteOnTheirUnits : Obligations.EventsCompleteOnTheirUnits := by
  intro i s h
  cases i with
  -- of a slot
  | dispatchWord | landingBufferWrite | strandPickup | preemption | heldArrival | loadDataArrival | storePerform | atomicPerform =>
    exact onUnit_completes h _
  -- of a tile
  | issueWindowExpiry => exact onUnit_completes h _
  -- of the array, of a slot and of a tile
  | matrixCommandStart => exact execMatrixCommandStart_completes h s
  | matrixCommandRetire => exact execMatrixCommandRetire_completes h s
  | chainRendezvous => exact execChainRendezvous_completes h s
  | arrayGrant => exact execArrayGrant_completes h s
  -- of the scheduler and the memory of a die
  | strandCreate | strandReady | rebalance | reserveMaskWrite | leadCounterArrival | queueSpaceAvailable | itemAvailable | signalReread
  | timeTargetReached | steal | storeAcknowledgement | acknowledgementLoss | copyLineLanding | batchComplete | handlerStrandCreate =>
    exact onUnit_completes h _
  -- of the command processor of a die
  | queueMap | queueUnmap | forcedUnmap | operator | launchBegin | launchRetire | batchIteration | batchAdmissionWake | wait
  | waitRecordSatisfied | signal | boundary | transfer | nop | transferJobComplete | regionGrant | queueBind | revoke | queueUnbind | flush
  | wdogExpiry | iterationBoundary | cqWakeWrite =>
    exact onUnit_completes h _
  -- of the translation and the caches of a die
  | invalidation | invalidationComplete | priAnswer | priTimeout | priClear | cacheSweep | sweepDone =>
    exact onUnit_completes h _
  -- of a host port
  | atsInvalidationRequest | hostPortDown | hostCxlMemAccess | pkgSemWrite | pkgSemRead | portFundamentalReset =>
    exact onUnit_completes h _
  -- of an edge, a pair of dies or a fabric port
  | edgeTrainingComplete | automaticStepDown | flitCrcError | edgeDown | linkRecalibration | spareLaneRepair | overdrive | moduleWidthHalving
  | rerouteTimeout | fabricPortDown | fabricPortTrained | uncorrectableFrame =>
    exact onUnit_completes h _
  -- of the housekeeping of a die
  | dieReset | firmwareLoad | thermalReset | bootStateAdvance | attestation | attestationDone | timeAdjWrite | throttle | telemetrySample
  | hbmPatrolScrub | sramScrub | hbmRowActivationManagement | singleBitError | doubleBitError | registerWrite =>
    exact onUnit_completes h _
  -- of the package, which no number can miss
  | pkgSemLeaseExpiry | packageReset | sbReset | holdover | correctionSlewEnd => exact ⟨_, rfl⟩
  | _ => exact False.elim h

end Sys2Proof.Machine
end

section
/-! PROOF of O1, O2 and O29: the values of the register and immediate words (R114 to R120). -/

namespace Sys2Proof.Machine

open Sys2Proof.Claims

/-! ### Words that only give results -/

/-- A word of class S whose results depend on the registers alone issues with what they are before its issue. -/
theorem regWord_issues {s : State} {st : Strand} {i : Instr} {w : QWord} {l : List QWord} (h : Issuable s st i w l)
    (hc : insCls i = 0) {effs : Strand → List Eff} (he : exec i s = execReg i s effs) {es : List Eff}
    (hv : effs (st.setQueue (insCls i) l) = es) : ∃ t, exec i s = .next t ∧ IssueOf s st i w l es t := by
  rw [he, ← hv]
  exact execReg_next (by rw [hc]; exact Nat.zero_ne_one) h effs

/-! ### Fields of MOD and IMM -/

theorem RForm.m_eq (a : RForm) (lo len : Nat) : a.m lo len = a.mod.toNat / 2 ^ lo % 2 ^ len := by
  rw [RForm.m, Nat.shiftRight_eq_div_pow]

theorem RForm.m_low (a : RForm) (len : Nat) : a.m 0 len = a.mod.toNat % 2 ^ len := rfl

theorem RForm.m_bit (a : RForm) (k : Nat) : a.m k 1 = 1 ↔ a.mod.getLsbD k = true := by
  rw [RForm.m_eq, BitVec.getLsbD, Nat.testBit_eq_decide_div_mod_eq, decide_eq_true_eq, Nat.pow_one]

theorem RForm.m_bit_beq (a : RForm) (k : Nat) : (a.m k 1 == 1) = a.mod.getLsbD k := by
  rw [Bool.eq_iff_iff, beq_iff_eq, RForm.m_bit]

theorem IForm.i_low (a : IForm) (len : Nat) : a.i 0 len = a.imm.toNat % 2 ^ len := rfl

theorem IForm.i_bit_beq (a : IForm) (k : Nat) : (a.i k 1 == 1) = a.imm.getLsbD k := by
  rw [Bool.eq_iff_iff, beq_iff_eq, IForm.i, Nat.shiftRight_eq_div_pow, BitVec.getLsbD, Nat.testBit_eq_decide_div_mod_eq,
    decide_eq_true_eq, Nat.pow_one]

/-- The top field of IMM needs no mask. -/
theorem IForm.i_top (a : IForm) : a.i 20 2 = a.imm.toNat / 2 ^ 20 := by
  rw [IForm.i, Nat.shiftRight_eq_div_pow]
  have := a.imm.isLt
  omega

theorem IForm.imm64_of_ext {a : IForm} {e : BitVec 48} (h : a.ext = some e) :
    a.imm64 = BitVec.ofNat 64 (a.imm.toNat % 2 ^ 16 + e.toNat * 2 ^ 16) := by
  have hl : a.imm.toNat % 2 ^ 16 < 2 ^ 16 := Nat.mod_lt _ (Nat.two_pow_pos _)
  have he := e.isLt
  apply BitVec.eq_of_toNat_eq
  simp only [IForm.imm64, h, BitVec.toNat_append, BitVec.extractLsb'_toNat, Nat.shiftRight_zero, BitVec.toNat_ofNat]
  rw [← Nat.shiftLeft_add_eq_or_of_lt hl, Nat.shiftLeft_eq]
  omega

/-- The operand of R115 and R76 is the model's. -/
theorem immediate_eq (a : IForm) : immediate a = a.simm := by
  rw [immediate, IForm.simm]
  cases h : a.ext with
  | none => rfl
  | some e => exact (IForm.imm64_of_ext h).symm

/-! ### Results as exact integers modulo 2^64 (R114, R116, R117) -/

theorem ofInt_toNat (x : Word) : BitVec.ofInt 64 (x.toNat : Int) = x := by
  rw [BitVec.ofInt_natCast, BitVec.ofNat_toNat, BitVec.setWidth_eq]

/-- A pattern is its own number modulo 2^64, signed or not. -/
theorem ofInt_asInt (u : Bool) (x : Word) : BitVec.ofInt 64 (asInt u x) = x := by
  cases u
  · exact BitVec.ofInt_toInt
  · exact ofInt_toNat x

theorem add_eq_ofInt (a b : Word) : a + b = BitVec.ofInt 64 (a.toNat + b.toNat) := by
  rw [BitVec.ofInt_add, ofInt_toNat, ofInt_toNat]

theorem sub_eq_ofInt (a b : Word) : a - b = BitVec.ofInt 64 (a.toNat - b.toNat) := by
  rw [Int.sub_eq_add_neg, BitVec.ofInt_add, BitVec.ofInt_neg, ofInt_toNat, ofInt_toNat, BitVec.sub_eq_add_neg]

theorem mul_eq_ofInt (a b : Word) : a * b = BitVec.ofInt 64 (a.toNat * b.toNat) := by
  rw [BitVec.ofInt_mul, ofInt_toNat, ofInt_toNat]

theorem opDiv_eq_ofInt (u : Bool) (a b : Word) :
    opDiv u a b = BitVec.ofInt 64 (if b = 0 then 2 ^ 64 - 1 else Int.tdiv (asInt u a) (asInt u b)) := by
  rw [opDiv]
  split
  · rfl
  · rfl

theorem opRem_eq_ofInt (u : Bool) (a b : Word) :
    opRem u a b = BitVec.ofInt 64 (if b = 0 then a.toNat else asInt u a - asInt u b * Int.tdiv (asInt u a) (asInt u b)) := by
  rw [opRem]
  split
  · exact (ofInt_toNat a).symm
  · rfl

theorem opShl_eq_ofInt (a : Word) (n : Nat) :
    opShl a n = BitVec.ofInt 64 (if 64 ≤ n then 0 else a.toNat * 2 ^ n) := by
  rw [opShl]
  split
  · rfl
  · have hc : (a.toNat * 2 ^ n : Int) = ((a.toNat * 2 ^ n : Nat) : Int) := by norm_cast
    apply BitVec.eq_of_toNat_eq
    rw [hc, BitVec.ofInt_natCast, BitVec.toNat_shiftLeft, Nat.shiftLeft_eq, BitVec.toNat_ofNat]

theorem opShr_eq_ofInt (a : Word) (n : Nat) :
    opShr a n = BitVec.ofInt 64 ((a.toNat / 2 ^ min n 64 : Nat) : Int) := by
  have ha := a.isLt
  rw [opShr, BitVec.ofInt_natCast]
  split
  case isTrue h =>
    rw [Nat.min_eq_right h, Nat.div_eq_of_lt ha]
    rfl
  case isFalse h =>
    rw [Nat.min_eq_left (by omega)]
    apply BitVec.eq_of_toNat_eq
    rw [BitVec.toNat_ushiftRight, Nat.shiftRight_eq_div_pow, BitVec.toNat_ofNat,
      Nat.mod_eq_of_lt (Nat.lt_of_le_of_lt (Nat.div_le_self _ _) ha)]

theorem opSra_eq_ofInt (a : Word) (n : Nat) : opSra a n = BitVec.ofInt 64 (a.toInt / 2 ^ min n 63) := by
  rw [opSra, ← BitVec.ofInt_toInt (x := a.sshiftRight _), BitVec.toInt_sshiftRight, Int.shiftRight_eq_div_pow]
  norm_cast

theorem upFrom_eq_range' (a n : Nat) : upFrom a n = List.range' a n := by
  induction n generalizing a with
  | zero => rfl
  | succ n ih => rw [upFrom, List.range'_succ, ih]

theorem upFrom_zero (n : Nat) : upFrom 0 n = List.range n := by
  rw [upFrom_eq_range', List.range_eq_range']

theorem popCount_eq_ofInt (x : Word) :
    BitVec.ofNat 64 (popCount 64 x.toNat) = BitVec.ofInt 64 (((List.range 64).filter x.getLsbD).length : Int) := by
  rw [popCount, upFrom_zero, BitVec.ofInt_natCast]
  rfl

theorem trailZeros_eq_ofInt (x : Word) :
    BitVec.ofNat 64 (trailZeros 64 x.toNat) = BitVec.ofInt 64 (((List.range 64).find? x.getLsbD).getD 64 : Nat) := by
  rw [trailZeros, upFrom_zero, BitVec.ofInt_natCast]
  rfl

theorem leadZeros_eq_ofInt (x : Word) :
    BitVec.ofNat 64 (leadZeros 64 x.toNat) = BitVec.ofInt 64 (if x = 0 then 64 else 63 - (Nat.log2 x.toNat : Int)) := by
  have h0 : x.toNat = 0 ↔ x = 0 := ⟨fun h => BitVec.eq_of_toNat_eq h, fun h => by rw [h]; rfl⟩
  rw [leadZeros, ← BitVec.ofInt_natCast]
  simp only [h0]
  split
  · rfl
  case isFalse h =>
    have := (Nat.log2_lt fun hx => h (h0.mp hx)).mpr x.isLt
    congr 1
    omega

theorem opMin_eq_ofInt (u : Bool) (a b : Word) : opMin u a b = BitVec.ofInt 64 (min (asInt u a) (asInt u b)) := by
  rw [opMin, Int.min_def]
  split <;> rw [ofInt_asInt]

theorem opMax_eq_ofInt (u : Bool) (a b : Word) : opMax u a b = BitVec.ofInt 64 (max (asInt u a) (asInt u b)) := by
  rw [opMax, Int.max_def]
  split <;> rw [ofInt_asInt]

/-- A field past bit 63 reads zero, so that the guard of the model's bfx changes nothing. -/
theorem opBfx_eq_ofInt (a : Word) (p w : Nat) (sg : Bool) :
    opBfx a p w sg = BitVec.ofInt 64
      (if sg ∧ 2 ^ (w - 1) ≤ a.toNat / 2 ^ p % 2 ^ w then ((a.toNat / 2 ^ p % 2 ^ w : Nat) : Int) - 2 ^ w
        else ((a.toNat / 2 ^ p % 2 ^ w : Nat) : Int)) := by
  have hp : (if 64 ≤ p then 0 else a.toNat / 2 ^ p) = a.toNat / 2 ^ p := by
    split
    case isTrue h => exact (Nat.div_eq_of_lt (Nat.lt_of_lt_of_le a.isLt (Nat.pow_le_pow_right (by decide) h))).symm
    case isFalse => rfl
  simp only [opBfx, hp, Bool.and_eq_true, decide_eq_true_eq]

theorem getLsbD_fieldMask (p w : Nat) {i : Nat} (hi : i < 64) :
    (if 64 ≤ p then 0 else BitVec.ofNat 64 ((2 ^ w - 1) * 2 ^ p) : Word).getLsbD i = decide (p ≤ i ∧ i < p + w) := by
  split
  case isTrue h =>
    have : ¬ (p ≤ i ∧ i < p + w) := by omega
    simp [this]
  case isFalse h =>
    rw [BitVec.getLsbD_ofNat, ← Nat.shiftLeft_eq, Nat.testBit_shiftLeft, Nat.testBit_two_pow_sub_one, Bool.eq_iff_iff]
    simp only [hi, decide_true, Bool.true_and, Bool.and_eq_true, decide_eq_true_eq]
    omega

/-- bfi takes the field from the source and every other bit from the destination (R117). -/
theorem getLsbD_opBfi (d a : Word) (p w : Nat) {i : Nat} (hi : i < 64) :
    (opBfi d a p w).getLsbD i = if p ≤ i ∧ i < p + w then a.getLsbD (i - p) else d.getLsbD i := by
  simp only [opBfi, BitVec.getLsbD_or, BitVec.getLsbD_and, BitVec.getLsbD_not, getLsbD_fieldMask p w hi, hi, decide_true, Bool.true_and]
  by_cases h : p ≤ i ∧ i < p + w
  · have hp : ¬ 64 ≤ p := by omega
    rw [if_pos h, if_neg hp, BitVec.getLsbD_shiftLeft]
    simp only [h, hi, Nat.not_lt.mpr h.1, and_self, decide_true, decide_false, Bool.not_true, Bool.not_false, Bool.and_false, Bool.true_and,
      Bool.and_true, Bool.false_or]
  · simp [h]

/-! ### The words -/

/-- Settles O1: each immediate operation gives the value of R115 at its operand. -/
theorem immediateResults : Obligations.ImmediateResults := by
  intro s st i w l fd x h hv
  cases i with
  | addi a | andi a | ori a | xori a | li a =>
    obtain ⟨rfl, rfl⟩ := Prod.mk.inj (Option.some.inj hv)
    rw [immediate_eq]
    exact regWord_issues h rfl rfl rfl
  | shli a | shri a =>
    obtain ⟨rfl, rfl⟩ := Prod.mk.inj (Option.some.inj hv)
    have hn : ¬ 64 ≤ a.i 0 6 := Nat.not_le.mpr (Nat.mod_lt _ (by decide))
    exact regWord_issues h rfl rfl (congrArg (fun y => [effX a.fd y]) (if_neg hn))
  | srai a =>
    obtain ⟨rfl, rfl⟩ := Prod.mk.inj (Option.some.inj hv)
    have hn : min (a.i 0 6) 63 = a.imm.toNat % 64 := Nat.min_eq_left (Nat.le_of_lt_succ (Nat.mod_lt _ (by decide)))
    exact regWord_issues h rfl rfl (congrArg (fun n => [effX a.fd ((st.srcX a.fa).sshiftRight n)]) hn)
  | _ => cases hv

/-- The conditions of R118 are the model's. -/
theorem cond64_eq_holds (c : Nat) (u : Bool) (a b : Word) : cond64 c u a b = holds c u a b := by
  match c with
  | 0 | 1 | 2 => rfl
  | c + 3 => cases u <;> simp [cond64, holds, ← decide_not]

/-- The condition, U and operand of cmpi, in both of its forms (R118). -/
theorem cond64_cmpi (a : IForm) (x : Word) :
    cond64 (cmpiOf a).1 (cmpiOf a).2.1 x (cmpiOf a).2.2 =
      match a.ext with
      | some _ => x == immediate a
      | none => holds (a.imm.toNat / 2 ^ 20) (a.imm.getLsbD 19) x ((a.imm.setWidth 19).signExtend 64) := by
  rw [cond64_eq_holds]
  cases h : a.ext with
  | some e => simp [cmpiOf, h, holds, immediate_eq, IForm.simm]
  | none =>
    have hw : BitVec.ofNat 19 (a.i 0 19) = a.imm.setWidth 19 := by
      apply BitVec.eq_of_toNat_eq
      rw [IForm.i_low, BitVec.toNat_ofNat, Nat.mod_mod, BitVec.toNat_setWidth]
    simp only [cmpiOf, h, IForm.i_top, IForm.i_bit_beq, hw]

theorem opSp_eq_getD (n : Nat) (x y : Bool) :
    opSp n x y = ([x && y, x || y, x ^^ y, x && !y, !x, true, false] : List Bool).getD n false := by
  match n with
  | 0 | 1 | 3 | 4 | 5 | 6 => rfl
  | 2 => cases x <;> cases y <;> rfl
  | n + 7 => rfl

/-- Settles O2: compares, spop and sel, each by the table of its own conditions or operations. -/
theorem comparesPredicatesAndSelect : Obligations.ComparesPredicatesAndSelect := by
  intro s st i w l e h hv
  cases i with
  | cmp a =>
    obtain rfl := Option.some.inj hv
    refine regWord_issues h rfl rfl ?_
    rw [cond64_eq_holds, RForm.m_low, RForm.m_bit_beq]
    rfl
  | cmpi a =>
    obtain rfl := Option.some.inj hv
    refine regWord_issues h rfl rfl ?_
    rw [cond64_cmpi]
    rfl
  | spop a =>
    obtain rfl := Option.some.inj hv
    refine regWord_issues h rfl rfl ?_
    rw [opSp_eq_getD, RForm.m_low]
    rfl
  | sel a =>
    obtain rfl := Option.some.inj hv
    exact regWord_issues h rfl rfl rfl
  | _ => cases hv

/-- The shift amount of fsh, by its V bit (R116). -/
theorem fsh_amount (st : Strand) (a : RForm) :
    (if a.m 6 1 = 1 then bits (st.srcX a.fd) 0 6 else a.m 0 6) =
      if a.mod.getLsbD 6 then (st.srcX a.fd).toNat % 64 else a.mod.toNat % 64 := by
  simp only [RForm.m_bit]
  rfl

/-- The position of a bit field, by its V bit (R117). -/
theorem bfPos_eq (st : Strand) (a : RForm) :
    st.bfPos a = if a.mod.getLsbD 13 then (st.srcX a.fb).toNat else a.mod.toNat % 64 := by
  simp only [Strand.bfPos, RForm.m_bit]
  rfl

/-- A word whose result is one value of its registers, an exact integer modulo 2^64. -/
theorem scalarWord_issues {s : State} {st : Strand} {i : Instr} {w : QWord} {l : List QWord} (h : Issuable s st i w l)
    (hc : insCls i = 0) {a : RForm} {v : Strand → Word} {y x : Int} {fd : BitVec 7}
    (he : exec i s = execReg i s fun st => [effX a.fd (v st)]) (hv : v (st.setQueue (insCls i) l) = BitVec.ofInt 64 y)
    (hx : some (a.fd, y) = some (fd, x)) :
    ∃ t, exec i s = .next t ∧ IssueOf s st i w l [effX fd (BitVec.ofInt 64 x)] t := by
  obtain ⟨rfl, rfl⟩ := Prod.mk.inj (Option.some.inj hx)
  exact regWord_issues h hc he (congrArg (fun y => [effX a.fd y]) hv)

/-- R114, R116, R117, operation by operation. -/
theorem scalarResultsAreTheExactIntegers : ScalarResultsAreTheExactIntegers := by
  intro s st i w l fd x h hv
  cases i with
  | add a => exact scalarWord_issues h rfl rfl (add_eq_ofInt _ _) hv
  | sub a => exact scalarWord_issues h rfl rfl (sub_eq_ofInt _ _) hv
  | mul a => exact scalarWord_issues h rfl rfl (mul_eq_ofInt _ _) hv
  | mulh a => exact scalarWord_issues h rfl rfl rfl hv
  | div a => exact scalarWord_issues h rfl rfl (opDiv_eq_ofInt _ _ _) hv
  | rem a => exact scalarWord_issues h rfl rfl (opRem_eq_ofInt _ _ _) hv
  | and a | or a | xor a | andn a => exact scalarWord_issues h rfl rfl (ofInt_toNat _).symm hv
  | shl a => exact scalarWord_issues h rfl rfl (opShl_eq_ofInt _ _) hv
  | shr a => exact scalarWord_issues h rfl rfl (opShr_eq_ofInt _ _) hv
  | sra a => exact scalarWord_issues h rfl rfl (opSra_eq_ofInt _ _) hv
  | popc a => exact scalarWord_issues h rfl rfl (popCount_eq_ofInt _) hv
  | clz a => exact scalarWord_issues h rfl rfl (leadZeros_eq_ofInt _) hv
  | ctz a => exact scalarWord_issues h rfl rfl (trailZeros_eq_ofInt _) hv
  | min a => exact scalarWord_issues h rfl rfl (opMin_eq_ofInt _ _ _) hv
  | max a => exact scalarWord_issues h rfl rfl (opMax_eq_ofInt _ _ _) hv
  | fsh a =>
    refine scalarWord_issues h rfl rfl ?_ hv
    rw [fsh_amount, opFsh, BitVec.ofInt_natCast]
    rfl
  | bfx a =>
    refine scalarWord_issues h rfl rfl ?_ hv
    rw [opBfx_eq_ofInt, bfPos_eq, RForm.m_bit_beq, RForm.m_eq]
    rfl
  | _ => cases hv

/-- R117: the model's bit-field insert, bit by bit. -/
theorem bitFieldInsertKeepsTheOtherBits : BitFieldInsertKeepsTheOtherBits := by
  intro s st a w l h
  obtain ⟨t, ht, hi⟩ := regWord_issues h rfl (i := .bfi a) rfl rfl
  refine ⟨t, _, ht, hi, fun i hi => ?_⟩
  dsimp only
  rw [getLsbD_opBfi _ _ _ _ hi, bfPos_eq, RForm.m_eq]
  rfl

/-- Settles O29: the scalar results as exact integers, and the bits that bfi leaves. -/
theorem scalarAndBitFieldResults : Obligations.ScalarAndBitFieldResults :=
  ⟨scalarResultsAreTheExactIntegers, bitFieldInsertKeepsTheOtherBits⟩

end Sys2Proof.Machine
end

section
/-! PROOF of O4 and O30, and refutation of O31: words of class S that act at their issue, and those that stop their strand (R121 to R136). -/

namespace Sys2Proof.Machine

open Sys2Proof.Claims

/-! ### Words that act on their strand at issue -/

/-- The end of a wait and a change of a strand touch different fields. -/
theorem onStrand_idled (s : State) (j k : Nat) (b : Bool) (f : Strand → Strand) :
    (s.idled j b).onStrand k f = (s.onStrand k f).idled j b := by
  simp only [State.onStrand, State.strand_idled]
  cases s.strand k with
  | none => rfl
  | some st => cases b <;> rfl

/-- An execute-side word without results that changes its strand: it issues, and the change is made to the strand that has issued. -/
theorem execSide_onStrand {s : State} {st : Strand} {i : Instr} {w : QWord} {l : List QWord} (hc : insCls i = 0)
    (h : Issuable s st i w l) {body : Strand → QWord → State → Res (List Eff × (Strand → Strand))} {f : Strand → Strand}
    (he : exec i s = .next (execSide i s body)) (hb : body (st.setQueue (insCls i) l) w s = .ok ([], f) s) :
    ∃ t, IssueOf s st i w l [] t ∧ exec i s = .next (t.onStrand s.cur f) := by
  refine ⟨_, (issueOf (by rw [hc]; exact Nat.zero_ne_one)).idled (b := st.lastWait (insCls i)), ?_⟩
  rw [he, execSide_next h hb, onStrand_idled, onStrand_claim]

/-- Settles O4: each of the four words changes its strand as the table says. -/
theorem controlWordsActAtIssue : Obligations.ControlWordsActAtIssue := by
  intro s st i w l f h hf
  cases i with
  | bcc a | lcmov a | rbmov a =>
    obtain rfl := Option.some.inj hf
    exact execSide_onStrand rfl h rfl rfl
  | mts a =>
    simp only [atIssue] at hf
    split at hf
    case isTrue hn =>
      obtain rfl := Option.some.inj hf
      have hn : a.m 0 12 = 0x008 := hn
      refine execSide_onStrand rfl h rfl ?_
      simp only [hn, Nat.reduceEqDiff, false_and, if_false, if_true]
      rfl
    case isFalse => cases hf
  | _ => cases hf

/-! ### System registers and format words (R125, R126, R136) -/

/-- A word of class S with results and no other effect. -/
theorem execSide_results {s : State} {st : Strand} {i : Instr} {w : QWord} {l : List QWord} (hc : insCls i = 0)
    (h : Issuable s st i w l) {body : Strand → QWord → State → Res (List Eff × (Strand → Strand))} {effs : List Eff}
    (he : exec i s = .next (execSide i s body)) (hb : body (st.setQueue (insCls i) l) w s = .ok (effs, id) s) :
    ∃ t, exec i s = .next t ∧ IssueOf s st i w l effs t :=
  ⟨_, he, execSide_issueOf (by rw [hc]; exact Nat.zero_ne_one) h hb⟩

/-- A push into the format word queue finds room. -/
theorem pushFmt_issues {s : State} {st : Strand} {i : Instr} {w : QWord} {l : List QWord} (hc : insCls i = 0)
    (h : Issuable s st i w l) {v : Strand → Word} (he : exec i s = pushFmt i s v) (hr : st.fmtLoad < 32) :
    ∃ t, exec i s = .next t ∧ IssueOf s st i w l [.fmt (v (st.setQueue (insCls i) l))] t :=
  execSide_results hc h he (if_neg (Nat.not_le.mpr hr))

/-- The operand of mfwi is read without sign (R125, R76). -/
theorem unsigned_immediate (a : IForm) : (match a.ext with | none => a.imm.zeroExtend 64 | some _ => immediate a) = a.uimm := by
  rw [immediate_eq, IForm.simm, IForm.uimm]
  cases a.ext <;> rfl

/-- What tnow reads: with .fx the time counter with its fraction, else its nanoseconds (R136). -/
theorem tnow_value (s : State) (d : Nat) (a : RForm) :
    (if a.m 0 1 = 1 then BitVec.ofNat 64 (s.clock d) else BitVec.ofNat 64 (s.ns d)) =
      BitVec.ofNat 64 (if a.mod.getLsbD 0 then s.clock d else s.clock d / 2 ^ 16) := by
  by_cases hx : a.mod.getLsbD 0 = true
  · exact (if_pos ((RForm.m_bit a 0).mpr hx)).trans (congrArg (BitVec.ofNat 64) (if_pos hx).symm)
  · exact (if_neg (mt (RForm.m_bit a 0).mp hx)).trans (congrArg (BitVec.ofNat 64) (if_neg hx).symm)

/-- R125, R126, R136, word by word. -/
theorem systemAndFormatWords : SystemAndFormatWords := by
  intro s st i w l e h hv
  cases i with
  | mfs a =>
    obtain rfl := Option.some.inj hv
    exact execSide_results rfl h rfl rfl
  | mts a =>
    simp only [systemValue] at hv
    split at hv
    case isTrue => cases hv
    case isFalse hn =>
      obtain rfl := Option.some.inj hv
      obtain ⟨hr, hj⟩ := not_or.mp hn
      exact execSide_results rfl h rfl ((if_neg hj).trans (if_neg hr))
  | tnow a =>
    obtain rfl := Option.some.inj hv
    exact execSide_results rfl h rfl (congrArg (fun v => Res.ok ([effX a.fd v], id) s) (tnow_value s (slotDie s.cur) a))
  | mfw a =>
    simp only [systemValue] at hv
    split at hv
    case isTrue hr =>
      obtain rfl := Option.some.inj hv
      exact pushFmt_issues rfl h rfl hr
    case isFalse => cases hv
  | mfwi a =>
    simp only [systemValue] at hv
    split at hv
    case isTrue hr =>
      obtain rfl : e = .fmt a.uimm := (Option.some.inj hv).symm.trans (congrArg Eff.fmt (unsigned_immediate a))
      exact pushFmt_issues rfl h rfl hr
    case isFalse => cases hv
  | _ => cases hv

/-! ### Words that stop their strand (R35, R131, R133, R362) -/

/-- An execute-side word that stands where it issues and faults stops its strand. -/
theorem execSide_fault {s : State} {st : Strand} {i : Instr} {w : QWord} {l : List QWord} (h : Issuable s st i w l)
    {body : Strand → QWord → State → Res (List Eff × (Strand → Strand))} {f : Flt} {t : State}
    (hb : body (st.setQueue (insCls i) l) w s = .flt f t) (post : Strand → QWord → State → State) :
    execSide i s body post = t.takeFault s.cur f w.pc (insCls i) := by
  simp [execSide, h.here, h.fresh, headOr_head h.head h.word, readySide_ok h, h.clean, hb]

/-- A strand marked as stopping, with its trap registers (R131, R384). -/
def Strand.stopping (st : Strand) (f : Flt) (pc : Word) (eng seq ns : Nat) (word : Option QWord) : Strand :=
  { st with
    stop := some { f := f, pc := pc, feng := eng, seq := seq, word := word, at_ := ns }
    fq := 0
    id := st.id.trapped f pc }

theorem State.unwait_stopping (s : State) (k : Nat) (st : Strand) (f : Flt) (pc : Word) (eng seq ns : Nat) (word : Option QWord) :
    s.unwait k (st.stopping f pc eng seq ns word) = s.unwait k st := rfl

/-- A strand that is being stopped and has stores still to perform goes no further (R384 step 3). -/
theorem State.settle_of_stores {s : State} {k : Nat} {st : Strand} {p : Stop} (h : s.strand k = some st) (hp : st.stop = some p)
    (he : p.ended = false) (hk : p.stuck = false) (hq : st.sq ≠ []) : s.settle k = s := by
  simp [State.settle, h, hp, he, hk, hq]

/-- The stop of a strand that has stores still to perform, whichever word of an engine queue it stands at. -/
theorem State.takeFault_of_stores {s : State} {k : Nat} {st : Strand} (h : s.strand k = some st) (hr : st.stop = none)
    (hq : st.sq ≠ []) (f : Flt) (pc : Word) (eng : Nat) (word : Option QWord) :
    ∃ seq, s.takeFault k f pc eng 0 word =
      (s.unwait k st).setStrand k (st.stopping f pc eng seq (s.ns (slotDie k)) word) := by
  refine ⟨(match word with | some w => w.seq | none => st.seqAt eng 0), ?_⟩
  rw [State.takeFault, h]
  dsimp only
  rw [hr]
  exact State.settle_of_stores (State.strand_setStrand_self _ _ _) rfl rfl rfl hq

/-- TRAP_PC keeps bits 55:3 of the word's address (R131). -/
theorem wordOf_pc (pc : Word) : wordOf [(bits pc 3 53, 3)] = pc &&& 0xFFFFFFFFFFFFF8 := by
  have hm : (0xFFFFFFFFFFFFF8 : Word) = BitVec.ofNat 64 ((2 ^ 53 - 1) <<< 3) := by decide
  apply BitVec.eq_of_getLsbD_eq
  intro i hi
  rw [hm]
  simp only [wordOf, bits, BitVec.getLsbD_or, BitVec.getLsbD_and, BitVec.getLsbD_ofNat, Nat.testBit_shiftLeft, Nat.testBit_mod_two_pow,
    Nat.testBit_shiftRight, Nat.testBit_two_pow_sub_one, hi, decide_true, Bool.true_and]
  by_cases h3 : 3 ≤ i
  · rw [Nat.add_sub_cancel' h3]
    simp [h3, BitVec.getLsbD, Bool.and_comm]
  · simp [h3]

/-- R35, R131, R234: the write is refused before anything is done, and the stop waits for the stores. -/
theorem writeOfMembershipWhileJoinedFaults : WriteOfMembershipWhileJoinedFaults := by
  intro s st a w l h hn hj hq
  have hn : a.m 0 12 = 0x018 := hn
  obtain ⟨seq, ht⟩ := State.takeFault_of_stores h.here h.runs hq { cls := 3, code := 3, info := st.srcX a.fa } w.pc 0 none
  have hx : exec (.mts a) s = .next (s.takeFault s.cur { cls := 3, code := 3, info := st.srcX a.fa } w.pc 0) :=
    congrArg Host.Outcome.next (execSide_fault h (if_pos ⟨hn, hj⟩) _)
  refine ⟨_, _, hx.trans (congrArg Host.Outcome.next ht), State.strand_setStrand_self _ _ _, by constructor <;> simp, rfl, 
    (by decide : wordOf [(3 % 256, 24), (3 % 65536, 0)] = 0x03000003), wordOf_pc w.pc, rfl, h.head⟩

/-- Settles O30: the system registers and format words, and the write that faults. -/
theorem systemRegistersAndFormatWords : Obligations.SystemRegistersAndFormatWords :=
  ⟨systemAndFormatWords, writeOfMembershipWhileJoinedFaults⟩

/-! ### The trap of a strand that waits at a barrier -/

/-- A trap, the first word of a stream. -/
def trapWord : QWord := ⟨.trap ⟨⟨0, false, 0, 0⟩, 0, 0, 0, none⟩, 0, 0⟩

/-- The barrier wait behind it in the stream. -/
def waitWord : QWord := ⟨.barWait ⟨⟨0, false, 0, 0⟩, 0, 0, 0, none⟩, 8, 1⟩

/-- A strand with a store still to perform and a trap at the head of its queue, which waits at barrier 0 for the phase after 0, by a word
behind the trap. -/
def waitingTrapper : Strand :=
  { id := { uid := 1, launch := 1, stage := 0 }, pc := 16, eq := [(0, [trapWord]), (5, [waitWord])], sq := [{ w := trapWord }],
    target := some 1 }

/-- The strand in the next slot, which has kept what it inherits from that wait (R32). -/
def inheritor : Strand := { id := { uid := 2, launch := 1, stage := 0, inh := [(0, 0, 1)] }, pc := 0 }

/-- The two of them in slots 0 and 1. -/
def trapBesideInheritor : State := { strands := [(0, waitingTrapper), (1, inheritor)] }

theorem issuable_waitingTrapper : Issuable trapBesideInheritor waitingTrapper trapWord.ins trapWord [] where
  here   := rfl
  runs   := rfl
  awake  := rfl
  head   := rfl
  word   := rfl
  fresh  := rfl
  order  := rfl
  sync   := rfl
  due    := rfl
  apart  := .inl rfl
  landed := by intro e he; cases he
  tokens := ⟨.inl rfl, .inl rfl⟩
  queues := by intro n hn; cases hn
  room   := by intro _ h8; exact absurd h8 (by decide)
  roomG  := by intro _ h9; exact absurd h9 (by decide)
  clean  := rfl
  unit   := rfl

/-- The stop ends the wait, and with it what the other strand inherits. -/
theorem inheritor_after_trap :
    ∀ t, exec trapWord.ins trapBesideInheritor = .next t → t.strand 1 = some { inheritor with id := { inheritor.id with inh := [] } } := by
  intro t ht
  obtain rfl := Host.Outcome.next.inj ht
  rfl

/-- Refutes O31: the second clause of `TrapStopsItsStrand` has every other strand stay as it was (`SameOthers`), but a strand that stops
waits no longer at its barrier, and what others inherit from its wait ends (R32, `State.unwait`). In the state here the strand waits by a
word behind its trap. `Issuable` allows that; R78 would not, by which a Y word waits only once every earlier word has issued. -/
theorem not_trapsAndDeliveredFaults : ¬ Obligations.TrapsAndDeliveredFaults := by
  rintro ⟨htrap, -⟩
  obtain ⟨-, hstores⟩ := htrap _ _ _ _ _ issuable_waitingTrapper
  obtain ⟨t, -, ht, -, -, hothers, -⟩ := hstores (by decide)
  have hsame : t.strand 1 = some inheritor := hothers.strands 1 (by decide)
  rw [inheritor_after_trap t ht] at hsame
  revert hsame
  decide

end Sys2Proof.Machine
end

section
/-! PROOF of O5: hret puts a stopped strand back on its ready list (R134, R24, R362). -/

namespace Sys2Proof.Machine

open Sys2Proof.Claims

/-! ### The launches of a die after an update -/

theorem State.launch_onLaunch_self {s : State} {d no : Nat} {l : Launch} (h : s.launch d no = some l) (f : Launch → Launch) :
    (s.onLaunch d no f).launch d no = some (f l) := by
  simp only [State.onLaunch, h]
  rw [State.launch, State.die_onDie_self, Tab.find_put_self]

@[simp] theorem State.onLaunch_mem (s : State) (d no : Nat) (f : Launch → Launch) : (s.onLaunch d no f).mem = s.mem := by
  rw [State.onLaunch]
  split <;> rfl

theorem State.launch_of_dies {s t : State} (h : t.dies = s.dies) (d no : Nat) : t.launch d no = s.launch d no := by
  rw [State.launch, State.die, h]
  rfl

/-- A strand of a launch that is not of the latency class displaces nobody as it becomes ready (R28, R46). -/
theorem State.makeReady_of_bulk {s : State} {d : Nat} {x : Entry} {l : Launch} (h : s.launch d x.id.launch = some l)
    (hb : l.latency = false) :
    s.makeReady d x = s.onStage d x.id.launch x.id.stage fun g => { g with ready := g.ready ++ [x] } := by
  have hl : (s.onStage d x.id.launch x.id.stage fun g => { g with ready := g.ready ++ [x] }).latency d x.id.launch = false := by
    rw [State.latency, State.onStage, State.launch_onLaunch_self h]
    exact hb
  rw [State.makeReady, hl]
  rfl

/-- A launch once its stopped strands have left and one of them stands at the tail of its stage's ready list (R134). -/
def Launch.returned (l : Launch) (x : Entry) : Launch :=
  { l with
    stopped := l.stopped.filter fun y => y.1.id.uid != x.id.uid
    stages := l.stages.modify x.id.stage fun g => { g with ready := g.ready ++ [x] } }

theorem State.unstop_of_bulk {s : State} {d : Nat} {x : Entry} {l : Launch} (h : s.launch d x.id.launch = some l)
    (hb : l.latency = false) :
    (s.unstop d x.id.launch x).launch d x.id.launch = some (l.returned x) ∧ (s.unstop d x.id.launch x).mem = s.mem := by
  have h1 := State.launch_onLaunch_self h fun l => { l with stopped := l.stopped.filter fun y => y.1.id.uid != x.id.uid }
  rw [State.unstop, State.makeReady_of_bulk h1 hb, State.onStage]
  exact ⟨State.launch_onLaunch_self h1 _, by simp⟩

/-! ### What hret moves (R134, R391) -/

/-- With the record readable and FULL 0 in it, the stopped strand that was found moves, with the class of the record. -/
theorem State.hretMove_of_bare {s t : State} {k : Nat} {st : Strand} {va : Word} {d no : Nat} {x : Entry} {r : List Byte}
    (hs : s.stoppedAt (slotDie k) st.id.launch va = some (d, no, x)) (hr : s.readVa (s.recWho k st) kLoad va.toNat 64 = .ok r t)
    (hf : (wordAt r 0).getLsbD 55 = false) :
    s.hretMove k st va =
      .ok true (t.unstop d no { x with full := false, id := { x.id with cls := ((wordAt r 0) >>> 53).setWidth 2 } }) := by
  have hc : BitVec.ofNat 2 (bits (wordAt r 0) 53 2) = ((wordAt r 0) >>> 53).setWidth 2 := by
    apply BitVec.eq_of_toNat_eq
    simp [bits]
  simp only [State.hretMove, hs, hr, hf, hc]
  rfl

/-! ### The issue of hret -/

@[simp] theorem State.hretMove_setQueue (s : State) (k c : Nat) (st : Strand) (l : List QWord) (va : Word) :
    s.hretMove k (st.setQueue c l) va = s.hretMove k st va := rfl

/-- An hret with SUSP keeps the record that it names until its suspension point has been tested (R24, R362). -/
def Strand.keepsRet (va : Word) (st : Strand) : Strand := { st with took := st.took.map fun y => { y with ret := some va } }

/-- With every access of its strand done and a strand to return, hret issues: the strand moves at once, or, with SUSP, nothing has moved. -/
theorem exec_hret {s s1 t : State} {st : Strand} {a : RForm} {w : QWord} {l : List QWord} (h : Issuable s st (.hret a) w l)
    (ha : (st.srcX a.fa).toNat % 64 = 0) (hq : st.sq = []) (hl : st.lq = []) (hb : ∀ x ∈ st.queue 1, w.seq ≤ x.seq)
    (hr : s.release s.cur st.id.uid st.id.launch 4 = .ok () s1) (hm : s1.hretMove s.cur st (st.srcX a.fa) = .ok true t) :
    exec (.hret a) s = .next (
      if (insHdr (.hret a)).susp then
        ((s1.setStrand s.cur (((st.setQueue 0 l).issued (.hret a) w []).keepsRet (st.srcX a.fa))).claim s.cur 0).idled s.cur (st.lastWait 0)
      else ((t.setStrand s.cur ((st.setQueue 0 l).issued (.hret a) w [])).claim s.cur 0).idled s.cur (st.lastWait 0)) := by
  have hacc : (!st.sq.isEmpty || !st.lq.isEmpty ||
      ((st.setQueue (insCls (.hret a)) l).queue 1).any fun x => decide (x.seq < w.seq)) = false := by
    rw [Strand.queue_setQueue_ne _ _ (show 1 ≠ insCls (.hret a) from Nat.one_ne_zero), hq, hl, Bool.or_eq_false_iff, List.any_eq_false]
    exact ⟨rfl, fun x hx => by simpa using hb x hx⟩
  cases hp : (insHdr (.hret a)).susp with
  | true =>
    have hp' : a.hdr.susp = true := hp
    refine congrArg Host.Outcome.next (execSide_next h (f := Strand.keepsRet (st.srcX a.fa)) ?_)
    simp [ha, hacc, hr, hm, hp', Res.bind]
    rfl
  | false =>
    have hp' : a.hdr.susp = false := hp
    refine congrArg Host.Outcome.next (execSide_next h (f := id) ?_)
    simp [ha, hacc, hr, hm, hp', Res.bind]

/-- What an issue does to the state after its word changes no launch. -/
theorem launch_issued (s : State) (j k c : Nat) (x : Strand) (b : Bool) (d no : Nat) :
    (((s.setStrand j x).claim j c).idled k b).launch d no = s.launch d no :=
  State.launch_of_dies (by simp) d no

/-- At the drained point of an hret with SUSP, with every queue empty, the strand moves, and the word's own results land from then on. -/
theorem exec_hret_of_drained {s v : State} {st : Strand} {a : RForm} {w : QWord} {tk : Took} {va : Word}
    (h : Drained s st (.hret a) w (some tk)) (hret : tk.ret = some va) (he : st.leftover = 0) (hm : s.hretMove s.cur st va = .ok true v) :
    exec (.hret a) s = .next (v.setStrand s.cur
      { st with land := st.late.foldl (fun l e => landIn ⟨st.now, w.seq, e⟩ l) st.land, late := [], took := none }) := by
  obtain ⟨hland, hmq, hlq, hsq⟩ := h.done
  have ho : st.opened (.hret a) = some w := by simp [Strand.opened, h.susp, h.word]
  have hrt : st.retiredTo w = true := by simp [Strand.retiredTo, h.first, hland, hmq, hlq, hsq]
  refine congrArg Host.Outcome.next ?_
  simp [execSide, h.here, ho, State.suspendWord, h.runs, h.took, hrt, he, hret, hm]

/-- Settles O5: the move at issue, the suspension point of a word with SUSP, and the move there. -/
theorem handlerReturnMovesTheStoppedStrand : Obligations.HandlerReturnMovesTheStoppedStrand := by
  refine ⟨?_, ?_, ?_⟩
  · intro s st a w l s1 s2 r lc g e n h hp ha hq hl hb hr hs hv hf hlc _ hst hlat hel hg
    have hx := exec_hret h ha hq hl hb hr (State.hretMove_of_bare hs hv hf)
    rw [hp, if_neg Bool.false_ne_true] at hx
    rw [← hel] at hlc hx ⊢
    obtain ⟨hm, hmem⟩ := State.unstop_of_bulk
      (x := { e with full := false, id := { e.id with cls := ((wordAt r 0) >>> 53).setWidth 2 } }) hlc hlat
    refine ⟨_, _, hx, (launch_issued _ _ _ _ _ _ _ _).trans hm, ?_, by simpa using hmem, ?_⟩
    · simp [Launch.returned, hst]
    · simp [Launch.returned, hg]
  · intro s st a w l s1 s2 h hp ha hq hl hb hr hm
    have hx := exec_hret h ha hq hl hb hr hm
    rw [hp, if_pos rfl] at hx
    have hs : suspends (.hret a) = true := (Bool.or_eq_true _ _).mpr (.inl hp)
    obtain ⟨-, -, hsusp⟩ := (issued_land (st := st.setQueue 0 l) (i := .hret a) (w := w) (effs := [])).2 hs
    refine ⟨_, ((st.setQueue 0 l).issued (.hret a) w []).keepsRet (st.srcX a.fa), hx, by simp, by simp, by simp, ?_, hsusp⟩
    constructor <;> simp [Strand.keepsRet]
  · intro s st a w tk va v h hret he hm
    exact ⟨_, _, exec_hret_of_drained h hret he hm, rfl, rfl, State.strand_setStrand_self _ _ _, by constructor <;> rfl, rfl⟩

end Sys2Proof.Machine
end

section
/-! PROOF of O12 and O13: the lanes that the words of classes V and F give (R172 to R191). -/

namespace Sys2Proof.Machine

open Sys2Proof.Claims

/-! ### Masks and kept lanes (R170, R173) -/

theorem RForm.m_beq_zero (a : RForm) (k : Nat) : (a.m k 1 == 0) = !a.mod.getLsbD k := by
  have hb : a.m k 1 = 0 ∨ a.m k 1 = 1 := Nat.mod_two_eq_zero_or_one _
  rw [← RForm.m_bit_beq]
  rcases hb with h | h <;> rw [h] <;> rfl

theorem active_eq_on (st : Strand) (a : RForm) (i : Nat) : st.active a i = on st a i := by
  rw [Strand.active, on, RForm.m_beq_zero, RForm.m_eq]
  rfl

theorem lane_kept (st : Strand) (c : BitVec 7) (i : Nat) : lane (st.kept c) i = oldLane st c i := by
  rw [Strand.kept, oldLane]
  split
  · rfl
  · exact BitVec.extractLsb'_zero

/-! ### Words that give a vector -/

/-- A word of class V or F whose results depend on the registers alone issues with what they are before its issue. -/
theorem vectorWord_issues {s : State} {st : Strand} {i : Instr} {w : QWord} {l : List QWord} (h : Issuable s st i w l)
    (hc : insCls i ≠ 1) {effs : Strand → List Eff} (he : exec i s = execReg i s effs) {es : List Eff}
    (hv : effs (st.setQueue (insCls i) l) = es) : ∃ t, exec i s = .next t ∧ IssueOf s st i w l es t := by
  rw [he, ← hv]
  exact execReg_next hc h effs

/-- A word that gives a vector lane by lane. -/
theorem wholeWord_issues {s : State} {st : Strand} {i : Instr} {w : QWord} {l : List QWord} (h : Issuable s st i w l)
    (hc : insCls i ≠ 1) {b fd : BitVec 7} {F : Strand → Nat → Lane} {g f : Nat → Lane}
    (he : exec i s = execReg i s fun st => [effV b (vecOf (F st))]) (hF : ∀ j, F (st.setQueue (insCls i) l) j = g j)
    (hf : ∀ j, some (b, g j) = some (fd, f j)) :
    ∃ t r, exec i s = .next t ∧ IssueOf s st i w l [effV fd r] t ∧ ∀ j, j < 128 → lane r j = f j := by
  obtain rfl : b = fd := congrArg Prod.fst (Option.some.inj (hf 0))
  obtain ⟨t, ht, hi⟩ := vectorWord_issues h hc he rfl
  refine ⟨t, _, ht, hi, fun j hj => ?_⟩
  rw [lane_vecOf _ hj, hF]
  exact congrArg Prod.snd (Option.some.inj (hf j))

/-- A masked word of the lane group: the operation in the active lanes, the old lane in the others (R173). -/
theorem lanesWord_issues {s : State} {st : Strand} {i : Instr} {w : QWord} {l : List QWord} (h : Issuable s st i w l)
    (hc : insCls i ≠ 1) {b a : RForm} {F g f : Lane → Lane → Lane → Lane} (hf : ∀ x y d, some (b, g x y d) = some (a, f x y d))
    (hF : ∀ x y d, F x y d = g x y d) (he : exec i s = execLanes i b F s) :
    ∃ t r, exec i s = .next t ∧ IssueOf s st i w l [effV a.fd r] t ∧ ∀ j, j < 128 →
      lane r j = if on st a j then f (lane (st.srcV a.fa) j) (lane (st.srcV a.fb) j) (oldLane st a.fd j) else oldLane st a.fd j := by
  obtain rfl : b = a := congrArg Prod.fst (Option.some.inj (hf 0 0 0))
  refine wholeWord_issues h hc he (fun j => ?_) (fun _ => rfl)
  have hv : ∀ x y d, F x y d = f x y d := fun x y d => (hF x y d).trans (congrArg Prod.snd (Option.some.inj (hf x y d)))
  show (if st.active b j then F (lane (st.srcV b.fa) j) (lane (st.srcV b.fb) j) (lane (st.kept b.fd) j) else lane (st.kept b.fd) j) = _
  rw [active_eq_on, lane_kept, hv]

/-! ### Lane arithmetic (R174, R175, R181) -/

theorem laneOut_eq_wrapped (ty : Nat) (sat : Bool) (i : Int) : laneOut ty sat i = wrapped ty sat i := by
  cases sat
  · rfl
  · by_cases h : ty = 1 <;> simp [laneOut, wrapped, clampI, h]

theorem laneAdd_eq (a : RForm) (x y : Lane) :
    laneAdd a x y = if ty a = 3 then fsum a (f32 x) (f32 y) else wrapped (ty a) (sat a) (whole (ty a) x + whole (ty a) y) := by
  rw [laneAdd, laneOut_eq_wrapped, RForm.m_bit_beq, RForm.m_eq a 10]
  rfl

theorem laneSub_eq (a : RForm) (x y : Lane) :
    laneSub a x y = if ty a = 3 then fsum a (f32 x) (f32 y).neg else wrapped (ty a) (sat a) (whole (ty a) x - whole (ty a) y) := by
  rw [laneSub, laneOut_eq_wrapped, RForm.m_bit_beq, RForm.m_eq a 10]
  rfl

theorem laneMul_eq (a : RForm) (x y : Lane) :
    laneMul a x y = if ty a = 3 then toF32 (rm a) (Ext.mul (f32 x) (f32 y)) else x * y := by
  rw [laneMul, RForm.m_eq a 10]
  rfl

theorem laneFma_eq (a : RForm) (x y d : Lane) :
    laneFma a x y d = if ty a = 3 then fsum a (Ext.mul (f32 x) (f32 y)) (f32 d) else x * y + d := by
  rw [laneFma, RForm.m_eq a 10]
  rfl

theorem laneFms_eq (a : RForm) (x y d : Lane) :
    laneFms a x y d = if ty a = 3 then fsum a (f32 d) (Ext.mul (f32 x) (f32 y)).neg else d - x * y := by
  rw [laneFms, RForm.m_eq a 10]
  rfl

theorem laneAbs_eq (a : RForm) (x : Lane) :
    laneAbs a x = if ty a = 3 then (if f32 x = .nan then qnan else x &&& 0x7FFFFFFF) else wrapped 1 (sat a) x.toInt.natAbs := by
  rw [laneAbs, laneOut_eq_wrapped, RForm.m_bit_beq]
  rfl

theorem laneNeg_eq (a : RForm) (x : Lane) :
    laneNeg a x = if ty a = 3 then (if f32 x = .nan then qnan else x ^^^ 0x80000000) else wrapped 1 (sat a) (-x.toInt) := by
  rw [laneNeg, laneOut_eq_wrapped, RForm.m_bit_beq]
  rfl

/-- A shift by 32 and more leaves nothing, whether it is cut off or not. -/
theorem shl_unreduced (x : Lane) (n : Nat) : (if 32 ≤ n then 0 else x <<< n) = x <<< n := by
  split
  case isTrue h => exact (BitVec.shiftLeft_eq_zero h).symm
  case isFalse => rfl

theorem ushr_unreduced (x : Lane) (n : Nat) : x >>> min n 32 = x >>> n := by
  rcases Nat.le_total n 32 with h | h
  · rw [Nat.min_eq_left h]
  · rw [Nat.min_eq_right h, BitVec.ushiftRight_eq_zero h, BitVec.ushiftRight_eq_zero (Nat.le_refl 32)]

/-- From 31 on an arithmetic shift gives the sign in every bit. -/
theorem sshr_unreduced (x : Lane) (n : Nat) : x.sshiftRight (min n 31) = x.sshiftRight n := by
  rcases Nat.le_total n 31 with h | h
  · rw [Nat.min_eq_left h]
  · rw [Nat.min_eq_right h]
    apply BitVec.eq_of_getLsbD_eq
    intro i hi
    simp only [BitVec.getLsbD_sshiftRight, BitVec.msb_eq_getLsbD_last]
    rcases Nat.eq_zero_or_pos i with rfl | hp
    · rcases Nat.eq_or_lt_of_le h with rfl | hn
      · rfl
      · simp [show ¬ n < 32 by omega]
    · simp [show ¬ 31 + i < 32 by omega, show ¬ n + i < 32 by omega]

theorem lane_popCount (x : Lane) : popCount 32 x.toNat = ((List.range 32).filter x.getLsbD).length := by
  rw [popCount, upFrom_zero]
  rfl

theorem lane_leadZeros (x : Lane) :
    BitVec.ofNat 32 (leadZeros 32 x.toNat) = if x = 0 then 32 else BitVec.ofNat 32 (31 - Nat.log2 x.toNat) := by
  have h0 : x.toNat = 0 ↔ x = 0 := ⟨fun h => BitVec.eq_of_toNat_eq h, fun h => by rw [h]; rfl⟩
  simp only [leadZeros, h0]
  split <;> rfl

/-- Settles O12: each masked operation, by the value of its lane. -/
theorem laneOperations : Obligations.LaneOperations := by
  intro s st i w l f a h hv
  cases i with
  | vadd b => exact lanesWord_issues h nofun hv (fun x y _ => laneAdd_eq b x y) rfl
  | vsub b => exact lanesWord_issues h nofun hv (fun x y _ => laneSub_eq b x y) rfl
  | vmul b => exact lanesWord_issues h nofun hv (fun x y _ => laneMul_eq b x y) rfl
  | vfma b => exact lanesWord_issues h nofun hv (laneFma_eq b) rfl
  | vfms b => exact lanesWord_issues h nofun hv (laneFms_eq b) rfl
  | vabs b => exact lanesWord_issues h nofun hv (fun x _ _ => laneAbs_eq b x) rfl
  | vneg b => exact lanesWord_issues h nofun hv (fun x _ _ => laneNeg_eq b x) rfl
  | vmulh b | vmin b | vmax b | vand b | vor b | vxor b | vnot b | vbfx b | vmov b =>
    exact lanesWord_issues h nofun hv (fun _ _ _ => rfl) rfl
  | vshl b => exact lanesWord_issues h nofun hv (fun x y _ => shl_unreduced x y.toNat) rfl
  | vshr b => exact lanesWord_issues h nofun hv (fun x y _ => ushr_unreduced x y.toNat) rfl
  | vsra b => exact lanesWord_issues h nofun hv (fun x y _ => sshr_unreduced x y.toNat) rfl
  | vpopc b => exact lanesWord_issues h nofun hv (fun x _ _ => congrArg (BitVec.ofNat 32) (lane_popCount x)) rfl
  | vclz b => exact lanesWord_issues h nofun hv (fun x _ _ => lane_leadZeros x) rfl
  | _ => cases hv 0 0 0

/-! ### Moves, permutes, conversions and special functions (R177, R179 to R181, R184, R186, R189 to R191) -/

theorem low_word (v : Word) : v.extractLsb' 0 32 = v.setWidth 32 := BitVec.setWidth_eq_extractLsb' (by decide) |>.symm

/-- N of vslide, a signed byte (R180). -/
theorem slide_amount (a : RForm) : BitVec.ofNat 8 (a.m 0 8) = a.mod.setWidth 8 := by
  apply BitVec.eq_of_toNat_eq
  rw [RForm.m_low, BitVec.toNat_ofNat, Nat.mod_mod, BitVec.toNat_setWidth]

/-- The lanes on either side of those of the first source come from the second (R180). -/
theorem slide_lane (va vb : Vec) (j : Int) :
    (if j < 0 then lane vb (j + 128).toNat else if 128 ≤ j then lane vb (j - 128).toNat else lane va j.toNat) =
      if j < 0 then lane vb (j + 128).toNat else if j < 128 then lane va j.toNat else lane vb (j - 128).toNat := by
  by_cases h : j < 128
  · rw [if_pos h, if_neg (Int.not_le.mpr h)]
  · rw [if_neg h, if_pos (Int.not_lt.mp h)]

/-- Settles O13: each word by the value of its lane. -/
theorem movesPermutesConversionsAndFunctions : Obligations.MovesPermutesConversionsAndFunctions := by
  intro s st i w l fd f h hv
  cases i with
  | vli a =>
    refine wholeWord_issues h nofun rfl (fun _ => ?_) hv
    rw [low_word, immediate_eq]
  | vbcast a =>
    refine wholeWord_issues h nofun rfl (fun j => ?_) hv
    rw [active_eq_on, lane_kept, low_word]
    rfl
  | vsel a =>
    refine wholeWord_issues h nofun rfl (fun j => ?_) hv
    rw [RForm.m_eq]
    rfl
  | vslide a =>
    refine wholeWord_issues h nofun rfl (fun j => ?_) hv
    rw [slide_amount]
    exact slide_lane _ _ _
  | vrot a =>
    refine wholeWord_issues h nofun rfl (fun j => ?_) hv
    simp only [RForm.m_bit]
    rfl
  | vfsh a =>
    refine wholeWord_issues h nofun rfl (fun j => ?_) hv
    simp only [RForm.m_bit, lane_kept]
    rfl
  | vcvt a => exact wholeWord_issues h nofun rfl (fun j => congrArg (laneCvt a _) (lane_kept _ _ j)) hv
  | vamax a =>
    refine wholeWord_issues h nofun rfl (fun j => ?_) hv
    simp only [RForm.m_bit]
    rfl
  | fcvt a =>
    refine wholeWord_issues h nofun rfl (fun j => ?_) hv
    simp only [lane_kept, RForm.m_eq a 4, RForm.m_eq a 8, RForm.m_eq a 11]
    rfl
  | rcp a | sqrt a | fcvtI a =>
    refine wholeWord_issues h nofun rfl (fun j => ?_) hv
    rw [RForm.m_eq]
    rfl
  | vperm a | exp2 a | log2 a | rsqrt a | tanh a | sigm a | erf a => exact wholeWord_issues h nofun rfl (fun _ => rfl) hv
  | _ => cases hv 0

end Sys2Proof.Machine
end

section
/-! PROOF of O14 and O15: the predicates of class V (R176, R178), and quantised blocks (R185). -/

namespace Sys2Proof.Machine

open Sys2Proof.Claims

/-! ### Words that give a predicate -/

/-- A word that gives a predicate bit by bit. -/
theorem predWord_issues {s : State} {st : Strand} {i : Instr} {w : QWord} {l : List QWord} (h : Issuable s st i w l)
    (hc : insCls i ≠ 1) {b n : Nat} {R : Strand → BitVec 128} {g f : Nat → Bool}
    (he : exec i s = execReg i s fun st => [.p (b - 64) (R st)])
    (hR : ∀ j, j < 128 → (R (st.setQueue (insCls i) l)).getLsbD j = g j) (hf : ∀ j, some (b, g j) = some (n, f j)) :
    ∃ t r, exec i s = .next t ∧ IssueOf s st i w l [.p (n - 64) r] t ∧ ∀ j, j < 128 → r.getLsbD j = f j := by
  obtain rfl : b = n := congrArg Prod.fst (Option.some.inj (hf 0))
  obtain ⟨t, ht, hi⟩ := vectorWord_issues h hc he rfl
  exact ⟨t, _, ht, hi, fun j hj => (hR j hj).trans (congrArg Prod.snd (Option.some.inj (hf j)))⟩

/-- Of integers the relations of vcmp are those of the order, seen by "less" alone (R176). -/
theorem laneCond_whole {t : Nat} (ht : t ≠ 3) (c : Nat) (x y : Lane) :
    laneCond t c x y = ([decide (whole t x = whole t y), decide (whole t x ≠ whole t y), decide (whole t x < whole t y),
      decide (whole t y ≤ whole t x), decide (whole t x ≤ whole t y), decide (whole t y < whole t x)] : List Bool).getD c false := by
  have hf : (t == 3) = false := beq_false_of_ne ht
  simp only [laneCond, hf, Bool.false_and, Bool.false_eq_true, if_false, Bool.not_false, Bool.true_and, Bool.false_or, ← decide_not,
    ← Bool.decide_and, ← Bool.decide_or, Int.not_lt]
  match c with
  | 0 => exact decide_eq_decide.mpr ⟨fun h => Int.le_antisymm h.2 h.1, fun h => ⟨Int.le_of_eq h.symm, Int.le_of_eq h⟩⟩
  | 1 => exact decide_eq_decide.mpr ⟨fun h => h.elim Int.ne_of_lt fun h => (Int.ne_of_lt h).symm, Int.lt_or_gt_of_ne⟩
  | 2 | 3 | 4 | 5 => rfl
  | c + 6 => rfl

theorem laneCond_eq_related (t c : Nat) (x y : Lane) : laneCond t c x y = related t c x y := by
  by_cases ht : t = 3
  · subst ht
    have hn : (f32 x == .nan || f32 y == .nan) = decide (f32 x = .nan ∨ f32 y = .nan) := by
      rw [Bool.decide_or]
      rfl
    simp only [laneCond, related, if_true, BEq.rfl, Bool.true_and, hn]
    match c with
    | 0 | 1 | 2 | 3 | 4 | 5 | 6 => rfl
    | c + 7 => rfl
  · rw [laneCond_whole ht, related, if_neg ht]

/-- Settles O14: vcmp through the relations of its lanes, the predicate words bit by bit. -/
theorem predicateBits : Obligations.PredicateBits := by
  intro s st i w l n f h hv
  cases i with
  | vcmp a =>
    refine predWord_issues h nofun rfl (fun j hj => ?_) hv
    rw [getLsbD_predOf _ hj, active_eq_on, laneCond_eq_related, RForm.m_eq]
    rfl
  | pand a => exact predWord_issues h nofun rfl (fun j _ => BitVec.getLsbD_and) hv
  | por a => exact predWord_issues h nofun rfl (fun j _ => BitVec.getLsbD_or) hv
  | pxor a => exact predWord_issues h nofun rfl (fun j _ => BitVec.getLsbD_xor) hv
  | pnot a =>
    refine predWord_issues h nofun rfl (fun j hj => ?_) hv
    rw [BitVec.getLsbD_not, decide_eq_true hj]
    rfl
  | pset a =>
    exact predWord_issues h nofun rfl
      (fun j hj => (getLsbD_predOf _ hj).trans (congrArg (decide (j < a.i 0 8) != ·) (IForm.i_bit_beq a 8))) hv
  | _ => cases hv 0

/-! ### Block quantisation (R185) -/

/-- The body of vqmx and vqem, by the fields of MOD. -/
theorem quantWord_issues {s : State} {st : Strand} {i : Instr} {w : QWord} {l : List QWord} {a : RForm} (h : Issuable s st i w l)
    (hc : insCls i ≠ 1) (he : exec i s = execQuant i a s) :
    let c := a.mod.toNat % 16
    let qs := quantise c (a.mod.toNat / 16 % 8) ((List.range 128).map fun j => f32 (lane (st.srcV a.fa) j))
    let data := padTo 508 (quantBytes c qs) ++ (if c < 9 then qs.map fun q => BitVec.ofNat 8 q.scale else [])
    ∃ t, exec i s = .next t ∧ IssueOf s st i w l (effV a.fd (BitVec.ofNat 4096 (leNat data)) ::
      (if a.mod.getLsbD 7 then [.p (a.fb.toNat - 64) (BitVec.ofNat 128 (quantFlags qs))] else [])) t := by
  refine vectorWord_issues h hc he ?_
  simp only [upFrom_zero, RForm.m_bit, RForm.m_low, RForm.m_eq a 4]
  rfl

/-- Settles O15: both words are one body. -/
theorem blockQuantisation : Obligations.BlockQuantisation := by
  intro s st a w l i hi h
  simp only [List.mem_cons, List.not_mem_nil, or_false] at hi
  rcases hi with rfl | rfl
  · exact quantWord_issues h nofun rfl
  · exact quantWord_issues h nofun rfl

end Sys2Proof.Machine
end

section
/-! PROOF of O37: reductions, and sums of the lanes up to each lane (R182, R183). -/

namespace Sys2Proof.Machine

open Sys2Proof.Claims

/-! ### The tree of a reduction (R182) -/

/-- A relation of lists of lanes to what they combine to, that `op` carries along: a lane stands for itself, and `op` joins neighbouring
lists. -/
structure Combines (op : Lane → Lane → Lane) (P : List Lane → Lane → Prop) : Prop where
  one : ∀ x, P [x] x
  two : ∀ {l m x y}, P l x → P m y → P (l ++ m) (op x y)

section
variable {op : Lane → Lane → Lane} {P : List Lane → Lane → Prop} (hP : Combines op P)
include hP

/-- A level joins neighbouring groups, of which each is given with what it combines to. -/
theorem treeLevel_groups : ∀ (n : Nat) (gs : List (List Lane × Lane)), gs.length = 2 * n → (∀ g ∈ gs, P g.1 g.2) →
    ∃ hs : List (List Lane × Lane), hs.length = n ∧ (∀ g ∈ hs, P g.1 g.2) ∧ hs.flatMap Prod.fst = gs.flatMap Prod.fst ∧
      treeLevel op (gs.map fun g => some g.2) = hs.map fun g => some g.2
  | 0, gs, hl, _ => by
    obtain rfl := List.eq_nil_of_length_eq_zero hl
    exact ⟨[], rfl, by simp, rfl, rfl⟩
  | n + 1, g1 :: g2 :: gs, hl, hg => by
    simp only [List.forall_mem_cons] at hg
    obtain ⟨hg1, hg2, hg⟩ := hg
    obtain ⟨hs, h1, h2, h3, h4⟩ := treeLevel_groups n gs (by simpa [Nat.mul_succ] using hl) hg
    refine ⟨(g1.1 ++ g2.1, op g1.2 g2.2) :: hs, by simp [h1], ?_, by simp [h3], by simp [treeLevel, comb, h4]⟩
    simpa only [List.forall_mem_cons] using And.intro (hP.two hg1 hg2) h2

theorem treeFold_groups : ∀ (n : Nat) (gs : List (List Lane × Lane)), gs.length = 2 ^ n → (∀ g ∈ gs, P g.1 g.2) →
    ∃ v, treeFold op n (gs.map fun g => some g.2) = some v ∧ P (gs.flatMap Prod.fst) v
  | 0, gs, hl, hg => by
    obtain ⟨g, rfl⟩ := List.length_eq_one_iff.mp hl
    exact ⟨g.2, rfl, by simpa using hg⟩
  | n + 1, gs, hl, hg => by
    obtain ⟨hs, h1, h2, h3, h4⟩ := treeLevel_groups hP (2 ^ n) gs (by rw [hl, Nat.pow_succ, Nat.mul_comm]) hg
    rw [treeFold, h4, ← h3]
    exact treeFold_groups n hs h1 h2

/-- The tree over 2^n lanes that are all present. -/
theorem treeFold_present (n : Nat) (l : List Lane) (hl : l.length = 2 ^ n) : ∃ v, treeFold op n (l.map some) = some v ∧ P l v := by
  have ht := treeFold_groups hP n (l.map fun x => ([x], x)) (by simpa using hl) (by simpa using fun x _ => hP.one x)
  simpa [List.flatMap_map, Function.comp_def] using ht

end

/-- The sum of lanes modulo 2^32. -/
def laneSum (l : List Lane) : Lane := l.foldl (· + ·) 0

theorem laneSum_append (l m : List Lane) : laneSum (l ++ m) = laneSum l + laneSum m := by
  simp only [laneSum, ← List.sum_eq_foldl, List.sum_append]

/-- One of the lanes, that no lane exceeds. -/
def TopOf (t : Nat) (l : List Lane) (v : Lane) : Prop := v ∈ l ∧ ∀ x ∈ l, whole t x ≤ whole t v

/-- One of the lanes, that no lane undercuts. -/
def BottomOf (t : Nat) (l : List Lane) (v : Lane) : Prop := v ∈ l ∧ ∀ x ∈ l, whole t v ≤ whole t x

section
variable {t : Nat} (ht : t ≠ 3)
include ht

theorem combines_sum (m : Nat) : Combines (foldOp 0 t m).1 fun l v => v = laneSum l where
  one x := (BitVec.zero_add x).symm
  two {l m' x y} hx hy := by
    subst hx hy
    rw [laneSum_append, foldOp, if_neg ht]

theorem combines_max (m : Nat) : Combines (foldOp 1 t m).1 (TopOf t) where
  one x := by simp [TopOf]
  two {l m' x y} hx hy := by
    obtain ⟨hx, hl⟩ := hx
    obtain ⟨hy, hm⟩ := hy
    show TopOf t (l ++ m') (if t = 3 then fmaxL x y else if whole t x ≤ whole t y then y else x)
    rw [if_neg ht]
    split
    case isTrue h => exact ⟨by simp [hy], fun z hz => (List.mem_append.mp hz).elim (fun h' => Int.le_trans (hl z h') h) (hm z)⟩
    case isFalse h =>
      have hle : whole t y ≤ whole t x := Int.le_of_lt (Int.not_le.mp h)
      exact ⟨by simp [hx], fun z hz => (List.mem_append.mp hz).elim (hl z) fun h' => Int.le_trans (hm z h') hle⟩

theorem combines_min (m : Nat) : Combines (foldOp 2 t m).1 (BottomOf t) where
  one x := by simp [BottomOf]
  two {l m' x y} hx hy := by
    obtain ⟨hx, hl⟩ := hx
    obtain ⟨hy, hm⟩ := hy
    show BottomOf t (l ++ m') (if t = 3 then fminF x y else if whole t x ≤ whole t y then x else y)
    rw [if_neg ht]
    split
    case isTrue h => exact ⟨by simp [hx], fun z hz => (List.mem_append.mp hz).elim (hl z) fun h' => Int.le_trans h (hm z h')⟩
    case isFalse h =>
      have hle : whole t y ≤ whole t x := Int.le_of_lt (Int.not_le.mp h)
      exact ⟨by simp [hy], fun z hz => (List.mem_append.mp hz).elim (fun h' => Int.le_trans hle (hl z h')) (hm z)⟩

end

/-! ### Reductions -/

/-- The lanes of the source of a word. -/
def sourceLanes (st : Strand) (a : RForm) : List Lane := (List.range 128).map (lane (st.srcV a.fa))

/-- Unmasked, every lane is present. -/
theorem lanesOf_unmasked {st : Strand} {a : RForm} (hm : a.mod.getLsbD 9 = false) :
    st.lanesOf a = (sourceLanes st a).map some := by
  have ha : ∀ i, st.active a i = true := fun i => by rw [active_eq_on, on, hm]; rfl
  simp only [Strand.lanesOf, ha, if_true, upFrom_zero, sourceLanes, List.map_map]
  rfl

/-- The lane that a reduction gives. -/
def redValue (st : Strand) (a : RForm) (op : Nat) : Lane :=
  canonNan (ty a) ((treeFold (foldOp op (ty a) (rm a)).1 7 (st.lanesOf a)).getD (foldOp op (ty a) (rm a)).2)

/-- What an unmasked reduction of integers gives, by what its operator carries along. -/
theorem redValue_combines {st : Strand} {a : RForm} {op : Nat} {P : List Lane → Lane → Prop} (ht : ty a ≠ 3)
    (hm : a.mod.getLsbD 9 = false) (hP : Combines (foldOp op (ty a) (rm a)).1 P) : P (sourceLanes st a) (redValue st a op) := by
  obtain ⟨v, hv, hp⟩ := treeFold_present hP 7 (sourceLanes st a) (by simp [sourceLanes])
  rw [redValue, lanesOf_unmasked hm, hv, canonNan, if_neg (fun h => ht h.1)]
  exact hp

theorem mem_sourceLanes {st : Strand} {a : RForm} {v : Lane} :
    v ∈ sourceLanes st a ↔ ∃ j, j < 128 ∧ v = lane (st.srcV a.fa) j := by
  simp [sourceLanes, eq_comm]

/-- R182 of any of the three reductions. -/
theorem redWord_issues {s : State} {st : Strand} {i : Instr} {w : QWord} {l : List QWord} {a : RForm} {op : Nat}
    (h : Issuable s st i w l) (hc : insCls i ≠ 1) (he : exec i s = execRed i a op s) :
    ∃ t r v, exec i s = .next t ∧ IssueOf s st i w l [effV a.fd r] t ∧ (∀ j, j < 128 → lane r j = v) ∧
      (ty a ≠ 3 → a.mod.getLsbD 9 = false →
        (op = 0 → v = ((List.range 128).map (lane (st.srcV a.fa))).foldl (· + ·) 0) ∧
        (op = 1 → (∃ j, j < 128 ∧ v = lane (st.srcV a.fa) j) ∧
          ∀ j, j < 128 → whole (ty a) (lane (st.srcV a.fa) j) ≤ whole (ty a) v) ∧
        (op = 2 → (∃ j, j < 128 ∧ v = lane (st.srcV a.fa) j) ∧
          ∀ j, j < 128 → whole (ty a) v ≤ whole (ty a) (lane (st.srcV a.fa) j))) := by
  have hrm : a.m 10 3 = rm a := RForm.m_eq a 10 3
  obtain ⟨t, ht, hi⟩ := vectorWord_issues h hc he (es := [effV a.fd (vecOf fun _ => redValue st a op)]) (by rw [hrm]; rfl)
  refine ⟨t, _, redValue st a op, ht, hi, fun j hj => lane_vecOf _ hj, fun hty hm => ⟨?_, ?_, ?_⟩⟩
  · rintro rfl
    exact redValue_combines hty hm (combines_sum hty _)
  · rintro rfl
    obtain ⟨hv, hall⟩ := redValue_combines (st := st) hty hm (combines_max hty _)
    exact ⟨mem_sourceLanes.mp hv, fun j hj => hall _ (mem_sourceLanes.mpr ⟨j, hj, rfl⟩)⟩
  · rintro rfl
    obtain ⟨hv, hall⟩ := redValue_combines (st := st) hty hm (combines_min hty _)
    exact ⟨mem_sourceLanes.mp hv, fun j hj => hall _ (mem_sourceLanes.mpr ⟨j, hj, rfl⟩)⟩

theorem reductions : Reductions := by
  intro s st i w l a op h hv
  cases i with
  | vredsum b | vredmax b | vredmin b =>
    obtain ⟨rfl, rfl⟩ := Prod.mk.inj (Option.some.inj hv)
    exact redWord_issues h nofun rfl
  | _ => cases hv

/-! ### Scans (R183) -/

/-- The sum of the first `n` lanes. -/
def prefixSum (f : Nat → Lane) (n : Nat) : Lane := ((List.range n).map f).foldl (· + ·) 0

theorem prefixSum_succ (f : Nat → Lane) (n : Nat) : prefixSum f (n + 1) = prefixSum f n + f n := by
  simp [prefixSum, List.range_succ]

/-- The sum of the `d` lanes that end with lane `i`, or of all up to it where there are fewer. -/
def windowSum (f : Nat → Lane) (d i : Nat) : Lane := prefixSum f (i + 1) - prefixSum f (i + 1 - d)

theorem windowSum_one (f : Nat → Lane) (i : Nat) : windowSum f 1 i = f i := by
  rw [windowSum, prefixSum_succ, Nat.add_sub_cancel, BitVec.add_comm, BitVec.add_sub_cancel]

/-- A window that begins at lane 0 or before does not grow any more. -/
theorem windowSum_full (f : Nat → Lane) {d i : Nat} (h : i < d) : windowSum f d i = prefixSum f (i + 1) := by
  rw [windowSum, Nat.sub_eq_zero_of_le h]
  exact BitVec.sub_zero _

theorem sub_add_sub_middle (x y z : Lane) : x - y + (z - x) = z - y := by
  bv_omega

/-- Two neighbouring windows make one of twice the length. -/
theorem windowSum_double (f : Nat → Lane) (d i : Nat) :
    windowSum f d i + windowSum f d (i + d) = windowSum f (2 * d) (i + d) := by
  rw [windowSum, windowSum, windowSum, show i + d + 1 - d = i + 1 by omega, show i + d + 1 - 2 * d = i + 1 - d by omega]
  exact sub_add_sub_middle _ _ _

/-- The windows of `d` lanes, by the lane with which each ends. -/
def windows (f : Nat → Lane) (d : Nat) : List (Option Lane) := (List.range 128).map fun i => some (windowSum f d i)

theorem length_windows (f : Nat → Lane) (d : Nat) : (windows f d).length = 128 := by
  rw [windows, List.length_map, List.length_range]

/-- A pass at distance `d` over windows of `d` lanes doubles them. -/
theorem scan_pass (f : Nat → Lane) (d : Nat) :
    (windows f d).take d ++ List.zipWith (comb (· + ·)) (windows f d) ((windows f d).drop d) = windows f (2 * d) := by
  apply List.ext_getElem
  · rw [List.length_append, List.length_zipWith, List.length_drop, List.length_take, length_windows, length_windows]
    omega
  · intro i _ h2
    have hi : i < 128 := by rwa [length_windows] at h2
    rcases Nat.lt_or_ge i d with hd | hd
    · rw [List.getElem_append_left (by rw [List.length_take, length_windows]; omega)]
      simp [windows, windowSum_full f hd, windowSum_full f (by omega : i < 2 * d)]
    · obtain ⟨j, rfl⟩ := Nat.exists_eq_add_of_le' hd
      rw [List.getElem_append_right (by rw [List.length_take, length_windows]; omega)]
      simp [windows, comb, Nat.min_eq_left (by omega : d ≤ 128), windowSum_double, Nat.add_comm d j]

theorem scanFold_sum (f : Nat → Lane) :
    scanFold (· + ·) [1, 2, 4, 8, 16, 32, 64] ((List.range 128).map fun i => some (f i)) = windows f 128 := by
  have h1 : ((List.range 128).map fun i => some (f i)) = windows f 1 := by simp only [windows, windowSum_one]
  simp only [h1, scanFold, scan_pass, Nat.reduceMul]

/-- The lane that a scan gives. -/
def scanLane (st : Strand) (a : RForm) (i : Nat) : Lane :=
  let r := scanFold (foldOp (a.mod.toNat / 2 ^ 13 % 4) (ty a) (rm a)).1 [1, 2, 4, 8, 16, 32, 64] (st.lanesOf a)
  if on st a i then canonNan (ty a) ((r.getD i none).getD 0) else oldLane st a.fd i

/-- An unmasked scan of integer sums gives each lane the sum up to it. -/
theorem scanLane_sum {st : Strand} {a : RForm} (ht : ty a ≠ 3) (hm : a.mod.getLsbD 9 = false) (hop : a.mod.toNat / 2 ^ 13 = 0) {i : Nat}
    (hi : i < 128) : scanLane st a i = prefixSum (lane (st.srcV a.fa)) (i + 1) := by
  have hon : on st a i = true := by rw [on, hm]; rfl
  have hadd : (foldOp (0 % 4) (ty a) (rm a)).1 = (· + ·) := if_neg ht
  have hl : st.lanesOf a = (List.range 128).map fun i => some (lane (st.srcV a.fa) i) := by
    rw [lanesOf_unmasked hm, sourceLanes, List.map_map]
    rfl
  rw [scanLane, hop, hadd, hl, scanFold_sum, if_pos hon, canonNan, if_neg (fun h => ht h.1)]
  simp [windows, hi, windowSum_full _ hi]

/-- R183: each pass doubles the windows, until they reach lane 0. -/
theorem prefixSums : PrefixSums := by
  intro s st a w l h
  obtain ⟨t, r, ht, hi, hr⟩ := wholeWord_issues (g := scanLane st a) (f := scanLane st a) h nofun (i := .vscan a) rfl (fun j => by
    rw [active_eq_on, lane_kept, RForm.m_eq, RForm.m_eq]
    rfl) (fun _ => rfl)
  refine ⟨t, r, ht, hi, fun hty hm hop j hj => (hr j hj).trans (scanLane_sum hty hm hop hj), fun j hj hoff => (hr j hj).trans ?_⟩
  rw [scanLane, hoff]
  rfl

/-- Settles O37: the reductions by the tree that joins neighbours, the scans by windows that double. -/
theorem reductionsAndPrefixSums : Obligations.ReductionsAndPrefixSums := ⟨reductions, prefixSums⟩

end Sys2Proof.Machine
end

section
/-! PROOF of O38: the rows of the accumulator store that class V reaches, and the overrun fault (R187, R377). -/

namespace Sys2Proof.Machine

open Sys2Proof.Claims

/-! ### Rows within the store -/

theorem exec_vaccRd (a : RForm) (s : State) : exec (.vaccRd a) s = execVacc (.vaccRd a) a true (fun old _ _ => effV a.fd old) s := rfl

theorem exec_vaccWr (a : RForm) (s : State) :
    exec (.vaccWr a) s = execVacc (.vaccWr a) a false (fun _ st r => .acc r (a.m 10 2) (st.srcV a.fb)) s := rfl

theorem exec_vaccAdd (a : RForm) (s : State) :
    exec (.vaccAdd a) s = execVacc (.vaccAdd a) a true (fun _ st r => .accAdd r (a.m 10 2) 0 (a.m 12 1) (st.srcV a.fb)) s := rfl

/-- The first byte of the quarter that a vacc word names. -/
theorem accLoc_quarter (st : Strand) (a : RForm) (t : Nat) :
    accLoc t (st.accRow a) (a.m 10 2) =
      .acc t (2048 * ((st.xr a.fa.toNat).toNat + a.mod.toNat % 2 ^ 10) + 512 * (a.mod.toNat / 2 ^ 10 % 4)) :=
  congrArg (fun q => Loc.acc t (2048 * st.accRow a + 512 * q)) (RForm.m_eq a 10 2)

/-- A vacc word whose row is below 768 and which reads no poison issues with its effect. -/
theorem vaccWord_issues {s : State} {st : Strand} {i : Instr} {w : QWord} {l : List QWord} {a : RForm} (h : Issuable s st i w l)
    (hc : insCls i ≠ 1) {read : Bool} {f : Vec → Strand → Nat → Eff} (he : exec i s = execVacc i a read f s)
    (hr : (st.xr a.fa.toNat).toNat + a.mod.toNat % 2 ^ 10 < 768)
    (hp : read = true → s.poisoned (accLoc (slotTile s.cur) (st.accRow a) (a.m 10 2)).key 512 = false) {e : Eff}
    (hf : f (BitVec.ofNat 4096 (s.peekNat (accLoc (slotTile s.cur) (st.accRow a) (a.m 10 2)) 512)) (st.setQueue (insCls i) l)
      (st.accRow a) = e) :
    ∃ t, exec i s = .next t ∧ IssueOf s st i w l [e] t := by
  have hrow : ¬ 768 ≤ st.accRow a := Nat.not_le.mpr hr
  have hpoison : ¬ (read && s.poisoned (accLoc (slotTile s.cur) (st.accRow a) (a.m 10 2)).key 512) = true := by
    rw [Bool.and_eq_true, not_and]
    exact fun hrd => by rw [hp hrd]; exact Bool.false_ne_true
  refine ⟨_, he, execSide_issueOf hc h ?_⟩
  subst hf
  exact (if_neg hrow).trans (if_neg hpoison)

theorem accumulatorQuarters : AccumulatorQuarters := by
  intro s st a w l row quarter clean hr
  have hl := accLoc_quarter st a (slotTile s.cur)
  have hq : a.m 10 2 = quarter := RForm.m_eq a 10 2
  have hc : clean → true = true → s.poisoned (accLoc (slotTile s.cur) (st.accRow a) (a.m 10 2)).key 512 = false := by
    rw [hl]
    exact fun hp _ => hp
  refine ⟨fun hp h => vaccWord_issues h nofun (exec_vaccRd a s) hr (hc hp) ?_,
    fun h => vaccWord_issues h nofun (exec_vaccWr a s) hr (fun hf => absurd hf Bool.false_ne_true) ?_,
    fun hp h => vaccWord_issues h nofun (exec_vaccAdd a s) hr (hc hp) ?_⟩
  · rw [hl]
  · rw [hq]
    rfl
  · rw [hq, RForm.m_eq a 12]
    rfl

/-! ### Rows past the store -/

/-- The end of a wait leaves memory as it is. -/
@[simp] theorem State.unwait_mem (s : State) (k : Nat) (st : Strand) : (s.unwait k st).mem = s.mem := by
  simp only [State.unwait, apply_ite State.mem, State.onLaunch_mem, ite_self]
  split <;> rfl

/-- A vacc word whose row is 768 or more stops its strand before anything is done. -/
theorem vaccWord_overruns {s : State} {st : Strand} {i : Instr} {w : QWord} {l : List QWord} {a : RForm} (h : Issuable s st i w l)
    {read : Bool} {f : Vec → Strand → Nat → Eff} (he : exec i s = execVacc i a read f s) (hq : st.sq ≠ [])
    (hr : 768 ≤ (st.xr a.fa.toNat).toNat + a.mod.toNat % 2 ^ 10) :
    ∃ t u, exec i s = .next t ∧ t.strand s.cur = some u ∧ t.mem = s.mem ∧ u.v = st.v ∧ u.land = st.land ∧
      u.stop.map (fun p => (p.f.cls, p.f.code, p.pc)) = some (3, 7, w.pc) := by
  obtain ⟨seq, ht⟩ := State.takeFault_of_stores h.here h.runs hq (overrunFlt (st.accRow a)) w.pc (insCls i) none
  have hx : exec i s = .next (s.takeFault s.cur (overrunFlt (st.accRow a)) w.pc (insCls i)) :=
    he.trans (congrArg Host.Outcome.next (execSide_fault h (if_pos hr) _))
  exact ⟨_, _, hx.trans (congrArg Host.Outcome.next ht), State.strand_setStrand_self _ _ _, State.unwait_mem s s.cur st, rfl, rfl, rfl⟩

theorem accumulatorRowOverrunFaults : AccumulatorRowOverrunFaults := by
  intro s st a w l i hi h hq hr
  simp only [List.mem_cons, List.not_mem_nil, or_false] at hi
  rcases hi with rfl | rfl | rfl
  · exact vaccWord_overruns h (exec_vaccRd a s) hq hr
  · exact vaccWord_overruns h (exec_vaccWr a s) hq hr
  · exact vaccWord_overruns h (exec_vaccAdd a s) hq hr

/-- Settles O38: the three words below row 768, and the fault that they share from there on. -/
theorem accumulatorRowAccess : Obligations.AccumulatorRowAccess := ⟨accumulatorQuarters, accumulatorRowOverrunFaults⟩

end Sys2Proof.Machine
end

section
/-! PROOF of O41: rows of the accumulator store as streams, clears and weight updates leave them (R188, R202, R208, R239). -/

namespace Sys2Proof.Machine

open Sys2Proof.Claims

/-! ### Parts of what is read and written -/

@[simp] theorem Loc.key_add (l : Loc) (n : Nat) : (l.add n).key = l.key + n := by
  cases l <;> simp only [Loc.add, Loc.key] <;> omega

theorem readMem_slice (m : List Host.Cell) (a : Nat) {o k n : Nat} (h : o + k ≤ n) :
    ((readMem m a n).drop o).take k = readMem m (a + o) k := by
  apply List.ext_getElem?
  intro i
  rcases Nat.lt_or_ge i k with hi | hi
  · rw [List.getElem?_take_of_lt hi, List.getElem?_drop, readMem_get m a (by omega), readMem_get m (a + o) hi, Nat.add_assoc]
  · rw [List.getElem?_eq_none (by rw [List.length_take]; omega), List.getElem?_eq_none (by rw [readMem_length]; exact hi)]

/-- A number within bytes that are read is the number read there. -/
theorem natAt_peek (s : State) (l : Loc) {o k n : Nat} (h : o + k ≤ n) : natAt (s.peek l n) o k = s.peekNat (l.add o) k := by
  rw [natAt, State.peek, readMem_slice _ _ h, State.peekNat, State.peek, Loc.key_add]

theorem State.peek_poke_of_length (s : State) (l : Loc) {b : List Byte} {n : Nat} (h : b.length = n) : (s.poke l b).peek l n = b := by
  rw [← h, State.peek_poke]

/-- A read outside what is written. -/
theorem State.peek_poke_out (s : State) (l l' : Loc) (b : List Byte) {n : Nat}
    (h : l'.key + n ≤ l.key ∨ l.key + b.length ≤ l'.key) : (s.poke l b).peek l' n = s.peek l' n := by
  apply List.ext_getElem?
  intro i
  rcases Nat.lt_or_ge i n with hi | hi
  · rw [State.peek, State.peek, readMem_get _ _ hi, readMem_get _ _ hi]
    exact congrArg some (State.byte_poke_out s l b (by omega))
  · rw [List.getElem?_eq_none (by rw [State.peek, readMem_length]; exact hi),
      List.getElem?_eq_none (by rw [State.peek, readMem_length]; exact hi)]

/-- Two writes, the second above the first: both stand, and no other byte has changed. -/
theorem State.poke_poke_above (s : State) {l l' : Loc} {b b' : List Byte} {n n' : Nat} (hb : b.length = n) (hb' : b'.length = n')
    (h : l.key + n ≤ l'.key) :
    ((s.poke l b).poke l' b').peek l n = b ∧ ((s.poke l b).poke l' b').peek l' n' = b' ∧
      ∀ a, (a < l.key ∨ l.key + n ≤ a) → (a < l'.key ∨ l'.key + n' ≤ a) → ((s.poke l b).poke l' b').byte a = s.byte a := by
  subst hb hb'
  refine ⟨?_, State.peek_poke _ _ _, fun a h1 h2 => ?_⟩
  · rw [State.peek_poke_out _ _ _ _ (.inl h), State.peek_poke]
  · rw [State.byte_poke_out _ _ _ h2, State.byte_poke_out _ _ _ h1]

/-- The bytes of lanes, one after another. -/
def laneBytes (v : List Lane) : List Byte := v.flatMap fun x => leBytes 4 x.toNat

theorem length_laneBytes : ∀ v : List Lane, (laneBytes v).length = 4 * v.length
  | [] => rfl
  | x :: v => by
    have ih := length_laneBytes v
    simp only [laneBytes] at ih
    simp only [laneBytes, List.flatMap_cons, List.length_append, leBytes_length, ih, List.length_cons]
    omega

/-- A lane among the bytes of lanes. -/
theorem natAt_laneBytes : ∀ (v : List Lane) {o : Nat}, o < v.length → natAt (laneBytes v) (4 * o) 4 = (v.getD o 0).toNat
  | x :: v, 0, _ => by
    have hx : x.toNat < 256 ^ 4 := x.isLt
    simp only [natAt, laneBytes, List.flatMap_cons, Nat.mul_zero, List.drop_zero, List.getD_cons_zero]
    rw [List.take_left' (leBytes_length _ _), leNat_leBytes, Nat.mod_eq_of_lt hx]
  | x :: v, o + 1, h => by
    have ih := natAt_laneBytes v (Nat.lt_of_succ_lt_succ h)
    have hd : (laneBytes (x :: v)).drop (4 * (o + 1)) = (laneBytes v).drop (4 * o) := by
      rw [laneBytes, List.flatMap_cons, Nat.mul_succ, Nat.add_comm, ← List.drop_drop, List.drop_left' (leBytes_length _ _)]
      rfl
    rw [natAt, hd, ← natAt, ih, List.getD_cons_succ]

/-! ### One segment of a row (R188, R202) -/

/-- The part of a list that segment `j` takes. -/
def segPart {α : Type} (j : Nat) (l : List α) : List α := (l.drop (32 * j)).take 32

/-- What segment `j` makes of a lane, against the operands `b`. -/
def segLane (fw : Word) (a b : List Ext) (c : Lane) (j : Nat) : Lane :=
  if intPair fw then segInt (fwAcc fw == 2) c ((List.zipWith (fun x y => x.toI * y.toI) (segPart j a) (segPart j b)).foldl (· + ·) 0)
  else segFloat c (List.zipWith Ext.mul (segPart j a) (segPart j b))

/-- What one segment makes of lane `o` of a row. -/
def mulLane (fw : Word) (p : Plane) (a : List Ext) (o : Nat) (c : Lane) (seg : Nat) : Lane :=
  let c := if fwAcc fw = 1 ∧ seg = 0 then 0 else c
  if fwRed fw = 0 then c else segLane fw a (against fw ((upFrom 0 (fwN fw)).map p.col) o) c seg

theorem mulSeg_eq_map (fw : Word) (p : Plane) (a : List Ext) (seg : Nat) (old : Nat → Lane) :
    mulSeg fw p a seg old = (List.range (fwWidth fw)).map fun o => mulLane fw p a o (old o) seg := by
  rw [mulSeg, upFrom_zero (fwWidth fw)]
  rfl

theorem length_mulSeg (fw : Word) (p : Plane) (a : List Ext) (seg : Nat) (old : Nat → Lane) :
    (mulSeg fw p a seg old).length = fwWidth fw := by
  simp [mulSeg_eq_map]

/-- A segment reads the lanes of its own width alone. -/
theorem mulSeg_congr {fw : Word} {p : Plane} {a : List Ext} {seg : Nat} {old old' : Nat → Lane}
    (h : ∀ o, o < fwWidth fw → old o = old' o) : mulSeg fw p a seg old = mulSeg fw p a seg old' := by
  rw [mulSeg_eq_map, mulSeg_eq_map]
  exact List.map_congr_left fun o ho => by rw [h o (List.mem_range.mp ho)]

/-- The lanes of an accumulator row as its words in memory. -/
theorem laneAt_accRow (s : State) (t row : Nat) {o : Nat} (h : o < 512) :
    laneAt (s.accRow t row) o = BitVec.ofNat 32 (s.peekNat ((accLoc t row 0).add (4 * o)) 4) := by
  rw [laneAt, State.accRow, natAt_peek s _ (by omega)]

theorem segStep_mul (s : State) (k : Nat) {c : MCmd} {fw : Word} {line row0 m : Nat} {ch : Bool} {h : List Byte × List Byte}
    {rest : List (List Byte × List Byte)} {p : Plane} (hop : c.op = .mul fw line row0 m ch) (hpipe : c.pipe = h :: rest)
    (hplane : c.plane = some p) :
    s.segStep k c = .ok (if c.seg + 1 < fwSegs fw then { c with seg := c.seg + 1 } else { c with row := c.row + 1, seg := 0, pipe := rest })
      (s.poke (accLoc (slotTile k) (row0 + c.row) 0)
        (laneBytes (mulSeg fw p (opRow (fwA fw) (fwRed fw) h.1 h.2) c.seg (laneAt (s.accRow (slotTile k) (row0 + c.row)))))) := by
  simp only [State.segStep, hop, hpipe, hplane, Option.some_or]
  rfl

theorem segmentUpdatesItsLanes : SegmentUpdatesItsLanes := by
  intro s k c fw line row0 m ch h rest p hop hpipe hplane r v hw
  have hv : mulSeg fw p (opRow (fwA fw) (fwRed fw) h.1 h.2) c.seg (laneAt (s.accRow (slotTile k) (row0 + c.row))) = v :=
    mulSeg_congr fun o ho => laneAt_accRow s _ _ (by omega)
  have hlen : v.length = fwWidth fw := length_mulSeg ..
  have hb : (laneBytes v).length = 4 * fwWidth fw := by rw [length_laneBytes, hlen]
  have hs := segStep_mul s k hop hpipe hplane
  rw [hv] at hs
  refine ⟨_, _, hs, fun o ho => ?_, fun a ha => State.byte_poke_out s r _ (by omega), fun hn => ?_, fun hn => ?_⟩
  · rw [← natAt_peek _ _ (n := 4 * fwWidth fw) (by omega), State.peek_poke_of_length _ _ hb, natAt_laneBytes v (by omega)]
  · rw [if_pos hn]
    exact ⟨rfl, rfl, rfl⟩
  · rw [if_neg (by omega)]
    exact ⟨rfl, rfl, rfl⟩

/-! ### The segments of a row (R66, R68, R202) -/

/-- The lists of `n` consecutive elements, by their numbers. -/
theorem chunks_eq_map {α : Type} {n : Nat} (hn : 0 < n) : ∀ (k : Nat) (l : List α), l.length ≤ k →
    chunks n k l = (List.range (up l.length n)).map fun j => (l.drop (n * j)).take n
  | k, [], _ => by
    have h0 : up 0 n = 0 := Nat.div_eq_of_lt (by omega)
    cases k <;> simp [chunks, h0]
  | k + 1, x :: l, h => by
    have ih := chunks_eq_map hn k ((x :: l).drop n) (by rw [List.length_drop]; rw [List.length_cons] at h ⊢; omega)
    have hu : up (x :: l).length n = up ((x :: l).drop n).length n + 1 := by
      rw [List.length_drop, up, up, List.length_cons]
      rcases Nat.le_total n (l.length + 1) with hl | hl
      · rw [show l.length + 1 + n - 1 = l.length + 1 - n + n - 1 + n by omega, Nat.add_div_right _ hn]
      · rw [Nat.sub_eq_zero_of_le hl, Nat.div_eq_of_lt (by omega : 0 + n - 1 < n)]
        exact Nat.div_eq_of_lt_le (by omega) (by omega)
    rw [chunks, hu, List.range_succ_eq_map, List.map_cons, List.map_map, ih]
    simp [Function.comp_def, List.drop_drop, Nat.mul_succ, Nat.add_comm]

theorem segPart_zipWith {α β γ : Type} (f : α → β → γ) (j : Nat) (a : List α) (b : List β) :
    segPart j (List.zipWith f a b) = List.zipWith f (segPart j a) (segPart j b) := by
  rw [segPart, List.drop_zipWith, List.take_zipWith]
  rfl

/-- The reduction of a lane, segment by segment. -/
theorem reduce_segments (fw : Word) (a b : List Ext) (c : Lane) (hab : a.length = b.length) :
    (if intPair fw then reduceI (fwAcc fw == 2) c (List.zipWith (fun x y => x.toI * y.toI) a b)
      else reduceF c (List.zipWith Ext.mul a b)) = (List.range (up a.length 32)).foldl (segLane fw a b) c := by
  have hl : ∀ {α : Type} (f : Ext → Ext → α), (List.zipWith f a b).length = a.length := fun f => by simp [hab]
  unfold segLane
  split
  · rw [reduceI, chunks_eq_map (by decide) _ _ (Nat.le_refl _), hl, List.foldl_map]
    simp only [← segPart_zipWith]
    rfl
  · rw [reduceF, chunks_eq_map (by decide) _ _ (Nat.le_refl _), hl, List.foldl_map]
    simp only [← segPart_zipWith]
    rfl

/-- Steps that change each lane by itself, one after another. -/
theorem foldl_lanes (n : Nat) (g : Nat → Lane → Nat → Lane) : ∀ (l : List Nat) (old : Nat → Lane),
    l.foldl (fun v j => (List.range n).map fun o => g o (v.getD o 0) j) ((List.range n).map old) =
      (List.range n).map fun o => l.foldl (g o) (old o)
  | [], _ => rfl
  | j :: l, old => by
    have h1 : ((List.range n).map fun o => g o (((List.range n).map old).getD o 0) j) = (List.range n).map fun o => g o (old o) j :=
      List.map_congr_left fun o ho => by simp [List.mem_range.mp ho]
    rw [List.foldl_cons, h1, foldl_lanes n g l]
    rfl

/-- Where the first step starts anew from 0, so does the whole. -/
theorem foldl_cleared (P : Prop) [Decidable P] (g : Lane → Nat → Lane) (n : Nat) (c : Lane) :
    (List.range (n + 1)).foldl (fun c j => g (if P ∧ j = 0 then 0 else c) j) c = (List.range (n + 1)).foldl g (if P then 0 else c) := by
  rw [List.range_succ_eq_map]
  simp [List.foldl_map]

/-- The segments of a row give a lane the sum of the whole row. -/
theorem foldl_mulLane (fw : Word) (p : Plane) (a : List Ext) (o : Nat) (c : Lane) :
    (List.range (fwSegs fw)).foldl (mulLane fw p a o) c =
      (List.range (up (fwRed fw) 32)).foldl (segLane fw a (against fw ((upFrom 0 (fwN fw)).map p.col) o))
        (if fwAcc fw = 1 then 0 else c) := by
  rcases Nat.eq_zero_or_pos (fwRed fw) with h0 | hp
  · simp [fwSegs, h0, up, mulLane]
  · have hs : fwSegs fw = up (fwRed fw) 32 := Nat.max_eq_right (Nat.div_pos (by omega) (by decide))
    have hm : mulLane fw p a o = fun c j =>
        segLane fw a (against fw ((upFrom 0 (fwN fw)).map p.col) o) (if fwAcc fw = 1 ∧ j = 0 then 0 else c) j := by
      funext c j
      exact if_neg (by omega)
    obtain ⟨n, hn⟩ : ∃ n, up (fwRed fw) 32 = n + 1 := Nat.exists_eq_succ_of_ne_zero (Nat.ne_of_gt (Nat.div_pos (by omega) (by decide)))
    rw [hs, hm, hn, foldl_cleared]

theorem segmentsOfARowMakeTheRow : SegmentsOfARowMakeTheRow := by
  intro fw p a old ha hb
  simp only [mulSeg_eq_map, upFrom_zero (fwSegs fw), upFrom_zero (fwWidth fw), mulRow]
  rw [foldl_lanes _ (mulLane fw p a)]
  refine List.map_congr_left fun o ho => ?_
  have hbo := hb o (List.mem_range.mp ho)
  rw [reduce_segments _ _ _ _ (ha.trans hbo.symm), foldl_mulLane, ha]

/-! ### Rows of a clear (R208) -/

theorem rowStep_clr (s : State) (k : Nat) {c : MCmd} {row0 m : Nat} (hop : c.op = .clr row0 m) (h : c.row < m) :
    s.rowStep k c = .ok { c with row := c.row + 1 } (s.poke (accLoc (slotTile k) (row0 + c.row) 0) (List.replicate 2048 0)) := by
  simp only [State.rowStep, hop]
  exact if_neg (Nat.not_le.mpr h)

theorem clearedRowsReadZero : ClearedRowsReadZero := by
  intro s k c row0 m hop h
  have hl : (List.replicate 2048 (0 : Byte)).length = 2048 := List.length_replicate
  exact ⟨_, _, rowStep_clr s k hop h, rfl, State.peek_poke_of_length _ _ hl, fun a ha => State.byte_poke_out s _ _ (by rw [hl]; exact ha)⟩

/-! ### Rows of a weight update (R239) -/

/-- Lines that are full, free of poison and not to be filled by a copy ahead give their bytes. -/
theorem fetchFor_ok {s : State} {k seq o n : Nat} (hf : s.toFill k seq (linesAt o n) = none) (he : s.emptyLine (slotTile k) o n = none)
    (hp : s.poisoned (Loc.spad (slotTile k) o).key n = false) : s.fetchFor k seq o n = .ok (s.peek (.spad (slotTile k) o) n) s := by
  simp only [State.fetchFor, hf, State.fetch, he, hp, Bool.false_and, Bool.false_eq_true, if_false]

/-- The master lanes of a row after its update. -/
def updRow (b g : List Byte) (lr : Lane) (lq : Nat) : List Lane :=
  (upFrom 0 (128 * lq)).map fun i => updLane (laneAt b i) lr (laneAt g i)

theorem length_updRow (b g : List Byte) (lr : Lane) (lq : Nat) : (laneBytes (updRow b g lr lq)).length = 512 * lq := by
  rw [length_laneBytes, updRow, upFrom_zero, List.length_map, List.length_range]
  omega

theorem rowStep_upd {s : State} {k : Nat} {c : MCmd} {row0 m lq master copy scl mode : Nat} {lr : Lane} {b : List Byte}
    (hop : c.op = .upd row0 m lq 13 master copy scl lr mode) (h : c.row < m)
    (hb : s.fetchFor k c.w.seq (128 * (master + c.row * 4 * lq)) (512 * lq) = .ok b s) :
    s.rowStep k c = .ok { c with row := c.row + 1 }
      ((s.poke (.spad (slotTile k) (128 * (master + c.row * 4 * lq)))
        (laneBytes (updRow b (s.accRow (slotTile k) (row0 + c.row)) lr lq))).poke (accLoc (slotTile k) (row0 + c.row) 0)
          (List.replicate (512 * lq) 0)) := by
  simp only [State.rowStep, hop, hb, if_neg (Nat.not_le.mpr h)]
  rfl

theorem weightUpdateRow : WeightUpdateRow := by
  intro s k c row0 m lq master copy scl lr mode hop h o acc ho hrow hlq hfill hempty hpoison
  have hkey : (Loc.spad (slotTile k) o).key + 512 * lq ≤ acc.key := by
    simp only [acc, accLoc, Loc.key]
    omega
  obtain ⟨hw, hg, hkeep⟩ := s.poke_poke_above (length_updRow _ _ _ _) List.length_replicate hkey
  exact ⟨_, _, rowStep_upd hop h (fetchFor_ok hfill hempty hpoison), rfl, hw, hg, hkeep⟩

/-- Settles O41: segments and their sum by lanes, clears and updates by what they write. -/
theorem rowsClearedAndUpdated : Obligations.RowsClearedAndUpdated :=
  ⟨segmentUpdatesItsLanes, segmentsOfARowMakeTheRow, clearedRowsReadZero, weightUpdateRow⟩

end Sys2Proof.Machine
end

section
/-! PROOF of O58: time, power, memory errors, writes of registers, and events of units that the package does not have (R1, R7, R8, R11,
R15 to R18, R231, R336, R392 to R395, R404, R438 to R440). -/

namespace Sys2Proof.Machine

open Sys2Proof.Claims

/-! ### What an update of dies leaves -/

theorem sameButDies_refl (s : State) : SameButDies s s := ⟨rfl, rfl, rfl, rfl, rfl, rfl, rfl⟩

theorem sameButDies_trans {s t u : State} (h : SameButDies s t) (g : SameButDies t u) : SameButDies s u := by
  obtain ⟨hm, hs, ht, he, hf, hp, hn⟩ := h
  obtain ⟨gm, gs, gt, ge, gf, gp, gn⟩ := g
  exact ⟨gm.trans hm, gs.trans hs, gt.trans ht, ge.trans he, gf.trans hf, gp.trans hp, gn.trans hn⟩

theorem sameButDie_onDie (s : State) (d : Nat) (f : Die → Die) : SameButDie s (s.onDie d f) d :=
  ⟨⟨rfl, rfl, rfl, rfl, rfl, rfl, rfl⟩, fun _ h => State.die_onDie_ne s f h⟩

theorem sameButDie_setReg (s : State) (d off : Nat) (v : Word) : SameButDie s (s.setReg d off v) d := sameButDie_onDie s d _

theorem sameButDie_trans {s t u : State} {d : Nat} (h : SameButDie s t d) (g : SameButDie t u d) : SameButDie s u d :=
  ⟨sameButDies_trans h.1 g.1, fun e he => (g.2 e he).trans (h.2 e he)⟩

theorem repeat_apply {α : Type} (f : α → α) (n : Nat) (x : α) : Nat.repeat f n (f x) = f (Nat.repeat f n x) := by
  induction n with
  | zero => rfl
  | succ n ih => exact congrArg f ih

/-- An update of the dies of a list by the time: each die is updated as often as the list names it. -/
theorem State.foldl_onDie (g : Nat → Die → Die) (l : List Nat) (s : State) :
    SameButDies s (l.foldl (fun (s : State) d => s.onDie d (g s.time)) s) ∧
      ∀ e, (l.foldl (fun (s : State) d => s.onDie d (g s.time)) s).die e = Nat.repeat (g s.time) (l.count e) (s.die e) := by
  induction l generalizing s with
  | nil => exact ⟨sameButDies_refl s, fun _ => rfl⟩
  | cons d l ih =>
    obtain ⟨hs, hd⟩ := ih (s.onDie d (g s.time))
    refine ⟨sameButDies_trans (sameButDie_onDie s d _).1 hs, fun e => (hd e).trans ?_⟩
    rw [State.onDie_time]
    by_cases h : e = d
    · subst h
      rw [State.die_onDie_self, List.count_cons_self, repeat_apply]
      rfl
    · rw [State.die_onDie_ne _ _ h, List.count_cons_of_ne (Ne.symm h)]

theorem State.sameButDies_allDies (s : State) (f : Die → Die) : SameButDies s (s.allDies f) :=
  (s.foldl_onDie (fun _ => f) [0, 1, 2, 3]).1

theorem State.die_allDies (s : State) (f : Die → Die) {e : Nat} (h : e < 4) : (s.allDies f).die e = f (s.die e) := by
  have hc : ∀ e, e < 4 → [0, 1, 2, 3].count e = 1 := by decide
  have hd := (s.foldl_onDie (fun _ => f) [0, 1, 2, 3]).2 e
  rwa [hc e h] at hd

/-! ### The discipline of time (R231, R438) -/

/-- A replica that takes an offset written to TIME.ADJ: what `State.timeAdj` makes of each die of the half. -/
def Die.adjusted (v : Word) (now : Nat) (x : Die) : Die :=
  let off : Int := (v.setWidth 48 : BitVec 48).toInt
  let near := match x.adjAt with
    | some t => decide (now ≤ t + secTime)
    | none => false
  let n := if decide (off.natAbs ≤ 20) then (if near then x.adjOk + 1 else 1) else 0
  { x with
    slew := off * 65536
    slewing := true
    holdover := false
    adjAt := some now
    adjOk := min n 2
    timeLocked := x.timeLocked || decide (2 ≤ n) }

theorem State.timeAdj_eq (s : State) (d : Nat) (v : Word) :
    s.timeAdj d v = (s.half d).foldl (fun (s : State) e => s.onDie e (Die.adjusted v s.time)) s := rfl

theorem Die.lag_repeat_adjusted (v : Word) (now n : Nat) (x : Die) : (Nat.repeat (Die.adjusted v now) n x).lag = x.lag := by
  induction n with
  | zero => rfl
  | succ n ih => exact ih

theorem Die.holdover_ite (x : Die) {y : Die} (h : y.holdover = true) (b : Bool) : (if b then y else x).holdover = (x.holdover || b) := by
  cases b <;> simp [h]

/-- Clause by clause: a write of TIME.ADJ, the holdover, and the end of a correction. -/
theorem timeIsDisciplined : TimeIsDisciplined := by
  refine ⟨?_, ?_, ?_⟩
  · intro s d v hd hr
    have hx : exec (.timeAdjWrite d v) s = .next (s.timeAdj d v) :=
      (onUnit_of_present hd _).trans (congrArg Host.Outcome.next (if_pos (beq_iff_eq.mpr hr)))
    obtain ⟨hs, hdie⟩ := State.foldl_onDie (Die.adjusted v) (s.half d) s
    obtain ⟨-, -, -, -, -, -, ht⟩ := id hs
    refine ⟨_, hx, ht, hs, fun e he => ?_, fun e he => ?_⟩
    · obtain ⟨n, hn⟩ := Nat.exists_eq_add_one.mpr (List.count_pos_iff.mpr (List.contains_iff_mem.mp he))
      have h := hdie e
      rw [hn] at h
      rw [State.timeAdj_eq, h]
      exact ⟨rfl, rfl, rfl, rfl, Die.lag_repeat_adjusted v s.time (n + 1) (s.die e)⟩
    · have hc : (s.half d).count e = 0 := List.count_eq_zero.mpr (by simpa using he)
      have h := hdie e
      rwa [hc] at h
  · refine fun s => ⟨_, rfl, s.sameButDies_allDies _, fun e he => ?_⟩
    rw [State.die_allDies _ _ he]
    cases (s.die e).adjAt with
    | none => simp
    | some n => exact Die.holdover_ite (s.die e) rfl _
  · refine fun s => ⟨_, rfl, s.sameButDies_allDies _, fun e he => ?_⟩
    rw [State.die_allDies _ _ he]
    by_cases h : (s.die e).slew = 0 <;> simp [h]

/-! ### Fields of a register -/

theorem bits_eq (w : Word) (lo len : Nat) : bits w lo len = w.toNat / 2 ^ lo % 2 ^ len := by rw [bits, Nat.shiftRight_eq_div_pow]

theorem add_mul_lt_two_pow {b x m n : Nat} (hb : b < 2 ^ m) (hx : x < 2 ^ n) : b + 2 ^ m * x < 2 ^ (m + n) := by
  have h : 2 ^ m * (x + 1) ≤ 2 ^ m * 2 ^ n := Nat.mul_le_mul_left _ hx
  rw [Nat.mul_succ] at h
  rw [Nat.pow_add]
  omega

/-- A word with a field replaced: the bits below it, the field, and the bits above it. -/
theorem toNat_putBits (w : Word) {lo len : Nat} (v : Nat) (h : lo + len ≤ 64) :
    (putBits w lo len v).toNat = w.toNat % 2 ^ lo + 2 ^ lo * (v % 2 ^ len + 2 ^ len * (w.toNat / 2 ^ lo / 2 ^ len)) := by
  obtain ⟨n, hn⟩ := Nat.exists_eq_add_of_le h
  have hw : w.toNat = w.toNat % 2 ^ lo + 2 ^ lo * (bits w lo len + 2 ^ len * (w.toNat / 2 ^ lo / 2 ^ len)) := by
    rw [bits_eq, Nat.mod_add_div, Nat.mod_add_div]
  have hp : w.toNat - bits w lo len * 2 ^ lo + v % 2 ^ len * 2 ^ lo =
      w.toNat % 2 ^ lo + 2 ^ lo * (v % 2 ^ len + 2 ^ len * (w.toNat / 2 ^ lo / 2 ^ len)) := by
    rw [Nat.mul_add] at hw ⊢
    rw [Nat.mul_comm (bits w lo len), Nat.mul_comm (v % 2 ^ len)]
    omega
  have ha : w.toNat / 2 ^ lo / 2 ^ len < 2 ^ n := by
    rw [Nat.div_div_eq_div_mul, ← Nat.pow_add]
    exact Nat.div_lt_of_lt_mul (by rw [← Nat.pow_add, ← hn]; exact w.isLt)
  have hb := add_mul_lt_two_pow (Nat.mod_lt w.toNat (Nat.two_pow_pos lo))
    (add_mul_lt_two_pow (Nat.mod_lt v (Nat.two_pow_pos len)) ha)
  rw [← Nat.add_assoc, ← hn] at hb
  rw [putBits, BitVec.toNat_ofNat, hp, Nat.mod_eq_of_lt hb]

theorem State.reg_setField (s : State) (d off lo len v : Nat) : (s.setField d off lo len v).reg d off = putBits (s.reg d off) lo len v :=
  State.reg_setReg_self s d off _

/-- A counter in a field goes up, to its highest value at most; the bits below it and above it stay. -/
theorem State.toNat_reg_bumpField (s : State) (d off : Nat) {lo len : Nat} (n : Nat) (h : lo + len ≤ 64) :
    ((s.bumpField d off lo len n).reg d off).toNat = (s.reg d off).toNat % 2 ^ lo +
      2 ^ lo * (min ((s.reg d off).toNat / 2 ^ lo % 2 ^ len + n) (2 ^ len - 1) + 2 ^ len * ((s.reg d off).toNat / 2 ^ lo / 2 ^ len)) := by
  have hp := Nat.two_pow_pos len
  rw [State.bumpField, State.reg_setField, toNat_putBits _ _ h, bits_eq, Nat.mod_eq_of_lt (a := min _ _) (by omega)]

/-! ### The patrol (R394, R440) -/

theorem mem_insertNat (l : List Nat) (a : Nat) : a ∈ insertNat l a := by
  induction l with
  | nil => exact List.mem_singleton_self a
  | cons b l ih =>
    rw [insertNat]
    split
    · exact List.mem_cons_self
    · split
      case isTrue h => exact h ▸ List.mem_cons_self
      case isFalse => exact List.mem_cons_of_mem _ ih

/-- A write of less than a line covers none, so that no mark of a line goes. -/
theorem clearPoison_of_short (p : List Nat) (k : Nat) {n : Nat} (h : n < 128) : clearPoison p k n = p := by
  refine List.filter_eq_self.mpr fun l _ => ?_
  rw [Bool.not_eq_true', Bool.and_eq_false_iff, decide_eq_false_iff_not, decide_eq_false_iff_not]
  omega

/-! A record to a host fault queue is written without regard to the lines told of, and leaves them as they are. -/

theorem State.pick_told (s : State) (l : List Nat) (n : Nat) :
    ({ s with told := l } : State).pick n = ((s.pick n).1, { (s.pick n).2 with told := l }) := by
  rw [State.pick, State.pick]
  dsimp only
  split <;> rfl

theorem State.intoL2_told (s : State) (l : List Nat) (d n : Nat) (c : Line) :
    ({ s with told := l } : State).intoL2 d n c = { s.intoL2 d n c with told := l } := by
  have hd : ({ s with told := l } : State).die d = s.die d := rfl
  rw [State.intoL2, State.intoL2, hd]
  dsimp only
  split
  · rw [State.pick_told]; rfl
  · rfl

theorem State.keepHome_told (s : State) (l : List Nat) (n : Nat) :
    ({ s with told := l } : State).keepHome n = { s.keepHome n with told := l } := by
  have hd : ({ s with told := l } : State).die (homeOf n) = s.die (homeOf n) := rfl
  rw [State.keepHome, State.keepHome, hd]
  dsimp only
  split
  · exact State.intoL2_told s l _ _ _
  · rfl

theorem State.storeHome_told (s : State) (l : List Nat) (x : Loc) {b : List Byte} (h : b.length < 128) :
    ({ s with told := l } : State).storeHome x b = { s.storeHome x b with told := l } := by
  have hk := State.keepHome_told (s.dropL2 x.line []) l x.line
  have hd : ({ s with told := l } : State).dropL2 x.line [] = { s.dropL2 x.line [] with told := l } := rfl
  rw [State.storeHome, hd, hk, State.poke, clearPoison_of_short l _ h]
  rfl

theorem length_flatMap_leBytes (ws : List Word) : (ws.flatMap fun w => leBytes 8 w.toNat).length = 8 * ws.length := by
  induction ws with
  | nil => rfl
  | cons w ws ih =>
    rw [List.flatMap_cons, List.length_append, leBytes_length, ih, List.length_cons]
    omega

theorem State.hostRecord_told (s : State) (l : List Nat) (d : Nat) {ws : List Word} (h : ws.length ≤ 8) :
    (({ s with told := l } : State).hostRecord d ws).1 = { (s.hostRecord d ws).1 with told := l } := by
  have hr : ∀ o, ({ s with told := l } : State).reg d o = s.reg d o := fun _ => rfl
  have hh : ({ s with told := l } : State).half d = s.half d := rfl
  have hd : ({ s with told := l } : State).die d = s.die d := rfl
  simp only [State.hostRecord, hr, hh, hd]
  split
  · rw [State.storeHome_told s l _ (by rw [length_flatMap_leBytes, List.length_cons, List.length_drop]; omega)]
    rfl
  · rfl

theorem State.hostFault_told (s : State) (l : List Nat) (d : Nat) (f : Flt) :
    ({ s with told := l } : State).hostFault d f = { s.hostFault d f with told := l } :=
  State.hostRecord_told s l d (Nat.le_refl 8)

/-- The patrol reports the lines that are poisoned and not yet told of. -/
theorem exec_hbmPatrolScrub {d pa : Nat} (hd : d < 4) (hp : pa < 0x3000000000) (s : State) :
    exec (.hbmPatrolScrub d pa) s = .next (
      if s.poisoned ((Loc.hbm d pa).line * 128) 128 = true ∧ (Loc.hbm d pa).line ∉ s.told then
        { s.hostFault d { cls := 5, code := 7, addr := BitVec.ofNat 64 (pa / 128 * 128), src := 4 } with
          told := insertNat s.told (Loc.hbm d pa).line }
      else s) := by
  refine (onUnit_of_present hd _).trans (congrArg Host.Outcome.next ?_)
  dsimp only
  rw [State.hostFault_told]
  exact ite_congr (by simp [hp]) (fun _ => rfl) (fun _ => rfl)

/-- Clause by clause: the throttle, the telemetry, what changes nothing, and the patrol. -/
theorem powerAndBackgroundActivity : PowerAndBackgroundActivity := by
  intro s d hd
  refine ⟨?_, ?_, onUnit_of_present hd s, onUnit_of_present hd s, ?_⟩
  · intro thr
    refine ⟨_, onUnit_of_present hd _, sameButDie_setReg s d _ _, ?_⟩
    have hthr : thr.toNat < 256 := thr.isLt
    have hnow := bits_eq (s.reg d 0xF40) 8 8
    rw [State.reg_setField, toNat_putBits _ _ (by decide)]
    refine ⟨fun ho => ?_, fun ho => ?_, ?_, ?_⟩
    · rw [ho, if_neg Bool.false_ne_true]
      omega
    · rw [ho, if_pos rfl]
      omega
    · omega
    · omega
  · intro w a c
    refine ⟨_, onUnit_of_present hd _, ?_, ?_⟩
    · exact sameButDie_trans (sameButDie_trans (sameButDie_setReg s d _ _) (sameButDie_setReg _ d _ _)) (sameButDie_setReg _ d _ _)
    · have hw : w.toNat < 2 ^ 16 := w.isLt
      have ha : a.toNat < 2 ^ 16 := a.isLt
      have hc : c.toNat < 2 ^ 8 := c.isLt
      have hr : (s.reg d 0xF40).toNat < 2 ^ 64 := (s.reg d 0xF40).isLt
      simp only [State.reg_setField, toNat_putBits _ _ (show 48 + 16 ≤ 64 by decide), toNat_putBits _ _ (show 32 + 16 ≤ 64 by decide),
        toNat_putBits _ _ (show 24 + 8 ≤ 64 by decide)]
      omega
  · intro pa hpa
    have hx := exec_hbmPatrolScrub hd hpa
    refine ⟨fun h => ?_, fun hp ht => ?_⟩
    · rw [hx, if_neg]
      rintro ⟨hp, ht⟩
      rcases h with h | h
      · simp [hp] at h
      · exact ht h
    · have hm := mem_insertNat s.told (Loc.hbm d pa).line
      have hs := State.sameUnits_hostFault s d { cls := 5, code := 7, addr := BitVec.ofNat 64 (pa / 128 * 128), src := 4 } 0 0
      refine ⟨_, (hx s).trans (congrArg Host.Outcome.next (if_pos ⟨hp, ht⟩)), hm, rfl, rfl, hs.strands, hs.tiles, ?_⟩
      rw [hx, if_neg (fun h => h.2 hm)]

/-! ### Errors of memory (R392, R393, R395) -/

/-- The line of a double-bit error in HBM is poisoned. -/
theorem State.poisoned_poisonLine (s : State) (d line : Nat) :
    (s.poisonLine (Loc.hbm d (line * 128)).line).poisoned (Loc.hbm d (line * 128)).key 128 = true := by
  refine (Bool.or_eq_true _ _).mpr (.inl (List.any_eq_true.mpr ⟨_, mem_insertNat _ _, ?_⟩))
  rw [Bool.and_eq_true, Loc.line, Loc.key]
  exact ⟨decide_eq_true (by omega), decide_eq_true (by omega)⟩

/-- Where nothing is logged yet, the address of an error in HBM is logged, valid. -/
theorem toNat_errorLog {line : Nat} (h : line * 128 < 0x3000000000) :
    (wordOf [(0, 60), (line, 7), (1, 0)]).toNat = line * 128 + 1 := by
  have ho := Nat.shiftLeft_add_eq_or_of_lt (show 1 < 2 ^ 7 by decide) line
  rw [Nat.shiftLeft_eq] at ho
  simp [wordOf, Nat.shiftLeft_eq, Nat.mod_eq_of_lt (show line * 128 < 18446744073709551616 by omega), ← ho]

/-- The counting of an error leaves the log. -/
theorem State.reg_log_bumpField (s : State) (d : Nat) : (s.bumpField d 0xC08 0 32 1).reg d 0xC10 = s.reg d 0xC10 :=
  State.reg_setReg_ne _ _ (.inr (by decide))

theorem State.logError_of_logged {s : State} {d : Nat} (h : (s.reg d 0xC10).getLsbD 0 = true) (unit line : Nat) :
    s.logError d unit line = s.bumpField d 0xC08 0 32 1 :=
  if_pos (by rwa [State.reg_log_bumpField])

theorem State.logError_of_unlogged {s : State} {d : Nat} (h : (s.reg d 0xC10).getLsbD 0 = false) (line : Nat) :
    s.logError d 0 line = (s.bumpField d 0xC08 0 32 1).setReg d 0xC10 (wordOf [(0, 60), (line, 7), (1, 0)]) := by
  rw [State.logError, State.reg_log_bumpField, if_neg (ne_true_of_eq_false h)]

theorem exec_doubleBitError_hbm {d line : Nat} (hd : d < 4) (hl : line * 128 < 0x3000000000) (s : State) :
    exec (.doubleBitError d 0 line) s = .next ((s.logError d 0 line).poisonLine (Loc.hbm d (line * 128)).line) :=
  (onUnit_of_present hd _).trans (congrArg Host.Outcome.next (if_pos hl))

/-- Clause by clause: a single-bit error, in HBM or in SRAM, and a double-bit error in HBM, logged by an earlier one or not. -/
theorem memoryErrorsAreCountedAndPoison : MemoryErrorsAreCountedAndPoison := by
  intro s d hd
  refine ⟨fun hbm => ⟨_, onUnit_of_present hd _, sameButDie_setReg s d _ _, ?_⟩, fun line hl => ?_⟩
  · have hr : (s.reg d 0xC00).toNat < 2 ^ 64 := (s.reg d 0xC00).isLt
    cases hbm with
    | false =>
      have hb := s.toNat_reg_bumpField d 0xC00 (lo := 32) (len := 32) 1 (by decide)
      simp only [Bool.false_eq_true, if_false, hb]
      omega
    | true =>
      have hb := s.toNat_reg_bumpField d 0xC00 (lo := 0) (len := 32) 1 (by decide)
      simp only [if_true, hb]
      omega
  · have hx := exec_doubleBitError_hbm hd hl s
    have hc : ((s.bumpField d 0xC08 0 32 1).reg d 0xC08).toNat % 2 ^ 32 = min ((s.reg d 0xC08).toNat % 2 ^ 32 + 1) (2 ^ 32 - 1) := by
      rw [State.toNat_reg_bumpField _ _ _ _ (by decide)]
      omega
    cases hlog : (s.reg d 0xC10).getLsbD 0 with
    | true =>
      rw [State.logError_of_logged hlog] at hx
      exact ⟨_, hx, rfl, rfl, rfl, State.poisoned_poisonLine _ _ _, hc, fun _ => s.reg_log_bumpField d, nofun⟩
    | false =>
      rw [State.logError_of_unlogged hlog] at hx
      refine ⟨_, hx, rfl, rfl, rfl, State.poisoned_poisonLine _ _ _, ?_, nofun, fun _ => ?_⟩
      · rw [← hc]
        exact congrArg (·.toNat % 2 ^ 32) (State.reg_setReg_ne (s.bumpField d 0xC08 0 32 1) _ (.inr (show 0xC08 ≠ 0xC10 by decide)))
      · rw [← toNat_errorLog hl]
        exact congrArg BitVec.toNat (State.reg_setReg_self _ _ _ _)

/-! ### Writes of registers (R7, R8, R336, R404) -/

theorem State.packageWide_of_outside (s : State) (d : Nat) {off : Nat} (v : Word) (h : off < 0x700 ∨ 0x800 ≤ off) (hl : off ≠ 0xE08) :
    s.packageWide d off v = false := by
  rcases h with h | h
  · simp [State.packageWide, hl, Nat.not_le.mpr h]
  · simp [State.packageWide, hl, Nat.not_lt.mpr h]

/-- Registers of which a write changes the stored bits, without further action, and every time. -/
def plainRegs : List Nat :=
  [0x100, 0x108, 0x200, 0x208, 0x210, 0x218, 0x220, 0x308, 0x400, 0x508, 0x510, 0x518, 0x608, 0x610, 0xB00, 0xB10, 0xD00, 0xD18, 0xF48]

/-- Registers of which only the first write after reset changes the stored bits. -/
def onceRegs : List Nat := [0x300, 0x600, 0x628, 0x900]

/-- None of them has an action of its own, and their access is the same on every die. -/
theorem writeReg_regAccess_of_stored {off : Nat} (h : off ∈ plainRegs ++ onceRegs) :
    (∀ (s : State) d p v, s.writeReg d p off v = s.putReg d off v) ∧ ∀ d, regAccess d off = regAccess 0 off := by
  simp only [plainRegs, onceRegs, List.cons_append, List.nil_append, List.mem_cons, List.not_mem_nil, or_false] at h
  rcases h with rfl | rfl | rfl | rfl | rfl | rfl | rfl | rfl | rfl | rfl | rfl | rfl | rfl | rfl | rfl | rfl | rfl | rfl | rfl | rfl | rfl |
    rfl | rfl <;> exact ⟨fun _ _ _ _ => rfl, fun _ => rfl⟩

theorem offset_of_stored {off : Nat} (h : off ∈ plainRegs ++ onceRegs) : (off < 0x700 ∨ 0x800 ≤ off) ∧ off ≠ 0xE08 ∧ off ≠ 0xA00 := by
  revert off
  decide

theorem regAccess_of_plain {off : Nat} (h : off ∈ plainRegs) (d : Nat) :
    (regAccess d off).rw ≠ 0 ∧ (regAccess d off).w1c = 0 ∧ (regAccess d off).rwl = false := by
  rw [(writeReg_regAccess_of_stored (List.mem_append_left _ h)).2]
  revert off
  decide

theorem regAccess_of_once {off : Nat} (h : off ∈ onceRegs) (d : Nat) :
    (regAccess d off).rw ≠ 0 ∧ (regAccess d off).w1c = 0 ∧ (regAccess d off).rwl = true := by
  rw [(writeReg_regAccess_of_stored (List.mem_append_right _ h)).2]
  revert off
  decide

/-- Where no bit is cleared by a one, the writable bits take the value and the others stay. -/
theorem Access.put_of_rw {a : Access} (h : a.w1c = 0) (old v : Word) :
    a.put old v = (old &&& ~~~(BitVec.ofNat 64 a.rw)) ||| (v &&& BitVec.ofNat 64 a.rw) := by
  have hn : ~~~(v &&& BitVec.ofNat 64 0) = BitVec.allOnes 64 := by simp
  simp only [Access.put, h, hn, BitVec.and_allOnes]

theorem State.putReg_of_plain {d off : Nat} (h : off ∈ plainRegs) (s : State) (v : Word) :
    s.putReg d off v = s.setReg d off ((regAccess d off).put (s.reg d off) v) := by
  obtain ⟨hw, -, hl⟩ := regAccess_of_plain h d
  simp only [State.putReg, hw, hl, false_and, if_false, Bool.false_eq_true]

theorem State.putReg_of_locked {d off : Nat} (h : off ∈ onceRegs) {s : State} (hk : off ∈ (s.die d).locked) (v : Word) :
    s.putReg d off v = s := by
  obtain ⟨hw, -, hl⟩ := regAccess_of_once h d
  simp only [State.putReg, hw, hl, false_and, if_false, if_true, List.contains_iff_mem.mpr hk]

theorem State.putReg_of_unlocked {d off : Nat} (h : off ∈ onceRegs) {s : State} (hk : off ∉ (s.die d).locked) (v : Word) :
    s.putReg d off v =
      (s.setReg d off ((regAccess d off).put (s.reg d off) v)).onDie d fun x => { x with locked := insertNat x.locked off } := by
  obtain ⟨hw, -, hl⟩ := regAccess_of_once h d
  have hk' : (s.die d).locked.contains off = false := by simpa using hk
  simp only [State.putReg, hw, hl, hk', false_and, if_false, if_true, Bool.false_eq_true]

/-- What a write through a host port to no package-wide operation does, while no access waits: none where the port does not reach the
die. -/
theorem exec_registerWrite {s : State} {d p off : Nat} {v : Word} (hd : d < 4) (hp : p < 2) (hk : s.packageWide d off v = false)
    (hw : s.hostWaits p [d] = false) :
    exec (.registerWrite d off v p) s = .next (
      if !s.portSees p d then s
      else if d = 0 ∧ off = 0xA00 then s.semWrite p v
      else if s.dieUp d || ((s.die d).state == 4 && off == 0xE08) then s.writeReg d p off v
      else s) := by
  refine (onUnit_of_present (show d < 4 ∧ p < 3 by omega) _).trans (congrArg Host.Outcome.next ?_)
  rw [if_neg (by omega), hk, Bool.false_and, Bool.false_and, if_neg Bool.false_ne_true, if_neg Bool.false_ne_true, State.orWait_of_calm hw]

/-- A register that only keeps its bits is written where the port reaches the die and the die runs. -/
theorem exec_registerWrite_of_stored {s : State} {d p off : Nat} (hd : d < 4) (hp : p < 2) (hs : s.portSees p d = true)
    (hr : (s.die d).state = 3) (hw : s.hostWaits p [d] = false) (ho : off ∈ plainRegs ++ onceRegs) (v : Word) :
    exec (.registerWrite d off v p) s = .next (s.putReg d off v) := by
  obtain ⟨hout, hload, hsem⟩ := offset_of_stored ho
  rw [exec_registerWrite hd hp (s.packageWide_of_outside d v hout hload) hw, ← (writeReg_regAccess_of_stored ho).1 s d p v]
  simp [hs, hsem, State.dieUp, hr]

/-- Clause by clause: a port that does not reach the die, a package-wide write from outside D0's half, the registers of a running die, and a
die that does not run. -/
theorem registerWritesChangeWritableBits : RegisterWritesChangeWritableBits := by
  intro s d p v hd hp
  refine ⟨fun hs off hk => ?_, fun hu hz off hk => ?_, fun hs hr hw => ⟨fun off ho => ?_, fun off ho hl => ?_, fun off ho hl => ?_⟩,
    fun h3 h4 hw off ho hk => ?_⟩
  · have hw : s.hostWaits p [d] = false := by simp [State.hostWaits, hs]
    rw [exec_registerWrite hd hp hk hw, hs]
    rfl
  · have hu' : s.portsDown.contains p = false := by simpa using hu
    have hx : exec (.registerWrite d off v p) s = .next (s.setField (portDie p) 0xA08 3 1 1) := by
      refine (onUnit_of_present (show d < 4 ∧ p < 3 by omega) _).trans (congrArg Host.Outcome.next ?_)
      rw [if_neg (by omega), hk, hu', hz, State.gate, hu', hz]
      rfl
    refine ⟨_, hx, sameButDie_setReg s _ _ _, ?_, fun o ho => State.reg_setReg_ne _ _ (.inr ho)⟩
    rw [State.reg_setField, BitVec.getLsbD, toNat_putBits _ _ (by decide), Nat.testBit_eq_decide_div_mod_eq, decide_eq_true_eq]
    omega
  · refine ⟨_, exec_registerWrite_of_stored hd hp hs hr hw (List.mem_append_left _ ho) v, ?_⟩
    obtain ⟨-, hc, -⟩ := regAccess_of_plain ho d
    rw [State.putReg_of_plain ho, Access.put_of_rw hc]
    exact ⟨sameButDie_setReg s d off _, State.reg_setReg_self _ _ _ _, fun o hne => State.reg_setReg_ne _ _ (.inr hne)⟩
  · rw [exec_registerWrite_of_stored hd hp hs hr hw (List.mem_append_right _ ho) v, State.putReg_of_locked ho hl]
  · refine ⟨_, exec_registerWrite_of_stored hd hp hs hr hw (List.mem_append_right _ ho) v, ?_⟩
    obtain ⟨-, hc, -⟩ := regAccess_of_once ho d
    rw [State.putReg_of_unlocked ho hl, Access.put_of_rw hc]
    refine ⟨sameButDie_trans (sameButDie_setReg s d off _) (sameButDie_onDie _ d _), ?_, ?_⟩
    · rw [State.die_onDie_self]
      exact mem_insertNat _ off
    · rw [State.reg, State.die_onDie_self]
      exact State.reg_setReg_self s d off _
  · rw [exec_registerWrite hd hp hk hw]
    have hne : ¬(d = 0 ∧ off = 0xA00) := by omega
    simp [hne, State.dieUp, h3, h4]

/-! ### Events of units that are not there (R1, R11, R15 to R18) -/

theorem onUnit_of_absent {P : Prop} {_ : Decidable P} (h : ¬P) (s : State) : onUnit (decide P) s = .fault .noSuchUnit := by
  rw [onUnit, decide_eq_false h]
  rfl

/-- By the kind of the unit: a slot, a tile, a die and a host port. -/
theorem eventsOfAbsentUnitsStop : EventsOfAbsentUnitsStop := by
  intro i s h
  rcases h with ⟨k, hk, h⟩ | ⟨t, ht, h⟩ | ⟨d, n, m, hd, h⟩ | ⟨p, hp, h⟩
  · have slot : ∀ u, onUnit (k < slotCount) u = .fault .noSuchUnit := onUnit_of_absent (Nat.not_lt.mpr hk)
    rcases h with rfl | rfl | rfl | rfl | rfl | rfl | rfl | rfl | rfl | rfl
    any_goals exact slot _
    all_goals exact if_pos hk
  · rcases h with rfl | rfl | rfl
    · exact onUnit_of_absent (Nat.not_lt.mpr ht) _
    · exact if_pos ht
    · exact if_pos ht
  · have hd' : ¬d < 4 := Nat.not_lt.mpr hd
    have die : ∀ u, onUnit (d < 4) u = .fault .noSuchUnit := onUnit_of_absent hd'
    rcases h with rfl | rfl | rfl | rfl | rfl | rfl | rfl | rfl | rfl | rfl | rfl | rfl | rfl
    any_goals exact die _
    all_goals exact onUnit_of_absent (fun h => hd' h.1) _
  · rcases h with rfl | rfl | rfl <;> exact onUnit_of_absent (Nat.not_lt.mpr hp) _

/-- Settles O58: time, power, errors of memory and register writes clause by clause, and the events of absent units by the kind of unit (the
throttle's rise, the patrol's record and the stop of such an event are the model's choices, notes/assumptions/88, 26 and 4). -/
theorem timePowerAndErrors : Obligations.TimePowerAndErrors :=
  ⟨timeIsDisciplined, powerAndBackgroundActivity, memoryErrorsAreCountedAndPoison, registerWritesChangeWritableBits, eventsOfAbsentUnitsStop⟩

end Sys2Proof.Machine
end

section
/-! PROOF of O42: layer macros and microcode loads enter the command queue (R192, R194, R196, R235, R238, R240, R243). -/

namespace Sys2Proof.Machine

open Sys2Proof.Claims

/-! ### The end of a run (R196) -/

/-- The end of a chain changes its tiles alone. -/
theorem State.endChain_keeps (s : State) (t : Nat) : (s.endChain t).strands = s.strands ∧ (s.endChain t).mem = s.mem := by
  have hfold : ∀ (l : List Nat) (v : State),
      (l.foldl (fun s u => s.onTile u fun x => { x with chain := none }) v).strands = v.strands ∧
        (l.foldl (fun s u => s.onTile u fun x => { x with chain := none }) v).mem = v.mem := by
    intro l
    induction l with
    | nil => exact fun v => ⟨rfl, rfl⟩
    | cons u l ih => exact fun v => ih _
  rw [State.endChain]
  split
  · exact ⟨rfl, rfl⟩
  · exact hfold _ s

theorem State.endRun_mem (s : State) (k : Nat) : (s.endRun k).mem = s.mem := by
  rw [State.endRun, State.onTile_mem, State.onStrand_mem, apply_ite State.mem, (s.endChain_keeps _).2, ite_self]

theorem State.strand_endRun {s : State} {k : Nat} {st : Strand} (h : s.strand k = some st) :
    (s.endRun k).strand k = some { st with held := false, remain := 0 } := by
  have hc : (if st.held = true then s.endChain (slotTile k) else s).strand k = some st := by
    rw [← h, State.strand, State.strand, apply_ite State.strands, (s.endChain_keeps _).1, ite_self]
  simp only [State.endRun, State.strand_onTile, State.strand_onStrand_self, h, hc, Option.map_some]

/-! ### Words that enter the command queue under a lease (R192 to R196) -/

/-- What a word leaves that has issued into the command queue: its command stands last, not started, and the registers and memory stay. -/
def Enters (s : State) (st : Strand) (w : QWord) (o : MOp) (t : State) : Prop :=
  ∃ u c, t.strand s.cur = some u ∧ u.mq = st.mq ++ [c] ∧ c.w = w ∧ c.start = none ∧ c.op = o ∧ SameRegs st u ∧ t.mem = s.mem

/-- The end of the run touches none of that. -/
theorem Enters.endRun {s t : State} {st : Strand} {w : QWord} {o : MOp} (h : Enters s st w o t) : Enters s st w o (t.endRun s.cur) := by
  obtain ⟨u, c, hu, hq, hw, hs, ho, hregs, hmem⟩ := h
  exact ⟨_, c, State.strand_endRun hu, hq, hw, hs, ho, { hregs with }, (State.endRun_mem _ _).trans hmem⟩

/-- A command enters the queue and counts toward the lease. -/
def Strand.enqueue (st : Strand) (c : MCmd) : Strand := { st with mq := st.mq ++ [c], remain := st.remain - 1 }

theorem IssueOf.enters {s t : State} {st : Strand} {i : Instr} {w : QWord} {l : List QWord} {effs : List Eff} {c : MCmd}
    (h : IssueOf s st i w l effs t) (hw : c.w = w) (hs : c.start = none) : Enters s st w c.op (t.onStrand s.cur (·.enqueue c)) := by
  obtain ⟨⟨u, hu, hregs, -, -, -, -, -, -, -, -, -, hmq, -⟩, hpart, -⟩ := h
  refine ⟨u.enqueue c, c, ?_, by rw [Strand.enqueue, hmq], hw, hs, rfl, { hregs with }, ?_⟩
  · rw [State.strand_onStrand_self, hu]
    rfl
  · rw [State.onStrand_mem, hpart.mem]

/-- A command as it stands in the queue: with its word, run and vc of issue, and the planes `q` that it leaves behind it (R194). -/
def MCmd.queuedFor (c : MCmd) (st : Strand) (w : QWord) (q : Option PMeta × Option PMeta) : MCmd :=
  { c with w := w, fmt := 0, run := st.run, issued := st.now, act := q.1, shd := q.2 }

/-- A word that needs the lease and pops no format word enters the queue with a lease, with room there and with its checks passed. -/
theorem execMat_enters {s : State} {st : Strand} {i : Instr} {w : QWord} {l : List QWord} (h : Issuable s st i w l) (hc : insCls i ≠ 1)
    (hheld : st.held = true) (hremain : st.remain ≠ 0) (hroom : st.mq.length < 64)
    {mk : Strand → QWord → Word → State → Res MCmd} {planes : MCmd → Option PMeta × Option PMeta → Option PMeta × Option PMeta} {c : MCmd}
    (hmk : mk (st.setQueue (insCls i) l) w (st.fmt.headD 0) s = .ok c s) (hcheck : ∀ act chain, c.op.check act chain = none)
    (hstart : c.start = none) : ∃ t, execMat i s true false mk planes = .next t ∧ Enters s st w c.op t := by
  have hlease : (true && (!st.held || st.remain == 0)) = false := by simp [hheld, hremain]
  let c' := c.queuedFor st w (planes c (s.planesOf s.cur (st.setQueue (insCls i) l)))
  have henters : Enters s st w c.op ((((s.setStrand s.cur ((st.setQueue (insCls i) l).issued i w [])).claim s.cur (insCls i)).idled s.cur
      (st.lastWait (insCls i))).onStrand s.cur (·.enqueue c')) := (issueOf hc).idled.enters (c := c') rfl hstart
  rw [onStrand_idled, onStrand_claim] at henters
  refine ⟨_, congrArg Host.Outcome.next (execSide_next h (effs := []) (f := (·.enqueue c')) (t := s) ?_), ?_⟩
  · simp only [Strand.setQueue_mq, Strand.setQueue_held, Strand.setQueue_remain, Strand.setQueue_fmt, hmk, hcheck, hlease, Res.bind,
      if_neg (Nat.not_le.mpr hroom)]
    rfl
  · dsimp only [id]
    split
    · exact henters
    split
    · exact henters.endRun
    · exact henters

/-! ### What a word of class M reads as it leaves its queue -/

@[simp] theorem Strand.xr_setQueue (st : Strand) (c : Nat) (l : List QWord) (n : Nat) : (st.setQueue c l).xr n = st.xr n := rfl
@[simp] theorem Strand.microOf_setQueue (st : Strand) (c : Nat) (l : List QWord) (micro : Tab Word) :
    (st.setQueue c l).microOf micro = st.microOf micro := rfl
@[simp] theorem State.planesOf_setQueue (s : State) (k : Nat) (st : Strand) (c : Nat) (l : List QWord) :
    s.planesOf k (st.setQueue c l) = s.planesOf k st := rfl

/-! ### The clauses -/

theorem rangeFlt_none {base n : Nat} (h : base < 32768) (hn : base + n ≤ 32768) : rangeFlt base n = none :=
  if_neg (by omega)

theorem exec_of_macroEntry {i : Instr} {a : RForm} {e : Nat} (h : macroEntry i = some (a, e)) :
    insCls i ≠ 1 ∧ ∀ s, exec i s = execMacro i a e s := by
  unfold macroEntry at h
  split at h
  case h_5 => cases h
  all_goals
    cases h
    exact ⟨nofun, fun _ => rfl⟩

theorem layerMacrosEnterTheCommandQueue : LayerMacrosEnterTheCommandQueue := by
  intro s st i w l a e entry b q h hi hentry hext hheld hremain hroom hline hfetch hhigh hrows hwalk
  obtain ⟨hc, hexec⟩ := exec_of_macroEntry hi
  let ws := (upFrom 0 8).map fun j => wordAt b (8 * j)
  let c : MCmd := { w := noWord, a := st.xr a.fa.toNat, op := .mac entry ws st.rmode }
  have hrange : rangeFlt (st.xr a.fa.toNat).toNat 1 = none := rangeFlt_none hline hline
  have hlow : ¬(a.ext.isSome = true ∧ entry < 0x100) := fun hx => absurd (hext hx.1) (Nat.not_le.mpr hx.2)
  have hw7 : ¬(bits (ws.getD 7 0) 48 16 ≠ 0 ∨ 768 < bits (ws.getD 7 0) 32 10) := by
    have h7 : ws.getD 7 0 = wordAt b 56 := rfl
    rw [h7, bits_eq, bits_eq]
    omega
  have henters : ∃ t, execMacro i a e s = .next t ∧ Enters s st w c.op t := by
    rw [execMacro]
    refine execMat_enters (c := c) h hc hheld hremain hroom ?_ (fun _ _ => rfl) rfl
    rcases hv : a.ext with _ | v
    all_goals
      rw [hv] at hlow
      simp only [hv, Nat.reducePow] at hentry
      simp only [Strand.xr_setQueue, hrange, hfetch, Res.bind, ← hentry]
      refine (if_neg hlow).trans ((if_neg hw7).trans ?_)
      simp only [Strand.microOf_setQueue, State.planesOf_setQueue, Strand.setQueue_rmode, hwalk]
      rfl
  obtain ⟨t, ht, u, c', hu⟩ := henters
  exact ⟨t, u, c', (hexec s).trans ht, hu⟩

theorem microcodeLoadEntersTheCommandQueue : MicrocodeLoadEntersTheCommandQueue := by
  intro s st w l a b n h hn hheld hremain hroom hend hcount hline hlines hfetch hgood hcrc
  let addr := a.mod.toNat % 2 ^ 12
  let ws := (upFrom 0 n).map fun j => wordAt b (8 * j)
  let c : MCmd := { w := noWord, a := st.xr a.fa.toNat, b := st.xr a.fb.toNat, op := .load addr ((n + 15) / 16) ws }
  have henters : ∃ t, execMcload a s = .next t ∧ Enters s st w c.op t := by
    rw [execMcload]
    refine execMat_enters (c := c) h nofun hheld hremain hroom ?_ (fun _ _ => rfl) rfl
    have hsize : ¬(3840 < n ∨ 4096 < addr + n) := by omega
    have hrange : ¬(32767 < (st.xr a.fa.toNat).toNat ∨ 32768 < (st.xr a.fa.toNat).toNat + up n 16) := by
      rw [show up n 16 = (n + 15) / 16 from rfl]
      omega
    simp only [Strand.xr_setQueue, ← hn, RForm.m_low]
    refine (if_neg hsize).trans ((if_neg hrange).trans ?_)
    simp only [hfetch, Res.bind, hgood]
    rcases hx : a.ext with _ | e
    · rfl
    · have hsum : (e.extractLsb' 0 32 != crc32 b) = false := by
        rw [← BitVec.setWidth_eq_extractLsb' (by decide : 32 ≤ 48), hcrc e hx, bne_self_eq_false]
      simp only [hsum]
      rfl
  obtain ⟨t, ht, u, c', hu⟩ := henters
  exact ⟨t, u, c', ht, hu⟩

/-- Settles O42: both words pass their own checks, and then enter the queue as every word under a lease does (that a load without an
extension has no CRC check, and that the walk is made at issue, are the model's choices, notes/assumptions/56 and 34). -/
theorem layerMacroWords : Obligations.LayerMacroWords := ⟨layerMacrosEnterTheCommandQueue, microcodeLoadEntersTheCommandQueue⟩

end Sys2Proof.Machine
end

section
/-! PROOF of O43: the micro-operations of a layer macro, as the expander starts them (R236 to R239, R241). -/

namespace Sys2Proof.Machine

open Sys2Proof.Claims

/-! ### What a micro-operation names (R237 to R239) -/

theorem Mac.size_eq (m : Mac) (u : UForm) : m.size u = microSize m u :=
  congrArg (fun n => if u.imm.getLsbD 15 then n else u.imm.toNat % 1024) (bits_eq m.w7 32 10)

theorem Mac.out_eq (m : Mac) (u : UForm) : m.out u = if u.dsc then m.w7.toNat / 2 ^ 42 % 16 else u.out.toNat :=
  congrArg (fun n => if u.dsc then n else u.out.toNat) (bits_eq m.w7 42 4)

theorem Mac.lq_eq (m : Mac) (u : UForm) : m.lq u = (if u.dsc then m.w7.toNat / 2 ^ 46 % 4 else u.lq.toNat) + 1 :=
  congrArg (fun n => (if u.dsc then n else u.lq.toNat) + 1) (bits_eq m.w7 46 2)

/-- A register that is changed by a function of its own value. -/
theorem Cells.get_update {w : Nat} (c : Cells w) (a j : Nat) (f : BitVec w → BitVec w) :
    Cells.get (Cells.set c a (f (Cells.get c a))) j = if j = a then f (Cells.get c j) else Cells.get c j := by
  split
  next h => rw [h, Cells.get_set_self]
  next h => exact Cells.get_set_ne c _ h

theorem Mac.next_uloop_of_zero {m : Mac} {u : UForm} (h : Cells.get m.c u.ksel.toNat = 0) :
    m.next (.uloop u) = { m with addr := m.addr + 1, bound := bndOf (.uloop u) } := if_pos h

theorem Mac.next_uloop_of_count {m : Mac} {u : UForm} (h : Cells.get m.c u.ksel.toNat ≠ 0) :
    m.next (.uloop u) =
      { m with c := Cells.set m.c u.ksel.toNat (Cells.get m.c u.ksel.toNat - 1), addr := u.tgt.toNat, bound := true } := if_neg h

/-- A micro-operation on the macro's registers: it starts no array work, and leaves the address and the registers that R238 gives. -/
theorem next_of_microRegs {m : Mac} {i : Instr} {addr : Nat} {fb fc : Nat → BitVec 16} (h : microRegs m i = some (addr, fb, fc)) :
    (∀ s, exec i s = execUop i s) ∧ (∀ v, i ≠ .uend v) ∧ m.opOf i = none ∧ (m.next i).addr = addr ∧
      (∀ j, Cells.get (m.next i).b j = fb j) ∧ (∀ j, Cells.get (m.next i).c j = fc j) ∧ (m.next i).f = m.f ∧ (m.next i).w7 = m.w7 := by
  unfold microRegs at h
  split at h
  case h_1 u =>
    cases h
    exact ⟨fun _ => rfl, nofun, rfl, rfl, fun j => Cells.get_update m.b _ j (· + Cells.get m.b u.ub.toNat), fun _ => rfl, rfl, rfl⟩
  case h_2 u =>
    cases h
    exact ⟨fun _ => rfl, nofun, rfl, rfl, fun j => Cells.get_update m.b _ j (· + u.imm), fun _ => rfl, rfl, rfl⟩
  case h_3 u =>
    cases h
    exact ⟨fun _ => rfl, nofun, rfl, rfl, fun _ => rfl, fun j => Cells.get_update m.c _ j fun _ => u.imm, rfl, rfl⟩
  case h_4 u =>
    split at h
    next hz =>
      cases h
      rw [Mac.next_uloop_of_zero hz]
      exact ⟨fun _ => rfl, nofun, rfl, rfl, fun _ => rfl, fun _ => rfl, rfl, rfl⟩
    next hn =>
      cases h
      rw [Mac.next_uloop_of_count hn]
      exact ⟨fun _ => rfl, nofun, rfl, rfl, fun _ => rfl, fun j => Cells.get_update m.c _ j (· - 1), rfl, rfl⟩
  case h_5 => cases h

/-- A micro-operation of the array: the operation that R238 and R239 name, and the macro goes on at the next address. -/
theorem next_of_microOp {m : Mac} {i : Instr} {o : MOp} (h : microOp m i = some o) :
    (∀ s, exec i s = execUop i s) ∧ (∀ v, i ≠ .uend v) ∧ m.opOf i = some o ∧ (m.next i).addr = m.addr + 1 ∧
      (m.next i).b = m.b ∧ (m.next i).c = m.c := by
  unfold microOp at h
  split at h
  case h_7 => cases h
  all_goals
    cases h
    refine ⟨fun _ => rfl, nofun, ?_, rfl, rfl, rfl⟩
    simp only [Mac.opOf, Mac.size_eq, Mac.out_eq, Mac.lq_eq, Mac.base, microBase, BitVec.ofNat_toNat,
      BitVec.setWidth_eq_extractLsb' (by decide : 32 ≤ 64)]

/-! ### The expander (R241) -/

/-- A command that replaces one has the same word, start and operation. -/
theorem Strand.putCmd_mops_keys (st : Strand) (c : MCmd) :
    (st.putCmd c).mops.map (fun x => (x.w.seq, x.start, x.op)) = st.mops.map fun x => (x.w.seq, x.start, x.op) := by
  rw [Strand.putCmd, List.map_map]
  refine List.map_congr_left fun x _ => ?_
  simp only [Function.comp_apply]
  split
  next h =>
    simp only [Bool.and_eq_true, beq_iff_eq] at h
    obtain ⟨⟨hseq, hstart⟩, hop⟩ := h
    rw [hseq, hstart, hop]
  next => rfl

/-- A strand that is not being stopped comes to no save. -/
theorem State.settle_of_runs {s : State} {k : Nat} {st : Strand} (h : s.strand k = some st) (hr : st.stop = none) : s.settle k = s := by
  simp only [State.settle, h, hr]

theorem State.settle_setStrand (s : State) (k : Nat) {x : Strand} (hr : x.stop = none) : (s.setStrand k x).settle k = s.setStrand k x :=
  State.settle_of_runs (State.strand_setStrand_self s k x) hr

theorem isSome_stop {st : Strand} (hr : st.stop = none) : st.stop.isSome = false := by
  rw [hr]
  rfl

/-- The vc at which a micro-operation that is due starts (R241). -/
def Strand.uopStart (st : Strand) (m : Mac) (c : MCmd) (i : Instr) : Nat := max (st.uopBound m c i) st.now

/-- A micro-operation that starts no array work moves the macro alone. -/
theorem execUop_of_register {s : State} {st : Strand} {m : Mac} {c : MCmd} {i : Instr} (h : MicroDue s st m c i)
    (hi : ∀ v, i ≠ .uend v) (ho : m.opOf i = none) :
    execUop i s = .next (s.setStrand s.cur { st with
      mac := some { m.next i with last := st.uopStart m c i + 1, retire := max m.retire (st.uopStart m c i) } }) := by
  obtain ⟨hhere, hruns, hmac, hcmd, hmay⟩ := h
  simp only [execUop, hhere, isSome_stop hruns, hmac, hcmd, hmay, ho, Bool.not_true, Bool.false_eq_true, if_false]
  exact congrArg Host.Outcome.next (State.settle_setStrand s s.cur hruns)

/-- UEND ends the macro, whose command is then done. -/
theorem execUop_uend {s : State} {st : Strand} {m : Mac} {c : MCmd} {u : UForm} (h : MicroDue s st m c (.uend u)) :
    let v := st.uopStart m c (.uend u)
    execUop (.uend u) s = .next (s.setStrand s.cur
      { st.putCmd { c with uend := some v, retire := max m.retire v, done := true } with mac := none, least := v + 1 }) := by
  obtain ⟨hhere, hruns, hmac, hcmd, hmay⟩ := h
  simp only [execUop, hhere, isSome_stop hruns, hmac, hcmd, hmay, Bool.not_true, Bool.false_eq_true, if_false]
  exact congrArg Host.Outcome.next (State.settle_setStrand s s.cur hruns)

/-- The command that a micro-operation of the array becomes as it starts. -/
def uopCmd (s : State) (st : Strand) (m : Mac) (c : MCmd) (i : Instr) (o : MOp) : MCmd :=
  { w := { ins := i, pc := c.w.pc, seq := c.w.seq }, op := o, run := c.run, start := some (st.uopStart m c i),
    retire := st.uopStart m c i + (o.cost 0).1 + (o.cost 0).2, done := !(o.flight (st.uopStart m c i) c.run 0).isSome,
    issued := m.addr, plane := o.planeIn (s.tile (slotTile s.cur)) }

/-- The strand once the operation has started. -/
def Strand.uopStarted (s : State) (st : Strand) (m : Mac) (c : MCmd) (i : Instr) (o : MOp) : Strand :=
  Strand.pruned { st with
    mops := st.mops ++ [uopCmd s st m c i o]
    fly := st.fly ++ (o.flight (st.uopStart m c i) c.run 0).toList
    mac := some { m.next i with last := st.uopStart m c i + 1, retire := max m.retire (uopCmd s st m c i o).retire } }

/-- USWAP exchanges the planes as it starts; no other operation changes them (R200). -/
def State.uopPlanes (s : State) (o : MOp) : State :=
  match o with
  | .swap => s.onTile (slotTile s.cur) fun t => { t with active := t.shadow, shadow := t.active }
  | _ => s

theorem State.strand_uopPlanes (s : State) (o : MOp) (k : Nat) : (s.uopPlanes o).strand k = s.strand k := by
  cases o <;> rfl

/-- A micro-operation of the array, its operands free of poison, starts. -/
theorem execUop_of_array {s : State} {st : Strand} {m : Mac} {c : MCmd} {i : Instr} {o : MOp} (h : MicroDue s st m c i)
    (hi : ∀ v, i ≠ .uend v) (ho : m.opOf i = some o) (hp : s.opPoison s.cur c.w.seq o 0 = none) :
    execUop i s = .next ((s.setStrand s.cur (Strand.uopStarted s st m c i o)).uopPlanes o) := by
  obtain ⟨hhere, hruns, hmac, hcmd, hmay⟩ := h
  have hs : ((s.setStrand s.cur (Strand.uopStarted s st m c i o)).uopPlanes o).strand s.cur = some (Strand.uopStarted s st m c i o) :=
    (State.strand_uopPlanes _ o _).trans (State.strand_setStrand_self s s.cur _)
  rw [← State.settle_of_runs hs hruns]
  simp only [execUop, hhere, isSome_stop hruns, hmac, hcmd, hmay, ho, hp, Bool.not_true, Bool.false_eq_true, if_false]
  cases o <;> rfl

/-! ### The clauses -/

theorem registerMicroOperations : RegisterMicroOperations := by
  refine ⟨fun s st m c i addr fb fc h hm => ?_, fun s st m c v h => ?_⟩
  · obtain ⟨hexec, hi, ho, haddr, hb, hc, hf, hw⟩ := next_of_microRegs hm
    exact ⟨_, _, _, (hexec s).trans (execUop_of_register h hi ho), State.strand_setStrand_self _ _ _, rfl, haddr, hb, hc, hf, hw, rfl,
      by constructor <;> rfl, by constructor <;> simp, rfl⟩
  · refine ⟨_, _, execUop_uend h, State.strand_setStrand_self _ _ _, rfl, ?_, by constructor <;> rfl, by constructor <;> simp, rfl⟩
    exact st.putCmd_mops_keys _

theorem arrayMicroOperations : ArrayMicroOperations := by
  intro s st m c i o h hm hp
  obtain ⟨hexec, hi, ho, haddr, hb, hc⟩ := next_of_microOp hm
  refine ⟨_, Strand.uopStarted s st m c i o, uopCmd s st m c i o, _, (hexec s).trans (execUop_of_array h hi ho hp), ?_, rfl, rfl, rfl, rfl,
    haddr, hb, hc, by constructor <;> rfl, ?_, ?_, ?_⟩
  · rw [State.strand_uopPlanes, State.strand_setStrand_self]
  · cases o <;> rfl
  · cases o <;> rfl
  · rintro rfl
    simp [State.uopPlanes]

/-- Settles O43: the register micro-operations and UEND by the strand that the expander leaves, those of the array by the operation that
starts. -/
theorem microOperations : Obligations.MicroOperations := ⟨registerMicroOperations, arrayMicroOperations⟩

end Sys2Proof.Machine
end

section
/-! PROOF of O53: the boundaries of the governor, and the grants of their second pass (R289, R290, R292, R294). -/

namespace Sys2Proof.Machine

open Sys2Proof.Claims

/-! ### Acts of a quiet command processor (R305, R423) -/

/-- Where no status waits to be written, no record retires again. -/
theorem State.retireAgain_of_told {s : State} {d : Nat} (h : ∀ e ∈ (s.die d).qslots, ∀ r ∈ e.2.recs, r.done = 0) :
    s.retireAgain d = s := by
  have hnone : ((s.die d).qslots.flatMap fun e => (e.2.recs.filter fun r => r.done != 0).map fun r => (e.1, r)) = [] := by
    refine List.flatMap_eq_nil_iff.mpr fun e he => List.map_eq_nil_iff.mpr (List.filter_eq_nil_iff.mpr fun r hr => ?_)
    simp [h e he r hr]
  rw [State.retireAgain, hnone]
  rfl

/-- The wait states are kept in the queue slots alone. -/
theorem State.reg_kinds (s : State) (d off : Nat) : (s.kinds d).reg d off = s.reg d off := by
  rw [State.kinds, State.reg, State.die_onDie_self]
  rfl

/-- Without a mirror, an act is followed by the wait states of the slots alone. -/
theorem State.showWaits_of_no_mirror {s : State} {d : Nat} (h : bits (s.reg d 0xD08) 12 44 = 0) : s.showWaits d = s.kinds d := by
  rw [State.showWaits, State.mirrorOut, State.reg_kinds, if_pos h]

theorem cpAct_of_quiet {s : State} {d : Nat} (h : CpQuiet s d) (f : State → State) : cpAct d s f = .next ((f s).showWaits d) := by
  rw [cpAct, onUnit_of_present h.die, State.dieUp, if_pos (beq_iff_eq.mpr h.runs), State.retireAgain_of_told h.told]

/-! ### The boundary over an empty table (R289, R290, R294) -/

/-- The state at the end of a boundary that has met no record and has no signal to send. -/
def State.endBoundary (s : State) (d : Nat) : State :=
  (((s.setReg d 0x230 0).setField d 0x228 1 1 0).setField d 0x228 3 1 1).onDie d fun x => { x with gov := none, govIn := [] }

theorem State.reg_endBoundary (s : State) (d off : Nat) :
    (s.endBoundary d).reg d off = (((s.setReg d 0x230 0).setField d 0x228 1 1 0).setField d 0x228 3 1 1).reg d off := by
  rw [State.endBoundary, State.reg, State.die_onDie_self]
  rfl

/-- BND_STATUS and BND_CTL are the only registers that it writes. -/
theorem State.reg_endBoundary_of_ne (s : State) (d : Nat) {off : Nat} (hs : off ≠ 0x230) (hc : off ≠ 0x228) :
    (s.endBoundary d).reg d off = s.reg d off := by
  rw [State.reg_endBoundary, State.setField, State.reg_setReg_ne _ _ (.inr hc), State.setField, State.reg_setReg_ne _ _ (.inr hc),
    State.reg_setReg_ne _ _ (.inr hs)]

theorem State.status_endBoundary (s : State) (d : Nat) : (s.endBoundary d).reg d 0x230 = 0 := by
  have hne : (0x230 : Nat) ≠ 0x228 := by decide
  rw [State.reg_endBoundary, State.setField, State.reg_setReg_ne _ _ (.inr hne), State.setField, State.reg_setReg_ne _ _ (.inr hne),
    State.reg_setReg_self]

/-- BUSY of BND_CTL is 0 and DONE is 1. -/
theorem State.control_endBoundary (s : State) (d : Nat) :
    ((s.endBoundary d).reg d 0x228).getLsbD 1 = false ∧ ((s.endBoundary d).reg d 0x228).getLsbD 3 = true := by
  rw [State.reg_endBoundary, State.reg_setField, State.reg_setField]
  simp only [BitVec.getLsbD, toNat_putBits _ _ (show 1 + 1 ≤ 64 by decide), toNat_putBits _ _ (show 3 + 1 ≤ 64 by decide),
    Nat.testBit_eq_decide_div_mod_eq, decide_eq_false_iff_not, decide_eq_true_eq]
  omega

theorem State.sameButDie_endBoundary (s : State) (d : Nat) : SameButDie s (s.endBoundary d) d :=
  sameButDie_trans (sameButDie_trans (sameButDie_trans (sameButDie_setReg s d _ _) (sameButDie_setReg _ d _ _)) (sameButDie_setReg _ d _ _))
    (sameButDie_onDie _ d _)

/-- With BND_STATUS 0, no signal and no Boundary record, the end of a boundary writes registers alone. -/
theorem State.govEnd_of_silent {s : State} {w : Who} (tell : State → Flt → State) (hsig : bits (s.reg w.die 0x220) 3 53 = 0)
    (hgov : (s.die w.die).gov = none) : s.govEnd w tell 0 = .ok () (s.endBoundary w.die) := by
  have hs : bits ((((s.setReg w.die 0x230 0).setField w.die 0x228 1 1 0).setField w.die 0x228 3 1 1).reg w.die 0x220) 3 53 = 0 := by
    rw [← State.reg_endBoundary, State.reg_endBoundary_of_ne s w.die (by decide) (by decide), hsig]
  have hg : ((((s.setReg w.die 0x230 0).setField w.die 0x228 1 1 0).setField w.die 0x228 3 1 1).die w.die).gov = none := by
    simpa [State.setField, State.setReg] using hgov
  rw [State.govEnd]
  dsimp only
  rw [hs, Nat.zero_mul, if_pos rfl, Res.bind, hg, State.endBoundary]

/-- An empty table leaves nothing for the three passes. -/
theorem State.govRun_of_empty {s : State} {d : Nat} (hlen : bits ((s.die d).govIn.getD 2 0) 0 17 = 0)
    (hsig : bits (s.reg d 0x220) 3 53 = 0) (hgov : (s.die d).gov = none) : s.govRun d = .ok () (s.endBoundary d) := by
  simp only [State.govRun, hlen, Nat.zero_min, State.govPass1, Res.bind, govPass2, List.zipIdx_nil, List.map_nil, State.govPass3]
  have hstatus : wordOf [(0, 48), (0, 32), (0, 16), (0, 0)] = 0 := by decide
  rw [List.filter_nil, List.filter_nil, List.length_nil, Nat.zero_min, hstatus]
  exact State.govEnd_of_silent (w := govWho d (bits ((s.die d).govIn.getD 2 0) 32 16)) _ hsig hgov

theorem exec_iterationBoundary (d : Nat) (s : State) : exec (.iterationBoundary d) s = execIterationBoundary d s := rfl

/-- While BUSY is 0 no boundary runs. -/
theorem exec_iterationBoundary_of_idle {s : State} {d : Nat} (h : CpQuiet s d) (hb : (s.reg d 0x228).getLsbD 1 = false) :
    exec (.iterationBoundary d) s = .next s := by
  rw [exec_iterationBoundary, execIterationBoundary, cpAct_of_quiet h, hb, Bool.not_false, if_pos rfl,
    State.showWaits_of_no_mirror h.mirror, h.shown]

/-- While BUSY is 1 it runs whole, where it waits for no page request. -/
theorem exec_iterationBoundary_of_run {s t : State} {d : Nat} (h : CpQuiet s d) (hb : (s.reg d 0x228).getLsbD 1 = true)
    (hrun : s.govRun d = .ok () t) : exec (.iterationBoundary d) s = .next (t.showWaits d) := by
  rw [exec_iterationBoundary, execIterationBoundary, cpAct_of_quiet h, hb, Bool.not_true, if_neg Bool.false_ne_true, hrun]

/-- Clause by clause: no boundary without BUSY, and one over an empty table. -/
theorem emptyBoundaryCompletes : EmptyBoundaryCompletes := by
  intro s d h
  refine ⟨exec_iterationBoundary_of_idle h, fun hb hlen hsig hgov => ?_⟩
  have hrun : s.govRun d = .ok () (s.endBoundary d) :=
    State.govRun_of_empty (by rwa [bits_eq, Nat.pow_zero, Nat.div_one]) ((bits_eq _ _ _).trans hsig) hgov
  have hmirror : bits ((s.endBoundary d).reg d 0xD08) 12 44 = 0 := by
    rw [State.reg_endBoundary_of_ne s d (by decide) (by decide), h.mirror]
  have hx := exec_iterationBoundary_of_run h hb hrun
  rw [State.showWaits_of_no_mirror hmirror] at hx
  obtain ⟨hbusy, hdone⟩ := s.control_endBoundary d
  refine ⟨_, hx, ?_, ?_, ?_, sameButDie_trans (s.sameButDie_endBoundary d) (sameButDie_onDie _ d _)⟩
  · rw [State.reg_kinds, State.status_endBoundary]
  · rw [State.reg_kinds, hbusy]
  · rw [State.reg_kinds, hdone]

/-! ### The grants of pass 2 (R292) -/

/-- Extra footprint that a request needs, in quarters of a byte. -/
def askExtra (e : Nat × Row) : Int := e.2.extra.getD 0

/-- A request needs none, or it comes before the first refusal and fits the budget. -/
def AskFits (e : Nat × Row) (budget : Int) (full : Bool) : Prop := askExtra e = 0 ∨ full = false ∧ askExtra e ≤ budget

/-- Such a request is granted. -/
theorem grants_cons_of_fits {e : Nat × Row} {budget : Int} {full : Bool} (h : AskFits e budget full)
    (l : List (Nat × Row)) : grants (e :: l) budget full = e.1 :: grants l (budget - askExtra e) full :=
  if_pos (by simpa [AskFits, askExtra] using h)

/-- Any other is the first refusal, or comes after it. -/
theorem grants_cons_of_refused {e : Nat × Row} {budget : Int} {full : Bool} (h : ¬AskFits e budget full)
    (l : List (Nat × Row)) : grants (e :: l) budget full = grants l budget true :=
  if_neg (by simpa [AskFits, askExtra] using h)

/-- Only places of the requests are granted. -/
theorem mem_map_of_mem_grants {n : Nat} {l : List (Nat × Row)} {budget : Int} {full : Bool} (h : n ∈ grants l budget full) :
    n ∈ l.map (·.1) := by
  induction l generalizing budget full with
  | nil => exact h
  | cons e l ih =>
    by_cases hf : AskFits e budget full
    · rw [grants_cons_of_fits hf] at h
      exact List.mem_cons.mpr ((List.mem_cons.mp h).imp_right ih)
    · rw [grants_cons_of_refused hf] at h
      exact List.mem_cons_of_mem _ (ih h)

/-- The extra footprint of the requests of a list whose places are in another. -/
def extraOf (l : List (Nat × Row)) (ok : List Nat) : Int := ((l.filter fun e => ok.contains e.1).map askExtra).sum

theorem extraOf_cons_of_not_mem {e : Nat × Row} {ok : List Nat} (h : e.1 ∉ ok) (l : List (Nat × Row)) :
    extraOf (e :: l) ok = extraOf l ok := by
  rw [extraOf, List.filter_cons_of_neg (by simpa using h), extraOf]

/-- No later request has the head's place. -/
theorem place_ne_of_nodup {e x : Nat × Row} {l : List (Nat × Row)} (h : ((e :: l).map (·.1)).Nodup) (hx : x ∈ l) : x.1 ≠ e.1 := by
  have hhead : e.1 ∉ l.map (·.1) := (List.nodup_cons.mp h).1
  exact fun he => hhead (he ▸ List.mem_map_of_mem hx)

/-- A granted request at the head counts once. -/
theorem extraOf_cons_cons {e : Nat × Row} {l : List (Nat × Row)} (h : ((e :: l).map (·.1)).Nodup) (ok : List Nat) :
    extraOf (e :: l) (e.1 :: ok) = askExtra e + extraOf l ok := by
  have hl : (l.filter fun x => (e.1 :: ok).contains x.1) = l.filter fun x => ok.contains x.1 := by
    refine List.filter_congr fun x hx => ?_
    simp [place_ne_of_nodup h hx]
  rw [extraOf, List.filter_cons_of_pos (by simp), hl, List.map_cons, List.sum_cons, extraOf]

/-- The head's place is in no later grant. -/
theorem not_mem_grants_of_nodup {e : Nat × Row} {l : List (Nat × Row)} (h : ((e :: l).map (·.1)).Nodup) (budget : Int) (full : Bool) :
    e.1 ∉ grants l budget full :=
  fun hm => (List.nodup_cons.mp h).1 (mem_map_of_mem_grants hm)

/-- After a refusal, what is granted needs nothing. -/
theorem askExtra_of_mem_grants_full {l : List (Nat × Row)} (hl : (l.map (·.1)).Nodup) {budget : Int} {b : Nat × Row} (hb : b ∈ l)
    (hm : b.1 ∈ grants l budget true) : askExtra b = 0 := by
  induction l generalizing budget with
  | nil => exact absurd hb List.not_mem_nil
  | cons e l ih =>
    have htail := (List.nodup_cons.mp hl).2
    by_cases hf : askExtra e = 0
    · rw [grants_cons_of_fits (.inl hf)] at hm
      rcases List.mem_cons.mp hb with rfl | hb
      · exact hf
      · exact ih htail hb ((List.mem_cons.mp hm).resolve_left (place_ne_of_nodup hl hb))
    · rw [grants_cons_of_refused (by simpa [AskFits] using hf)] at hm
      rcases List.mem_cons.mp hb with rfl | hb
      · exact absurd hm (not_mem_grants_of_nodup hl _ _)
      · exact ih htail hb hm

theorem extraOf_grants_full {l : List (Nat × Row)} (hl : (l.map (·.1)).Nodup) (budget : Int) : extraOf l (grants l budget true) = 0 := by
  induction l generalizing budget with
  | nil => rfl
  | cons e l ih =>
    have htail := (List.nodup_cons.mp hl).2
    by_cases hf : AskFits e budget true
    · have hzero : askExtra e = 0 := hf.resolve_right fun h => Bool.noConfusion h.1
      rw [grants_cons_of_fits hf, extraOf_cons_cons hl, ih htail, hzero, Int.add_zero]
    · rw [grants_cons_of_refused hf, extraOf_cons_of_not_mem (not_mem_grants_of_nodup hl _ _), ih htail]

/-- By the requests in their order: one that fits takes its extra from the budget, and the first that does not leaves later ones none. -/
theorem extraOf_grants_le {l : List (Nat × Row)} (hl : (l.map (·.1)).Nodup) {budget : Int} (hb : 0 ≤ budget) :
    extraOf l (grants l budget false) ≤ budget := by
  induction l generalizing budget with
  | nil => exact hb
  | cons e l ih =>
    have htail := (List.nodup_cons.mp hl).2
    by_cases hf : AskFits e budget false
    · have hrest := ih htail (show 0 ≤ budget - askExtra e by rcases hf with h | ⟨-, h⟩ <;> omega)
      rw [grants_cons_of_fits hf, extraOf_cons_cons hl]
      omega
    · rw [grants_cons_of_refused hf, extraOf_cons_of_not_mem (not_mem_grants_of_nodup hl _ _), extraOf_grants_full htail]
      exact hb

/-- Of two requests the later, where it needs some, is granted only after the earlier. -/
theorem mem_grants_of_later {l : List (Nat × Row)} (hl : (l.map (·.1)).Nodup) {budget : Int} {i j : Nat} {a b : Nat × Row} (hij : i < j)
    (ha : l[i]? = some a) (hb : l[j]? = some b) (hn : askExtra b ≠ 0) (hm : b.1 ∈ grants l budget false) :
    a.1 ∈ grants l budget false := by
  induction l generalizing budget i j with
  | nil => exact absurd ha nofun
  | cons e l ih =>
    have htail := (List.nodup_cons.mp hl).2
    obtain ⟨j, rfl⟩ := Nat.exists_eq_add_one.mpr (Nat.zero_lt_of_lt hij)
    rw [List.getElem?_cons_succ] at hb
    have hbl : b ∈ l := List.mem_of_getElem? hb
    by_cases hf : AskFits e budget false
    · rw [grants_cons_of_fits hf] at hm ⊢
      cases i with
      | zero =>
        obtain rfl : e = a := Option.some.inj ha
        exact List.mem_cons_self
      | succ i =>
        have hmb := (List.mem_cons.mp hm).resolve_left (place_ne_of_nodup hl hbl)
        exact List.mem_cons_of_mem _ (ih htail (Nat.lt_of_succ_lt_succ hij) ha hb hmb)
    · rw [grants_cons_of_refused hf] at hm
      exact absurd (askExtra_of_mem_grants_full htail hbl hm) hn

theorem grantsKeepWithinTheBudget : GrantsKeepWithinTheBudget :=
  ⟨fun _ _ hb hl => extraOf_grants_le hl hb, fun _ _ _ _ _ _ hl hij ha hb _ hn hm => mem_grants_of_later hl hij ha hb hn hm⟩

/-- Settles O53: a boundary over an empty table through its three passes and its end, and the grants by induction on the requests in their
order (that a boundary is one step is the model's choice, notes/assumptions/11). -/
theorem governorBoundaries : Obligations.GovernorBoundaries := ⟨emptyBoundaryCompletes, grantsKeepWithinTheBudget⟩

end Sys2Proof.Machine
end

section
/-! PROOF of O25: a step performs the word that its first agenda number names (R73, R76 to R78, R424). -/

namespace Sys2Proof.Machine

open Sys2Proof.Claims

/-! ### The engine of a decoded word (R77) -/

/-- Cell by cell, the R-form table holds words of the six engines alone. -/
theorem ofR_insCls {c o : Nat} (hc : c < 8) (ho : o < 256) (a : RForm) : (ofR c o a).all (fun i => decide (insCls i < 6)) = true := by
  interval_cases c <;> interval_cases o <;> rfl

/-- So does the I-form table. -/
theorem ofI_insCls {c o : Nat} (hc : c < 8) (ho : o < 256) (a : IForm) : (ofI c o a).all (fun i => decide (insCls i < 6)) = true := by
  interval_cases c <;> interval_cases o <;> rfl

theorem insCls_of_decodeAlign {w : Word} {i : Instr} (h : decodeAlign w = .ok i) : insCls i = 5 := by
  rw [decodeAlign] at h
  split at h
  · cases h
  · injection h with h
    subst h
    split <;> rfl

theorem insCls_of_decodeOne {w : Word} {e : Option (BitVec 48)} {i : Instr} (h : decodeOne w e = .ok i) : insCls i < 6 := by
  have hc : clsOf w < 8 := (w.extractLsb' 61 3).isLt
  have ho : opcOf w < 256 := (w.extractLsb' 36 8).isLt
  have legal : ∀ {x : Option Instr}, x.all (fun i => decide (insCls i < 6)) = true →
      (match x with
        | none => .error (.illegal 2 false)
        | some j => match j.illegal with
          | none => .ok j
          | some c => .error (.illegal c false) : Except Reject Instr) = .ok i → insCls i < 6 := by
    intro x hx hi
    cases x with
    | none => cases hi
    | some j =>
      dsimp only at hi
      split at hi
      · injection hi with hi
        subst hi
        exact of_decide_eq_true hx
      · cases hi
  rw [decodeOne] at h
  split at h
  · cases h
  · split at h
    · rw [insCls_of_decodeAlign h]
      decide
    · refine legal ?_ h
      cases cellForm (clsOf w) (opcOf w) with
      | none => rfl
      | some f => cases f with
        | r | rx => exact ofR_insCls hc ho _
        | i | ix => exact ofI_insCls hc ho _

theorem insCls_of_decodeWords {w v : Word} {e : Instr × Nat} (h : decodeWords w v = .ok e) : insCls e.1 < 6 := by
  rw [decodeWords] at h
  split at h
  · split at h
    · cases h
    · cases hd : decodeOne v (some (w.extractLsb' 13 48)) with
      | error x => simp [hd] at h
      | ok i =>
        rw [hd] at h
        injection h with h
        subst h
        exact insCls_of_decodeOne hd
  · cases hd : decodeOne w none with
    | error x => simp [hd] at h
    | ok i =>
      rw [hd] at h
      injection h with h
      subst h
      exact insCls_of_decodeOne hd

/-- Rotation changes register numbers alone (R91). -/
theorem insCls_rotIns (b : Nat) (i : Instr) : insCls (rotIns b i) = insCls i := by
  cases i <;> rfl

/-! ### What the front end fetches (R76, R370, R415) -/

theorem State.fetchAt_of_read {s s1 : State} {k : Nat} {st : Strand} {va : Word} {b : List Byte} (hm : offMemory va.toNat 8 = false)
    (hr : s.readVa (s.whoOf k st) kFetch va.toNat 8 = .ok b s1) : s.fetchAt k st va = .ok (BitVec.ofNat 64 (leNat b)) s1 := by
  rw [State.fetchAt, if_neg (ne_true_of_eq_false hm), hr]

/-- A word of one of the six classes is one instruction. -/
theorem State.fetchInstr_of_word {s s1 : State} {k : Nat} {st : Strand} {w : Word} {i : Instr} {n : Nat}
    (hf : s.fetchAt k st st.pc = .ok w s1) (hc : clsOf w ≠ 7) (hd : decodeWords w 0 = .ok (i, n)) :
    s.fetchInstr k st = .ok (.inl i) s1 := by
  simp only [State.fetchInstr, hf, if_neg hc, hd]

/-- An extension word is one with the word after it. -/
theorem State.fetchInstr_of_extension {s s1 s2 : State} {k : Nat} {st : Strand} {w x : Word} {i : Instr} {n : Nat}
    (hf : s.fetchAt k st st.pc = .ok w s1) (hc : clsOf w = 7) (hx : s1.fetchAt k st (st.pc + 8) = .ok x s2)
    (hd : decodeWords w x = .ok (i, n)) : s.fetchInstr k st = .ok (.inl i) s2 := by
  simp only [State.fetchInstr, hf, if_pos hc, hx, hd]

/-- What is fetched has been decoded, so that it is a word of one of the six engines. -/
theorem State.insCls_of_fetchInstr {s t : State} {k : Nat} {st : Strand} {i : Instr} (h : s.fetchInstr k st = .ok (.inl i) t) :
    insCls i < 6 := by
  rw [State.fetchInstr] at h
  split at h
  · cases h
  · cases h
  · dsimp only at h
    split at h
    · cases h
    · cases h
    · split at h
      · rename_i hd
        injection h with h
        injection h with h
        exact h ▸ insCls_of_decodeWords hd
      · cases h
      · cases h

/-! ### What the dispatcher places (R77, R89) -/

/-- A placed word goes to the dispatcher, where it acts there, or to the tail of its engine's queue. -/
theorem Strand.place_spec {st u : Strand} {i j : Instr} (h : st.place i = some u) (hj : j = rotIns st.base.toNat i) :
    u.seq = st.seq + 1 ∧ ∃ w : QWord, w.ins = j ∧ w.seq = st.seq ∧
      (consumed j = true ∧ u.disp = some w ∨
        consumed j = false ∧ u.disp = st.disp ∧ ∀ c, u.queue c = if c = insCls j then st.queue c ++ [w] else st.queue c) := by
  simp only [Strand.place, ← hj] at h
  split at h
  case isTrue hc =>
    cases h
    exact ⟨rfl, ⟨j, st.pc + (insLen j - 8), st.seq⟩, rfl, rfl, .inl ⟨hc, rfl⟩⟩
  case isFalse hc =>
    split at h
    · cases h
    · cases h
      refine ⟨rfl, ⟨j, st.pc + (insLen j - 8), st.seq⟩, rfl, rfl, .inr ⟨eq_false_of_ne_true hc, rfl, fun c => ?_⟩⟩
      by_cases hq : c = insCls j
      · subst hq
        rw [if_pos rfl, Strand.queue_setQueue_self]
      · rw [if_neg hq, Strand.queue_setQueue_ne _ _ hq]
        rfl

/-- Of the words that stand first, the one just placed is the only one with its number: all others are older. -/
theorem find_placed {st u : Strand} {i j : Instr} (h : st.place i = some u) (hj : j = rotIns st.base.toNat i) (hi : insCls j < 6)
    (hd : st.disp = none) (hold : ∀ c, ∀ w ∈ st.queue c, w.seq < st.seq) (hfirst : consumed j = true ∨ st.queue (insCls j) = []) :
    ∃ w, w.ins = j ∧ ((u.disp.toList ++ [0, 1, 2, 3, 4, 5].filterMap fun c => (u.queue c).head?).find?
      fun w => w.seq == st.seq && st.seq != u.seq) = some w := by
  obtain ⟨hs, w, hw, hn, ⟨-, hu⟩ | ⟨hc, hu, hq⟩⟩ := Strand.place_spec h hj
  · exact ⟨w, hw, by simp [hu, hn, hs]⟩
  · have hempty := hfirst.resolve_left (ne_true_of_eq_false hc)
    have hmem : w ∈ [0, 1, 2, 3, 4, 5].filterMap fun c => (u.queue c).head? :=
      List.mem_filterMap.mpr ⟨insCls j, by simp; omega, by simp [hq, hempty]⟩
    have hsome := List.find?_isSome (p := fun w => w.seq == st.seq && st.seq != u.seq) |>.mpr ⟨w, hmem, by simp [hn, hs]⟩
    obtain ⟨x, hx⟩ := Option.isSome_iff_exists.mp hsome
    refine ⟨x, ?_, by rw [hu, hd]; exact hx⟩
    obtain ⟨c, -, hhead⟩ := List.mem_filterMap.mp (List.mem_of_find?_eq_some hx)
    rw [hq] at hhead
    split at hhead
    case isTrue hcls =>
      subst hcls
      rw [hempty] at hhead
      exact Option.some.inj hhead ▸ hw
    case isFalse =>
      have hlt := hold c x (List.mem_of_mem_head? hhead)
      have heq := List.find?_some hx
      simp at heq
      omega

theorem State.frontEnd_of_fetch {s s1 : State} {k : Nat} {st u : Strand} {i : Instr} (hk : s.strand k = some st) (hstop : st.stop = none)
    (hd : st.disp = none) (hw : st.want = false) (hh : st.hold = .run) (hf : s.fetchInstr k st = .ok (.inl i) s1)
    (hp : st.place i = some u) (hl : u.tooLate i = none) :
    s.frontEnd k = (s1.setStrand k (u.unwaits 6)).idled k (u.lastWait 6) := by
  simp only [State.frontEnd, hk, hstop, hd, hw, hh, hf, hp, hl]
  rfl

/-- The front end gives up the word that it has placed where that word stands first. -/
theorem State.fetchNext_of_placed {s s1 : State} {k : Nat} {st u : Strand} {i j : Instr} (hk : s.strand k = some st)
    (hstop : st.stop = none) (hd : st.disp = none) (hw : st.want = false) (hh : st.hold = .run)
    (hf : s.fetchInstr k st = .ok (.inl i) s1) (hj : j = rotIns st.base.toNat i) (hp : st.place i = some u) (hl : u.tooLate i = none)
    (hold : ∀ c, ∀ w ∈ st.queue c, w.seq < st.seq) (hfirst : consumed j = true ∨ st.queue (insCls j) = []) :
    s.fetchNext k = (some j, { ((s1.setStrand k (u.unwaits 6)).idled k (u.lastWait 6)) with cur := k }) := by
  have hi : insCls j < 6 := by
    rw [hj, insCls_rotIns]
    exact State.insCls_of_fetchInstr hf
  obtain ⟨w, rfl, hfind⟩ := find_placed hp hj hi hd hold hfirst
  have hfe := State.frontEnd_of_fetch hk hstop hd hw hh hf hp hl
  have hu : ((s1.setStrand k (u.unwaits 6)).idled k (u.lastWait 6)).strand k = some (u.unwaits 6) := by
    rw [State.strand, State.idled_strands]
    exact s1.strand_setStrand_self k _
  have hfind' : (((u.unwaits 6).disp.toList ++ [0, 1, 2, 3, 4, 5].filterMap fun c => ((u.unwaits 6).queue c).head?).find?
      fun w => w.seq == st.seq && st.seq != (u.unwaits 6).seq) = some w := hfind
  simp only [State.fetchNext, hk, hfe, hu, hfind']

/-! ### What a step performs -/

/-- A step performs what the act under its first agenda number gives. -/
theorem step_of_agenda {s : State} {n : Nat} {rest : List Nat} {a : Act} {i : Instr} {t : State} (h : s.agenda = n :: rest)
    (ha : ({ s with agenda := rest } : State).act n = some a) (hp : ({ s with agenda := rest } : State).perform a = (some i, t)) :
    Host.Core.step Sys2Proof.core s = exec i t := by
  have hc : s.chosen = (some i, t) := by simp only [State.chosen, h, ha, hp]
  rw [Host.Check.core_step, step, hc]

/-- The acts of slots stand first, kind by kind. -/
theorem State.act_of_slot (s : State) {kind k : Nat} (hk : k < 768) (hn : kind < 22) : s.act (768 * kind + k) = s.slotAct kind k := by
  have hlt : 768 * kind + k < slotKinds * slotCount := by
    rw [slotKinds, slotCount]
    omega
  have hdiv : (768 * kind + k) / slotCount = kind := by
    rw [slotCount]
    omega
  have hmod : (768 * kind + k) % slotCount = k := by
    rw [slotCount]
    omega
  rw [State.act, if_pos hlt, hdiv, hmod]

/-- The acts of the kinds 1 to 6 are the words at the heads of the engine queues. -/
theorem State.slotAct_of_head {s : State} {c k : Nat} {st : Strand} {w : QWord} {l : List QWord} (hc : c < 6)
    (hk : s.strand k = some st) (hq : st.queue c = w :: l) : s.slotAct (c + 1) k = some (.word w.ins k) := by
  interval_cases c <;> simp [State.slotAct, hk, hq]

/-- Settles O25: the front end's word is the only head with its number, a queue's head is the act of its kind, and the fetch decodes the
words that it reads. -/
theorem stepRunsTheDecodedInstruction : Obligations.StepRunsTheDecodedInstruction := by
  refine ⟨?_, ?_, ?_, ?_⟩
  · intro s k rest st i j s1 u hk ha hst hstop hd hw hh hf hj hp hl hold hfirst
    refine step_of_agenda (a := .front k) ha ?_ (State.fetchNext_of_placed (s := { s with agenda := rest }) hst hstop hd hw hh hf hj hp hl hold hfirst)
    have hact := State.act_of_slot { s with agenda := rest } (kind := 0) hk (by decide)
    rwa [Nat.mul_zero, Nat.zero_add] at hact
  · intro s k c st w l rest hk hc ha hst hq
    exact step_of_agenda ha ((State.act_of_slot _ hk (by omega)).trans (State.slotAct_of_head hc hst hq)) rfl
  · exact fun s k st b s1 i n _ hm hr hc hd => State.fetchInstr_of_word (State.fetchAt_of_read hm hr) hc hd
  · exact fun s k st b c s1 s2 i n _ hm hm' hr hr' hc hd =>
      State.fetchInstr_of_extension (State.fetchAt_of_read hm hr) hc (State.fetchAt_of_read hm' hr') hd

end Sys2Proof.Machine
end

section
/-! SUPPORT of O49, O50, O54, O55 and O57: what an access to memory leaves (R245 to R275, R320 to R331): the strands, the clock, the edges and
the ports of the package, and of each die all but its caches, its page requests, its acknowledgements and the lines of its batches. -/

namespace Sys2Proof.Machine

open Sys2Proof.Claims

/-! ### The relation -/

/-- Die `y` is die `x` but for what accesses to memory change. -/
def Die.SameBesideMemory (x y : Die) : Prop :=
  y = { x with
    batches := y.batches, acks := y.acks, nextA := y.nextA, l2 := y.l2, l1bad := y.l1bad, tlb := y.tlb, steps := y.steps, wins := y.wins,
    ats := y.ats, pri := y.pri, nextP := y.nextP }

theorem Die.SameBesideMemory.trans {x y z : Die} (h : x.SameBesideMemory y) (g : y.SameBesideMemory z) : x.SameBesideMemory z := by
  rw [Die.SameBesideMemory] at h g ⊢
  rw [h] at g
  exact g

/-- `t` is `s` but for what accesses to memory change. -/
structure State.SameBesideMemory (s t : State) : Prop where
  dies    : ∀ e, (s.die e).SameBesideMemory (t.die e)
  strands : t.strands = s.strands
  edges   : t.edges = s.edges
  time    : t.time = s.time
  epoch   : t.epoch = s.epoch
  flash   : t.flash = s.flash
  ports   : t.portsDown = s.portsDown

theorem State.sameMem_of_eq {s t : State} (hd : t.dies = s.dies) (hs : t.strands = s.strands) (he : t.edges = s.edges) (ht : t.time = s.time)
    (hc : t.epoch = s.epoch) (hf : t.flash = s.flash) (hp : t.portsDown = s.portsDown) : s.SameBesideMemory t :=
  ⟨fun e => by rw [State.die, State.die, hd]; rfl, hs, he, ht, hc, hf, hp⟩

theorem State.sameMem_refl (s : State) : s.SameBesideMemory s := State.sameMem_of_eq rfl rfl rfl rfl rfl rfl rfl

theorem State.SameBesideMemory.trans {s t u : State} (h : s.SameBesideMemory t) (g : t.SameBesideMemory u) : s.SameBesideMemory u :=
  ⟨fun e => (h.dies e).trans (g.dies e), g.strands.trans h.strands, g.edges.trans h.edges, g.time.trans h.time, g.epoch.trans h.epoch,
    g.flash.trans h.flash, g.ports.trans h.ports⟩

/-- What a state whose parts are those of `t` shares with `t`'s forerunners. -/
theorem State.SameBesideMemory.congr {s t u : State} (h : s.SameBesideMemory t) (hd : u.dies = t.dies) (hs : u.strands = t.strands)
    (he : u.edges = t.edges) (ht : u.time = t.time) (hc : u.epoch = t.epoch) (hf : u.flash = t.flash) (hp : u.portsDown = t.portsDown) :
    s.SameBesideMemory u :=
  h.trans (State.sameMem_of_eq hd hs he ht hc hf hp)

/-- A part of a die that accesses to memory do not change. -/
theorem State.SameBesideMemory.part {α : Type} {s t : State} (h : s.SameBesideMemory t) (f : Die → α) (d : Nat)
    (hf : ∀ x b a n l m c w v p q r,
      f { x with batches := b, acks := a, nextA := n, l2 := l, l1bad := m, tlb := c, steps := w, wins := v, ats := p, pri := q, nextP := r } = f x := by
      exact fun _ _ _ _ _ _ _ _ _ _ _ _ => rfl) : f (t.die d) = f (s.die d) := by
  rw [h.dies d, hf]

theorem State.sameMem_ite {s t u : State} {p : Prop} [Decidable p] (ht : s.SameBesideMemory t) (hu : s.SameBesideMemory u) :
    s.SameBesideMemory (if p then t else u) := by
  split
  · exact ht
  · exact hu

/-- A loop keeps what each of its rounds keeps. -/
theorem State.sameMem_foldl {α : Type} {f : State → α → State} (h : ∀ (s : State) a, s.SameBesideMemory (f s a)) (l : List α) (s : State) :
    s.SameBesideMemory (l.foldl f s) := by
  induction l generalizing s with
  | nil => exact s.sameMem_refl
  | cons a l ih => exact (h s a).trans (ih _)

/-- So does a part of a meaning that goes on after another. -/
theorem State.SameBesideMemory.bind {α β : Type} {s : State} {r : Res α} {f : α → State → Res β} (h : s.SameBesideMemory r.st)
    (hf : ∀ a (t : State), t.SameBesideMemory (f a t).st) : s.SameBesideMemory (r.bind f).st := by
  cases r with
  | ok a t => exact State.SameBesideMemory.trans h (hf a t)
  | flt e t => exact h
  | wait c o t => exact h

/-! ### Updates of units -/

theorem State.sameMem_onDie (s : State) (d : Nat) (f : Die → Die) (hf : ∀ x : Die, x.SameBesideMemory (f x) := by exact fun _ => rfl) :
    s.SameBesideMemory (s.onDie d f) := by
  refine ⟨fun e => ?_, rfl, rfl, rfl, rfl, rfl, rfl⟩
  by_cases h : e = d
  · rw [h, State.die_onDie_self]
    exact hf _
  · rw [State.die_onDie_ne s _ h]
    rfl

theorem State.sameMem_mapDies (s : State) (g : Nat × Die → Nat × Die) (hg : ∀ e, (g e).1 = e.1 ∧ e.2.SameBesideMemory (g e).2) :
    s.SameBesideMemory { s with dies := s.dies.map g } := by
  refine ⟨fun e => ?_, rfl, rfl, rfl, rfl, rfl, rfl⟩
  have find : ∀ t : Tab Die, (Tab.getD t e {}).SameBesideMemory (Tab.getD (t.map g) e {}) := fun t => by
    induction t with
    | nil => rfl
    | cons a l ih =>
      rw [Tab.getD, Tab.getD, Tab.find, List.map_cons, Tab.find, (hg a).1]
      by_cases h : e = a.1
      · rw [if_pos h, if_pos h]
        exact (hg a).2
      · rw [if_neg h, if_neg h]
        exact ih
  exact find s.dies

theorem State.sameMem_onTile (s : State) (t : Nat) (f : Tile → Tile) : s.SameBesideMemory (s.onTile t f) :=
  State.sameMem_of_eq rfl rfl rfl rfl rfl rfl rfl

theorem State.sameMem_poke (s : State) (l : Loc) (b : List Byte) : s.SameBesideMemory (s.poke l b) :=
  State.sameMem_of_eq rfl rfl rfl rfl rfl rfl rfl

theorem State.sameMem_keepWaits (s t : State) : s.SameBesideMemory (s.keepWaits t) :=
  (s.sameMem_mapDies (fun e => (e.1, { e.2 with pri := (t.die e.1).pri, nextP := (t.die e.1).nextP, ats := (t.die e.1).ats }))
    fun _ => ⟨rfl, rfl⟩).congr rfl rfl rfl rfl rfl rfl rfl

/-! ### Memory and caches -/

theorem State.sameMem_pick (s : State) (n : Nat) : s.SameBesideMemory (s.pick n).2 := by
  rw [State.pick]
  split <;> exact State.sameMem_of_eq rfl rfl rfl rfl rfl rfl rfl

theorem State.sameMem_pick_ite (s : State) (n m : Nat) (p : Prop) [Decidable p] : s.SameBesideMemory (if p then s.pick n else (m, s)).2 := by
  split
  · exact s.sameMem_pick n
  · exact s.sameMem_refl

theorem State.sameMem_intoL2 (s : State) (d n : Nat) (c : Line) : s.SameBesideMemory (s.intoL2 d n c) := by
  rw [State.intoL2]
  exact (s.sameMem_pick_ite _ _ _).trans (State.sameMem_onDie _ _ _)

theorem State.sameMem_keepHome (s : State) (n : Nat) : s.SameBesideMemory (s.keepHome n) := by
  rw [State.keepHome]
  exact State.sameMem_ite (s.sameMem_intoL2 _ _ _) s.sameMem_refl

theorem State.sameMem_dropL2 (s : State) (n : Nat) (l : List Nat) : s.SameBesideMemory (s.dropL2 n l) := by
  refine State.SameBesideMemory.congr (t := { s with dies := (s.dropL2 n l).dies }) (s.sameMem_mapDies _ fun e => ?_) rfl rfl rfl rfl rfl rfl rfl
  split <;> exact ⟨rfl, rfl⟩

theorem State.sameMem_storeHome (s : State) (l : Loc) (b : List Byte) : s.SameBesideMemory (s.storeHome l b) :=
  ((s.sameMem_dropL2 _ _).trans (State.sameMem_keepHome _ _)).trans (State.sameMem_poke _ _ _)

theorem State.sameMem_writeBack (s : State) (n : Nat) (c : Line) : s.SameBesideMemory (s.writeBack n c) := by
  rw [State.writeBack]
  have h : s.SameBesideMemory ((s.dropL2 n []).keepHome n) := (s.sameMem_dropL2 n []).trans (State.sameMem_keepHome _ n)
  exact State.sameMem_ite (h.congr rfl rfl rfl rfl rfl rfl rfl) s.sameMem_refl

theorem State.sameMem_writeBacks (l : Tab Line) (s : State) : s.SameBesideMemory (s.writeBacks l) := by
  induction l generalizing s with
  | nil => exact s.sameMem_refl
  | cons e l ih => exact (s.sameMem_writeBack e.1 e.2).trans (ih _)

theorem State.sameMem_evictL1 (s : State) (t n : Nat) : s.SameBesideMemory (s.evictL1 t n) := by
  rw [State.evictL1]
  split
  · exact (s.sameMem_writeBack _ _).trans (State.sameMem_onTile _ _ _)
  · exact s.sameMem_refl

theorem State.sameMem_cleanL1 (s : State) (t : Nat) (l : List Nat) : s.SameBesideMemory (s.cleanL1 t l) :=
  (State.sameMem_writeBacks ((s.tile t).l1.filter fun e => l.contains e.2.coh) s).congr rfl rfl rfl rfl rfl rfl rfl

theorem State.sameMem_flushL1 (s : State) (t : Nat) (l : List Nat) : s.SameBesideMemory (s.flushL1 t l) :=
  (s.sameMem_cleanL1 t l).trans (State.sameMem_onTile _ _ _)

theorem State.sameMem_fillL1 (s : State) (t : Nat) (l : Loc) (coh : Nat) : s.SameBesideMemory (s.fillL1 t l coh).1 := by
  rw [State.fillL1]
  split
  · exact s.sameMem_refl
  · have h := s.sameMem_pick_ite (s.tile t).l1.length (s.tile t).l1.length (l1Lines ≤ (s.tile t).l1.length)
    dsimp only
    refine State.SameBesideMemory.trans ?_ (State.sameMem_onTile _ _ _)
    split
    · exact h
    · exact h.trans (State.sameMem_evictL1 _ _ _)

theorem State.sameMem_storeLine (s : State) (d t : Nat) (fused : Bool) (l : Loc) (coh : Nat) (e : Bool) (uid : Nat) (va : Word)
    (b : List Byte) : s.SameBesideMemory (s.storeLine d t fused l coh e uid va b) := by
  rw [State.storeLine.eq_def]
  split
  · exact s.sameMem_poke _ _
  · exact s.sameMem_poke _ _
  · dsimp only
    split
    · have hp : ∀ keep, s.SameBesideMemory (((s.dropL2 l.line keep).keepHome l.line).poke l b) := fun keep =>
        ((s.sameMem_dropL2 _ _).trans (State.sameMem_keepHome _ _)).trans (State.sameMem_poke _ _ _)
      exact State.sameMem_ite (hp _) ((hp _).trans (State.sameMem_onDie _ _ _))
    · exact (s.sameMem_fillL1 _ _ _).trans (State.sameMem_onTile _ _ _)

theorem State.sameMem_heard (s : State) (uid : Nat) (l : Loc) (src : Option Nat) : s.SameBesideMemory (s.heard uid l src) := by
  rw [State.heard]
  exact State.sameMem_ite s.sameMem_refl (s.sameMem_mapDies _ fun _ => ⟨rfl, rfl⟩)

theorem State.sameMem_noteLine (s : State) (w : Who) (l : Loc) (coh : Nat) : s.SameBesideMemory (s.noteLine w l coh) := by
  rw [State.noteLine]
  refine State.sameMem_ite s.sameMem_refl ?_
  split
  · exact s.sameMem_refl
  · exact s.sameMem_mapDies _ fun _ => ⟨rfl, rfl⟩

theorem State.sameMem_toHome (s : State) (w : Who) (l : Loc) (coh : Nat) : s.SameBesideMemory (s.toHome w l coh) := by
  rw [State.toHome]
  refine State.sameMem_ite s.sameMem_refl (State.sameMem_ite ?_ ?_)
  · exact State.sameMem_ite s.sameMem_refl (s.sameMem_onDie _ _)
  · exact State.sameMem_ite s.sameMem_refl (s.sameMem_evictL1 _ _)

/-! ### Translation -/

theorem State.sameMem_atsPut (s : State) (pd pasid page perm hp : Nat) : s.SameBesideMemory (s.atsPut pd pasid page perm hp) := by
  rw [State.atsPut]
  exact (s.sameMem_pick_ite _ _ _).trans (State.sameMem_onDie _ _ _)

theorem State.sameMem_hostAt (s : State) (port pasid page : Nat) : s.SameBesideMemory (s.hostAt port pasid page).2 := by
  rw [State.hostAt]
  refine (s.sameMem_pick 2).trans ?_
  dsimp only
  exact State.sameMem_ite (State.sameMem_refl _) (State.sameMem_of_eq rfl rfl rfl rfl rfl rfl rfl)

theorem State.sameMem_priDone (s : State) (w : Who) (page : Nat) : s.SameBesideMemory (s.priDone w page) := by
  rw [State.priDone]
  exact State.sameMem_ite (s.sameMem_onDie _ _) s.sameMem_refl

theorem State.sameMem_choice (s : State) (n : Nat) : s.SameBesideMemory { s with choice := n } := State.sameMem_of_eq rfl rfl rfl rfl rfl rfl rfl

theorem State.sameMem_hostXlate (s : State) (w : Who) (k : Kind) (va : Nat) (pte : Word) (lv port a : Nat) (c0 c1 c2 : Word) :
    s.SameBesideMemory (s.hostXlate w k va pte lv port a c0 c1 c2).st := by
  have same := s.sameMem_refl
  rw [State.hostXlate.eq_def]
  extract_lets pasid page pd left loc need has pend hit perm t
  have hits : ∀ u p, s.SameBesideMemory u → s.SameBesideMemory (hit u p).st := fun u p h =>
    (h.trans (u.sameMem_hostAt port pasid page)).trans (State.sameMem_atsPut _ _ _ _ _ _)
  have chosen : s.SameBesideMemory t := s.sameMem_choice _
  split
  · exact same
  split
  · exact same
  split
  · exact same
  split
  · exact (s.sameMem_hostAt _ _ _).trans (State.sameMem_priDone _ _ _)
  split
  · exact s.sameMem_priDone _ _
  clear_value pend
  split
  · extract_lets u v
    have gone : s.SameBesideMemory u := s.sameMem_onDie _ _
    split
    · exact same
    · have moved : s.SameBesideMemory v := gone.trans (u.sameMem_choice _)
      split
      · exact hits _ _ moved
      · exact moved
    · exact gone
    · exact gone
    · exact gone
    · exact gone
  · split
    · exact hits _ _ chosen
    · split
      · exact chosen
      · refine chosen.trans ?_
        rw [Res.st]
        exact t.sameMem_onDie _ _

theorem State.sameMem_peerXlate (s : State) (w : Who) (k : Kind) (va : Nat) (pte : Word) (lv i o : Nat) :
    s.SameBesideMemory (s.peerXlate w k va pte lv i o).st := by
  have same := s.sameMem_refl
  rw [State.peerXlate.eq_def]
  dsimp only
  split
  · exact same
  split
  · exact same
  split
  · exact same
  split
  · split
    · exact same
    · exact same
    · split <;> exact s.sameMem_pick 2
  split
  · exact same
  split
  · exact same
  split
  · exact same
  split
  · exact State.sameMem_ite same (s.sameMem_onDie _ _)
  · exact same

theorem State.sameMem_stepPut (s : State) (d : Nat) (x : WalkStep) : s.SameBesideMemory (s.stepPut d x) := by
  rw [State.stepPut]
  exact State.sameMem_ite s.sameMem_refl ((s.sameMem_pick_ite _ _ _).trans (State.sameMem_onDie _ _ _))

theorem State.sameMem_stepPick (s : State) (d ctx va lv : Nat) (e : Word) : s.SameBesideMemory (s.stepPick d ctx va lv e).2 := by
  rw [State.stepPick]
  dsimp only
  split
  · exact s.sameMem_refl
  · split <;> exact s.sameMem_pick _

theorem State.sameMem_walk (w : Who) (k : Kind) (port va : Nat) (c0 c1 c2 up : Word) (lvs : List Nat) (s : State) (pa : Nat) :
    s.SameBesideMemory (s.walk w k port va c0 c1 c2 up lvs pa).st := by
  induction lvs generalizing s up pa with
  | nil => exact s.sameMem_refl
  | cons lv rest ih =>
    rw [State.walk]
    refine State.SameBesideMemory.bind ?_ fun l t => ?_
    · split
      · exact s.sameMem_refl
      · exact (s.sameMem_hostXlate _ _ _ _ _ _ _ _ _ _).bind fun _ t => t.sameMem_refl
      · exact s.sameMem_refl
    · have picked := t.sameMem_stepPick w.die w.ctx va lv (t.peekWord l)
      dsimp only
      split
      · exact t.sameMem_refl
      split
      · exact picked
      split
      · exact picked
      · exact (picked.trans (State.sameMem_stepPut _ _ _)).trans (ih _ _ _)

theorem State.sameMem_tlbPut (s : State) (d own : Nat) (t : Tlb) : s.SameBesideMemory (s.tlbPut d own t) := by
  rw [State.tlbPut]
  exact State.sameMem_ite ((s.sameMem_pick_ite _ _ _).trans (State.sameMem_onDie _ _ _)) (s.sameMem_onDie _ _)

theorem State.sameMem_ahead (s : State) (w : Who) (k : Kind) (own port : Nat) (c0 c1 c2 : Word) (t : Tlb) :
    s.SameBesideMemory (s.ahead w k own port c0 c1 c2 t) := by
  have walked := fun va => s.sameMem_walk w k port va c0 c1 c2 0 [4, 3, 2, 1, 0] (bits c0 12 40 * 4096)
  rw [State.ahead.eq_def]
  extract_lets va
  split
  · exact s.sameMem_refl
  split
  · exact s.sameMem_refl
  split
  · next l t eq =>
    have h := walked va
    rw [eq] at h
    exact State.SameBesideMemory.trans h (State.sameMem_onDie _ _ _)
  · exact s.sameMem_refl

theorem State.sameMem_ite_snd {α : Type} {s t u : State} {a b : α} {p : Prop} [Decidable p] (ht : s.SameBesideMemory t) (hu : s.SameBesideMemory u) :
    s.SameBesideMemory (if p then (a, t) else (b, u)).2 := by
  split
  · exact ht
  · exact hu

theorem State.sameMem_leafFor (s : State) (w : Who) (k : Kind) (port va : Nat) (c0 c1 c2 : Word) :
    s.SameBesideMemory (s.leafFor w k port va c0 c1 c2).st := by
  rw [State.leafFor.eq_def]
  extract_lets own mine wk fresh old upd
  split
  next j s1 hj =>
  have opened : s.SameBesideMemory s1 := by
    have h : s.SameBesideMemory (if old.isEmpty then (0, s) else s.pick (old.length + 1)).2 := by
      split
      · exact s.sameMem_refl
      · exact s.sameMem_pick _
    rwa [hj] at h
  clear_value fresh
  have updated : ∀ t x, State.SameBesideMemory t (upd t x).2 := by
    intro t x
    exact State.sameMem_ite_snd t.sameMem_refl (t.sameMem_storeHome _ _)
  extract_lets hit
  clear_value hit own upd
  split
  · next t =>
    have marked : s.SameBesideMemory ((upd s1 t).2.tlbMark w.die t (upd s1 t).1.pte) :=
      (opened.trans (updated s1 t)).trans (State.sameMem_onDie _ _ _)
    dsimp only
    split
    · split
      · exact marked
      · exact (marked.trans (State.sameMem_tlbPut _ _ _ _)).trans (State.sameMem_ahead _ _ _ _ _ _ _ _ _)
    · exact marked
  · refine State.SameBesideMemory.bind ?_ fun l u => ?_
    · split
      · exact s.sameMem_walk _ _ _ _ _ _ _ _ _ _
      · exact opened.trans (s1.sameMem_walk _ _ _ _ _ _ _ _ _ _)
    · dsimp only
      split
      · exact updated u _
      split
      · have put : ∀ x n, u.SameBesideMemory ((upd u x).2.tlbPut w.die n (upd u x).1) := fun x n =>
          (updated u x).trans (State.sameMem_tlbPut _ w.die n _)
        exact State.sameMem_ite (put _ _) ((put _ _).trans (State.sameMem_ahead _ _ _ _ _ _ _ _ _))
      · exact updated u _

theorem State.sameMem_of_ctxLost {s : State} {d c : Nat} {f : Kind → Nat → Res (Loc × Nat × Nat)} (h : s.ctxLost d c = some f)
    (k : Kind) (va : Nat) : s.SameBesideMemory (f k va).st := by
  rw [State.ctxLost.eq_def] at h
  split at h
  · extract_lets pd at h
    split at h
    · cases h
      exact s.sameMem_refl
    split at h
    · cases h
      exact s.sameMem_refl
    split at h
    · cases h
      exact s.sameMem_refl
    · nomatch h
  · nomatch h

theorem State.sameMem_translate (s : State) (w : Who) (k : Kind) (va : Nat) : s.SameBesideMemory (s.translate w k va).st := by
  rw [State.translate.eq_def]
  split
  · next h => exact State.sameMem_of_ctxLost h k va
  · exact s.sameMem_refl
  · refine (s.sameMem_leafFor _ _ _ _ _ _ _).bind fun (t, hit) u => ?_
    dsimp only
    split
    · exact u.sameMem_refl
    split
    · exact u.sameMem_refl
    split
    · exact (u.sameMem_hostXlate _ _ _ _ _ _ _ _ _ _).bind fun _ v => v.sameMem_refl
    · exact (u.sameMem_peerXlate _ _ _ _ _ _ _).bind fun _ v => v.sameMem_refl

theorem State.sameMem_locate (s : State) (w : Who) (k : Kind) (va n : Nat) : s.SameBesideMemory (s.locate w k va n).st := by
  rw [State.locate]
  split
  · exact s.sameMem_refl
  split
  · exact s.sameMem_refl
  · split <;> exact s.sameMem_refl
  · split <;> exact s.sameMem_refl
  · exact s.sameMem_translate w k va

theorem State.sameMem_writePieces (w : Who) (k : Kind) (e : Bool) (fuel : Nat) (s : State) (va : Nat) (b : List Byte) (done : Nat) :
    s.SameBesideMemory (s.writePieces w k e va fuel b done).1 := by
  induction fuel generalizing s va b done with
  | zero => exact s.sameMem_refl
  | succ fuel ih =>
    have located := s.sameMem_locate w k va (min b.length (128 - va % 128))
    rw [State.writePieces]
    split
    · exact s.sameMem_refl
    split
    · next eq => rwa [eq] at located
    · next eq => rwa [eq] at located
    · next eq =>
      rw [eq] at located
      exact (((located.trans (State.sameMem_toHome _ _ _ _)).trans (State.sameMem_storeLine _ _ _ _ _ _ _ _ _ _)).trans
        (State.sameMem_noteLine _ _ _ _)).trans (ih _ _ _ _)

theorem State.sameMem_writeVa (s : State) (w : Who) (k : Kind) (va : Nat) (b : List Byte) (e : Bool) :
    s.SameBesideMemory (s.writeVa w k va b e).st := by
  have h := State.sameMem_writePieces w k e (b.length / 128 + 2) s va b 0
  rw [State.writeVa]
  split <;> next eq => rwa [eq] at h

theorem State.sameMem_rmw (s : State) (w : Who) (va : Word) (n : Nat) (e : Bool) (f : Nat → Nat) :
    s.SameBesideMemory (s.rmw w va n e f).st := by
  refine (s.sameMem_locate _ _ _ _).bind fun (l, coh, _) t => ?_
  have homed := t.sameMem_toHome { w with home := !w.raw } l coh
  dsimp only
  rw [apply_ite Res.st]
  refine State.sameMem_ite homed ?_
  split
  · exact homed
  · exact (homed.trans (State.sameMem_heard _ _ _ _)).trans (State.sameMem_storeLine _ _ _ _ _ _ _ _ _ _)

/-! ### Words that the command processor writes -/

theorem State.sameMem_bumpWord (s : State) (w : Who) (va : Nat) : s.SameBesideMemory (s.bumpWord w va).st := by
  rw [State.bumpWord]
  split
  · exact s.sameMem_refl
  · exact (s.sameMem_rmw _ _ _ _ _).bind fun _ t => t.sameMem_refl

theorem State.sameMem_statusOut (s : State) (d q idx : Nat) (ws : List Word) (status : Nat) :
    s.SameBesideMemory (s.statusOut d q idx ws status).st := by
  refine (s.sameMem_writeVa _ _ _ _ _).bind fun _ t => ?_
  have bumped := t.sameMem_bumpWord (cpWho d (s.qctx d q)) (ws.getD 7 0).toNat
  split
  · split
    · next eq => rwa [eq] at bumped
    · exact bumped
  · exact t.sameMem_refl

end Sys2Proof.Machine
end

section
/-! SUPPORT of O54, O55 and O57: what the end of launches, the stop of strands and the reset of a die leave of the package: its clock, its
count of lost edges, its flash, its host ports, and of its edges all but what a die reset clears (R332, R367, R384, R402, R435). -/

namespace Sys2Proof.Machine

open Sys2Proof.Claims

/-! ### The relation -/

/-- The clock, edge count, flash and host ports of `t` are those of `s`, and so are its edges but for the fields that a die reset clears. -/
structure State.SameSite (s t : State) : Prop where
  edges : ∀ e, (t.edge e).cleared = (s.edge e).cleared
  time  : t.time = s.time
  epoch : t.epoch = s.epoch
  flash : t.flash = s.flash
  ports : t.portsDown = s.portsDown

theorem State.sameSite_of_eq {s t : State} (he : t.edges = s.edges) (ht : t.time = s.time) (hc : t.epoch = s.epoch)
    (hf : t.flash = s.flash) (hp : t.portsDown = s.portsDown) : s.SameSite t :=
  ⟨fun e => by rw [State.edge, he, State.edge], ht, hc, hf, hp⟩

theorem State.sameSite_refl (s : State) : s.SameSite s := State.sameSite_of_eq rfl rfl rfl rfl rfl

theorem State.SameSite.trans {s t u : State} (h : s.SameSite t) (g : t.SameSite u) : s.SameSite u :=
  ⟨fun e => (g.edges e).trans (h.edges e), g.time.trans h.time, g.epoch.trans h.epoch, g.flash.trans h.flash, g.ports.trans h.ports⟩

/-- What a state whose five parts are those of `t` shares with `t`'s forerunners. -/
theorem State.SameSite.congr {s t u : State} (h : s.SameSite t) (he : u.edges = t.edges) (ht : u.time = t.time) (hc : u.epoch = t.epoch)
    (hf : u.flash = t.flash) (hp : u.portsDown = t.portsDown) : s.SameSite u :=
  h.trans (State.sameSite_of_eq he ht hc hf hp)

theorem State.sameSite_ite {s t u : State} {p : Prop} [Decidable p] (ht : s.SameSite t) (hu : s.SameSite u) :
    s.SameSite (if p then t else u) := by
  split
  · exact ht
  · exact hu

/-- A loop keeps what each of its rounds keeps. -/
theorem State.sameSite_foldl {α : Type} {f : State → α → State} (h : ∀ (s : State) a, s.SameSite (f s a)) (l : List α) (s : State) :
    s.SameSite (l.foldl f s) := by
  induction l generalizing s with
  | nil => exact s.sameSite_refl
  | cons a l ih => exact (h s a).trans (ih _)

/-- So does a part of a meaning that goes on after another. -/
theorem State.SameSite.bind {α β : Type} {s : State} {r : Res α} {f : α → State → Res β} (h : s.SameSite r.st)
    (hf : ∀ a (t : State), t.SameSite (f a t).st) : s.SameSite (r.bind f).st := by
  cases r with
  | ok a t => exact State.SameSite.trans h (hf a t)
  | flt e t => exact h
  | wait c o t => exact h

/-! ### Updates of units -/

theorem State.sameSite_onDie (s : State) (d : Nat) (f : Die → Die) : s.SameSite (s.onDie d f) := State.sameSite_of_eq rfl rfl rfl rfl rfl

theorem State.sameSite_onTile (s : State) (t : Nat) (f : Tile → Tile) : s.SameSite (s.onTile t f) := State.sameSite_of_eq rfl rfl rfl rfl rfl

theorem State.sameSite_setStrand (s : State) (k : Nat) (x : Strand) : s.SameSite (s.setStrand k x) := State.sameSite_of_eq rfl rfl rfl rfl rfl

theorem State.sameSite_poke (s : State) (l : Loc) (b : List Byte) : s.SameSite (s.poke l b) := State.sameSite_of_eq rfl rfl rfl rfl rfl

theorem State.sameSite_dieTiles (s : State) (d : Nat) (f : Tile → Tile) : s.SameSite (s.dieTiles d f) := State.sameSite_of_eq rfl rfl rfl rfl rfl

theorem State.sameSite_onLaunch (s : State) (d no : Nat) (f : Launch → Launch) : s.SameSite (s.onLaunch d no f) := by
  rw [State.onLaunch]
  split
  · exact s.sameSite_refl
  · exact s.sameSite_onDie d _

theorem State.sameSite_onQslot (s : State) (d c : Nat) (f : QSlot → QSlot) : s.SameSite (s.onQslot d c f) := by
  rw [State.onQslot]
  split
  · exact s.sameSite_refl
  · exact s.sameSite_onDie d _

theorem State.sameSite_keepWaits (s t : State) : s.SameSite (s.keepWaits t) := State.sameSite_of_eq rfl rfl rfl rfl rfl

theorem State.SameUnits.sameSite {s t : State} (h : s.SameUnits t) (hc : t.epoch = s.epoch) : s.SameSite t :=
  State.sameSite_of_eq h.edges h.time hc h.flash h.ports

/-! ### Memory and caches -/

theorem State.SameBesideMemory.sameSite {s t : State} (h : s.SameBesideMemory t) : s.SameSite t :=
  State.sameSite_of_eq h.edges h.time h.epoch h.flash h.ports

/-! ### Records, launches and strands -/

theorem State.sameSite_retireRec (s : State) (d c idx status : Nat) : s.SameSite (s.retireRec d c idx status) := by
  rw [State.retireRec.eq_def]
  split
  · exact s.sameSite_refl
  split
  · exact s.sameSite_refl
  · next q _ _ r _ =>
    extract_lets st gone
    have told := (s.sameMem_statusOut d q.q idx r.words st).sameSite
    have left : ∀ t bad, s.SameSite t → s.SameSite (gone t bad) := fun t bad h => h.congr rfl rfl rfl rfl rfl
    split
    · next eq => rw [eq] at told; exact left _ _ told
    · next eq => rw [eq] at told; exact left _ _ told
    · exact (s.sameSite_keepWaits _).trans (State.sameSite_onDie _ _ _)

theorem State.sameSite_freeBars (s : State) (d no : Nat) : s.SameSite (s.freeBars d no) := State.sameSite_of_eq rfl rfl rfl rfl rfl

theorem State.sameSite_closeLaunch (s : State) (d no status : Nat) : s.SameSite (s.closeLaunch d no status) := by
  rw [State.closeLaunch.eq_def]
  split
  · exact s.sameSite_refl
  · extract_lets flushed freed gone
    have h : s.SameSite gone := by
      refine State.SameSite.trans ?_ (State.sameSite_onDie _ _ _)
      refine State.SameSite.trans ?_ (State.sameSite_freeBars _ _ _)
      exact State.sameSite_ite (State.sameSite_foldl (fun t u => (t.sameMem_flushL1 u _).sameSite) _ s) s.sameSite_refl
    split
    · exact (h.trans (State.sameSite_onDie _ _ _)).trans (State.sameSite_retireRec _ _ _ _ _)
    · exact h

theorem State.sameSite_endChain (s : State) (t : Nat) : s.SameSite (s.endChain t) := by
  rw [State.endChain]
  split
  · exact s.sameSite_refl
  · exact State.sameSite_foldl (fun s u => s.sameSite_onTile u _) _ s

theorem State.sameSite_idled (s : State) (k : Nat) (b : Bool) : s.SameSite (s.idled k b) := by
  rw [State.idled]
  exact State.sameSite_ite (State.sameSite_of_eq rfl rfl rfl rfl rfl) s.sameSite_refl

theorem State.sameSite_vacate (s : State) (k : Nat) : s.SameSite (s.vacate k) := by
  rw [State.vacate.eq_def]
  extract_lets idled ended tiles no
  have h : s.SameSite ended := (s.sameSite_idled _ _).trans (State.sameSite_ite (State.sameSite_endChain _ _) (State.sameSite_refl _))
  exact h.congr rfl rfl rfl rfl rfl

theorem State.sameSite_releaseLaunch (s : State) (l : Launch) : s.SameSite (s.releaseLaunch l) :=
  State.sameSite_foldl (fun t u => (t.sameMem_cleanL1 u _).sameSite) _ s

theorem State.sameSite_drainEnd (s : State) (d no : Nat) : s.SameSite (s.drainEnd d no) := by
  rw [State.drainEnd.eq_def]
  split
  · exact s.sameSite_refl
  split
  · exact s.sameSite_refl
  · extract_lets gone t busy acks wait
    have h : s.SameSite t := State.sameSite_foldl (fun u (e : Nat × Strand) => u.sameSite_vacate e.1) _ s
    split
    · exact (h.trans (State.sameSite_ite (State.sameSite_refl _) (t.sameSite_releaseLaunch _))).trans (State.sameSite_closeLaunch _ _ _ _)
    · exact h

theorem State.sameSite_stopLaunch (s : State) (d no status : Nat) : s.SameSite (s.stopLaunch d no status) := by
  rw [State.stopLaunch.eq_def]
  extract_lets mark f own t u
  have h : s.SameSite t := State.sameSite_of_eq rfl rfl rfl rfl rfl
  exact (h.trans (t.sameSite_onLaunch _ _ _)).trans (State.sameSite_drainEnd _ _ _)

theorem State.sameSite_stopLaunches (status : Nat) (l : List (Nat × Nat)) (s : State) : s.SameSite (s.stopLaunches status l) := by
  induction l generalizing s with
  | nil => exact s.sameSite_refl
  | cons p l ih => exact (s.sameSite_stopLaunch p.1 p.2 status).trans (ih _)

theorem State.sameSite_stopSpan (s : State) (d no status : Nat) : s.SameSite (s.stopSpan d no status) := by
  rw [State.stopSpan.eq_def]
  split
  · exact s.sameSite_refl
  · extract_lets late t
    have h : s.SameSite t := State.sameSite_foldl (fun u e => u.sameSite_onDie e _) _ s
    exact h.trans (State.sameSite_stopLaunches _ _ t)

theorem State.sameSite_setField (s : State) (d off lo len v : Nat) : s.SameSite (s.setField d off lo len v) :=
  State.sameSite_of_eq rfl rfl rfl rfl rfl

theorem State.sameSite_hostRecord (s : State) (d : Nat) (ws : List Word) : s.SameSite (s.hostRecord d ws).1 := by
  rw [State.hostRecord.eq_def]
  extract_lets ctl ptr n tail used pa port loc w0 dropped
  split
  · dsimp only
    exact ((s.sameMem_storeHome _ _).sameSite.trans (State.sameSite_setField _ _ _ _ _ _)).trans (State.sameSite_onDie _ _ _)
  · exact State.sameSite_of_eq rfl rfl rfl rfl rfl

theorem State.sameSite_hostFault (s : State) (d : Nat) (f : Flt) (tag : Nat) (oprec : Word) : s.SameSite (s.hostFault d f tag oprec) :=
  s.sameSite_hostRecord d _

theorem State.sameSite_endLaunch (s : State) (d no code : Nat) (orig : Option (List Word)) : s.SameSite (s.endLaunch d no code orig) := by
  rw [State.endLaunch.eq_def]
  split
  · exact s.sameSite_refl
  split
  · exact s.sameSite_refl
  · split
    next t pa eq =>
    have h : s.SameSite t := by
      split at eq
      · obtain ⟨rfl, -⟩ := Prod.mk.inj eq
        exact s.sameSite_hostRecord _ _
      · obtain ⟨rfl, -⟩ := Prod.mk.inj eq
        exact s.sameSite_refl
    extract_lets lost told recorded status
    have g : s.SameSite recorded := by
      refine State.sameSite_ite h ?_
      refine State.SameSite.trans ?_ (State.sameSite_hostRecord _ _ _)
      exact State.sameSite_ite (h.trans (State.sameSite_onDie _ _ _)) h
    exact g.trans (State.sameSite_stopSpan _ _ _ _)

theorem State.sameSite_abortLaunch (s : State) (d no : Nat) (f : Flt) : s.SameSite (s.abortLaunch d no f) := by
  rw [State.abortLaunch]
  split
  · exact s.sameSite_refl
  split
  · exact s.sameSite_refl
  · refine State.SameSite.trans (State.sameSite_foldl (fun t p => ?_) _ s) (State.sameSite_stopSpan _ _ _ _)
    split
    · exact t.sameSite_hostFault _ _ _ _
    · exact t.sameSite_refl

/-! ### Stops and saves -/

theorem State.sameSite_writeRecord (s : State) (k : Nat) (st : Strand) (full : Bool) (pc : Word) : s.SameSite (s.writeRecord k st full pc).st :=
  (s.sameMem_writeVa _ _ _ _ _).sameSite

theorem State.sameSite_markVa (s : State) (w : Who) (va n : Nat) : s.SameSite (s.markVa w va n).st :=
  (s.sameMem_locate _ _ _ _).sameSite.bind fun _ _ => State.sameSite_of_eq rfl rfl rfl rfl rfl

theorem State.sameSite_markAll (w : Who) (l : List (Nat × Nat)) (s : State) : s.SameSite (s.markAll w l).st := by
  induction l generalizing s with
  | nil => exact s.sameSite_refl
  | cons a l ih => exact (s.sameSite_markVa w a.1 a.2).bind fun _ t => ih t

theorem State.sameSite_saveContext (s : State) (k : Nat) (st : Strand) (sp : Stop) : s.SameSite (s.saveContext k st sp).st := by
  rw [State.saveContext]
  split
  · exact s.sameSite_refl
  · exact (s.sameMem_writeVa _ _ _ _ _).sameSite.bind fun _ t => (t.sameMem_writeVa _ _ _ _ _).sameSite.bind fun _ u =>
      (u.sameSite_markAll _ _).bind fun _ v => v.sameSite_writeRecord _ _ _ _

theorem State.sameSite_deliver (s : State) (d no : Nat) (ws : List Word) (e : Option Entry) : s.SameSite (s.deliver d no ws e).st := by
  rw [State.deliver]
  split
  · exact s.sameSite_refl
  split
  · exact s.sameSite_endLaunch d no 3 (some ws)
  · next l _ _ =>
    have h := (s.sameMem_writeVa (cpWho d l.ctx) kStore ((l.word 5).toNat + 64 * (l.hseq % 32)) (wordBytes ws) false).sameSite
    split
    · next eq =>
      rw [eq] at h
      exact (h.trans (State.sameSite_ite (State.sameSite_hostRecord _ _ _) (State.sameSite_refl _))).trans (State.sameSite_onLaunch _ _ _ _)
    · next eq =>
      rw [eq] at h
      exact State.SameSite.trans h (State.sameSite_endLaunch _ d no 5 (some ws))
    · next eq =>
      rw [eq] at h
      exact h

theorem State.sameSite_displace (s : State) (d : Nat) (f : Nat → Strand → Bool) : s.SameSite (s.displace d f) := by
  rw [State.displace]
  exact s.sameSite_onDie d _

theorem State.sameSite_makeReady (s : State) (d : Nat) (e : Entry) : s.SameSite (s.makeReady d e) := by
  rw [State.makeReady]
  have h : s.SameSite (s.onStage d e.id.launch e.id.stage fun g => { g with ready := g.ready ++ [e] }) := s.sameSite_onLaunch _ _ _
  exact State.sameSite_ite (h.trans (State.sameSite_displace _ _ _)) h

theorem State.sameSite_tidy (s : State) (k : Nat) (i : Ident) : s.SameSite (s.tidy k i) := by
  rw [State.tidy]
  exact State.sameSite_ite s.sameSite_refl (State.sameSite_foldl (fun t u => (t.sameMem_cleanL1 u _).sameSite) _ s)

theorem State.sameSite_unland (s : State) (k : Nat) (st : Strand) (f : Fresh) : s.SameSite (s.unland k st f).1 := by
  rw [State.unland.eq_def]
  extract_lets back
  split
  case h_5 => exact s.sameSite_poke _ _
  all_goals exact s.sameSite_refl

theorem State.sameSite_atRest (s : State) (k : Nat) (st : Strand) : s.SameSite (s.atRest k st).1 := by
  rw [State.atRest.eq_def]
  have h : ∀ (l : List Fresh) (x : State × Strand), x.1.SameSite (l.foldr (fun f (x : State × Strand) => x.1.unland k x.2 f) x).1 := by
    intro l x
    induction l with
    | nil => exact x.1.sameSite_refl
    | cons f l ih => exact ih.trans (State.sameSite_unland _ _ _ _)
  exact h st.fresh (s, { st with fresh := [] })

theorem State.sameSite_finishStop (s : State) (k : Nat) (st : Strand) (sp : Stop) : s.SameSite (s.finishStop k st sp) := by
  rw [State.finishStop.eq_def]
  extract_lets d no
  split
  · exact s.sameSite_drainEnd _ _
  split
  next t x eq =>
  have rested : s.SameSite t := by simpa only [eq] using s.sameSite_atRest k st
  extract_lets u hasH l site bare
  have tidied : s.SameSite u := rested.trans (t.sameSite_tidy _ _)
  have saved := u.sameSite_saveContext k x sp
  split
  · split
    · next eq =>
      rw [eq] at saved
      exact tidied.trans (saved.trans ((State.sameSite_vacate _ _).trans (State.sameSite_makeReady _ _ _)))
    · next eq =>
      rw [eq] at saved
      exact tidied.trans (State.SameSite.trans saved (State.sameSite_endLaunch _ _ _ _ _))
    · exact tidied.trans (State.sameSite_keepWaits _ _)
  split
  · exact tidied.trans (State.sameSite_endLaunch _ _ _ _ _)
  split
  · exact tidied.trans (State.sameSite_endLaunch _ _ _ _ _)
  split
  · exact tidied.trans (State.sameSite_endLaunch _ _ _ _ _)
  split
  · next v eq =>
    rw [eq] at saved
    split
    · exact tidied.trans (State.sameSite_keepWaits _ _)
    · exact tidied.trans (State.SameSite.trans saved ((State.sameSite_vacate _ _).trans (State.sameSite_deliver _ _ _ _ _)))
  · next eq =>
    rw [eq] at saved
    exact tidied.trans (State.SameSite.trans saved (State.sameSite_endLaunch _ _ _ _ _))
  · exact tidied.trans (State.sameSite_keepWaits _ _)

theorem State.sameSite_settle (s : State) (k : Nat) : s.SameSite (s.settle k) := by
  rw [State.settle]
  split
  · exact s.sameSite_refl
  split
  · exact s.sameSite_refl
  · exact State.sameSite_ite s.sameSite_refl (State.sameSite_ite (s.sameSite_finishStop _ _ _) s.sameSite_refl)

theorem State.sameSite_settleAll (s : State) (d : Nat) : s.SameSite (s.settleAll d) :=
  State.sameSite_foldl (fun t (e : Nat × Strand) => t.sameSite_settle e.1) _ s

theorem State.sameSite_priSet (s : State) (d : Nat) (f : Pri → Bool) (a : Nat) : s.SameSite (s.priSet d f a) :=
  (s.sameSite_onDie d _).trans (State.sameSite_settleAll _ _)

/-! ### Queues that break, dies that are reset, ports that are lost -/

theorem State.sameSite_breakQueue (s : State) (d c : Nat) : s.SameSite (s.breakQueue d c) := by
  rw [State.breakQueue.eq_def]
  split
  · exact s.sameSite_refl
  split
  · exact s.sameSite_refl
  · refine State.SameSite.trans (State.SameSite.trans ?_ (State.sameSite_foldl ?_ _ _)) (State.sameSite_hostFault _ _ _ _ _)
    · exact State.sameSite_of_eq rfl rfl rfl rfl rfl
    · intro t r
      dsimp only
      split
      · exact t.sameSite_stopSpan _ _ _
      · exact State.sameSite_ite t.sameSite_refl (t.sameSite_retireRec _ _ _ _)

theorem State.sameSite_breakAny (s : State) (d q : Nat) : s.SameSite (s.breakAny d q) := by
  rw [State.breakAny]
  split
  · exact s.sameSite_breakQueue _ _
  · exact ((s.sameSite_onDie _ _).trans (State.sameSite_onDie _ _ _)).trans (State.sameSite_hostFault _ _ _ _ _)

theorem State.sameSite_breakRings (s : State) (d : Nat) : s.SameSite (s.breakRings d) :=
  State.sameSite_foldl (fun t _ => State.sameSite_ite (t.sameSite_breakAny _ _) t.sameSite_refl) _ s

theorem State.sameSite_loseDirty (s : State) (l : Tab Line) : s.SameSite (s.loseDirty l) := by
  rw [State.loseDirty_eq]
  exact State.sameSite_of_eq rfl rfl rfl rfl rfl

theorem State.sameSite_cutLines (s : State) (d : Nat) : s.SameSite (s.cutLines d) := by
  rw [State.cutLines]
  exact (s.sameSite_loseDirty _).trans ((State.sameSite_dieTiles _ _ _).trans (State.sameSite_onDie _ _ _))

theorem State.sameSite_dropHost (s : State) (p : Nat) : s.SameSite (s.dropHost p) := by
  rw [State.dropHost.eq_def]
  extract_lets dirty home clean
  have hdirty : s.SameSite dirty := State.sameSite_foldl (fun t _ => t.sameSite_loseDirty _) _ s
  have hclean : home.SameSite clean := State.sameSite_foldl (fun t d => t.sameSite_dieTiles d _) _ home
  have hhome : dirty.SameSite home := dirty.sameSite_loseDirty _
  have h : s.SameSite clean := (hdirty.trans hhome).trans hclean
  clear_value clean
  exact h.congr rfl rfl rfl rfl rfl

theorem State.sameSite_linkRecord (s : State) (e code : Nat) (old : Edge) (ds : List Nat) : s.SameSite (s.linkRecord e code old ds) :=
  State.sameSite_foldl (fun t d => State.sameSite_ite (t.sameSite_hostFault d _ _ _) t.sameSite_refl) ds s

theorem Edge.cleared_cleared (x : Edge) : x.cleared.cleared = x.cleared := rfl

theorem State.sameSite_wipe (s : State) (d st : Nat) : s.SameSite (s.wipe d st) where
  edges e := by
    rw [State.wipe_edge]
    split
    · exact (s.edge e).cleared_cleared
    · rfl
  time := by simp [State.wipe, State.loseDirty_eq, State.foldl_onEdge_cleared]
  epoch := by simp [State.wipe, State.loseDirty_eq, State.foldl_onEdge_cleared]
  flash := s.wipe_flash d st
  ports := by simp [State.wipe, State.loseDirty_eq, State.foldl_onEdge_cleared]

theorem State.sameSite_resetMore (s : State) (d : Nat) : s.SameSite (s.resetMore d) := by
  rw [State.resetMore.eq_def]
  split
  · exact s.sameSite_refl
  split
  · extract_lets t u
    have h : s.SameSite t := State.sameSite_of_eq rfl rfl rfl rfl rfl
    have g : t.SameSite u := State.sameSite_foldl (fun v (e : Nat × Launch) => v.sameSite_closeLaunch d e.1 4) _ t
    exact (h.trans g).trans (u.sameSite_wipe _ _)
  · exact s.sameSite_refl

theorem State.sameSite_startReset (s : State) (d st : Nat) (f : Flt) : s.SameSite (s.startReset d st f) := by
  rw [State.startReset.eq_def]
  split
  · exact s.sameSite_refl
  · extract_lets quiet aborted
    have h : quiet.SameSite aborted := State.sameSite_foldl (fun t (p : Nat × Nat) => t.sameSite_abortLaunch p.1 p.2 f) _ quiet
    exact (((s.sameSite_onDie _ _).trans h).trans (aborted.sameSite_onDie _ _)).trans (State.sameSite_resetMore _ _)

theorem State.sameSite_cutPackage (s : State) (e : Nat) (old : Edge) : s.SameSite (s.cutPackage e old) := by
  rw [State.cutPackage.eq_def]
  extract_lets f told freed across ls aborted cut
  have h1 : s.SameSite told := s.sameSite_linkRecord _ _ _ _
  have h2 : told.SameSite freed := State.sameSite_ite told.sameSite_refl (State.sameSite_of_eq rfl rfl rfl rfl rfl)
  have h3 : freed.SameSite aborted := State.sameSite_foldl (fun t (p : Nat × Nat) => t.sameSite_abortLaunch p.1 p.2 f) _ freed
  have h4 : aborted.SameSite cut := State.sameSite_foldl (fun t d => t.sameSite_cutLines d) _ aborted
  refine ((h1.trans h2).trans (h3.trans h4)).trans (State.sameSite_foldl (fun t d => ?_) _ cut)
  exact State.sameSite_ite ((t.sameSite_startReset _ _ _).trans (State.sameSite_linkRecord _ _ _ _ _)) t.sameSite_refl

end Sys2Proof.Machine
end

section
/-! PROOF of O57: the boot of a die and its attestation (R435, R436, R437). -/

namespace Sys2Proof.Machine

open Sys2Proof.Claims

/-! ### Fields of words -/

/-- The bits of a word with a field put in: those of the field inside it, the word's own outside. -/
theorem getLsbD_putBits (w : Word) {lo len : Nat} (v i : Nat) (h : lo + len ≤ 64) :
    (putBits w lo len v).getLsbD i = if lo ≤ i ∧ i < lo + len then v.testBit (i - lo) else w.getLsbD i := by
  have hi : w.toNat / 2 ^ lo / 2 ^ len = w.toNat / 2 ^ (lo + len) := by rw [Nat.div_div_eq_div_mul, ← Nat.pow_add]
  rw [BitVec.getLsbD, toNat_putBits w v h, Nat.add_comm (w.toNat % 2 ^ lo),
    Nat.testBit_two_pow_mul_add _ (Nat.mod_lt _ (Nat.two_pow_pos lo)), Nat.add_comm (v % 2 ^ len),
    Nat.testBit_two_pow_mul_add _ (Nat.mod_lt _ (Nat.two_pow_pos len)), Nat.testBit_mod_two_pow, Nat.testBit_mod_two_pow, hi,
    Nat.testBit_div_two_pow, BitVec.getLsbD]
  by_cases hl : i < lo
  · simp [hl, Nat.not_le.2 hl]
  · by_cases hr : i - lo < len
    · simp [hl, hr, Nat.not_lt.1 hl, show i < lo + len by omega]
    · simp [hl, hr, Nat.not_lt.1 hl, show ¬ i < lo + len by omega, show i - lo - len + (lo + len) = i by omega]

/-- A die register after a field of one of its registers is set. -/
theorem State.reg_setField_ne (s : State) {d o off : Nat} (lo len v : Nat) (h : o ≠ off) : (s.setField d off lo len v).reg d o = s.reg d o :=
  State.reg_setReg_ne s _ (.inr h)

theorem sameButDie_setField (s : State) (d off lo len v : Nat) : SameButDie s (s.setField d off lo len v) d := sameButDie_setReg s d off _

/-! ### The boot (R435, R436) -/

theorem State.pick_dies (s : State) (n : Nat) : (s.pick n).2.dies = s.dies := by
  rw [State.pick]
  split <;> rfl

/-- A choice of the environment changes no unit, so what changes one die after it changes that die alone. -/
theorem sameButDie_pick_onDie (s : State) (n d : Nat) (f : Die → Die) : SameButDie s ((s.pick n).2.onDie d f) d := by
  refine sameButDie_trans ⟨?_, fun e _ => ?_⟩ (sameButDie_onDie _ d f)
  · rw [State.pick]
    split <;> exact sameButDies_refl s
  · rw [State.die, State.pick_dies, State.die]

theorem State.image_pick (s : State) (n : Nat) : (s.pick n).2.image = s.image := by
  rw [State.image, (s.sameMem_pick n).flash, State.image]

/-- Running begins with the die's state and its edges' training, and with nothing else. -/
theorem State.beginRun_parts (s : State) (d : Nat) :
    (s.beginRun d).mem = s.mem ∧ (s.beginRun d).strands = s.strands ∧ ((s.beginRun d).die d).state = 3 := by
  rw [State.beginRun.eq_def]
  refine List.foldlRecOn (motive := fun (t : State) => t.mem = s.mem ∧ t.strands = s.strands ∧ (t.die d).state = 3) _ _ ?_ ?_
  · exact ⟨rfl, rfl, by rw [State.die_onDie_self]⟩
  · intro t h e _
    dsimp only
    split
    · exact h
    · exact h

section
variable {s : State} {d : Nat} (hd : d < 4) (hq : (s.die d).quiesce = none)
include hd hq

theorem boot_of_state_zero (h0 : (s.die d).state = 0) :
    ∃ t, exec (.bootStateAdvance d) s = .next t ∧ (t.die d).state = 1 ∧ (t.die d).fail = 0 ∧ SameButDie s t d := by
  refine ⟨s.onDie d fun x => { x with state := 1, fail := 0 }, ?_, ?_⟩
  · refine (onUnit_of_present hd _).trans (congrArg Host.Outcome.next ?_)
    rw [hq, h0]
    rfl
  · rw [State.die_onDie_self]
    exact ⟨rfl, rfl, sameButDie_onDie s d _⟩

/-- The training of a die's memory: it succeeds or it fails. -/
theorem boot_of_state_one (h1 : (s.die d).state = 1) :
    ∃ t, exec (.bootStateAdvance d) s = .next t ∧ SameButDie s t d ∧
      ((t.die d).state = 2 ∧ (t.die d).fail = 0 ∨ (t.die d).state = 4 ∧ (t.die d).fail = 3) := by
  refine ⟨if (s.pick 2).1 = 0 then (s.pick 2).2.onDie d fun x => { x with state := 2, fail := 0 }
      else (s.pick 2).2.onDie d fun x => { x with state := 4, fail := 3 }, ?_, ?_⟩
  · refine (onUnit_of_present hd _).trans (congrArg Host.Outcome.next ?_)
    rw [hq, h1]
    rfl
  · split
    · exact ⟨sameButDie_pick_onDie s 2 d _, .inl (by rw [State.die_onDie_self]; exact ⟨rfl, rfl⟩)⟩
    · exact ⟨sameButDie_pick_onDie s 2 d _, .inr (by rw [State.die_onDie_self]; exact ⟨rfl, rfl⟩)⟩

/-- The verification of an image at boot: the die runs, or the image could not be read, or it does not verify. -/
theorem boot_of_state_two (h2 : (s.die d).state = 2) :
    ∃ t, exec (.bootStateAdvance d) s = .next t ∧ t.mem = s.mem ∧ t.strands = s.strands ∧
      ((t.die d).state = 3 ∧ imageOk s.image = true ∨ (t.die d).state = 4 ∧ (t.die d).fail = 2 ∨
        (t.die d).state = 4 ∧ (t.die d).fail = 1 ∧ imageOk s.image = false) := by
  obtain ⟨⟨hm, hs, -⟩, -⟩ := sameButDie_pick_onDie s 2 d id
  refine ⟨if (s.pick 2).1 = 1 then (s.pick 2).2.onDie d fun x => { x with state := 4, fail := 2 }
      else if imageOk s.image then (s.pick 2).2.beginRun d
      else (s.pick 2).2.onDie d fun x => { x with state := 4, fail := 1 }, ?_, ?_⟩
  · refine (onUnit_of_present hd _).trans (congrArg Host.Outcome.next ?_)
    rw [hq, h2, ← State.image_pick s 2]
    rfl
  · split
    · exact ⟨hm, hs, .inr (.inl (by rw [State.die_onDie_self]; exact ⟨rfl, rfl⟩))⟩
    split
    · next hv =>
      obtain ⟨bm, bs, b3⟩ := (s.pick 2).2.beginRun_parts d
      exact ⟨bm.trans hm, bs.trans hs, .inl ⟨b3, hv⟩⟩
    · next hv => exact ⟨hm, hs, .inr (.inr (by rw [State.die_onDie_self]; exact ⟨rfl, rfl, by simpa using hv⟩))⟩

/-- A die that runs, has failed to boot or is held stays as it is. -/
theorem exec_bootStateAdvance_of_booted (h3 : 3 ≤ (s.die d).state) : exec (.bootStateAdvance d) s = .next s := by
  refine (onUnit_of_present hd _).trans (congrArg Host.Outcome.next ?_)
  obtain ⟨n, hn⟩ : ∃ n, (s.die d).state = n + 3 := ⟨(s.die d).state - 3, by omega⟩
  rw [hq, hn]
  rfl

end

/-! ### Loads of an image (R436) -/

/-- What the holding port does with an image: nothing where it does not verify, else a write to flash, before the dies are reset. -/
theorem State.loadImage_of_holder {s : State} {d p : Nat} {v : Word} {m : List Byte} (hg : s.gate p = (true, s)) (hs : s.portSees p d = true)
    (hm : m = s.peek (.host p (bits v 12 36 * 4096)) (s.peekNat (.host p (bits v 12 36 * 4096)) 4))
    (hc : s.poisoned (Loc.host p (bits v 12 36 * 4096)).key (s.peekNat (.host p (bits v 12 36 * 4096)) 4) = false) :
    imageOk m = false ∧ s.loadImage d p v = s ∨ imageOk m = true ∧ (s.loadImage d p v).flash = some m := by
  rw [State.loadImage, hg]
  simp only [hs, hc, ← hm, Bool.not_true, Bool.or_self, Bool.false_eq_true, if_false]
  by_cases hv : imageOk m = true
  · rw [if_pos hv]
    exact .inr ⟨hv, (State.sameSite_foldl (fun t e => t.sameSite_startReset e 0 resetFlt) _ _).flash⟩
  · rw [if_neg hv]
    exact .inl ⟨by simpa using hv, rfl⟩

theorem State.gate_of_holder {s : State} {p d : Nat} (h : Holds s p d) : s.gate p = (true, s) := by
  rw [State.gate_of_running h.up h.zero (.inr h.lease), h.owner, beq_self_eq_true]

theorem exec_firmwareLoad_of_holder {s : State} {d p : Nat} {hpa : BitVec 64} (hd : d < 4) (h : Holds s p d) :
    exec (.firmwareLoad d p hpa) s = .next ((s.setField d 0xE08 12 36 (bits hpa 12 36)).loadImage d p hpa) := by
  refine (onUnit_of_present ⟨hd, h.port⟩ _).trans (congrArg Host.Outcome.next ?_)
  rw [State.orWait_of_calm h.calm, State.gate_of_holder h]
  simp [h.sees, State.dieUp, h.runs]

/-- Clause by clause: the states of the boot, a load without the semaphore, and one with it. -/
theorem diesBootFromTheirImage : DiesBootFromTheirImage := by
  refine ⟨?_, ?_, ?_⟩
  · exact fun s d hd hq => ⟨boot_of_state_zero hd hq, boot_of_state_one hd hq, boot_of_state_two hd hq, exec_bootStateAdvance_of_booted hd hq⟩
  · intro s d p hpa hd hp hu hz ho hl hw
    refine (onUnit_of_present ⟨hd, hp⟩ _).trans (congrArg Host.Outcome.next ?_)
    rw [State.orWait_of_calm hw, State.gate_of_running hu hz hl]
    simp [ho]
  · intro s d p hpa m hd h hm hc
    let t := s.setField d 0xE08 12 36 (bits hpa 12 36)
    have hb : bits hpa 12 36 = hpa.toNat / 4096 % 2 ^ 36 := bits_eq hpa 12 36
    have hg : t.gate p = (true, t) := by
      rw [State.gate_of_running (s := t) h.up h.zero (.inr h.lease)]
      exact congrArg (·, t) (beq_iff_eq.2 h.owner)
    refine ⟨_, exec_firmwareLoad_of_holder hd h, ?_⟩
    rcases State.loadImage_of_holder (m := m) (v := hpa) hg (show t.portSees p d = true from h.sees) (by rw [hb]; exact hm) (by rw [hb]; exact hc)
      with ⟨hv, hs⟩ | ⟨hv, hf⟩
    · refine .inl ⟨hv, by rw [hs]; rfl, by rw [hs]; exact sameButDie_setField _ _ _ _ _ _, ?_⟩
      rw [hs, State.reg_setField, toNat_putBits _ _ (by omega), hb]
      omega
    · exact .inr ⟨hv, hf⟩

/-! ### Attestation (R437) -/

theorem exec_attestation {s : State} {d : Nat} (hd : d < 4) (h3 : (s.die d).state = 3) : exec (.attestation d) s = .next (s.goAtt d) := by
  refine (onUnit_of_present hd _).trans (congrArg Host.Outcome.next ?_)
  rw [State.dieUp, h3]
  rfl

theorem sameButDie_refl (s : State) (d : Nat) : SameButDie s s d := ⟨sameButDies_refl s, fun _ _ => rfl⟩

/-- Words written to consecutive registers of a die change nothing but its registers from the first on. -/
theorem State.foldl_setReg_parts (f : Nat → Word) (d off n a : Nat) (s : State) :
    SameButDie s ((upFrom a n).foldl (fun (s : State) i => s.setReg d (off + 8 * i) (f i)) s) d ∧
    (((upFrom a n).foldl (fun (s : State) i => s.setReg d (off + 8 * i) (f i)) s).die d).att = (s.die d).att ∧
    ∀ o, o < off + 8 * a → ((upFrom a n).foldl (fun (s : State) i => s.setReg d (off + 8 * i) (f i)) s).reg d o = s.reg d o := by
  induction n generalizing a s with
  | zero => exact ⟨sameButDie_refl s d, rfl, fun _ _ => rfl⟩
  | succ n ih =>
    obtain ⟨hsame, hatt, hreg⟩ := ih (a + 1) (s.setReg d (off + 8 * a) (f a))
    refine ⟨sameButDie_trans (sameButDie_setReg s d _ _) hsame, hatt.trans ?_, fun o ho => (hreg o (by omega)).trans ?_⟩
    · rw [State.setReg, State.die_onDie_self]
    · exact State.reg_setReg_ne s _ (.inr (by omega))

/-- Each of these registers holds its word. -/
theorem State.reg_foldl_setReg (f : Nat → Word) (d off n a : Nat) (s : State) {i : Nat} (hl : a ≤ i) (hr : i < a + n) :
    ((upFrom a n).foldl (fun (s : State) i => s.setReg d (off + 8 * i) (f i)) s).reg d (off + 8 * i) = f i := by
  induction n generalizing a s with
  | zero => omega
  | succ n ih =>
    rw [upFrom, List.foldl_cons]
    by_cases h : i = a
    · obtain ⟨-, -, hreg⟩ := State.foldl_setReg_parts f d off n (a + 1) (s.setReg d (off + 8 * a) (f a))
      rw [h, hreg _ (by omega), State.reg_setReg_self]
    · exact ih _ _ (by omega) (by omega)

/-- The words of a prefix of a list of bytes. -/
theorem wordAt_append (l r : List Byte) (o : Nat) (h : o + 8 ≤ l.length) : wordAt (l ++ r) o = wordAt l o := by
  rw [wordAt, List.drop_append_of_le_length (by omega), List.take_append_of_le_length (by rw [List.length_drop]; omega), wordAt]

/-- A report in its registers (R437). -/
def State.putReport (s : State) (d : Nat) (r : List Byte) : State :=
  (upFrom 0 20).foldl (fun (s : State) i => s.setReg d (0xE80 + 8 * i) (wordAt r (8 * i))) s

theorem State.putReport_parts (s : State) (d : Nat) (r : List Byte) :
    SameButDie s (s.putReport d r) d ∧ ((s.putReport d r).die d).att = (s.die d).att ∧ ∀ o, o < 0xE80 → (s.putReport d r).reg d o = s.reg d o :=
  State.foldl_setReg_parts (fun i => wordAt r (8 * i)) d 0xE80 20 0 s

theorem State.reg_putReport (s : State) (d : Nat) (r : List Byte) {i : Nat} (h : i < 20) :
    (s.putReport d r).reg d (0xE80 + 8 * i) = wordAt r (8 * i) :=
  State.reg_foldl_setReg (fun i => wordAt r (8 * i)) d 0xE80 20 0 s (Nat.zero_le i) (by omega)

theorem State.att_setField (s : State) (d off lo len v : Nat) : ((s.setField d off lo len v).die d).att = (s.die d).att := by
  rw [State.setField, State.setReg, State.die_onDie_self]

theorem exec_attestationDone {s : State} {d : Nat} {n : List Byte} (hd : d < 4) (ha : (s.die d).att = some n) :
    exec (.attestationDone d) s =
      .next ((((s.onDie d fun x => { x with att := none }).putReport d (s.report d n)).setField d 0xE40 1 1 0).setField d 0xE40 2 1 1) := by
  refine (onUnit_of_present hd _).trans (congrArg Host.Outcome.next ?_)
  rw [ha]
  rfl

/-- The end of an attestation: the report in its registers, then BUSY and DONE. -/
theorem attestationDone_of_busy {s : State} {d : Nat} {n : List Byte} (hd : d < 4) (ha : (s.die d).att = some n) (hn : n.length = 32) :
    ∃ t, exec (.attestationDone d) s = .next t ∧ (t.die d).att = none ∧ (t.reg d 0xE40).getLsbD 1 = false ∧ (t.reg d 0xE40).getLsbD 2 = true ∧
      SameButDie s t d ∧ ∀ i, i < 4 → t.reg d (0xE80 + 8 * i) = wordAt n (8 * i) := by
  obtain ⟨hsame, hatt, -⟩ := (s.onDie d fun x => { x with att := none }).putReport_parts d (s.report d n)
  refine ⟨_, exec_attestationDone hd ha, ?_, ?_, ?_, ?_, fun i hi => ?_⟩
  · rw [State.att_setField, State.att_setField, hatt, State.die_onDie_self]
  · rw [State.reg_setField, getLsbD_putBits _ _ _ (by omega), State.reg_setField, getLsbD_putBits _ _ _ (by omega)]
    rfl
  · rw [State.reg_setField, getLsbD_putBits _ _ _ (by omega)]
    rfl
  · exact sameButDie_trans (sameButDie_trans (sameButDie_onDie s d _) hsame)
      (sameButDie_trans (sameButDie_setField _ _ _ _ _ _) (sameButDie_setField _ _ _ _ _ _))
  · rw [State.reg_setField_ne _ _ _ _ (by omega), State.reg_setField_ne _ _ _ _ (by omega), State.reg_putReport _ _ _ (by omega), State.report]
    simp only [List.append_assoc]
    exact wordAt_append n _ _ (by omega)

/-- Clause by clause: the capture of a nonce, a GO while BUSY, and the report. -/
theorem attestationReportsTheNonce : AttestationReportsTheNonce := by
  refine fun s d hd => ⟨fun h3 hb => ?_, fun h3 hb => ?_, fun n ha hn => attestationDone_of_busy hd ha hn⟩
  · refine ⟨(s.setField d 0xE40 1 1 1).onDie d fun x => { x with att := some (s.nonce d) }, ?_, ?_, ?_, ?_⟩
    · rw [exec_attestation hd h3, State.goAtt, hb]
      rfl
    · rw [State.die_onDie_self]
      rfl
    · rw [State.reg, State.die_onDie_self]
      exact (congrArg (·.getLsbD 1) (s.reg_setField d 0xE40 1 1 1)).trans (by rw [getLsbD_putBits _ _ _ (by omega)])
    · exact sameButDie_trans (sameButDie_setField _ _ _ _ _ _) (sameButDie_onDie _ _ _)
  · rw [exec_attestation hd h3, State.goAtt, hb]
    rfl

/-- Settles O57: the boot state by state and the load of an image by what the semaphore's gate answers, the attestation by the words that it
puts into its registers (R435, R436, R437). -/
theorem bootAndAttestation : Obligations.BootAndAttestation := ⟨diesBootFromTheirImage, attestationReportsTheNonce⟩

end Sys2Proof.Machine
end

section
/-! SUPPORT of O23, O51 and O55: what a store at a line's home leaves (R249, R259): of the dies all but their caches, and every byte outside it. -/

namespace Sys2Proof.Machine

open Sys2Proof.Claims

/-- The dies of `t` are those of `s` but for the lines of their L2 and the error marks of their L1s. -/
def State.SameBesideL2 (s t : State) : Prop :=
  ∀ e, t.die e = { s.die e with l2 := (t.die e).l2, l1bad := (t.die e).l1bad }

theorem State.SameBesideL2.trans {s t u : State} (h : s.SameBesideL2 t) (g : t.SameBesideL2 u) : s.SameBesideL2 u := by
  intro e
  have hu := g e
  rw [h e] at hu
  exact hu

theorem State.sameBesideL2_of_dies {s t : State} (h : t.dies = s.dies) : s.SameBesideL2 t := by
  intro e
  rw [State.die, h]
  rfl

/-- Any part of a die beside its caches. -/
theorem State.SameBesideL2.part {α : Type} {s t : State} (h : s.SameBesideL2 t) (f : Die → α) (hf : ∀ x l m, f { x with l2 := l, l1bad := m } = f x)
    (d : Nat) : f (t.die d) = f (s.die d) := by
  rw [h d, hf]

theorem State.SameBesideL2.reg {s t : State} (h : s.SameBesideL2 t) (d off : Nat) : t.reg d off = s.reg d off := by
  rw [State.reg, h d, State.reg]

theorem State.SameBesideL2.state {s t : State} (h : s.SameBesideL2 t) (d : Nat) : (t.die d).state = (s.die d).state := by rw [h d]

/-- An entry of a table all of whose values have changed. -/
theorem Tab.find_mapVal {α β : Type} (f : Nat → α → β) (t : Tab α) (a : Nat) :
    Tab.find (t.map fun e => (e.1, f e.1 e.2)) a = (Tab.find t a).map (f a) := by
  induction t with
  | nil => rfl
  | cons e l ih =>
    rw [List.map_cons, Tab.find, Tab.find]
    by_cases h : a = e.1
    · rw [if_pos h, if_pos h, h]
      rfl
    · rw [if_neg h, if_neg h]
      exact ih

/-- The value of such a table at a key, where the value of absent entries has not changed. -/
theorem Tab.getD_mapVal {α : Type} (f : Nat → α → α) (t : Tab α) (a : Nat) (d : α) (hd : f a d = d) :
    Tab.getD (t.map fun e => (e.1, f e.1 e.2)) a d = f a (Tab.getD t a d) := by
  rw [Tab.getD, Tab.find_mapVal f, Tab.getD]
  cases Tab.find t a with
  | none => exact hd.symm
  | some x => rfl

theorem State.sameBesideL2_onDie_l2 (s : State) (d : Nat) (f : Die → Tab Line) : s.SameBesideL2 (s.onDie d fun x => { x with l2 := f x }) := by
  intro e
  by_cases h : e = d
  · subst h
    rw [State.die_onDie_self]
  · rw [State.die_onDie_ne s _ h]

theorem State.sameBesideL2_dropL2 (s : State) (n : Nat) (keep : List Nat) : s.SameBesideL2 (s.dropL2 n keep) := by
  intro e
  have h := Tab.getD_mapVal (fun a (x : Die) => if keep.contains a then x
    else { x with
      l2 := if a = homeOf n then x.l2 else Tab.del x.l2 n
      l1bad := x.l1bad.filter fun y => y.2 != n }) s.dies e {} (by dsimp only; split <;> [rfl; (split <;> rfl)])
  have hd : (s.dropL2 n keep).die e = if keep.contains e then s.die e
    else { s.die e with
      l2 := if e = homeOf n then (s.die e).l2 else Tab.del (s.die e).l2 n
      l1bad := (s.die e).l1bad.filter fun y => y.2 != n } := by
    refine Eq.trans ?_ h
    rw [State.die, State.dropL2]
    congr 1
    refine List.map_congr_left fun x _ => ?_
    dsimp only
    split <;> rfl
  rw [hd]
  split <;> rfl

theorem State.sameBesideL2_intoL2 (s : State) (d n : Nat) (c : Line) : s.SameBesideL2 (s.intoL2 d n c) := by
  have hp : ∀ (p : Prop) [Decidable p] m, (if p then s.pick m else (m, s)).2.dies = s.dies := by
    intro p _ m
    split
    · exact s.pick_dies m
    · rfl
  rw [State.intoL2]
  exact (State.sameBesideL2_of_dies (hp _ _)).trans (State.sameBesideL2_onDie_l2 _ d _)

theorem State.sameBesideL2_keepHome (s : State) (n : Nat) : s.SameBesideL2 (s.keepHome n) := by
  rw [State.keepHome]
  split
  · exact s.sameBesideL2_intoL2 _ _ _
  · exact State.sameBesideL2_of_dies rfl

theorem State.sameBesideL2_storeHome (s : State) (l : Loc) (b : List Byte) : s.SameBesideL2 (s.storeHome l b) :=
  ((s.sameBesideL2_dropL2 _ _).trans (State.sameBesideL2_keepHome _ _)).trans (State.sameBesideL2_of_dies rfl)

/-- The memory after a store at a line's home. -/
theorem State.storeHome_mem (s : State) (l : Loc) (b : List Byte) : (s.storeHome l b).mem = writeMem s.mem l.key b := by
  rw [State.storeHome]
  exact congrArg (writeMem · l.key b) (State.keepHome_mem (s.dropL2 l.line []) l.line)

/-- A byte after a store at a line's home: of the store inside it, as it was outside. -/
theorem State.byte_storeHome (s : State) (l : Loc) (b : List Byte) (k : Nat) :
    (s.storeHome l b).byte k = if l.key ≤ k ∧ k < l.key + b.length then b.getD (k - l.key) 0 else s.byte k := by
  rw [State.byte, State.storeHome_mem]
  split
  · next h =>
    obtain ⟨i, rfl⟩ := Nat.exists_eq_add_of_le h.1
    have hi : i < b.length := by omega
    rw [get_writeMem_in b s.mem l.key hi, Nat.add_sub_cancel_left, List.getD_eq_getElem _ _ hi]
  · next h => exact get_writeMem_out b s.mem (by omega)

end Sys2Proof.Machine
end

section
/-! PROOF of O55: the fabric ports and the host ports (R333, R335, R337, R394, R428). -/

namespace Sys2Proof.Machine

open Sys2Proof.Claims

/-! ### Fabric ports (R335) -/

theorem State.fabricPort_of_up {s : State} {d n : Nat} (hn : n < 4) (h : (s.reg d (0x908 + 8 * n)).getLsbD 0 = true) : s.fabricPort d n 4 = some n := by
  rw [State.fabricPort, Nat.sub_self, Nat.add_zero, Nat.mod_eq_of_lt hn, h]
  rfl

/-- With no port up and nothing outstanding at another package, every port is passed over. -/
theorem State.fabricPort_of_down {s : State} {d : Nat} (hr : ∀ p, p < 4 → (s.reg d (0x908 + 8 * p)).getLsbD 0 = false)
    (ha : ∀ x ∈ (s.die d).acks, x.2.pkg = false) (first n : Nat) : s.fabricPort d first n = some 4 := by
  induction n with
  | zero => rfl
  | succ n ih =>
    have hnone : ((s.die d).acks.any fun a => a.2.pkg && a.2.port == (first + (3 - n)) % 4 && !a.2.lost) = false := by
      rw [List.any_eq_false]
      intro x hx
      simp [ha x hx]
    rw [State.fabricPort, hr _ (Nat.mod_lt _ (by omega)), hnone]
    exact ih

/-- The four bits of a port's state, in its register. -/
theorem State.toNat_reg_setField_low (s : State) (d off v : Nat) (hv : v < 16) :
    ((s.setField d off 0 4 v).reg d off).toNat = (s.reg d off).toNat / 16 * 16 + v := by
  rw [State.reg_setField, toNat_putBits _ _ (by omega)]
  omega

theorem fabricPortsKeepTheirState : FabricPortsKeepTheirState := by
  intro s d n hd hn
  refine ⟨⟨_, onUnit_of_present ⟨hd, hn⟩ _, ?_, sameButDie_setField _ _ _ _ _ _⟩, ⟨_, onUnit_of_present ⟨hd, hn⟩ _, ?_, sameButDie_setField _ _ _ _ _ _⟩,
    State.fabricPort_of_up hn, fun hr ha => State.fabricPort_of_down hr ha n 4,
    ⟨_, onUnit_of_present ⟨hd, hn⟩ _, sameButDie_setField _ _ _ _ _ _, ?_, ?_⟩⟩
  · exact s.toNat_reg_setField_low d _ 0 (by omega)
  · exact s.toNat_reg_setField_low d _ 15 (by omega)
  · rw [State.toNat_reg_bumpField _ _ _ _ (by omega)]
    omega
  · rw [State.toNat_reg_bumpField _ _ _ _ (by omega)]
    omega

/-! ### Host accesses (R337) -/

/-- What a die reaches depends on the edges alone. -/
theorem State.half_of_edges {s t : State} (h : t.edges = s.edges) : t.half = s.half := by
  have he : t.edge = s.edge := funext fun e => by rw [State.edge, h, State.edge]
  funext d
  rw [State.half, State.half, State.spread, State.spread, State.spread, State.spread, State.spread, State.spread, he]

/-- Where a host access arrives depends on the decoders, the states of the dies, the edges and the ports alone. -/
theorem State.SameBesideL2.hostLoc {s t : State} (h : s.SameBesideL2 t) (hu : s.SameUnits t) (p a : Nat) : t.hostLoc p a = s.hostLoc p a := by
  have hreg : t.reg = s.reg := funext fun d => funext fun off => h.reg d off
  have hup : t.dieUp = s.dieUp := funext fun d => by rw [State.dieUp, h.state, State.dieUp]
  have hreach : t.canReach = s.canReach := funext fun d => funext fun e => by
    rw [State.canReach, State.half_of_edges hu.edges, h.state, State.canReach]
  rw [State.hostLoc, State.hdmTarget, hreg, hup, hreach, hu.ports, State.hostLoc, State.hdmTarget]

/-- The place in HBM of a byte that a decoder of an enabled port sends to a die that is reached. -/
theorem State.hostLoc_of_target {s : State} {p a d o : Nat} (ht : s.hdmTarget p a = some (d, o)) (hp : p ∉ s.portsDown)
    (h3 : (s.die (portDie p)).state = 3) (hr : s.canReach (portDie p) d = true) (ho : o < 0x3000000000) : s.hostLoc p a = some (.hbm d o) := by
  have hp' : s.portsDown.contains p = false := by simpa using hp
  have h4 : s.dieUp (portDie p) = true := by rw [State.dieUp, h3]; rfl
  rw [State.hostLoc, ht]
  simp only [hp', h4, hr, decide_eq_false (Nat.not_le.2 ho), Bool.not_true, Bool.or_self, Bool.false_eq_true, if_false]

/-- A decoder keeps the place of a byte in its line: windows begin at multiples of 256 MiB (R337). -/
theorem State.hdmTarget_mod {s : State} {p a d o : Nat} (h : s.hdmTarget p a = some (d, o)) : o % 128 = a % 128 := by
  rw [State.hdmTarget] at h
  obtain ⟨n, -, hn⟩ := List.exists_of_findSome?_eq_some h
  dsimp only at hn
  split at hn
  · next hc =>
    simp only [Bool.and_eq_true, decide_eq_true_eq] at hc
    obtain ⟨-, rfl⟩ := Prod.mk.inj (Option.some.inj hn)
    omega
  · nomatch hn

/-- An access within one line is one piece. -/
theorem hostPieces_of_line {a n : Nat} (hn : n ≠ 0) (h : a % 128 + n ≤ 128) : hostPieces a n = [(a, n)] := by
  have h1 : (a + n - 1) / 128 - a / 128 + 1 = 1 := by omega
  rw [hostPieces, if_neg hn, h1]
  simp only [upFrom, List.map_cons, List.map_nil, List.cons.injEq, Prod.mk.injEq, and_true]
  omega

/-- A choice of the environment leaves everything but what the choices are made by. -/
theorem State.pick_eq (s : State) (n : Nat) : (s.pick n).2 = { s with agenda := (s.pick n).2.agenda, choice := (s.pick n).2.choice } := by
  rw [State.pick]
  split <;> rfl

/-- The bytes of a line from a place in it on. -/
theorem take_drop_readMem (m : List Host.Cell) {k n : Nat} (h : k % 128 + n ≤ 128) :
    ((readMem m (k / 128 * 128) 128).drop (k % 128)).take n = readMem m k n := by
  refine List.ext_getElem? fun i => ?_
  by_cases hi : i < n
  · rw [List.getElem?_take_of_lt hi, List.getElem?_drop, readMem_get m _ (by omega), readMem_get m _ hi,
      show k / 128 * 128 + (k % 128 + i) = k + i by omega]
  · rw [List.getElem?_eq_none (by rw [List.length_take]; omega), List.getElem?_eq_none (by rw [readMem_length]; omega)]

/-- What a host that holds no line reads of a line: its bytes at the line's home, as poison where the line is poisoned (R394); and what
that leaves. -/
theorem State.hostFetch_of_none {s : State} (p : Nat) {l : Loc} {n : Nat} (hl : s.hostL = []) (h : l.key % 128 + n ≤ 128) :
    (s.hostFetch p l n).1 = ((s.peek l n).map fun b => if s.poisoned (l.line * 128) 128 then none else some b) ∧
    (s.hostFetch p l n).2.mem = s.mem ∧ (s.hostFetch p l n).2.poison = s.poison ∧ (s.hostFetch p l n).2.strands = s.strands ∧
      (s.hostFetch p l n).2.dies = s.dies := by
  have hnone : (if (s.pick 2).1 = 0 then Tab.find (s.pick 2).2.hostL (hostLine p l.line) else none) = none := by
    rw [s.pick_eq 2, hl]
    split <;> rfl
  rw [State.hostFetch]
  dsimp only
  rw [hnone, s.pick_eq 2]
  refine ⟨?_, rfl, rfl, rfl, rfl⟩
  exact congrArg (List.map _) (take_drop_readMem s.mem h)

/-! ### Host writes (R337) -/

/-- `m` bytes of a list have been stored at a location in `u`, by stores at the homes of its lines, and nothing else since `s`. -/
structure State.Stored (s u : State) (l : Loc) (b : List Byte) (m : Nat) : Prop where
  bytes : ∀ k, u.byte k = if l.key ≤ k ∧ k < l.key + m then b.getD (k - l.key) 0 else s.byte k
  dies  : s.SameBesideL2 u
  units : s.SameUnits u

theorem State.stored_zero (s : State) (l : Loc) (b : List Byte) : s.Stored s l b 0 :=
  ⟨fun k => by rw [if_neg (by omega)], State.sameBesideL2_of_dies rfl, s.sameUnits_refl⟩

/-- One more piece. -/
theorem State.Stored.storeHome {s u : State} {d o : Nat} {b : List Byte} {m c : Nat} (h : s.Stored u (.hbm d o) b m) (hm : m + c ≤ b.length) :
    s.Stored (u.storeHome (.hbm d (o + m)) ((b.drop m).take c)) (.hbm d o) b (m + c) where
  bytes k := by
    have hlen : ((b.drop m).take c).length = c := by rw [List.length_take, List.length_drop]; omega
    have hkey : (Loc.hbm d (o + m)).key = (Loc.hbm d o).key + m := by simp only [Loc.key]; omega
    rw [State.byte_storeHome, hlen, hkey, h.bytes]
    by_cases hk : (Loc.hbm d o).key + m ≤ k ∧ k < (Loc.hbm d o).key + m + c
    · rw [if_pos hk, if_pos (by omega), List.getD_eq_getElem?_getD, List.getD_eq_getElem?_getD, List.getElem?_take_of_lt (by omega),
        List.getElem?_drop, show m + (k - ((Loc.hbm d o).key + m)) = k - (Loc.hbm d o).key by omega]
    · rw [if_neg hk]
      refine if_congr ?_ rfl rfl
      omega
  dies := h.dies.trans (State.sameBesideL2_storeHome _ _ _)
  units := h.units.trans (State.sameUnits_storeHome _ _ _)

/-- What a host write does with one piece. -/
def hostPut (p a : Nat) (b : List Byte) (u : State) (x : Nat × Nat) : State :=
  match u.hostLoc p x.1 with
  | some l => u.storeHome l ((b.drop (x.1 - a)).take x.2)
  | none => u

/-- A piece of a host write, after `m` bytes. -/
theorem State.Stored.hostPut {s u : State} {p a d o : Nat} {b : List Byte} {m c : Nat} (h : s.Stored u (.hbm d o) b m) (hm : m + c ≤ b.length)
    (hl : s.hostLoc p (a + m) = some (.hbm d (o + m))) : s.Stored (Machine.hostPut p a b u (a + m, c)) (.hbm d o) b (m + c) := by
  rw [Machine.hostPut, h.dies.hostLoc h.units, hl, Nat.add_sub_cancel_left]
  exact h.storeHome hm

/-- The pieces of a host write of `n` bytes from line `l` on: they store its bytes up to the last of those lines. -/
theorem stored_foldl_hostPut {s : State} {p a d o n : Nat} {b : List Byte} (h0 : 0 < n) (hn : n ≤ b.length)
    (hl : ∀ i, i < n → s.hostLoc p (a + i) = some (.hbm d (o + i))) (j l : Nat) (u : State) (ha : a / 128 ≤ l)
    (he : j = 0 ∨ 128 * (l + j) < a + n + 128) (h : s.Stored u (.hbm d o) b (min n (128 * l - a))) :
    s.Stored (((upFrom l j).map fun l => (max a (128 * l), min (a + n) (128 * l + 128) - max a (128 * l))).foldl (hostPut p a b) u)
      (.hbm d o) b (min n (128 * (l + j) - a)) := by
  induction j generalizing l u with
  | zero => exact h
  | succ j ih =>
    have hm : min n (128 * l - a) < n := by omega
    have hfirst : max a (128 * l) = a + min n (128 * l - a) := by omega
    have hnext : min n (128 * l - a) + (min (a + n) (128 * l + 128) - (a + min n (128 * l - a))) = min n (128 * (l + 1) - a) := by omega
    rw [upFrom, List.map_cons, List.foldl_cons, hfirst, show l + (j + 1) = l + 1 + j by omega]
    refine ih (l + 1) _ (by omega) (by omega) ?_
    rw [← hnext]
    exact h.hostPut (by omega) (hl _ hm)

/-- All the pieces of a host write. -/
theorem stored_hostPieces {s : State} {p a d o n : Nat} {b : List Byte} (hn : n ≤ b.length)
    (hl : ∀ i, i < n → s.hostLoc p (a + i) = some (.hbm d (o + i))) :
    s.Stored ((hostPieces a n).foldl (hostPut p a b) s) (.hbm d o) b n := by
  rw [hostPieces]
  by_cases h0 : n = 0
  · rw [if_pos h0, h0]
    exact s.stored_zero _ _
  · have h := stored_foldl_hostPut (Nat.pos_of_ne_zero h0) hn hl ((a + n - 1) / 128 - a / 128 + 1) (a / 128) s (Nat.le_refl _) (by omega)
      (by rw [show min n (128 * (a / 128) - a) = 0 by omega]; exact s.stored_zero _ _)
    rw [if_neg h0]
    rwa [show min n (128 * (a / 128 + ((a + n - 1) / 128 - a / 128 + 1)) - a) = n by omega] at h

/-! ### The clauses -/

section
variable {s : State} {p : Nat} (hp : p < 2)
include hp

/-- A read within a line. -/
theorem hostRead_of_line {a : BitVec 64} {len d o : Nat} (ht : s.hdmTarget p a.toNat = some (d, o)) (hu : p ∉ s.portsDown)
    (h3 : (s.die (portDie p)).state = 3) (hr : s.canReach (portDie p) d = true) (ho : o < 0x3000000000) (hn : len ≠ 0)
    (hline : a.toNat % 128 + len ≤ 128) (hw : s.hostWaits p (s.hdmDies p a.toNat len) = false) (hl : s.hostL = []) :
    ∃ t, exec (.hostCxlMemAccess p a none len) s = .next t ∧ t.mem = s.mem ∧ t.poison = s.poison ∧ t.strands = s.strands ∧ t.dies = s.dies ∧
      Tab.getD t.hostGot p [] = (s.peek (.hbm d o) len).map fun b =>
        if s.poisoned ((Loc.hbm d o).line * 128) 128 then none else some b := by
  have hmod := State.hdmTarget_mod ht
  have hkey : (Loc.hbm d o).key % 128 + len ≤ 128 := by simp only [Loc.key]; omega
  obtain ⟨hgot, hm, hq, hs, hd⟩ := State.hostFetch_of_none p (l := .hbm d o) hl hkey
  refine ⟨{ (s.hostFetch p (.hbm d o) len).2 with
      hostGot := Tab.put (s.hostFetch p (.hbm d o) len).2.hostGot p (s.hostFetch p (.hbm d o) len).1 }, ?_, hm, hq, hs, hd, ?_⟩
  · refine (onUnit_of_present hp _).trans (congrArg Host.Outcome.next ?_)
    rw [State.orWait_of_calm hw, hostPieces_of_line hn hline]
    simp only [List.foldl_cons, List.foldl_nil, State.hostLoc_of_target ht hu h3 hr ho, List.nil_append]
  · exact (Tab.getD_put_self _ _ _ _).trans hgot

/-- A write to bytes that the decoders send to one stretch of a die's HBM. -/
theorem hostWrite_of_targets {a : BitVec 64} {b : List (BitVec 8)} {len d o : Nat}
    (ht : ∀ i, i < (b.take len).length → s.hdmTarget p (a.toNat + i) = some (d, o + i)) (hu : p ∉ s.portsDown)
    (h3 : (s.die (portDie p)).state = 3) (hr : s.canReach (portDie p) d = true) (ho : o + (b.take len).length ≤ 0x3000000000)
    (hw : s.hostWaits p (s.hdmDies p a.toNat len) = false) :
    ∃ t, exec (.hostCxlMemAccess p a (some b) len) s = .next t ∧ t.peek (.hbm d o) (b.take len).length = b.take len ∧ t.strands = s.strands ∧
      ∀ k, (k < (Loc.hbm d o).key ∨ (Loc.hbm d o).key + (b.take len).length ≤ k) → t.byte k = s.byte k := by
  rw [List.length_take] at *
  have h := stored_hostPieces (b := b) (Nat.min_le_right len b.length) fun i hi => State.hostLoc_of_target (ht i hi) hu h3 hr (by omega)
  refine ⟨_, (onUnit_of_present hp _).trans (congrArg Host.Outcome.next (State.orWait_of_calm hw _ _)), ?_, h.units.strands, fun k hk => ?_⟩
  · refine List.ext_getElem? fun i => ?_
    by_cases hi : i < min len b.length
    · rw [State.peek, readMem_get _ _ hi, List.getElem?_take_of_lt (by omega), List.getElem?_eq_getElem (by omega)]
      refine congrArg some ((h.bytes _).trans ?_)
      rw [if_pos ⟨by omega, by omega⟩, Nat.add_sub_cancel_left, List.getD_eq_getElem]
    · rw [List.getElem?_eq_none (by rw [State.peek, readMem_length]; omega), List.getElem?_eq_none (by rw [List.length_take]; omega)]
  · refine (h.bytes k).trans (if_neg ?_)
    omega

theorem exec_hostPortDown : exec (.hostPortDown p) s = .next (s.portLost p) := onUnit_of_present hp _

end

/-- A port that is lost is down, and the clock has not moved. -/
theorem State.portLost_parts (s : State) (p : Nat) : p ∈ (s.portLost p).portsDown ∧ (s.portLost p).time = s.time := by
  rw [State.portLost.eq_def]
  split
  · next h => exact ⟨by simpa using h, rfl⟩
  · extract_lets marked names dropped answered broken
    have h1 : marked.SameSite dropped := marked.sameSite_dropHost p
    have h2 : dropped.SameSite answered := State.sameSite_foldl (fun t d => t.sameSite_priSet d _ 4) _ dropped
    have h3 : answered.SameSite broken := State.sameSite_foldl (fun t d => State.sameSite_ite (t.sameSite_breakRings d) t.sameSite_refl) _ answered
    have h4 := State.sameSite_foldl (f := fun (s : State) d => if s.dieUp d && s.portSees (1 - p) d then
        s.hostFault d { cls := 9, code := 7, info := BitVec.ofNat 64 p, src := 4 } else s)
      (fun t d => State.sameSite_ite (t.sameSite_hostFault d _ _ _) t.sameSite_refl) [0, 1, 2, 3] broken
    have h := ((h1.trans h2).trans h3).trans h4
    exact ⟨by rw [h.ports]; exact mem_insertNat _ _, h.time⟩

/-- Clause by clause: a read, an access that waits, a write, and the loss of a port. -/
theorem hostPortsReachTheMemory : HostPortsReachTheMemory := by
  refine ⟨fun s p a len d o hp ht hu h3 hr ho hn hline hw hl => hostRead_of_line hp ht hu h3 hr ho hn hline hw hl, ?_,
    fun s p a b len d o hp ht hu h3 hr ho hw => hostWrite_of_targets hp ht hu h3 hr ho hw, fun s p hp => ⟨fun hd => ?_, fun _ => ?_⟩⟩
  · intro s p a wr len hp hw
    refine (onUnit_of_present hp _).trans (congrArg Host.Outcome.next ?_)
    rw [State.orWait, if_pos hw]
  · rw [exec_hostPortDown hp, State.portLost, if_pos (by simpa using hd)]
  · exact ⟨_, exec_hostPortDown hp, s.portLost_parts p⟩

/-- Settles O55: the registers of the fabric ports by their fields, the host's accesses piece by piece, and the loss of a port by what its parts
leave of the package (R335, R337, R428). -/
theorem fabricAndHostPorts : Obligations.FabricAndHostPorts := ⟨fabricPortsKeepTheirState, hostPortsReachTheMemory⟩

end Sys2Proof.Machine
end

section
/-! PROOF of O54: the die edges, their rates, training, errors and losses (R332, R333, R334, R397, R399, R400, R401, R440). -/

namespace Sys2Proof.Machine

open Sys2Proof.Claims

/-! ### What changes one edge -/

theorem sameButEdge_onEdge (s : State) (e : Nat) (f : Edge → Edge) : SameButEdge s (s.onEdge e f) e :=
  ⟨rfl, rfl, rfl, rfl, fun _ h => State.edge_onEdge_ne s f h⟩

theorem sameButEdge_trans {s t u : State} {e : Nat} (h : SameButEdge s t e) (g : SameButEdge t u e) : SameButEdge s u e := by
  obtain ⟨hs, ht, hc, ho, he⟩ := h
  obtain ⟨gs, gt, gc, go, ge⟩ := g
  exact ⟨gs.trans hs, gt.trans ht, gc.trans hc, go.trans ho, fun f hf => (ge f hf).trans (he f hf)⟩

theorem State.SameUnits.edge {s t : State} (h : s.SameUnits t) (e : Nat) : t.edge e = s.edge e := by rw [State.edge, h.edges, State.edge]

theorem State.SameUnits.sameButEdge {s t : State} (h : s.SameUnits t) (e : Nat) : SameButEdge s t e :=
  ⟨h.strands, h.tiles, h.time, h.owner, fun f _ => h.edge f⟩

/-- Records to the fault queues of dies leave the units of the package (R401). -/
theorem State.sameUnits_linkRecord (s : State) (e code : Nat) (old : Edge) (ds : List Nat) : s.SameUnits (s.linkRecord e code old ds) := by
  rw [State.linkRecord]
  refine List.foldlRecOn (motive := fun (t : State) => s.SameUnits t) _ _ s.sameUnits_refl fun t h d _ => ?_
  split
  · exact h.trans (t.sameUnits_hostFault _ _ _ _)
  · exact h

/-! ### Rates (R332, R333) -/

/-- A new TGT through a port that sees a die of the edge: a training at it where the port holds the semaphore, else DENIED. -/
theorem State.rateWrite_of_new {s : State} {e d p : Nat} {v : Word} (hd : d ∈ edgeDies e) (hs : s.portSees p d = true) (hu : p ∉ s.portsDown)
    (hz : (s.half (portDie p)).contains 0 = true) (h3 : (s.die d).state = 3) (hl : s.semOwner = 0 ∨ s.time < s.semLease)
    (hv : v.toNat / 16 % 8 ≤ 4) (ht : v.toNat / 16 % 8 ≠ (s.edge e).tgt.toNat) (hn : (s.edge e).down = false) :
    s.rateWrite e p v =
      if s.semOwner.toNat = p + 1 then
        (((s.onEdge e fun x => { x with fbthr := BitVec.ofNat 16 (bits v 16 16), auto := v.getLsbD 8 }).trainAt e
          (BitVec.ofNat 3 (v.toNat / 16 % 8)) 2).onEdge e fun x => { x with tgt := BitVec.ofNat 3 (v.toNat / 16 % 8) })
      else (s.onEdge e fun x => { x with fbthr := BitVec.ofNat 16 (bits v 16 16), auto := v.getLsbD 8 }).onEdge e fun x => { x with denied := true } := by
  have hb : bits v 4 3 = v.toNat / 16 % 8 := bits_eq v 4 3
  have hnew : s.newRate e v = true := by simp [State.newRate, hb, hv, ht]
  have hsees : ((edgeDies e).any fun d => s.dieUp d && s.portSees p d) = true := List.any_eq_true.2 ⟨d, hd, by simp [State.dieUp, h3, hs]⟩
  rw [State.rateWrite]
  simp only [hnew, hsees, hz, State.gate_of_running hu hz hl, hn, hb, Bool.not_true, Bool.false_eq_true, if_false, Bool.not_false, Bool.and_true, beq_iff_eq]

theorem rateWritesNeedTheSemaphore : RateWritesNeedTheSemaphore := by
  intro s e d p v he hd hp hs hu hz h3 hl hv ht hn hw
  have hf : (BitVec.ofNat 16 (bits v 16 16)).toNat = v.toNat / 2 ^ 16 % 2 ^ 16 := by
    rw [BitVec.toNat_ofNat, bits_eq, Nat.mod_mod]
  refine ⟨_, (onUnit_of_present ⟨he, hp⟩ _).trans (congrArg Host.Outcome.next ((State.orWait_of_calm hw _ _).trans
    (State.rateWrite_of_new hd hs hu hz h3 hl hv ht hn))), ?_⟩
  by_cases ho : s.semOwner.toNat = p + 1
  · rw [if_pos ho]
    refine ⟨sameButEdge_trans (sameButEdge_trans (sameButEdge_onEdge s e _) (sameButEdge_onEdge _ e _)) (sameButEdge_onEdge _ e _), rfl, ?_⟩
    rw [State.edge_onEdge_self, State.trainAt, State.edge_onEdge_self, State.edge_onEdge_self]
    exact ⟨rfl, hf, rfl, fun _ => ⟨by rw [BitVec.toNat_ofNat]; omega, rfl⟩, fun h => absurd ho h⟩
  · rw [if_neg ho]
    refine ⟨sameButEdge_trans (sameButEdge_onEdge s e _) (sameButEdge_onEdge _ e _), rfl, ?_⟩
    rw [State.edge_onEdge_self, State.edge_onEdge_self]
    exact ⟨rfl, hf, rfl, fun h => absurd h ho, fun _ => ⟨rfl, rfl, rfl⟩⟩

/-! ### Training (R333, R334, R400) -/

/-- A training that succeeds: the edge is up at its rate, and each die that it joins may be told. -/
theorem State.trained_of_ok {s : State} {e : Nat} {r : BitVec 3} (h : (s.edge e).train = some r) :
    ∃ code, s.trained e true = (s.onEdge e fun x => { x with
        cur := r
        up := true
        train := none
        fails := 0
        tgt := if x.why = 2 then x.tgt else r
        degr := x.degr || decide (r.toNat < (s.edge e).cur.toNat) }).linkRecord e code (s.edge e) (if code = 0 then [] else edgeDies e) := by
  rw [State.trained, h]
  dsimp only
  rw [if_pos rfl]
  split
  · exact ⟨2, rfl⟩
  split
  · exact ⟨1, rfl⟩
  · exact ⟨0, rfl⟩

/-- One that fails after a TGT write: the edge stays at its rate. -/
theorem State.trained_of_failed_write {s : State} {e : Nat} {r : BitVec 3} (h : (s.edge e).train = some r) (hr : r ≠ 0)
    (hw : (s.edge e).why = 2) (hf : (s.edge e).fails < 3) :
    s.trained e false = s.onEdge e fun x => { x with tgt := x.cur, denied := true, train := none, up := true } := by
  rw [State.trained, h]
  simp only [hr, hw, Nat.not_le.2 hf, Bool.false_eq_true, if_false, or_self, OfNat.ofNat_ne_zero, Nat.reduceEqDiff]

/-- One that fails at boot falls back to 32 GT/s (notes/assumptions/21), while it has not failed there three times. -/
theorem State.trained_of_failed_boot {s : State} {e : Nat} {r : BitVec 3} (h : (s.edge e).train = some r) (hw : (s.edge e).why = 0)
    (hf : (s.edge e).fails + (if r = 0 then 1 else 0) < 3) :
    s.trained e false = (if r = 0 then s.onEdge e fun x => { x with fails := x.fails + 1 } else s).trainAt e 0 0 := by
  have hfails : ((if r = 0 then s.onEdge e fun x => { x with fails := x.fails + 1 } else s).edge e).fails < 3 := by
    by_cases hr : r = 0
    · rw [if_pos hr, State.edge_onEdge_self]
      rwa [if_pos hr] at hf
    · rw [if_neg hr]
      rwa [if_neg hr] at hf
  rw [State.trained, h]
  dsimp only
  rw [if_neg Bool.false_ne_true, if_neg (Nat.not_le.2 hfails), if_pos (.inl hw), hw]

/-- An edge that does not step down, the threshold of its replays not being passed (R334). -/
theorem exec_automaticStepDown {s : State} {e : Nat} (he : e < 4) :
    exec (.automaticStepDown e) s = .next (if (s.edge e).auto && (s.edge e).cur != 0 && (s.edge e).up && (s.edge e).train.isNone &&
        decide ((s.edge e).fbthr.toNat < ((s.edge e).recent.filter fun n => s.time < n + 65536000000).length) then
      (s.trainAt e ((s.edge e).cur - 1) 1).onEdge e fun y => { y with recent := [] } else s) := onUnit_of_present he _

theorem exec_edgeTrainingComplete {s : State} {e : Nat} (he : e < 4) (ok : Bool) : exec (.edgeTrainingComplete e ok) s = .next (s.trained e ok) :=
  onUnit_of_present he _

theorem edgesTrainAndStepDown : EdgesTrainAndStepDown := by
  intro s e he
  refine ⟨fun r hr => ⟨?_, fun h0 hw hf => ?_, fun hw hf => ?_⟩, fun ok hn => ?_, fun ha hc hu hn hf => ?_, fun h => ?_⟩
  · obtain ⟨code, ht⟩ := State.trained_of_ok hr
    have hrec := State.sameUnits_linkRecord (s.onEdge e fun x => { x with
        cur := r
        up := true
        train := none
        fails := 0
        tgt := if x.why = 2 then x.tgt else r
        degr := x.degr || decide (r.toNat < (s.edge e).cur.toNat) }) e code (s.edge e) (if code = 0 then [] else edgeDies e)
    refine ⟨_, (exec_edgeTrainingComplete he true).trans (congrArg Host.Outcome.next ht), sameButEdge_trans (sameButEdge_onEdge s e _) (hrec.sameButEdge e), ?_⟩
    rw [hrec.edge, State.edge_onEdge_self]
    exact ⟨rfl, rfl, rfl, rfl, rfl⟩
  · refine ⟨_, (exec_edgeTrainingComplete he false).trans (congrArg Host.Outcome.next (State.trained_of_failed_write hr h0 hw hf)),
      sameButEdge_onEdge s e _, ?_⟩
    rw [State.edge_onEdge_self]
    exact ⟨rfl, rfl, rfl, rfl, rfl⟩
  · refine ⟨_, (exec_edgeTrainingComplete he false).trans (congrArg Host.Outcome.next (State.trained_of_failed_boot hr hw hf)), ?_⟩
    by_cases h0 : r = 0
    · rw [if_pos h0, State.trainAt, State.edge_onEdge_self, State.edge_onEdge_self]
      exact ⟨sameButEdge_trans (sameButEdge_onEdge s e _) (sameButEdge_onEdge _ e _), rfl, rfl, rfl⟩
    · rw [if_neg h0, State.trainAt, State.edge_onEdge_self]
      exact ⟨sameButEdge_onEdge s e _, rfl, rfl, rfl⟩
  · rw [exec_edgeTrainingComplete he, State.trained, hn]
  · rw [exec_automaticStepDown he, if_pos (by simp only [ha, bne_iff_ne.2 hc, hu, hn, hf, Option.isNone_none, decide_true, Bool.and_true])]
    refine ⟨_, rfl, sameButEdge_trans (sameButEdge_onEdge s e _) (sameButEdge_onEdge _ e _), ?_, rfl⟩
    rw [State.edge_onEdge_self, State.trainAt, State.edge_onEdge_self]
  · rw [exec_automaticStepDown he, if_neg]
    rintro hall
    simp only [Bool.and_eq_true, bne_iff_ne, decide_eq_true_eq] at hall
    obtain ⟨⟨⟨⟨ha, hc⟩, -⟩, -⟩, hf⟩ := hall
    rcases h with h | h | h
    · rw [h] at ha
      nomatch ha
    · exact hc h
    · exact Nat.not_lt.2 h hf

/-! ### Errors (R332, R399) -/

theorem toNat_satInc {w : Nat} (v : BitVec w) : (satInc v).toNat = min (v.toNat + 1) (2 ^ w - 1) := by
  have hv := v.isLt
  rw [satInc]
  split
  · next h =>
    rw [h, BitVec.toNat_allOnes]
    omega
  · next h =>
    have hne : v.toNat ≠ 2 ^ w - 1 := fun hn => h (BitVec.eq_of_toNat_eq (by rw [hn, BitVec.toNat_allOnes]))
    rw [show v + 1 = v + BitVec.ofNat w 1 from rfl, BitVec.toNat_add, BitVec.toNat_ofNat, Nat.add_mod_mod, Nat.mod_eq_of_lt (by omega)]
    omega

/-- A module's width code that is not the last leaves room for one more, without a carry into the next module's. -/
theorem mods_add_lt {n m : Nat} (hn : n < 2 ^ 24) (hm : m < 12) (h : n / 4 ^ m % 4 < 3) : n + 4 ^ m < 2 ^ 24 := by
  interval_cases m <;> omega

/-- The loss of lanes of a module that is left in service: its width code, the record of it, and the training that follows. -/
theorem moduleWidthHalving_of_left {s : State} {e m : Nat} (he : e < 4) (hm : m < 12) (hw : (s.edge e).mods.toNat / 4 ^ m % 4 < 3)
    (hl : (s.edge e).mods.toNat + 4 ^ m ≠ 2 ^ 24 - 1) :
    ∃ t, exec (.moduleWidthHalving e m) s = .next t ∧ SameButEdge s t e ∧ (t.edge e).mods.toNat = (s.edge e).mods.toNat + 4 ^ m ∧
      (t.edge e).degr = true ∧ ((s.edge e).down = false → (t.edge e).train = some (s.edge e).cur) := by
  let halved := s.onEdge e fun x => { x with mods := x.mods + BitVec.ofNat 24 (4 ^ m), degr := true }
  have hrec := State.sameUnits_linkRecord halved e 3 (s.edge e) (edgeDies e)
  have hedge : (halved.linkRecord e 3 (s.edge e) (edgeDies e)).edge e = { s.edge e with mods := (s.edge e).mods + BitVec.ofNat 24 (4 ^ m), degr := true } := by
    rw [hrec.edge, State.edge_onEdge_self]
  have hlt := mods_add_lt (s.edge e).mods.isLt hm hw
  have hmods : ((s.edge e).mods + BitVec.ofNat 24 (4 ^ m)).toNat = (s.edge e).mods.toNat + 4 ^ m := by
    rw [BitVec.toNat_add, BitVec.toNat_ofNat, Nat.add_mod_mod, Nat.mod_eq_of_lt hlt]
  have hsame : SameButEdge s (halved.linkRecord e 3 (s.edge e) (edgeDies e)) e := sameButEdge_trans (sameButEdge_onEdge s e _) (hrec.sameButEdge e)
  have hexec : exec (.moduleWidthHalving e m) s = .next (if (s.edge e).down then halved.linkRecord e 3 (s.edge e) (edgeDies e)
      else (halved.linkRecord e 3 (s.edge e) (edgeDies e)).trainAt e (s.edge e).cur (if (s.edge e).live then 3 else 0)) := by
    refine (onUnit_of_present ⟨he, hm⟩ _).trans (congrArg Host.Outcome.next ?_)
    dsimp only
    rw [if_neg (by rw [Edge.width]; omega), hedge, hmods, if_neg hl]
  refine ⟨_, hexec, ?_⟩
  by_cases hd : (s.edge e).down = true
  · rw [if_pos hd, hedge]
    exact ⟨hsame, hmods, rfl, fun h => by rw [h] at hd; nomatch hd⟩
  · rw [if_neg hd, State.trainAt, State.edge_onEdge_self, hedge]
    exact ⟨sameButEdge_trans hsame (sameButEdge_onEdge _ e _), hmods, rfl, fun _ => rfl⟩

theorem edgeErrorsAreCounted : EdgeErrorsAreCounted := by
  intro s e he
  refine ⟨fun hu => ?_, ?_, fun m hm hw hl => moduleWidthHalving_of_left he hm hw hl, onUnit_of_present he s⟩
  · refine ⟨(s.replay e).onEdge e fun x => { x with crcerr := satInc x.crcerr }, ?_, ?_⟩
    · refine (onUnit_of_present he _).trans (congrArg Host.Outcome.next (if_pos hu))
    · rw [State.edge_onEdge_self, State.replay, State.edge_onEdge_self]
      exact ⟨sameButEdge_trans (sameButEdge_onEdge s e _) (sameButEdge_onEdge _ e _), rfl, toNat_satInc _, toNat_satInc _, rfl⟩
  · refine ⟨_, onUnit_of_present he _, sameButEdge_onEdge s e _, rfl, ?_⟩
    rw [State.edge_onEdge_self]
    exact ⟨toNat_satInc _, rfl⟩

/-! ### The loss of an edge (R12, R400, R401) -/

/-- The dies one edge away, while the edges named true are down. -/
def spreadOver (down : Nat → Bool) (l : List Nat) : List Nat :=
  [0, 1, 2, 3].foldl (fun acc e =>
    if down e then acc else
    let (a, b) := edgeEnds e
    let acc := if acc.contains a then insertNat acc b else acc
    if acc.contains b then insertNat acc a else acc) l

theorem State.spread_eq_spreadOver (s : State) : s.spread = spreadOver fun e => (s.edge e).down := rfl

/-- Only the four edges of the package count. -/
theorem spreadOver_congr {f g : Nat → Bool} (h : ∀ e, e < 4 → f e = g e) : spreadOver f = spreadOver g := by
  funext l
  refine List.foldl_ext _ _ _ fun acc e he => ?_
  have he4 : e < 4 := by simp only [List.mem_cons, List.not_mem_nil, or_false] at he; omega
  rw [h e he4]

/-- Over a ring with one edge out, or none, every die is reached. -/
theorem spreadOver_of_one_down : ∀ d : Fin 4, ∀ e : Fin 5,
    spreadOver (· == e.val) (spreadOver (· == e.val) (spreadOver (· == e.val) [d.val])) = [0, 1, 2, 3] := by
  decide

/-- With edge `e` down and no other, or with none down where `e` is 4, a die reaches every die. -/
theorem State.half_of_one_down {s : State} {e d : Nat} (hd : d < 4) (he : e ≤ 4) (h : ∀ f, f < 4 → (s.edge f).down = (f == e)) :
    s.half d = [0, 1, 2, 3] := by
  rw [State.half, s.spread_eq_spreadOver, spreadOver_congr h]
  exact spreadOver_of_one_down ⟨d, hd⟩ ⟨e, by omega⟩

/-- An edge that is lost, and the records of it, before what a cut of the package brings. -/
def State.unlinked (s : State) (e : Nat) : State :=
  let t := s.onEdge e fun x => { x with down := true, up := false, cur := 0, degr := true, train := none, downAt := some s.time }
  let u := { t with epoch := t.epoch + 1 }
  u.linkRecord e 4 (s.edge e) ([0, 1, 2, 3].filter fun d => (edgeDies e).contains d || [0, 1].any fun p => u.portSees p d)

theorem State.edgeLost_eq (s : State) (e : Nat) (h : (s.edge e).down = false) :
    s.edgeLost e = if [0, 1, 2, 3].map (s.unlinked e).half = [0, 1, 2, 3].map s.half then s.unlinked e
      else (s.unlinked e).cutPackage e (s.edge e) := by
  rw [State.edgeLost, if_neg (by rw [h]; exact Bool.false_ne_true)]
  rfl

/-- The edge, the others and the count after the loss. -/
theorem State.unlinked_parts (s : State) (e : Nat) :
    (s.unlinked e).edge e = { s.edge e with down := true, up := false, cur := 0, degr := true, train := none, downAt := some s.time } ∧
    (∀ f, f ≠ e → (s.unlinked e).edge f = s.edge f) ∧ (s.unlinked e).epoch = s.epoch + 1 := by
  rw [State.unlinked.eq_def]
  extract_lets t u
  have hu := u.sameUnits_linkRecord e 4 (s.edge e) ([0, 1, 2, 3].filter fun d => (edgeDies e).contains d || [0, 1].any fun p => u.portSees p d)
  have hs := u.sameSite_linkRecord e 4 (s.edge e) ([0, 1, 2, 3].filter fun d => (edgeDies e).contains d || [0, 1].any fun p => u.portSees p d)
  refine ⟨(hu.edge e).trans ((show u.edge e = t.edge e from rfl).trans (State.edge_onEdge_self s e _)), fun f hf => (hu.edge f).trans ?_, hs.epoch⟩
  exact (show u.edge f = t.edge f from rfl).trans (State.edge_onEdge_ne s _ hf)

theorem State.edgeLost_of_down {s : State} {e : Nat} (h : (s.edge e).down = true) : s.edgeLost e = s := by
  rw [State.edgeLost, if_pos h]

/-- A lost edge is out of service for good, whatever the loss cuts. -/
theorem State.edgeLost_parts {s : State} {e : Nat} (h : (s.edge e).down = false) :
    ((s.edgeLost e).edge e).down = true ∧ ((s.edgeLost e).edge e).up = false ∧ ((s.edgeLost e).edge e).cur = 0 ∧
      ((s.edgeLost e).edge e).train = none ∧ ((s.edgeLost e).edge e).mods = (s.edge e).mods ∧ (s.edgeLost e).epoch = s.epoch + 1 := by
  obtain ⟨hedge, -, hepoch⟩ := s.unlinked_parts e
  have hsite : (s.unlinked e).SameSite (s.edgeLost e) := by
    rw [s.edgeLost_eq e h]
    exact State.sameSite_ite (State.sameSite_refl _) (State.sameSite_cutPackage _ _ _)
  have hc := hsite.edges e
  rw [hedge] at hc
  have hmods := congrArg Edge.mods hc
  exact ⟨congrArg Edge.down hc, congrArg Edge.up hc, congrArg Edge.cur hc, congrArg Edge.train hc, hmods, hsite.epoch.trans hepoch⟩

/-- The first edge to be lost cuts nothing. -/
theorem State.edgeLost_of_whole {s : State} {e : Nat} (he : e < 4) (h : ∀ f, f < 4 → (s.edge f).down = false) : s.edgeLost e = s.unlinked e := by
  obtain ⟨hedge, hothers, -⟩ := s.unlinked_parts e
  have hbefore : ∀ d, d < 4 → s.half d = [0, 1, 2, 3] := fun d hd => State.half_of_one_down (e := 4) hd (by omega) fun f hf => by
    rw [h f hf, beq_eq_false_iff_ne.2 (by omega)]
  have hafter : ∀ d, d < 4 → (s.unlinked e).half d = [0, 1, 2, 3] := fun d hd => State.half_of_one_down (e := e) hd (by omega) fun f hf => by
    by_cases hfe : f = e
    · rw [hfe, hedge, beq_self_eq_true]
    · rw [hothers f hfe, h f hf, beq_eq_false_iff_ne.2 hfe]
  rw [s.edgeLost_eq e (h e he), if_pos]
  refine List.map_congr_left fun d hd => ?_
  have hd4 : d < 4 := by simp only [List.mem_cons, List.not_mem_nil, or_false] at hd; omega
  rw [hafter d hd4, hbefore d hd4]

/-! ### The write-off after a loss (R397, R400) -/

/-- A route of a pair, as the write-off reads it, used an edge. -/
theorem usedAt_iff {s : State} {a b e n : Nat} :
    ((routeOver (fun m => match (s.edge m).downAt with | some u => decide (n ≤ u) | none => true) a b).getD []).contains e = true ↔ UsedAt s a b e n := by
  rw [UsedAt]
  cases routeOver (fun m => match (s.edge m).downAt with | some u => decide (n ≤ u) | none => true) a b with
  | none => simp
  | some l => simp

/-- The times of a loss at least 100 µs ago on a route of the pair are those that count. -/
theorem State.mem_rerouted {s : State} {a b n : Nat} : n ∈ s.rerouted a b ↔
    ∃ e, e < 4 ∧ (s.edge e).downAt = some n ∧ n + 6553600000 ≤ s.time ∧ (UsedAt s a b e n ∨ UsedAt s b a e n) := by
  have hmem : ∀ e, e ∈ [0, 1, 2, 3] ↔ e < 4 := fun e => by simp only [List.mem_cons, List.not_mem_nil, or_false]; omega
  simp only [State.rerouted, List.mem_filterMap, hmem, Option.bind_eq_some_iff, Option.ite_none_right_eq_some, Bool.or_eq_true]
  constructor
  · rintro ⟨e, he, t, ht, ⟨hold, hused⟩, heq⟩
    cases heq
    exact ⟨e, he, ht, hold, hused.imp usedAt_iff.1 usedAt_iff.1⟩
  · rintro ⟨e, he, hn, hold, hused⟩
    exact ⟨e, he, n, hn, ⟨hold, hused.imp usedAt_iff.2 usedAt_iff.2⟩, rfl⟩

/-- A strand with no load outstanding loses none. -/
theorem State.cutLoad_of_idle {s : State} (b t0 k : Nat) (h : ∀ st, s.strand k = some st → st.lq = []) : s.cutLoad b t0 k = s := by
  rw [State.cutLoad]
  split
  · rfl
  · next st hst => rw [h st hst]

/-- Whose accesses are written off: those of die `a` at die `b` of the package, from before one of these times. -/
def Ack.writeOff (b : Nat) (l : List Nat) (y : Ack) : Ack := if y.home = b && !y.pkg && l.any (y.at_ ≤ ·) then { y with lost := true } else y

/-- With no load outstanding, the write-off reaches the accesses that wait for their acknowledgement alone. -/
theorem exec_rerouteTimeout_of_used {s : State} {a b : Nat} (ha : a < 4) (hb : b < 4) (hne : a ≠ b) (hat : s.rerouted a b ≠ [])
    (hlq : ∀ k st, s.strand k = some st → st.lq = []) :
    exec (.rerouteTimeout a b) s = .next (s.onDie a fun x => { x with acks := x.acks.map fun y => (y.1, y.2.writeOff b (s.rerouted a b)) }) := by
  refine (onUnit_of_present ⟨ha, hb⟩ _).trans (congrArg Host.Outcome.next ?_)
  dsimp only
  rw [if_neg (by rw [List.isEmpty_iff]; exact not_or.2 ⟨hne, hat⟩)]
  have hacks : ∀ x : Die, (x.acks.map fun y => if y.2.home = b && !y.2.pkg && (s.rerouted a b).any (y.2.at_ ≤ ·) then (y.1, { y.2 with lost := true }) else y) =
      x.acks.map fun y => (y.1, y.2.writeOff b (s.rerouted a b)) := by
    refine fun x => List.map_congr_left fun y _ => ?_
    rw [Ack.writeOff]
    split <;> rfl
  simp only [hacks]
  refine List.foldlRecOn (motive := fun t => t = _) _ _ rfl fun t ht k _ => ?_
  rw [ht]
  exact State.cutLoad_of_idle _ _ _ fun st hst => hlq k st hst

theorem lostEdgesAreWrittenOff : LostEdgesAreWrittenOff := by
  refine ⟨fun s e he hd => ?_, fun s e he hd => ?_, fun s a b ha hb hn => ?_, fun s a b e n ha hb hne he hdown hold hused hlq => ?_⟩
  · exact (onUnit_of_present he _).trans (congrArg Host.Outcome.next (State.edgeLost_of_down hd))
  · obtain ⟨h1, h2, h3, h4, h5, h6⟩ := State.edgeLost_parts hd
    refine ⟨_, onUnit_of_present he _, h1, h2, h3, h4, h5, h6, fun hall => ?_⟩
    obtain ⟨hedge, hothers, -⟩ := s.unlinked_parts e
    rw [State.edgeLost_of_whole he hall]
    exact ⟨by rw [hedge], hothers⟩
  · have hat : s.rerouted a b = [] := List.eq_nil_iff_forall_not_mem.2 fun n hm => by
      obtain ⟨e, he, hdown, hold, hused⟩ := State.mem_rerouted.1 hm
      obtain ⟨h1, h2⟩ := hn e he n hdown hold
      exact hused.elim h1 h2
    refine (onUnit_of_present ⟨ha, hb⟩ _).trans (congrArg Host.Outcome.next ?_)
    dsimp only
    rw [if_pos (.inr (by rw [hat]; rfl))]
  · have hmem : n ∈ s.rerouted a b := State.mem_rerouted.2 ⟨e, he, hdown, hold, hused⟩
    refine ⟨_, exec_rerouteTimeout_of_used ha hb hne (List.ne_nil_of_mem hmem) hlq, rfl, rfl, fun x y hy hh hp ht => ?_⟩
    rw [State.die_onDie_self, Tab.find_mapVal (fun _ (y : Ack) => y.writeOff b (s.rerouted a b)), hy, Option.map_some, Ack.writeOff, if_pos]
    simp only [hh, hp, decide_true, Bool.not_false, Bool.true_and, List.any_eq_true, decide_eq_true_eq]
    exact ⟨n, hmem, ht⟩

end Sys2Proof.Machine

namespace Sys2Proof

open Machine

/-- Settles O54: the edges' events by what each changes of its edge, the fall-back to 32 GT/s being the model's choice (notes/assumptions/21); a
loss by what a cut keeps of the package, the first cutting nothing; the write-off by the routes that used a lost edge (R332 to R334, R397 to R401). -/
theorem dieEdges : Obligations.DieEdges := ⟨rateWritesNeedTheSemaphore, edgesTrainAndStepDown, edgeErrorsAreCounted, lostEdgesAreWrittenOff⟩

end Sys2Proof
end

section
/-! PROOF of O52: invalidations, answers to page requests and cache sweeps (R253, R254, R325, R326, R331, R418, R419). -/

namespace Sys2Proof.Machine

open Sys2Proof.Claims

/-- A bit set or cleared in a register reads so. -/
theorem State.getLsbD_reg_setField_bit (s : State) (d off i : Nat) (b : Bool) (hi : i < 64) :
    ((s.setField d off i 1 b.toNat).reg d off).getLsbD i = b := by
  rw [State.reg_setField, getLsbD_putBits _ _ _ (by omega), if_pos (by omega), Nat.sub_self]
  cases b <;> rfl

/-- A bit beside one that is set or cleared. -/
theorem State.getLsbD_reg_setField_ne (s : State) (d off v : Nat) {i j : Nat} (hj : j < 64) (h : i ≠ j) :
    ((s.setField d off j 1 v).reg d off).getLsbD i = (s.reg d off).getLsbD i := by
  rw [State.reg_setField, getLsbD_putBits _ _ _ (by omega), if_neg (by omega)]

/-! ### Invalidations (R325, R326) -/

/-- What an invalidation covers, by the fields of its control word. -/
theorem invCovers_iff (va : Nat) (ctl : Word) (t : Tlb) : invCovers va ctl t = true ↔
    ctl.getLsbD 4 = true ∨ t.ctx = ctl.toNat / 2 ^ 16 % 2 ^ 16 ∧
      (ctl.toNat / 2 ^ 32 = 0 ∨ t.va < va + 4096 * (ctl.toNat / 2 ^ 32) ∧ va < t.va + t.size) := by
  have h32 : bits ctl 32 32 = ctl.toNat / 2 ^ 32 := by
    have := ctl.isLt
    rw [bits_eq]
    omega
  rw [invCovers, h32, bits_eq]
  simp only [Bool.or_eq_true, Bool.and_eq_true, beq_iff_eq, decide_eq_true_eq]

theorem exec_invalidation {s : State} {d : Nat} (hd : d < 4) (h3 : (s.die d).state = 3) : exec (.invalidation d) s = .next (s.goInv d) := by
  refine (onUnit_of_present hd _).trans (congrArg Host.Outcome.next ?_)
  rw [State.dieUp, h3]
  rfl

/-- A GO while nothing is BUSY. -/
theorem invalidation_of_idle {s : State} {d : Nat} (hd : d < 4) (h3 : (s.die d).state = 3) (hb : (s.reg d 0x618).getLsbD 1 = false) :
    ∃ t, exec (.invalidation d) s = .next t ∧ (t.reg d 0x618).getLsbD 1 = true ∧
      (t.die d).inv = some ((s.reg d 0x610).toNat / 4096 % 2 ^ 44 * 4096, s.reg d 0x618) ∧ (t.die d).tlb = (s.die d).tlb ∧ SameButDie s t d := by
  refine ⟨(s.setField d 0x618 1 1 1).onDie d fun x => { x with inv := some (bits (s.reg d 0x610) 12 44 * 4096, s.reg d 0x618) }, ?_, ?_, ?_, ?_, ?_⟩
  · rw [exec_invalidation hd h3, State.goInv, hb]
    rfl
  · rw [State.reg, State.die_onDie_self]
    exact s.getLsbD_reg_setField_bit d 0x618 1 true (by omega)
  · rw [State.die_onDie_self, bits_eq]
    rfl
  · rw [State.die_onDie_self, State.setField, State.setReg, State.die_onDie_self]
  · exact sameButDie_trans (sameButDie_setField _ _ _ _ _ _) (sameButDie_onDie _ _ _)

/-- The state that the completion of an invalidation leaves: BUSY 0 and DONE 1, and no translation that it covers. -/
def State.invalidated (s : State) (d va : Nat) (ctl : Word) : State :=
  ((s.onDie d fun x => { x with
      inv := none
      ats := []
      tlb := x.tlb.filter fun t => !invCovers va ctl t
      steps := x.steps.filter fun t => !invSteps va ctl t }).setField d 0x618 1 1 0).setField d 0x618 3 1 1

theorem exec_invalidationComplete {s : State} {d va : Nat} {ctl : Word} (hd : d < 4) (hi : (s.die d).inv = some (va, ctl)) :
    exec (.invalidationComplete d) s =
      .next (if (s.die d).copies.any fun e => e.2.uses va ctl then s else s.invalidated d va ctl) := by
  refine (onUnit_of_present hd _).trans (congrArg Host.Outcome.next ?_)
  rw [hi]
  rfl

theorem State.invalidated_parts (s : State) (d va : Nat) (ctl : Word) :
    ((s.invalidated d va ctl).die d).ats = [] ∧ ((s.invalidated d va ctl).reg d 0x618).getLsbD 1 = false ∧
      ((s.invalidated d va ctl).reg d 0x618).getLsbD 3 = true ∧ SameButDie s (s.invalidated d va ctl) d ∧
      ((s.invalidated d va ctl).die d).steps = (s.die d).steps.filter (fun t => !invSteps va ctl t) ∧
      ((s.invalidated d va ctl).die d).tlb = (s.die d).tlb.filter fun t => !invCovers va ctl t := by
  rw [State.invalidated]
  refine ⟨?_, ?_, State.getLsbD_reg_setField_bit _ d 0x618 3 true (by omega),
    sameButDie_trans (sameButDie_onDie s d _) (sameButDie_trans (sameButDie_setField _ _ _ _ _ _) (sameButDie_setField _ _ _ _ _ _)), ?_, ?_⟩
  · simp only [State.setField, State.setReg, State.die_onDie_self]
  · rw [State.getLsbD_reg_setField_ne _ _ _ _ (by omega) (by omega)]
    exact State.getLsbD_reg_setField_bit _ d 0x618 1 false (by omega)
  · simp only [State.setField, State.setReg, State.die_onDie_self]
  · simp only [State.setField, State.setReg, State.die_onDie_self]

theorem invalidationRemovesWhatItCovers : InvalidationRemovesWhatItCovers := by
  refine ⟨fun s d hd h3 => ⟨fun hb => ?_, invalidation_of_idle hd h3⟩, fun s d va ctl hd hi hu => ?_, fun s d va ctl hd hi hu => ?_⟩
  · rw [exec_invalidation hd h3, State.goInv, if_pos hb]
  · rw [exec_invalidationComplete hd hi, if_pos (List.any_eq_true.2 hu)]
  · obtain ⟨ha, h1, h3, hsame, hsteps, htlb⟩ := s.invalidated_parts d va ctl
    have hnone : ¬((s.die d).copies.any fun e => e.2.uses va ctl) = true := by
      rw [List.any_eq_true]
      rintro ⟨e, he, huse⟩
      rw [hu e he] at huse
      nomatch huse
    refine ⟨_, by rw [exec_invalidationComplete hd hi, if_neg hnone], ha, h1, h3, hsame, fun x => ?_, fun x => ?_⟩
    · rw [hsteps, List.mem_filter, Bool.not_eq_true', ← Bool.not_eq_true, invSteps, invCovers_iff]
    · rw [htlb, List.mem_filter, Bool.not_eq_true', ← Bool.not_eq_true, invCovers_iff]

/-! ### Page requests (R331, R418, R419) -/

/-- While no strand of a die is being stopped, none comes to its save. -/
theorem State.settleAll_of_none {s : State} {d : Nat} (h : NoneStops s d) : s.settleAll d = s := by
  rw [State.settleAll, List.filter_eq_nil_iff.2]
  · rfl
  · intro e he hs
    simp only [Bool.and_eq_true, beq_iff_eq] at hs
    rw [h e he hs.1] at hs
    nomatch hs.2

/-- What an answer does to the requests that it reaches. -/
theorem State.priSet_of_none {s : State} {d : Nat} (h : NoneStops s d) (f : Pri → Bool) (a : Nat) :
    s.priSet d f a = s.onDie d fun x => { x with pri := x.pri.filterMap fun q => if f q = true ∧ q.ans = none then answered q a else some q } := by
  rw [State.priSet, State.settleAll_of_none (s := s.onDie d _) h]
  simp only [answered, Bool.and_eq_true, Option.isNone_iff_eq_none]

theorem exec_priAnswer_of_none {s : State} {d grp : Nat} {gen : BitVec 16} (hd : d < 4) (code : Nat)
    (h : (s.die d).pri.find? (fun p => p.grp == grp && p.gen == gen && p.ans.isNone) = none) :
    exec (.priAnswer d grp gen code) s = .next (s.bumpField d 0x630 48 16 1) := by
  refine (onUnit_of_present hd _).trans (congrArg Host.Outcome.next ?_)
  dsimp only
  rw [h]

theorem exec_priAnswer_of_some {s : State} {d grp : Nat} {gen : BitVec 16} {p : Pri} (hd : d < 4) (code : Nat)
    (h : (s.die d).pri.find? (fun p => p.grp == grp && p.gen == gen && p.ans.isNone) = some p) :
    exec (.priAnswer d grp gen code) s = .next (if code = 0 ∨ code = 1 then s.priSet d (fun p => p.grp == grp && p.gen == gen && p.ans.isNone) code
      else (s.onDie d fun x => { x with priDis := insertNat x.priDis p.ctx }).priSet d (fun q => q.ctx == p.ctx) 2) := by
  refine (onUnit_of_present hd _).trans (congrArg Host.Outcome.next ?_)
  dsimp only
  rw [h]

section
variable {s : State} {d : Nat} (hd : d < 4) (hs : NoneStops s d)
include hd

/-- An answer that matches no request is counted. -/
theorem priAnswer_of_stray {grp : Nat} {gen : BitVec 16} (code : Nat)
    (h : ∀ p ∈ (s.die d).pri, p.grp = grp → p.gen = gen → p.ans.isSome = true) :
    ∃ t, exec (.priAnswer d grp gen code) s = .next t ∧ (t.die d).pri = (s.die d).pri ∧
      (t.reg d 0x630).toNat / 2 ^ 48 = min ((s.reg d 0x630).toNat / 2 ^ 48 + 1) 65535 ∧ SameButDie s t d := by
  have hnone : (s.die d).pri.find? (fun p => p.grp == grp && p.gen == gen && p.ans.isNone) = none := by
    refine List.find?_eq_none.2 fun p hp hm => ?_
    simp only [Bool.and_eq_true, beq_iff_eq] at hm
    have hans := h p hp hm.1.1 hm.1.2
    rw [Option.isSome_iff_ne_none] at hans
    exact hans (Option.isNone_iff_eq_none.1 hm.2)
  refine ⟨_, exec_priAnswer_of_none hd code hnone, ?_, ?_, sameButDie_setField _ _ _ _ _ _⟩
  · rw [State.bumpField, State.setField, State.setReg, State.die_onDie_self]
  · have hw := (s.reg d 0x630).isLt
    rw [State.toNat_reg_bumpField _ _ _ _ (by omega)]
    omega

include hs

/-- An answer of its request, or a Response Failure, which reaches each request of its context. -/
theorem priAnswer_of_match {grp : Nat} {gen : BitVec 16} {p : Pri} (code : Nat)
    (h : (s.die d).pri.find? (fun p => p.grp == grp && p.gen == gen && p.ans.isNone) = some p) :
    ∃ t, exec (.priAnswer d grp gen code) s = .next t ∧ SameButDie s t d ∧
      (code ≤ 1 → (t.die d).priDis = (s.die d).priDis ∧ (t.die d).pri = (s.die d).pri.filterMap fun q =>
        if q.grp = grp ∧ q.gen = gen ∧ q.ans = none then answered q code else some q) ∧
      (2 ≤ code → p.ctx ∈ (t.die d).priDis ∧ (t.die d).pri = (s.die d).pri.filterMap fun q =>
        if q.ctx = p.ctx ∧ q.ans = none then answered q 2 else some q) := by
  refine ⟨_, exec_priAnswer_of_some hd code h, ?_⟩
  by_cases hc : code = 0 ∨ code = 1
  · rw [if_pos hc, State.priSet_of_none hs]
    refine ⟨sameButDie_onDie s d _, fun _ => ?_, fun h2 => by omega⟩
    rw [State.die_onDie_self]
    refine ⟨rfl, ?_⟩
    simp only [Bool.and_eq_true, beq_iff_eq, Option.isNone_iff_eq_none, and_assoc, and_self]
  · rw [if_neg hc, State.priSet_of_none (s := s.onDie d _) hs]
    refine ⟨sameButDie_trans (sameButDie_onDie s d _) (sameButDie_onDie _ d _), fun h1 => by omega, fun _ => ?_⟩
    rw [State.die_onDie_self, State.die_onDie_self]
    refine ⟨mem_insertNat _ _, ?_⟩
    simp only [beq_iff_eq]

/-- A request without an answer ends once its time is over, and not before. -/
theorem priTimeout_of_open {r : Nat} {p : Pri} (hp : (s.die d).pri[r]? = some p) (ha : p.ans = none) :
    let ms := (s.reg d 0x630).toNat % 2 ^ 16
    (ms ≠ 0 → p.at_ + ms * 1000000 * 65536 ≤ s.time →
      ∃ t, exec (.priTimeout d r) s = .next t ∧ SameButDie s t d ∧
        (t.die d).pri = (s.die d).pri.filterMap fun q => if q = p then answered q 3 else some q) ∧
    (ms = 0 ∨ s.time < p.at_ + ms * 1000000 * 65536 → exec (.priTimeout d r) s = .next s) := by
  intro ms
  have hms : bits (s.reg d 0x630) 0 16 = ms := by rw [bits_eq, Nat.pow_zero, Nat.div_one]
  have hexec : exec (.priTimeout d r) s = .next (if ms = 0 ∨ s.time < p.at_ + ms * 1000000 * 65536 then s else s.priSet d (fun q => q == p) 3) := by
    refine (onUnit_of_present hd _).trans (congrArg Host.Outcome.next ?_)
    dsimp only
    rw [hp, hms]
    dsimp only
    rw [ha]
    simp only [Option.isSome_none, Bool.or_false, Bool.or_eq_true, decide_eq_true_eq]
  refine ⟨fun h0 ht => ?_, fun h => by rw [hexec, if_pos h]⟩
  refine ⟨_, hexec.trans (by rw [if_neg (by omega)]), ?_⟩
  rw [State.priSet_of_none hs, State.die_onDie_self]
  refine ⟨sameButDie_onDie s d _, List.filterMap_congr fun q _ => ?_⟩
  by_cases hq : q = p
  · rw [if_pos ⟨beq_iff_eq.2 hq, by rw [hq, ha]⟩, if_pos hq]
  · rw [if_neg (fun h => hq (beq_iff_eq.1 h.1)), if_neg hq]

end

/-- Clause by clause: answers, timeouts, CLR, and the invalidations of the host. -/
theorem pageRequestsAreAnswered : PageRequestsAreAnswered := by
  refine ⟨fun s d grp gen code hd hs => ⟨priAnswer_of_stray hd code, fun p hp => priAnswer_of_match hd hs code hp⟩,
    fun s d r p hd hs hp ha => priTimeout_of_open hd hs hp ha, fun s d hd h3 => ?_, fun s p pasid base pages hp => ?_⟩
  · refine ⟨s.goClr d, ?_, sameButDie_onDie s d _, ?_, fun c => ?_⟩
    · refine (onUnit_of_present hd _).trans (congrArg Host.Outcome.next ?_)
      rw [State.dieUp, h3]
      rfl
    · rw [State.goClr, State.die_onDie_self]
    · rw [State.goClr, State.die_onDie_self, List.mem_filter, bne_iff_ne, bits_eq]
  · refine ⟨_, onUnit_of_present hp _, ⟨⟨rfl, rfl, rfl, rfl, rfl, rfl, rfl⟩, fun e he => State.die_onDie_ne _ _ he⟩, fun x => ?_⟩
    refine Iff.trans (iff_of_eq (congrArg (x ∈ ·.ats) (State.die_onDie_self _ _ _))) ?_
    dsimp only
    rw [List.mem_filter, Bool.not_eq_true', ← Bool.not_eq_true]
    simp only [Bool.and_eq_true, beq_iff_eq, decide_eq_true_eq, and_assoc]
    rfl

/-! ### Cache sweeps (R253, R254) -/

theorem exec_cacheSweep {s : State} {d : Nat} (hd : d < 4) (h3 : (s.die d).state = 3) : exec (.cacheSweep d) s = .next (s.goSweep d) := by
  refine (onUnit_of_present hd _).trans (congrArg Host.Outcome.next ?_)
  rw [State.dieUp, h3]
  rfl

/-- The tiles of a die hold no sampled line and no line of a range. -/
def Swept (d : Nat) (f : Nat → Bool) (l : Tab Tile) : Prop := ∀ u ∈ l, u.1 / 24 = d → u.2.smp = [] ∧ ∀ x ∈ u.2.l1, f x.1 = false

theorem Tab.mem_of_find {α : Type} {t : Tab α} {a : Nat} {v : α} (h : Tab.find t a = some v) : (a, v) ∈ t := by
  induction t with
  | nil => nomatch h
  | cons e l ih =>
    rw [Tab.find] at h
    split at h
    · next he =>
      cases h
      rw [he]
      exact List.mem_cons_self
    · exact List.mem_cons_of_mem _ (ih h)

/-- The loss of a home's line brings no line into an L1. -/
theorem mem_refreshL1 {n : Nat} {b : List Byte} {l : Tab Line} {x : Nat × Line} (h : x ∈ refreshL1 n b l) : ∃ y ∈ l, y.1 = x.1 := by
  rw [refreshL1] at h
  split at h
  · exact ⟨x, h, rfl⟩
  · next c hc =>
    split at h
    · rcases Tab.mem_put h with rfl | hx
      · exact ⟨_, Tab.mem_of_find hc, rfl⟩
      · exact ⟨x, hx, rfl⟩
    · exact ⟨x, Tab.mem_del h, rfl⟩

theorem swept_loseLine {d : Nat} {f : Nat → Bool} {s : State} (h : Swept d f s.tiles) (x : Nat × Line) : Swept d f (s.loseLine x).tiles := by
  intro u hu hd
  rw [State.loseLine] at hu
  obtain ⟨v, hv, rfl⟩ := List.mem_map.1 hu
  obtain ⟨hs, hl⟩ := h v hv hd
  refine ⟨hs, fun y hy => ?_⟩
  obtain ⟨z, hz, heq⟩ := mem_refreshL1 hy
  rw [← heq]
  exact hl z hz

theorem State.tiles_writeBack (s : State) (n : Nat) (c : Line) : (s.writeBack n c).tiles = s.tiles := by
  rw [State.writeBack]
  split
  · exact (State.sameUnits_keepHome (s.dropL2 n []) n).tiles
  · rfl

theorem State.tiles_writeBacks (l : Tab Line) (s : State) : (s.writeBacks l).tiles = s.tiles := by
  induction l generalizing s with
  | nil => rfl
  | cons e l ih => exact (ih _).trans (s.tiles_writeBack e.1 e.2)

theorem mem_dieTiles {s : State} {d : Nat} {f : Tile → Tile} {u : Nat × Tile} (h : u ∈ (s.dieTiles d f).tiles) (hd : u.1 / 24 = d) :
    ∃ v ∈ s.tiles, v.1 = u.1 ∧ u.2 = f v.2 := by
  obtain ⟨v, hv, rfl⟩ := List.mem_map.1 h
  refine ⟨v, hv, ?_⟩
  by_cases hvd : v.1 / 24 = d
  · rw [if_pos hvd]
    exact ⟨rfl, rfl⟩
  · rw [if_neg hvd] at hd
    exact absurd hd hvd

/-- No line of the range is left in the caches of the die, nor as a tensor record's line. -/
theorem State.sweepLines_parts (s : State) (d : Nat) (wb : Bool) (f : Nat → Bool) :
    Swept d f (s.sweepLines d wb f).tiles ∧ (∀ x ∈ ((s.sweepLines d wb f).die d).l2, f x.1 = false) ∧
      ∀ x ∈ (s.sweepLines d wb f).recLines, f x = false := by
  rw [State.sweepLines.eq_def]
  extract_lets plain own l1 written cleaned l2 lost
  have hwritten : written.tiles = plain.tiles := by
    by_cases hw : wb = true
    · exact (congrArg State.tiles (if_pos hw)).trans (State.tiles_writeBacks l1 plain)
    · exact congrArg State.tiles (if_neg hw)
  have hcleaned : Swept d f cleaned.tiles := by
    intro u hu hd
    obtain ⟨v, hv, hk, hv2⟩ := mem_dieTiles hu hd
    rw [hwritten] at hv
    obtain ⟨w, -, -, hw2⟩ := mem_dieTiles hv (hk ▸ hd)
    rw [hv2, hw2]
    exact ⟨rfl, fun x hx => by simpa using (List.mem_filter.1 hx).2⟩
  have hlost : Swept d f lost.tiles := by
    by_cases hw : wb = true
    · have hl : lost = cleaned := if_pos hw
      rw [hl]
      exact hcleaned
    · have hl : lost = (l2.filter fun x => homeOf x.1 == d).foldl State.loseLine cleaned := if_neg hw
      rw [hl]
      exact List.foldlRecOn (motive := fun (t : State) => Swept d f t.tiles) _ _ hcleaned fun t h x _ => swept_loseLine h x
  refine ⟨hlost, fun x hx => ?_, fun x hx => by simpa using (List.mem_filter.1 hx).2⟩
  rw [State.die_onDie_self] at hx
  simpa using (List.mem_filter.1 hx).2

section
variable {s : State} {d : Nat} (hd : d < 4) (h3 : (s.die d).state = 3) (hb : (s.reg d 0x110).getLsbD 1 = false)
include hd h3 hb

/-- A GO for a die whose lines this one does not import. -/
theorem cacheSweep_of_foreign {home : Nat} (hh : home = (s.reg d 0x110).toNat / 64 % 4) (hne : home ≠ d) (hi : s.importsFrom d home = false) :
    ∃ t, exec (.cacheSweep d) s = .next t ∧ (t.reg d 0x110).getLsbD 2 = true ∧ (t.reg d 0x110).getLsbD 3 = true ∧ SameButDie s t d := by
  have hbits : bits (s.reg d 0x110) 6 2 = home := (bits_eq _ _ _).trans hh.symm
  refine ⟨(s.setField d 0x110 2 1 1).setField d 0x110 3 1 1, ?_, ?_, ?_, ?_⟩
  · rw [exec_cacheSweep hd h3, State.goSweep]
    simp only [hb, hbits, hi, hne, Bool.not_false, Bool.false_eq_true, if_false, ne_eq, not_false_eq_true, and_self, true_or, if_true]
  · rw [State.getLsbD_reg_setField_ne _ _ _ _ (by omega) (by omega)]
    exact s.getLsbD_reg_setField_bit d 0x110 2 true (by omega)
  · exact State.getLsbD_reg_setField_bit _ d 0x110 3 true (by omega)
  · exact sameButDie_trans (sameButDie_setField _ _ _ _ _ _) (sameButDie_setField _ _ _ _ _ _)

/-- A GO for the die's own memory. -/
theorem cacheSweep_of_own {n pa : Nat} (hn : n = (s.reg d 0x108).toNat % 2 ^ 32 * 4096) (hp : pa = (s.reg d 0x100).toNat / 4096 % 2 ^ 40 * 4096)
    (hh : (s.reg d 0x110).toNat / 64 % 4 = d) (hfit : pa + n ≤ 2 ^ 52) (h0 : n ≠ 0) :
    ∃ t, exec (.cacheSweep d) s = .next t ∧ (t.reg d 0x110).getLsbD 1 = true ∧
      (∀ x ∈ (t.die d).l2, inSweep d pa n x.1 = false) ∧ (∀ x ∈ t.recLines, inSweep d pa n x = false) ∧
      ∀ u ∈ t.tiles, u.1 / 24 = d → u.2.smp = [] ∧ ∀ x ∈ u.2.l1, inSweep d pa n x.1 = false := by
  have hhome : bits (s.reg d 0x110) 6 2 = d := (bits_eq _ _ _).trans hh
  have hlen : bits (s.reg d 0x108) 0 32 * 4096 = n := by rw [bits_eq, Nat.pow_zero, Nat.div_one, hn]
  have hpa : bits (s.reg d 0x100) 12 40 * 4096 = pa := by rw [bits_eq]; exact hp.symm
  obtain ⟨htiles, hl2, hrec⟩ := s.sweepLines_parts d ((s.reg d 0x110).getLsbD 5) (inSweep d pa n)
  refine ⟨(s.sweepLines d ((s.reg d 0x110).getLsbD 5) (inSweep d pa n)).setField d 0x110 1 1 1, ?_,
    State.getLsbD_reg_setField_bit _ d 0x110 1 true (by omega), ?_, hrec, htiles⟩
  · rw [exec_cacheSweep hd h3, State.goSweep]
    simp only [hb, hhome, hlen, hpa, h0, Nat.not_lt.2 hfit, Bool.false_eq_true, if_false, ne_eq, not_true_eq_false, false_and, or_self]
  · rw [State.setField, State.setReg, State.die_onDie_self]
    exact hl2

end

theorem sweepsEmptyTheCaches : SweepsEmptyTheCaches := by
  refine fun s d hd h3 => ⟨fun hb => ?_, fun hb hne hi => cacheSweep_of_foreign hd h3 hb rfl hne hi,
    fun hb hh hfit h0 => cacheSweep_of_own hd h3 hb rfl rfl hh hfit h0, fun hb => ?_, fun hb => ?_⟩
  · rw [exec_cacheSweep hd h3, State.goSweep]
    exact congrArg _ (if_pos hb)
  · refine ⟨_, (onUnit_of_present hd _).trans (congrArg Host.Outcome.next (if_pos hb)), ?_, State.getLsbD_reg_setField_bit _ d 0x110 3 true (by omega),
      sameButDie_trans (sameButDie_setField _ _ _ _ _ _) (sameButDie_setField _ _ _ _ _ _)⟩
    rw [State.getLsbD_reg_setField_ne _ _ _ _ (by omega) (by omega)]
    exact s.getLsbD_reg_setField_bit d 0x110 1 false (by omega)
  · exact (onUnit_of_present hd _).trans (congrArg Host.Outcome.next (if_neg (by rw [hb]; exact Bool.false_ne_true)))

/-- Settles O52: invalidations by what is covered, the die's answers of ATS all being gone (notes/assumptions/53); answers to page requests by the
requests that each reaches; and sweeps, whose lines leave at the GO (notes/assumptions/46), part by part (R253, R254, R325, R326, R331, R418, R419). -/
theorem translationAndCacheSweeps : Obligations.TranslationAndCacheSweeps :=
  ⟨invalidationRemovesWhatItCovers, pageRequestsAreAnswered, sweepsEmptyTheCaches⟩

end Sys2Proof.Machine
end

section
/-! SUPPORT of O23, O49, O50 and O51: the words of a queue's descriptor, and the wait states of the queue slots as an act of the command
processor leaves them (R300, R303, R423). -/

namespace Sys2Proof.Machine

open Sys2Proof.Claims

/-! ### Words at their home -/

/-- What is read after a store at a line's home is what is read after the bare write. -/
theorem State.peek_storeHome (s : State) (l l' : Loc) (b : List Byte) (n : Nat) : (s.storeHome l b).peek l' n = (s.poke l b).peek l' n := by
  rw [State.peek, State.storeHome_mem, State.peek, State.poke]

theorem State.peekWord_storeHome_self (s : State) (l : Loc) (v : Word) : (s.storeHome l (leBytes 8 v.toNat)).peekWord l = v := by
  rw [State.peekWord, State.peekNat, State.peek_storeHome, State.peek_poke_of_length _ _ (leBytes_length _ _), leNat_leBytes,
    Nat.mod_eq_of_lt (v.isLt.trans_eq (by norm_num)), BitVec.ofNat_toNat, BitVec.setWidth_eq]

theorem State.peekWord_storeHome_ne (s : State) (l l' : Loc) (v : Word) (h : l'.key + 8 ≤ l.key ∨ l.key + 8 ≤ l'.key) :
    (s.storeHome l (leBytes 8 v.toNat)).peekWord l' = s.peekWord l' := by
  rw [State.peekWord, State.peekNat, State.peek_storeHome, State.peek_poke_out _ _ _ _ (by rw [leBytes_length]; exact h)]
  rfl

/-! ### Queue descriptors (R300) -/

/-- The place of a descriptor depends on the registers of its die alone. -/
theorem State.qdescLoc_congr {s t : State} {d : Nat} (h : ∀ off, t.reg d off = s.reg d off) (q : Nat) : t.qdescLoc d q = s.qdescLoc d q := by
  rw [State.qdescLoc, h, State.qdescLoc]

/-- And its words on the memory. -/
theorem State.qdesc_congr {s t : State} {d : Nat} (hm : t.mem = s.mem) (h : ∀ off, t.reg d off = s.reg d off) (q i : Nat) :
    t.qdesc d q i = s.qdesc d q i := by
  rw [State.qdesc, State.qdescLoc_congr h, State.peekWord, State.peekNat, State.peek, hm]
  rfl

/-- Whether it can be reached depends further on the edges, the states of the dies and the host ports. -/
theorem State.qdescCut_congr {s t : State} {d : Nat} (h : ∀ off, t.reg d off = s.reg d off) (he : t.edges = s.edges)
    (hs : ∀ e, (t.die e).state = (s.die e).state) (hp : t.portsDown = s.portsDown) (q : Nat) : t.qdescCut d q = s.qdescCut d q := by
  rw [State.qdescCut, State.qdescLoc_congr h, State.canReach, State.half_of_edges he, hs, hp]
  rfl

theorem State.qdescCut_of_bad {s : State} {d q : Nat} (h : s.qdescBad d q = false) : s.qdescCut d q = false :=
  (Bool.or_eq_false_iff.1 h).2

theorem State.sameBesideL2_setQdesc (s : State) (d q i : Nat) (v : Word) : s.SameBesideL2 (s.setQdesc d q i v) := by
  rw [State.setQdesc]
  split
  · exact State.sameBesideL2_of_dies rfl
  · exact s.sameBesideL2_storeHome _ _

theorem State.sameUnits_setQdesc (s : State) (d q i : Nat) (v : Word) : s.SameUnits (s.setQdesc d q i v) := by
  rw [State.setQdesc]
  split
  · exact s.sameUnits_refl
  · exact s.sameUnits_storeHome _ _

theorem State.reg_setQdesc (s : State) (d q i : Nat) (v : Word) (e off : Nat) : (s.setQdesc d q i v).reg e off = s.reg e off :=
  (s.sameBesideL2_setQdesc d q i v).reg e off

theorem State.qdescCut_setQdesc (s : State) (d q i : Nat) (v : Word) (p : Nat) : (s.setQdesc d q i v).qdescCut d p = s.qdescCut d p :=
  State.qdescCut_congr (s.reg_setQdesc d q i v d) (s.sameUnits_setQdesc d q i v).edges (s.sameBesideL2_setQdesc d q i v).state
    (s.sameUnits_setQdesc d q i v).ports p

/-- A word of a descriptor that can be reached, after a write of it. -/
theorem State.qdesc_setQdesc_self {s : State} {d q : Nat} (i : Nat) (v : Word) (h : s.qdescCut d q = false) : (s.setQdesc d q i v).qdesc d q i = v := by
  rw [State.qdesc, State.qdescLoc_congr (s.reg_setQdesc d q i v d), State.setQdesc, h]
  exact s.peekWord_storeHome_self _ v

/-- The other words of the descriptor. -/
theorem State.qdesc_setQdesc_ne (s : State) (d q : Nat) {i j : Nat} (v : Word) (h : j ≠ i) : (s.setQdesc d q i v).qdesc d q j = s.qdesc d q j := by
  rw [State.qdesc, State.qdescLoc_congr (s.reg_setQdesc d q i v d), State.setQdesc]
  split
  · rfl
  · refine s.peekWord_storeHome_ne _ _ v ?_
    rw [Loc.key_add, Loc.key_add]
    omega

/-! ### Changes of a die that keep its registers -/

theorem State.reg_onDie {s : State} {d : Nat} {f : Die → Die} (h : (f (s.die d)).regs = (s.die d).regs) (off : Nat) :
    (s.onDie d f).reg d off = s.reg d off := by
  rw [State.reg, State.die_onDie_self, h, State.reg]

theorem State.qdesc_onDie {s : State} {d : Nat} {f : Die → Die} (h : (f (s.die d)).regs = (s.die d).regs) (q i : Nat) :
    (s.onDie d f).qdesc d q i = s.qdesc d q i :=
  State.qdesc_congr (s := s) (t := s.onDie d f) rfl (fun off => State.reg_onDie h off) q i

/-! ### The wait states of the queue slots (R423) -/

/-- The wait state of a slot changes the fields that tell it, and no other. -/
theorem QSlot.asNow_eq (x : Die) (busy : Bool) (ns : Nat) (q : QSlot) : q.asNow x busy ns =
    { q with kind := (q.asNow x busy ns).kind, waiter := (q.asNow x busy ns).waiter, since := (q.asNow x busy ns).since, barked := (q.asNow x busy ns).barked } := by
  rw [QSlot.asNow.eq_def]
  split
  split <;> rfl

/-- Of the die, it depends on the slots of the launches alone. -/
theorem QSlot.asNow_congr {x y : Die} (h : y.assign = x.assign) (busy : Bool) (ns : Nat) (q : QSlot) : q.asNow y busy ns = q.asNow x busy ns := by
  have hk : ∀ rs r, Rec.waitKind y busy rs r = Rec.waitKind x busy rs r := fun rs r => by rw [Rec.waitKind, h, Rec.waitKind]
  have hw : q.waiting y busy = q.waiting x busy := by simp only [QSlot.waiting, hk]
  rw [QSlot.asNow, hw, QSlot.asNow]

theorem QSlot.asNow_leaving (x : Die) (busy : Bool) (ns : Nat) (q : QSlot) (l : Option (Option Nat)) :
    ({ q with leaving := l } : QSlot).asNow x busy ns = { q.asNow x busy ns with leaving := l } := by
  have hw : ({ q with leaving := l } : QSlot).waiting x busy = q.waiting x busy := rfl
  rw [QSlot.asNow, hw, QSlot.asNow]
  dsimp only
  split <;> rfl

/-- The state of a slot as it stands now, on its die. -/
def State.slotNow (s : State) (d : Nat) (q : QSlot) : QSlot := q.asNow (s.die d) ((s.reg d 0x228).getLsbD 1) (s.ns d)

theorem State.qslot_kinds (s : State) (d c : Nat) : (s.kinds d).qslot d c = (s.qslot d c).map (s.slotNow d) := by
  rw [State.qslot, State.kinds, State.die_onDie_self, Tab.find_mapVal fun _ (y : QSlot) => y.asNow (s.die d) ((s.reg d 0x228).getLsbD 1) (s.ns d)]
  rfl

/-- The rest of the die. -/
theorem State.die_kinds (s : State) (d : Nat) : (s.kinds d).die d = { s.die d with qslots := ((s.kinds d).die d).qslots } := by
  rw [State.kinds, State.die_onDie_self]

theorem State.qdesc_kinds (s : State) (d q i : Nat) : (s.kinds d).qdesc d q i = s.qdesc d q i := State.qdesc_onDie rfl q i

/-- While the wait states stand as they are shown, each slot's does. -/
theorem State.slotNow_of_quiet {s : State} {d c : Nat} {q : QSlot} (h : CpQuiet s d) (hq : s.qslot d c = some q) : s.slotNow d q = q := by
  have hk := s.qslot_kinds d c
  rw [h.shown, hq] at hk
  exact (Option.some.inj hk).symm

/-- An act of the command processor that keeps the address of the mirror ends with the wait states of the slots. -/
theorem cpAct_of_quiet_kinds {s t : State} {d : Nat} {f : State → State} (h : CpQuiet s d) (hf : f s = t) (hr : t.reg d 0xD08 = s.reg d 0xD08) :
    cpAct d s f = .next (t.kinds d) := by
  rw [cpAct_of_quiet h, hf, State.showWaits_of_no_mirror (by rw [hr]; exact h.mirror)]

end Sys2Proof.Machine
end

section
/-! PROOF of O23: command queues are woken, mapped and unmapped (R300, R301, R302, R303). -/

namespace Sys2Proof.Machine

open Sys2Proof.Claims

/-! ### The remap list (R302) -/

/-- A queue that joins the remap list changes that list alone. -/
theorem State.remapIn_parts (s : State) (d q : Nat) (first : Bool) :
    ∃ l m, s.remapIn d q first = (if (s.die d).remap.contains q then s else s.onDie d fun x => { x with remap := l, front := m }) ∧ q ∈ l := by
  rw [State.remapIn]
  cases first with
  | true => exact ⟨q :: (s.die d).remap, q :: (s.die d).front, rfl, List.mem_cons_self⟩
  | false => exact ⟨_, (s.die d).front, rfl, List.mem_append_right _ List.mem_cons_self⟩

section
variable (s : State) (d q : Nat) (first : Bool)

theorem State.mem_remap_remapIn : q ∈ ((s.remapIn d q first).die d).remap := by
  obtain ⟨l, m, h, hq⟩ := s.remapIn_parts d q first
  rw [h]
  split
  · next hc => exact List.contains_iff_mem.1 hc
  · rw [State.die_onDie_self]
    exact hq

theorem State.strands_remapIn : (s.remapIn d q first).strands = s.strands := by
  obtain ⟨l, m, h, -⟩ := s.remapIn_parts d q first
  rw [h]
  split <;> rfl

theorem State.mem_remapIn : (s.remapIn d q first).mem = s.mem := by
  obtain ⟨l, m, h, -⟩ := s.remapIn_parts d q first
  rw [h]
  split <;> rfl

theorem State.die_remapIn : ∃ l m, (s.remapIn d q first).die d = { s.die d with remap := l, front := m } := by
  obtain ⟨l, m, h, -⟩ := s.remapIn_parts d q first
  rw [h]
  split
  · exact ⟨_, _, rfl⟩
  · exact ⟨l, m, State.die_onDie_self _ _ _⟩

theorem State.qdesc_remapIn (p i : Nat) : (s.remapIn d q first).qdesc d p i = s.qdesc d p i := by
  obtain ⟨l, m, h⟩ := s.die_remapIn d q first
  exact State.qdesc_congr (s.mem_remapIn d q first) (fun off => by rw [State.reg, h, State.reg]) p i

end

theorem State.remap_remapIn_first {s : State} {d q : Nat} (h : q ∉ (s.die d).remap) :
    ((s.remapIn d q true).die d).remap = q :: (s.die d).remap := by
  have hc : (s.die d).remap.contains q = false := by simpa using h
  rw [State.remapIn]
  simp only [hc, Bool.false_eq_true, if_false, if_true, State.die_onDie_self]

/-- No other queue joins. -/
theorem State.eq_or_mem_of_remapIn_first {s : State} {d q p : Nat} (h : p ∈ ((s.remapIn d q true).die d).remap) : p = q ∨ p ∈ (s.die d).remap := by
  by_cases hq : q ∈ (s.die d).remap
  · rw [State.remapIn, List.contains_iff_mem.2 hq] at h
    exact .inr h
  · rw [State.remap_remapIn_first hq] at h
    exact List.mem_cons.1 h

/-! ### Wakes (R301) -/

/-- A word of two halves. -/
theorem toNat_wordOf_halves {a b : Nat} (ha : a < 2 ^ 32) (hb : b < 2 ^ 32) : (wordOf [(a, 32), (b, 0)]).toNat = a * 2 ^ 32 + b := by
  have hs : a <<< 32 < 2 ^ 64 := by rw [Nat.shiftLeft_eq]; omega
  rw [wordOf, wordOf, wordOf, BitVec.ofNat_eq_ofNat, BitVec.or_zero, BitVec.toNat_or, BitVec.toNat_ofNat, BitVec.toNat_ofNat, Nat.mod_eq_of_lt hs, Nat.shiftLeft_zero,
    Nat.mod_eq_of_lt (by omega), ← Nat.shiftLeft_add_eq_or_of_lt hb, Nat.shiftLeft_eq]

/-- The two words that a wake writes. -/
def State.waken (s : State) (d q : Nat) (v : BitVec 32) : State :=
  (s.setQdesc d q 2 (wordOf [(v.toNat, 32), (bits (s.qdesc d q 2) 0 32, 0)])).setQdesc d q 3 (wordOf [(v.toNat, 32), (1, 0)])

theorem State.sameBesideL2_waken (s : State) (d q : Nat) (v : BitVec 32) : s.SameBesideL2 (s.waken d q v) :=
  (s.sameBesideL2_setQdesc d q 2 _).trans (State.sameBesideL2_setQdesc _ d q 3 _)

theorem State.wake_eq {s : State} {d q : Nat} {v : BitVec 32} (h : q ∉ (s.die d).broken) :
    s.wake d q v = if ((s.waken d q v).die d).mapped q || !((s.waken d q v).die d).bound.contains q then s.waken d q v
      else (s.waken d q v).remapIn d q false := by
  have hb : (s.die d).broken.contains q = false := by simpa using h
  rw [State.wake]
  simp only [hb, Bool.false_eq_true, if_false]
  rfl

/-- The VALUE and the PEND after a wake. -/
theorem State.qdesc_waken {s : State} {d q : Nat} {v : BitVec 32} (h : s.qdescCut d q = false) :
    ((s.waken d q v).qdesc d q 2).toNat = v.toNat * 2 ^ 32 + (s.qdesc d q 2).toNat % 2 ^ 32 ∧
      ((s.waken d q v).qdesc d q 3).toNat = v.toNat * 2 ^ 32 + 1 := by
  have hv := v.isLt
  rw [State.waken, State.qdesc_setQdesc_ne _ _ _ _ (by omega), State.qdesc_setQdesc_self _ _ h,
    State.qdesc_setQdesc_self _ _ (by rw [State.qdescCut_setQdesc]; exact h), toNat_wordOf_halves hv (by rw [bits_eq]; exact Nat.mod_lt _ (by omega)),
    toNat_wordOf_halves hv (by omega), bits_eq, Nat.pow_zero, Nat.div_one]
  exact ⟨rfl, rfl⟩

theorem wake_of_whole {s : State} {d q : Nat} (v : BitVec 32) (hd : d < 4) (hq : q < 4096) (h3 : (s.die d).state = 3) (hb : q ∉ (s.die d).broken)
    (hc : s.qdescCut d q = false) :
    ∃ t, exec (.cqWakeWrite d q v) s = .next t ∧ (t.qdesc d q 2).toNat = v.toNat * 2 ^ 32 + (s.qdesc d q 2).toNat % 2 ^ 32 ∧
      (t.qdesc d q 3).toNat = v.toNat * 2 ^ 32 + 1 ∧ t.strands = s.strands ∧ (t.die d).qslots = (s.die d).qslots ∧
      (q ∈ (s.die d).bound → (∀ e ∈ (s.die d).qslots, e.2.q ≠ q) → q ∈ (t.die d).remap) := by
  obtain ⟨h2, h3'⟩ := State.qdesc_waken (v := v) hc
  have hslots : ((s.waken d q v).die d).qslots = (s.die d).qslots := (s.sameBesideL2_waken d q v).part Die.qslots (fun _ _ _ => rfl) d
  have hbound : ((s.waken d q v).die d).bound = (s.die d).bound := (s.sameBesideL2_waken d q v).part Die.bound (fun _ _ _ => rfl) d
  have hstrands : (s.waken d q v).strands = s.strands := ((s.sameUnits_setQdesc d q 2 _).trans (State.sameUnits_setQdesc _ d q 3 _)).strands
  refine ⟨s.wake d q v, ?_, ?_⟩
  · refine (onUnit_of_present ⟨hd, hq⟩ _).trans (congrArg Host.Outcome.next ?_)
    rw [State.dieUp, h3]
    rfl
  · rw [State.wake_eq hb]
    split
    · next hcond =>
      refine ⟨h2, h3', hstrands, hslots, fun hin hfree => ?_⟩
      rw [Die.mapped, hslots, hbound, Bool.or_eq_true, List.any_eq_true] at hcond
      rcases hcond with ⟨e, he, heq⟩ | hnot
      · exact absurd (beq_iff_eq.1 heq) (hfree e he)
      · rw [List.contains_iff_mem.2 hin] at hnot
        nomatch hnot
    · obtain ⟨l, m, hdie⟩ := (s.waken d q v).die_remapIn d q false
      exact ⟨by rw [State.qdesc_remapIn]; exact h2, by rw [State.qdesc_remapIn]; exact h3', (State.strands_remapIn _ _ _ _).trans hstrands,
        by rw [hdie]; exact hslots, fun _ _ => State.mem_remap_remapIn _ _ _ _⟩

/-! ### Mapping (R302) -/

/-- The first number of a range that a test admits. -/
theorem find?_upFrom {p : Nat → Bool} {a k c : Nat} (ha : a ≤ c) (hk : c < a + k) (hp : p c = true) (hn : ∀ n, a ≤ n → n < c → p n = false) :
    (upFrom a k).find? p = some c := by
  induction k generalizing a with
  | zero => omega
  | succ k ih =>
    rw [upFrom, List.find?_cons]
    by_cases h : a = c
    · rw [h, hp]
    · rw [hn a (Nat.le_refl _) (by omega)]
      exact ih (by omega) (by omega) fun n h1 h2 => hn n (by omega) h2

theorem mem_upFrom {n a k : Nat} : n ∈ upFrom a k ↔ a ≤ n ∧ n < a + k := by
  induction k generalizing a with
  | zero => simp only [upFrom, List.not_mem_nil, false_iff]; omega
  | succ k ih => rw [upFrom, List.mem_cons, ih]; omega

/-- Poison and marks that lie nowhere new poison nothing new. -/
theorem State.poisoned_mono {s t : State} (hq : ∀ n ∈ t.poison, n ∈ s.poison) (hm : ∀ n ∈ t.marks, n ∈ s.marks) {k n : Nat}
    (h : s.poisoned k n = false) : t.poisoned k n = false := by
  rw [State.poisoned, Bool.or_eq_false_iff, List.any_eq_false, List.any_eq_false] at h ⊢
  exact ⟨fun l hl => h.1 l (hq l hl), fun a ha => h.2 a (hm a ha)⟩

/-- Whether a descriptor can be read depends further on the poison and the marks. -/
theorem State.qdescBad_of {s t : State} {d : Nat} (h : ∀ off, t.reg d off = s.reg d off) (he : t.edges = s.edges)
    (hs : ∀ e, (t.die e).state = (s.die e).state) (hp : t.portsDown = s.portsDown) {q : Nat}
    (hq : ∀ n ∈ t.poison, n ∈ s.poison) (hm : ∀ n ∈ t.marks, n ∈ s.marks) (hb : s.qdescBad d q = false) : t.qdescBad d q = false := by
  obtain ⟨hpois, hcut⟩ := Bool.or_eq_false_iff.1 hb
  rw [State.qdescBad, State.qdescLoc_congr h, State.qdescCut_congr h he hs hp, hcut, State.poisoned_mono hq hm hpois]
  rfl

/-- A change of a die's queues alone leaves the states of the dies. -/
theorem State.state_onDie {s : State} {d : Nat} {f : Die → Die} (h : (f (s.die d)).state = (s.die d).state) (e : Nat) :
    ((s.onDie d f).die e).state = (s.die e).state := by
  by_cases he : e = d
  · rw [he, State.die_onDie_self, h]
  · rw [State.die_onDie_ne s f he]

theorem State.qdescBad_onDie {s : State} {d q : Nat} {f : Die → Die} (hr : (f (s.die d)).regs = (s.die d).regs)
    (hs : (f (s.die d)).state = (s.die d).state) (hb : s.qdescBad d q = false) : (s.onDie d f).qdescBad d q = false :=
  State.qdescBad_of (s := s) (t := s.onDie d f) (fun off => State.reg_onDie hr off) rfl (State.state_onDie hs) rfl (fun _ h => h) (fun _ h => h) hb

/-- The slot that a queue takes. -/
def State.freshSlot (s : State) (d q : Nat) : QSlot := { q := q, at_ := s.time, head := bits (s.qdesc d q 2) 0 32, since := s.ns d }

/-- A die after a queue of its remap list has taken a slot. -/
def Die.mapInto (c q : Nat) (y : QSlot) (x : Die) : Die :=
  { x with remap := x.remap.filter (· != q), front := x.front.filter (· != q), qslots := Tab.put x.qslots c y }

/-- A queue whose descriptor can be read takes a slot. -/
theorem State.mapQueue_parts {s : State} {d q : Nat} (c : Nat) (hb : s.qdescBad d q = false) :
    (s.mapQueue d c q).mem = s.mem ∧ (s.mapQueue d c q).die d = (s.die d).mapInto c q (s.freshSlot d q) ∧
      (s.mapQueue d c q).strands = s.strands := by
  have hbad : ((s.remapOut d q).onDie d fun x => { x with qslots := Tab.put x.qslots c (s.freshSlot d q) }).qdescBad d q = false :=
    State.qdescBad_onDie rfl rfl (State.qdescBad_onDie rfl rfl hb)
  have hmap : s.mapQueue d c q = (s.remapOut d q).onDie d fun x => { x with qslots := Tab.put x.qslots c (s.freshSlot d q) } :=
    if_neg fun hb' => Bool.false_ne_true (hbad.symm.trans hb')
  rw [hmap]
  exact ⟨rfl, by rw [State.die_onDie_self, State.remapOut, State.die_onDie_self]; rfl, rfl⟩

theorem exec_queueMap (d : Nat) (s : State) : exec (.queueMap d) s = execQueueMap d s := rfl

theorem exec_queueUnmap (d c : Nat) (s : State) : exec (.queueUnmap d c) s = execQueueUnmap d c s := rfl

theorem exec_forcedUnmap (d : Nat) (s : State) : exec (.forcedUnmap d) s = execForcedUnmap d s := rfl

section
variable {s : State} {d : Nat} (h : CpQuiet s d)
include h

/-- The head of the remap list takes the first free slot. -/
theorem queueMap_of_free {c q : Nat} {rest : List Nat} (hon : s.cqOn d = true) (hr : (s.die d).remap = q :: rest)
    (hlow : ∀ n, n < c → (s.qslot d n).isSome = true) (hc : s.qslot d c = none) (hlt : c < 128) (hb : s.qdescBad d q = false) :
    ∃ t y, exec (.queueMap d) s = .next t ∧ t.qslot d c = some y ∧ y.q = q ∧ y.at_ = s.time ∧ y.head = (s.qdesc d q 2).toNat % 2 ^ 32 ∧
      y.recs = [] ∧ y.leaving = none ∧ (t.die d).remap = rest.filter (· != q) ∧ t.mem = s.mem := by
  have hfree : s.freeQslot d = some c :=
    find?_upFrom (Nat.zero_le c) (by omega) (by rw [hc]; rfl) fun n _ hn => by
      obtain ⟨y, hy⟩ := Option.isSome_iff_exists.1 (hlow n hn)
      rw [hy]
      rfl
  obtain ⟨hm, hdie, -⟩ := State.mapQueue_parts c hb
  have hexec : exec (.queueMap d) s = .next ((s.mapQueue d c q).kinds d) := by
    rw [exec_queueMap, execQueueMap]
    refine cpAct_of_quiet_kinds h (t := s.mapQueue d c q) ?_ (by rw [State.reg, hdie, State.reg]; rfl)
    rw [hon, hfree]
    dsimp only
    rw [State.mapHead, hr]
  have hslot : (s.mapQueue d c q).qslot d c = some (s.freshSlot d q) := by
    rw [State.qslot, hdie]
    exact Tab.find_put_self _ _ _
  refine ⟨_, (s.mapQueue d c q).slotNow d (s.freshSlot d q), hexec, by rw [State.qslot_kinds, hslot]; rfl, ?_⟩
  rw [State.slotNow, QSlot.asNow_eq, State.die_kinds, hdie]
  refine ⟨rfl, rfl, ?_, rfl, rfl, ?_, hm⟩
  · exact (bits_eq _ _ _).trans (by rw [Nat.pow_zero, Nat.div_one])
  · rw [Die.mapInto, hr, List.filter_cons_of_neg (by rw [bne_self_eq_false]; exact Bool.false_ne_true)]

end

/-! ### Unmapping (R303) -/

/-- What decides the wait state of a slot: the slots of the launches, GOV's BUSY and the time. -/
theorem State.slotNow_congr {s t : State} {d : Nat} (ha : (t.die d).assign = (s.die d).assign) (hr : t.reg d 0x228 = s.reg d 0x228)
    (hn : t.ns d = s.ns d) (q : QSlot) : t.slotNow d q = s.slotNow d q := by
  rw [State.slotNow, QSlot.asNow_congr ha, hr, hn, State.slotNow]

theorem State.ns_congr {s t : State} {d : Nat} (ht : t.time = s.time) (hl : (t.die d).lag = (s.die d).lag) : t.ns d = s.ns d := by
  rw [State.ns, State.clock, ht, hl, State.ns, State.clock]

theorem State.slotNow_setQdesc (s : State) (d p i : Nat) (v : Word) (q : QSlot) : (s.setQdesc d p i v).slotNow d q = s.slotNow d q :=
  State.slotNow_congr ((s.sameBesideL2_setQdesc d p i v).part Die.assign (fun _ _ _ => rfl) d) (s.reg_setQdesc d p i v d _)
    (State.ns_congr (s.sameUnits_setQdesc d p i v).time ((s.sameBesideL2_setQdesc d p i v).part Die.lag (fun _ _ _ => rfl) d)) q

theorem State.slotNow_onDie {s : State} {d : Nat} {f : Die → Die} (ha : (f (s.die d)).assign = (s.die d).assign)
    (hr : (f (s.die d)).regs = (s.die d).regs) (hl : (f (s.die d)).lag = (s.die d).lag) (q : QSlot) : (s.onDie d f).slotNow d q = s.slotNow d q :=
  State.slotNow_congr (s := s) (t := s.onDie d f) (by rw [State.die_onDie_self, ha]) (State.reg_onDie hr _)
    (State.ns_congr rfl (by rw [State.die_onDie_self, hl])) q

theorem State.qslot_setQdesc (s : State) (d p i : Nat) (v : Word) (c : Nat) : (s.setQdesc d p i v).qslot d c = s.qslot d c := by
  rw [State.qslot, (s.sameBesideL2_setQdesc d p i v).part Die.qslots (fun _ _ _ => rfl) d, State.qslot]

theorem State.remap_setQdesc (s : State) (d p i : Nat) (v : Word) : ((s.setQdesc d p i v).die d).remap = (s.die d).remap :=
  (s.sameBesideL2_setQdesc d p i v).part Die.remap (fun _ _ _ => rfl) d

/-- PEND is 0 once it has been taken; nothing else that a slot's state hangs on has changed. -/
theorem State.takePend_parts {s : State} {d q : Nat} (hc : s.qdescCut d q = false) :
    (((s.takePend d q).2).qdesc d q 3).getLsbD 0 = false ∧ (∀ c, (s.takePend d q).2.qslot d c = s.qslot d c) ∧
      ((s.takePend d q).2.die d).remap = (s.die d).remap ∧ (∀ off, (s.takePend d q).2.reg d off = s.reg d off) ∧
      ∀ y, (s.takePend d q).2.slotNow d y = s.slotNow d y := by
  rw [State.takePend]
  by_cases hp : (s.qdesc d q 3).getLsbD 0 = true
  · rw [if_pos hp]
    refine ⟨?_, s.qslot_setQdesc d q 3 _, s.remap_setQdesc d q 3 _, s.reg_setQdesc d q 3 _ d, s.slotNow_setQdesc d q 3 _⟩
    rw [State.qdesc_setQdesc_self _ _ hc, getLsbD_putBits _ _ _ (by omega)]
    rfl
  · rw [if_neg hp]
    exact ⟨by simpa using hp, fun _ => rfl, rfl, fun _ => rfl, fun _ => rfl⟩

theorem State.onQslot_of_some {s : State} {d c : Nat} {q : QSlot} (f : QSlot → QSlot) (h : s.qslot d c = some q) :
    s.onQslot d c f = s.onDie d fun x => { x with qslots := Tab.put x.qslots c (f q) } := by
  rw [State.onQslot, h]

section
variable {s : State} {d c : Nat} {q : QSlot} (h : CpQuiet s d) (hq : s.qslot d c = some q)
include h hq

/-- A queue begins to leave its slot. -/
theorem State.beginUnmap_parts (forced : Option Nat) (hc : s.qdescCut d q.q = false) :
    ((s.beginUnmap d c q forced).kinds d).qslot d c = some { q with leaving := some forced } ∧
      ((s.beginUnmap d c q forced).qdesc d q.q 3).getLsbD 0 = false ∧ ((s.beginUnmap d c q forced).die d).remap = (s.die d).remap ∧
      ∀ off, (s.beginUnmap d c q forced).reg d off = s.reg d off := by
  obtain ⟨hpend, hslot, hremap, hreg, hnow⟩ := State.takePend_parts (s := s) (q := q.q) hc
  rw [State.beginUnmap, State.onQslot_of_some _ ((hslot c).trans hq)]
  refine ⟨?_, ?_, ?_, fun off => ?_⟩
  · rw [State.qslot_kinds, State.qslot, State.die_onDie_self, Tab.find_put_self, Option.map_some, State.slotNow_onDie rfl rfl rfl, hnow,
      State.slotNow, QSlot.asNow_leaving]
    exact congrArg (fun y : QSlot => some { y with leaving := some forced }) (State.slotNow_of_quiet h hq)
  · rw [State.qdesc_onDie]
    · exact hpend
    · rfl
  · rw [State.die_onDie_self]
    exact hremap
  · rw [State.reg_onDie]
    · exact hreg off
    · rfl

variable (hc : c < 128) (hbad : q.bad = false) (hdesc : s.qdescBad d q.q = false)
include hc hbad hdesc

/-- What the command processor does with a slot whose descriptor can be read: it ends an unmap that has begun. -/
theorem exec_queueUnmap_of_leaving {p : Option Nat} (hl : q.leaving = some p) (hr : (s.endUnmap d c q p).reg d 0xD08 = s.reg d 0xD08) :
    exec (.queueUnmap d c) s = .next ((s.endUnmap d c q p).kinds d) := by
  rw [exec_queueUnmap, execQueueUnmap]
  refine cpAct_of_quiet_kinds h ?_ hr
  rw [hq]
  dsimp only
  rw [if_neg (by omega), hbad, hdesc, hl]
  rfl

/-- Or it takes the PEND of an idle queue, or begins one. -/
theorem exec_queueUnmap_of_idle {t : State} (hl : q.leaving = none) (hrecs : q.recs = []) (htail : s.qtail d q.q = q.head)
    (ht : (if (s.qdesc d q.q 3).getLsbD 0 then (s.takePend d q.q).2 else s.beginUnmap d c q none) = t) (hr : t.reg d 0xD08 = s.reg d 0xD08) :
    exec (.queueUnmap d c) s = .next (t.kinds d) := by
  rw [exec_queueUnmap, execQueueUnmap]
  refine cpAct_of_quiet_kinds h ?_ hr
  rw [hq]
  dsimp only
  rw [if_neg (by omega), hbad, hdesc, hl, hrecs, htail, bne_self_eq_false]
  exact ht

/-- An idle queue: its PEND is consumed, or it begins to leave. -/
theorem queueUnmap_of_idle (hl : q.leaving = none) (hrecs : q.recs = []) (htail : s.qtail d q.q = q.head) :
    ∃ t, exec (.queueUnmap d c) s = .next t ∧ (t.qdesc d q.q 3).getLsbD 0 = false ∧ (t.die d).remap = (s.die d).remap ∧
      t.qslot d c = some (if (s.qdesc d q.q 3).getLsbD 0 then q else { q with leaving := some none }) := by
  have hcut := State.qdescCut_of_bad hdesc
  by_cases hp : (s.qdesc d q.q 3).getLsbD 0 = true
  · obtain ⟨hpend, hslot, hremap, hreg, hnow⟩ := State.takePend_parts (s := s) (q := q.q) hcut
    refine ⟨_, exec_queueUnmap_of_idle h hq hc hbad hdesc hl hrecs htail (if_pos hp) (hreg _), ?_, ?_, ?_⟩
    · rw [State.qdesc_kinds]
      exact hpend
    · rw [State.die_kinds]
      exact hremap
    · rw [State.qslot_kinds, hslot, hq, Option.map_some, hnow, State.slotNow_of_quiet h hq, if_pos hp]
  · obtain ⟨hslot, hpend, hremap, hreg⟩ := State.beginUnmap_parts h hq none hcut
    refine ⟨_, exec_queueUnmap_of_idle h hq hc hbad hdesc hl hrecs htail (if_neg hp) (hreg _), ?_, ?_, ?_⟩
    · rw [State.qdesc_kinds]
      exact hpend
    · rw [State.die_kinds]
      exact hremap
    · rw [hslot, if_neg hp]

end

/-! ### Poison beside a store -/

theorem State.poison_pick_ite (s : State) (n m : Nat) (p : Prop) [Decidable p] :
    (if p then s.pick n else (m, s)).2.poison = s.poison ∧ (if p then s.pick n else (m, s)).2.marks = s.marks := by
  split
  · rw [s.pick_eq n]
    exact ⟨rfl, rfl⟩
  · exact ⟨rfl, rfl⟩

theorem State.poison_keepHome (s : State) (n : Nat) : (s.keepHome n).poison = s.poison ∧ (s.keepHome n).marks = s.marks := by
  rw [State.keepHome]
  split
  · rw [State.intoL2]
    exact s.poison_pick_ite _ _ _
  · exact ⟨rfl, rfl⟩

/-- A store at a line's home leaves no new poison and no new mark. -/
theorem State.poison_storeHome (s : State) (l : Loc) (b : List Byte) :
    (∀ n ∈ (s.storeHome l b).poison, n ∈ s.poison) ∧ ∀ n ∈ (s.storeHome l b).marks, n ∈ s.marks := by
  obtain ⟨hp, hm⟩ := (s.dropL2 l.line []).poison_keepHome l.line
  refine ⟨fun n hn => ?_, fun n hn => ?_⟩
  · have h := (List.mem_filter.1 hn).1
    rwa [hp] at h
  · have h := (List.mem_filter.1 hn).1
    rwa [hm] at h

theorem State.qdescBad_setQdesc {s : State} {d q i : Nat} {v : Word} {p : Nat} (h : s.qdescBad d p = false) :
    (s.setQdesc d q i v).qdescBad d p = false := by
  have hpois : (∀ n ∈ (s.setQdesc d q i v).poison, n ∈ s.poison) ∧ ∀ n ∈ (s.setQdesc d q i v).marks, n ∈ s.marks := by
    rw [State.setQdesc]
    split
    · exact ⟨fun _ h => h, fun _ h => h⟩
    · exact s.poison_storeHome _ _
  exact State.qdescBad_of (s.reg_setQdesc d q i v d) (s.sameUnits_setQdesc d q i v).edges (s.sameBesideL2_setQdesc d q i v).state
    (s.sameUnits_setQdesc d q i v).ports hpois.1 hpois.2 h

/-! ### The end of an unmap (R303 steps 3 and 4) -/

/-- A slot that its queue has left, with HEAD in the descriptor. -/
theorem State.unmapSlot_eq (s : State) (d c : Nat) (q : QSlot) : ∃ early, s.unmapSlot d c q =
    (s.putHead d q.q (q.recs.head?.elim q.head Rec.idx)).onDie d fun x => { x with qslots := Tab.del x.qslots c, early := x.early ++ early } := by
  rw [State.unmapSlot]
  cases q.recs with
  | nil => exact ⟨_, rfl⟩
  | cons r l => exact ⟨_, rfl⟩

section
variable (s : State) (d c : Nat) (q : QSlot)

theorem State.reg_unmapSlot (off : Nat) : (s.unmapSlot d c q).reg d off = s.reg d off := by
  obtain ⟨early, h⟩ := s.unmapSlot_eq d c q
  rw [h]
  exact (State.reg_onDie (s := s.putHead d q.q _) rfl off).trans (s.reg_setQdesc d q.q 2 _ d off)

theorem State.qslot_unmapSlot : (s.unmapSlot d c q).qslot d c = none := by
  obtain ⟨early, h⟩ := s.unmapSlot_eq d c q
  rw [h, State.qslot, State.die_onDie_self]
  exact Tab.find_del_self _ _

theorem State.remap_unmapSlot : ((s.unmapSlot d c q).die d).remap = (s.die d).remap := by
  obtain ⟨early, h⟩ := s.unmapSlot_eq d c q
  rw [h, State.die_onDie_self]
  exact s.remap_setQdesc d q.q 2 _

theorem State.time_unmapSlot : (s.unmapSlot d c q).time = s.time := by
  obtain ⟨early, h⟩ := s.unmapSlot_eq d c q
  rw [h]
  exact (s.sameUnits_setQdesc d q.q 2 _).time

theorem State.qdescBad_unmapSlot {p : Nat} (hb : s.qdescBad d p = false) : (s.unmapSlot d c q).qdescBad d p = false := by
  obtain ⟨early, h⟩ := s.unmapSlot_eq d c q
  rw [h]
  exact State.qdescBad_onDie (s := s.putHead d q.q _) rfl rfl (State.qdescBad_setQdesc hb)

/-- The descriptor of a queue that has left its slot with nothing in flight. -/
theorem State.qdesc_unmapSlot (hr : q.recs = []) (hc : s.qdescCut d q.q = false) :
    (s.unmapSlot d c q).qdesc d q.q 2 = putBits (s.qdesc d q.q 2) 0 32 q.head ∧ (s.unmapSlot d c q).qdesc d q.q 3 = s.qdesc d q.q 3 := by
  obtain ⟨early, h⟩ := s.unmapSlot_eq d c q
  rw [h, hr, State.qdesc_onDie, State.qdesc_onDie]
  · exact ⟨State.qdesc_setQdesc_self 2 _ hc, s.qdesc_setQdesc_ne d q.q _ (by omega)⟩
  · rfl
  · rfl

end

/-- Work is left where VALUE is not HEAD or PEND is 1. -/
theorem State.leftWork_iff (s : State) (d q : Nat) : s.leftWork d q = true ↔
    (s.qdesc d q 3).toNat / 2 ^ 32 ≠ (s.qdesc d q 2).toNat % 2 ^ 32 ∨ (s.qdesc d q 3).getLsbD 0 = true := by
  have h3 := (s.qdesc d q 3).isLt
  rw [State.leftWork, Bool.or_eq_true, bne_iff_ne, bits_eq, bits_eq, Nat.pow_zero, Nat.div_one, Nat.mod_eq_of_lt (a := (s.qdesc d q 3).toNat / 2 ^ 32) (by omega)]

section
variable {s : State} {d c : Nat} {q : QSlot} (h : CpQuiet s d) (hq : s.qslot d c = some q) (hc : c < 128) (hbad : q.bad = false)
  (hdesc : s.qdescBad d q.q = false)
include h hq hc hbad hdesc

/-- A queue that was idle leaves its slot, for the remap list where work is left. -/
theorem queueUnmap_of_leaving (hl : q.leaving = some none) (hrecs : q.recs = []) (hh : q.head < 2 ^ 32) (hout : q.q ∉ (s.die d).remap) :
    ∃ t, exec (.queueUnmap d c) s = .next t ∧ t.qslot d c = none ∧ (t.qdesc d q.q 2).toNat % 2 ^ 32 = q.head ∧
      (t.die d).remap = if (s.qdesc d q.q 3).toNat / 2 ^ 32 ≠ q.head ∨ (s.qdesc d q.q 3).getLsbD 0 = true then q.q :: (s.die d).remap
        else (s.die d).remap := by
  obtain ⟨hd2, hd3⟩ := s.qdesc_unmapSlot d c q hrecs (State.qdescCut_of_bad hdesc)
  have hhead : ((s.unmapSlot d c q).qdesc d q.q 2).toNat % 2 ^ 32 = q.head := by
    rw [hd2, toNat_putBits _ _ (by omega)]
    omega
  have hend : s.endUnmap d c q none = if (s.unmapSlot d c q).leftWork d q.q then (s.unmapSlot d c q).remapIn d q.q true else s.unmapSlot d c q := rfl
  have hout' : q.q ∉ ((s.unmapSlot d c q).die d).remap := by
    rw [State.remap_unmapSlot]
    exact hout
  have hleft : (s.unmapSlot d c q).leftWork d q.q = true ↔ (s.qdesc d q.q 3).toNat / 2 ^ 32 ≠ q.head ∨ (s.qdesc d q.q 3).getLsbD 0 = true := by
    rw [State.leftWork_iff, hhead, hd3]
  by_cases hw : (s.unmapSlot d c q).leftWork d q.q = true
  · rw [if_pos hw] at hend
    obtain ⟨l, m, hdie⟩ := (s.unmapSlot d c q).die_remapIn d q.q true
    refine ⟨_, exec_queueUnmap_of_leaving h hq hc hbad hdesc hl ?_, ?_, ?_, ?_⟩
    · rw [hend, State.reg, hdie]
      exact s.reg_unmapSlot d c q _
    · rw [State.qslot_kinds, hend, State.qslot, hdie, ← State.qslot, State.qslot_unmapSlot]
      rfl
    · rw [State.qdesc_kinds, hend, State.qdesc_remapIn]
      exact hhead
    · rw [State.die_kinds, hend, if_pos (hleft.1 hw), ← s.remap_unmapSlot d c q]
      exact State.remap_remapIn_first hout'
  · rw [if_neg hw] at hend
    refine ⟨_, exec_queueUnmap_of_leaving h hq hc hbad hdesc hl ?_, ?_, ?_, ?_⟩
    · rw [hend]
      exact s.reg_unmapSlot d c q _
    · rw [State.qslot_kinds, hend, State.qslot_unmapSlot]
      rfl
    · rw [State.qdesc_kinds, hend]
      exact hhead
    · rw [State.die_kinds, hend, if_neg fun hn => hw (hleft.2 hn)]
      exact s.remap_unmapSlot d c q

/-- After a forced unmap the slot goes to the queue that it was taken for. -/
theorem queueUnmap_of_forced {p : Nat} (hl : q.leaving = some (some p)) (hp : p ∈ (s.die d).remap) (hne : p ≠ q.q) (hpd : s.qdescBad d p = false) :
    ∃ t y, exec (.queueUnmap d c) s = .next t ∧ t.qslot d c = some y ∧ y.q = p ∧ y.at_ = s.time ∧ y.leaving = none ∧ p ∉ (t.die d).remap := by
  have hin : ((s.unmapSlot d c q).die d).remap.contains p = true := by
    rw [State.remap_unmapSlot]
    exact List.contains_iff_mem.2 hp
  obtain ⟨-, hdie, -⟩ := State.mapQueue_parts (s := s.unmapSlot d c q) c (s.qdescBad_unmapSlot d c q hpd)
  have hend : s.endUnmap d c q (some p) = if ((s.unmapSlot d c q).mapQueue d c p).leftWork d q.q then ((s.unmapSlot d c q).mapQueue d c p).remapIn d q.q true
      else (s.unmapSlot d c q).mapQueue d c p := by
    rw [State.endUnmap]
    simp only [hin, if_true]
  have hslot : (s.endUnmap d c q (some p)).qslot d c = some ((s.unmapSlot d c q).freshSlot d p) ∧
      (∀ off, (s.endUnmap d c q (some p)).reg d off = s.reg d off) ∧ p ∉ ((s.endUnmap d c q (some p)).die d).remap := by
    have hmslot : ((s.unmapSlot d c q).mapQueue d c p).qslot d c = some ((s.unmapSlot d c q).freshSlot d p) := by
      rw [State.qslot, hdie]
      exact Tab.find_put_self _ _ _
    have hmreg : ∀ off, ((s.unmapSlot d c q).mapQueue d c p).reg d off = s.reg d off := fun off => by
      rw [State.reg, hdie]
      exact s.reg_unmapSlot d c q off
    have hmremap : p ∉ (((s.unmapSlot d c q).mapQueue d c p).die d).remap := by
      rw [hdie]
      exact fun hm => absurd rfl (bne_iff_ne.1 (List.mem_filter.1 hm).2)
    rw [hend]
    split
    · obtain ⟨l, m, hin'⟩ := ((s.unmapSlot d c q).mapQueue d c p).die_remapIn d q.q true
      refine ⟨by rw [State.qslot, hin', ← State.qslot]; exact hmslot, fun off => ?_, fun hm => ?_⟩
      · rw [State.reg, hin']
        exact hmreg off
      · exact (State.eq_or_mem_of_remapIn_first hm).elim hne hmremap
    · exact ⟨hmslot, hmreg, hmremap⟩
  obtain ⟨hslot, hreg, hremap⟩ := hslot
  refine ⟨_, _, exec_queueUnmap_of_leaving h hq hc hbad hdesc hl (hreg _), by rw [State.qslot_kinds, hslot]; rfl, ?_⟩
  rw [State.slotNow, QSlot.asNow_eq, State.die_kinds]
  exact ⟨rfl, s.time_unmapSlot d c q, rfl, hremap⟩

end

/-! ### Forced unmaps (R302) -/

/-- The longer mapped of two slots. -/
def older (b : Option (Nat × QSlot)) (e : Nat × QSlot) : Option (Nat × QSlot) :=
  match b with
  | none => some e
  | some y => if e.2.at_ < y.2.at_ then some e else b

theorem older_of_some (y e : Nat × QSlot) : older (some y) e = if e.2.at_ < y.2.at_ then some e else some y := rfl

/-- The longest mapped of a list of slots, where one stands out. -/
theorem foldl_older {x : Nat × QSlot} (l : List (Nat × QSlot)) (b : Option (Nat × QSlot)) (hl : ∀ e ∈ l, e = x ∨ x.2.at_ < e.2.at_)
    (hb : ∀ e, b = some e → e = x ∨ x.2.at_ < e.2.at_) (hx : x ∈ l ∨ b = some x) : l.foldl older b = some x := by
  induction l generalizing b with
  | nil => exact hx.resolve_left List.not_mem_nil
  | cons e l ih =>
    have he := hl e List.mem_cons_self
    refine ih _ (fun y hy => hl y (List.mem_cons_of_mem _ hy)) ?_ ?_
    · intro y hy
      cases b with
      | none => exact Option.some.inj hy ▸ he
      | some z =>
        rw [older_of_some] at hy
        split at hy
        · exact Option.some.inj hy ▸ he
        · exact hb y hy
    · by_cases hin : x ∈ l
      · exact .inl hin
      · have hcur : e = x ∨ b = some x := hx.imp_left fun h => ((List.mem_cons.1 h).resolve_right hin).symm
        refine .inr ?_
        cases b with
        | none => exact congrArg some (hcur.resolve_right (by nofun))
        | some z =>
          have hz := hb z rfl
          rw [older_of_some]
          rcases hcur with rfl | hzx
          · rcases hz with rfl | hlt
            · rw [if_neg (Nat.lt_irrefl _)]
            · rw [if_pos hlt]
          · rw [Option.some.inj hzx]
            rcases he with rfl | hlt
            · rw [if_neg (Nat.lt_irrefl _)]
            · rw [if_neg (by omega)]

/-- With no slot free, the oldest eligible queue begins to leave its slot once its quantum is over. -/
theorem forcedUnmap_of_oldest {s : State} {d c p : Nat} {q : QSlot} {rest : List Nat} (h : CpQuiet s d) (hon : s.cqOn d = true)
    (hr : (s.die d).remap = p :: rest) (hfull : ∀ n, n < 128 → (s.qslot d n).isSome = true) (hmem : (c, q) ∈ (s.die d).qslots)
    (hq : s.qslot d c = some q) (hc : c < 128) (hel : q.eligible = true) (hbad : q.bad = false) (hl : ∀ e ∈ (s.die d).qslots, e.2.leaving = none)
    (hold : ∀ e ∈ (s.die d).qslots, e.2.eligible = true → e.2.bad = false → e = (c, q) ∨ q.at_ < e.2.at_)
    (ht : q.at_ + max 1 ((s.reg d 0x308).toNat / 2 ^ 16 % 2 ^ 16) * 1000 * 65536 ≤ s.time) (hdesc : s.qdescBad d q.q = false) :
    ∃ t, exec (.forcedUnmap d) s = .next t ∧ t.qslot d c = some { q with leaving := some (some p) } ∧
      (t.qdesc d q.q 3).getLsbD 0 = false ∧ (t.die d).remap = (s.die d).remap := by
  obtain ⟨hslot, hpend, hremap, hreg⟩ := State.beginUnmap_parts h hq (some p) (State.qdescCut_of_bad hdesc)
  have hql : q.leaving = none := hl _ hmem
  have hfold := foldl_older (x := (c, q)) ((s.die d).qslots.filter fun e => e.1 < 128 && e.2.eligible && !e.2.bad && e.2.leaving.isNone) none
    (fun e he => by
      obtain ⟨hin, hcond⟩ := List.mem_filter.1 he
      simp only [Bool.and_eq_true, Bool.not_eq_true'] at hcond
      exact hold e hin hcond.1.1.2 hcond.1.2)
    nofun (.inl (List.mem_filter.2 ⟨hmem, by simp [hc, hel, hbad, hql]⟩))
  have hnofree : s.freeQslot d = none := List.find?_eq_none.2 fun n hn => by
    have hn' := mem_upFrom.1 hn
    obtain ⟨y, hy⟩ := Option.isSome_iff_exists.1 (hfull n (by omega))
    rw [hy]
    exact Bool.false_ne_true
  have hnone : ((s.die d).qslots.any fun e => e.2.leaving.isSome) = false := List.any_eq_false.2 fun e he => by
    rw [hl e he]
    exact Bool.false_ne_true
  refine ⟨(s.beginUnmap d c q (some p)).kinds d, ?_, hslot, by rw [State.qdesc_kinds]; exact hpend, by rw [State.die_kinds]; exact hremap⟩
  rw [exec_forcedUnmap, execForcedUnmap]
  refine cpAct_of_quiet_kinds h ?_ (hreg _)
  dsimp only
  generalize hg : List.foldl _ none _ = r
  have hr' : r = some (c, q) := hg.symm.trans hfold
  subst hr'
  dsimp only
  rw [hon, hnofree, hnone, decide_eq_false (by rw [bits_eq]; omega), hr, hdesc]
  rfl

/-- Settles O23: wakes by the two words that they write, the acts on the queue slots by what each leaves of the slot, of the descriptor and of the
remap list (R300 to R303). -/
theorem queuesAreWokenMappedAndUnmapped : Obligations.QueuesAreWokenMappedAndUnmapped := by
  refine ⟨?_, ?_, ?_, ?_, ?_, ?_⟩
  · exact fun s d q v hd hq h3 hb hc => wake_of_whole v hd hq h3 hb hc
  · exact fun s d c q rest h hon hr hlow hc hlt hb => queueMap_of_free h hon hr hlow hc hlt hb
  · exact fun s d c q h hq hc hbad hdesc hl hrecs htail => queueUnmap_of_idle h hq hc hbad hdesc hl hrecs htail
  · exact fun s d c q h hq hc hbad hdesc hl hrecs hh hout => queueUnmap_of_leaving h hq hc hbad hdesc hl hrecs hh hout
  · exact fun s d c q p rest h hon hr hfull hmem hq hc hel hbad hl hold ht hdesc =>
      forcedUnmap_of_oldest h hon hr hfull hmem hq hc hel hbad hl hold ht hdesc
  · exact fun s d c q p h hq hc hbad hdesc hl hp hne hpd => queueUnmap_of_forced h hq hc hbad hdesc hl hp hne hpd

end Sys2Proof.Machine
end

section
/-! PROOF of O51: mailbox commands, flushes and the watchdog (R317, R425, R426). -/

namespace Sys2Proof.Machine

open Sys2Proof.Claims

theorem exec_regionGrant (d : Nat) (s : State) : exec (.regionGrant d) s = execRegionGrant d s := rfl

theorem exec_queueBind (d : Nat) (s : State) : exec (.queueBind d) s = execQueueBind d s := rfl

theorem exec_revoke (d : Nat) (s : State) : exec (.revoke d) s = execRevoke d s := rfl

theorem exec_queueUnbind (d : Nat) (s : State) : exec (.queueUnbind d) s = execQueueUnbind d s := rfl

theorem exec_flush (d : Nat) (s : State) : exec (.flush d) s = execFlush d s := rfl

theorem exec_wdogExpiry (d c : Nat) (s : State) : exec (.wdogExpiry d c) s = execWdogExpiry d c s := rfl

/-- A part of a die that a change of some die keeps. -/
theorem State.part_onDie {α : Type} (g : Die → α) (s : State) (d : Nat) {f : Die → Die} (h : ∀ x, g (f x) = g x) (e : Nat) :
    g ((s.onDie d f).die e) = g (s.die e) := by
  by_cases he : e = d
  · rw [he, State.die_onDie_self, h]
  · rw [State.die_onDie_ne s _ he]

/-! ### The watchdog (R425) -/

theorem State.die_setField (s : State) (d off lo len v : Nat) :
    (s.setField d off lo len v).die d = { s.die d with regs := ((s.setField d off lo len v).die d).regs } := by
  rw [State.setField, State.setReg, State.die_onDie_self]

/-- A report to the host fault queue changes the registers of its die, its caches and its LOST mark. -/
theorem State.die_hostFault (s : State) (d : Nat) (f : Flt) (tag : Nat) (oprec : Word) :
    ∃ r l m b, (s.hostFault d f tag oprec).die d = { s.die d with regs := r, l2 := l, l1bad := m, lostNext := b } := by
  rw [State.hostFault, State.hostRecord.eq_def]
  extract_lets ctl ptr n tail used pa port loc
  split
  · rw [State.die_onDie_self, State.die_setField, s.sameBesideL2_storeHome]
    exact ⟨_, _, _, _, rfl⟩
  · rw [State.die_onDie_self, State.die_setField, State.bumpField, State.die_setField s]
    exact ⟨_, _, _, _, rfl⟩

/-- Of the registers, the two of the host fault queue. -/
theorem State.reg_hostFault (s : State) (d : Nat) (f : Flt) (tag : Nat) (oprec : Word) {off : Nat} (h1 : off ≠ 0xB08) (h2 : off ≠ 0xB10) :
    (s.hostFault d f tag oprec).reg d off = s.reg d off := by
  rw [State.hostFault, State.hostRecord.eq_def]
  extract_lets ctl ptr n tail used pa port loc
  split
  · rw [State.reg_onDie rfl, State.reg_setField_ne _ _ _ _ h2, (s.sameBesideL2_storeHome _ _).reg]
  · rw [State.reg_onDie rfl, State.reg_setField_ne _ _ _ _ h1, State.bumpField, State.reg_setField_ne _ _ _ _ h1]

theorem bits_low (w : Word) (n : Nat) : bits w 0 n = w.toNat % 2 ^ n := by rw [bits_eq, Nat.pow_zero, Nat.div_one]

/-- What a slot's wait state hangs on is none of it. -/
theorem State.slotNow_hostFault (s : State) (d : Nat) (f : Flt) (tag : Nat) (oprec : Word) (q : QSlot) :
    (s.hostFault d f tag oprec).slotNow d q = s.slotNow d q := by
  obtain ⟨r, l, m, b, hd⟩ := s.die_hostFault d f tag oprec
  exact State.slotNow_congr (by rw [hd]) (s.reg_hostFault d f tag oprec (by decide) (by decide))
    (State.ns_congr (s.sameUnits_hostFault d f tag oprec).time (by rw [hd])) q

/-- Nor the mark of a report. -/
theorem QSlot.asNow_barked {x : Die} {busy : Bool} {ns : Nat} {q : QSlot} (h : q.asNow x busy ns = q) (b : Bool) :
    ({ q with barked := b } : QSlot).asNow x busy ns = { q with barked := b } := by
  have hw : ({ q with barked := b } : QSlot).waiting x busy = q.waiting x busy := rfl
  rw [QSlot.asNow.eq_def] at h ⊢
  rw [hw]
  dsimp only at h ⊢
  split at h
  · next hk =>
    rw [if_pos hk]
    exact congrArg (fun y : QSlot => { y with barked := b }) h
  · next hk =>
    exact absurd (congrArg QSlot.kind h).symm hk

section
variable {s : State} {d c : Nat} {q : QSlot} {r : Rec} (h : CpQuiet s d) (hq : s.qslot d c = some q)
include h hq

/-- A Wait record in flight is one whose condition has not held, while no record's status is still to be written. -/
theorem find_waits : q.recs.find? Rec.waits = q.recs.find? fun y => recKind y.words == 2 := by
  refine List.find?_congr fun y hy => ?_
  rw [Rec.waits, h.told _ (Tab.mem_of_find hq) y hy]
  simp

/-- The watchdog of a slot that has waited too long. -/
theorem wdogExpiry_of_due (hk : q.kind = 1) (hb : q.barked = false) (hr : q.recs.find? (fun y => recKind y.words == 2) = some r)
    (hl : (s.reg d 0xD00).toNat % 2 ^ 32 ≠ 0) (hdue : q.since + 1000 * ((s.reg d 0xD00).toNat % 2 ^ 32) < s.ns d) :
    ∃ t, exec (.wdogExpiry d c) s = .next t ∧ t.qslot d c = some { q with barked := true } ∧
      t.mem = (s.hostFault d { cls := 9, code := 3, info := wordOf [(bits (r.words.getD 1 0) 3 53, 12), (q.q, 0)], src := 4 }
        (recTag r.words)).mem := by
  generalize hu : s.hostFault d { cls := 9, code := 3, info := wordOf [(bits (r.words.getD 1 0) 3 53, 12), (q.q, 0)], src := 4 }
        (recTag r.words) = u
  obtain ⟨x, l, m, b, hd⟩ := s.die_hostFault d { cls := 9, code := 3, info := wordOf [(bits (r.words.getD 1 0) 3 53, 12), (q.q, 0)], src := 4 }
    (recTag r.words) 0
  rw [hu] at hd
  have huq : u.qslot d c = some q := by rw [State.qslot, hd]; exact hq
  have hnow : u.slotNow d q = q := by rw [← hu, State.slotNow_hostFault, State.slotNow_of_quiet h hq]
  refine ⟨(u.onQslot d c fun y => { y with barked := true }).kinds d, ?_, ?_, ?_⟩
  · rw [exec_wdogExpiry, execWdogExpiry]
    refine cpAct_of_quiet_kinds h ?_ ?_
    · dsimp only
      rw [hq]
      dsimp only
      rw [if_neg, find_waits h hq, hr, ← hu]
      · rfl
      · rw [← bits_low] at hl hdue
        simp [hl, hk, hb, hdue]
    · rw [State.onQslot_of_some _ huq, State.reg_onDie rfl, ← hu, State.reg_hostFault _ _ _ _ _ (by decide) (by decide)]
  · rw [State.onQslot_of_some _ huq, State.qslot_kinds, State.qslot, State.die_onDie_self, Tab.find_put_self, Option.map_some,
      State.slotNow_onDie rfl rfl rfl]
    exact congrArg some (QSlot.asNow_barked hnow true)
  · rw [State.onQslot_of_some _ huq]
    rfl

/-- One within its time, and one with the watchdog off. -/
theorem wdogExpiry_of_early (he : s.ns d ≤ q.since + 1000 * ((s.reg d 0xD00).toNat % 2 ^ 32) ∨ (s.reg d 0xD00).toNat % 2 ^ 32 = 0) :
    exec (.wdogExpiry d c) s = .next s := by
  refine Eq.trans ?_ (congrArg Host.Outcome.next h.shown)
  rw [exec_wdogExpiry, execWdogExpiry]
  refine cpAct_of_quiet_kinds h ?_ rfl
  dsimp only
  rw [hq]
  dsimp only
  rw [if_pos]
  rw [← bits_low] at he
  rcases he with he | he
  · simp [he]
  · simp [he]

end

/-! ### Flushes (R426) -/

section
variable {s : State} {d q n : Nat} (h : CpQuiet s d) (hctrl : (s.die d).ctrl = some (q, n)) (hb : q ∉ (s.die d).broken)
  (hbad : s.qdescBad d q = false)
include h

/-- The command processor without a flush looks for one, while the control ring is on. -/
theorem flush_of_idle (hc : (s.die d).ctrl = none) (hoff : (s.reg d 0xD18).getLsbD 0 = false) : exec (.flush d) s = .next s := by
  refine Eq.trans ?_ (congrArg Host.Outcome.next h.shown)
  rw [exec_flush, execFlush]
  refine cpAct_of_quiet_kinds h ?_ rfl
  rw [hc]
  dsimp only
  rw [State.flushTake, hoff]
  rfl

include hctrl in
theorem exec_flush_of_ctrl : exec (.flush d) s = .next ((s.flushMore d q n).showWaits d) := by
  rw [exec_flush, execFlush, cpAct_of_quiet h, hctrl]

include hctrl hb hbad

/-- At its TAIL the flush of a queue that no slot holds completes. -/
theorem flush_of_unmapped (hslot : s.slotOfQueue d q = none) (hn : (s.qdesc d q 2).toNat % 2 ^ 32 = n) :
    exec (.flush d) s = .next ((s.ctrlDone d 1).showWaits d) := by
  have hhead : s.headOf d q = n := by
    rw [State.headOf, hslot, ← hn, ← bits_low]
    rfl
  rw [exec_flush_of_ctrl h hctrl, State.flushMore.eq_def, hslot, hhead]
  simp [hb, hbad]

variable {c : Nat} {y : QSlot} (hslot : s.slotOfQueue d q = some c) (hy : s.qslot d c = some y) (hyb : y.bad = false)
include hslot hy hyb

/-- The records of a slot that have started are waited for. -/
theorem flush_of_started (hr : ∃ r ∈ y.recs, r.started = true) : exec (.flush d) s = .next s := by
  have hany : y.recs.any (·.started) = true := List.any_eq_true.2 hr
  have hmore : s.flushMore d q n = s := by
    rw [State.flushMore.eq_def, hslot]
    simp [hy, hb, hbad, hyb, hany]
  rw [exec_flush_of_ctrl h hctrl, hmore, State.showWaits_of_no_mirror h.mirror, h.shown]

/-- The first of those that have not retires with STATUS 4. -/
theorem flush_of_unstarted {r : Rec} {l : List Rec} (hr : y.recs = r :: l) (hs : ∀ p ∈ y.recs, p.started = false) :
    exec (.flush d) s = .next ((s.retireRec d c r.idx 4).showWaits d) := by
  have hany : y.recs.any (·.started) = false := List.any_eq_false.2 fun p hp => by rw [hs p hp]; exact Bool.false_ne_true
  rw [hr] at hany
  rw [exec_flush_of_ctrl h hctrl, State.flushMore.eq_def, hslot]
  simp [hy, hb, hbad, hyb, hr, hany]

end

theorem flushesAndTheWatchdog : FlushesAndTheWatchdog := by
  refine ⟨fun s d q n c y h hctrl hb hslot hy hyb hbad =>
      ⟨flush_of_started h hctrl hb hbad hslot hy hyb, fun r l => flush_of_unstarted h hctrl hb hbad hslot hy hyb⟩,
    fun s d q n h hctrl hb hslot hbad hn => flush_of_unmapped h hctrl hb hbad hslot hn,
    fun s d h hc hoff => flush_of_idle h hc hoff,
    fun s d c q r h hq hk hb hr => ⟨fun hl hdue => wdogExpiry_of_due h hq hk hb hr hl hdue, fun he => wdogExpiry_of_early h hq he⟩⟩

/-! ### The end of a mailbox command (R317) -/

/-- A mailbox command that is pending is carried out. -/
theorem mboxAct_of_quiet {s t : State} {d op : Nat} {f : State → State} (h : CpQuiet s d) (hm : (s.die d).mbox = some op) (hf : f s = t)
    (hr : t.reg d 0xD08 = s.reg d 0xD08) : mboxAct d op s f = .next (t.kinds d) := by
  rw [mboxAct]
  exact cpAct_of_quiet_kinds h ((if_pos hm).trans hf) hr

theorem State.die_mboxDone (s : State) (d code n : Nat) :
    (s.mboxDone d code n).die d = { s.die d with regs := ((s.mboxDone d code n).die d).regs, mbox := none } := by
  rw [State.mboxDone, State.die_onDie_self, State.setReg, State.die_onDie_self]

theorem State.reg_mboxDone (s : State) (d code n : Nat) : (s.mboxDone d code n).reg d 0x520 = wordOf [(n % 2 ^ 32, 32), (code, 0)] := by
  rw [State.mboxDone, State.reg_onDie rfl, State.reg_setReg_self]

theorem State.reg_mboxDone_ne (s : State) (d code n : Nat) {off : Nat} (h : off ≠ 0x520) : (s.mboxDone d code n).reg d off = s.reg d off := by
  rw [State.mboxDone, State.reg_onDie rfl, State.reg_setReg_ne _ _ (.inr h)]

/-- The descriptors of the queues stay. -/
theorem State.qdesc_mboxDone (s : State) (d code n q i : Nat) : (s.mboxDone d code n).qdesc d q i = s.qdesc d q i := by
  rw [State.qdesc, State.qdescLoc, s.reg_mboxDone_ne d code n (by decide), State.qdesc, State.qdescLoc]
  rfl

/-- The number that a command answers, and its code. -/
theorem toNat_reg_mboxDone (s : State) (d code : Nat) {n : Nat} (hn : n < 2 ^ 32) (hc : code < 2 ^ 32) :
    (((s.mboxDone d code n).kinds d).reg d 0x520).toNat = n * 2 ^ 32 + code := by
  rw [State.reg_kinds, State.reg_mboxDone, Nat.mod_eq_of_lt hn, toNat_wordOf_halves hn hc]

/-! ### Capabilities (R317) -/

/-- The state once the capability `c` has been granted. -/
def State.withCap (s : State) (d : Nat) (c : Cap) : State :=
  (s.sweepCaps d).onDie d fun x => { x with caps := Tab.put x.caps (s.die d).nextCap c, nextCap := (s.die d).nextCap + 1 }

theorem State.die_withCap (s : State) (d : Nat) (c : Cap) : ∃ r, (s.withCap d c).die d =
    { s.die d with revoked := r, caps := Tab.put (s.die d).caps (s.die d).nextCap c, nextCap := (s.die d).nextCap + 1 } := by
  rw [State.withCap, State.sweepCaps, State.die_onDie_self, State.die_onDie_self]
  exact ⟨_, rfl⟩

/-- There is space for a capability while fewer than 65536 are in use. -/
theorem State.newCap_of_room {s : State} {d : Nat} (c : Cap) (h : (s.die d).caps.length + (s.die d).revoked.length < 65536) :
    s.newCap d c = some ((s.die d).nextCap, s.withCap d c) := by
  have hd : ∃ p, (s.sweepCaps d).die d = { s.die d with revoked := (s.die d).revoked.filter p } := by
    rw [State.sweepCaps, State.die_onDie_self]
    exact ⟨_, rfl⟩
  obtain ⟨p, hd⟩ := hd
  have hlen := List.length_filter_le p (s.die d).revoked
  rw [State.newCap, State.withCap, hd]
  dsimp only
  rw [if_neg (by omega)]

/-- A capability that is revoked leaves the table of its die. -/
theorem State.die_dropCap (s : State) (d n : Nat) : ∃ l r, (s.dropCap d n).die d = { s.die d with caps := l, revoked := r } ∧
    Tab.find l n = none ∧ ∀ m, m ≠ n → Tab.find l m = Tab.find (s.die d).caps m := by
  rw [State.dropCap.eq_def]
  split
  · next hn => exact ⟨_, _, rfl, hn, fun _ _ => rfl⟩
  · extract_lets foot job uses held
    rw [State.die_onDie_self]
    exact ⟨_, _, rfl, Tab.find_del_self _ _, fun m hm => Tab.find_del_ne _ hm⟩

theorem State.mem_dropCap (s : State) (d n : Nat) : (s.dropCap d n).mem = s.mem := by
  rw [State.dropCap.eq_def]
  split <;> rfl

theorem State.reg_dropCap (s : State) (d n off : Nat) : (s.dropCap d n).reg d off = s.reg d off := by
  obtain ⟨l, r, hd, -⟩ := s.die_dropCap d n
  rw [State.reg, hd, State.reg]

section
variable {s : State} {d : Nat} (h : CpQuiet s d)
include h

theorem regionGrant_of_good (hm : (s.die d).mbox = some 1) (h2 : (s.mboxArg d 2).toNat / 2 ^ 18 = 0) (h1 : s.mboxArg d 1 ≠ 0)
    (h0 : (s.mboxArg d 0).toNat + (s.mboxArg d 1).toNat ≤ 2 ^ 56) (hp : (s.mboxArg d 2).toNat / 2 ^ 16 % 4 ≠ 0)
    (hc : (s.context d ((s.mboxArg d 2).toNat % 2 ^ 16)).isSome = true) (hroom : (s.die d).caps.length + (s.die d).revoked.length < 65536)
    (hn : (s.die d).nextCap < 2 ^ 32) :
    ∃ t, exec (.regionGrant d) s = .next t ∧ Tab.find (t.die d).caps (s.die d).nextCap =
        some ⟨(s.mboxArg d 0).toNat, (s.mboxArg d 1).toNat, (s.mboxArg d 2).toNat % 2 ^ 16, (s.mboxArg d 2).getLsbD 16,
          (s.mboxArg d 2).getLsbD 17, false⟩ ∧
      (t.reg d 0x520).toNat = (s.die d).nextCap * 2 ^ 32 ∧ (t.die d).mbox = none ∧ t.mem = s.mem := by
  generalize hx : (⟨(s.mboxArg d 0).toNat, (s.mboxArg d 1).toNat, (s.mboxArg d 2).toNat % 2 ^ 16, (s.mboxArg d 2).getLsbD 16,
          (s.mboxArg d 2).getLsbD 17, false⟩ : Cap) = x
  obtain ⟨r, hd⟩ := s.die_withCap d x
  have hz : bits (s.mboxArg d 2) 18 46 = 0 := by rw [bits_eq, h2]; rfl
  have hw : bits (s.mboxArg d 2) 16 2 ≠ 0 := by rw [bits_eq]; exact hp
  have hb : (s.mboxArg d 1).toNat ≠ 0 := fun e => h1 (BitVec.eq_of_toNat_eq e)
  have hnone : (s.context d ((s.mboxArg d 2).toNat % 2 ^ 16)).isNone = false := by rw [Option.isNone_eq_false_iff, hc]
  refine ⟨((s.withCap d x).mboxDone d 0 (s.die d).nextCap).kinds d, ?_, ?_, ?_, ?_, rfl⟩
  · rw [exec_regionGrant, execRegionGrant]
    refine mboxAct_of_quiet h hm ?_ ?_
    · dsimp only
      rw [if_neg, bits_low, hx, State.newCap_of_room _ hroom]
      rw [bits_low, hnone]
      rintro (e | e | e | e | e)
      · exact e hz
      · exact hb e
      · exact Nat.not_lt.2 h0 e
      · exact hw e
      · exact Bool.false_ne_true e
    · rw [State.reg_mboxDone_ne _ _ _ _ (by decide), State.reg, hd, State.reg]
  · rw [State.die_kinds, State.die_mboxDone, hd]
    exact Tab.find_put_self _ _ _
  · rw [toNat_reg_mboxDone _ _ _ hn (by decide), Nat.add_zero]
  · rw [State.die_kinds, State.die_mboxDone]

theorem regionGrant_of_empty (hm : (s.die d).mbox = some 1) (h1 : s.mboxArg d 1 = 0) :
    ∃ t, exec (.regionGrant d) s = .next t ∧ (t.die d).caps = (s.die d).caps ∧ t.reg d 0x520 = 1 ∧ t.mem = s.mem := by
  refine ⟨(s.mboxDone d 1 0).kinds d, ?_, ?_, ?_, rfl⟩
  · rw [exec_regionGrant, execRegionGrant]
    refine mboxAct_of_quiet h hm ?_ (s.reg_mboxDone_ne _ _ _ (by decide))
    dsimp only
    rw [if_pos (.inr (.inl (by rw [h1]; rfl)))]
  · rw [State.die_kinds, State.die_mboxDone]
  · rw [State.reg_kinds, State.reg_mboxDone]
    rfl

theorem revoke_of_known {x : Cap} (hm : (s.die d).mbox = some 3) (h1 : s.mboxArg d 1 = 0) (h2 : s.mboxArg d 2 = 0)
    (hx : Tab.find (s.die d).caps ((s.mboxArg d 0).toNat % 2 ^ 32) = some x) :
    ∃ t, exec (.revoke d) s = .next t ∧ Tab.find (t.die d).caps ((s.mboxArg d 0).toNat % 2 ^ 32) = none ∧
      (∀ n, n ≠ (s.mboxArg d 0).toNat % 2 ^ 32 → Tab.find (t.die d).caps n = Tab.find (s.die d).caps n) ∧ t.reg d 0x520 = 0 ∧
      (t.die d).mbox = none ∧ t.mem = s.mem := by
  obtain ⟨l, r, hd, hgone, hstay⟩ := s.die_dropCap d ((s.mboxArg d 0).toNat % 2 ^ 32)
  refine ⟨((s.dropCap d ((s.mboxArg d 0).toNat % 2 ^ 32)).mboxDone d 0 0).kinds d, ?_, ?_, ?_, ?_, ?_, s.mem_dropCap _ _⟩
  · rw [exec_revoke, execRevoke]
    refine mboxAct_of_quiet h hm ?_ ?_
    · dsimp only
      rw [bits_low, hx, if_neg]
      simp [h1, h2]
    · rw [State.reg_mboxDone_ne _ _ _ _ (by decide), State.reg_dropCap]
  · rw [State.die_kinds, State.die_mboxDone, hd]
    exact hgone
  · rw [State.die_kinds, State.die_mboxDone, hd]
    exact hstay
  · rw [State.reg_kinds, State.reg_mboxDone]
    rfl
  · rw [State.die_kinds, State.die_mboxDone]

end

/-! ### Unbinding a queue (R317) -/

/-- What decides where a descriptor lies and whether it can be reached stands in `t` as in `s`. -/
structure State.SameReach (d : Nat) (s t : State) : Prop where
  reg   : ∀ off, t.reg d off = s.reg d off
  edges : t.edges = s.edges
  state : ∀ e, (t.die e).state = (s.die e).state
  ports : t.portsDown = s.portsDown

theorem State.SameReach.trans {d : Nat} {s t u : State} (h : s.SameReach d t) (g : t.SameReach d u) : s.SameReach d u :=
  ⟨fun off => (g.reg off).trans (h.reg off), g.edges.trans h.edges, fun e => (g.state e).trans (h.state e), g.ports.trans h.ports⟩

theorem State.sameReach_refl (d : Nat) (s : State) : s.SameReach d s := ⟨fun _ => rfl, rfl, fun _ => rfl, rfl⟩

theorem State.SameReach.cut {d : Nat} {s t : State} (h : s.SameReach d t) (q : Nat) : t.qdescCut d q = s.qdescCut d q :=
  State.qdescCut_congr h.reg h.edges h.state h.ports q

theorem State.sameReach_onDie (s : State) (d : Nat) {f : Die → Die} (hr : ∀ x, (f x).regs = x.regs) (hs : ∀ x, (f x).state = x.state) :
    s.SameReach d (s.onDie d f) :=
  ⟨fun off => State.reg_onDie (hr _) off, rfl, s.part_onDie Die.state d hs, rfl⟩

theorem State.sameReach_setQdesc (s : State) (d q i : Nat) (v : Word) : s.SameReach d (s.setQdesc d q i v) :=
  ⟨s.reg_setQdesc d q i v d, (s.sameUnits_setQdesc d q i v).edges, (s.sameBesideL2_setQdesc d q i v).state, (s.sameUnits_setQdesc d q i v).ports⟩

theorem State.sameReach_dropCap (s : State) (d n : Nat) : s.SameReach d (s.dropCap d n) := by
  rw [State.dropCap.eq_def]
  split
  · exact s.sameReach_refl d
  · exact s.sameReach_onDie d (fun _ => rfl) (fun _ => rfl)

theorem State.sameReach_unmapSlot (s : State) (d c : Nat) (q : QSlot) : s.SameReach d (s.unmapSlot d c q) := by
  obtain ⟨early, h⟩ := s.unmapSlot_eq d c q
  rw [h]
  exact (s.sameReach_setQdesc d _ _ _).trans (State.sameReach_onDie _ d (fun _ => rfl) (fun _ => rfl))

/-- A queue leaves every list of its die. -/
def Die.withoutQueue (q : Nat) (x : Die) : Die :=
  { x with bound := x.bound.filter (· != q), broken := x.broken.filter (· != q), early := x.early.filter fun e => e.1 != q }

theorem not_mem_filter_ne (q : Nat) (l : List Nat) : q ∉ l.filter (· != q) := by
  intro hq
  simp at hq

/-- The state once a queue that holds no slot has lost its capability and the words that bind it. -/
def State.unboundWords (s : State) (d q : Nat) : State :=
  let t := s.dropCap d (bits (s.qdesc d q 5) 0 32)
  (t.setQdesc d q 5 (putBits (t.qdesc d q 5) 0 32 0)).setQdesc d q 1 (putBits (t.qdesc d q 1) 4 1 0)

theorem State.sameReach_unboundWords (s : State) (d q : Nat) : s.SameReach d (s.unboundWords d q) :=
  ((s.sameReach_dropCap d _).trans (State.sameReach_setQdesc _ d q _ _)).trans (State.sameReach_setQdesc _ d q _ _)

/-- The words of a descriptor that can be reached, once its queue is unbound: no capability, and ENABLE 0. -/
theorem State.qdesc_unboundWords {s : State} {d q : Nat} (hc : s.qdescCut d q = false) :
    ((s.unboundWords d q).qdesc d q 5).toNat % 2 ^ 32 = 0 ∧ ((s.unboundWords d q).qdesc d q 1).getLsbD 4 = false := by
  rw [State.unboundWords]
  generalize ht : s.dropCap d (bits (s.qdesc d q 5) 0 32) = t
  have hcut : t.qdescCut d q = false := by rw [← ht, (s.sameReach_dropCap d _).cut, hc]
  constructor
  · rw [State.qdesc_setQdesc_ne _ _ _ _ (by decide), State.qdesc_setQdesc_self _ _ hcut, toNat_putBits _ _ (by decide)]
    omega
  · rw [State.qdesc_setQdesc_self _ _ (by rw [State.qdescCut_setQdesc, hcut]), getLsbD_putBits _ _ _ (by omega)]
    rfl

/-- The state once it also waits for no slot, and the command has ended. -/
def State.unbound (s : State) (d q : Nat) : State :=
  (((s.unboundWords d q).remapOut d q).onDie d (Die.withoutQueue q)).mboxDone d 0 0

theorem State.qdesc_unbound (s : State) (d q i : Nat) : (s.unbound d q).qdesc d q i = (s.unboundWords d q).qdesc d q i := by
  rw [State.unbound, State.qdesc_mboxDone, State.remapOut, State.qdesc_onDie, State.qdesc_onDie] <;> rfl

theorem State.reg_unbound (s : State) (d q : Nat) {off : Nat} (h : off ≠ 0x520) : (s.unbound d q).reg d off = s.reg d off := by
  rw [State.unbound, State.reg_mboxDone_ne _ _ _ _ h, State.reg_onDie, State.remapOut, State.reg_onDie, (s.sameReach_unboundWords d q).reg] <;> rfl

theorem State.die_unbound (s : State) (d q : Nat) :
    q ∉ ((s.unbound d q).die d).bound ∧ q ∉ ((s.unbound d q).die d).remap ∧ ((s.unbound d q).die d).mbox = none := by
  rw [State.unbound, State.die_mboxDone, State.die_onDie_self, Die.withoutQueue, State.remapOut, State.die_onDie_self]
  exact ⟨not_mem_filter_ne q _, not_mem_filter_ne q _, rfl⟩

/-- A bound queue with no record in flight leaves the slot that it may hold, and is unbound. -/
theorem exec_queueUnbind_of_idle {s : State} {d q : Nat} (h : CpQuiet s d) (hm : (s.die d).mbox = some 4) (h1 : s.mboxArg d 1 = 0)
    (h2 : s.mboxArg d 2 = 0) (hq : q = (s.reg d 0x500).toNat / 2 ^ 8 % 2 ^ 12) (hb : q ∈ (s.die d).bound)
    (hidle : ∀ e ∈ (s.die d).qslots, e.2.q = q → e.2.recs = []) :
    ∃ t, s.SameReach d t ∧ exec (.queueUnbind d) s = .next ((t.unbound d q).kinds d) := by
  have hbits : bits (s.reg d 0x500) 8 12 = q := by rw [bits_eq, hq]
  have hany : ((s.die d).qslots.any fun e => e.2.q == q && !e.2.recs.isEmpty) = false := List.any_eq_false.2 fun e he => by
    by_cases heq : e.2.q = q
    · simp [hidle e he heq]
    · simp [heq]
  have hgood : ¬(s.mboxArg d 1 ≠ 0 ∨ s.mboxArg d 2 ≠ 0 ∨ (!(s.die d).bound.contains q) = true) := by simp [h1, h2, hb]
  rw [exec_queueUnbind, execQueueUnbind]
  cases hf : (s.die d).qslots.find? fun e => e.2.q == q with
  | none =>
    refine ⟨s, s.sameReach_refl d, mboxAct_of_quiet h hm ?_ (s.reg_unbound d q (by decide))⟩
    dsimp only
    rw [hbits, if_neg hgood, hany, if_neg Bool.false_ne_true, hf]
    rfl
  | some e =>
    refine ⟨s.unmapSlot d e.1 e.2, s.sameReach_unmapSlot d e.1 e.2, mboxAct_of_quiet h hm ?_ ?_⟩
    · dsimp only
      rw [hbits, if_neg hgood, hany, if_neg Bool.false_ne_true, hf]
      rfl
    · rw [State.reg_unbound _ _ _ (by decide), State.reg_unmapSlot]

theorem queueUnbind_of_idle {s : State} {d q : Nat} (h : CpQuiet s d) (hm : (s.die d).mbox = some 4) (h1 : s.mboxArg d 1 = 0) (h2 : s.mboxArg d 2 = 0)
    (hq : q = (s.reg d 0x500).toNat / 2 ^ 8 % 2 ^ 12) (hb : q ∈ (s.die d).bound)
    (hidle : ∀ e ∈ (s.die d).qslots, e.2.q = q → e.2.recs = []) (hc : s.qdescCut d q = false) :
    ∃ t, exec (.queueUnbind d) s = .next t ∧ q ∉ (t.die d).bound ∧ q ∉ (t.die d).remap ∧ (t.qdesc d q 1).getLsbD 4 = false ∧
      (t.qdesc d q 5).toNat % 2 ^ 32 = 0 ∧ t.reg d 0x520 = 0 ∧ (t.die d).mbox = none := by
  obtain ⟨t, hreach, hexec⟩ := exec_queueUnbind_of_idle h hm h1 h2 hq hb hidle
  obtain ⟨hcap, hen⟩ := State.qdesc_unboundWords (s := t) (d := d) (q := q) (by rw [hreach.cut, hc])
  obtain ⟨hbound, hremap, hmbox⟩ := t.die_unbound d q
  refine ⟨(t.unbound d q).kinds d, hexec, ?_, ?_, ?_, ?_, ?_, ?_⟩
  · rw [State.die_kinds]
    exact hbound
  · rw [State.die_kinds]
    exact hremap
  · rw [State.qdesc_kinds, State.qdesc_unbound]
    exact hen
  · rw [State.qdesc_kinds, State.qdesc_unbound]
    exact hcap
  · rw [State.reg_kinds, State.unbound, State.reg_mboxDone]
    rfl
  · rw [State.die_kinds]
    exact hmbox

/-! ### Binding a queue (R317): while every host port is up and no page request is open, no access is lost behind a port -/

/-- Every host port is up, and die `d` has no page request. -/
structure State.HostClear (s : State) (d : Nat) : Prop where
  ports : s.portsDown = []
  pri   : (s.die d).pri = []

/-- A part that succeeds leaves it so; one that faults names no port that is down (R428). -/
def Res.Clear {α : Type} (d : Nat) : Res α → Prop
  | .ok _ t => t.HostClear d
  | .flt f _ => f.code ≠ 0x18
  | .wait _ _ _ => True

/-- A part that names no port that is down, whatever it leaves. -/
def Res.Unlost {α : Type} : Res α → Prop
  | .flt f _ => f.code ≠ 0x18
  | _ => True

theorem Res.Unlost.bind {α β : Type} {r : Res α} {f : α → State → Res β} (h : r.Unlost) (hf : ∀ a t, (f a t).Unlost) :
    (r.bind f).Unlost := by
  cases r with
  | ok a t => exact hf a t
  | flt e t => exact h
  | wait c o t => trivial

theorem Res.Clear.unlost_bind {α β : Type} {d : Nat} {r : Res α} {f : α → State → Res β} (h : r.Clear d)
    (hf : ∀ a t, t.HostClear d → (f a t).Unlost) : (r.bind f).Unlost := by
  cases r with
  | ok a t => exact hf a t h
  | flt e t => exact h
  | wait c o t => trivial

theorem Res.Clear.bind {α β : Type} {d : Nat} {r : Res α} {f : α → State → Res β} (h : r.Clear d)
    (hf : ∀ a t, t.HostClear d → (f a t).Clear d) : (r.bind f).Clear d := by
  cases r with
  | ok a t => exact hf a t h
  | flt e t => exact h
  | wait c o t => trivial

section
variable {s : State} {d : Nat}

theorem State.HostClear.of_eq {t : State} (h : s.HostClear d) (hp : t.portsDown = s.portsDown) (hd : t.dies = s.dies) : t.HostClear d :=
  ⟨hp.trans h.ports, by rw [State.die, hd]; exact h.pri⟩

theorem State.HostClear.onDie (h : s.HostClear d) {e : Nat} {f : Die → Die} (hf : ∀ x, (f x).pri = x.pri) : (s.onDie e f).HostClear d :=
  ⟨h.ports, (s.part_onDie Die.pri e hf d).trans h.pri⟩

theorem State.HostClear.pick (h : s.HostClear d) (n : Nat) : (s.pick n).2.HostClear d := by
  refine h.of_eq ?_ (State.pick_dies s n)
  rw [State.pick]
  split <;> rfl

theorem State.HostClear.snd_ite {α : Type} {t : State} {a b : α} {p : Prop} [Decidable p] (hs : s.HostClear d) (ht : t.HostClear d) :
    (if p then (a, s) else (b, t)).2.HostClear d := by
  split
  · exact hs
  · exact ht

theorem State.HostClear.pick_ite (h : s.HostClear d) (n m : Nat) (p : Prop) [Decidable p] : (if p then s.pick n else (m, s)).2.HostClear d := by
  split
  · exact h.pick n
  · exact h

theorem State.HostClear.storeHome (h : s.HostClear d) (l : Loc) (b : List Byte) : (s.storeHome l b).HostClear d :=
  ⟨(s.sameUnits_storeHome l b).ports.trans h.ports, ((s.sameBesideL2_storeHome l b).part Die.pri (fun _ _ _ => rfl) d).trans h.pri⟩

theorem State.HostClear.hostAt (h : s.HostClear d) (port pasid page : Nat) : (s.hostAt port pasid page).2.HostClear d := by
  rw [State.hostAt]
  dsimp only
  split
  · exact h.pick 2
  · exact (h.pick 2).of_eq rfl rfl

theorem State.HostClear.atsPut (h : s.HostClear d) (pd pasid page perm hp : Nat) : (s.atsPut pd pasid page perm hp).HostClear d := by
  rw [State.atsPut]
  exact (h.pick_ite _ _ _).onDie fun _ => rfl

theorem State.HostClear.stepPick (h : s.HostClear d) (e ctx va lv : Nat) (w : Word) : (s.stepPick e ctx va lv w).2.HostClear d := by
  rw [State.stepPick]
  dsimp only
  split
  · exact h
  · split <;> exact h.pick _

theorem State.HostClear.stepPut (h : s.HostClear d) (e : Nat) (x : WalkStep) : (s.stepPut e x).HostClear d := by
  rw [State.stepPut]
  dsimp only
  split
  · exact h
  · exact (h.pick_ite _ _ _).onDie fun _ => rfl

end

theorem State.HostClear.priDone {s : State} {w : Who} (h : s.HostClear w.die) (page : Nat) : s.priDone w page = s := by
  rw [State.priDone, h.pri]
  rfl

/-- A host address is found, refused, or asked for by a page request. -/
theorem State.clear_hostXlate {s : State} {w : Who} (h : s.HostClear w.die) (k : Kind) (va : Nat) (pte : Word) (lv port a : Nat) (c0 c1 c2 : Word) :
    (s.hostXlate w k va pte lv port a c0 c1 c2).Clear w.die := by
  rw [State.hostXlate.eq_def]
  extract_lets pasid page pd left loc need has pend hit perm t
  have hits : ∀ u p, u.HostClear w.die → (hit u p).Clear w.die := fun u p hu => (hu.hostAt port pasid page).atsPut _ _ _ _ _
  have hnone : pend = none := by rw [show pend = List.find? _ (s.die w.die).pri from rfl, h.pri]; rfl
  have chosen : t.HostClear w.die := h.of_eq rfl rfl
  have hup : ¬s.portsDown.contains port = true := by rw [h.ports]; exact Bool.false_ne_true
  clear_value pend
  rw [if_neg hup]
  split
  · exact (by decide : (2 : Nat) ≠ 0x18)
  split
  · trivial
  split
  · have hat := h.hostAt port pasid page
    dsimp only
    rw [hat.priDone]
    exact hat
  split
  · rw [h.priDone]
    exact h
  rw [hnone]
  dsimp only
  split
  · exact hits _ _ chosen
  split
  · exact (by decide : (0x16 : Nat) ≠ 0x18)
  · trivial

/-- Nor does a table entry name one. -/
theorem pteCheck_ne (d port lv : Nat) (e : Word) : pteCheck d port lv e ≠ 0x18 := by
  rw [pteCheck]
  dsimp only
  split
  · decide
  split
  · decide
  split
  · split
    · decide
    · split
      · decide
      · split <;> decide
  split
  · decide
  · split <;> decide

theorem State.clear_walk (w : Who) (k : Kind) (port va : Nat) (c0 c1 c2 up : Word) (lvs : List Nat) {s : State} (h : s.HostClear w.die) (pa : Nat) :
    (s.walk w k port va c0 c1 c2 up lvs pa).Clear w.die := by
  induction lvs generalizing s up pa with
  | nil => exact (by decide : (0x11 : Nat) ≠ 0x18)
  | cons lv rest ih =>
    rw [State.walk]
    refine Res.Clear.bind ?_ fun l t ht => ?_
    · split
      · exact (by decide : (0x13 : Nat) ≠ 0x18)
      · exact (State.clear_hostXlate h _ _ _ _ _ _ _ _ _).bind fun _ _ ht => ht
      · exact h
    · have picked := ht.stepPick w.die w.ctx va lv (t.peekWord l)
      dsimp only
      split
      · exact (by decide : (1 : Nat) ≠ 0x18)
      split
      · exact pteCheck_ne _ _ _ _
      split
      · exact picked
      · exact ih _ (picked.stepPut _ _) _

/-- An agent without a TLB walks for each access. -/
theorem State.clear_leafFor {s : State} {w : Who} (h : s.HostClear w.die) (k : Kind) (hk : w.tlb k = none) (port va : Nat) (c0 c1 c2 : Word) :
    (s.leafFor w k port va c0 c1 c2).Clear w.die := by
  rw [State.leafFor.eq_def, hk]
  extract_lets own mine wk fresh old upd
  have hmine : mine = [] := List.filter_eq_nil_iff.2 fun t _ => by simp [own]
  have hold : old = [] := by rw [show old = List.filter _ mine from rfl, hmine]; rfl
  have updated : ∀ t x, State.HostClear t w.die → (upd t x).2.HostClear w.die := fun t x ht => ht.snd_ite (ht.storeHome _ _)
  rw [hold, hmine]
  clear_value upd
  refine (State.clear_walk w k port va c0 c1 c2 0 _ h _).bind fun l t ht => ?_
  dsimp only
  split
  · exact (by decide : (0x12 : Nat) ≠ 0x18)
  · exact updated t _ ht

theorem State.unlost_peerXlate (s : State) (w : Who) (k : Kind) (va : Nat) (pte : Word) (lv i o : Nat) :
    (s.peerXlate w k va pte lv i o).Unlost := by
  have bad : (0x17 : Nat) ≠ 0x18 := by decide
  have away : (2 : Nat) ≠ 0x18 := by decide
  rw [State.peerXlate.eq_def]
  dsimp only
  split
  · exact bad
  split
  · exact bad
  split
  · trivial
  split
  · split
    · trivial
    · exact away
    · split
      · exact bad
      · trivial
  split
  · exact away
  split
  · trivial
  split
  · exact bad
  split
  · trivial
  · exact bad

theorem State.unlost_ctxLost {s : State} {d c : Nat} (h : s.HostClear d) {f : Kind → Nat → Res (Loc × Nat × Nat)} (hf : s.ctxLost d c = some f)
    (k : Kind) (va : Nat) : (f k va).Unlost := by
  rw [State.ctxLost.eq_def] at hf
  split at hf
  · extract_lets pd at hf
    rw [if_neg (by rw [h.ports]; exact Bool.false_ne_true)] at hf
    split at hf
    · cases hf
      exact (by decide : (2 : Nat) ≠ 0x18)
    split at hf
    · cases hf
      trivial
    · nomatch hf
  · nomatch hf

theorem State.unlost_translate {s : State} {w : Who} (h : s.HostClear w.die) (k : Kind) (hk : w.tlb k = none) (va : Nat) :
    (s.translate w k va).Unlost := by
  rw [State.translate.eq_def]
  split
  · next hf => exact State.unlost_ctxLost h hf k va
  · exact (by decide : (0x14 : Nat) ≠ 0x18)
  · refine (State.clear_leafFor h k hk _ _ _ _ _).unlost_bind fun (t, hit) u hu => ?_
    dsimp only
    split
    · exact (by decide : (0x12 : Nat) ≠ 0x18)
    split
    · trivial
    split
    · exact (State.clear_hostXlate hu _ _ _ _ _ _ _ _ _).unlost_bind fun _ _ _ => trivial
    · exact (State.unlost_peerXlate _ _ _ _ _ _ _ _).bind fun _ _ => trivial

theorem State.unlost_locate {s : State} {w : Who} (h : s.HostClear w.die) (k : Kind) (hk : w.tlb k = none) (va n : Nat) :
    (s.locate w k va n).Unlost := by
  have bad : (1 : Nat) ≠ 0x18 := by decide
  rw [State.locate]
  split
  · exact bad
  split
  · exact bad
  · split
    · exact bad
    · trivial
  · split
    · exact bad
    · trivial
  · exact State.unlost_translate h k hk va

/-- The command processor has no TLB (R325). -/
theorem tlb_cpWho {d : Nat} (hd : d < 4) (ctx : Nat) (k : Kind) : (cpWho d ctx).tlb k = none := by
  rw [Who.tlb, if_neg, if_pos]
  · rw [cpWho]
    dsimp only
    omega
  · rw [cpWho, copyAgent]
    dsimp only
    omega

/-- The ring of a queue whose descriptor can be reached is not lost. -/
theorem State.ringLost_of_clear {s : State} {d q : Nat} (hd : d < 4) (h : s.HostClear d) (hc : s.qdescCut d q = false) : s.ringLost d q = false := by
  have ht := tlb_cpWho hd (s.qctx d q) kLoad
  have hw : s.HostClear (cpWho d (s.qctx d q)).die := h
  have hu := State.unlost_locate hw kLoad ht (s.qdesc d q 0).toNat 8
  rw [State.ringLost, hc, Bool.false_or]
  split
  · next hl =>
    rw [hl] at hu
    exact beq_eq_false_iff_ne.2 hu
  · rfl

/-- The descriptor of a queue with the words of its bind. -/
def State.bindWords (s : State) (d q : Nat) (ring a : Word) (ctx c : Nat) : State :=
  (((((s.setQdesc d q 0 ring).setQdesc d q 1 a).setQdesc d q 2 0).setQdesc d q 3 0).setQdesc d q 4 (BitVec.ofNat 64 ctx)).setQdesc d q 5
    (BitVec.ofNat 64 c)

section
variable (s : State) (d q : Nat) (ring a : Word) (ctx c : Nat)

theorem State.sameReach_bindWords : s.SameReach d (s.bindWords d q ring a ctx c) :=
  (((((s.sameReach_setQdesc d q _ _).trans (State.sameReach_setQdesc _ d q _ _)).trans (State.sameReach_setQdesc _ d q _ _)).trans
    (State.sameReach_setQdesc _ d q _ _)).trans (State.sameReach_setQdesc _ d q _ _)).trans (State.sameReach_setQdesc _ d q _ _)

theorem State.HostClear.setQdesc {s : State} {d : Nat} (h : s.HostClear d) (q i : Nat) (v : Word) : (s.setQdesc d q i v).HostClear d := by
  rw [State.setQdesc]
  split
  · exact h
  · exact h.storeHome _ _

theorem State.HostClear.bindWords {s : State} {d : Nat} (h : s.HostClear d) : (s.bindWords d q ring a ctx c).HostClear d :=
  (((((h.setQdesc q _ _).setQdesc q _ _).setQdesc q _ _).setQdesc q _ _).setQdesc q _ _).setQdesc q _ _

theorem State.qdesc_bindWords {s : State} {d q : Nat} (hc : s.qdescCut d q = false) :
    (s.bindWords d q ring a ctx c).qdesc d q 0 = ring ∧ (s.bindWords d q ring a ctx c).qdesc d q 1 = a ∧
      (s.bindWords d q ring a ctx c).qdesc d q 2 = 0 ∧ (s.bindWords d q ring a ctx c).qdesc d q 3 = 0 ∧
      (s.bindWords d q ring a ctx c).qdesc d q 4 = BitVec.ofNat 64 ctx ∧ (s.bindWords d q ring a ctx c).qdesc d q 5 = BitVec.ofNat 64 c := by
  simp [State.bindWords, State.qdesc_setQdesc_self, State.qdesc_setQdesc_ne, State.qdescCut_setQdesc, hc]

end

/-- A queue joins the bound ones, whole, and with no record passed over. -/
def Die.withQueue (q : Nat) (x : Die) : Die :=
  { x with bound := insertNat x.bound q, broken := x.broken.filter (· != q), early := x.early.filter fun e => e.1 != q }

/-- The state once a queue has been bound anew under the capability `c`, with nothing lost. -/
def State.boundTo (s : State) (d q : Nat) (ring a : Word) (ctx : Nat) (c : Cap) : State :=
  (((s.withCap d c).bindWords d q ring a ctx (s.die d).nextCap).remapOut d q).onDie d (Die.withQueue q)

section
variable (s : State) (d q : Nat) (ring a : Word) (ctx : Nat) (c : Cap)

theorem State.sameReach_withCap : s.SameReach d (s.withCap d c) := by
  rw [State.withCap, State.sweepCaps]
  exact (s.sameReach_onDie d (fun _ => by rfl) (fun _ => by rfl)).trans (State.sameReach_onDie _ d (fun _ => by rfl) (fun _ => by rfl))

theorem State.sameReach_boundTo : s.SameReach d (s.boundTo d q ring a ctx c) :=
  (((s.sameReach_withCap d c).trans (State.sameReach_bindWords _ d q ring a ctx _)).trans
    (State.sameReach_onDie _ d (fun _ => by rfl) (fun _ => by rfl))).trans (State.sameReach_onDie _ d (fun _ => by rfl) (fun _ => by rfl))

theorem State.HostClear.boundTo {s : State} {d : Nat} (h : s.HostClear d) : (s.boundTo d q ring a ctx c).HostClear d := by
  have hcap : (s.withCap d c).HostClear d := by
    rw [State.withCap, State.sweepCaps]
    exact (State.HostClear.onDie h fun _ => by rfl).onDie fun _ => by rfl
  exact ((hcap.bindWords q ring a ctx _).onDie fun _ => by rfl).onDie fun _ => by rfl

theorem State.qdesc_boundTo (i : Nat) : (s.boundTo d q ring a ctx c).qdesc d q i =
    ((s.withCap d c).bindWords d q ring a ctx (s.die d).nextCap).qdesc d q i := by
  rw [State.boundTo, State.qdesc_onDie, State.remapOut, State.qdesc_onDie] <;> rfl

end

/-- The capability of the ring that the mailbox arguments of a bind name (R317). -/
def State.ringArg (s : State) (d : Nat) : Cap :=
  ⟨(s.mboxArg d 0).toNat, 64 * 2 ^ ((s.mboxArg d 1).toNat % 2 ^ 4 + 4), (s.mboxArg d 2).toNat, true, true, true⟩

/-- The state once they have bound a queue. -/
def State.boundByArgs (s : State) (d q : Nat) : State := s.boundTo d q (s.mboxArg d 0) (s.mboxArg d 1) (s.mboxArg d 2).toNat (s.ringArg d)

section
variable {s : State} {d q : Nat} (h : CpQuiet s d) (hc : s.qdescCut d q = false) (hports : s.portsDown = []) (hpri : (s.die d).pri = [])
include h hc hports hpri

/-- The ring of the queue that has been bound is not lost. -/
theorem State.ringLost_boundByArgs : (s.boundByArgs d q).ringLost d q = false :=
  State.ringLost_of_clear h.die (State.HostClear.boundTo q _ _ _ _ ⟨hports, hpri⟩) (((s.sameReach_boundTo d q _ _ _ _).cut q).trans hc)

variable (hm : (s.die d).mbox = some 2) (hq : q = (s.reg d 0x500).toNat / 2 ^ 8 % 2 ^ 12) (hb : q ∉ (s.die d).bound)
  (hfree : ∀ e ∈ (s.die d).qslots, e.2.q ≠ q) (ha : only (s.mboxArg d 1) 0x33F = true) (h2 : (s.mboxArg d 2).toNat / 2 ^ 16 = 0)
  (h0 : (s.mboxArg d 0).toNat % 64 = 0) (hsz : (s.mboxArg d 1).toNat % 16 < 13) (hctx : (s.context d (s.mboxArg d 2).toNat).isSome = true)
  (hroom : (s.die d).caps.length + (s.die d).revoked.length < 65536)
include hm hq hb hfree ha h2 h0 hsz hctx hroom

/-- A bind whose arguments are admitted, of a queue that was not bound. -/
theorem exec_queueBind_of_good : exec (.queueBind d) s = .next (((s.boundByArgs d q).mboxDone d 0 (s.die d).nextCap).kinds d) := by
  have hlost := State.ringLost_boundByArgs h hc hports hpri
  have hctxn : (s.mboxArg d 2).toNat % 2 ^ 16 = (s.mboxArg d 2).toNat := by omega
  have hbits : bits (s.reg d 0x500) 8 12 = q := by rw [bits_eq, hq]
  have hz : bits (s.mboxArg d 2) 16 48 = 0 := by rw [bits_eq, h2]; rfl
  have hgood : ¬(only (s.mboxArg d 1) 0x33F = false ∨ bits (s.mboxArg d 2) 16 48 ≠ 0 ∨ (s.mboxArg d 0).toNat % 64 ≠ 0 ∨
      13 ≤ bits (s.mboxArg d 1) 0 4 ∨ (s.context d (bits (s.mboxArg d 2) 0 16)).isNone = true) := by
    rw [bits_low, bits_low, hctxn]
    simp [ha, hz, h0, hsz, Option.isSome_iff_ne_none.1 hctx]
  have hdrain : ((s.die d).qslots.any fun e => 128 ≤ e.1 && e.2.q == q && !e.2.recs.isEmpty) = false :=
    List.any_eq_false.2 fun e he => by simp [hfree e he]
  have hbound : (s.die d).bound.contains q = false := by simpa using hb
  have hbind : ∀ (t : State) r a x n, [r, a, 0, 0, BitVec.ofNat 64 x, BitVec.ofNat 64 n].zipIdx.foldl (fun s e => s.setQdesc d q e.2 e.1) t =
    t.bindWords d q r a x n := fun _ _ _ _ _ => rfl
  rw [exec_queueBind, execQueueBind]
  refine mboxAct_of_quiet h hm ?_ (by rw [State.reg_mboxDone_ne _ _ _ _ (by decide)]; exact (s.sameReach_boundTo d q _ _ _ _).reg _)
  dsimp only
  rw [hbits, if_neg hgood, hdrain, hbound, Bool.false_and, Bool.false_and, Bool.false_or, if_neg Bool.false_ne_true, bits_low, bits_low, hctxn,
    State.newCap_of_room _ hroom]
  dsimp only
  rw [if_neg Bool.false_ne_true, hbind]
  exact congrArg (State.mboxDone · d 0 _) (if_neg fun hl => Bool.false_ne_true (hlost.symm.trans hl))

theorem queueBind_of_good (hn : (s.die d).nextCap < 2 ^ 32) :
    ∃ t, exec (.queueBind d) s = .next t ∧ q ∈ (t.die d).bound ∧ t.qdesc d q 0 = s.mboxArg d 0 ∧ t.qdesc d q 1 = s.mboxArg d 1 ∧
      t.qdesc d q 2 = 0 ∧ t.qdesc d q 3 = 0 ∧ t.qdesc d q 4 = s.mboxArg d 2 ∧ (t.qdesc d q 5).toNat = (s.die d).nextCap ∧
      (t.reg d 0x520).toNat = (s.die d).nextCap * 2 ^ 32 ∧ (t.die d).mbox = none := by
  have hcut : (s.withCap d (s.ringArg d)).qdescCut d q = false := by rw [(s.sameReach_withCap d _).cut, hc]
  obtain ⟨w0, w1, w2, w3, w4, w5⟩ := State.qdesc_bindWords (s.mboxArg d 0) (s.mboxArg d 1) (s.mboxArg d 2).toNat (s.die d).nextCap hcut
  have ht : ∀ i, (((s.boundByArgs d q).mboxDone d 0 (s.die d).nextCap).kinds d).qdesc d q i =
      ((s.withCap d (s.ringArg d)).bindWords d q (s.mboxArg d 0) (s.mboxArg d 1) (s.mboxArg d 2).toNat (s.die d).nextCap).qdesc d q i := fun i => by
    rw [State.qdesc_kinds, State.qdesc_mboxDone, State.boundByArgs, State.qdesc_boundTo]
  refine ⟨((s.boundByArgs d q).mboxDone d 0 (s.die d).nextCap).kinds d,
    exec_queueBind_of_good h hc hports hpri hm hq hb hfree ha h2 h0 hsz hctx hroom, ?_, (ht 0).trans w0, (ht 1).trans w1, (ht 2).trans w2,
    (ht 3).trans w3, ?_, ?_, ?_, ?_⟩
  · rw [State.die_kinds, State.die_mboxDone, State.boundByArgs, State.boundTo, State.die_onDie_self]
    exact mem_insertNat _ q
  · rw [ht, w4, BitVec.ofNat_toNat, BitVec.setWidth_eq]
  · rw [ht, w5, BitVec.toNat_ofNat, Nat.mod_eq_of_lt (by omega)]
  · rw [toNat_reg_mboxDone _ _ _ hn (by decide), Nat.add_zero]
  · rw [State.die_kinds, State.die_mboxDone]

end

theorem mailboxCommandsComplete : MailboxCommandsComplete :=
  ⟨fun _ _ h hm => ⟨regionGrant_of_good h hm, regionGrant_of_empty h hm⟩,
    fun _ _ _ h hm hq hb hfree ha h2 h0 hsz hctx hroom hn hc hports hpri =>
      queueBind_of_good h hc hports hpri hm hq hb hfree ha h2 h0 hsz hctx hroom hn,
    fun _ _ _ h hm h1 h2 hx => revoke_of_known h hm h1 h2 hx, fun _ _ _ h hm h1 h2 => queueUnbind_of_idle h hm h1 h2⟩

/-- Settles O51: each mailbox command that is admitted has its effect and ends with code 0, under the capability numbers of
notes/assumptions/15; a flush goes on by one record a step (notes/assumptions/44), and the watchdog reports a wait once. -/
theorem mailboxFlushesAndWatchdog : Obligations.MailboxFlushesAndWatchdog :=
  ⟨mailboxCommandsComplete, flushesAndTheWatchdog⟩

end Sys2Proof.Machine
end

section
/-! SUPPORT of O49 and O50: the acceptance of the next record of a queue, and what it does to the record's slot (R303, R305, R307). -/

namespace Sys2Proof.Machine

open Sys2Proof.Claims

theorem State.refuseIf_false (s : State) : s.refuseIf false = .ok () s := rfl

theorem State.needs_of_none {s : State} {d ctx : Nat} {l : List (Nat × Nat × Bool)} (h : s.capFault d ctx l = none) : s.needs d ctx l = .ok () s := by
  rw [State.needs, h]

section
variable {s s2 : State} {d c : Nat} {q : QSlot} {ws : List Word} (h : NextRecord s d c q ws s2)
include h

theorem recs_started : (q.recs.any fun r => !r.started) = false :=
  List.any_eq_false.2 fun r hr => by rw [h.begun r hr]; exact Bool.false_ne_true

/-- The records in flight have not ended. -/
theorem recs_undone : ∀ r ∈ q.recs, r.done = 0 := fun r hr => h.told _ (Tab.mem_of_find h.slot) r hr

/-- The next record is read, consumes the wake, and is accepted by what its kind does with it. -/
theorem State.recordStep_of_next {kind : Nat → Bool} {start : QSlot → List Word → State → Acc State} {t u : State}
    (hk : kind (recKind ws) = true) (hs : start q ws s2 = .ok t u) : s.recordStep d c kind start = t := by
  obtain ⟨s1, hread, htake⟩ := h.read
  have hlow : decide (128 ≤ c) = false := decide_eq_false (Nat.not_le.2 h.low)
  have hearly : (s.die d).early.contains (q.q, q.head) = false := by
    rw [← Bool.not_eq_true, List.contains_iff_mem]
    exact h.early
  have hctx : (s.context d (s.qctx d q.q)).isNone = false := by rw [Option.isNone_eq_false_iff, h.ctx]
  rw [State.recordStep.eq_def, h.slot]
  dsimp only
  rw [hlow, h.on, h.whole, h.stays, h.free, recs_started h, h.clean, if_neg h.more, hearly, hctx, h.ring, hread]
  simp only [Bool.not_true, Bool.or_false, Option.isSome_none, Bool.false_eq_true, if_false, hk]
  rw [htake, h.good, State.refuseIf_false, Acc.bind, State.needs_of_none h.caps, Acc.bind, hs]

end

/-! ### The slot of a record that is accepted -/

section
variable {s : State} {d c : Nat} {q : QSlot} (hq : s.qslot d c = some q) (r : Rec)
include hq

theorem State.acceptRec_eq : s.acceptRec d c r =
    s.onDie d fun x => { x with qslots := Tab.put x.qslots c { q with head := (q.head + 1) % 2 ^ 32, recs := q.recs ++ [r] } } := by
  rw [State.acceptRec, State.onQslot_of_some _ hq]

theorem State.qslot_acceptRec : (s.acceptRec d c r).qslot d c = some { q with head := (q.head + 1) % 2 ^ 32, recs := q.recs ++ [r] } := by
  rw [State.acceptRec_eq hq, State.qslot, State.die_onDie_self, Tab.find_put_self]

theorem State.reg_acceptRec (off : Nat) : (s.acceptRec d c r).reg d off = s.reg d off := by
  rw [State.acceptRec_eq hq, State.reg_onDie rfl]

theorem State.qctx_acceptRec (p : Nat) : (s.acceptRec d c r).qctx d p = s.qctx d p := by
  rw [State.acceptRec_eq hq, State.qctx, State.qdesc_onDie, State.qctx]
  rfl

theorem State.mem_acceptRec : (s.acceptRec d c r).mem = s.mem := by rw [State.acceptRec_eq hq]; rfl

/-- A part of the die beside its slots. -/
theorem State.part_acceptRec {α : Type} (f : Die → α) (hf : ∀ x l, f { x with qslots := l } = f x) :
    f ((s.acceptRec d c r).die d) = f (s.die d) := by
  rw [State.acceptRec_eq hq, State.die_onDie_self, hf]

end

/-- The records, HEAD and queue of a slot are not what its wait state changes. -/
theorem State.qslot_kinds_of_some {s : State} {d c : Nat} {q : QSlot} (hq : s.qslot d c = some q) :
    ∃ y, (s.kinds d).qslot d c = some y ∧ y = s.slotNow d q ∧ y.q = q.q ∧ y.head = q.head ∧ y.recs = q.recs := by
  refine ⟨s.slotNow d q, by rw [State.qslot_kinds, hq]; rfl, rfl, ?_⟩
  rw [State.slotNow, QSlot.asNow_eq]
  exact ⟨rfl, rfl, rfl⟩

/-- So a record that has been accepted stays so. -/
theorem accepted_kinds {s : State} {d c : Nat} {q : QSlot} {r : Rec}
    (hs : s.qslot d c = some { q with head := (q.head + 1) % 2 ^ 32, recs := q.recs ++ [r] }) : Accepted q r d c (s.kinds d) := by
  obtain ⟨y, hy, -, hyq, hyh, hyr⟩ := State.qslot_kinds_of_some hs
  exact ⟨y, hy, hyq, hyr, hyh⟩

theorem accepted_acceptRec {s : State} {d c : Nat} {q : QSlot} (hq : s.qslot d c = some q) (r : Rec) :
    Accepted q r d c ((s.acceptRec d c r).kinds d) :=
  accepted_kinds (State.qslot_acceptRec hq r)

/-- An act of the command processor on its next record. -/
theorem cpAct_of_next {s s2 t : State} {d c : Nat} {q : QSlot} {ws : List Word} (h : NextRecord s d c q ws s2) {f : State → State} (hf : f s = t)
    (ht : bits (t.reg d 0xD08) 12 44 = 0) : cpAct d s f = .next (t.kinds d) := by
  rw [cpAct_of_quiet h.toCpQuiet, hf, State.showWaits_of_no_mirror ht]

end Sys2Proof.Machine
end

section
/-! PROOF of O49: records of queues start, waits end, and transfers run (R305, R307, R316). -/

namespace Sys2Proof.Machine

open Sys2Proof.Claims

theorem exec_nop (d c : Nat) (s : State) : exec (.nop d c) s = execNop d c s := rfl

theorem exec_wait (d c : Nat) (s : State) : exec (.wait d c) s = execWait d c s := rfl

theorem exec_signal (d c : Nat) (s : State) : exec (.signal d c) s = execSignal d c s := rfl

theorem exec_boundary (d c : Nat) (s : State) : exec (.boundary d c) s = execBoundary d c s := rfl

theorem exec_waitRecordSatisfied (d c : Nat) (s : State) : exec (.waitRecordSatisfied d c) s = execWaitRecordSatisfied d c s := rfl

theorem exec_transfer (d c : Nat) (s : State) : exec (.transfer d c) s = execTransfer d c s := rfl

theorem exec_transferJobComplete (d e : Nat) (s : State) : exec (.transferJobComplete d e) s = execTransferJobComplete d e s := rfl

/-! ### What holds a record (R307) -/

/-- No Wait record is in flight before a record that may start. -/
theorem no_waits_of_startWhy {ws : List Word} {foot : List (Word × Word)} {rs : List Rec} (h : startWhy ws foot rs = none) : rs.any Rec.waits = false := by
  rw [startWhy] at h
  split at h
  · nomatch h
  · next hw => simpa using hw

/-- Nothing holds a record behind none, beside the edges of its footprint. -/
theorem startWhy_nil (ws : List Word) (foot : List (Word × Word)) : startWhy ws foot [] = none := by
  simp [startWhy]

theorem find_append_of_none {p : Rec → Bool} {l : List Rec} {r : Rec} (hl : l.any p = false) (hr : p r = true) : (l ++ [r]).find? p = some r := by
  rw [List.find?_append, List.find?_eq_none.2 fun x hx => by simpa using List.any_eq_false.1 hl x hx, Option.none_or]
  exact List.find?_cons_of_pos hr

/-- The kind that a slot shows is that of the record that waits. -/
theorem QSlot.kind_asNow (x : Die) (busy : Bool) (ns : Nat) (q : QSlot) : (q.asNow x busy ns).kind = (q.waiting x busy).1 := by
  rw [QSlot.asNow.eq_def]
  split
  next k i hw =>
  rw [hw]
  split
  · assumption
  · rfl

/-- A slot's only record, where it waits, tells its kind (R423). -/
theorem kind_of_only {t : State} {d c : Nat} {q : QSlot} {r : Rec} {k : Nat} (hq : t.qslot d c = some q) (hr : q.recs = [r])
    (hk : r.waitKind (t.die d) ((t.reg d 0x228).getLsbD 1) [r] = k) (h0 : k ≠ 0) : ((t.kinds d).qslot d c).map (·.kind) = some k := by
  obtain ⟨y, hy, hyn, -⟩ := State.qslot_kinds_of_some hq
  rw [hy, hyn, Option.map_some, State.slotNow, QSlot.kind_asNow, QSlot.waiting, hr, List.find?_cons_of_pos (by rw [hk]; exact bne_iff_ne.2 h0)]
  exact congrArg some hk

/-- A Signal record that stands first in its slot updates its word, and retires. -/
theorem State.doSignal_of_first {t u : State} {d c v : Nat} {r : Rec} {y : QSlot} (hy : t.qslot d c = some y) (hr : y.recs = [r]) (hk : recKind r.words = 3)
    (hd : r.done = 0) (hf : t.flushing d y.q = false)
    (hu : t.rmw (cpWho d (t.qctx d y.q)) (r.words.getD 1 0) 8 false
      (fun n => (opSig (r.words.getD 3 0).toNat (BitVec.ofNat 64 n) (r.words.getD 2 0)).toNat) = .ok v u) :
    t.doSignal d c = u.retireRec d c r.idx 1 := by
  rw [State.doSignal.eq_def, hy]
  dsimp only
  rw [hr]
  dsimp only
  rw [if_neg (by simp [hk, hd, hf]), hu]

/-- Every Boundary record before has written GO. -/
theorem no_boundary_of_gone {q : QSlot} (hb : ∀ r ∈ q.recs, r.idx ≠ q.head ∧ (recKind r.words = 4 → r.gone = true)) : q.recs.any Rec.boundary = false := by
  refine List.any_eq_false.2 fun r hr hrb => ?_
  rw [Rec.boundary] at hrb
  by_cases hk : recKind r.words = 4
  · simp [(hb r hr).2 hk] at hrb
  · simp [hk] at hrb

/-- What the start of a boundary leaves: GROUPS and BUSY in its register. -/
theorem State.goBoundary_parts (t : State) (d n : Nat) :
    ((t.goBoundary d n).reg d 0x228).getLsbD 1 = true ∧ ((t.goBoundary d n).reg d 0x228).toNat / 2 ^ 16 % 2 ^ 16 = n % 2 ^ 16 ∧
      (t.goBoundary d n).reg d 0xD08 = t.reg d 0xD08 ∧ ((t.goBoundary d n).die d).qslots = (t.die d).qslots ∧
      (t.goBoundary d n).mem = t.mem := by
  have hreg : ∀ off, (t.goBoundary d n).reg d off = ((t.setField d 0x228 16 16 n).setField d 0x228 1 1 1).reg d off := fun off => by
    rw [State.goBoundary, State.reg_onDie rfl]
  refine ⟨?_, ?_, ?_, ?_, rfl⟩
  · rw [hreg, State.reg_setField, getLsbD_putBits _ _ _ (by omega)]
    rfl
  · rw [hreg, State.reg_setField, toNat_putBits _ _ (by decide), State.reg_setField, toNat_putBits _ _ (by decide)]
    omega
  · rw [hreg, State.reg_setField_ne _ _ _ _ (by decide), State.reg_setField_ne _ _ _ _ (by decide)]
  · rw [State.goBoundary, State.die_onDie_self, State.die_setField, State.die_setField]

/-- A started Boundary record marked as having written GO. -/
theorem map_gone {q : QSlot} {ws : List Word} (hidx : ∀ r ∈ q.recs, r.idx ≠ q.head) :
    ((q.recs ++ [startedRec q ws]).map fun y => if y.idx = q.head then { y with gone := true } else y) =
      q.recs ++ [{ startedRec q ws with gone := true }] := by
  have hkeep : (q.recs.map fun y => if y.idx = q.head then { y with gone := true } else y) = q.recs :=
    (List.map_congr_left fun r hr => if_neg (hidx r hr)).trans (List.map_id _)
  rw [List.map_append, hkeep]
  exact congrArg (q.recs ++ ·) (congrArg (· :: []) (if_pos rfl))

section
variable {s s2 : State} {d c : Nat} {q : QSlot} {ws : List Word} (h : NextRecord s d c q ws s2)
include h

/-! ### Nop records -/

theorem nop_of_next {u : State} (hk : recKind ws = 6) (hw : startWhy ws [] q.recs = none)
    (hu : (s2.onQslot d c fun y => { y with head := (y.head + 1) % 2 ^ 32 }).statusOut d q.q q.head (s2.muted d (s2.qctx d q.q) ws) 1 = .ok () u)
    (hq : u.qslot d c = some { q with head := (q.head + 1) % 2 ^ 32 }) (hr : bits (u.reg d 0xD08) 12 44 = 0) :
    ∃ t y, exec (.nop d c) s = .next t ∧ t.mem = u.mem ∧ t.qslot d c = some y ∧ y.head = (q.head + 1) % 2 ^ 32 ∧ y.recs = q.recs := by
  obtain ⟨y, hy, -, -, hyh, hyr⟩ := State.qslot_kinds_of_some hq
  refine ⟨u.kinds d, y, ?_, rfl, hy, hyh, hyr⟩
  rw [exec_nop, execNop]
  refine cpAct_of_next h ?_ hr
  refine State.recordStep_of_next h (u := s2) (by rw [hk]; rfl) ?_
  rw [hw]
  dsimp only
  refine congrArg (Acc.ok · s2) ?_
  rw [State.refuseRec, if_neg (by decide), State.passHead, hu]

/-! ### Wait records -/

theorem wait_of_next {v : Word} {s4 : State} (hk : recKind ws = 2) (hw : startWhy ws [] q.recs = none)
    (hread : (s2.acceptRec d c (startedRec q ws)).readSig (cpWho d ((s2.acceptRec d c (startedRec q ws)).qctx d q.q)) (ws.getD 1 0) = .ok v s4)
    (hcond : condSig (ws.getD 3 0).toNat v (ws.getD 2 0) = false) :
    ∃ t, exec (.wait d c) s = .next t ∧ Accepted q (startedRec q ws) d c t ∧ t.mem = s2.mem ∧
      (q.recs = [] → (t.qslot d c).map (·.kind) = some 1) := by
  have hslot := State.qslot_acceptRec h.keeps (startedRec q ws)
  have hwaits : (startedRec q ws).waits = true := by rw [Rec.waits, startedRec, hk]; rfl
  have hfind : (q.recs ++ [startedRec q ws]).find? Rec.waits = some (startedRec q ws) :=
    find_append_of_none (no_waits_of_startWhy hw) hwaits
  refine ⟨(s2.acceptRec d c (startedRec q ws)).kinds d, ?_, accepted_acceptRec h.keeps _, State.mem_acceptRec h.keeps _, fun hnil => ?_⟩
  · rw [exec_wait, execWait]
    refine cpAct_of_next h ?_ (by rw [State.reg_acceptRec h.keeps]; exact h.quiet)
    refine State.recordStep_of_next h (u := s2) (by rw [hk]; rfl) ?_
    rw [hw]
    dsimp only
    refine congrArg (Acc.ok · s2) ?_
    have htest : (s2.acceptRec d c (startedRec q ws)).testWait d c = s2.acceptRec d c (startedRec q ws) := by
      rw [State.testWait.eq_def, hslot]
      dsimp only
      simp only [h.stays, Option.isNone_none, Bool.and_true]
      rw [hfind]
      dsimp only
      rw [show (startedRec q ws).words = ws from rfl, hread]
      dsimp only
      rw [hcond, if_neg Bool.false_ne_true]
    exact htest
  · refine kind_of_only hslot (by rw [hnil]; rfl) ?_ (by decide)
    rw [Rec.waitKind, hwaits]
    rfl

/-! ### Signal records -/

theorem signal_of_next {r : Rec} {l : List Rec} (hk : recKind ws = 3) (hw : startWhy ws [] q.recs = none) (hr : q.recs = r :: l)
    (hr3 : recKind r.words ≠ 3) :
    ∃ t, exec (.signal d c) s = .next t ∧ Accepted q (startedRec q ws) d c t ∧ t.mem = s2.mem := by
  refine ⟨(s2.acceptRec d c (startedRec q ws)).kinds d, ?_, accepted_acceptRec h.keeps _, State.mem_acceptRec h.keeps _⟩
  have hhead : ((s.qslot d c).bind fun q => q.recs.head?) = some r := by rw [h.slot, Option.bind_some, hr]; rfl
  rw [exec_signal, execSignal]
  refine cpAct_of_next h ?_ (by rw [State.reg_acceptRec h.keeps]; exact h.quiet)
  rw [hhead]
  dsimp only
  rw [if_neg fun hs => hr3 hs.1]
  refine State.recordStep_of_next h (u := s2) (by rw [hk]; rfl) ?_
  rw [hw]
  rfl

theorem signal_of_first {v : Nat} {s4 : State} (hk : recKind ws = 3) (hr : q.recs = []) (hf : s2.flushing d q.q = false)
    (hu : (s2.acceptRec d c (startedRec q ws)).rmw (cpWho d (s2.qctx d q.q)) (ws.getD 1 0) 8 false
      (fun n => (opSig (ws.getD 3 0).toNat (BitVec.ofNat 64 n) (ws.getD 2 0)).toNat) = .ok v s4)
    (hm : bits ((s4.retireRec d c q.head 1).reg d 0xD08) 12 44 = 0) :
    ∃ t, exec (.signal d c) s = .next t ∧ t.mem = (s4.retireRec d c q.head 1).mem := by
  refine ⟨(s4.retireRec d c q.head 1).kinds d, ?_, rfl⟩
  have hhead : ((s.qslot d c).bind fun q => q.recs.head?) = none := by rw [h.slot, Option.bind_some, hr]; rfl
  have hflush : (s2.acceptRec d c (startedRec q ws)).flushing d q.q = false := by
    rw [State.flushing, State.part_acceptRec h.keeps _ Die.ctrl fun _ _ => rfl]
    exact hf
  rw [exec_signal, execSignal]
  refine cpAct_of_next h ?_ hm
  rw [hhead]
  dsimp only
  refine State.recordStep_of_next h (u := s2) (by rw [hk]; rfl) ?_
  refine congrArg (Acc.ok · s2) ?_
  exact State.doSignal_of_first (State.qslot_acceptRec h.keeps (startedRec q ws)) (by rw [hr]; rfl) hk rfl hflush
    (by rw [State.qctx_acceptRec h.keeps]; exact hu)


/-! ### Boundary records -/

/-- A Boundary record that may start does what a started one does. -/
theorem exec_boundary_of_next {t : State} (hk : recKind ws = 4) (hw : startWhy ws [] q.recs = none) (hb : q.recs.any Rec.boundary = false)
    (ht : (s2.acceptRec d c (startedRec q ws)).doBoundary d c = t) (hm : bits (t.reg d 0xD08) 12 44 = 0) :
    exec (.boundary d c) s = .next (t.kinds d) := by
  have hnone : q.recs.find? Rec.boundary = none := List.find?_eq_none.2 fun r hr => by simpa using List.any_eq_false.1 hb r hr
  rw [exec_boundary, execBoundary]
  refine cpAct_of_next h ?_ hm
  rw [h.slot, Option.bind_some, hnone, Option.isSome_none, if_neg Bool.false_ne_true]
  refine State.recordStep_of_next h (u := s2) (by rw [hk]; rfl) ?_
  rw [hw]
  exact congrArg (Acc.ok · s2) ht

theorem find_boundary_accepted (hk : recKind ws = 4) (hb : q.recs.any Rec.boundary = false) :
    ((s2.acceptRec d c (startedRec q ws)).qslot d c).bind (fun q => q.recs.find? Rec.boundary) = some (startedRec q ws) := by
  rw [State.qslot_acceptRec h.keeps, Option.bind_some]
  refine find_append_of_none hb ?_
  rw [Rec.boundary, startedRec, hk]
  rfl

theorem boundary_of_busy (hk : recKind ws = 4) (hw : startWhy ws [] q.recs = none) (hb : q.recs.any Rec.boundary = false)
    (hbusy : (s2.reg d 0x228).getLsbD 1 = true) :
    ∃ t, exec (.boundary d c) s = .next t ∧ t.mem = s2.mem ∧ Accepted q (startedRec q ws) d c t ∧ (t.die d).gov = (s2.die d).gov ∧
      (q.recs = [] → (t.qslot d c).map (·.kind) = some 4) := by
  have hreg := State.reg_acceptRec h.keeps (startedRec q ws)
  refine ⟨(s2.acceptRec d c (startedRec q ws)).kinds d, exec_boundary_of_next h hk hw hb ?_ (by rw [hreg]; exact h.quiet),
    State.mem_acceptRec h.keeps _, accepted_acceptRec h.keeps _, ?_, fun hnil => ?_⟩
  · rw [State.doBoundary, find_boundary_accepted h hk hb]
    dsimp only
    rw [hreg, hbusy, if_pos rfl]
  · rw [State.die_kinds]
    exact State.part_acceptRec h.keeps _ Die.gov fun _ _ => rfl
  · refine kind_of_only (State.qslot_acceptRec h.keeps (startedRec q ws)) (by rw [hnil]; rfl) ?_ (by decide)
    have hnw : (startedRec q ws).waits = false := by rw [Rec.waits, startedRec, hk]; rfl
    have hbd : (startedRec q ws).boundary = true := by rw [Rec.boundary, startedRec, hk]; rfl
    rw [Rec.waitKind, hnw, hbd, hreg, hbusy]
    rfl

theorem boundary_of_idle (hk : recKind ws = 4) (hw : startWhy ws [] q.recs = none) (hb : q.recs.any Rec.boundary = false)
    (hidx : ∀ r ∈ q.recs, r.idx ≠ q.head) (hidle : (s2.reg d 0x228).getLsbD 1 = false) :
    ∃ t, exec (.boundary d c) s = .next t ∧ t.mem = s2.mem ∧ Accepted q { startedRec q ws with gone := true } d c t ∧
      (t.reg d 0x228).getLsbD 1 = true ∧ (t.reg d 0x228).toNat / 2 ^ 16 % 2 ^ 16 = (ws.getD 1 0).toNat % 2 ^ 16 ∧
      (t.die d).gov = some (c, q.head) := by
  have hreg := State.reg_acceptRec h.keeps (startedRec q ws)
  have hslot := State.qslot_acceptRec h.keeps (startedRec q ws)
  generalize ha : s2.acceptRec d c (startedRec q ws) = a at hreg hslot
  obtain ⟨hbusy, hgroups, hmirror, hslots, hmem⟩ := a.goBoundary_parts d (ws.getD 1 0).toNat
  generalize hg : a.goBoundary d (ws.getD 1 0).toNat = g at hbusy hgroups hmirror hslots hmem
  have hgslot : (g.onDie d fun x => { x with gov := some (c, q.head) }).qslot d c =
      some { q with head := (q.head + 1) % 2 ^ 32, recs := q.recs ++ [startedRec q ws] } := by
    rw [State.qslot, State.die_onDie_self, hslots]
    exact hslot
  generalize hy : { q with head := (q.head + 1) % 2 ^ 32, recs := q.recs ++ [{ startedRec q ws with gone := true }] } = y
  generalize ht : ((g.onDie d fun x => { x with gov := some (c, q.head) }).onDie d fun x => { x with qslots := Tab.put x.qslots c y }) = t
  have htreg : ∀ off, t.reg d off = g.reg d off := fun off => by rw [← ht, State.reg_onDie rfl, State.reg_onDie rfl]
  have htmem : t.mem = s2.mem := by
    rw [← ht, ← State.mem_acceptRec h.keeps (startedRec q ws), ha]
    exact hmem
  refine ⟨t.kinds d, exec_boundary_of_next h hk hw hb ?_ (by rw [htreg, hmirror, hreg]; exact h.quiet), htmem, accepted_kinds ?_, ?_, ?_, ?_⟩
  · rw [State.doBoundary, find_boundary_accepted h hk hb, ha]
    dsimp only
    rw [hreg, hidle, if_neg Bool.false_ne_true, show (startedRec q ws).words = ws from rfl, show (startedRec q ws).idx = q.head from rfl, hg,
      State.onQslot_of_some _ hgslot, ← ht]
    dsimp only
    rw [map_gone hidx, ← hy]
  · rw [← ht, State.qslot, State.die_onDie_self, Tab.find_put_self, ← hy]
  · rw [State.reg_kinds, htreg]
    exact hbusy
  · rw [State.reg_kinds, htreg]
    exact hgroups
  · rw [State.die_kinds, ← ht, State.die_onDie_self, State.die_onDie_self]

end

theorem recordsOfQueuesStart : RecordsOfQueuesStart := by
  refine ⟨fun s d c q ws s2 u h hk hw hu hq hr => nop_of_next h hk hw hu hq hr,
    fun s d c q ws s2 v s4 h hk hw hread hcond => wait_of_next h hk hw hread hcond,
    fun s d c q ws s2 r l h hk hw hr hr3 => signal_of_next h hk hw hr hr3,
    fun s d c q ws s2 v s4 h hk hr hf hu hm => signal_of_first h hk hr hf hu hm, fun s d c q ws s2 h hk hw hb => ?_⟩
  have hgone := no_boundary_of_gone hb
  by_cases hbusy : (s2.reg d 0x228).getLsbD 1 = true
  · simp only [if_pos hbusy]
    exact boundary_of_busy h hk hw hgone hbusy
  · simp only [if_neg hbusy]
    exact boundary_of_idle h hk hw hgone (fun r hr => (hb r hr).1) (by simpa using hbusy)

/-! ### The end of waits (R307) -/

section
variable {s : State} {d c : Nat} {q : QSlot} {r : Rec} {v : Word} {u : State} (h : CpQuiet s d) (hq : s.qslot d c = some q) (hl : q.leaving = none)
  (hr : q.recs.find? (fun y => recKind y.words == 2) = some r)
  (hread : s.readSig (cpWho d (s.qctx d q.q)) (r.words.getD 1 0) = .ok v u)
include h hq hl hr hread

theorem exec_waitRecordSatisfied_of_read {t : State} (ht : (if condSig (r.words.getD 3 0).toNat v (r.words.getD 2 0) then u.retireRec d c r.idx 1 else s) = t) :
    exec (.waitRecordSatisfied d c) s = .next (t.showWaits d) := by
  rw [exec_waitRecordSatisfied, execWaitRecordSatisfied, cpAct_of_quiet h]
  refine congrArg (Host.Outcome.next ∘ (State.showWaits · d)) (Eq.trans ?_ ht)
  rw [State.testWait.eq_def, hq]
  dsimp only
  simp only [hl, Option.isNone_none, Bool.and_true]
  rw [find_waits h hq, hr]
  dsimp only
  rw [hread]

theorem waitRecordSatisfied_of_true (hc : condSig (r.words.getD 3 0).toNat v (r.words.getD 2 0) = true) :
    exec (.waitRecordSatisfied d c) s = .next ((u.retireRec d c r.idx 1).showWaits d) :=
  exec_waitRecordSatisfied_of_read h hq hl hr hread (if_pos hc)

theorem waitRecordSatisfied_of_false (hc : condSig (r.words.getD 3 0).toNat v (r.words.getD 2 0) = false) :
    exec (.waitRecordSatisfied d c) s = .next s := by
  refine (exec_waitRecordSatisfied_of_read h hq hl hr hread (if_neg (by rw [hc]; exact Bool.false_ne_true))).trans (congrArg Host.Outcome.next ?_)
  rw [State.showWaits_of_no_mirror h.mirror, h.shown]

end

/-! ### Transfers (R316) -/

/-- A record without footprint entries reads and writes every byte. -/
theorem State.readFoot_of_none (s : State) (d ctx : Nat) {ws : List Word} (h : recFootn ws = 0) :
    s.readFoot d ctx ws = .ok [(0x8000000000000000, 2 ^ 57), (0, 2 ^ 57)] s := by
  rw [State.readFoot, if_pos h]
  rfl

theorem Acc.ok_bind {α β : Type} (a : α) (s : State) (f : α → State → Acc β) : (Acc.ok a s).bind f = f a s := rfl

theorem transfer_of_next {s s2 s3 s4 s5 t : State} {d c : Nat} {q : QSlot} {ws ds : List Word} {x : Work} (h : NextRecord s d c q ws s2)
    (hk : recKind ws = 5) (hr : q.recs = []) (hf : recFootn ws = 0) (ha : (ws.getD 1 0).toNat % 64 = 0)
    (ho : offMemory (ws.getD 1 0).toNat 64 = false) (hc : s2.capFault d (s2.qctx d q.q) [((ws.getD 1 0).toNat, 64, false)] = none)
    (hds : s2.readWords (cpWho d (s2.qctx d q.q)) kLoad (ws.getD 1 0).toNat 8 = .ok ds s3) (hdk : dKind ds = 3) (hdo : descOk ds = true)
    (hdc : s3.capFault d (s2.qctx d q.q) ([(wd ds 1, 1, false), (wd ds 2, 1, false), (wd ds 4, 4 * dNblk ds, false), (wd ds 5, 4 * dNblk ds, false)] ++
      (if wd ds 6 = 0 then [] else [(wd ds 6, 8, true)]) ++ if wd ds 7 = 0 then [] else [(wd ds 7, 128, false)]) = none)
    (hx : s3.workOf (cpWho d (s2.qctx d q.q)) (ws.getD 1 0).toNat ds = .ok x s4)
    (h5 : s4.acceptRec d c { startedRec q ws with foot := [(0x8000000000000000, 2 ^ 57), (0, 2 ^ 57)] } = s5)
    (ht : ((s5.pinAll (cpWho d (s2.qctx d q.q)) [x]).placeCopy d (transferJob d c (s5.pickEngine d) q (s2.qctx d q.q) x)) = t) :
    exec (.transfer d c) s = .next (t.showWaits d) := by
  rw [exec_transfer, execTransfer, cpAct_of_quiet h.toCpQuiet]
  refine congrArg (Host.Outcome.next ∘ (State.showWaits · d)) ?_
  refine State.recordStep_of_next h (u := s5) (by rw [hk]; rfl) ?_
  have hva : ((ws.getD 1 0).toNat % 64 != 0 || offMemory (ws.getD 1 0).toNat 64) = false := by rw [ha, ho]; rfl
  have hdesc : (dKind ds != 3 || !descOk ds) = false := by rw [hdk, hdo]; rfl
  dsimp only
  rw [hva, State.refuseIf_false, Acc.ok_bind, State.needs_of_none hc, Acc.ok_bind, State.readFoot_of_none _ _ _ hf, Acc.ok_bind, hds, Acc.read,
    Acc.ok_bind, hdesc, State.refuseIf_false, Acc.ok_bind, State.needs_of_none hdc, Acc.ok_bind, hr, startWhy_nil]
  dsimp only
  rw [hx, ← ht, ← h5]
  rfl

/-- A job joins the copies of its die, at the tail of its engine. -/
theorem State.placeCopy_of_engine (s : State) (d e : Nat) (c : Copy) (he : c.eng = some e) (hw : c.work.head?.map Work.isPages ≠ some true) :
    Tab.find ((s.placeCopy d c).die d).copies s.nextCopy = some c ∧
      Tab.getD ((s.placeCopy d c).die d).engines e [] = Tab.getD (s.die d).engines e [] ++ [s.nextCopy] ∧ (s.placeCopy d c).mem = s.mem := by
  have hplace : s.placeCopy d c =
      (s.onDie d fun x => { x with copies := Tab.put x.copies s.nextCopy c, nextC := s.nextCopy + 1 }).toEngine d e s.nextCopy := by
    rw [State.placeCopy.eq_def, he]
    dsimp only
    split
    · next hp =>
      rw [hp] at hw
      exact absurd rfl hw
    · rfl
  rw [hplace, State.toEngine, State.die_onDie_self, State.die_onDie_self]
  exact ⟨Tab.find_put_self _ _ _, Tab.getD_put_self _ _ _ _, rfl⟩

/-! ### The end of a job (R316): what retires a record, or ends a launch, leaves the copies, the
transfer engines and the registers -/

/-- The copies, the transfer engines and the registers of a die. -/
def Die.jobs (x : Die) : Tab Copy × Tab (List Nat) × Tab Word := (x.copies, x.engines, x.regs)

/-- Those of the dies of `t` are those of `s`. -/
def State.SameJobs (s t : State) : Prop := ∀ e, (t.die e).jobs = (s.die e).jobs

theorem State.sameJobs_refl (s : State) : s.SameJobs s := fun _ => rfl

theorem State.SameJobs.trans {s t u : State} (h : s.SameJobs t) (g : t.SameJobs u) : s.SameJobs u :=
  fun e => (g e).trans (h e)

theorem State.SameBesideMemory.sameJobs {s t : State} (h : s.SameBesideMemory t) : s.SameJobs t :=
  h.part Die.jobs

theorem State.sameJobs_of_dies {s t : State} (h : t.dies = s.dies) : s.SameJobs t := fun e => by rw [State.die, h, State.die]

theorem State.sameJobs_onDie (s : State) (d : Nat) (f : Die → Die)
    (hf : ∀ x : Die, (f x).jobs = x.jobs := by exact fun _ => rfl) : s.SameJobs (s.onDie d f) :=
  s.part_onDie Die.jobs d hf

theorem State.sameJobs_ite {s t u : State} {p : Prop} [Decidable p] (ht : s.SameJobs t) (hu : s.SameJobs u) : s.SameJobs (if p then t else u) := by
  split
  · exact ht
  · exact hu

theorem State.sameJobs_foldl {α : Type} {f : State → α → State} (h : ∀ (s : State) a, s.SameJobs (f s a)) (l : List α) (s : State) :
    s.SameJobs (l.foldl f s) := by
  induction l generalizing s with
  | nil => exact s.sameJobs_refl
  | cons a l ih => exact (h s a).trans (ih _)

/-- The retirement of a record writes to memory, and changes the records of its slot. -/
theorem State.retireRec_parts (s : State) (d c idx status : Nat) : ∃ u, s.SameBesideMemory u ∧
    (s.retireRec d c idx status = u ∨ ∃ g : Die → Tab QSlot, s.retireRec d c idx status = u.onDie d fun x => { x with qslots := g x }) := by
  rw [State.retireRec.eq_def]
  split
  · exact ⟨s, s.sameMem_refl, .inl rfl⟩
  split
  · exact ⟨s, s.sameMem_refl, .inl rfl⟩
  next q _ _ r _ =>
  extract_lets st gone
  have told := s.sameMem_statusOut d q.q idx r.words st
  split
  · next u eq =>
    rw [eq] at told
    exact ⟨u, told, .inr ⟨_, rfl⟩⟩
  · next u eq =>
    rw [eq] at told
    exact ⟨u, told, .inr ⟨_, rfl⟩⟩
  · exact ⟨_, s.sameMem_keepWaits _, .inr ⟨_, rfl⟩⟩

theorem State.sameJobs_retireRec (s : State) (d c idx status : Nat) : s.SameJobs (s.retireRec d c idx status) := by
  obtain ⟨u, hu, h | ⟨g, h⟩⟩ := s.retireRec_parts d c idx status
  · rw [h]
    exact hu.sameJobs
  · rw [h]
    exact hu.sameJobs.trans (u.sameJobs_onDie d _)

theorem State.sameJobs_closeLaunch (s : State) (d no status : Nat) : s.SameJobs (s.closeLaunch d no status) := by
  rw [State.closeLaunch.eq_def]
  split
  · exact s.sameJobs_refl
  · extract_lets flushed freed gone
    have hflushed : s.SameJobs flushed :=
      State.sameJobs_ite (State.sameMem_foldl (fun t u => t.sameMem_flushL1 u _) _ s).sameJobs s.sameJobs_refl
    have hfreed : s.SameJobs freed := hflushed.trans (State.sameJobs_of_dies rfl)
    have hgone : s.SameJobs gone := hfreed.trans (freed.sameJobs_onDie d _)
    split
    · exact (hgone.trans (gone.sameJobs_onDie d _)).trans (State.sameJobs_retireRec _ _ _ _ _)
    · exact hgone

theorem State.dies_endChain (s : State) (t : Nat) : (s.endChain t).dies = s.dies := by
  rw [State.endChain]
  split
  · rfl
  · exact List.foldlRecOn (motive := fun u : State => u.dies = s.dies) _ _ rfl fun u hu n _ => hu

theorem State.sameJobs_vacate (s : State) (k : Nat) : s.SameJobs (s.vacate k) := by
  rw [State.vacate.eq_def]
  extract_lets idled ended tiles no
  have hidled : s.SameJobs idled := State.sameJobs_ite (State.sameJobs_of_dies rfl) s.sameJobs_refl
  have hended : idled.SameJobs ended := State.sameJobs_ite (State.sameJobs_of_dies (idled.dies_endChain _)) idled.sameJobs_refl
  exact ((hidled.trans hended).trans (State.sameJobs_of_dies rfl)).trans (State.sameJobs_onDie _ _ _)

theorem State.sameJobs_drainEnd (s : State) (d no : Nat) : s.SameJobs (s.drainEnd d no) := by
  rw [State.drainEnd.eq_def]
  split
  · exact s.sameJobs_refl
  split
  · exact s.sameJobs_refl
  · next l _ _ _ _ =>
    extract_lets gone t busy acks wait
    have ht : s.SameJobs t := State.sameJobs_foldl (fun u (e : Nat × Strand) => u.sameJobs_vacate e.1) _ s
    have hrel : t.SameJobs (t.releaseLaunch l) := (State.sameMem_foldl (fun t u => t.sameMem_cleanL1 u _) _ t).sameJobs
    split
    · exact (ht.trans (State.sameJobs_ite t.sameJobs_refl hrel)).trans (State.sameJobs_closeLaunch _ _ _ _)
    · exact ht

/-- A copy that ends leaves the table of its die, and changes no other part of it that matters here. -/
theorem State.jobs_copyDone (s : State) (d j : Nat) (c : Copy) :
    ((s.copyDone d j c).die d).jobs = (Tab.del (s.die d).copies j, (s.die d).engines, (s.die d).regs) := by
  have hinherit : s.SameBesideMemory (s.inheritAcks (copyUid j) c.uid) := s.sameMem_mapDies _ fun _ => ⟨rfl, rfl⟩
  have hmap : ∀ (t : State) f, t.SameBesideMemory (t.mapBatches f) := fun t f => t.sameMem_mapDies _ fun _ => ⟨rfl, rfl⟩
  have hjobs := hinherit.sameJobs d
  rw [State.copyDone, State.sameJobs_drainEnd _ _ _ d, (hmap _ _).sameJobs d, State.die_onDie_self]
  simp only [Die.jobs, Prod.mk.injEq] at hjobs ⊢
  obtain ⟨hc, he, hr⟩ := hjobs
  exact ⟨by rw [hc], he, hr⟩

theorem transferJobComplete_of_moved {s : State} {d e j : Nat} {rest : List Nat} {x : Copy} (h : CpQuiet s d)
    (he : Tab.getD (s.die d).engines e [] = j :: rest) (hx : Tab.find (s.die d).copies j = some x) (hw : x.work = [])
    (ha : ∀ z ∈ s.dies, ∀ a ∈ z.2.acks, a.2.uid = copyUid j → a.2.lost = true) :
    ∃ t, exec (.transferJobComplete d e) s = .next t ∧ Tab.find (t.die d).copies j = none ∧ Tab.getD (t.die d).engines e [] = rest := by
  have hacks : s.ownAcks (copyUid j) = false := List.any_eq_false.2 fun z hz => by
    rw [Bool.not_eq_true, List.any_eq_false]
    intro a hain
    by_cases hu : a.2.uid = copyUid j
    · simp [ha z hz a hain hu]
    · simp [hu]
  have hbusy : (!x.work.isEmpty || s.ownAcks (copyUid j)) = false := by rw [hw, hacks]; rfl
  have hend : ∀ t : State, (t.die d).jobs = (Tab.del (s.die d).copies j, Tab.put (s.die d).engines e rest, (s.die d).regs) →
      t.reg d 0xD08 = s.reg d 0xD08 ∧ Tab.find ((t.kinds d).die d).copies j = none ∧ Tab.getD ((t.kinds d).die d).engines e [] = rest := fun t ht => by
    simp only [Die.jobs, Prod.mk.injEq] at ht
    obtain ⟨hc, hen, hr⟩ := ht
    rw [State.die_kinds]
    dsimp only
    rw [hc, hen, State.reg, hr]
    exact ⟨rfl, Tab.find_del_self _ _, Tab.getD_put_self _ _ _ _⟩
  rw [exec_transferJobComplete, execTransferJobComplete]
  cases hjob : x.job with
  | none =>
    have hjobs := (s.onDie d fun y => { y with engines := Tab.put y.engines e rest }).jobs_copyDone d j x
    rw [State.die_onDie_self] at hjobs
    obtain ⟨hr, hc, hen⟩ := hend _ hjobs
    refine ⟨_, cpAct_of_quiet_kinds h ?_ hr, hc, hen⟩
    rw [he]
    dsimp only
    rw [hx]
    dsimp only
    rw [hbusy, if_neg Bool.false_ne_true, hjob]
  | some p =>
    have hjobs := State.sameJobs_retireRec ((s.onDie d fun y => { y with engines := Tab.put y.engines e rest }).onDie d fun y =>
      { y with copies := Tab.del y.copies j }) d p.1 p.2 (if x.flt.isSome then 3 else 1) d
    rw [State.die_onDie_self, State.die_onDie_self] at hjobs
    obtain ⟨hr, hc, hen⟩ := hend _ hjobs
    refine ⟨_, cpAct_of_quiet_kinds h ?_ hr, hc, hen⟩
    rw [he]
    dsimp only
    rw [hx]
    dsimp only
    rw [hbusy, if_neg Bool.false_ne_true, hjob]

theorem waitsEndAndTransfersRun : WaitsEndAndTransfersRun :=
  ⟨fun _ _ _ _ _ _ _ h hq hl hr hread => ⟨waitRecordSatisfied_of_true h hq hl hr hread, waitRecordSatisfied_of_false h hq hl hr hread⟩,
    fun _ _ _ _ _ _ _ _ _ _ _ _ h hk hr hf ha ho hc hds hdk hdo hdc hx h5 ht => transfer_of_next h hk hr hf ha ho hc hds hdk hdo hdc hx h5 ht,
    fun s d e c he hw => s.placeCopy_of_engine d e c he hw, fun _ _ _ _ _ _ h he hx hw ha => transferJobComplete_of_moved h he hx hw ha⟩

/-- Settles O49: by the acceptance of a next record, once for all kinds, and by what the retirement of a record leaves. -/
theorem recordsStartAndWaitsEnd : Obligations.RecordsStartAndWaitsEnd := ⟨recordsOfQueuesStart, waitsEndAndTransfersRun⟩

end Sys2Proof.Machine
end

section
/-! PROOF of O50: launches begin, iterate and retire (R306, R309, R310, R315). -/

namespace Sys2Proof.Machine

open Sys2Proof.Claims

theorem exec_operator (d c : Nat) (s : State) : exec (.operator d c) s = execOperator d c s := rfl

theorem exec_launchBegin (d c : Nat) (s : State) : exec (.launchBegin d c) s = execLaunchBegin d c s := rfl

theorem exec_launchRetire (d l : Nat) (s : State) : exec (.launchRetire d l) s = execLaunchRetire d l s := rfl

theorem exec_batchIteration (d l : Nat) (s : State) : exec (.batchIteration d l) s = execBatchIteration d l s := rfl

theorem exec_batchAdmissionWake (d l : Nat) (s : State) : exec (.batchAdmissionWake d l) s = execBatchAdmissionWake d l s := rfl

/-! ### An acceptance that goes through (R305, R318) -/

theorem Acc.of_bind_ok {α β : Type} {r : Acc α} {f : α → State → Acc β} {b : β} {t : State} (h : r.bind f = .ok b t) :
    ∃ a u, r = .ok a u ∧ f a u = .ok b t := by
  cases r with
  | ok a u => exact ⟨a, u, rfl, h⟩
  | out n c u => nomatch h
  | broke u => nomatch h
  | wait u => nomatch h

theorem State.of_refuseIf_ok {s t : State} {b : Bool} {a : Unit} (h : s.refuseIf b = .ok a t) : b = false ∧ t = s := by
  rw [State.refuseIf] at h
  split at h
  · nomatch h
  · next hb =>
    cases h
    exact ⟨by simpa using hb, rfl⟩

theorem State.of_needs_ok {s t : State} {d ctx : Nat} {l : List (Nat × Nat × Bool)} {a : Unit} (h : s.needs d ctx l = .ok a t) : t = s := by
  rw [State.needs] at h
  split at h
  · nomatch h
  · cases h
    rfl

theorem Acc.of_read_ok {α : Type} {r : Res α} {a : α} {t : State} (h : Acc.read r = .ok a t) : r = .ok a t := by
  cases r with
  | ok b u =>
    cases h
    rfl
  | flt f u => nomatch h
  | wait c o u => nomatch h

/-- An operator that is admitted: its launch record and its stage descriptors are read, and it joins its slot's records. -/
theorem State.of_expand_ok {s t u : State} {d c : Nat} {q : QSlot} {ws : List Word} (h : s.expand d c q ws = .ok t u) :
    ∃ lr a desc b foot bars, s.readWords (cpWho d (s.qctx d q.q)) kLoad (ws.getD 1 0).toNat 8 = .ok lr a ∧
      a.readWords (cpWho d (s.qctx d q.q)) kLoad (lr.getD 1 0).toNat (8 * ((lr.getD 0 0).toNat % 16 + 1)) = .ok desc b ∧ launchBad ws lr = false ∧
      t = u.acceptRec d c { idx := q.head, words := ws, foot := foot, lr := lr, desc := desc, bars := bars } := by
  rw [State.expand.eq_def] at h
  extract_lets ctx w va bva at h
  obtain ⟨_, s1, h1, g1⟩ := Acc.of_bind_ok h
  cases (State.of_refuseIf_ok h1).2
  obtain ⟨_, s2, h2, g2⟩ := Acc.of_bind_ok g1
  cases State.of_needs_ok h2
  obtain ⟨lr, a, hlr, g3⟩ := Acc.of_bind_ok g2
  obtain ⟨_, s4, h4, g4⟩ := Acc.of_bind_ok g3
  obtain ⟨hgood, h4'⟩ := State.of_refuseIf_ok h4
  cases h4'
  extract_lets nst stva barn at g4
  obtain ⟨_, s5, h5, g5⟩ := Acc.of_bind_ok g4
  cases State.of_needs_ok h5
  obtain ⟨desc, b, hdesc, g6⟩ := Acc.of_bind_ok g5
  obtain ⟨bt, s7, -, g7⟩ := Acc.of_bind_ok g6
  dsimp only at g7
  obtain ⟨_, s8, -, g8⟩ := Acc.of_bind_ok g7
  obtain ⟨_, s9, -, g9⟩ := Acc.of_bind_ok g8
  obtain ⟨hd, s10, -, g10⟩ := Acc.of_bind_ok g9
  obtain ⟨_, s11, -, g11⟩ := Acc.of_bind_ok g10
  obtain ⟨_, s12, -, g12⟩ := Acc.of_bind_ok g11
  obtain ⟨foot, s13, -, g13⟩ := Acc.of_bind_ok g12
  obtain ⟨_, s14, -, g14⟩ := Acc.of_bind_ok g13
  split at g14
  · nomatch g14
  · cases g14
    refine ⟨lr, _, desc, b, foot, (barEntries bt barn).1, Acc.of_read_ok hlr, ?_, hgood, rfl⟩
    have hn : nst = (lr.getD 0 0).toNat % 16 + 1 := congrArg (· + 1) (bits_low _ _)
    rw [← hn]
    exact Acc.of_read_ok hdesc

theorem operator_of_next {s s2 s3 s4 : State} {d c : Nat} {q : QSlot} {ws : List Word} (h : NextRecord s d c q ws s2) (hk : recKind ws = 1)
    (he : s2.expand d c q ws = .ok s3 s4) (hq : s4.qslot d c = some q) (hm : bits (s4.reg d 0xD08) 12 44 = 0) :
    ∃ t lr a desc b foot bars, exec (.operator d c) s = .next t ∧
      s2.readWords (cpWho d (s2.qctx d q.q)) kLoad (ws.getD 1 0).toNat 8 = .ok lr a ∧
      a.readWords (cpWho d (s2.qctx d q.q)) kLoad (lr.getD 1 0).toNat (8 * ((lr.getD 0 0).toNat % 16 + 1)) = .ok desc b ∧
      launchBad ws lr = false ∧ Accepted q { idx := q.head, words := ws, foot := foot, lr := lr, desc := desc, bars := bars, started := false } d c t ∧
      t.mem = s4.mem ∧ t.strands = s4.strands ∧ (t.die d).launches = (s4.die d).launches := by
  obtain ⟨lr, a, desc, b, foot, bars, hlr, hdesc, hgood, rfl⟩ := State.of_expand_ok he
  refine ⟨_, lr, a, desc, b, foot, bars, ?_, hlr, hdesc, hgood, accepted_acceptRec hq _, State.mem_acceptRec hq _, ?_, ?_⟩
  · rw [exec_operator, execOperator]
    refine cpAct_of_next h (State.recordStep_of_next h (by rw [hk]; rfl) he) ?_
    rw [State.reg_acceptRec hq]
    exact hm
  · rw [State.acceptRec_eq hq]
    rfl
  · rw [State.die_kinds]
    exact State.part_acceptRec hq _ Die.launches fun _ _ => rfl

/-! ### Slots that a launch takes (R309): of a launch they change only its tiles -/

/-- A launch without its tiles. -/
def Launch.untiled (l : Launch) : Launch := { l with tiles := [] }

/-- The launches of die `d` in `t` are those in `s` but for their tiles; its registers and the number of its next launch stand as they are. -/
structure State.SameLaunches (d : Nat) (s t : State) : Prop where
  launch : ∀ no, (t.launch d no).map Launch.untiled = (s.launch d no).map Launch.untiled
  reg    : ∀ off, t.reg d off = s.reg d off
  next   : (t.die d).nextL = (s.die d).nextL

theorem State.sameLaunches_refl (d : Nat) (s : State) : s.SameLaunches d s := ⟨fun _ => rfl, fun _ => rfl, rfl⟩

theorem State.SameLaunches.trans {d : Nat} {s t u : State} (h : s.SameLaunches d t) (g : t.SameLaunches d u) : s.SameLaunches d u :=
  ⟨fun no => (g.launch no).trans (h.launch no), fun off => (g.reg off).trans (h.reg off), g.next.trans h.next⟩

theorem State.sameLaunches_of_die {d : Nat} {s t : State} (hl : (t.die d).launches = (s.die d).launches) (hr : (t.die d).regs = (s.die d).regs)
    (hn : (t.die d).nextL = (s.die d).nextL) : s.SameLaunches d t :=
  ⟨fun no => by rw [State.launch, hl, State.launch], fun off => by rw [State.reg, hr, State.reg], hn⟩

theorem State.SameBesideMemory.sameLaunches {s t : State} (h : s.SameBesideMemory t) (d : Nat) : s.SameLaunches d t :=
  State.sameLaunches_of_die (h.part Die.launches d) (h.part Die.regs d)
    (h.part Die.nextL d)

theorem State.sameLaunches_foldl {α : Type} {d : Nat} {f : State → α → State} (h : ∀ (s : State) a, s.SameLaunches d (f s a)) (l : List α) (s : State) :
    s.SameLaunches d (l.foldl f s) := by
  induction l generalizing s with
  | nil => exact s.sameLaunches_refl d
  | cons a l ih => exact (h s a).trans (ih _)

theorem State.sameLaunches_onLaunch_tiles (s : State) (d no : Nat) (f : Launch → List Nat) :
    s.SameLaunches d (s.onLaunch d no fun l => { l with tiles := f l }) := by
  rw [State.onLaunch]
  split
  · exact s.sameLaunches_refl d
  · next l hl =>
    refine ⟨fun n => ?_, fun off => State.reg_onDie rfl off, by rw [State.die_onDie_self]⟩
    rw [State.launch, State.die_onDie_self]
    by_cases hn : n = no
    · rw [hn, Tab.find_put_self, hl]
      rfl
    · rw [Tab.find_put_ne _ _ hn, State.launch]

theorem State.sameLaunches_setBars (d t no : Nat) (l : List (Nat × Nat)) (s : State) :
    s.SameLaunches d (l.foldl (fun (s : State) (b : Nat × Nat) => s.setBar t b.1 { owner := some no, count := b.2 }) s) :=
  State.sameLaunches_foldl (fun x b => State.sameLaunches_of_die (s := x) (t := x.setBar t b.1 { owner := some no, count := b.2 }) rfl rfl rfl) l s

theorem State.sameLaunches_flush (s : State) (d : Nat) (p : Prop) [Decidable p] (l : List Nat) :
    s.SameLaunches d (if p then l.foldl (fun (s : State) u => s.flushL1 u [1, 2]) s else s) := by
  split
  · exact (State.sameMem_foldl (fun x y => x.sameMem_flushL1 y _) _ s).sameLaunches d
  · exact s.sameLaunches_refl d

theorem State.sameLaunches_giveSlot (s : State) (d no st k : Nat) : s.SameLaunches d (s.giveSlot d no st k) := by
  have assigned : ∀ t : State, t.SameLaunches d (t.onDie d fun x => { x with assign := Tab.put x.assign k (no, st) }) := fun t => by
    refine State.sameLaunches_of_die ?_ ?_ ?_ <;> rw [State.die_onDie_self]
  rw [State.giveSlot.eq_def]
  extract_lets t u
  refine State.SameLaunches.trans ?_ (assigned u)
  dsimp only [u]
  split
  · exact s.sameLaunches_refl d
  · split
    · exact s.sameLaunches_refl d
    · exact ((s.sameLaunches_flush d _ _).trans (State.sameLaunches_setBars _ _ _ _ _)).trans (State.sameLaunches_onLaunch_tiles _ _ _ _)

theorem State.sameLaunches_takeSlots (s : State) (d : Nat) (l : Launch) : s.SameLaunches d (s.takeSlots d l) := by
  rw [State.takeSlots]
  refine State.SameLaunches.trans (State.sameLaunches_foldl (fun t st => ?_) _ s) (State.sameLaunches_foldl (fun t i => ?_) _ _)
  · split
    · exact t.sameLaunches_refl d
    · rw [State.oneSlot]
      split
      · exact t.sameLaunches_giveSlot d _ _ _
      · exact t.sameLaunches_refl d
  · dsimp only
    split
    · split
      · exact t.sameLaunches_giveSlot d _ _ _
      · exact t.sameLaunches_refl d
    · exact t.sameLaunches_refl d

theorem State.sameLaunches_allot (s : State) (d : Nat) : s.SameLaunches d (s.allot d) :=
  State.sameLaunches_foldl (fun t l => t.sameLaunches_takeSlots d l) _ s

/-! ### The beginning of a launch (R309) -/

theorem length_upFrom (a n : Nat) : (upFrom a n).length = n := by
  induction n generalizing a with
  | zero => rfl
  | succ n ih => rw [upFrom, List.length_cons, ih]

/-- The launch of an operator record of a slot that does not span, as it begins. -/
def State.newLaunch (s : State) (d c : Nat) (q : QSlot) (r : Rec) : Launch :=
  { no := (s.die d).nextL, cslot := c, ctx := s.qctx d q.q, oprec := BitVec.ofNat 64 (s.recAddr d q.q r.idx), tag := recTag r.words, lr := r.lr,
    n := bits (r.words.getD 2 0) 0 32, group := 0, batch := r.words.getD 3 0,
    stages := (upFrom 0 (bits (r.lr.getD 0 0) 0 4 + 1)).map fun k => ({ desc := (upFrom 0 8).map (stageWord r.desc k) } : Stage),
    bars := r.bars, begun := true, sp := 0, met := [d] }

/-- The state once it is entered in its die, and its record marked. -/
def State.withLaunch (s : State) (d c : Nat) (q : QSlot) (r : Rec) : State :=
  ((s.onDie d fun x => { x with nextL := (s.die d).nextL + 1 }).setLaunch d (s.newLaunch d c q r)).markBegun d c r.idx (s.die d).nextL

theorem State.die_markBegun (s : State) (d c idx no : Nat) :
    (s.markBegun d c idx no).die d = { s.die d with qslots := ((s.markBegun d c idx no).die d).qslots } := by
  rw [State.markBegun, State.onQslot]
  split
  · rfl
  · rw [State.die_onDie_self]

theorem State.withLaunch_parts (s : State) (d c : Nat) (q : QSlot) (r : Rec) :
    (s.withLaunch d c q r).launch d (s.die d).nextL = some (s.newLaunch d c q r) ∧ ((s.withLaunch d c q r).die d).nextL = (s.die d).nextL + 1 ∧
      ∀ off, (s.withLaunch d c q r).reg d off = s.reg d off := by
  have hd : (s.withLaunch d c q r).die d = { s.die d with
      nextL := (s.die d).nextL + 1, launches := Tab.put (s.die d).launches (s.die d).nextL (s.newLaunch d c q r),
      qslots := ((s.withLaunch d c q r).die d).qslots } := by
    rw [State.withLaunch, State.die_markBegun, State.setLaunch, State.die_onDie_self, State.die_onDie_self]
    rfl
  refine ⟨?_, by rw [hd], fun off => ?_⟩
  · rw [State.launch, hd]
    exact Tab.find_put_self _ _ _
  · rw [State.reg, hd, State.reg]

section
variable {s : State} {d c : Nat} {q : QSlot} {r : Rec}

theorem State.beginLaunch_of_local (hspan : (r.lr.getD 0 0).getLsbD 6 = false) : s.beginLaunch d c q r = (s.withLaunch d c q r).allot d := by
  rw [State.beginLaunch, hspan]
  rw [State.writeShare, if_neg Bool.false_ne_true]
  dsimp only
  rw [if_neg Bool.false_ne_true, if_neg Bool.false_ne_true, State.peersOf, if_neg]
  · rfl
  · rw [Launch.span, Launch.word, hspan]
    exact Bool.false_ne_true

variable (h : CpQuiet s d) (hq : s.qslot d c = some q) (hc : c < 128) (hf : s.flushing d q.q = false)
  (hr : q.recs.find? (fun y => !y.started) = some r) (hw : startWhy r.words r.foot (q.recs.filter fun y => y.idx != r.idx) = none)
  (hspan : (r.lr.getD 0 0).getLsbD 6 = false)
include h hq hc hf hr hw hspan

theorem exec_launchBegin_of_free : exec (.launchBegin d c) s = .next (((s.withLaunch d c q r).allot d).kinds d) := by
  have hcut : s.groupCut d r.words r.lr = false := by rw [State.groupCut, hspan, Bool.false_and]
  have hreg : ((s.withLaunch d c q r).allot d).reg d 0xD08 = s.reg d 0xD08 :=
    ((State.sameLaunches_allot _ d).reg _).trans ((s.withLaunch_parts d c q r).2.2 _)
  rw [exec_launchBegin, execLaunchBegin]
  refine cpAct_of_quiet_kinds h ?_ hreg
  rw [hq]
  dsimp only
  rw [hr]
  dsimp only
  rw [hf, Bool.or_false, if_neg (by simpa using hc), hw]
  dsimp only
  rw [hcut, if_neg Bool.false_ne_true, hspan, if_neg Bool.false_ne_true]
  exact State.beginLaunch_of_local hspan

theorem launchBegin_of_free :
    ∃ t lc, exec (.launchBegin d c) s = .next t ∧ t.launch d (s.die d).nextL = some lc ∧ lc.begun = true ∧ lc.limit = 0 ∧
      lc.n = (r.words.getD 2 0).toNat % 2 ^ 32 ∧ lc.ctx = s.qctx d q.q ∧ lc.lr = r.lr ∧ lc.oprec.toNat = s.recAddr d q.q r.idx % 2 ^ 64 ∧
      lc.stages.length = (r.lr.getD 0 0).toNat % 16 + 1 ∧ (t.die d).nextL = (s.die d).nextL + 1 := by
  obtain ⟨hlaunch, hnext, -⟩ := s.withLaunch_parts d c q r
  have hsame := State.sameLaunches_allot (s.withLaunch d c q r) d
  have hkept := hsame.launch (s.die d).nextL
  rw [hlaunch] at hkept
  obtain ⟨lc, hlc, heq⟩ := Option.map_eq_some_iff.1 hkept
  have heq' : lc = { s.newLaunch d c q r with tiles := lc.tiles } := by
    have := congrArg (fun l : Launch => { l with tiles := lc.tiles }) heq
    exact this
  refine ⟨_, lc, exec_launchBegin_of_free h hq hc hf hr hw hspan, ?_, ?_⟩
  · rw [State.launch, State.die_kinds]
    exact hlc
  · rw [State.die_kinds, hsame.next, hnext, heq']
    refine ⟨rfl, rfl, bits_low _ _, rfl, rfl, BitVec.toNat_ofNat _ _, ?_, rfl⟩
    rw [State.newLaunch, List.length_map, length_upFrom]
    exact congrArg (· + 1) (bits_low _ _)

end

/-! ### The retirement of a launch (R310) -/

/-- Launch `no` of die `d` is gone from `t`, with its slots, and the strands are those of `s`. -/
structure State.Closed (d no : Nat) (s t : State) : Prop where
  launch  : t.launch d no = none
  assign  : ∀ a ∈ (t.die d).assign, a.2.1 ≠ no
  strands : t.strands = s.strands

theorem State.Closed.of_die {d no : Nat} {s t u : State} (h : State.Closed d no s t) (hl : (u.die d).launches = (t.die d).launches)
    (ha : (u.die d).assign = (t.die d).assign) (hs : u.strands = t.strands) : State.Closed d no s u :=
  ⟨by rw [State.launch, hl]; exact h.launch, by rw [ha]; exact h.assign, hs.trans h.strands⟩

theorem State.Closed.onDie {d no : Nat} {s t : State} (h : State.Closed d no s t) (f : Die → Die)
    (hf : ∀ x : Die, (f x).launches = x.launches ∧ (f x).assign = x.assign := by exact fun _ => ⟨rfl, rfl⟩) :
    State.Closed d no s (t.onDie d f) :=
  h.of_die (by rw [State.die_onDie_self, (hf _).1]) (by rw [State.die_onDie_self, (hf _).2]) rfl

/-- So it stays while its operator's record retires. -/
theorem State.Closed.retireRec {d no : Nat} {s t : State} (h : State.Closed d no s t) (c idx status : Nat) :
    State.Closed d no s (t.retireRec d c idx status) := by
  obtain ⟨u, hu, hr⟩ := t.retireRec_parts d c idx status
  have hc : State.Closed d no s u := h.of_die (hu.part Die.launches d)
    (hu.part Die.assign d) hu.strands
  rcases hr with hr | ⟨g, hr⟩
  · rw [hr]
    exact hc
  · rw [hr]
    exact hc.onDie _

theorem State.closed_closeLaunch {s : State} {d no : Nat} {x : Launch} (h : s.launch d no = some x) (status : Nat) :
    State.Closed d no s (s.closeLaunch d no status) := by
  rw [State.closeLaunch.eq_def]
  split
  · next hn =>
    rw [h] at hn
    nomatch hn
  extract_lets flushed freed gone
  have hstrands : flushed.strands = s.strands :=
    (State.sameMem_ite (State.sameMem_foldl (fun t u => t.sameMem_flushL1 u _) _ s) s.sameMem_refl).strands
  have hgone : State.Closed d no s gone := by
    refine ⟨?_, fun a ha => ?_, hstrands⟩
    · rw [State.launch, State.die_onDie_self]
      exact Tab.find_del_self _ _
    · rw [State.die_onDie_self] at ha
      simpa using (List.mem_filter.1 ha).2
  split
  · exact (hgone.onDie _).retireRec _ _ _
  · exact hgone

theorem launchRetire_of_done {s : State} {d l : Nat} {x : Launch} (h : CpQuiet s d) (hx : s.launch d l = some x) (hb : x.begun = true)
    (he : x.ending = none) (hs : s.strandsDone d x = true) (hi : x.initDone = true) (hn : s.noneLeft d x = true)
    (hw : s.backWaits (x.tiles.flatMap s.l1s) [1, 2] = false) :
    ∃ t, exec (.launchRetire d l) s = .next t ∧ t.launch d l = none ∧ (∀ a ∈ (t.die d).assign, a.2.1 ≠ l) ∧ t.strands = s.strands := by
  have hrel : s.SameBesideMemory (s.releaseLaunch x) := State.sameMem_foldl (fun t u => t.sameMem_cleanL1 u _) _ s
  have hx' : (s.releaseLaunch x).launch d l = some x := by
    rw [State.launch, hrel.part Die.launches d]
    exact hx
  have hclosed := State.closed_closeLaunch hx' 1
  have hjobs := (hrel.sameJobs.trans (State.sameJobs_closeLaunch _ d l 1)) d
  simp only [Die.jobs, Prod.mk.injEq] at hjobs
  obtain ⟨-, -, hregs⟩ := hjobs
  refine ⟨((s.releaseLaunch x).closeLaunch d l 1).kinds d, ?_, ?_, ?_, hclosed.strands.trans hrel.strands⟩
  · rw [exec_launchRetire, execLaunchRetire]
    refine cpAct_of_quiet_kinds h ?_ (by rw [State.reg, hregs, State.reg])
    rw [hx]
    dsimp only
    rw [hb, he, hs, hi, hn, hw]
    rfl
  · rw [State.launch, State.die_kinds]
    exact hclosed.launch
  · rw [State.die_kinds]
    exact hclosed.assign

theorem launchesBeginAndRetire : LaunchesBeginAndRetire :=
  ⟨fun _ _ _ _ _ _ _ _ h hk he hq hm => operator_of_next h hk he hq hm,
    fun _ _ _ _ _ h hq hc hf hr hw hspan => launchBegin_of_free h hq hc hf hr hw hspan,
    fun _ _ _ _ h hx _ hb he hs hi hn hw => launchRetire_of_done h hx hb he hs hi hn hw⟩

/-! ### Batched launches (R315) -/

/-- The launch as the scheduler's step over its batch table leaves it. -/
def Launch.iterated (n : Nat) (seen : Word) (l : Launch) : Launch :=
  { l with n := n, limit := 0, iter := decide (n ≠ 0), bwait := decide (n = 0) && !seen.getLsbD 0, seen := some seen }

section
variable {s u : State} {d l n : Nat} {x lu : Launch} {seen : Word} (hd : d < 4) (hx : s.launch d l = some x) (he : x.ending = none)
include hd hx

/-- While an iteration runs none begins. -/
theorem batchIteration_of_running (hi : x.iter = false) : exec (.batchIteration d l) s = .next s := by
  rw [exec_batchIteration, execBatchIteration]
  refine (onUnit_of_present hd _).trans (congrArg Host.Outcome.next ?_)
  rw [hx]
  dsimp only
  rw [hi]
  simp

include he

/-- Between iterations the scheduler takes its step. -/
theorem exec_batchIteration_of_ended (hb : x.batch ≠ 0) (hbegun : x.begun = true) (hi : x.iter = true) (hlim : x.n ≤ x.limit)
    (hs : s.strandsDone d x = true) : exec (.batchIteration d l) s = .next (s.batchStep d x) := by
  rw [exec_batchIteration, execBatchIteration]
  refine (onUnit_of_present hd _).trans (congrArg Host.Outcome.next ?_)
  rw [hx]
  dsimp only
  rw [if_neg]
  simpa [hbegun, he, hi, hs, hlim] using hb

section
variable {w0 w2 : Word} {a b : State} (hw : x.bwait = true) (h0 : s.batchWord d x 0 = .ok w0 a) (h2 : a.batchWord d x 2 = .ok w2 b)
include hw h0 h2

/-- A launch that waits for admissions looks at ATAIL and CLOSE. -/
theorem exec_batchAdmissionWake_of_waiting {t : State} (ht : (if x.seen = some (batchSeen w0 w2) then s else s.batchStep d x) = t) :
    exec (.batchAdmissionWake d l) s = .next t := by
  rw [exec_batchAdmissionWake, execBatchAdmissionWake]
  refine (onUnit_of_present hd _).trans (congrArg Host.Outcome.next ?_)
  rw [hx]
  dsimp only
  rw [hw, he, if_neg (by simp), h0, Res.bind, h2, Res.bind]
  exact ht

end

end

/-- The step over a table that can be read and written. -/
theorem State.batchStep_of_ok {s u : State} {d l n : Nat} {x lu : Launch} {seen : Word} (hno : x.no = l) (ht : s.batchTable d x = .ok (n, seen) u)
    (hu : u.launch d l = some lu) : (s.batchStep d x).mem = u.mem ∧ (s.batchStep d x).launch d l = some (lu.iterated n seen) := by
  have hstep : s.batchStep d x = u.onDie d fun y => { y with launches := Tab.put y.launches l (lu.iterated n seen) } := by
    rw [State.batchStep.eq_def, ht]
    dsimp only
    rw [hno, State.onLaunch, hu]
    rfl
  rw [hstep, State.launch, State.die_onDie_self]
  exact ⟨rfl, Tab.find_put_self _ _ _⟩

theorem batchedLaunchesIterate : BatchedLaunchesIterate := by
  intro s d l x n seen u lu hd hx hno he ht hu _
  obtain ⟨hmem, hlaunch⟩ := State.batchStep_of_ok hno ht hu
  refine ⟨fun hb hbegun hi hlim hs => ⟨s.batchStep d x, lu.iterated n seen, ?_, hmem, hlaunch, rfl, rfl, rfl, rfl⟩, ?_, ?_, ?_⟩
  · exact exec_batchIteration_of_ended hd hx he hb hbegun hi hlim hs
  · exact batchIteration_of_running hd hx
  · exact fun w0 w2 a b hw h0 h2 hseen => exec_batchAdmissionWake_of_waiting hd hx he hw h0 h2 (if_pos hseen)
  · exact fun w0 w2 a b hw h0 h2 hseen =>
      ⟨s.batchStep d x, lu.iterated n seen, exec_batchAdmissionWake_of_waiting hd hx he hw h0 h2 (if_neg hseen), hmem, hlaunch, rfl, rfl⟩

/-- Settles O50: by the inversion of an operator's acceptance, and by what the allotment of slots and the end of a launch leave. -/
theorem launchesRun : Obligations.LaunchesRun := ⟨launchesBeginAndRetire, batchedLaunchesIterate⟩

end Sys2Proof.Machine
end
